-- ==== Sys2Proof/Word.lean ====
section
/-! DEFINITION. The word types of the AK768 and the names its instruction fields and formats carry (00_scope, 04, 10). -/

namespace Sys2Proof

/-- One aligned byte, a location of R117. -/
abbrev Byte := BitVec 8
/-- A 32-bit word of a vector register (R20, R26). -/
abbrev Word := BitVec 32
/-- A 64-bit scalar register (R204). -/
abbrev DWord := BitVec 64
/-- An 80-bit virtual address (R94). -/
abbrev VAddr := BitVec 80
/-- A 96-bit instruction word (R188). -/
abbrev InsnWord := BitVec 96
/-- A set of lanes of one team, lane i at bit i: 32 mask words of 32 bits (R21). -/
abbrev LaneMask := BitVec 1024

/-- v0 to v383 (Table 10.3). -/
abbrev VReg := Fin 384
/-- s0 to s63 (Table 10.3). -/
abbrev SReg := Fin 64
/-- p0 to p7 (Table 10.4). -/
abbrev PReg := Fin 8
/-- j0 to j7 (Table 10.4). -/
abbrev JReg := Fin 8
/-- q0 to q7 (Table 10.4). -/
abbrev QReg := Fin 8
/-- a0 to a15 (Table 10.4). -/
abbrev TileNo := Fin 16
/-- k0 to k31 (Table 10.4). -/
abbrev KReg := Fin 32
/-- b0 to b255 (Table 10.4). -/
abbrev BufNo := Fin 256

/-- A PC is a block address together with a slot from 0 to 4 (R188). -/
structure PC where
  blk : VAddr
  slot : Nat
  deriving DecidableEq, Repr

/-- Block address first, then slot (R33, R217). -/
def PC.lt (a b : PC) : Bool :=
  a.blk.toNat < b.blk.toNat || (a.blk.toNat == b.blk.toNat && a.slot < b.slot)

/-- Rounding modes of R73. -/
inductive RM where
  | rne | rtz | rdn | rup
  deriving DecidableEq, Repr

/-- Comparison codes of ICMP, SCMP and SBR (R224). -/
inductive CC where
  | eq | ne | lt | le | gt | ge | ltn | len | gtn | gen
  deriving DecidableEq, Repr

/-- SALU and KALU operations (R237, R306). -/
inductive AluOp where
  | add | sub | mul | and | or | xor | shl | shr | sar | min | max
  deriving DecidableEq, Repr

/-- Format codes 0 to 13 of CVT and ACC.OUT (Table 10.10). -/
inductive Fmt where
  | i8 | i16 | i32 | i64 | n8 | n16 | n32 | n64 | f16 | bf16 | f32 | f64 | e4m3 | e5m2
  deriving DecidableEq, Repr

/-- MMP A format codes 0 to 7 (R199, R294). -/
inductive AFmt where
  | i1 | i2 | i4 | i8 | e4m3 | e5m2 | bf16 | f16
  deriving DecidableEq, Repr

/-- MMP B format codes 0 to 4 (R199, R294). -/
inductive BFmt where
  | i8 | n8 | e4m3 | e5m2 | bf16
  deriving DecidableEq, Repr

/-- Memory spaces (R93). -/
inductive Space where
  | g | w | l
  deriving DecidableEq, Repr

/-- Scopes (Table 06.1). -/
inductive Scope where
  | team | crew | core | part | sys
  deriving DecidableEq, Repr

/-- Order modifiers of a memory instruction (Table 10.12). -/
inductive Order where
  | none | acq | rel | ar
  deriving DecidableEq, Repr

/-- FENCE modes (R123). -/
inductive FenceMode where
  | sc | acq | rel | ar
  deriving DecidableEq, Repr

/-- Access widths, codes 0 to 7 (Table 10.12). -/
inductive Width where
  | n8 | i8 | n16 | i16 | w32 | w64 | b128 | b256
  deriving DecidableEq, Repr

/-- TY 00 f32, 01 f64 (R245 to R247, R253). -/
inductive FTy where
  | f32 | f64
  deriving DecidableEq, Repr

/-- TY 00 f16, 01 bf16 (R249). -/
inductive HTy where
  | f16 | bf16
  deriving DecidableEq, Repr

/-- TY 00 f32, 01 f16, 10 f64 of FKEY (R254). -/
inductive KTy where
  | f32 | f16 | f64
  deriving DecidableEq, Repr

/-- TY 00 i32, 01 n32, 10 f32 of BANDRED MIN and MAX (R261). -/
inductive BTy where
  | i32 | n32 | f32
  deriving DecidableEq, Repr

/-- RED operation codes 0 to 5 and 8 (R273). -/
inductive RedOp where
  | add | min | max | and | or | xor | fadd
  deriving DecidableEq, Repr

/-- ATOM's operations beyond RED's. -/
inductive AOp where
  | red (op : RedOp)
  | swap
  | cas
  deriving DecidableEq, Repr

/-- What a peer's access over an Ethes link does: it reads, writes a value, or performs an atomic of 4 or 8 bytes (R168, R171). -/
inductive Inbound where
  | read
  | write (v : Nat)
  | atomic (op : AOp) (wide uns : Bool) (c n : Nat)
  deriving DecidableEq, Repr

/-- A partition's traffic at a CXL port (R389). -/
structure IdePlace where
  part : Nat
  port : Nat
  deriving DecidableEq, Repr

/-- SWAIT comparisons (R63, R320). -/
inductive WaitCmp where
  | eq | ne | ge | lt
  deriving DecidableEq, Repr

/-- Special registers 448 to 467 (Table 11.1). -/
inductive Spec where
  | lane | team | crew | launch | core | quarter | migr | cycles | stkbase | stklim
  | bufd | bufa | bufb | tsave | tvec | tcause | draws | nlanes | nteams | ncrew
  deriving DecidableEq, Repr

/-- A register read by an instruction: vector or scalar (Table 10.3). -/
inductive Reg where
  | v (n : Nat)
  | s (n : Nat)
  deriving DecidableEq, Repr

/-- Ports of a router, in the folding order after the local flit (R300, R326). -/
inductive Port where
  | west | north | east | south
  deriving DecidableEq, Repr

/-- The engines that acknowledge a pre-emption (Table 02.3). -/
inductive Engine where
  | team (tid : Nat)
  | spindle (core : Nat)
  | hoist (core : Nat)
  | slotUnit
  | tokenQueue
  /-- The routers of a core. -/
  | router (core : Nat)
  deriving DecidableEq, Repr

/-- A store that SECDED protects (R378, Table 24.1). -/
inductive SramPlace where
  | lodeSlice (slice : Nat)
  | scratch (core : Nat)
  deriving DecidableEq, Repr

/-- What a patrol or an access finds in a line (R377, R378). -/
inductive EccFinding where
  | clean | corrected | uncorrectable
  deriving DecidableEq, Repr

/-- Where an uncorrectable value lies (Table 24.1). -/
inductive ErrPlace where
  /-- Register file, scratchpad, mask queue or stack cache of a team's core; the row, when it is one of the scratchpad. -/
  | teamStore (tid : Nat) (row : Option Nat)
  /-- The same in the core of the team's shadow (R383). -/
  | shadowStore (tid : Nat) (row : Option Nat)
  /-- An accumulator tile: core, bank, tile. -/
  | accTile (core bank tile : Nat)
  /-- A line of a physical buffer of a partition. -/
  | bufLine (part line : Nat)
  /-- A line of a partition's Lode direct memory. -/
  | lodeLine (part line : Nat)
  /-- The slot table of a partition. -/
  | slotTable (part : Nat)
  /-- Storage of a token queue. -/
  | queueStore (queue : Nat)
  deriving DecidableEq, Repr

/-- A request at a port that has not had its completion (R368 to R372). -/
inductive IoReq where
  /-- The read of producer number idx of a team, for a lane. -/
  | read (tid idx lane : Nat)
  /-- A CXL.mem or Ethes write of a team, by its place among the team's outstanding writes. -/
  | write (tid idx : Nat)
  /-- The AtomicOp of a team's issuing host atomic, for a participant. -/
  | atomic (tid lane : Nat)
  /-- The chunk that a copy has in flight, with its reads and writes, by the copy's number. -/
  | chunk (age : Nat)
  /-- The write of the ACC.SPILL that a core's Spindle runs. -/
  | spill (core : Nat)
  /-- The read of a task in the window of a partition. -/
  | task (part seq : Nat)
  /-- The write of an SSIGNAL that has retired. -/
  | ssignal (part : Nat)
  /-- The reads of this clock of a line beyond a port, by the store's number and the line: of a table entry, a block, a stack frame,
  a trap frame, or any other read that is answered at once (R366, R368). -/
  | line (store n : Nat)
  /-- The compare-and-swaps of this clock on a line of host memory, for the A and D bits (R366). -/
  | cas (n : Nat)
  deriving DecidableEq, Repr

/-- What carries a signature of a mirrored launch (R384): the instruction or the replay entry that a team holds, a chunk that
a copy writes to global memory, by the copy's number and the chunk's, or an ACC.SPILL, by its number. -/
inductive SigOf where
  | team (tid : Nat)
  | chunk (age k : Nat)
  | spill (age : Nat)
  deriving DecidableEq, Repr

/-- How a completion fails at a port (R368). -/
inductive PortErr where
  | unsupported | abort | poison
  deriving DecidableEq, Repr

end Sys2Proof
end

