-- ==== Sys2Proof/Syntax.lean ====
section
/-! DEFINITION. The instructions and events of the AK768: one constructor per row of spec/opcode_table.json, in its order. -/

namespace Sys2Proof

/-- The fields every core instruction has: guard, empty-read bits and hints (R192 to R194). -/
structure Ctl where
  /-- G: 0 every active lane; 0b0nnn lanes whose pn is true; 0b1nnn lanes whose pn is false (R192). -/
  g : BitVec 4
  /-- FE: bit 0 source A, bit 1 source B, bit 2 source C (R193). -/
  fe : BitVec 3
  /-- H: SPIN 7, PREFETCH 6:5, COLD 4 (R194). -/
  h : BitVec 8
  deriving DecidableEq, Repr

/-- B/i of a vector form: a register, or X with M[7] = 1 (R203). -/
inductive VB where
  | reg (r : VReg)
  | imm (x : Word)
  deriving DecidableEq, Repr

/-- A C operand, or another operand that names a vector or a scalar register (R242). -/
inductive VC where
  | v (r : VReg)
  | s (r : SReg)
  deriving DecidableEq, Repr

/-- B/i of a form on scalar registers (R203). -/
inductive SB where
  | reg (r : SReg)
  | imm (x : Word)
  deriving DecidableEq, Repr

/-- B/i of KALU (R306). -/
inductive KB where
  | reg (r : KReg)
  | imm (x : Word)
  deriving DecidableEq, Repr

/-- The lane or delta of SHFL: a register, or X[20:16] with I = 1 (R259). -/
inductive LB where
  | reg (r : VReg)
  | imm (n : BitVec 5)
  deriving DecidableEq, Repr

/-- The lane-exchange extension (Table 10.9, R257). -/
structure LX where
  /-- The membership register; none is .all. -/
  members : Option VC
  /-- .lead. -/
  lead : Bool
  /-- The absent predicate; p0 is none. -/
  absent : PReg
  deriving DecidableEq, Repr

/-- The memory operand of LD, ST, ATOM and RED (R265, Table 10.12). -/
structure MemOp where
  space : Space
  order : Order
  scope : Scope
  base : SReg
  off : VReg
  deriving DecidableEq, Repr

/-- The barrier an HCOPY names, with its counted fields (Table 13.2). -/
structure BarRef where
  bar : SReg
  inbound : Bool
  outbound : Bool
  deriving DecidableEq, Repr

/-- A masked flag and the queue field beside it; the field is not used without the flag (R294, R297). -/
structure QSel where
  masked : Bool
  q : QReg
  deriving DecidableEq, Repr

/-- The queue that is popped. -/
def QSel.used (x : QSel) : Option QReg := if x.masked then some x.q else none

/-- The rows of the opcode table: instructions with their operands, then the events of the device with what they act on. -/
inductive Instr where
  /-- NOP: R208. -/
  | nop (c : Ctl)
  /-- YIELD: R35, R208. -/
  | yield (c : Ctl)
  /-- BRA: R209. -/
  | bra (c : Ctl) (off : BitVec 32)
  /-- BRX: R210. -/
  | brx (c : Ctl) (base : SReg) (off : VReg)
  /-- CALL_DIRECT: R212. -/
  | callDirect (c : Ctl) (off : BitVec 32)
  /-- CALL_INDIRECT: R212. -/
  | callIndirect (c : Ctl) (base : SReg) (off : VReg)
  /-- RET: R213. -/
  | ret (c : Ctl)
  /-- JSET: R215. -/
  | jset (c : Ctl) (j : JReg)
  /-- JARR: R216. -/
  | jarr (c : Ctl) (j : JReg)
  /-- JWAIT: R217. -/
  | jwait (c : Ctl) (j : JReg)
  /-- JREAD: R219. -/
  | jread (c : Ctl) (d : PReg) (j : JReg)
  /-- EXIT: R214. -/
  | exit (c : Ctl)
  /-- TRAP: R220. -/
  | trap (c : Ctl) (code : BitVec 16)
  /-- BRK: R221. -/
  | brk (c : Ctl) (code : BitVec 16)
  /-- TRET: R223, R350. -/
  | tret (c : Ctl)
  /-- ICMP_EQ: R224. -/
  | icmpEq (c : Ctl) (d : PReg) (a : VReg) (b : VB)
  /-- ICMP_NE: R224. -/
  | icmpNe (c : Ctl) (d : PReg) (a : VReg) (b : VB)
  /-- ICMP_LT: R224. -/
  | icmpLt (c : Ctl) (d : PReg) (a : VReg) (b : VB)
  /-- ICMP_LE: R224. -/
  | icmpLe (c : Ctl) (d : PReg) (a : VReg) (b : VB)
  /-- ICMP_GT: R224. -/
  | icmpGt (c : Ctl) (d : PReg) (a : VReg) (b : VB)
  /-- ICMP_GE: R224. -/
  | icmpGe (c : Ctl) (d : PReg) (a : VReg) (b : VB)
  /-- ICMP_LTN: R224. -/
  | icmpLtn (c : Ctl) (d : PReg) (a : VReg) (b : VB)
  /-- ICMP_LEN: R224. -/
  | icmpLen (c : Ctl) (d : PReg) (a : VReg) (b : VB)
  /-- ICMP_GTN: R224. -/
  | icmpGtn (c : Ctl) (d : PReg) (a : VReg) (b : VB)
  /-- ICMP_GEN: R224. -/
  | icmpGen (c : Ctl) (d : PReg) (a : VReg) (b : VB)
  /-- PLOP_AND: R225. -/
  | plopAnd (c : Ctl) (d a b : PReg)
  /-- PLOP_OR: R225. -/
  | plopOr (c : Ctl) (d a b : PReg)
  /-- PLOP_XOR: R225. -/
  | plopXor (c : Ctl) (d a b : PReg)
  /-- PLOP_ANDN: R225. -/
  | plopAndn (c : Ctl) (d a b : PReg)
  /-- PLOP_NOT: R225. -/
  | plopNot (c : Ctl) (d a : PReg)
  /-- PLOP_MOV: R225. -/
  | plopMov (c : Ctl) (d a : PReg)
  /-- SEL: R226. -/
  | sel (c : Ctl) (d a b : VReg) (p : PReg) (inv : Bool)
  /-- MOV_REG: R227. -/
  | movReg (c : Ctl) (d a : VReg)
  /-- MOV_IMM: R227. -/
  | movImm (c : Ctl) (d : VReg) (x : Word)
  /-- MOV_S2V: R227. -/
  | movS2V (c : Ctl) (d : VReg) (a : SReg) (hi : Bool)
  /-- MOV_V2S: R227. -/
  | movV2S (c : Ctl) (d : SReg) (a : VReg) (hi : Bool)
  /-- SREG_READ: R207. -/
  | sregRead (c : Ctl) (d : VC) (a : Spec)
  /-- SREG_WRITE: R207. -/
  | sregWrite (c : Ctl) (d : Spec) (a : VC)
  /-- IADD_ADD: R228. -/
  | iaddAdd (c : Ctl) (d a : VReg) (b : VB)
  /-- IADD_SUB: R228. -/
  | iaddSub (c : Ctl) (d a : VReg) (b : VB)
  /-- IADD_ADDSAT: R228. -/
  | iaddAddsat (c : Ctl) (d a : VReg) (b : VB) (uns : Bool)
  /-- IADD_SUBSAT: R228. -/
  | iaddSubsat (c : Ctl) (d a : VReg) (b : VB) (uns : Bool)
  /-- IADD_NEG: R228. -/
  | iaddNeg (c : Ctl) (d a : VReg)
  /-- IMUL_LO: R229. -/
  | imulLo (c : Ctl) (d a : VReg) (b : VB)
  /-- IMUL_HIS: R229. -/
  | imulHis (c : Ctl) (d a : VReg) (b : VB)
  /-- IMUL_HIN: R229. -/
  | imulHin (c : Ctl) (d a : VReg) (b : VB)
  /-- IMUL_MAD: R229. -/
  | imulMad (c : Ctl) (d a b : VReg) (x : VC)
  /-- LOGIC_AND: R230. -/
  | logicAnd (c : Ctl) (d a : VReg) (b : VB)
  /-- LOGIC_OR: R230. -/
  | logicOr (c : Ctl) (d a : VReg) (b : VB)
  /-- LOGIC_XOR: R230. -/
  | logicXor (c : Ctl) (d a : VReg) (b : VB)
  /-- LOGIC_ANDN: R230. -/
  | logicAndn (c : Ctl) (d a : VReg) (b : VB)
  /-- LOGIC_NOT: R230. -/
  | logicNot (c : Ctl) (d a : VReg)
  /-- SHIFT_SHL: R231. -/
  | shiftShl (c : Ctl) (d a : VReg) (b : VB)
  /-- SHIFT_SHR: R231. -/
  | shiftShr (c : Ctl) (d a : VReg) (b : VB)
  /-- SHIFT_SAR: R231. -/
  | shiftSar (c : Ctl) (d a : VReg) (b : VB)
  /-- SHIFT_ROL: R231. -/
  | shiftRol (c : Ctl) (d a : VReg) (b : VB)
  /-- BITF_BFE: R232. -/
  | bitfBfe (c : Ctl) (d a : VReg) (b : VB)
  /-- BITF_BFEN: R232. -/
  | bitfBfen (c : Ctl) (d a : VReg) (b : VB)
  /-- BITF_BFI: R232. -/
  | bitfBfi (c : Ctl) (d a b : VReg) (x : VC)
  /-- BITC_POPC: R233. -/
  | bitcPopc (c : Ctl) (d a : VReg)
  /-- BITC_CLZ: R233. -/
  | bitcClz (c : Ctl) (d a : VReg)
  /-- BITC_CTZ: R233. -/
  | bitcCtz (c : Ctl) (d a : VReg)
  /-- BITC_BREV: R233. -/
  | bitcBrev (c : Ctl) (d a : VReg)
  /-- IMINMAX_MIN: R234. -/
  | iminmaxMin (c : Ctl) (d a : VReg) (b : VB)
  /-- IMINMAX_MAX: R234. -/
  | iminmaxMax (c : Ctl) (d a : VReg) (b : VB)
  /-- IMINMAX_MINN: R234. -/
  | iminmaxMinn (c : Ctl) (d a : VReg) (b : VB)
  /-- IMINMAX_MAXN: R234. -/
  | iminmaxMaxn (c : Ctl) (d a : VReg) (b : VB)
  /-- IDIV_DIVN: R235. -/
  | idivDivn (c : Ctl) (d a : VReg) (b : VB)
  /-- IDIV_REMN: R235. -/
  | idivRemn (c : Ctl) (d a : VReg) (b : VB)
  /-- IDIV_DIVS: R235. -/
  | idivDivs (c : Ctl) (d a : VReg) (b : VB)
  /-- IDIV_REMS: R235. -/
  | idivRems (c : Ctl) (d a : VReg) (b : VB)
  /-- LEA: R236. -/
  | lea (c : Ctl) (d a b : VReg) (sh : BitVec 5)
  /-- SALU_ADD: R237. -/
  | saluAdd (c : Ctl) (d a : SReg) (b : SB)
  /-- SALU_SUB: R237. -/
  | saluSub (c : Ctl) (d a : SReg) (b : SB)
  /-- SALU_MUL: R237. -/
  | saluMul (c : Ctl) (d a : SReg) (b : SB)
  /-- SALU_AND: R237. -/
  | saluAnd (c : Ctl) (d a : SReg) (b : SB)
  /-- SALU_OR: R237. -/
  | saluOr (c : Ctl) (d a : SReg) (b : SB)
  /-- SALU_XOR: R237. -/
  | saluXor (c : Ctl) (d a : SReg) (b : SB)
  /-- SALU_SHL: R237. -/
  | saluShl (c : Ctl) (d a : SReg) (b : SB)
  /-- SALU_SHR: R237. -/
  | saluShr (c : Ctl) (d a : SReg) (b : SB)
  /-- SALU_SAR: R237. -/
  | saluSar (c : Ctl) (d a : SReg) (b : SB)
  /-- SALU_MIN: R237. -/
  | saluMin (c : Ctl) (d a : SReg) (b : SB) (uns : Bool)
  /-- SALU_MAX: R237. -/
  | saluMax (c : Ctl) (d a : SReg) (b : SB) (uns : Bool)
  /-- SCMP: R238. -/
  | scmp (c : Ctl) (cc : CC) (d : PReg) (a : SReg) (b : SB)
  /-- ADDR: R239. -/
  | addr (c : Ctl) (d a : SReg) (b : SB)
  /-- SMOVI_LO: R240. -/
  | smoviLo (c : Ctl) (d : SReg) (x : Word)
  /-- SMOVI_HI: R240. -/
  | smoviHi (c : Ctl) (d : SReg) (x : Word)
  /-- FARITH_ADD: R243. -/
  | farithAdd (c : Ctl) (rm : RM) (d a : VReg) (b : VB)
  /-- FARITH_SUB: R243. -/
  | farithSub (c : Ctl) (rm : RM) (d a : VReg) (b : VB)
  /-- FARITH_MUL: R243. -/
  | farithMul (c : Ctl) (rm : RM) (d a : VReg) (b : VB)
  /-- FFMA_FMA: R244. -/
  | ffmaFma (c : Ctl) (rm : RM) (d a b : VReg) (x : VC)
  /-- FFMA_FMS: R244. -/
  | ffmaFms (c : Ctl) (rm : RM) (d a b : VReg) (x : VC)
  /-- FFMA_FNMA: R244. -/
  | ffmaFnma (c : Ctl) (rm : RM) (d a b : VReg) (x : VC)
  /-- FFMA_FNMS: R244. -/
  | ffmaFnms (c : Ctl) (rm : RM) (d a b : VReg) (x : VC)
  /-- FMINMAX_MIN: R245. -/
  | fminmaxMin (c : Ctl) (ty : FTy) (d a : VReg) (b : VB)
  /-- FMINMAX_MAX: R245. -/
  | fminmaxMax (c : Ctl) (ty : FTy) (d a : VReg) (b : VB)
  /-- FCMP_EQ: R246. -/
  | fcmpEq (c : Ctl) (ty : FTy) (d : PReg) (a : VReg) (b : VB)
  /-- FCMP_NE: R246. -/
  | fcmpNe (c : Ctl) (ty : FTy) (d : PReg) (a : VReg) (b : VB)
  /-- FCMP_LT: R246. -/
  | fcmpLt (c : Ctl) (ty : FTy) (d : PReg) (a : VReg) (b : VB)
  /-- FCMP_LE: R246. -/
  | fcmpLe (c : Ctl) (ty : FTy) (d : PReg) (a : VReg) (b : VB)
  /-- FCMP_GT: R246. -/
  | fcmpGt (c : Ctl) (ty : FTy) (d : PReg) (a : VReg) (b : VB)
  /-- FCMP_GE: R246. -/
  | fcmpGe (c : Ctl) (ty : FTy) (d : PReg) (a : VReg) (b : VB)
  /-- FCMP_UNORD: R246. -/
  | fcmpUnord (c : Ctl) (ty : FTy) (d : PReg) (a : VReg) (b : VB)
  /-- FCMP_ORD: R246. -/
  | fcmpOrd (c : Ctl) (ty : FTy) (d : PReg) (a : VReg) (b : VB)
  /-- FSIGN_ABS: R247. -/
  | fsignAbs (c : Ctl) (ty : FTy) (d a : VReg)
  /-- FSIGN_NEG: R247. -/
  | fsignNeg (c : Ctl) (ty : FTy) (d a : VReg)
  /-- FSIGN_COPYSIGN: R247. -/
  | fsignCopysign (c : Ctl) (ty : FTy) (d a b : VReg)
  /-- DARITH_DADD: R248. -/
  | darithDadd (c : Ctl) (rm : RM) (d a b : VReg)
  /-- DARITH_DSUB: R248. -/
  | darithDsub (c : Ctl) (rm : RM) (d a b : VReg)
  /-- DARITH_DMUL: R248. -/
  | darithDmul (c : Ctl) (rm : RM) (d a b : VReg)
  /-- DARITH_DFMA: R248. -/
  | darithDfma (c : Ctl) (rm : RM) (d a b : VReg) (x : VC)
  /-- HARITH2_HADD2: R249. -/
  | harith2Hadd2 (c : Ctl) (rm : RM) (ty : HTy) (d a b : VReg)
  /-- HARITH2_HMUL2: R249. -/
  | harith2Hmul2 (c : Ctl) (rm : RM) (ty : HTy) (d a b : VReg)
  /-- HARITH2_HFMA2: R249. -/
  | harith2Hfma2 (c : Ctl) (rm : RM) (ty : HTy) (d a b : VReg) (x : VC)
  /-- CVT: R250. -/
  | cvt (c : Ctl) (dst src : Fmt) (ovf : Bool) (rm : RM) (part : BitVec 2) (d a : VReg)
  /-- FRND: R253. -/
  | frnd (c : Ctl) (ty : FTy) (rm : RM) (d a : VReg)
  /-- FKEY: R254. -/
  | fkey (c : Ctl) (ty : KTy) (d a : VReg)
  /-- FKEY_INV: R254. -/
  | fkeyInv (c : Ctl) (ty : KTy) (d a : VReg)
  /-- DOT_DOT4I8: R255. -/
  | dotDot4i8 (c : Ctl) (d a b : VReg) (x : VC)
  /-- DOT_DOT4E4M3: R255. -/
  | dotDot4e4m3 (c : Ctl) (rm : RM) (d a b : VReg) (x : VC)
  /-- DOT_DOT8I4: R255. -/
  | dotDot8i4 (c : Ctl) (d a b : VReg) (x : VC)
  /-- SFU_EXP2: R256. -/
  | sfuExp2 (c : Ctl) (d a : VReg)
  /-- SFU_LOG2: R256. -/
  | sfuLog2 (c : Ctl) (d a : VReg)
  /-- SFU_RCP: R256. -/
  | sfuRcp (c : Ctl) (d a : VReg)
  /-- SFU_RSQ: R256. -/
  | sfuRsq (c : Ctl) (d a : VReg)
  /-- SFU_SQRT: R256. -/
  | sfuSqrt (c : Ctl) (d a : VReg)
  /-- SFU_SIN: R256. -/
  | sfuSin (c : Ctl) (d a : VReg)
  /-- SFU_COS: R256. -/
  | sfuCos (c : Ctl) (d a : VReg)
  /-- SFU_TANH: R256. -/
  | sfuTanh (c : Ctl) (d a : VReg)
  /-- SHFL_IDX: R259. -/
  | shflIdx (c : Ctl) (d a : VReg) (b : LB) (lx : LX)
  /-- SHFL_UP: R259. -/
  | shflUp (c : Ctl) (d a : VReg) (b : LB) (lx : LX)
  /-- SHFL_DOWN: R259. -/
  | shflDown (c : Ctl) (d a : VReg) (b : LB) (lx : LX)
  /-- SHFL_XOR: R259. -/
  | shflXor (c : Ctl) (d a : VReg) (b : LB) (lx : LX)
  /-- VOTE_ANY: R260. -/
  | voteAny (c : Ctl) (d a : PReg) (lx : LX)
  /-- VOTE_ALL: R260. -/
  | voteAll (c : Ctl) (d a : PReg) (lx : LX)
  /-- VOTE_BALLOT: R260. -/
  | voteBallot (c : Ctl) (d : VReg) (a : PReg) (lx : LX)
  /-- VOTE_UNI: R260. -/
  | voteUni (c : Ctl) (d : PReg) (a : VReg) (lx : LX)
  /-- ZIP_ZIP2: R263. -/
  | zipZip2 (c : Ctl) (d a : VReg)
  /-- ZIP_ZIP3: R263. -/
  | zipZip3 (c : Ctl) (d a : VReg)
  /-- ZIP_ZIP4: R263. -/
  | zipZip4 (c : Ctl) (d a : VReg)
  /-- ZIP_UNZIP2: R263. -/
  | zipUnzip2 (c : Ctl) (d a : VReg)
  /-- ZIP_UNZIP3: R263. -/
  | zipUnzip3 (c : Ctl) (d a : VReg)
  /-- ZIP_UNZIP4: R263. -/
  | zipUnzip4 (c : Ctl) (d a : VReg)
  /-- SAMPLE: R262. -/
  | sample (c : Ctl) (d a : VReg) (u : SReg) (lx : LX)
  /-- RNG_U32: R264. -/
  | rngU32 (c : Ctl) (d : VReg)
  /-- RNG_UNIF: R264. -/
  | rngUnif (c : Ctl) (d : VReg)
  /-- BANDRED_IADD: R261. -/
  | bandredIadd (c : Ctl) (d a : VReg) (lx : LX)
  /-- BANDRED_FADD: R261. -/
  | bandredFadd (c : Ctl) (d a : VReg) (lx : LX)
  /-- BANDRED_MIN: R261. -/
  | bandredMin (c : Ctl) (ty : BTy) (d a : VReg) (lx : LX)
  /-- BANDRED_MAX: R261. -/
  | bandredMax (c : Ctl) (ty : BTy) (d a : VReg) (lx : LX)
  /-- LANE_EXCHANGE_RELEASE: event, R258: the entries of a team held at a lane-exchange instruction at pc. -/
  | laneExchangeRelease (tid : Nat) (pc : PC)
  /-- LD: R269. -/
  | ld (c : Ctl) (w : Width) (d : VReg) (m : MemOp)
  /-- ST: R270. -/
  | st (c : Ctl) (w : Width) (d : VReg) (m : MemOp)
  /-- LDS: R271. -/
  | lds (c : Ctl) (w : Width) (d : SReg) (space : Space) (order : Order) (scope : Scope) (base : SReg)
  /-- ATOM_ADD: R272. -/
  | atomAdd (c : Ctl) (wide uns : Bool) (d : VReg) (m : MemOp) (x : VC)
  /-- ATOM_MIN: R272. -/
  | atomMin (c : Ctl) (wide uns : Bool) (d : VReg) (m : MemOp) (x : VC)
  /-- ATOM_MAX: R272. -/
  | atomMax (c : Ctl) (wide uns : Bool) (d : VReg) (m : MemOp) (x : VC)
  /-- ATOM_AND: R272. -/
  | atomAnd (c : Ctl) (wide uns : Bool) (d : VReg) (m : MemOp) (x : VC)
  /-- ATOM_OR: R272. -/
  | atomOr (c : Ctl) (wide uns : Bool) (d : VReg) (m : MemOp) (x : VC)
  /-- ATOM_XOR: R272. -/
  | atomXor (c : Ctl) (wide uns : Bool) (d : VReg) (m : MemOp) (x : VC)
  /-- ATOM_SWAP: R272. -/
  | atomSwap (c : Ctl) (wide uns : Bool) (d : VReg) (m : MemOp) (x : VC)
  /-- ATOM_CAS: R272. -/
  | atomCas (c : Ctl) (wide uns : Bool) (d : VReg) (m : MemOp) (x : VC)
  /-- ATOM_FADD: R272. -/
  | atomFadd (c : Ctl) (wide : Bool) (d : VReg) (m : MemOp) (x : VC)
  /-- RED: R273. -/
  | red (c : Ctl) (op : RedOp) (wide uns : Bool) (m : MemOp) (x : VC)
  /-- FENCE: R274. -/
  | fence (c : Ctl) (mode : FenceMode) (scope : Scope)
  /-- TAG_TAGQ: R275. -/
  | tagTagq (c : Ctl) (d a : VReg)
  /-- TAG_TAGSET: R275. -/
  | tagTagset (c : Ctl) (d a b : VReg)
  /-- TAG_TAGCLR: R275. -/
  | tagTagclr (c : Ctl) (d a : VReg)
  /-- HCOPY_COPY: R280. -/
  | hcopyCopy (c : Ctl) (ds ss : Space) (dst src cnt : SReg) (bar : Option BarRef)
  /-- HCOPY_PLANE: R281. -/
  | hcopyPlane (c : Ctl) (ds ss : Space) (dst src cnt : SReg) (bar : Option BarRef) (fmt : AFmt) (stride : BitVec 18)
  /-- HCOPY_SPLIT: R282. -/
  | hcopySplit (c : Ctl) (ds ss : Space) (dst src cnt : SReg) (bar : Option BarRef) (side : Bool) (slices : BitVec 4) (stride : BitVec 16)
  /-- HCOPY_MASK: R283. -/
  | hcopyMask (c : Ctl) (ss : Space) (q : QReg) (src cnt : SReg) (bar : Option BarRef)
  /-- HCOPY_GATHER: R284. -/
  | hcopyGather (c : Ctl) (ds ss : Space) (dst src cnt : SReg) (bar : Option BarRef) (size : BitVec 2)
  /-- BSEAL: R285. -/
  | bseal (c : Ctl) (d : SReg)
  /-- BWAIT: R286. -/
  | bwait (c : Ctl) (b : SB)
  /-- BAR_INIT: R287. -/
  | barInit (c : Ctl) (bar : SReg) (n : SB)
  /-- BAR_ARRIVE: R287. -/
  | barArrive (c : Ctl) (d bar : SReg)
  /-- BAR_ARRIVEX: R287. -/
  | barArrivex (c : Ctl) (d bar : SReg) (n : SB)
  /-- BAR_EXPECT: R287. -/
  | barExpect (c : Ctl) (out : Bool) (bar : SReg) (n : SB)
  /-- BAR_WAIT: R287. -/
  | barWait (c : Ctl) (bar : SReg) (g : SB)
  /-- BAR_WAITOUT: R287. -/
  | barWaitout (c : Ctl) (bar : SReg)
  /-- BAR_TEST: R287. -/
  | barTest (c : Ctl) (d : PReg) (bar : SReg) (g : SB)
  /-- MMP: R294. -/
  | mmp (c : Ctl) (d : TileNo) (a b : SReg) (q : QSel) (m1 : BitVec 4) (bf : BFmt) (af : AFmt) (planes : BitVec 4)
  /-- MMS: R295. -/
  | mms (c : Ctl) (d : TileNo) (a b : SReg) (groups : BitVec 16) (w slices : BitVec 4)
  /-- ACC_ZERO: R296. -/
  | accZero (c : Ctl) (pair : Bool) (d : TileNo)
  /-- ACC_LOAD: R296. -/
  | accLoad (c : Ctl) (pair : Bool) (d : TileNo) (a : SReg)
  /-- ACC_OUT: R297. -/
  | accOut (c : Ctl) (pair : Bool) (d : TileNo) (a b : SReg) (q : QSel) (fmt : BitVec 4) (ovf : Bool) (rm : RM)
  /-- ACC_MOVE: R296. -/
  | accMove (c : Ctl) (pair : Bool) (d a : TileNo)
  /-- ACC_SPILL: R296. -/
  | accSpill (c : Ctl) (pair : Bool) (d : TileNo) (a : SReg)
  /-- MQ_STAT: R298. -/
  | mqStat (c : Ctl) (d : SReg) (q : QReg)
  /-- MQ_FLUSH: R298. -/
  | mqFlush (c : Ctl) (q : QReg)
  /-- NRED_PUSH: R299. -/
  | nredPush (c : Ctl) (a : SReg) (t : BitVec 4)
  /-- NRED_WAIT: R301. -/
  | nredWait (c : Ctl) (a : SReg) (t : BitVec 4) (bcast : Bool)
  /-- SNOP: R305. -/
  | snop
  /-- SHALT: R305. -/
  | shalt
  /-- SBR: R305. -/
  | sbr (cc : CC) (a b : KReg) (off : BitVec 32)
  /-- SCALL: R48. -/
  | scall (off : BitVec 32)
  /-- SRET: R48. -/
  | sret
  /-- SJOIN: R50. -/
  | sjoin
  /-- KALU: R306. -/
  | kalu (op : AluOp) (d a : KReg) (b : KB)
  /-- KREAD: R307. -/
  | kread (cls : BitVec 2) (d a : KReg) (wide : Bool)
  /-- AREA_READ: R308. -/
  | areaRead (a b : KReg)
  /-- AREA_WRITE: R308. -/
  | areaWrite (a b : KReg)
  /-- BDECL: R309. -/
  | bdecl (d : BufNo) (cls : BitVec 4)
  /-- BDROP: R309. -/
  | bdrop (d : BufNo)
  /-- LAUNCH: R311. -/
  | launch (cls : BitVec 2) (bd ba bb : Option BufNo) (kd : KReg)
  /-- MMT: R313. -/
  | mmt (cls : BitVec 2) (acc masked : Bool) (d a b : BufNo) (kd : KReg)
  /-- SMMT: R314. -/
  | smmt (cls : BitVec 2) (acc masked : Bool) (d a b : BufNo) (kd : KReg)
  /-- COPYT: R315. -/
  | copyt (cls : BitVec 2) (acc : Bool) (d a : Option BufNo) (kd : KReg)
  /-- REDT: R316. -/
  | redt (cls : BitVec 2) (a : KReg) (t : BitVec 4)
  /-- MASKGEN: R317. -/
  | maskgen (cls : BitVec 2) (d a : BufNo) (kd : KReg)
  /-- KVCOMPACT: R156, R317. -/
  | kvcompact (cls : BitVec 2) (d a b : BufNo) (kd : KReg)
  /-- SOPEN: R140, R318. -/
  | sopen (cls : BitVec 2) (kd : KReg)
  /-- SRULE: R143 to R147, R318. -/
  | srule (cls : BitVec 2) (img : Bool) (d a : BufNo) (b : Option BufNo) (kd : KReg)
  /-- SACCEPT: R155, R318. -/
  | saccept (cls : BitVec 2) (img : Bool) (d a b : BufNo) (kd : KReg)
  /-- SKV: R149, R318. -/
  | skv (cls : BitVec 2) (a : BufNo) (kd : KReg)
  /-- SPUBLISH: R150, R318. -/
  | spublish (cls : BitVec 2) (kd : KReg)
  /-- SCLOSE: R140, R318. -/
  | sclose (cls : BitVec 2) (kd : KReg)
  /-- SCOUNT: R147, R318. -/
  | scount (cls : BitVec 2) (d kd : KReg)
  /-- QSEND: R158, R319. -/
  | qsend (cls : BitVec 2) (a : BufNo) (off : BitVec 16) (q : BitVec 4)
  /-- QRECV: R158, R319. -/
  | qrecv (cls : BitVec 2) (d : BufNo) (half : Bool) (q : BitVec 4)
  /-- SSIGNAL: R64, R320. -/
  | ssignal (cls : BitVec 2) (a b : KReg) (wide : Bool)
  /-- SWAIT: R63, R320. -/
  | swait (cls : BitVec 2) (cmp : WaitCmp) (wide : Bool) (a kd : KReg)
  /-- SMODE: R310. -/
  | smode (b : KReg) (det : Bool)
  /-- STREAM_FETCH: event, R47. -/
  | streamFetch (p : Nat)
  /-- CORE_FETCH: event, R190. -/
  | coreFetch (tid : Nat)
  /-- TASK_ISSUE: event, R58 to R61. -/
  | taskIssue (p seq : Nat)
  /-- TILE_DISPATCH: event, R62, R329. -/
  | tileDispatch (p seq : Nat)
  /-- TASK_COMPLETE: event, R66. -/
  | taskComplete (p seq : Nat)
  /-- TASK_RETIRE: event, R66. -/
  | taskRetire (p : Nat)
  /-- FAULT_RECORD_WRITE: event, R335. -/
  | faultRecordWrite (p : Nat)
  /-- CREW_PLACE: event, R31: the member cores, and the quarter (4·core + quarter) of each team and of each shadow team. -/
  | crewPlace (p seq : Nat) (cores quarters shadowQuarters : List Nat)
  /-- CLASS_PREEMPT: event, R40. -/
  | classPreempt (p seq : Nat)
  /-- CREW_RESUME: event, R40, R43. -/
  | crewResume (cid : Nat) (cores quarters : List Nat)
  /-- TEAM_EXCHANGE: event, R29: the active team tid of a quarter (4·core + quarter), or its ended place. -/
  | teamExchange (quarter tid : Nat)
  /-- TIME_SLICE_EXPIRY: event, R30. -/
  | timeSliceExpiry (tid : Nat)
  /-- RESULT_ARRIVE: event, R268: of producer idx of a team, for a lane. -/
  | resultArrive (tid idx lane : Nat)
  /-- STACK_SPILL: event, R37. -/
  | stackSpill (tid : Nat)
  /-- STACK_REFILL: event, R37. -/
  | stackRefill (tid : Nat)
  /-- TEAM_END: event, R214. -/
  | teamEnd (tid : Nat)
  /-- JWAIT_RELEASE: event, R217: the entries of a team held at the JWAIT at pc on join mask j. -/
  | jwaitRelease (tid : Nat) (pc : PC) (j : JReg)
  /-- SPINDLE_CLASS_PREEMPT: event, R39: stops after the given number of further K-groups or pairs. -/
  | spindleClassPreempt (core units : Nat)
  /-- SPINDLE_OP_COMPLETE: event, R291. -/
  | spindleOpComplete (core : Nat)
  /-- HOIST_CHUNK_START: event, R279. -/
  | hoistChunkStart (core : Nat)
  /-- HOIST_CHUNK_LAND: event, R279: a chunk in flight of a copy. -/
  | hoistChunkLand (age chunk : Nat)
  /-- ENGINE_PREEMPT_ACK: event, R41. -/
  | enginePreemptAck (p : Nat) (e : Engine)
  /-- PREEMPTION_COMPLETE: event, R41, R67. -/
  | preemptionComplete (p : Nat)
  /-- ROUTER_FOLD: event, R300. -/
  | routerFold (p t core : Nat)
  /-- ROUTER_PARTIAL_ARRIVE: event, R374. -/
  | routerPartialArrive (p t core : Nat) (port : Port)
  /-- NRED_ROUTER_TIMEOUT: event, R374. -/
  | nredRouterTimeout (p t core : Nat)
  /-- SWAIT_POLL: event, R63. -/
  | swaitPoll (p seq : Nat)
  /-- SWAIT_LIMIT_EXPIRY: event, R63. -/
  | swaitLimitExpiry (p seq : Nat)
  /-- RING_CONS_POLL: event, R153. -/
  | ringConsPoll (p seq : Nat)
  /-- RING_LIMIT_EXPIRY: event, R153. -/
  | ringLimitExpiry (p seq : Nat)
  /-- SPUBLISH_RECORD_WRITE: event, R150, R152, R153. -/
  | spublishRecordWrite (p seq : Nat)
  /-- IO_COMPLETION_TIMEOUT: event, R368. -/
  | ioCompletionTimeout (req : IoReq)
  /-- PORT_COMPLETION_ERROR: event, R368 to R372. -/
  | portCompletionError (req : IoReq) (err : PortErr)
  /-- PATROL_READ: event, R378. -/
  | patrolRead (place : SramPlace) (found : EccFinding)
  /-- ROW_SPARE_REPLACE: event, R379. -/
  | rowSpareReplace (place : SramPlace) (row : Nat)
  /-- UNCORRECTABLE_ERROR: event, R380. -/
  | uncorrectableError (place : ErrPlace)
  /-- SIGNATURE_COMPARE: event, R384, R385: the shadow's signature of what the leader holds. -/
  | signatureCompare (what : SigOf) (sig : Nat)
  /-- SPARE_CORE_SWAP: event, R386. -/
  | spareCoreSwap (core die : Nat)
  /-- LINK_LANE_FAIL: event, R388. -/
  | linkLaneFail (port : Nat)
  /-- LINK_DOWN: event, R376. -/
  | linkDown (port : Nat)
  /-- ETHES_INBOUND_ACCESS: event, R171: a read, a write of a value, or an atomic, of len bytes at an offset. -/
  | ethesInboundAccess (link off len : Nat) (what : Inbound)
  /-- IDE_INTEGRITY_FAILURE: event, R389. -/
  | ideIntegrityFailure (p : IdePlace)
  /-- DEVICE_RESET: event, R169, R170. -/
  | deviceReset
  /-- VF_FLR: event, R163. -/
  | vfFlr (p : Nat)
  /-- PF0_FLR: event, R163. -/
  | pf0Flr
  /-- UNFORMED_VF_ACCESS: event, R162: a read, or a write of a value. -/
  | unformedVfAccess (p off : Nat) (value : Option DWord)
  /-- TWCTL_GO: event, R67. -/
  | twctlGo (p : Nat)
  /-- TWCTL_HALT: event, R67. -/
  | twctlHalt (p : Nat)
  /-- RESOLVE_REEXECUTE: event, R338. -/
  | resolveReexecute (p : Nat)
  /-- RESOLVE_SKIP: event, R338. -/
  | resolveSkip (p : Nat)
  /-- RESOLVE_ABANDON: event, R338. -/
  | resolveAbandon (p : Nat)
  /-- TWPC_WRITE: event, R67: TWPC, or TWPCH. -/
  | twpcWrite (p : Nat) (high : Bool) (value : DWord)
  /-- XLINV_ALL: event, R101. -/
  | xlinvAll (p : Nat)
  /-- DBG_HALTREQ: event, R222. -/
  | dbgHaltreq (p : Nat)
  /-- DBG_RESUME: event, R222. -/
  | dbgResume (p : Nat)
  /-- RINGCFG_WRITE: event, R151, R153. -/
  | ringcfgWrite (p r : Nat) (value : DWord)
  /-- QCONSENT_WRITE: event, R167. -/
  | qconsentWrite (p : Nat) (value : DWord)
  /-- PARTITION_FORM: event, R164. -/
  | partitionForm (p : Nat)
  /-- PARTITION_DISSOLVE: event, R165. -/
  | partitionDissolve (p : Nat)
  /-- ATTESTATION_START: event, R172: the word written to ATTCTL. -/
  | attestationStart (value : DWord)
  /-- ATTESTATION_RESPONSE: event, R172. -/
  | attestationResponse
  /-- FW_LOAD_START: event, R390: the word written to FWCTL. -/
  | fwLoadStart (value : DWord)
  /-- FW_IMAGE_CHECK: event, R170, R390. -/
  | fwImageCheck
  /-- REGISTER_WRITE: event, R4: function 0, or function k + 1 of partition k, and the BAR0 offset. -/
  | registerWrite (fn off : Nat) (value : DWord)
  /-- LINK_RETRAIN: event, R388. -/
  | linkRetrain (port : Nat)
  /-- WRITE_COMPLETION_ARRIVE: event, R138. -/
  | writeCompletionArrive (tid idx : Nat)
  /-- INVALIDATION_COMPLETE: event, R101. -/
  | invalidationComplete (p : Nat)
  /-- PARTITION_FORM_COMPLETE: event, R164. -/
  | partitionFormComplete (p : Nat)
  /-- PARTITION_DISSOLVE_COMPLETE: event, R165, R389: the lines that did not read as zero, at 32,768·core + line and at
  40,960·slice + line. -/
  | partitionDissolveComplete (p : Nat) (badCores badLines : List Nat)
  deriving DecidableEq, Repr

end Sys2Proof
end

