-- ==== Sys2Proof/Machine/Forms.lean ====
section
/-! DEFINITION. What every core instruction form has in common with the others: its sources and destinations, its pipe and its clocks per beat (R22, R192 to R196, Tables 10.7, 10.8, 10.11). -/

namespace Sys2Proof

/-- The pipe of a form (R196): A, A or B, B, C. -/
inductive Pipe where
  | a | ab | b | c
  deriving DecidableEq, Repr

/-- The registers a core form reads and writes. A source is governed by its FE bit (R193); none is a source the form does
not read from a register of Table 10.3. -/
structure Form where
  ctl : Ctl
  srcA : Option (List Reg) := none
  srcB : Option (List Reg) := none
  srcC : Option (List Reg) := none
  /-- Register sources that always wait: the data of ST, the address in D of HCOPY. -/
  data : List Reg := []
  /-- Destinations in Table 10.3's ordinary registers. -/
  dst : List Reg := []
  pipe : Pipe := .c
  /-- Clocks per beat (R196, R235, R263, R275). -/
  cost : Nat := 1
  /-- Acts once for the team (R192). -/
  once : Bool := false
  deriving DecidableEq, Repr

namespace Forms

/-- An even vector register and the next (R191). -/
def v2 (r : VReg) : List Reg := [.v r.val, .v (r.val + 1)]
/-- An even scalar register and the next (R94). -/
def s2 (r : SReg) : List Reg := [.s r.val, .s (r.val + 1)]
/-- n consecutive vector registers (R263, R269). -/
def vrange (r : VReg) (n : Nat) : List Reg := (List.range n).map fun j => Reg.v (r.val + j)

/-- The C operand of ATOM and RED (R272). -/
def atomRegs (wide : Bool) : VC → List Reg
  | .v r => if wide then v2 r else [.v r.val]
  | .s r => [.s r.val]

/-- The compare and new values of CAS (R272). -/
def casRegs (wide : Bool) : VC → List Reg
  | .v r => vrange r (if wide then 4 else 2)
  | .s r => s2 r

/-- The returned value of ATOM (R272). -/
def wideRegs (wide : Bool) (r : VReg) : List Reg := if wide then v2 r else [.v r.val]

/-- The barrier register of HCOPY (Table 13.2). -/
def barRegs : Option BarRef → Option (List Reg)
  | none => none
  | some b => some [.s b.bar.val]

end Forms

/-- Bytes of an access (Table 10.12). -/
def Width.bytes : Width → Nat
  | .n8 | .i8 => 1
  | .n16 | .i16 => 2
  | .w32 => 4
  | .w64 => 8
  | .b128 => 16
  | .b256 => 32

/-- Vector registers of an access (R269). -/
def Width.nregs : Width → Nat
  | .w64 => 2
  | .b128 => 4
  | .b256 => 8
  | _ => 1

/-- The registers vD and on of LD and ST (R269). -/
def Width.regs (w : Width) (d : VReg) : List Reg := Forms.vrange d w.nregs

def VC.regs : VC → List Reg
  | .v r => [.v r.val]
  | .s r => [.s r.val]
/-- The C operand of DFMA: a pair, or the 64 bits of one scalar register (R242). -/
def VC.pair : VC → List Reg
  | .v r => Forms.v2 r
  | .s r => [.s r.val]
def VC.isS : VC → Bool
  | .v _ => false
  | .s _ => true

def VB.regs : VB → Option (List Reg)
  | .reg r => some [.v r.val]
  | .imm _ => none
def SB.regs : SB → Option (List Reg)
  | .reg r => some [.s r.val]
  | .imm _ => none
def LB.regs : LB → Option (List Reg)
  | .reg r => some [.v r.val]
  | .imm _ => none
def LX.regs (lx : LX) : Option (List Reg) := lx.members.map VC.regs

/-- A vector register, or the pair of an f64 (R242). -/
def FTy.regs : FTy → VReg → List Reg
  | .f32, r => [.v r.val]
  | .f64, r => Forms.v2 r
/-- Clocks per beat of the f64 forms (R196). -/
def FTy.cost : FTy → Nat
  | .f32 => 1
  | .f64 => 4
def KTy.regs : KTy → VReg → List Reg
  | .f64, r => Forms.v2 r
  | _, r => [.v r.val]
def KTy.cost : KTy → Nat
  | .f64 => 4
  | _ => 1
def VB.fregs (b : VB) (ty : FTy) : Option (List Reg) :=
  match b with
  | .reg r => some (ty.regs r)
  | .imm _ => none

/-- Bits of a format (Tables 04.1, 10.10). -/
def Fmt.width : Fmt → Nat
  | .i8 | .n8 | .e4m3 | .e5m2 => 8
  | .i16 | .n16 | .f16 | .bf16 => 16
  | .i32 | .n32 | .f32 => 32
  | .i64 | .n64 | .f64 => 64
/-- The registers of a CVT operand (R250). -/
def Fmt.regs (f : Fmt) (r : VReg) : List Reg := if f.width = 64 then Forms.v2 r else [.v r.val]

/-- The registers that name an address in a space: a pair for .g, one register otherwise (R199, R277). -/
def Space.regs (sp : Space) (r : SReg) : List Reg :=
  match sp with
  | .g => Forms.s2 r
  | _ => [.s r.val]
def MemOp.baseRegs (m : MemOp) : List Reg := m.space.regs m.base

open Forms in
/-- The form of a core instruction; none for a stream instruction and an event. -/
def Instr.form : Instr → Option Form
  | .nop c
  | .yield c
  | .bra c _
  | .callDirect c _
  | .ret c
  | .jset c _
  | .jarr c _
  | .jwait c _
  | .jread c _ _
  | .exit c
  | .trap c _
  | .brk c _
  | .tret c =>
    some { ctl := c }
  | .brx c base off
  | .callIndirect c base off =>
    some { ctl := c, srcA := (some (s2 base)), srcB := some [.v off.val] }
  | .icmpEq c _ a b
  | .icmpNe c _ a b
  | .icmpLt c _ a b
  | .icmpLe c _ a b
  | .icmpGt c _ a b
  | .icmpGe c _ a b
  | .icmpLtn c _ a b
  | .icmpLen c _ a b
  | .icmpGtn c _ a b
  | .icmpGen c _ a b =>
    some { ctl := c, srcA := some [.v a.val], srcB := b.regs, pipe := .a }
  | .plopAnd c _ _ _
  | .plopOr c _ _ _
  | .plopXor c _ _ _
  | .plopAndn c _ _ _
  | .plopNot c _ _
  | .plopMov c _ _ =>
    some { ctl := c, pipe := .a }
  | .sel c d a b _ _
  | .lea c d a b _ =>
    some { ctl := c, srcA := some [.v a.val], srcB := some [.v b.val], dst := [.v d.val], pipe := .a }
  | .movReg c d a
  | .iaddNeg c d a
  | .logicNot c d a
  | .bitcPopc c d a
  | .bitcClz c d a
  | .bitcCtz c d a
  | .bitcBrev c d a =>
    some { ctl := c, srcA := some [.v a.val], dst := [.v d.val], pipe := .a }
  | .movImm c d _ =>
    some { ctl := c, dst := [.v d.val], pipe := .a }
  | .movS2V c d a _ =>
    some { ctl := c, srcA := some [.s a.val], dst := [.v d.val], pipe := .a }
  | .movV2S c d a _ =>
    some { ctl := c, srcA := some [.v a.val], dst := [.s d.val], pipe := .a, once := true }
  | .sregRead c d _ =>
    some { ctl := c, srcA := some [], dst := d.regs, pipe := .a, once := d.isS }
  | .sregWrite c _ a =>
    some { ctl := c, srcA := (some a.regs), pipe := .a, once := true }
  | .iaddAdd c d a b
  | .iaddSub c d a b
  | .iaddAddsat c d a b _
  | .iaddSubsat c d a b _
  | .imulLo c d a b
  | .imulHis c d a b
  | .imulHin c d a b
  | .logicAnd c d a b
  | .logicOr c d a b
  | .logicXor c d a b
  | .logicAndn c d a b
  | .shiftShl c d a b
  | .shiftShr c d a b
  | .shiftSar c d a b
  | .shiftRol c d a b
  | .bitfBfe c d a b
  | .bitfBfen c d a b
  | .iminmaxMin c d a b
  | .iminmaxMax c d a b
  | .iminmaxMinn c d a b
  | .iminmaxMaxn c d a b =>
    some { ctl := c, srcA := some [.v a.val], srcB := b.regs, dst := [.v d.val], pipe := .a }
  | .imulMad c d a b x
  | .bitfBfi c d a b x =>
    some { ctl := c, srcA := some [.v a.val], srcB := some [.v b.val], srcC := (some x.regs), dst := [.v d.val], pipe := .a }
  | .idivDivn c d a b
  | .idivRemn c d a b
  | .idivDivs c d a b
  | .idivRems c d a b =>
    some { ctl := c, srcA := some [.v a.val], srcB := b.regs, dst := [.v d.val], pipe := .a, cost := 8 }
  | .saluAdd c d a b
  | .saluSub c d a b
  | .saluMul c d a b
  | .saluAnd c d a b
  | .saluOr c d a b
  | .saluXor c d a b
  | .saluShl c d a b
  | .saluShr c d a b
  | .saluSar c d a b
  | .saluMin c d a b _
  | .saluMax c d a b _ =>
    some { ctl := c, srcA := some [.s a.val], srcB := b.regs, dst := [.s d.val], once := true }
  | .scmp c _ _ a b =>
    some { ctl := c, srcA := some [.s a.val], srcB := b.regs, once := true }
  | .addr c d a b =>
    some { ctl := c, srcA := (some (s2 a)), srcB := b.regs, dst := (s2 d), once := true }
  | .smoviLo c d _
  | .smoviHi c d _
  | .bseal c d
  | .mqStat c d _ =>
    some { ctl := c, dst := [.s d.val], once := true }
  | .farithAdd c _ d a b
  | .farithSub c _ d a b
  | .farithMul c _ d a b =>
    some { ctl := c, srcA := some [.v a.val], srcB := b.regs, dst := [.v d.val], pipe := .ab }
  | .ffmaFma c _ d a b x
  | .ffmaFms c _ d a b x
  | .ffmaFnma c _ d a b x
  | .ffmaFnms c _ d a b x
  | .harith2Hfma2 c _ _ d a b x
  | .dotDot4i8 c d a b x
  | .dotDot4e4m3 c _ d a b x
  | .dotDot8i4 c d a b x =>
    some { ctl := c, srcA := some [.v a.val], srcB := some [.v b.val], srcC := (some x.regs), dst := [.v d.val], pipe := .ab }
  | .fminmaxMin c ty d a b
  | .fminmaxMax c ty d a b =>
    some { ctl := c, srcA := (some (ty.regs a)), srcB := (b.fregs ty), dst := (ty.regs d), pipe := .ab, cost := ty.cost }
  | .fcmpEq c ty _ a b
  | .fcmpNe c ty _ a b
  | .fcmpLt c ty _ a b
  | .fcmpLe c ty _ a b
  | .fcmpGt c ty _ a b
  | .fcmpGe c ty _ a b
  | .fcmpUnord c ty _ a b
  | .fcmpOrd c ty _ a b =>
    some { ctl := c, srcA := (some (ty.regs a)), srcB := (b.fregs ty), pipe := .ab, cost := ty.cost }
  | .fsignAbs c ty d a
  | .fsignNeg c ty d a
  | .frnd c ty _ d a =>
    some { ctl := c, srcA := (some (ty.regs a)), dst := (ty.regs d), pipe := .ab, cost := ty.cost }
  | .fsignCopysign c ty d a b =>
    some { ctl := c, srcA := (some (ty.regs a)), srcB := (some (ty.regs b)), dst := (ty.regs d), pipe := .ab, cost := ty.cost }
  | .darithDadd c _ d a b
  | .darithDsub c _ d a b
  | .darithDmul c _ d a b =>
    some { ctl := c, srcA := (some (v2 a)), srcB := (some (v2 b)), dst := (v2 d), pipe := .ab, cost := 4 }
  | .darithDfma c _ d a b x =>
    some { ctl := c, srcA := (some (v2 a)), srcB := (some (v2 b)), srcC := (some x.pair), dst := (v2 d), pipe := .ab, cost := 4 }
  | .harith2Hadd2 c _ _ d a b
  | .harith2Hmul2 c _ _ d a b =>
    some { ctl := c, srcA := some [.v a.val], srcB := some [.v b.val], dst := [.v d.val], pipe := .ab }
  | .cvt c dst src _ _ _ d a =>
    some { ctl := c, srcA := (some (src.regs a)), dst := (dst.regs d), pipe := .ab }
  | .fkey c ty d a
  | .fkeyInv c ty d a =>
    some { ctl := c, srcA := (some (ty.regs a)), dst := (ty.regs d), pipe := .ab, cost := ty.cost }
  | .sfuExp2 c d a
  | .sfuLog2 c d a
  | .sfuRcp c d a
  | .sfuRsq c d a
  | .sfuSqrt c d a
  | .sfuSin c d a
  | .sfuCos c d a
  | .sfuTanh c d a =>
    some { ctl := c, srcA := some [.v a.val], dst := [.v d.val], pipe := .b }
  | .shflIdx c d a b lx
  | .shflUp c d a b lx
  | .shflDown c d a b lx
  | .shflXor c d a b lx =>
    some { ctl := c, srcA := some [.v a.val], srcB := b.regs, srcC := lx.regs, dst := [.v d.val] }
  | .voteAny c _ _ lx
  | .voteAll c _ _ lx =>
    some { ctl := c, srcC := lx.regs }
  | .voteBallot c d _ lx =>
    some { ctl := c, srcC := lx.regs, dst := [.v d.val] }
  | .voteUni c _ a lx =>
    some { ctl := c, srcA := some [.v a.val], srcC := lx.regs }
  | .zipZip2 c d a
  | .zipUnzip2 c d a =>
    some { ctl := c, srcA := (some (vrange a 2)), dst := (vrange d 2), cost := 2 }
  | .zipZip3 c d a
  | .zipUnzip3 c d a =>
    some { ctl := c, srcA := (some (vrange a 3)), dst := (vrange d 3), cost := 3 }
  | .zipZip4 c d a
  | .zipUnzip4 c d a =>
    some { ctl := c, srcA := (some (vrange a 4)), dst := (vrange d 4), cost := 4 }
  | .sample c d a u lx =>
    some { ctl := c, srcA := some [.v a.val], srcB := some [.s u.val], srcC := lx.regs, dst := [.v d.val] }
  | .rngU32 c d
  | .rngUnif c d =>
    some { ctl := c, dst := [.v d.val] }
  | .bandredIadd c d a lx
  | .bandredFadd c d a lx
  | .bandredMin c _ d a lx
  | .bandredMax c _ d a lx =>
    some { ctl := c, srcA := some [.v a.val], srcC := lx.regs, dst := [.v d.val] }
  | .ld c w d m =>
    some { ctl := c, srcA := (some m.baseRegs), srcB := some [.v m.off.val], dst := (w.regs d) }
  | .st c w d m =>
    some { ctl := c, srcA := (some m.baseRegs), srcB := some [.v m.off.val], data := (w.regs d) }
  | .lds c _ d space _ _ base =>
    some { ctl := c, srcA := (some (space.regs base)), dst := [.s d.val], once := true }
  | .atomAdd c wide _ d m x
  | .atomMin c wide _ d m x
  | .atomMax c wide _ d m x
  | .atomAnd c wide _ d m x
  | .atomOr c wide _ d m x
  | .atomXor c wide _ d m x
  | .atomSwap c wide _ d m x
  | .atomFadd c wide d m x =>
    some { ctl := c, srcA := (some m.baseRegs), srcB := some [.v m.off.val], srcC := (some (atomRegs wide x)), dst := (wideRegs wide d) }
  | .atomCas c wide _ d m x =>
    some { ctl := c, srcA := (some m.baseRegs), srcB := some [.v m.off.val], srcC := (some (casRegs wide x)), dst := (wideRegs wide d) }
  | .red c _ wide _ m x =>
    some { ctl := c, srcA := (some m.baseRegs), srcB := some [.v m.off.val], srcC := (some (atomRegs wide x)) }
  | .fence c _ _
  | .accZero c _ _
  | .accMove c _ _ _
  | .mqFlush c _ =>
    some { ctl := c, once := true }
  | .tagTagq c d a =>
    some { ctl := c, srcA := some [.v a.val], dst := [.v d.val] }
  | .tagTagset c d a b =>
    some { ctl := c, srcA := some [.v a.val], srcB := some [.v b.val], dst := [.v d.val], cost := 2 }
  | .tagTagclr c d a =>
    some { ctl := c, srcA := some [.v a.val], dst := [.v d.val], cost := 2 }
  | .hcopyCopy c ds ss dst src cnt bar
  | .hcopyPlane c ds ss dst src cnt bar _ _
  | .hcopySplit c ds ss dst src cnt bar _ _ _
  | .hcopyGather c ds ss dst src cnt bar _ =>
    some { ctl := c, srcA := (some (ss.regs src)), srcB := some [.s cnt.val], srcC := (barRegs bar), data := (ds.regs dst), once := true }
  | .hcopyMask c ss _ src cnt bar =>
    some { ctl := c, srcA := (some (ss.regs src)), srcB := some [.s cnt.val], srcC := (barRegs bar), once := true }
  | .bwait c b =>
    some { ctl := c, srcB := b.regs, once := true }
  | .barInit c bar n
  | .barExpect c _ bar n =>
    some { ctl := c, srcA := some [.s bar.val], srcB := n.regs, once := true }
  | .barArrive c d bar =>
    some { ctl := c, srcA := some [.s bar.val], dst := [.s d.val], once := true }
  | .barArrivex c d bar n =>
    some { ctl := c, srcA := some [.s bar.val], srcB := n.regs, dst := [.s d.val], once := true }
  | .barWait c bar g
  | .barTest c _ bar g =>
    some { ctl := c, srcA := some [.s bar.val], srcB := g.regs, once := true }
  | .barWaitout c bar =>
    some { ctl := c, srcA := some [.s bar.val], once := true }
  | .mmp c _ a b _ _ _ _ _
  | .mms c _ a b _ _ _
  | .accOut c _ _ a b _ _ _ _ =>
    some { ctl := c, srcA := some [.s a.val], srcB := some [.s b.val], once := true }
  | .accLoad c _ _ a
  | .nredPush c a _
  | .nredWait c a _ _ =>
    some { ctl := c, srcA := some [.s a.val], once := true }
  | .accSpill c _ _ a =>
    some { ctl := c, srcA := (some (s2 a)), once := true }
  | _ => none

end Sys2Proof
end

