-- ==== Sys2Proof/Machine/Float.lean ====
section
/-! DEFINITION. The float formats as exact dyadic numbers, and rounding to a format (R68 to R77). -/

namespace Sys2Proof.Machine

/-- A float format: exponent bits, significand bits, bias, and whether it has infinities (Table 04.1, R69). -/
structure FFmt where
  ebits : Nat
  mbits : Nat
  bias : Nat
  hasInf : Bool := true
  deriving DecidableEq, Repr

namespace FFmt
def f64 : FFmt := ⟨11, 52, 1023, true⟩
def f32 : FFmt := ⟨8, 23, 127, true⟩
def f16 : FFmt := ⟨5, 10, 15, true⟩
def bf16 : FFmt := ⟨8, 7, 127, true⟩
def e4m3 : FFmt := ⟨4, 3, 7, false⟩
def e5m2 : FFmt := ⟨5, 2, 15, true⟩

/-- Bits of a value. -/
def width (f : FFmt) : Nat := 1 + f.ebits + f.mbits
/-- The all-ones exponent. -/
def emax (f : FFmt) : Nat := 2 ^ f.ebits - 1
/-- The sign bit. -/
def signBit (f : FFmt) : Nat := 2 ^ (f.ebits + f.mbits)
/-- ±∞, in a format that has one. -/
def inf (f : FFmt) : Nat := f.emax * 2 ^ f.mbits
/-- The canonical NaN (Table 04.2). -/
def nan (f : FFmt) : Nat := if f.hasInf then f.inf + 2 ^ (f.mbits - 1) else f.signBit - 1
/-- The largest finite value (Table 04.1). -/
def maxFin (f : FFmt) : Nat := if f.hasInf then f.inf - 1 else f.signBit - 2
/-- The exponent of the lowest significand bit of a subnormal. -/
def qmin (f : FFmt) : Int := 1 - (f.bias : Int) - f.mbits
end FFmt

/-- The value of a float: a NaN, an infinity, or (−1)^neg · m · 2^e. -/
inductive FVal where
  | nan
  | inf (neg : Bool)
  | fin (neg : Bool) (m : Nat) (e : Int)
  deriving DecidableEq, Repr

/-- The value of a bit pattern (R68, R69). -/
def FFmt.val (f : FFmt) (bits : Nat) : FVal :=
  let neg := bits / f.signBit % 2 == 1
  let ex := bits / 2 ^ f.mbits % 2 ^ f.ebits
  let m := bits % 2 ^ f.mbits
  if ex = 0 then .fin neg m f.qmin
  else if f.hasInf && ex = f.emax then (if m = 0 then .inf neg else .nan)
  else if !f.hasInf && ex = f.emax && m = 2 ^ f.mbits - 1 then .nan
  else .fin neg (2 ^ f.mbits + m) (f.qmin + (ex - 1 : Nat))

/-- Bits in a number. -/
def bitLen (n : Nat) : Nat := if n = 0 then 0 else n.log2 + 1

/-- m · 2^(−k) to an integer under a mode, for a magnitude of the given sign (R73). -/
def roundShift (rm : RM) (neg : Bool) (m k : Nat) : Nat :=
  let q := m / 2 ^ k
  let r := m % 2 ^ k
  let up := match rm with
    | .rne => 2 * r > 2 ^ k || (2 * r == 2 ^ k && q % 2 == 1)
    | .rtz => false
    | .rdn => r != 0 && neg
    | .rup => r != 0 && !neg
  if up then q + 1 else q

/-- The magnitude bits of m · 2^e rounded to a format with an unbounded exponent; none when it then exceeds the largest finite
value (R74, R75). -/
def FFmt.roundMag (f : FFmt) (rm : RM) (neg : Bool) (m : Nat) (e : Int) : Option Nat :=
  if m = 0 then some 0
  else
    let top : Int := e + bitLen m - 1
    let q : Int := max (top - f.mbits) f.qmin
    let n := if q ≤ e then m * 2 ^ (e - q).toNat else roundShift rm neg m (q - e).toNat
    let x := n + (q - f.qmin).toNat * 2 ^ f.mbits
    if x ≤ f.maxFin then some x else none

/-- The overflow result of arithmetic (R74). -/
def FFmt.overflow (f : FFmt) (rm : RM) (neg : Bool) : Nat :=
  let toInf := match rm with
    | .rne => true
    | .rtz => false
    | .rdn => neg
    | .rup => !neg
  if !toInf then f.maxFin else if f.hasInf then f.inf else f.nan

def FFmt.signed (f : FFmt) (neg : Bool) (mag : Nat) : Nat := if neg then f.signBit + mag else mag

/-- RND(x, f, m) of an arithmetic result (R71 to R74). -/
def FFmt.round (f : FFmt) (rm : RM) : FVal → Nat
  | .nan => f.nan
  | .inf neg => f.signed neg f.inf
  | .fin neg m e => f.signed neg ((f.roundMag rm neg m e).getD (f.overflow rm neg))

/-- A value narrowed from a float or an integer (R75): saturating, or with .ovf. -/
def FFmt.narrow (f : FFmt) (rm : RM) (ovf : Bool) : FVal → Nat
  | .nan => f.nan
  | .inf neg => if ovf then (if f.hasInf then f.signed neg f.inf else f.nan) else f.signed neg f.maxFin
  | .fin neg m e => match f.roundMag rm neg m e with
    | some x => f.signed neg x
    | none => if ovf then (if f.hasInf then f.signed neg (f.overflow rm neg) else f.nan) else f.signed neg f.maxFin

/-- Widening conversions (R75). -/
def FFmt.widens (src dst : FFmt) : Bool :=
  src.mbits ≤ dst.mbits && src.ebits ≤ dst.ebits && (!src.hasInf || dst.hasInf) && src != dst

/-- A float-to-float conversion (R75, R252). -/
def FFmt.convert (src dst : FFmt) (rm : RM) (ovf : Bool) (bits : Nat) : Nat :=
  if src.widens dst then dst.round rm (src.val bits) else dst.narrow rm ovf (src.val bits)

namespace FVal

/-- Signed significand at a common exponent. -/
def scaled (neg : Bool) (m : Nat) (e e0 : Int) : Int :=
  let x : Int := (m * 2 ^ (e - e0).toNat : Nat)
  if neg then -x else x

/-- Of a signed significand. -/
def ofInt (x : Int) (e : Int) : FVal := .fin (x < 0) x.natAbs e

def isNaN : FVal → Bool
  | .nan => true
  | _ => false
def isZero : FVal → Bool
  | .fin _ 0 _ => true
  | _ => false

def neg : FVal → FVal
  | .nan => .nan
  | .inf n => .inf (!n)
  | .fin n m e => .fin (!n) m e

/-- The exact sum; a zero sum takes its sign under R72. -/
def add (rm : RM) : FVal → FVal → FVal
  | .nan, _ => .nan
  | _, .nan => .nan
  | .inf a, .inf b => if a = b then .inf a else .nan
  | .inf a, _ => .inf a
  | _, .inf b => .inf b
  | .fin a m e, .fin b n d =>
    let e0 := min e d
    let x := scaled a m e e0 + scaled b n d e0
    if x = 0 then
      if m = 0 && n = 0 && a = b then .fin a 0 0 else .fin (rm = .rdn) 0 0
    else ofInt x e0

/-- The exact product. -/
def mul : FVal → FVal → FVal
  | .nan, _ => .nan
  | _, .nan => .nan
  | .inf a, .inf b => .inf (a != b)
  | .inf a, .fin b m _ => if m = 0 then .nan else .inf (a != b)
  | .fin a m _, .inf b => if m = 0 then .nan else .inf (a != b)
  | .fin a m e, .fin b n d => .fin (a != b) (m * n) (e + d)

/-- Order of two values that are not NaN; −0 equals +0 (R246). -/
def lt : FVal → FVal → Bool
  | .inf a, .inf b => a && !b
  | .inf a, .fin _ _ _ => a
  | .fin _ _ _, .inf b => !b
  | .fin a m e, .fin b n d => scaled a m e (min e d) < scaled b n d (min e d)
  | _, _ => false

def eq : FVal → FVal → Bool
  | .inf a, .inf b => a == b
  | .fin a m e, .fin b n d => scaled a m e (min e d) == scaled b n d (min e d)
  | _, _ => false

def sign : FVal → Bool
  | .nan => false
  | .inf a => a
  | .fin a _ _ => a

/-- R77: −0 below +0. -/
def below (x y : FVal) : Bool := x.lt y || (x.eq y && x.sign && !y.sign)

/-- The integer nearest under a mode, as sign and magnitude (R76, R253). -/
def toInt (rm : RM) (neg : Bool) (m : Nat) (e : Int) : Nat :=
  if 0 ≤ e then m * 2 ^ e.toNat else roundShift rm neg m (-e).toNat

end FVal

/-- FMIN and FMAX on bit patterns (R77). -/
def FFmt.minmax (f : FFmt) (max : Bool) (a b : Nat) : Nat :=
  let x := f.val a
  let y := f.val b
  if x.isNaN && y.isNaN then f.nan
  else if x.isNaN then b
  else if y.isNaN then a
  else if x.below y then (if max then b else a) else (if max then a else b)

/-- Add, subtract, multiply and the fused forms, rounded once (R243, R244, R248, R249). -/
def FFmt.add (f : FFmt) (rm : RM) (a b : Nat) : Nat := f.round rm ((f.val a).add rm (f.val b))
def FFmt.sub (f : FFmt) (rm : RM) (a b : Nat) : Nat := f.round rm ((f.val a).add rm (f.val b).neg)
def FFmt.mul (f : FFmt) (rm : RM) (a b : Nat) : Nat := f.round rm ((f.val a).mul (f.val b))
/-- negP and negC negate the exact product and the addend (R244). -/
def FFmt.fma (f : FFmt) (rm : RM) (negP negC : Bool) (a b c : Nat) : Nat :=
  let p := (f.val a).mul (f.val b)
  let x := f.val c
  f.round rm ((if negP then p.neg else p).add rm (if negC then x.neg else x))

/-- An integral value of the same format (R253). -/
def FFmt.integral (f : FFmt) (rm : RM) (a : Nat) : Nat :=
  match f.val a with
  | .nan => f.nan
  | .inf _ => a % (2 * f.signBit)
  | .fin neg m e => f.round rm (.fin neg (FVal.toInt rm neg m e) 0)

/-- An exact sum of several terms: a NaN, an infinity, or a zero that is −0 only when every term is (R83). -/
def exactSum (l : List FVal) : FVal :=
  if l.any FVal.isNaN || (l.contains (.inf true) && l.contains (.inf false)) then .nan
  else if l.contains (.inf true) then .inf true
  else if l.contains (.inf false) then .inf false
  else
    let e0 := l.foldl (fun e v => match v with
      | .fin _ _ d => min e d
      | _ => e) 0
    let x := (l.map fun v => match v with
      | .fin b n d => FVal.scaled b n d e0
      | _ => 0).sum
    if x = 0 then .fin (!l.isEmpty && l.all fun v => v.isZero && v.sign) 0 0 else FVal.ofInt x e0

/-- The exact value of an integer. -/
def FVal.int (x : Int) : FVal := .fin (x < 0) x.natAbs 0

end Sys2Proof.Machine
end

