-- ==== Sys2Proof/WellFormed.lean ====
section
/-! DEFINITION. Which instructions the encoding admits: everything R201's reserved-field rule (0x0102) refuses about a form's operands (10, 11, 12, 13, 14). -/

namespace Sys2Proof

/-- An even register names a pair (R191, R94). -/
def evenV (r : VReg) : Bool := r.val % 2 == 0
def evenS (r : SReg) : Bool := r.val % 2 == 0
def evenK (r : KReg) : Bool := r.val % 2 == 0
def evenT (r : TileNo) : Bool := r.val % 2 == 0

/-- An FE bit is set only for a source read from a register (R193). -/
def feOk (c : Ctl) (a b x : Option (List Reg)) : Bool :=
  (!c.fe.getLsbD 0 || a.isSome) && (!c.fe.getLsbD 1 || b.isSome) && (!c.fe.getLsbD 2 || x.isSome)

/-- The forms that may carry H[6], the prefetch of a target (R194). -/
def Instr.prefetchable : Instr → Bool
  | .bra _ _ | .callDirect _ _ => true
  | _ => false

/-- G, FE and H of a core form (R192 to R194). -/
def ctlOk (c : Ctl) (f : Form) (pre : Bool) : Bool :=
  c.g != 0b1000 && feOk c f.srcA f.srcB f.srcC && c.h.toNat % 16 == 0 && (!c.h.getLsbD 6 || pre)

/-- An f64 form names pairs and has no immediate (R245, R246). -/
def VB.ok (ty : FTy) : VB → Bool
  | .reg r => ty == .f32 || evenV r
  | .imm _ => ty == .f32
/-- An f64 operand is an even pair (R242). -/
def FTy.ok (ty : FTy) (r : VReg) : Bool := ty == .f32 || evenV r
def KTy.ok (ty : KTy) (r : VReg) : Bool := ty != .f64 || evenV r
def Fmt.ok (f : Fmt) (r : VReg) : Bool := f.width != 64 || evenV r

def Fmt.isFloat : Fmt → Bool
  | .f16 | .bf16 | .f32 | .f64 | .e4m3 | .e5m2 => true
  | _ => false

/-- The format pairs of Table 12.1, .ovf (R251) and the part selector (R198). -/
def cvtOk (dst src : Fmt) (ovf : Bool) (part : BitVec 2) : Bool :=
  dst != src && (!ovf || dst.isFloat) &&
  (part == 0 || dst.width < 32 || src.width < 32) &&
  (!part.getLsbD 1 || dst.width == 8 || src.width == 8)

/-- .ovf on an integer target, of codes 0 to 7, is a reserved field (R76, Table 10.10); the codes 14 and 15 are looked at later (R297,
R362, Table 22.3; log 110). -/
def outOk (fmt : BitVec 4) (ovf : Bool) : Bool := !ovf || decide (8 ≤ fmt.toNat)

/-- .lead with .all is reserved (R257). -/
def LX.ok (lx : LX) : Bool := lx.members.isSome || !lx.lead

/-- A .g base is a pair (R199). -/
def baseOk (sp : Space) (r : SReg) : Bool := sp != .g || evenS r

/-- The first register of LD and ST (R269). -/
def Width.ok (w : Width) (d : VReg) : Bool := d.val % w.nregs == 0

/-- A scope other than .team needs an order on LD, LDS and ST (R267). -/
def scopeOk (o : Order) (s : Scope) : Bool := o != .none || s == .team

/-- The C operand of ATOM and RED: an even v pair at width 5 (R272). -/
def atomC (wide : Bool) : VC → Bool
  | .v r => !wide || evenV r
  | .s _ => true
/-- CAS takes its new value in the next register or pair of the same file (R272). Where no next one exists the form is a reserved field
(log 129). -/
def casC (wide : Bool) : VC → Bool
  | .v r => if wide then evenV r && r.val + 3 < 384 else r.val + 1 < 384
  | .s r => r.val + 1 < 64

/-- INBOUND, OUTBOUND or both; code 11 is reserved (Table 13.2). -/
def barOk : Option BarRef → Bool
  | none => true
  | some b => b.inbound || b.outbound

/-- Widths into a vector or a scalar register (R207). -/
def Spec.readable (x : Spec) : VC → Bool
  | .v _ => match x with
    | .launch | .cycles | .stkbase | .stklim | .bufd | .bufa | .bufb | .tsave | .tvec | .ncrew => false
    | _ => true
  | .s _ => match x with
    | .lane | .draws => false
    | _ => true
/-- The special registers that may be written (R207). -/
def Spec.writable : Spec → Bool
  | .migr | .stkbase | .stklim | .tsave | .tvec => true
  | _ => false

/-- The rules of one form's operands, beyond those of every core form. -/
def Instr.operandsOk : Instr → Bool
  | .brx _ b _ | .callIndirect _ b _ => evenS b
  | .sregRead _ d a => a.readable d
  | .sregWrite _ d _ => d.writable
  | .addr _ d a _ => evenS d && evenS a
  | .fminmaxMin _ ty d a b | .fminmaxMax _ ty d a b => ty.ok d && ty.ok a && b.ok ty
  | .fcmpEq _ ty _ a b | .fcmpNe _ ty _ a b | .fcmpLt _ ty _ a b | .fcmpLe _ ty _ a b
  | .fcmpGt _ ty _ a b | .fcmpGe _ ty _ a b | .fcmpUnord _ ty _ a b | .fcmpOrd _ ty _ a b => ty.ok a && b.ok ty
  | .fsignAbs _ ty d a | .fsignNeg _ ty d a | .frnd _ ty _ d a => ty.ok d && ty.ok a
  | .fsignCopysign _ ty d a b => ty.ok d && ty.ok a && ty.ok b
  | .darithDadd _ _ d a b | .darithDsub _ _ d a b | .darithDmul _ _ d a b => evenV d && evenV a && evenV b
  | .darithDfma _ _ d a b x => evenV d && evenV a && evenV b && atomC true x
  | .cvt _ dst src ovf _ part d a => cvtOk dst src ovf part && dst.ok d && src.ok a
  | .fkey _ ty d a | .fkeyInv _ ty d a => ty.ok d && ty.ok a
  | .shflIdx _ _ _ _ lx | .shflUp _ _ _ _ lx | .shflDown _ _ _ _ lx | .shflXor _ _ _ _ lx => lx.ok
  | .voteAny _ _ _ lx | .voteAll _ _ _ lx | .voteBallot _ _ _ lx | .voteUni _ _ _ lx => lx.ok
  | .sample _ _ _ _ lx | .bandredIadd _ _ _ lx | .bandredFadd _ _ _ lx => lx.ok
  | .bandredMin _ _ _ _ lx | .bandredMax _ _ _ _ lx => lx.ok
  | .ld _ w d m => w.ok d && baseOk m.space m.base && (m.order == .none || m.order == .acq) && scopeOk m.order m.scope
  | .st _ w d m => w.ok d && baseOk m.space m.base && (m.order == .none || m.order == .rel) && scopeOk m.order m.scope
  | .lds _ w _ sp o sc b => w != .b128 && w != .b256 && baseOk sp b && (o == .none || o == .acq) && scopeOk o sc
  | .atomAdd _ w _ d m x | .atomMin _ w _ d m x | .atomMax _ w _ d m x | .atomAnd _ w _ d m x
  | .atomOr _ w _ d m x | .atomXor _ w _ d m x | .atomSwap _ w _ d m x | .atomFadd _ w d m x =>
    (!w || evenV d) && baseOk m.space m.base && atomC w x
  | .atomCas _ w _ d m x => (!w || evenV d) && baseOk m.space m.base && casC w x
  | .red _ op w u m x => baseOk m.space m.base && atomC w x && (op != .fadd || !u)
  | .hcopyCopy _ ds ss dst src _ bar => baseOk ds dst && baseOk ss src && barOk bar
  | .hcopyPlane _ ds ss _ src _ bar _ _ | .hcopySplit _ ds ss _ src _ bar _ _ _ | .hcopyGather _ ds ss _ src _ bar _ =>
    ds != .g && baseOk ss src && barOk bar
  | .hcopyMask _ ss _ src _ bar => baseOk ss src && barOk bar
  | .mms _ d _ _ _ _ _ => evenT d
  | .accZero _ pair d | .accLoad _ pair d _ => !pair || evenT d
  | .accOut _ pair d _ _ _ fmt ovf _ => (!pair || evenT d) && outOk fmt ovf
  | .accMove _ pair d a => !pair || (evenT d && evenT a)
  | .accSpill _ pair d a => (!pair || evenT d) && evenS a
  | .kread _ _ a _ | .redt _ a _ | .ssignal _ a _ _ | .swait _ _ _ a _ => evenK a
  | .areaRead a _ | .areaWrite a _ => evenK a
  | .bdecl _ cls => cls.toNat ≤ 11
  | _ => true

/-- What the encoding admits. An event is not encoded: nothing of it can be ill-formed. -/
def Instr.wellFormed (i : Instr) : Bool :=
  i.operandsOk && match i.form with
    | none => true
    | some f => ctlOk f.ctl f i.prefetchable

end Sys2Proof
end

