-- ==== Sys2Proof/Decode.lean ====
section
/-! DEFINITION. The decoder of 96-bit instruction words and the encoder, both written from the opcode map (Tables 10.2 to 10.13, R188 to R201). -/

namespace Sys2Proof

/-- The fields of Table 10.2, each as a number. -/
structure Fields where
  op : Nat := 0
  fn : Nat := 0
  d : Nat := 0
  a : Nat := 0
  b : Nat := 0
  g : Nat := 0
  fe : Nat := 0
  ty : Nat := 0
  m : Nat := 0
  h : Nat := 0
  x : Nat := 0
  deriving DecidableEq, Repr

/-- Each field fits its bits. -/
def Fields.InRange (f : Fields) : Prop :=
  f.op < 256 ∧ f.fn < 16 ∧ f.d < 512 ∧ f.a < 512 ∧ f.b < 512 ∧ f.g < 16 ∧ f.fe < 8 ∧ f.ty < 4 ∧ f.m < 256 ∧ f.h < 256 ∧
  f.x < 4294967296

/-- The bits of Table 10.2, from OP at bit 0 to X at bit 64, as one number. -/
def Fields.number (f : Fields) : Nat :=
  f.op + 2 ^ 8 * f.fn + 2 ^ 12 * f.d + 2 ^ 21 * f.a + 2 ^ 30 * f.b + 2 ^ 39 * f.g + 2 ^ 43 * f.fe + 2 ^ 46 * f.ty +
  2 ^ 48 * f.m + 2 ^ 56 * f.h + 2 ^ 64 * f.x

def Fields.pack (f : Fields) : InsnWord := BitVec.ofNat 96 f.number

/-- The fields of a number below 2^96 (Table 10.2). -/
def Fields.ofNumber (n : Nat) : Fields :=
  { op := n % 256, fn := n / 2 ^ 8 % 16, d := n / 2 ^ 12 % 512, a := n / 2 ^ 21 % 512, b := n / 2 ^ 30 % 512,
    g := n / 2 ^ 39 % 16, fe := n / 2 ^ 43 % 8, ty := n / 2 ^ 46 % 4, m := n / 2 ^ 48 % 256, h := n / 2 ^ 56 % 256,
    x := n / 2 ^ 64 % 4294967296 }

def Fields.unpack (w : InsnWord) : Fields := Fields.ofNumber w.toNat

/-- G, FE and H as fields. -/
def Ctl.fields (c : Ctl) : Fields := { g := c.g.toNat, fe := c.fe.toNat, h := c.h.toNat }
def Fields.ctl (f : Fields) : Ctl := ⟨BitVec.ofNat 4 f.g, BitVec.ofNat 3 f.fe, BitVec.ofNat 8 f.h⟩

/-- A register of a file of k registers. -/
def fin? (k n : Nat) : Option (Fin k) := if h : n < k then some ⟨n, h⟩ else none
/-- Number 384 + n is sn (Table 10.3). -/
def sreg? (n : Nat) : Option SReg := if 384 ≤ n then fin? 64 (n - 384) else none
def bool? : Nat → Option Bool
  | 0 => some false
  | 1 => some true
  | _ => none

/-- The number of a register in a 9-bit field (Table 10.3). -/
def VC.code : VC → Nat
  | .v r => r.val
  | .s r => 384 + r.val
def VC.ofCode (n : Nat) : Option VC :=
  if n < 384 then (fin? 384 n).map .v else (sreg? n).map .s

/-- B/i: the field B, the bit I and the immediate (R203). -/
def VB.num : VB → Nat
  | .reg r => r.val
  | .imm _ => 0
def VB.flag : VB → Nat
  | .reg _ => 0
  | .imm _ => 1
def VB.val : VB → Nat
  | .reg _ => 0
  | .imm x => x.toNat
def VB.ofFields (b i x : Nat) : Option VB :=
  if i = 0 then (fin? 384 b).map .reg else some (.imm (BitVec.ofNat 32 x))

def SB.num : SB → Nat
  | .reg r => 384 + r.val
  | .imm _ => 0
def SB.flag : SB → Nat
  | .reg _ => 0
  | .imm _ => 1
def SB.val : SB → Nat
  | .reg _ => 0
  | .imm x => x.toNat
def SB.ofFields (b i x : Nat) : Option SB :=
  if i = 0 then (sreg? b).map .reg else some (.imm (BitVec.ofNat 32 x))

def KB.num : KB → Nat
  | .reg r => r.val
  | .imm _ => 0
def KB.flag : KB → Nat
  | .reg _ => 0
  | .imm _ => 1
def KB.val : KB → Nat
  | .reg _ => 0
  | .imm x => x.toNat
def KB.ofFields (b i x : Nat) : Option KB :=
  if i = 0 then (fin? 32 b).map .reg else some (.imm (BitVec.ofNat 32 x))

/-- The lane or delta of SHFL: B, or X[20:16] with I = 1 (Table 10.9). -/
def LB.num : LB → Nat
  | .reg r => r.val
  | .imm _ => 0
def LB.flag : LB → Nat
  | .reg _ => 0
  | .imm _ => 1
def LB.val : LB → Nat
  | .reg _ => 0
  | .imm n => n.toNat
/-- B of SHFL from its fields; X is used where I is 1 and is zero where it is not (Table 10.9; log 109). -/
def LB.ofFields (b i x : Nat) : Option LB :=
  if i = 0 then (fin? 384 b).map .reg else some (.imm (BitVec.ofNat 5 x))

/-- X of Table 10.9 without the immediate lane. -/
def LX.code (lx : LX) : Nat :=
  (match lx.members with
    | some r => r.code
    | none => 4096) + 8192 * lx.lead.toNat + 16777216 * lx.absent.val
def LX.ofCode (x : Nat) : Option LX := do
  let p ← fin? 8 (x / 16777216 % 8)
  let lead ← bool? (x / 8192 % 2)
  if x / 4096 % 2 = 0 then
    let r ← VC.ofCode (x % 512)
    some ⟨some r, lead, p⟩
  else some ⟨none, lead, p⟩

/-- Width codes 4 and 5 of ATOM and RED (Table 10.12). -/
def wideCode (w : Bool) : Nat := if w then 5 else 4
def wide? : Nat → Option Bool
  | 4 => some false
  | 5 => some true
  | _ => none

/-- A masked flag with the queue above it (R294, R297). -/
def maskedCode (x : QSel) : Nat := x.masked.toNat + 2 * x.q.val
def masked? (n : Nat) : Option QSel := (fin? 8 (n / 2)).map fun q => ⟨n % 2 = 1, q⟩

/-- X[10:0] of an HCOPY that names a barrier (Table 13.2). -/
def barCode : Option BarRef → Nat
  | none => 0
  | some b => 384 + b.bar.val + 512 * (match b.inbound, b.outbound with
    | true, false => 0
    | false, true => 1
    | true, true => 2
    | false, false => 3)
def bar? (flag x : Nat) : Option (Option BarRef) :=
  if flag = 0 then some none
  else do
    let r ← sreg? (x % 512)
    match x / 512 with
    | 0 => some (some ⟨r, true, false⟩)
    | 1 => some (some ⟨r, false, true⟩)
    | 2 => some (some ⟨r, true, true⟩)
    | _ => none

/-- A buffer field that a bit of M binds (Table 10.13). -/
def optBuf : Option BufNo → Nat
  | none => 0
  | some b => b.val
def buf? (flag n : Nat) : Option (Option BufNo) :=
  if flag = 0 then some none else (fin? 256 n).map some

/-- The codes of RM (R73). -/
def RM.code : RM → Nat
  | .rne => 0
  | .rtz => 1
  | .rdn => 2
  | .rup => 3
def RM.ofCode : Nat → Option RM
  | 0 => some .rne
  | 1 => some .rtz
  | 2 => some .rdn
  | 3 => some .rup
  | _ => none

/-- The codes of CC (R224). -/
def CC.code : CC → Nat
  | .eq => 0
  | .ne => 1
  | .lt => 2
  | .le => 3
  | .gt => 4
  | .ge => 5
  | .ltn => 6
  | .len => 7
  | .gtn => 8
  | .gen => 9
def CC.ofCode : Nat → Option CC
  | 0 => some .eq
  | 1 => some .ne
  | 2 => some .lt
  | 3 => some .le
  | 4 => some .gt
  | 5 => some .ge
  | 6 => some .ltn
  | 7 => some .len
  | 8 => some .gtn
  | 9 => some .gen
  | _ => none

/-- The codes of AluOp (R237). -/
def AluOp.code : AluOp → Nat
  | .add => 0
  | .sub => 1
  | .mul => 2
  | .and => 3
  | .or => 4
  | .xor => 5
  | .shl => 6
  | .shr => 7
  | .sar => 8
  | .min => 9
  | .max => 10
def AluOp.ofCode : Nat → Option AluOp
  | 0 => some .add
  | 1 => some .sub
  | 2 => some .mul
  | 3 => some .and
  | 4 => some .or
  | 5 => some .xor
  | 6 => some .shl
  | 7 => some .shr
  | 8 => some .sar
  | 9 => some .min
  | 10 => some .max
  | _ => none

/-- The codes of Fmt (Table 10.10). -/
def Fmt.code : Fmt → Nat
  | .i8 => 0
  | .i16 => 1
  | .i32 => 2
  | .i64 => 3
  | .n8 => 4
  | .n16 => 5
  | .n32 => 6
  | .n64 => 7
  | .f16 => 8
  | .bf16 => 9
  | .f32 => 10
  | .f64 => 11
  | .e4m3 => 12
  | .e5m2 => 13
def Fmt.ofCode : Nat → Option Fmt
  | 0 => some .i8
  | 1 => some .i16
  | 2 => some .i32
  | 3 => some .i64
  | 4 => some .n8
  | 5 => some .n16
  | 6 => some .n32
  | 7 => some .n64
  | 8 => some .f16
  | 9 => some .bf16
  | 10 => some .f32
  | 11 => some .f64
  | 12 => some .e4m3
  | 13 => some .e5m2
  | _ => none

/-- The codes of AFmt (R199). -/
def AFmt.code : AFmt → Nat
  | .i1 => 0
  | .i2 => 1
  | .i4 => 2
  | .i8 => 3
  | .e4m3 => 4
  | .e5m2 => 5
  | .bf16 => 6
  | .f16 => 7
def AFmt.ofCode : Nat → Option AFmt
  | 0 => some .i1
  | 1 => some .i2
  | 2 => some .i4
  | 3 => some .i8
  | 4 => some .e4m3
  | 5 => some .e5m2
  | 6 => some .bf16
  | 7 => some .f16
  | _ => none

/-- The codes of BFmt (R199). -/
def BFmt.code : BFmt → Nat
  | .i8 => 0
  | .n8 => 1
  | .e4m3 => 2
  | .e5m2 => 3
  | .bf16 => 4
def BFmt.ofCode : Nat → Option BFmt
  | 0 => some .i8
  | 1 => some .n8
  | 2 => some .e4m3
  | 3 => some .e5m2
  | 4 => some .bf16
  | _ => none

/-- The codes of Space (Table 10.12). -/
def Space.code : Space → Nat
  | .g => 0
  | .w => 1
  | .l => 2
def Space.ofCode : Nat → Option Space
  | 0 => some .g
  | 1 => some .w
  | 2 => some .l
  | _ => none

/-- The codes of Scope (Table 10.12). -/
def Scope.code : Scope → Nat
  | .team => 0
  | .crew => 1
  | .core => 2
  | .part => 3
  | .sys => 4
def Scope.ofCode : Nat → Option Scope
  | 0 => some .team
  | 1 => some .crew
  | 2 => some .core
  | 3 => some .part
  | 4 => some .sys
  | _ => none

/-- The codes of Order (Table 10.12). -/
def Order.code : Order → Nat
  | .none => 0
  | .acq => 1
  | .rel => 2
  | .ar => 3
def Order.ofCode : Nat → Option Order
  | 0 => some .none
  | 1 => some .acq
  | 2 => some .rel
  | 3 => some .ar
  | _ => none

/-- The codes of FenceMode (Table 10.11). -/
def FenceMode.code : FenceMode → Nat
  | .sc => 0
  | .acq => 1
  | .rel => 2
  | .ar => 3
def FenceMode.ofCode : Nat → Option FenceMode
  | 0 => some .sc
  | 1 => some .acq
  | 2 => some .rel
  | 3 => some .ar
  | _ => none

/-- The codes of Width (Table 10.12). -/
def Width.code : Width → Nat
  | .n8 => 0
  | .i8 => 1
  | .n16 => 2
  | .i16 => 3
  | .w32 => 4
  | .w64 => 5
  | .b128 => 6
  | .b256 => 7
def Width.ofCode : Nat → Option Width
  | 0 => some .n8
  | 1 => some .i8
  | 2 => some .n16
  | 3 => some .i16
  | 4 => some .w32
  | 5 => some .w64
  | 6 => some .b128
  | 7 => some .b256
  | _ => none

/-- The codes of FTy (Table 10.8). -/
def FTy.code : FTy → Nat
  | .f32 => 0
  | .f64 => 1
def FTy.ofCode : Nat → Option FTy
  | 0 => some .f32
  | 1 => some .f64
  | _ => none

/-- The codes of HTy (Table 10.8). -/
def HTy.code : HTy → Nat
  | .f16 => 0
  | .bf16 => 1
def HTy.ofCode : Nat → Option HTy
  | 0 => some .f16
  | 1 => some .bf16
  | _ => none

/-- The codes of KTy (Table 10.8). -/
def KTy.code : KTy → Nat
  | .f32 => 0
  | .f16 => 1
  | .f64 => 2
def KTy.ofCode : Nat → Option KTy
  | 0 => some .f32
  | 1 => some .f16
  | 2 => some .f64
  | _ => none

/-- The codes of BTy (Table 10.8). -/
def BTy.code : BTy → Nat
  | .i32 => 0
  | .n32 => 1
  | .f32 => 2
def BTy.ofCode : Nat → Option BTy
  | 0 => some .i32
  | 1 => some .n32
  | 2 => some .f32
  | _ => none

/-- The codes of RedOp (R273). -/
def RedOp.code : RedOp → Nat
  | .add => 0
  | .min => 1
  | .max => 2
  | .and => 3
  | .or => 4
  | .xor => 5
  | .fadd => 8
def RedOp.ofCode : Nat → Option RedOp
  | 0 => some .add
  | 1 => some .min
  | 2 => some .max
  | 3 => some .and
  | 4 => some .or
  | 5 => some .xor
  | 8 => some .fadd
  | _ => none

/-- The codes of WaitCmp (Table 10.13). -/
def WaitCmp.code : WaitCmp → Nat
  | .eq => 0
  | .ne => 1
  | .ge => 2
  | .lt => 3
def WaitCmp.ofCode : Nat → Option WaitCmp
  | 0 => some .eq
  | 1 => some .ne
  | 2 => some .ge
  | 3 => some .lt
  | _ => none

/-- The codes of Spec (Table 11.1). -/
def Spec.code : Spec → Nat
  | .lane => 448
  | .team => 449
  | .crew => 450
  | .launch => 451
  | .core => 452
  | .quarter => 453
  | .migr => 454
  | .cycles => 455
  | .stkbase => 456
  | .stklim => 457
  | .bufd => 458
  | .bufa => 459
  | .bufb => 460
  | .tsave => 461
  | .tvec => 462
  | .tcause => 463
  | .draws => 464
  | .nlanes => 465
  | .nteams => 466
  | .ncrew => 467
def Spec.ofCode : Nat → Option Spec
  | 448 => some .lane
  | 449 => some .team
  | 450 => some .crew
  | 451 => some .launch
  | 452 => some .core
  | 453 => some .quarter
  | 454 => some .migr
  | 455 => some .cycles
  | 456 => some .stkbase
  | 457 => some .stklim
  | 458 => some .bufd
  | 459 => some .bufa
  | 460 => some .bufb
  | 461 => some .tsave
  | 462 => some .tvec
  | 463 => some .tcause
  | 464 => some .draws
  | 465 => some .nlanes
  | 466 => some .nteams
  | 467 => some .ncrew
  | _ => none
/-- Space, order and scope in M (Table 10.12). -/
def MemOp.code (m : MemOp) : Nat := m.space.code + 4 * m.order.code + 16 * m.scope.code
def MemOp.ofFields (a b m : Nat) : Option MemOp := do
  let sp ← Space.ofCode (m % 4)
  let o ← Order.ofCode (m / 4 % 4)
  let sc ← Scope.ofCode (m / 16 % 8)
  let r ← sreg? a
  let v ← fin? 384 b
  some ⟨sp, o, sc, r, v⟩

/-- TY of RED: 10 with FADD, 01 unsigned (R273). -/
def redTy (op : RedOp) (uns : Bool) : Nat := if op = .fadd then 2 else uns.toNat
def redUns? : Nat → Option Bool
  | 0 => some false
  | 1 => some true
  | 2 => some false
  | _ => none

/-- The fields of an instruction, by the opcode map; none for an event, which has no encoding. -/
def Instr.toFields : Instr → Option Fields
  | .nop c => some { c.fields with op := 0x00 }
  | .yield c => some { c.fields with op := 0x00, fn := 1 }
  | .bra c off => some { c.fields with op := 0x01, x := off.toNat }
  | .brx c base off => some { c.fields with op := 0x02, a := (384 + base.val), b := off.val }
  | .callDirect c off => some { c.fields with op := 0x03, x := off.toNat }
  | .callIndirect c base off => some { c.fields with op := 0x03, fn := 1, a := (384 + base.val), b := off.val }
  | .ret c => some { c.fields with op := 0x04 }
  | .jset c j => some { c.fields with op := 0x05, d := j.val }
  | .jarr c j => some { c.fields with op := 0x05, fn := 1, a := j.val }
  | .jwait c j => some { c.fields with op := 0x05, fn := 2, a := j.val }
  | .jread c d j => some { c.fields with op := 0x05, fn := 3, d := d.val, a := j.val }
  | .exit c => some { c.fields with op := 0x06 }
  | .trap c code => some { c.fields with op := 0x07, x := code.toNat }
  | .brk c code => some { c.fields with op := 0x07, fn := 1, x := code.toNat }
  | .tret c => some { c.fields with op := 0x07, fn := 2 }
  | .icmpEq c d a b => some { c.fields with op := 0x08, d := d.val, a := a.val, b := b.num, m := 128 * b.flag, x := b.val }
  | .icmpNe c d a b => some { c.fields with op := 0x08, fn := 1, d := d.val, a := a.val, b := b.num, m := 128 * b.flag, x := b.val }
  | .icmpLt c d a b => some { c.fields with op := 0x08, fn := 2, d := d.val, a := a.val, b := b.num, m := 128 * b.flag, x := b.val }
  | .icmpLe c d a b => some { c.fields with op := 0x08, fn := 3, d := d.val, a := a.val, b := b.num, m := 128 * b.flag, x := b.val }
  | .icmpGt c d a b => some { c.fields with op := 0x08, fn := 4, d := d.val, a := a.val, b := b.num, m := 128 * b.flag, x := b.val }
  | .icmpGe c d a b => some { c.fields with op := 0x08, fn := 5, d := d.val, a := a.val, b := b.num, m := 128 * b.flag, x := b.val }
  | .icmpLtn c d a b => some { c.fields with op := 0x08, fn := 6, d := d.val, a := a.val, b := b.num, m := 128 * b.flag, x := b.val }
  | .icmpLen c d a b => some { c.fields with op := 0x08, fn := 7, d := d.val, a := a.val, b := b.num, m := 128 * b.flag, x := b.val }
  | .icmpGtn c d a b => some { c.fields with op := 0x08, fn := 8, d := d.val, a := a.val, b := b.num, m := 128 * b.flag, x := b.val }
  | .icmpGen c d a b => some { c.fields with op := 0x08, fn := 9, d := d.val, a := a.val, b := b.num, m := 128 * b.flag, x := b.val }
  | .plopAnd c d a b => some { c.fields with op := 0x09, d := d.val, a := a.val, b := b.val }
  | .plopOr c d a b => some { c.fields with op := 0x09, fn := 1, d := d.val, a := a.val, b := b.val }
  | .plopXor c d a b => some { c.fields with op := 0x09, fn := 2, d := d.val, a := a.val, b := b.val }
  | .plopAndn c d a b => some { c.fields with op := 0x09, fn := 3, d := d.val, a := a.val, b := b.val }
  | .plopNot c d a => some { c.fields with op := 0x09, fn := 4, d := d.val, a := a.val }
  | .plopMov c d a => some { c.fields with op := 0x09, fn := 5, d := d.val, a := a.val }
  | .sel c d a b p inv => some { c.fields with op := 0x0A, d := d.val, a := a.val, b := b.val, x := p.val + 8 * inv.toNat }
  | .movReg c d a => some { c.fields with op := 0x0B, d := d.val, a := a.val }
  | .movImm c d x => some { c.fields with op := 0x0B, fn := 1, d := d.val, x := x.toNat }
  | .movS2V c d a hi => some { c.fields with op := 0x0B, fn := 2, d := d.val, a := (384 + a.val), m := hi.toNat }
  | .movV2S c d a hi => some { c.fields with op := 0x0B, fn := 3, d := (384 + d.val), a := a.val, m := hi.toNat }
  | .sregRead c d a => some { c.fields with op := 0x0C, d := d.code, a := a.code }
  | .sregWrite c d a => some { c.fields with op := 0x0C, fn := 1, d := d.code, a := a.code }
  | .iaddAdd c d a b => some { c.fields with op := 0x10, d := d.val, a := a.val, b := b.num, m := 128 * b.flag, x := b.val }
  | .iaddSub c d a b => some { c.fields with op := 0x10, fn := 1, d := d.val, a := a.val, b := b.num, m := 128 * b.flag, x := b.val }
  | .iaddAddsat c d a b uns => some { c.fields with op := 0x10, fn := 2, d := d.val, a := a.val, b := b.num, ty := uns.toNat, m := 128 * b.flag, x := b.val }
  | .iaddSubsat c d a b uns => some { c.fields with op := 0x10, fn := 3, d := d.val, a := a.val, b := b.num, ty := uns.toNat, m := 128 * b.flag, x := b.val }
  | .iaddNeg c d a => some { c.fields with op := 0x10, fn := 4, d := d.val, a := a.val }
  | .imulLo c d a b => some { c.fields with op := 0x11, d := d.val, a := a.val, b := b.num, m := 128 * b.flag, x := b.val }
  | .imulHis c d a b => some { c.fields with op := 0x11, fn := 1, d := d.val, a := a.val, b := b.num, m := 128 * b.flag, x := b.val }
  | .imulHin c d a b => some { c.fields with op := 0x11, fn := 2, d := d.val, a := a.val, b := b.num, m := 128 * b.flag, x := b.val }
  | .imulMad c d a b x => some { c.fields with op := 0x11, fn := 3, d := d.val, a := a.val, b := b.val, x := x.code }
  | .logicAnd c d a b => some { c.fields with op := 0x12, d := d.val, a := a.val, b := b.num, m := 128 * b.flag, x := b.val }
  | .logicOr c d a b => some { c.fields with op := 0x12, fn := 1, d := d.val, a := a.val, b := b.num, m := 128 * b.flag, x := b.val }
  | .logicXor c d a b => some { c.fields with op := 0x12, fn := 2, d := d.val, a := a.val, b := b.num, m := 128 * b.flag, x := b.val }
  | .logicAndn c d a b => some { c.fields with op := 0x12, fn := 3, d := d.val, a := a.val, b := b.num, m := 128 * b.flag, x := b.val }
  | .logicNot c d a => some { c.fields with op := 0x12, fn := 4, d := d.val, a := a.val }
  | .shiftShl c d a b => some { c.fields with op := 0x13, d := d.val, a := a.val, b := b.num, m := 128 * b.flag, x := b.val }
  | .shiftShr c d a b => some { c.fields with op := 0x13, fn := 1, d := d.val, a := a.val, b := b.num, m := 128 * b.flag, x := b.val }
  | .shiftSar c d a b => some { c.fields with op := 0x13, fn := 2, d := d.val, a := a.val, b := b.num, m := 128 * b.flag, x := b.val }
  | .shiftRol c d a b => some { c.fields with op := 0x13, fn := 3, d := d.val, a := a.val, b := b.num, m := 128 * b.flag, x := b.val }
  | .bitfBfe c d a b => some { c.fields with op := 0x14, d := d.val, a := a.val, b := b.num, m := 128 * b.flag, x := b.val }
  | .bitfBfen c d a b => some { c.fields with op := 0x14, fn := 1, d := d.val, a := a.val, b := b.num, m := 128 * b.flag, x := b.val }
  | .bitfBfi c d a b x => some { c.fields with op := 0x14, fn := 2, d := d.val, a := a.val, b := b.val, x := x.code }
  | .bitcPopc c d a => some { c.fields with op := 0x15, d := d.val, a := a.val }
  | .bitcClz c d a => some { c.fields with op := 0x15, fn := 1, d := d.val, a := a.val }
  | .bitcCtz c d a => some { c.fields with op := 0x15, fn := 2, d := d.val, a := a.val }
  | .bitcBrev c d a => some { c.fields with op := 0x15, fn := 3, d := d.val, a := a.val }
  | .iminmaxMin c d a b => some { c.fields with op := 0x16, d := d.val, a := a.val, b := b.num, m := 128 * b.flag, x := b.val }
  | .iminmaxMax c d a b => some { c.fields with op := 0x16, fn := 1, d := d.val, a := a.val, b := b.num, m := 128 * b.flag, x := b.val }
  | .iminmaxMinn c d a b => some { c.fields with op := 0x16, fn := 2, d := d.val, a := a.val, b := b.num, m := 128 * b.flag, x := b.val }
  | .iminmaxMaxn c d a b => some { c.fields with op := 0x16, fn := 3, d := d.val, a := a.val, b := b.num, m := 128 * b.flag, x := b.val }
  | .idivDivn c d a b => some { c.fields with op := 0x17, d := d.val, a := a.val, b := b.num, m := 128 * b.flag, x := b.val }
  | .idivRemn c d a b => some { c.fields with op := 0x17, fn := 1, d := d.val, a := a.val, b := b.num, m := 128 * b.flag, x := b.val }
  | .idivDivs c d a b => some { c.fields with op := 0x17, fn := 2, d := d.val, a := a.val, b := b.num, m := 128 * b.flag, x := b.val }
  | .idivRems c d a b => some { c.fields with op := 0x17, fn := 3, d := d.val, a := a.val, b := b.num, m := 128 * b.flag, x := b.val }
  | .lea c d a b sh => some { c.fields with op := 0x18, d := d.val, a := a.val, b := b.val, x := sh.toNat }
  | .saluAdd c d a b => some { c.fields with op := 0x20, d := (384 + d.val), a := (384 + a.val), b := b.num, m := 128 * b.flag, x := b.val }
  | .saluSub c d a b => some { c.fields with op := 0x20, fn := 1, d := (384 + d.val), a := (384 + a.val), b := b.num, m := 128 * b.flag, x := b.val }
  | .saluMul c d a b => some { c.fields with op := 0x20, fn := 2, d := (384 + d.val), a := (384 + a.val), b := b.num, m := 128 * b.flag, x := b.val }
  | .saluAnd c d a b => some { c.fields with op := 0x20, fn := 3, d := (384 + d.val), a := (384 + a.val), b := b.num, m := 128 * b.flag, x := b.val }
  | .saluOr c d a b => some { c.fields with op := 0x20, fn := 4, d := (384 + d.val), a := (384 + a.val), b := b.num, m := 128 * b.flag, x := b.val }
  | .saluXor c d a b => some { c.fields with op := 0x20, fn := 5, d := (384 + d.val), a := (384 + a.val), b := b.num, m := 128 * b.flag, x := b.val }
  | .saluShl c d a b => some { c.fields with op := 0x20, fn := 6, d := (384 + d.val), a := (384 + a.val), b := b.num, m := 128 * b.flag, x := b.val }
  | .saluShr c d a b => some { c.fields with op := 0x20, fn := 7, d := (384 + d.val), a := (384 + a.val), b := b.num, m := 128 * b.flag, x := b.val }
  | .saluSar c d a b => some { c.fields with op := 0x20, fn := 8, d := (384 + d.val), a := (384 + a.val), b := b.num, m := 128 * b.flag, x := b.val }
  | .saluMin c d a b uns => some { c.fields with op := 0x20, fn := 9, d := (384 + d.val), a := (384 + a.val), b := b.num, ty := uns.toNat, m := 128 * b.flag, x := b.val }
  | .saluMax c d a b uns => some { c.fields with op := 0x20, fn := 10, d := (384 + d.val), a := (384 + a.val), b := b.num, ty := uns.toNat, m := 128 * b.flag, x := b.val }
  | .scmp c cc d a b => some { c.fields with op := 0x21, d := d.val, a := (384 + a.val), b := b.num, m := cc.code + 128 * b.flag, x := b.val }
  | .addr c d a b => some { c.fields with op := 0x22, d := (384 + d.val), a := (384 + a.val), b := b.num, m := 128 * b.flag, x := b.val }
  | .smoviLo c d x => some { c.fields with op := 0x23, d := (384 + d.val), x := x.toNat }
  | .smoviHi c d x => some { c.fields with op := 0x23, fn := 1, d := (384 + d.val), x := x.toNat }
  | .farithAdd c rm d a b => some { c.fields with op := 0x40, d := d.val, a := a.val, b := b.num, m := rm.code + 128 * b.flag, x := b.val }
  | .farithSub c rm d a b => some { c.fields with op := 0x40, fn := 1, d := d.val, a := a.val, b := b.num, m := rm.code + 128 * b.flag, x := b.val }
  | .farithMul c rm d a b => some { c.fields with op := 0x40, fn := 2, d := d.val, a := a.val, b := b.num, m := rm.code + 128 * b.flag, x := b.val }
  | .ffmaFma c rm d a b x => some { c.fields with op := 0x41, d := d.val, a := a.val, b := b.val, m := rm.code, x := x.code }
  | .ffmaFms c rm d a b x => some { c.fields with op := 0x41, fn := 1, d := d.val, a := a.val, b := b.val, m := rm.code, x := x.code }
  | .ffmaFnma c rm d a b x => some { c.fields with op := 0x41, fn := 2, d := d.val, a := a.val, b := b.val, m := rm.code, x := x.code }
  | .ffmaFnms c rm d a b x => some { c.fields with op := 0x41, fn := 3, d := d.val, a := a.val, b := b.val, m := rm.code, x := x.code }
  | .fminmaxMin c ty d a b => some { c.fields with op := 0x42, d := d.val, a := a.val, b := b.num, ty := ty.code, m := 128 * b.flag, x := b.val }
  | .fminmaxMax c ty d a b => some { c.fields with op := 0x42, d := d.val, a := a.val, b := b.num, ty := ty.code, m := 1 + 128 * b.flag, x := b.val }
  | .fcmpEq c ty d a b => some { c.fields with op := 0x43, d := d.val, a := a.val, b := b.num, ty := ty.code, m := 128 * b.flag, x := b.val }
  | .fcmpNe c ty d a b => some { c.fields with op := 0x43, fn := 1, d := d.val, a := a.val, b := b.num, ty := ty.code, m := 128 * b.flag, x := b.val }
  | .fcmpLt c ty d a b => some { c.fields with op := 0x43, fn := 2, d := d.val, a := a.val, b := b.num, ty := ty.code, m := 128 * b.flag, x := b.val }
  | .fcmpLe c ty d a b => some { c.fields with op := 0x43, fn := 3, d := d.val, a := a.val, b := b.num, ty := ty.code, m := 128 * b.flag, x := b.val }
  | .fcmpGt c ty d a b => some { c.fields with op := 0x43, fn := 4, d := d.val, a := a.val, b := b.num, ty := ty.code, m := 128 * b.flag, x := b.val }
  | .fcmpGe c ty d a b => some { c.fields with op := 0x43, fn := 5, d := d.val, a := a.val, b := b.num, ty := ty.code, m := 128 * b.flag, x := b.val }
  | .fcmpUnord c ty d a b => some { c.fields with op := 0x43, fn := 6, d := d.val, a := a.val, b := b.num, ty := ty.code, m := 128 * b.flag, x := b.val }
  | .fcmpOrd c ty d a b => some { c.fields with op := 0x43, fn := 7, d := d.val, a := a.val, b := b.num, ty := ty.code, m := 128 * b.flag, x := b.val }
  | .fsignAbs c ty d a => some { c.fields with op := 0x44, d := d.val, a := a.val, ty := ty.code }
  | .fsignNeg c ty d a => some { c.fields with op := 0x44, fn := 1, d := d.val, a := a.val, ty := ty.code }
  | .fsignCopysign c ty d a b => some { c.fields with op := 0x44, fn := 2, d := d.val, a := a.val, b := b.val, ty := ty.code }
  | .darithDadd c rm d a b => some { c.fields with op := 0x45, d := d.val, a := a.val, b := b.val, m := rm.code }
  | .darithDsub c rm d a b => some { c.fields with op := 0x45, fn := 1, d := d.val, a := a.val, b := b.val, m := rm.code }
  | .darithDmul c rm d a b => some { c.fields with op := 0x45, fn := 2, d := d.val, a := a.val, b := b.val, m := rm.code }
  | .darithDfma c rm d a b x => some { c.fields with op := 0x45, fn := 3, d := d.val, a := a.val, b := b.val, m := rm.code, x := x.code }
  | .harith2Hadd2 c rm ty d a b => some { c.fields with op := 0x46, d := d.val, a := a.val, b := b.val, ty := ty.code, m := rm.code }
  | .harith2Hmul2 c rm ty d a b => some { c.fields with op := 0x46, fn := 1, d := d.val, a := a.val, b := b.val, ty := ty.code, m := rm.code }
  | .harith2Hfma2 c rm ty d a b x => some { c.fields with op := 0x46, fn := 2, d := d.val, a := a.val, b := b.val, ty := ty.code, m := rm.code, x := x.code }
  | .cvt c dst src ovf rm part d a => some { c.fields with op := 0x47, fn := dst.code, d := d.val, a := a.val, ty := part.toNat, m := 16 * src.code + 4 * ovf.toNat + rm.code }
  | .frnd c ty rm d a => some { c.fields with op := 0x4B, d := d.val, a := a.val, ty := ty.code, m := rm.code }
  | .fkey c ty d a => some { c.fields with op := 0x48, d := d.val, a := a.val, ty := ty.code }
  | .fkeyInv c ty d a => some { c.fields with op := 0x48, fn := 1, d := d.val, a := a.val, ty := ty.code }
  | .dotDot4i8 c d a b x => some { c.fields with op := 0x49, d := d.val, a := a.val, b := b.val, x := x.code }
  | .dotDot4e4m3 c rm d a b x => some { c.fields with op := 0x49, fn := 1, d := d.val, a := a.val, b := b.val, m := rm.code, x := x.code }
  | .dotDot8i4 c d a b x => some { c.fields with op := 0x49, fn := 2, d := d.val, a := a.val, b := b.val, x := x.code }
  | .sfuExp2 c d a => some { c.fields with op := 0x4A, d := d.val, a := a.val }
  | .sfuLog2 c d a => some { c.fields with op := 0x4A, fn := 1, d := d.val, a := a.val }
  | .sfuRcp c d a => some { c.fields with op := 0x4A, fn := 2, d := d.val, a := a.val }
  | .sfuRsq c d a => some { c.fields with op := 0x4A, fn := 3, d := d.val, a := a.val }
  | .sfuSqrt c d a => some { c.fields with op := 0x4A, fn := 4, d := d.val, a := a.val }
  | .sfuSin c d a => some { c.fields with op := 0x4A, fn := 5, d := d.val, a := a.val }
  | .sfuCos c d a => some { c.fields with op := 0x4A, fn := 6, d := d.val, a := a.val }
  | .sfuTanh c d a => some { c.fields with op := 0x4A, fn := 7, d := d.val, a := a.val }
  | .shflIdx c d a b lx => some { c.fields with op := 0x50, d := d.val, a := a.val, b := b.num, m := 128 * b.flag, x := 65536 * b.val + lx.code }
  | .shflUp c d a b lx => some { c.fields with op := 0x50, fn := 1, d := d.val, a := a.val, b := b.num, m := 128 * b.flag, x := 65536 * b.val + lx.code }
  | .shflDown c d a b lx => some { c.fields with op := 0x50, fn := 2, d := d.val, a := a.val, b := b.num, m := 128 * b.flag, x := 65536 * b.val + lx.code }
  | .shflXor c d a b lx => some { c.fields with op := 0x50, fn := 3, d := d.val, a := a.val, b := b.num, m := 128 * b.flag, x := 65536 * b.val + lx.code }
  | .voteAny c d a lx => some { c.fields with op := 0x51, d := d.val, a := a.val, x := lx.code }
  | .voteAll c d a lx => some { c.fields with op := 0x51, fn := 1, d := d.val, a := a.val, x := lx.code }
  | .voteBallot c d a lx => some { c.fields with op := 0x51, fn := 2, d := d.val, a := a.val, x := lx.code }
  | .voteUni c d a lx => some { c.fields with op := 0x51, fn := 3, d := d.val, a := a.val, x := lx.code }
  | .zipZip2 c d a => some { c.fields with op := 0x52, d := d.val, a := a.val }
  | .zipZip3 c d a => some { c.fields with op := 0x52, fn := 1, d := d.val, a := a.val }
  | .zipZip4 c d a => some { c.fields with op := 0x52, fn := 2, d := d.val, a := a.val }
  | .zipUnzip2 c d a => some { c.fields with op := 0x52, fn := 3, d := d.val, a := a.val }
  | .zipUnzip3 c d a => some { c.fields with op := 0x52, fn := 4, d := d.val, a := a.val }
  | .zipUnzip4 c d a => some { c.fields with op := 0x52, fn := 5, d := d.val, a := a.val }
  | .sample c d a u lx => some { c.fields with op := 0x53, d := d.val, a := a.val, b := (384 + u.val), x := lx.code }
  | .rngU32 c d => some { c.fields with op := 0x54, d := d.val }
  | .rngUnif c d => some { c.fields with op := 0x54, fn := 1, d := d.val }
  | .bandredIadd c d a lx => some { c.fields with op := 0x55, d := d.val, a := a.val, x := lx.code }
  | .bandredFadd c d a lx => some { c.fields with op := 0x55, fn := 1, d := d.val, a := a.val, x := lx.code }
  | .bandredMin c ty d a lx => some { c.fields with op := 0x55, fn := 2, d := d.val, a := a.val, ty := ty.code, x := lx.code }
  | .bandredMax c ty d a lx => some { c.fields with op := 0x55, fn := 3, d := d.val, a := a.val, ty := ty.code, x := lx.code }
  | .ld c w d m => some { c.fields with op := 0x80, d := d.val, a := (384 + m.base.val), b := m.off.val, m := m.code, x := 512 * w.code }
  | .st c w d m => some { c.fields with op := 0x81, d := d.val, a := (384 + m.base.val), b := m.off.val, m := m.code, x := 512 * w.code }
  | .lds c w d space order scope base => some { c.fields with op := 0x82, d := (384 + d.val), a := (384 + base.val), m := space.code + 4 * order.code + 16 * scope.code, x := 512 * w.code }
  | .atomAdd c wide uns d m x => some { c.fields with op := 0x84, d := d.val, a := (384 + m.base.val), b := m.off.val, ty := uns.toNat, m := m.code, x := 512 * (wideCode wide) + x.code }
  | .atomMin c wide uns d m x => some { c.fields with op := 0x84, fn := 1, d := d.val, a := (384 + m.base.val), b := m.off.val, ty := uns.toNat, m := m.code, x := 512 * (wideCode wide) + x.code }
  | .atomMax c wide uns d m x => some { c.fields with op := 0x84, fn := 2, d := d.val, a := (384 + m.base.val), b := m.off.val, ty := uns.toNat, m := m.code, x := 512 * (wideCode wide) + x.code }
  | .atomAnd c wide uns d m x => some { c.fields with op := 0x84, fn := 3, d := d.val, a := (384 + m.base.val), b := m.off.val, ty := uns.toNat, m := m.code, x := 512 * (wideCode wide) + x.code }
  | .atomOr c wide uns d m x => some { c.fields with op := 0x84, fn := 4, d := d.val, a := (384 + m.base.val), b := m.off.val, ty := uns.toNat, m := m.code, x := 512 * (wideCode wide) + x.code }
  | .atomXor c wide uns d m x => some { c.fields with op := 0x84, fn := 5, d := d.val, a := (384 + m.base.val), b := m.off.val, ty := uns.toNat, m := m.code, x := 512 * (wideCode wide) + x.code }
  | .atomSwap c wide uns d m x => some { c.fields with op := 0x84, fn := 6, d := d.val, a := (384 + m.base.val), b := m.off.val, ty := uns.toNat, m := m.code, x := 512 * (wideCode wide) + x.code }
  | .atomCas c wide uns d m x => some { c.fields with op := 0x84, fn := 7, d := d.val, a := (384 + m.base.val), b := m.off.val, ty := uns.toNat, m := m.code, x := 512 * (wideCode wide) + x.code }
  | .atomFadd c wide d m x => some { c.fields with op := 0x84, fn := 8, d := d.val, a := (384 + m.base.val), b := m.off.val, ty := 2, m := m.code, x := 512 * (wideCode wide) + x.code }
  | .red c op wide uns m x => some { c.fields with op := 0x85, a := (384 + m.base.val), b := m.off.val, ty := (redTy op uns), m := m.code, x := 4096 * op.code + 512 * (wideCode wide) + x.code }
  | .fence c mode scope => some { c.fields with op := 0x86, m := 4 * mode.code + 16 * scope.code }
  | .tagTagq c d a => some { c.fields with op := 0x88, d := d.val, a := a.val }
  | .tagTagset c d a b => some { c.fields with op := 0x88, fn := 1, d := d.val, a := a.val, b := b.val }
  | .tagTagclr c d a => some { c.fields with op := 0x88, fn := 2, d := d.val, a := a.val }
  | .hcopyCopy c ds ss dst src cnt bar => some { c.fields with op := 0x89, d := (384 + dst.val), a := (384 + src.val), b := (384 + cnt.val), m := ds.code + 4 * ss.code + 16 * bar.isSome.toNat, x := (barCode bar) }
  | .hcopyPlane c ds ss dst src cnt bar fmt stride => some { c.fields with op := 0x89, fn := 1, d := (384 + dst.val), a := (384 + src.val), b := (384 + cnt.val), m := ds.code + 4 * ss.code + 16 * bar.isSome.toNat, x := (barCode bar) + 2048 * fmt.code + 16384 * stride.toNat }
  | .hcopySplit c ds ss dst src cnt bar side slices stride => some { c.fields with op := 0x89, fn := 2, d := (384 + dst.val), a := (384 + src.val), b := (384 + cnt.val), m := ds.code + 4 * ss.code + 16 * bar.isSome.toNat, x := (barCode bar) + 2048 * side.toNat + 4096 * slices.toNat + 65536 * stride.toNat }
  | .hcopyMask c ss q src cnt bar => some { c.fields with op := 0x89, fn := 3, d := q.val, a := (384 + src.val), b := (384 + cnt.val), m := 4 * ss.code + 16 * bar.isSome.toNat, x := (barCode bar) }
  | .hcopyGather c ds ss dst src cnt bar size => some { c.fields with op := 0x89, fn := 4, d := (384 + dst.val), a := (384 + src.val), b := (384 + cnt.val), m := ds.code + 4 * ss.code + 16 * bar.isSome.toNat, x := (barCode bar) + 2048 * size.toNat }
  | .bseal c d => some { c.fields with op := 0x8A, d := (384 + d.val) }
  | .bwait c b => some { c.fields with op := 0x8A, fn := 1, b := b.num, m := 128 * b.flag, x := b.val }
  | .barInit c bar n => some { c.fields with op := 0x8B, a := (384 + bar.val), b := n.num, m := 128 * n.flag, x := n.val }
  | .barArrive c d bar => some { c.fields with op := 0x8B, fn := 1, d := (384 + d.val), a := (384 + bar.val) }
  | .barArrivex c d bar n => some { c.fields with op := 0x8B, fn := 2, d := (384 + d.val), a := (384 + bar.val), b := n.num, m := 128 * n.flag, x := n.val }
  | .barExpect c out bar n => some { c.fields with op := 0x8B, fn := 3, a := (384 + bar.val), b := n.num, m := out.toNat + 128 * n.flag, x := n.val }
  | .barWait c bar g => some { c.fields with op := 0x8B, fn := 4, a := (384 + bar.val), b := g.num, m := 128 * g.flag, x := g.val }
  | .barWaitout c bar => some { c.fields with op := 0x8B, fn := 5, a := (384 + bar.val) }
  | .barTest c d bar g => some { c.fields with op := 0x8B, fn := 6, d := d.val, a := (384 + bar.val), b := g.num, m := 128 * g.flag, x := g.val }
  | .mmp c d a b q m1 bf af planes => some { c.fields with op := 0x90, d := d.val, a := (384 + a.val), b := (384 + b.val), x := 16384 * (maskedCode q) + 1024 * m1.toNat + 128 * bf.code + 16 * af.code + planes.toNat }
  | .mms c d a b groups w slices => some { c.fields with op := 0x91, d := d.val, a := (384 + a.val), b := (384 + b.val), x := 256 * groups.toNat + 16 * w.toNat + slices.toNat }
  | .accZero c pair d => some { c.fields with op := 0x92, d := d.val, ty := pair.toNat }
  | .accLoad c pair d a => some { c.fields with op := 0x92, fn := 1, d := d.val, a := (384 + a.val), ty := pair.toNat }
  | .accOut c pair d a b q fmt ovf rm => some { c.fields with op := 0x92, fn := 2, d := d.val, a := (384 + a.val), b := (384 + b.val), ty := pair.toNat, m := 4 * ovf.toNat + rm.code, x := 16 * (maskedCode q) + fmt.toNat }
  | .accMove c pair d a => some { c.fields with op := 0x92, fn := 3, d := d.val, a := a.val, ty := pair.toNat }
  | .accSpill c pair d a => some { c.fields with op := 0x92, fn := 4, d := d.val, a := (384 + a.val), ty := pair.toNat }
  | .mqStat c d q => some { c.fields with op := 0x93, d := (384 + d.val), a := q.val }
  | .mqFlush c q => some { c.fields with op := 0x93, fn := 1, a := q.val }
  | .nredPush c a t => some { c.fields with op := 0x98, a := (384 + a.val), x := t.toNat }
  | .nredWait c a t bcast => some { c.fields with op := 0x98, fn := 1, a := (384 + a.val), m := bcast.toNat, x := t.toNat }
  | .snop => some { op := 0xC0 }
  | .shalt => some { op := 0xC0, fn := 1 }
  | .sbr cc a b off => some { op := 0xC1, a := a.val, b := b.val, m := cc.code, x := off.toNat }
  | .scall off => some { op := 0xC2, x := off.toNat }
  | .sret => some { op := 0xC3 }
  | .sjoin => some { op := 0xC4 }
  | .kalu op d a b => some { op := 0xC5, d := d.val, a := a.val, b := b.num, m := op.code + 128 * b.flag, x := b.val }
  | .kread cls d a wide => some { op := 0xC6, d := d.val, a := a.val, m := cls.toNat + 4 * wide.toNat }
  | .areaRead a b => some { op := 0xC7, a := a.val, b := b.val }
  | .areaWrite a b => some { op := 0xC7, fn := 1, a := a.val, b := b.val }
  | .bdecl d cls => some { op := 0xC8, d := d.val, x := cls.toNat }
  | .bdrop d => some { op := 0xC9, d := d.val }
  | .launch cls bd ba bb kd => some { op := 0xD0, d := (optBuf bd), a := (optBuf ba), b := (optBuf bb), m := cls.toNat + 4 * bd.isSome.toNat + 8 * ba.isSome.toNat + 16 * bb.isSome.toNat, x := kd.val }
  | .mmt cls acc masked d a b kd => some { op := 0xD1, d := d.val, a := a.val, b := b.val, m := cls.toNat + 4 * acc.toNat + 8 * masked.toNat, x := kd.val }
  | .smmt cls acc masked d a b kd => some { op := 0xD2, d := d.val, a := a.val, b := b.val, m := cls.toNat + 4 * acc.toNat + 8 * masked.toNat, x := kd.val }
  | .copyt cls acc d a kd => some { op := 0xD3, d := (optBuf d), a := (optBuf a), m := cls.toNat + 4 * acc.toNat + 8 * d.isSome.toNat + 16 * a.isSome.toNat, x := kd.val }
  | .redt cls a t => some { op := 0xD4, a := a.val, m := cls.toNat, x := t.toNat }
  | .maskgen cls d a kd => some { op := 0xD5, d := d.val, a := a.val, m := cls.toNat, x := kd.val }
  | .kvcompact cls d a b kd => some { op := 0xD6, d := d.val, a := a.val, b := b.val, m := cls.toNat, x := kd.val }
  | .sopen cls kd => some { op := 0xE0, m := cls.toNat, x := kd.val }
  | .srule cls img d a b kd => some { op := 0xE1, d := d.val, a := a.val, b := (optBuf b), m := cls.toNat + 8 * img.toNat + 4 * b.isSome.toNat, x := kd.val }
  | .saccept cls img d a b kd => some { op := 0xE2, d := d.val, a := a.val, b := b.val, m := cls.toNat + 8 * img.toNat, x := kd.val }
  | .skv cls a kd => some { op := 0xE3, a := a.val, m := cls.toNat, x := kd.val }
  | .spublish cls kd => some { op := 0xE4, m := cls.toNat, x := kd.val }
  | .sclose cls kd => some { op := 0xE5, m := cls.toNat, x := kd.val }
  | .scount cls d kd => some { op := 0xE6, d := d.val, m := cls.toNat, x := kd.val }
  | .qsend cls a off q => some { op := 0xE8, a := a.val, m := cls.toNat, x := 16 * off.toNat + q.toNat }
  | .qrecv cls d half q => some { op := 0xE9, d := d.val, m := cls.toNat, x := 16 * half.toNat + q.toNat }
  | .ssignal cls a b wide => some { op := 0xF0, a := a.val, b := b.val, m := cls.toNat + 4 * wide.toNat }
  | .swait cls cmp wide a kd => some { op := 0xF1, a := a.val, m := cls.toNat + 8 * cmp.code + 4 * wide.toNat, x := kd.val }
  | .smode b det => some { op := 0xF2, b := b.val, x := det.toNat }
  | _ => none

/-- OP 0x00. -/
def of00 (f : Fields) : Option Instr :=
  match f.fn with
  | 0 => some (.nop f.ctl)
  | 1 => some (.yield f.ctl)
  | _ => none

/-- OP 0x01. -/
def of01 (f : Fields) : Option Instr :=
  some (.bra f.ctl (BitVec.ofNat 32 f.x))

/-- OP 0x02. -/
def of02 (f : Fields) : Option Instr :=
  do
  let base ← sreg? f.a
  let off ← fin? 384 f.b
  some (.brx f.ctl base off)

/-- OP 0x03. -/
def of03 (f : Fields) : Option Instr :=
  match f.fn with
  | 0 => some (.callDirect f.ctl (BitVec.ofNat 32 f.x))
  | 1 => do
    let base ← sreg? f.a
    let off ← fin? 384 f.b
    some (.callIndirect f.ctl base off)
  | _ => none

/-- OP 0x04. -/
def of04 (f : Fields) : Option Instr :=
  some (.ret f.ctl)

/-- OP 0x05. -/
def of05 (f : Fields) : Option Instr :=
  match f.fn with
  | 0 => do
    let j ← fin? 8 f.d
    some (.jset f.ctl j)
  | 1 => do
    let j ← fin? 8 f.a
    some (.jarr f.ctl j)
  | 2 => do
    let j ← fin? 8 f.a
    some (.jwait f.ctl j)
  | 3 => do
    let d ← fin? 8 f.d
    let j ← fin? 8 f.a
    some (.jread f.ctl d j)
  | _ => none

/-- OP 0x06. -/
def of06 (f : Fields) : Option Instr :=
  some (.exit f.ctl)

/-- OP 0x07. -/
def of07 (f : Fields) : Option Instr :=
  match f.fn with
  | 0 => some (.trap f.ctl (BitVec.ofNat 16 (f.x % 65536)))
  | 1 => some (.brk f.ctl (BitVec.ofNat 16 (f.x % 65536)))
  | 2 => some (.tret f.ctl)
  | _ => none

/-- OP 0x08. -/
def of08 (f : Fields) : Option Instr :=
  match f.fn with
  | 0 => do
    let d ← fin? 8 f.d
    let a ← fin? 384 f.a
    let b ← VB.ofFields f.b (f.m / 128) f.x
    some (.icmpEq f.ctl d a b)
  | 1 => do
    let d ← fin? 8 f.d
    let a ← fin? 384 f.a
    let b ← VB.ofFields f.b (f.m / 128) f.x
    some (.icmpNe f.ctl d a b)
  | 2 => do
    let d ← fin? 8 f.d
    let a ← fin? 384 f.a
    let b ← VB.ofFields f.b (f.m / 128) f.x
    some (.icmpLt f.ctl d a b)
  | 3 => do
    let d ← fin? 8 f.d
    let a ← fin? 384 f.a
    let b ← VB.ofFields f.b (f.m / 128) f.x
    some (.icmpLe f.ctl d a b)
  | 4 => do
    let d ← fin? 8 f.d
    let a ← fin? 384 f.a
    let b ← VB.ofFields f.b (f.m / 128) f.x
    some (.icmpGt f.ctl d a b)
  | 5 => do
    let d ← fin? 8 f.d
    let a ← fin? 384 f.a
    let b ← VB.ofFields f.b (f.m / 128) f.x
    some (.icmpGe f.ctl d a b)
  | 6 => do
    let d ← fin? 8 f.d
    let a ← fin? 384 f.a
    let b ← VB.ofFields f.b (f.m / 128) f.x
    some (.icmpLtn f.ctl d a b)
  | 7 => do
    let d ← fin? 8 f.d
    let a ← fin? 384 f.a
    let b ← VB.ofFields f.b (f.m / 128) f.x
    some (.icmpLen f.ctl d a b)
  | 8 => do
    let d ← fin? 8 f.d
    let a ← fin? 384 f.a
    let b ← VB.ofFields f.b (f.m / 128) f.x
    some (.icmpGtn f.ctl d a b)
  | 9 => do
    let d ← fin? 8 f.d
    let a ← fin? 384 f.a
    let b ← VB.ofFields f.b (f.m / 128) f.x
    some (.icmpGen f.ctl d a b)
  | _ => none

/-- OP 0x09. -/
def of09 (f : Fields) : Option Instr :=
  match f.fn with
  | 0 => do
    let d ← fin? 8 f.d
    let a ← fin? 8 f.a
    let b ← fin? 8 f.b
    some (.plopAnd f.ctl d a b)
  | 1 => do
    let d ← fin? 8 f.d
    let a ← fin? 8 f.a
    let b ← fin? 8 f.b
    some (.plopOr f.ctl d a b)
  | 2 => do
    let d ← fin? 8 f.d
    let a ← fin? 8 f.a
    let b ← fin? 8 f.b
    some (.plopXor f.ctl d a b)
  | 3 => do
    let d ← fin? 8 f.d
    let a ← fin? 8 f.a
    let b ← fin? 8 f.b
    some (.plopAndn f.ctl d a b)
  | 4 => do
    let d ← fin? 8 f.d
    let a ← fin? 8 f.a
    some (.plopNot f.ctl d a)
  | 5 => do
    let d ← fin? 8 f.d
    let a ← fin? 8 f.a
    some (.plopMov f.ctl d a)
  | _ => none

/-- OP 0x0A. -/
def of0A (f : Fields) : Option Instr :=
  do
  let d ← fin? 384 f.d
  let a ← fin? 384 f.a
  let b ← fin? 384 f.b
  let p ← fin? 8 (f.x % 8)
  let inv ← bool? ((f.x / 8) % 2)
  some (.sel f.ctl d a b p inv)

/-- OP 0x0B. -/
def of0B (f : Fields) : Option Instr :=
  match f.fn with
  | 0 => do
    let d ← fin? 384 f.d
    let a ← fin? 384 f.a
    some (.movReg f.ctl d a)
  | 1 => do
    let d ← fin? 384 f.d
    some (.movImm f.ctl d (BitVec.ofNat 32 f.x))
  | 2 => do
    let d ← fin? 384 f.d
    let a ← sreg? f.a
    let hi ← bool? (f.m % 2)
    some (.movS2V f.ctl d a hi)
  | 3 => do
    let d ← sreg? f.d
    let a ← fin? 384 f.a
    let hi ← bool? (f.m % 2)
    some (.movV2S f.ctl d a hi)
  | _ => none

/-- OP 0x0C. -/
def of0C (f : Fields) : Option Instr :=
  match f.fn with
  | 0 => do
    let d ← VC.ofCode f.d
    let a ← Spec.ofCode f.a
    some (.sregRead f.ctl d a)
  | 1 => do
    let d ← Spec.ofCode f.d
    let a ← VC.ofCode f.a
    some (.sregWrite f.ctl d a)
  | _ => none

/-- OP 0x10. -/
def of10 (f : Fields) : Option Instr :=
  match f.fn with
  | 0 => do
    let d ← fin? 384 f.d
    let a ← fin? 384 f.a
    let b ← VB.ofFields f.b (f.m / 128) f.x
    some (.iaddAdd f.ctl d a b)
  | 1 => do
    let d ← fin? 384 f.d
    let a ← fin? 384 f.a
    let b ← VB.ofFields f.b (f.m / 128) f.x
    some (.iaddSub f.ctl d a b)
  | 2 => do
    let d ← fin? 384 f.d
    let a ← fin? 384 f.a
    let b ← VB.ofFields f.b (f.m / 128) f.x
    let uns ← bool? f.ty
    some (.iaddAddsat f.ctl d a b uns)
  | 3 => do
    let d ← fin? 384 f.d
    let a ← fin? 384 f.a
    let b ← VB.ofFields f.b (f.m / 128) f.x
    let uns ← bool? f.ty
    some (.iaddSubsat f.ctl d a b uns)
  | 4 => do
    let d ← fin? 384 f.d
    let a ← fin? 384 f.a
    some (.iaddNeg f.ctl d a)
  | _ => none

/-- OP 0x11. -/
def of11 (f : Fields) : Option Instr :=
  match f.fn with
  | 0 => do
    let d ← fin? 384 f.d
    let a ← fin? 384 f.a
    let b ← VB.ofFields f.b (f.m / 128) f.x
    some (.imulLo f.ctl d a b)
  | 1 => do
    let d ← fin? 384 f.d
    let a ← fin? 384 f.a
    let b ← VB.ofFields f.b (f.m / 128) f.x
    some (.imulHis f.ctl d a b)
  | 2 => do
    let d ← fin? 384 f.d
    let a ← fin? 384 f.a
    let b ← VB.ofFields f.b (f.m / 128) f.x
    some (.imulHin f.ctl d a b)
  | 3 => do
    let d ← fin? 384 f.d
    let a ← fin? 384 f.a
    let b ← fin? 384 f.b
    let x ← VC.ofCode (f.x % 512)
    some (.imulMad f.ctl d a b x)
  | _ => none

/-- OP 0x12. -/
def of12 (f : Fields) : Option Instr :=
  match f.fn with
  | 0 => do
    let d ← fin? 384 f.d
    let a ← fin? 384 f.a
    let b ← VB.ofFields f.b (f.m / 128) f.x
    some (.logicAnd f.ctl d a b)
  | 1 => do
    let d ← fin? 384 f.d
    let a ← fin? 384 f.a
    let b ← VB.ofFields f.b (f.m / 128) f.x
    some (.logicOr f.ctl d a b)
  | 2 => do
    let d ← fin? 384 f.d
    let a ← fin? 384 f.a
    let b ← VB.ofFields f.b (f.m / 128) f.x
    some (.logicXor f.ctl d a b)
  | 3 => do
    let d ← fin? 384 f.d
    let a ← fin? 384 f.a
    let b ← VB.ofFields f.b (f.m / 128) f.x
    some (.logicAndn f.ctl d a b)
  | 4 => do
    let d ← fin? 384 f.d
    let a ← fin? 384 f.a
    some (.logicNot f.ctl d a)
  | _ => none

/-- OP 0x13. -/
def of13 (f : Fields) : Option Instr :=
  match f.fn with
  | 0 => do
    let d ← fin? 384 f.d
    let a ← fin? 384 f.a
    let b ← VB.ofFields f.b (f.m / 128) f.x
    some (.shiftShl f.ctl d a b)
  | 1 => do
    let d ← fin? 384 f.d
    let a ← fin? 384 f.a
    let b ← VB.ofFields f.b (f.m / 128) f.x
    some (.shiftShr f.ctl d a b)
  | 2 => do
    let d ← fin? 384 f.d
    let a ← fin? 384 f.a
    let b ← VB.ofFields f.b (f.m / 128) f.x
    some (.shiftSar f.ctl d a b)
  | 3 => do
    let d ← fin? 384 f.d
    let a ← fin? 384 f.a
    let b ← VB.ofFields f.b (f.m / 128) f.x
    some (.shiftRol f.ctl d a b)
  | _ => none

/-- OP 0x14. -/
def of14 (f : Fields) : Option Instr :=
  match f.fn with
  | 0 => do
    let d ← fin? 384 f.d
    let a ← fin? 384 f.a
    let b ← VB.ofFields f.b (f.m / 128) f.x
    some (.bitfBfe f.ctl d a b)
  | 1 => do
    let d ← fin? 384 f.d
    let a ← fin? 384 f.a
    let b ← VB.ofFields f.b (f.m / 128) f.x
    some (.bitfBfen f.ctl d a b)
  | 2 => do
    let d ← fin? 384 f.d
    let a ← fin? 384 f.a
    let b ← fin? 384 f.b
    let x ← VC.ofCode (f.x % 512)
    some (.bitfBfi f.ctl d a b x)
  | _ => none

/-- OP 0x15. -/
def of15 (f : Fields) : Option Instr :=
  match f.fn with
  | 0 => do
    let d ← fin? 384 f.d
    let a ← fin? 384 f.a
    some (.bitcPopc f.ctl d a)
  | 1 => do
    let d ← fin? 384 f.d
    let a ← fin? 384 f.a
    some (.bitcClz f.ctl d a)
  | 2 => do
    let d ← fin? 384 f.d
    let a ← fin? 384 f.a
    some (.bitcCtz f.ctl d a)
  | 3 => do
    let d ← fin? 384 f.d
    let a ← fin? 384 f.a
    some (.bitcBrev f.ctl d a)
  | _ => none

/-- OP 0x16. -/
def of16 (f : Fields) : Option Instr :=
  match f.fn with
  | 0 => do
    let d ← fin? 384 f.d
    let a ← fin? 384 f.a
    let b ← VB.ofFields f.b (f.m / 128) f.x
    some (.iminmaxMin f.ctl d a b)
  | 1 => do
    let d ← fin? 384 f.d
    let a ← fin? 384 f.a
    let b ← VB.ofFields f.b (f.m / 128) f.x
    some (.iminmaxMax f.ctl d a b)
  | 2 => do
    let d ← fin? 384 f.d
    let a ← fin? 384 f.a
    let b ← VB.ofFields f.b (f.m / 128) f.x
    some (.iminmaxMinn f.ctl d a b)
  | 3 => do
    let d ← fin? 384 f.d
    let a ← fin? 384 f.a
    let b ← VB.ofFields f.b (f.m / 128) f.x
    some (.iminmaxMaxn f.ctl d a b)
  | _ => none

/-- OP 0x17. -/
def of17 (f : Fields) : Option Instr :=
  match f.fn with
  | 0 => do
    let d ← fin? 384 f.d
    let a ← fin? 384 f.a
    let b ← VB.ofFields f.b (f.m / 128) f.x
    some (.idivDivn f.ctl d a b)
  | 1 => do
    let d ← fin? 384 f.d
    let a ← fin? 384 f.a
    let b ← VB.ofFields f.b (f.m / 128) f.x
    some (.idivRemn f.ctl d a b)
  | 2 => do
    let d ← fin? 384 f.d
    let a ← fin? 384 f.a
    let b ← VB.ofFields f.b (f.m / 128) f.x
    some (.idivDivs f.ctl d a b)
  | 3 => do
    let d ← fin? 384 f.d
    let a ← fin? 384 f.a
    let b ← VB.ofFields f.b (f.m / 128) f.x
    some (.idivRems f.ctl d a b)
  | _ => none

/-- OP 0x18. -/
def of18 (f : Fields) : Option Instr :=
  do
  let d ← fin? 384 f.d
  let a ← fin? 384 f.a
  let b ← fin? 384 f.b
  some (.lea f.ctl d a b (BitVec.ofNat 5 (f.x % 32)))

/-- OP 0x20. -/
def of20 (f : Fields) : Option Instr :=
  match f.fn with
  | 0 => do
    let d ← sreg? f.d
    let a ← sreg? f.a
    let b ← SB.ofFields f.b (f.m / 128) f.x
    some (.saluAdd f.ctl d a b)
  | 1 => do
    let d ← sreg? f.d
    let a ← sreg? f.a
    let b ← SB.ofFields f.b (f.m / 128) f.x
    some (.saluSub f.ctl d a b)
  | 2 => do
    let d ← sreg? f.d
    let a ← sreg? f.a
    let b ← SB.ofFields f.b (f.m / 128) f.x
    some (.saluMul f.ctl d a b)
  | 3 => do
    let d ← sreg? f.d
    let a ← sreg? f.a
    let b ← SB.ofFields f.b (f.m / 128) f.x
    some (.saluAnd f.ctl d a b)
  | 4 => do
    let d ← sreg? f.d
    let a ← sreg? f.a
    let b ← SB.ofFields f.b (f.m / 128) f.x
    some (.saluOr f.ctl d a b)
  | 5 => do
    let d ← sreg? f.d
    let a ← sreg? f.a
    let b ← SB.ofFields f.b (f.m / 128) f.x
    some (.saluXor f.ctl d a b)
  | 6 => do
    let d ← sreg? f.d
    let a ← sreg? f.a
    let b ← SB.ofFields f.b (f.m / 128) f.x
    some (.saluShl f.ctl d a b)
  | 7 => do
    let d ← sreg? f.d
    let a ← sreg? f.a
    let b ← SB.ofFields f.b (f.m / 128) f.x
    some (.saluShr f.ctl d a b)
  | 8 => do
    let d ← sreg? f.d
    let a ← sreg? f.a
    let b ← SB.ofFields f.b (f.m / 128) f.x
    some (.saluSar f.ctl d a b)
  | 9 => do
    let d ← sreg? f.d
    let a ← sreg? f.a
    let b ← SB.ofFields f.b (f.m / 128) f.x
    let uns ← bool? f.ty
    some (.saluMin f.ctl d a b uns)
  | 10 => do
    let d ← sreg? f.d
    let a ← sreg? f.a
    let b ← SB.ofFields f.b (f.m / 128) f.x
    let uns ← bool? f.ty
    some (.saluMax f.ctl d a b uns)
  | _ => none

/-- OP 0x21. -/
def of21 (f : Fields) : Option Instr :=
  do
  let cc ← CC.ofCode (f.m % 16)
  let d ← fin? 8 f.d
  let a ← sreg? f.a
  let b ← SB.ofFields f.b (f.m / 128) f.x
  some (.scmp f.ctl cc d a b)

/-- OP 0x22. -/
def of22 (f : Fields) : Option Instr :=
  do
  let d ← sreg? f.d
  let a ← sreg? f.a
  let b ← SB.ofFields f.b (f.m / 128) f.x
  some (.addr f.ctl d a b)

/-- OP 0x23. -/
def of23 (f : Fields) : Option Instr :=
  match f.fn with
  | 0 => do
    let d ← sreg? f.d
    some (.smoviLo f.ctl d (BitVec.ofNat 32 f.x))
  | 1 => do
    let d ← sreg? f.d
    some (.smoviHi f.ctl d (BitVec.ofNat 32 f.x))
  | _ => none

/-- OP 0x40. -/
def of40 (f : Fields) : Option Instr :=
  match f.fn with
  | 0 => do
    let rm ← RM.ofCode (f.m % 4)
    let d ← fin? 384 f.d
    let a ← fin? 384 f.a
    let b ← VB.ofFields f.b (f.m / 128) f.x
    some (.farithAdd f.ctl rm d a b)
  | 1 => do
    let rm ← RM.ofCode (f.m % 4)
    let d ← fin? 384 f.d
    let a ← fin? 384 f.a
    let b ← VB.ofFields f.b (f.m / 128) f.x
    some (.farithSub f.ctl rm d a b)
  | 2 => do
    let rm ← RM.ofCode (f.m % 4)
    let d ← fin? 384 f.d
    let a ← fin? 384 f.a
    let b ← VB.ofFields f.b (f.m / 128) f.x
    some (.farithMul f.ctl rm d a b)
  | _ => none

/-- OP 0x41. -/
def of41 (f : Fields) : Option Instr :=
  match f.fn with
  | 0 => do
    let rm ← RM.ofCode (f.m % 4)
    let d ← fin? 384 f.d
    let a ← fin? 384 f.a
    let b ← fin? 384 f.b
    let x ← VC.ofCode (f.x % 512)
    some (.ffmaFma f.ctl rm d a b x)
  | 1 => do
    let rm ← RM.ofCode (f.m % 4)
    let d ← fin? 384 f.d
    let a ← fin? 384 f.a
    let b ← fin? 384 f.b
    let x ← VC.ofCode (f.x % 512)
    some (.ffmaFms f.ctl rm d a b x)
  | 2 => do
    let rm ← RM.ofCode (f.m % 4)
    let d ← fin? 384 f.d
    let a ← fin? 384 f.a
    let b ← fin? 384 f.b
    let x ← VC.ofCode (f.x % 512)
    some (.ffmaFnma f.ctl rm d a b x)
  | 3 => do
    let rm ← RM.ofCode (f.m % 4)
    let d ← fin? 384 f.d
    let a ← fin? 384 f.a
    let b ← fin? 384 f.b
    let x ← VC.ofCode (f.x % 512)
    some (.ffmaFnms f.ctl rm d a b x)
  | _ => none

/-- OP 0x42. -/
def of42 (f : Fields) : Option Instr :=
  if f.m % 2 = 0 then do
    let ty ← FTy.ofCode f.ty
    let d ← fin? 384 f.d
    let a ← fin? 384 f.a
    let b ← VB.ofFields f.b (f.m / 128) f.x
    some (.fminmaxMin f.ctl ty d a b)
  else do
    let ty ← FTy.ofCode f.ty
    let d ← fin? 384 f.d
    let a ← fin? 384 f.a
    let b ← VB.ofFields f.b (f.m / 128) f.x
    some (.fminmaxMax f.ctl ty d a b)

/-- OP 0x43. -/
def of43 (f : Fields) : Option Instr :=
  match f.fn with
  | 0 => do
    let ty ← FTy.ofCode f.ty
    let d ← fin? 8 f.d
    let a ← fin? 384 f.a
    let b ← VB.ofFields f.b (f.m / 128) f.x
    some (.fcmpEq f.ctl ty d a b)
  | 1 => do
    let ty ← FTy.ofCode f.ty
    let d ← fin? 8 f.d
    let a ← fin? 384 f.a
    let b ← VB.ofFields f.b (f.m / 128) f.x
    some (.fcmpNe f.ctl ty d a b)
  | 2 => do
    let ty ← FTy.ofCode f.ty
    let d ← fin? 8 f.d
    let a ← fin? 384 f.a
    let b ← VB.ofFields f.b (f.m / 128) f.x
    some (.fcmpLt f.ctl ty d a b)
  | 3 => do
    let ty ← FTy.ofCode f.ty
    let d ← fin? 8 f.d
    let a ← fin? 384 f.a
    let b ← VB.ofFields f.b (f.m / 128) f.x
    some (.fcmpLe f.ctl ty d a b)
  | 4 => do
    let ty ← FTy.ofCode f.ty
    let d ← fin? 8 f.d
    let a ← fin? 384 f.a
    let b ← VB.ofFields f.b (f.m / 128) f.x
    some (.fcmpGt f.ctl ty d a b)
  | 5 => do
    let ty ← FTy.ofCode f.ty
    let d ← fin? 8 f.d
    let a ← fin? 384 f.a
    let b ← VB.ofFields f.b (f.m / 128) f.x
    some (.fcmpGe f.ctl ty d a b)
  | 6 => do
    let ty ← FTy.ofCode f.ty
    let d ← fin? 8 f.d
    let a ← fin? 384 f.a
    let b ← VB.ofFields f.b (f.m / 128) f.x
    some (.fcmpUnord f.ctl ty d a b)
  | 7 => do
    let ty ← FTy.ofCode f.ty
    let d ← fin? 8 f.d
    let a ← fin? 384 f.a
    let b ← VB.ofFields f.b (f.m / 128) f.x
    some (.fcmpOrd f.ctl ty d a b)
  | _ => none

/-- OP 0x44. -/
def of44 (f : Fields) : Option Instr :=
  match f.fn with
  | 0 => do
    let ty ← FTy.ofCode f.ty
    let d ← fin? 384 f.d
    let a ← fin? 384 f.a
    some (.fsignAbs f.ctl ty d a)
  | 1 => do
    let ty ← FTy.ofCode f.ty
    let d ← fin? 384 f.d
    let a ← fin? 384 f.a
    some (.fsignNeg f.ctl ty d a)
  | 2 => do
    let ty ← FTy.ofCode f.ty
    let d ← fin? 384 f.d
    let a ← fin? 384 f.a
    let b ← fin? 384 f.b
    some (.fsignCopysign f.ctl ty d a b)
  | _ => none

/-- OP 0x45. -/
def of45 (f : Fields) : Option Instr :=
  match f.fn with
  | 0 => do
    let rm ← RM.ofCode (f.m % 4)
    let d ← fin? 384 f.d
    let a ← fin? 384 f.a
    let b ← fin? 384 f.b
    some (.darithDadd f.ctl rm d a b)
  | 1 => do
    let rm ← RM.ofCode (f.m % 4)
    let d ← fin? 384 f.d
    let a ← fin? 384 f.a
    let b ← fin? 384 f.b
    some (.darithDsub f.ctl rm d a b)
  | 2 => do
    let rm ← RM.ofCode (f.m % 4)
    let d ← fin? 384 f.d
    let a ← fin? 384 f.a
    let b ← fin? 384 f.b
    some (.darithDmul f.ctl rm d a b)
  | 3 => do
    let rm ← RM.ofCode (f.m % 4)
    let d ← fin? 384 f.d
    let a ← fin? 384 f.a
    let b ← fin? 384 f.b
    let x ← VC.ofCode (f.x % 512)
    some (.darithDfma f.ctl rm d a b x)
  | _ => none

/-- OP 0x46. -/
def of46 (f : Fields) : Option Instr :=
  match f.fn with
  | 0 => do
    let rm ← RM.ofCode (f.m % 4)
    let ty ← HTy.ofCode f.ty
    let d ← fin? 384 f.d
    let a ← fin? 384 f.a
    let b ← fin? 384 f.b
    some (.harith2Hadd2 f.ctl rm ty d a b)
  | 1 => do
    let rm ← RM.ofCode (f.m % 4)
    let ty ← HTy.ofCode f.ty
    let d ← fin? 384 f.d
    let a ← fin? 384 f.a
    let b ← fin? 384 f.b
    some (.harith2Hmul2 f.ctl rm ty d a b)
  | 2 => do
    let rm ← RM.ofCode (f.m % 4)
    let ty ← HTy.ofCode f.ty
    let d ← fin? 384 f.d
    let a ← fin? 384 f.a
    let b ← fin? 384 f.b
    let x ← VC.ofCode (f.x % 512)
    some (.harith2Hfma2 f.ctl rm ty d a b x)
  | _ => none

/-- OP 0x47. -/
def of47 (f : Fields) : Option Instr :=
  do
  let dst ← Fmt.ofCode f.fn
  let src ← Fmt.ofCode (f.m / 16)
  let ovf ← bool? ((f.m / 4) % 2)
  let rm ← RM.ofCode (f.m % 4)
  let d ← fin? 384 f.d
  let a ← fin? 384 f.a
  some (.cvt f.ctl dst src ovf rm (BitVec.ofNat 2 f.ty) d a)

/-- OP 0x48. -/
def of48 (f : Fields) : Option Instr :=
  match f.fn with
  | 0 => do
    let ty ← KTy.ofCode f.ty
    let d ← fin? 384 f.d
    let a ← fin? 384 f.a
    some (.fkey f.ctl ty d a)
  | 1 => do
    let ty ← KTy.ofCode f.ty
    let d ← fin? 384 f.d
    let a ← fin? 384 f.a
    some (.fkeyInv f.ctl ty d a)
  | _ => none

/-- OP 0x49. -/
def of49 (f : Fields) : Option Instr :=
  match f.fn with
  | 0 => do
    let d ← fin? 384 f.d
    let a ← fin? 384 f.a
    let b ← fin? 384 f.b
    let x ← VC.ofCode (f.x % 512)
    some (.dotDot4i8 f.ctl d a b x)
  | 1 => do
    let rm ← RM.ofCode (f.m % 4)
    let d ← fin? 384 f.d
    let a ← fin? 384 f.a
    let b ← fin? 384 f.b
    let x ← VC.ofCode (f.x % 512)
    some (.dotDot4e4m3 f.ctl rm d a b x)
  | 2 => do
    let d ← fin? 384 f.d
    let a ← fin? 384 f.a
    let b ← fin? 384 f.b
    let x ← VC.ofCode (f.x % 512)
    some (.dotDot8i4 f.ctl d a b x)
  | _ => none

/-- OP 0x4A. -/
def of4A (f : Fields) : Option Instr :=
  match f.fn with
  | 0 => do
    let d ← fin? 384 f.d
    let a ← fin? 384 f.a
    some (.sfuExp2 f.ctl d a)
  | 1 => do
    let d ← fin? 384 f.d
    let a ← fin? 384 f.a
    some (.sfuLog2 f.ctl d a)
  | 2 => do
    let d ← fin? 384 f.d
    let a ← fin? 384 f.a
    some (.sfuRcp f.ctl d a)
  | 3 => do
    let d ← fin? 384 f.d
    let a ← fin? 384 f.a
    some (.sfuRsq f.ctl d a)
  | 4 => do
    let d ← fin? 384 f.d
    let a ← fin? 384 f.a
    some (.sfuSqrt f.ctl d a)
  | 5 => do
    let d ← fin? 384 f.d
    let a ← fin? 384 f.a
    some (.sfuSin f.ctl d a)
  | 6 => do
    let d ← fin? 384 f.d
    let a ← fin? 384 f.a
    some (.sfuCos f.ctl d a)
  | 7 => do
    let d ← fin? 384 f.d
    let a ← fin? 384 f.a
    some (.sfuTanh f.ctl d a)
  | _ => none

/-- OP 0x4B. -/
def of4B (f : Fields) : Option Instr :=
  do
  let ty ← FTy.ofCode f.ty
  let rm ← RM.ofCode (f.m % 4)
  let d ← fin? 384 f.d
  let a ← fin? 384 f.a
  some (.frnd f.ctl ty rm d a)

/-- OP 0x50. -/
def of50 (f : Fields) : Option Instr :=
  match f.fn with
  | 0 => do
    let d ← fin? 384 f.d
    let a ← fin? 384 f.a
    let b ← LB.ofFields f.b (f.m / 128) (f.x / 65536 % 32)
    let lx ← LX.ofCode f.x
    some (.shflIdx f.ctl d a b lx)
  | 1 => do
    let d ← fin? 384 f.d
    let a ← fin? 384 f.a
    let b ← LB.ofFields f.b (f.m / 128) (f.x / 65536 % 32)
    let lx ← LX.ofCode f.x
    some (.shflUp f.ctl d a b lx)
  | 2 => do
    let d ← fin? 384 f.d
    let a ← fin? 384 f.a
    let b ← LB.ofFields f.b (f.m / 128) (f.x / 65536 % 32)
    let lx ← LX.ofCode f.x
    some (.shflDown f.ctl d a b lx)
  | 3 => do
    let d ← fin? 384 f.d
    let a ← fin? 384 f.a
    let b ← LB.ofFields f.b (f.m / 128) (f.x / 65536 % 32)
    let lx ← LX.ofCode f.x
    some (.shflXor f.ctl d a b lx)
  | _ => none

/-- OP 0x51. -/
def of51 (f : Fields) : Option Instr :=
  match f.fn with
  | 0 => do
    let d ← fin? 8 f.d
    let a ← fin? 8 f.a
    let lx ← LX.ofCode f.x
    some (.voteAny f.ctl d a lx)
  | 1 => do
    let d ← fin? 8 f.d
    let a ← fin? 8 f.a
    let lx ← LX.ofCode f.x
    some (.voteAll f.ctl d a lx)
  | 2 => do
    let d ← fin? 384 f.d
    let a ← fin? 8 f.a
    let lx ← LX.ofCode f.x
    some (.voteBallot f.ctl d a lx)
  | 3 => do
    let d ← fin? 8 f.d
    let a ← fin? 384 f.a
    let lx ← LX.ofCode f.x
    some (.voteUni f.ctl d a lx)
  | _ => none

/-- OP 0x52. -/
def of52 (f : Fields) : Option Instr :=
  match f.fn with
  | 0 => do
    let d ← fin? 384 f.d
    let a ← fin? 384 f.a
    some (.zipZip2 f.ctl d a)
  | 1 => do
    let d ← fin? 384 f.d
    let a ← fin? 384 f.a
    some (.zipZip3 f.ctl d a)
  | 2 => do
    let d ← fin? 384 f.d
    let a ← fin? 384 f.a
    some (.zipZip4 f.ctl d a)
  | 3 => do
    let d ← fin? 384 f.d
    let a ← fin? 384 f.a
    some (.zipUnzip2 f.ctl d a)
  | 4 => do
    let d ← fin? 384 f.d
    let a ← fin? 384 f.a
    some (.zipUnzip3 f.ctl d a)
  | 5 => do
    let d ← fin? 384 f.d
    let a ← fin? 384 f.a
    some (.zipUnzip4 f.ctl d a)
  | _ => none

/-- OP 0x53. -/
def of53 (f : Fields) : Option Instr :=
  do
  let d ← fin? 384 f.d
  let a ← fin? 384 f.a
  let u ← sreg? f.b
  let lx ← LX.ofCode f.x
  some (.sample f.ctl d a u lx)

/-- OP 0x54. -/
def of54 (f : Fields) : Option Instr :=
  match f.fn with
  | 0 => do
    let d ← fin? 384 f.d
    some (.rngU32 f.ctl d)
  | 1 => do
    let d ← fin? 384 f.d
    some (.rngUnif f.ctl d)
  | _ => none

/-- OP 0x55. -/
def of55 (f : Fields) : Option Instr :=
  match f.fn with
  | 0 => do
    let d ← fin? 384 f.d
    let a ← fin? 384 f.a
    let lx ← LX.ofCode f.x
    some (.bandredIadd f.ctl d a lx)
  | 1 => do
    let d ← fin? 384 f.d
    let a ← fin? 384 f.a
    let lx ← LX.ofCode f.x
    some (.bandredFadd f.ctl d a lx)
  | 2 => do
    let ty ← BTy.ofCode f.ty
    let d ← fin? 384 f.d
    let a ← fin? 384 f.a
    let lx ← LX.ofCode f.x
    some (.bandredMin f.ctl ty d a lx)
  | 3 => do
    let ty ← BTy.ofCode f.ty
    let d ← fin? 384 f.d
    let a ← fin? 384 f.a
    let lx ← LX.ofCode f.x
    some (.bandredMax f.ctl ty d a lx)
  | _ => none

/-- OP 0x80. -/
def of80 (f : Fields) : Option Instr :=
  do
  let w ← Width.ofCode ((f.x / 512) % 8)
  let d ← fin? 384 f.d
  let m ← MemOp.ofFields f.a f.b f.m
  some (.ld f.ctl w d m)

/-- OP 0x81. -/
def of81 (f : Fields) : Option Instr :=
  do
  let w ← Width.ofCode ((f.x / 512) % 8)
  let d ← fin? 384 f.d
  let m ← MemOp.ofFields f.a f.b f.m
  some (.st f.ctl w d m)

/-- OP 0x82. -/
def of82 (f : Fields) : Option Instr :=
  do
  let w ← Width.ofCode ((f.x / 512) % 8)
  let d ← sreg? f.d
  let space ← Space.ofCode (f.m % 4)
  let order ← Order.ofCode ((f.m / 4) % 4)
  let scope ← Scope.ofCode ((f.m / 16) % 8)
  let base ← sreg? f.a
  some (.lds f.ctl w d space order scope base)

/-- OP 0x84. -/
def of84 (f : Fields) : Option Instr :=
  match f.fn with
  | 0 => do
    let wide ← wide? ((f.x / 512) % 8)
    let uns ← bool? f.ty
    let d ← fin? 384 f.d
    let m ← MemOp.ofFields f.a f.b f.m
    let x ← VC.ofCode (f.x % 512)
    some (.atomAdd f.ctl wide uns d m x)
  | 1 => do
    let wide ← wide? ((f.x / 512) % 8)
    let uns ← bool? f.ty
    let d ← fin? 384 f.d
    let m ← MemOp.ofFields f.a f.b f.m
    let x ← VC.ofCode (f.x % 512)
    some (.atomMin f.ctl wide uns d m x)
  | 2 => do
    let wide ← wide? ((f.x / 512) % 8)
    let uns ← bool? f.ty
    let d ← fin? 384 f.d
    let m ← MemOp.ofFields f.a f.b f.m
    let x ← VC.ofCode (f.x % 512)
    some (.atomMax f.ctl wide uns d m x)
  | 3 => do
    let wide ← wide? ((f.x / 512) % 8)
    let uns ← bool? f.ty
    let d ← fin? 384 f.d
    let m ← MemOp.ofFields f.a f.b f.m
    let x ← VC.ofCode (f.x % 512)
    some (.atomAnd f.ctl wide uns d m x)
  | 4 => do
    let wide ← wide? ((f.x / 512) % 8)
    let uns ← bool? f.ty
    let d ← fin? 384 f.d
    let m ← MemOp.ofFields f.a f.b f.m
    let x ← VC.ofCode (f.x % 512)
    some (.atomOr f.ctl wide uns d m x)
  | 5 => do
    let wide ← wide? ((f.x / 512) % 8)
    let uns ← bool? f.ty
    let d ← fin? 384 f.d
    let m ← MemOp.ofFields f.a f.b f.m
    let x ← VC.ofCode (f.x % 512)
    some (.atomXor f.ctl wide uns d m x)
  | 6 => do
    let wide ← wide? ((f.x / 512) % 8)
    let uns ← bool? f.ty
    let d ← fin? 384 f.d
    let m ← MemOp.ofFields f.a f.b f.m
    let x ← VC.ofCode (f.x % 512)
    some (.atomSwap f.ctl wide uns d m x)
  | 7 => do
    let wide ← wide? ((f.x / 512) % 8)
    let uns ← bool? f.ty
    let d ← fin? 384 f.d
    let m ← MemOp.ofFields f.a f.b f.m
    let x ← VC.ofCode (f.x % 512)
    some (.atomCas f.ctl wide uns d m x)
  | 8 => do
    let wide ← wide? ((f.x / 512) % 8)
    let d ← fin? 384 f.d
    let m ← MemOp.ofFields f.a f.b f.m
    let x ← VC.ofCode (f.x % 512)
    some (.atomFadd f.ctl wide d m x)
  | _ => none

/-- OP 0x85. -/
def of85 (f : Fields) : Option Instr :=
  do
  let op ← RedOp.ofCode ((f.x / 4096) % 16)
  let wide ← wide? ((f.x / 512) % 8)
  let uns ← redUns? f.ty
  let m ← MemOp.ofFields f.a f.b f.m
  let x ← VC.ofCode (f.x % 512)
  some (.red f.ctl op wide uns m x)

/-- OP 0x86. -/
def of86 (f : Fields) : Option Instr :=
  do
  let mode ← FenceMode.ofCode ((f.m / 4) % 4)
  let scope ← Scope.ofCode ((f.m / 16) % 8)
  some (.fence f.ctl mode scope)

/-- OP 0x88. -/
def of88 (f : Fields) : Option Instr :=
  match f.fn with
  | 0 => do
    let d ← fin? 384 f.d
    let a ← fin? 384 f.a
    some (.tagTagq f.ctl d a)
  | 1 => do
    let d ← fin? 384 f.d
    let a ← fin? 384 f.a
    let b ← fin? 384 f.b
    some (.tagTagset f.ctl d a b)
  | 2 => do
    let d ← fin? 384 f.d
    let a ← fin? 384 f.a
    some (.tagTagclr f.ctl d a)
  | _ => none

/-- OP 0x89. -/
def of89 (f : Fields) : Option Instr :=
  match f.fn with
  | 0 => do
    let ds ← Space.ofCode (f.m % 4)
    let ss ← Space.ofCode ((f.m / 4) % 4)
    let dst ← sreg? f.d
    let src ← sreg? f.a
    let cnt ← sreg? f.b
    let bar ← bar? (f.m / 16 % 2) (f.x % 2048)
    some (.hcopyCopy f.ctl ds ss dst src cnt bar)
  | 1 => do
    let ds ← Space.ofCode (f.m % 4)
    let ss ← Space.ofCode ((f.m / 4) % 4)
    let dst ← sreg? f.d
    let src ← sreg? f.a
    let cnt ← sreg? f.b
    let bar ← bar? (f.m / 16 % 2) (f.x % 2048)
    let fmt ← AFmt.ofCode ((f.x / 2048) % 8)
    some (.hcopyPlane f.ctl ds ss dst src cnt bar fmt (BitVec.ofNat 18 (f.x / 16384)))
  | 2 => do
    let ds ← Space.ofCode (f.m % 4)
    let ss ← Space.ofCode ((f.m / 4) % 4)
    let dst ← sreg? f.d
    let src ← sreg? f.a
    let cnt ← sreg? f.b
    let bar ← bar? (f.m / 16 % 2) (f.x % 2048)
    let side ← bool? ((f.x / 2048) % 2)
    some (.hcopySplit f.ctl ds ss dst src cnt bar side (BitVec.ofNat 4 ((f.x / 4096) % 16)) (BitVec.ofNat 16 (f.x / 65536)))
  | 3 => do
    let ss ← Space.ofCode ((f.m / 4) % 4)
    let q ← fin? 8 f.d
    let src ← sreg? f.a
    let cnt ← sreg? f.b
    let bar ← bar? (f.m / 16 % 2) (f.x % 2048)
    some (.hcopyMask f.ctl ss q src cnt bar)
  | 4 => do
    let ds ← Space.ofCode (f.m % 4)
    let ss ← Space.ofCode ((f.m / 4) % 4)
    let dst ← sreg? f.d
    let src ← sreg? f.a
    let cnt ← sreg? f.b
    let bar ← bar? (f.m / 16 % 2) (f.x % 2048)
    some (.hcopyGather f.ctl ds ss dst src cnt bar (BitVec.ofNat 2 ((f.x / 2048) % 4)))
  | _ => none

/-- OP 0x8A. -/
def of8A (f : Fields) : Option Instr :=
  match f.fn with
  | 0 => do
    let d ← sreg? f.d
    some (.bseal f.ctl d)
  | 1 => do
    let b ← SB.ofFields f.b (f.m / 128) f.x
    some (.bwait f.ctl b)
  | _ => none

/-- OP 0x8B. -/
def of8B (f : Fields) : Option Instr :=
  match f.fn with
  | 0 => do
    let bar ← sreg? f.a
    let n ← SB.ofFields f.b (f.m / 128) f.x
    some (.barInit f.ctl bar n)
  | 1 => do
    let d ← sreg? f.d
    let bar ← sreg? f.a
    some (.barArrive f.ctl d bar)
  | 2 => do
    let d ← sreg? f.d
    let bar ← sreg? f.a
    let n ← SB.ofFields f.b (f.m / 128) f.x
    some (.barArrivex f.ctl d bar n)
  | 3 => do
    let out ← bool? (f.m % 2)
    let bar ← sreg? f.a
    let n ← SB.ofFields f.b (f.m / 128) f.x
    some (.barExpect f.ctl out bar n)
  | 4 => do
    let bar ← sreg? f.a
    let g ← SB.ofFields f.b (f.m / 128) f.x
    some (.barWait f.ctl bar g)
  | 5 => do
    let bar ← sreg? f.a
    some (.barWaitout f.ctl bar)
  | 6 => do
    let d ← fin? 8 f.d
    let bar ← sreg? f.a
    let g ← SB.ofFields f.b (f.m / 128) f.x
    some (.barTest f.ctl d bar g)
  | _ => none

/-- OP 0x90. -/
def of90 (f : Fields) : Option Instr :=
  do
  let d ← fin? 16 f.d
  let a ← sreg? f.a
  let b ← sreg? f.b
  let q ← masked? ((f.x / 16384) % 16)
  let bf ← BFmt.ofCode ((f.x / 128) % 8)
  let af ← AFmt.ofCode ((f.x / 16) % 8)
  some (.mmp f.ctl d a b q (BitVec.ofNat 4 ((f.x / 1024) % 16)) bf af (BitVec.ofNat 4 (f.x % 16)))

/-- OP 0x91. -/
def of91 (f : Fields) : Option Instr :=
  do
  let d ← fin? 16 f.d
  let a ← sreg? f.a
  let b ← sreg? f.b
  some (.mms f.ctl d a b (BitVec.ofNat 16 ((f.x / 256) % 65536)) (BitVec.ofNat 4 ((f.x / 16) % 16)) (BitVec.ofNat 4 (f.x % 16)))

/-- OP 0x92. -/
def of92 (f : Fields) : Option Instr :=
  match f.fn with
  | 0 => do
    let pair ← bool? f.ty
    let d ← fin? 16 f.d
    some (.accZero f.ctl pair d)
  | 1 => do
    let pair ← bool? f.ty
    let d ← fin? 16 f.d
    let a ← sreg? f.a
    some (.accLoad f.ctl pair d a)
  | 2 => do
    let pair ← bool? f.ty
    let d ← fin? 16 f.d
    let a ← sreg? f.a
    let b ← sreg? f.b
    let q ← masked? ((f.x / 16) % 16)
    let ovf ← bool? ((f.m / 4) % 2)
    let rm ← RM.ofCode (f.m % 4)
    some (.accOut f.ctl pair d a b q (BitVec.ofNat 4 (f.x % 16)) ovf rm)
  | 3 => do
    let pair ← bool? f.ty
    let d ← fin? 16 f.d
    let a ← fin? 16 f.a
    some (.accMove f.ctl pair d a)
  | 4 => do
    let pair ← bool? f.ty
    let d ← fin? 16 f.d
    let a ← sreg? f.a
    some (.accSpill f.ctl pair d a)
  | _ => none

/-- OP 0x93. -/
def of93 (f : Fields) : Option Instr :=
  match f.fn with
  | 0 => do
    let d ← sreg? f.d
    let q ← fin? 8 f.a
    some (.mqStat f.ctl d q)
  | 1 => do
    let q ← fin? 8 f.a
    some (.mqFlush f.ctl q)
  | _ => none

/-- OP 0x98. -/
def of98 (f : Fields) : Option Instr :=
  match f.fn with
  | 0 => do
    let a ← sreg? f.a
    some (.nredPush f.ctl a (BitVec.ofNat 4 (f.x % 16)))
  | 1 => do
    let a ← sreg? f.a
    let bcast ← bool? (f.m % 2)
    some (.nredWait f.ctl a (BitVec.ofNat 4 (f.x % 16)) bcast)
  | _ => none

/-- OP 0xC0. -/
def ofC0 (f : Fields) : Option Instr :=
  match f.fn with
  | 0 => some .snop
  | 1 => some .shalt
  | _ => none

/-- OP 0xC1. -/
def ofC1 (f : Fields) : Option Instr :=
  do
  let cc ← CC.ofCode (f.m % 16)
  let a ← fin? 32 f.a
  let b ← fin? 32 f.b
  some (.sbr cc a b (BitVec.ofNat 32 f.x))

/-- OP 0xC2. -/
def ofC2 (f : Fields) : Option Instr :=
  some (.scall (BitVec.ofNat 32 f.x))

/-- OP 0xC3. -/
def ofC3 (f : Fields) : Option Instr :=
  some .sret

/-- OP 0xC4. -/
def ofC4 (f : Fields) : Option Instr :=
  some .sjoin

/-- OP 0xC5. -/
def ofC5 (f : Fields) : Option Instr :=
  do
  let op ← AluOp.ofCode (f.m % 16)
  let d ← fin? 32 f.d
  let a ← fin? 32 f.a
  let b ← KB.ofFields f.b (f.m / 128) f.x
  some (.kalu op d a b)

/-- OP 0xC6. -/
def ofC6 (f : Fields) : Option Instr :=
  do
  let d ← fin? 32 f.d
  let a ← fin? 32 f.a
  let wide ← bool? ((f.m / 4) % 2)
  some (.kread (BitVec.ofNat 2 (f.m % 4)) d a wide)

/-- OP 0xC7. -/
def ofC7 (f : Fields) : Option Instr :=
  match f.fn with
  | 0 => do
    let a ← fin? 32 f.a
    let b ← fin? 32 f.b
    some (.areaRead a b)
  | 1 => do
    let a ← fin? 32 f.a
    let b ← fin? 32 f.b
    some (.areaWrite a b)
  | _ => none

/-- OP 0xC8. -/
def ofC8 (f : Fields) : Option Instr :=
  do
  let d ← fin? 256 f.d
  some (.bdecl d (BitVec.ofNat 4 (f.x % 16)))

/-- OP 0xC9. -/
def ofC9 (f : Fields) : Option Instr :=
  do
  let d ← fin? 256 f.d
  some (.bdrop d)

/-- OP 0xD0. -/
def ofD0 (f : Fields) : Option Instr :=
  do
  let bd ← buf? (f.m / 4 % 2) f.d
  let ba ← buf? (f.m / 8 % 2) f.a
  let bb ← buf? (f.m / 16 % 2) f.b
  let kd ← fin? 32 (f.x % 32)
  some (.launch (BitVec.ofNat 2 (f.m % 4)) bd ba bb kd)

/-- OP 0xD1. -/
def ofD1 (f : Fields) : Option Instr :=
  do
  let acc ← bool? ((f.m / 4) % 2)
  let masked ← bool? ((f.m / 8) % 2)
  let d ← fin? 256 f.d
  let a ← fin? 256 f.a
  let b ← fin? 256 f.b
  let kd ← fin? 32 (f.x % 32)
  some (.mmt (BitVec.ofNat 2 (f.m % 4)) acc masked d a b kd)

/-- OP 0xD2. -/
def ofD2 (f : Fields) : Option Instr :=
  do
  let acc ← bool? ((f.m / 4) % 2)
  let masked ← bool? ((f.m / 8) % 2)
  let d ← fin? 256 f.d
  let a ← fin? 256 f.a
  let b ← fin? 256 f.b
  let kd ← fin? 32 (f.x % 32)
  some (.smmt (BitVec.ofNat 2 (f.m % 4)) acc masked d a b kd)

/-- OP 0xD3. -/
def ofD3 (f : Fields) : Option Instr :=
  do
  let acc ← bool? ((f.m / 4) % 2)
  let d ← buf? (f.m / 8 % 2) f.d
  let a ← buf? (f.m / 16 % 2) f.a
  let kd ← fin? 32 (f.x % 32)
  some (.copyt (BitVec.ofNat 2 (f.m % 4)) acc d a kd)

/-- OP 0xD4. -/
def ofD4 (f : Fields) : Option Instr :=
  do
  let a ← fin? 32 f.a
  some (.redt (BitVec.ofNat 2 (f.m % 4)) a (BitVec.ofNat 4 (f.x % 16)))

/-- OP 0xD5. -/
def ofD5 (f : Fields) : Option Instr :=
  do
  let d ← fin? 256 f.d
  let a ← fin? 256 f.a
  let kd ← fin? 32 (f.x % 32)
  some (.maskgen (BitVec.ofNat 2 (f.m % 4)) d a kd)

/-- OP 0xD6. -/
def ofD6 (f : Fields) : Option Instr :=
  do
  let d ← fin? 256 f.d
  let a ← fin? 256 f.a
  let b ← fin? 256 f.b
  let kd ← fin? 32 (f.x % 32)
  some (.kvcompact (BitVec.ofNat 2 (f.m % 4)) d a b kd)

/-- OP 0xE0. -/
def ofE0 (f : Fields) : Option Instr :=
  do
  let kd ← fin? 32 (f.x % 32)
  some (.sopen (BitVec.ofNat 2 (f.m % 4)) kd)

/-- OP 0xE1. -/
def ofE1 (f : Fields) : Option Instr :=
  do
  let img ← bool? ((f.m / 8) % 2)
  let d ← fin? 256 f.d
  let a ← fin? 256 f.a
  let b ← buf? (f.m / 4 % 2) f.b
  let kd ← fin? 32 (f.x % 32)
  some (.srule (BitVec.ofNat 2 (f.m % 4)) img d a b kd)

/-- OP 0xE2. -/
def ofE2 (f : Fields) : Option Instr :=
  do
  let img ← bool? ((f.m / 8) % 2)
  let d ← fin? 256 f.d
  let a ← fin? 256 f.a
  let b ← fin? 256 f.b
  let kd ← fin? 32 (f.x % 32)
  some (.saccept (BitVec.ofNat 2 (f.m % 4)) img d a b kd)

/-- OP 0xE3. -/
def ofE3 (f : Fields) : Option Instr :=
  do
  let a ← fin? 256 f.a
  let kd ← fin? 32 (f.x % 32)
  some (.skv (BitVec.ofNat 2 (f.m % 4)) a kd)

/-- OP 0xE4. -/
def ofE4 (f : Fields) : Option Instr :=
  do
  let kd ← fin? 32 (f.x % 32)
  some (.spublish (BitVec.ofNat 2 (f.m % 4)) kd)

/-- OP 0xE5. -/
def ofE5 (f : Fields) : Option Instr :=
  do
  let kd ← fin? 32 (f.x % 32)
  some (.sclose (BitVec.ofNat 2 (f.m % 4)) kd)

/-- OP 0xE6. -/
def ofE6 (f : Fields) : Option Instr :=
  do
  let d ← fin? 32 f.d
  let kd ← fin? 32 (f.x % 32)
  some (.scount (BitVec.ofNat 2 (f.m % 4)) d kd)

/-- OP 0xE8. -/
def ofE8 (f : Fields) : Option Instr :=
  do
  let a ← fin? 256 f.a
  some (.qsend (BitVec.ofNat 2 (f.m % 4)) a (BitVec.ofNat 16 ((f.x / 16) % 65536)) (BitVec.ofNat 4 (f.x % 16)))

/-- OP 0xE9. -/
def ofE9 (f : Fields) : Option Instr :=
  do
  let d ← fin? 256 f.d
  let half ← bool? ((f.x / 16) % 2)
  some (.qrecv (BitVec.ofNat 2 (f.m % 4)) d half (BitVec.ofNat 4 (f.x % 16)))

/-- OP 0xF0. -/
def ofF0 (f : Fields) : Option Instr :=
  do
  let a ← fin? 32 f.a
  let b ← fin? 32 f.b
  let wide ← bool? ((f.m / 4) % 2)
  some (.ssignal (BitVec.ofNat 2 (f.m % 4)) a b wide)

/-- OP 0xF1. -/
def ofF1 (f : Fields) : Option Instr :=
  do
  let cmp ← WaitCmp.ofCode ((f.m / 8) % 4)
  let wide ← bool? ((f.m / 4) % 2)
  let a ← fin? 32 f.a
  let kd ← fin? 32 (f.x % 32)
  some (.swait (BitVec.ofNat 2 (f.m % 4)) cmp wide a kd)

/-- OP 0xF2. -/
def ofF2 (f : Fields) : Option Instr :=
  do
  let b ← fin? 32 f.b
  let det ← bool? (f.x % 2)
  some (.smode b det)

/-- The instruction whose fields f are, read under Tables 10.7, 10.8, 10.11 and 10.13. It looks at the assigned bits only:
decodeFields refuses a word with any other bit set. -/
def ofFields (f : Fields) : Option Instr :=
  match f.op with
  | 0x00 => of00 f
  | 0x01 => of01 f
  | 0x02 => of02 f
  | 0x03 => of03 f
  | 0x04 => of04 f
  | 0x05 => of05 f
  | 0x06 => of06 f
  | 0x07 => of07 f
  | 0x08 => of08 f
  | 0x09 => of09 f
  | 0x0A => of0A f
  | 0x0B => of0B f
  | 0x0C => of0C f
  | 0x10 => of10 f
  | 0x11 => of11 f
  | 0x12 => of12 f
  | 0x13 => of13 f
  | 0x14 => of14 f
  | 0x15 => of15 f
  | 0x16 => of16 f
  | 0x17 => of17 f
  | 0x18 => of18 f
  | 0x20 => of20 f
  | 0x21 => of21 f
  | 0x22 => of22 f
  | 0x23 => of23 f
  | 0x40 => of40 f
  | 0x41 => of41 f
  | 0x42 => of42 f
  | 0x43 => of43 f
  | 0x44 => of44 f
  | 0x45 => of45 f
  | 0x46 => of46 f
  | 0x47 => of47 f
  | 0x48 => of48 f
  | 0x49 => of49 f
  | 0x4A => of4A f
  | 0x4B => of4B f
  | 0x50 => of50 f
  | 0x51 => of51 f
  | 0x52 => of52 f
  | 0x53 => of53 f
  | 0x54 => of54 f
  | 0x55 => of55 f
  | 0x80 => of80 f
  | 0x81 => of81 f
  | 0x82 => of82 f
  | 0x84 => of84 f
  | 0x85 => of85 f
  | 0x86 => of86 f
  | 0x88 => of88 f
  | 0x89 => of89 f
  | 0x8A => of8A f
  | 0x8B => of8B f
  | 0x90 => of90 f
  | 0x91 => of91 f
  | 0x92 => of92 f
  | 0x93 => of93 f
  | 0x98 => of98 f
  | 0xC0 => ofC0 f
  | 0xC1 => ofC1 f
  | 0xC2 => ofC2 f
  | 0xC3 => ofC3 f
  | 0xC4 => ofC4 f
  | 0xC5 => ofC5 f
  | 0xC6 => ofC6 f
  | 0xC7 => ofC7 f
  | 0xC8 => ofC8 f
  | 0xC9 => ofC9 f
  | 0xD0 => ofD0 f
  | 0xD1 => ofD1 f
  | 0xD2 => ofD2 f
  | 0xD3 => ofD3 f
  | 0xD4 => ofD4 f
  | 0xD5 => ofD5 f
  | 0xD6 => ofD6 f
  | 0xE0 => ofE0 f
  | 0xE1 => ofE1 f
  | 0xE2 => ofE2 f
  | 0xE3 => ofE3 f
  | 0xE4 => ofE4 f
  | 0xE5 => ofE5 f
  | 0xE6 => ofE6 f
  | 0xE8 => ofE8 f
  | 0xE9 => ofE9 f
  | 0xF0 => ofF0 f
  | 0xF1 => ofF1 f
  | 0xF2 => ofF2 f
  | _ => none

/-- How many FN values Tables 10.7, 10.8, 10.11 and 10.13 list under an OP, from 0 up; 0 for an OP they do not list. An OP
listed without forms requires FN = 0 (R201). -/
def forms : Nat → Nat
  | 0x01 | 0x02 | 0x04 | 0x06 | 0x0A | 0x18 | 0x21 | 0x22 | 0x42 | 0x4B | 0x53 | 0x80 | 0x81 | 0x82 | 0x85 | 0x86 | 0x90 | 0x91 | 0xC1 | 0xC2 | 0xC3 | 0xC4 | 0xC5 | 0xC6 | 0xC8 | 0xC9 | 0xD0 | 0xD1 | 0xD2 | 0xD3 | 0xD4 | 0xD5 | 0xD6 | 0xE0 | 0xE1 | 0xE2 | 0xE3 | 0xE4 | 0xE5 | 0xE6 | 0xE8 | 0xE9 | 0xF0 | 0xF1 | 0xF2 => 1
  | 0x00 => 2
  | 0x03 => 2
  | 0x05 => 4
  | 0x07 => 3
  | 0x08 => 10
  | 0x09 => 6
  | 0x0B => 4
  | 0x0C => 2
  | 0x10 => 5
  | 0x11 => 4
  | 0x12 => 5
  | 0x13 => 4
  | 0x14 => 3
  | 0x15 => 4
  | 0x16 => 4
  | 0x17 => 4
  | 0x20 => 11
  | 0x23 => 2
  | 0x40 => 3
  | 0x41 => 4
  | 0x43 => 8
  | 0x44 => 3
  | 0x45 => 4
  | 0x46 => 3
  | 0x47 => 14
  | 0x48 => 2
  | 0x49 => 3
  | 0x4A => 8
  | 0x50 => 4
  | 0x51 => 4
  | 0x52 => 6
  | 0x54 => 2
  | 0x55 => 4
  | 0x84 => 9
  | 0x88 => 3
  | 0x89 => 5
  | 0x8A => 2
  | 0x8B => 7
  | 0x92 => 5
  | 0x93 => 2
  | 0x98 => 2
  | 0xC0 => 2
  | 0xC7 => 2
  | _ => 0

/-- What a word decodes to: an instruction, or the first decode fault of R201 that its bits alone decide. -/
inductive Decoded where
  | insn (i : Instr)
  /-- ILLEGAL_OPCODE, 0x0101. -/
  | illegalOpcode
  /-- RESERVED_FIELD, 0x0102. -/
  | reservedField
  deriving DecidableEq, Repr

/-- R201 items 1 and 3: an unlisted OP or FN; then any bit that the form does not assign, or a value it reserves. A word is
accepted exactly when it is the encoding of a well-formed instruction. -/
def decodeFields (f : Fields) : Decoded :=
  if f.fn < forms f.op then
    match ofFields f with
    | some i => if i.wellFormed && i.toFields == some f then .insn i else .reservedField
    | none => .reservedField
  else .illegalOpcode

def decode (w : InsnWord) : Decoded := decodeFields (Fields.unpack w)

/-- The word of an instruction; an event has none and answers the word of NOP. -/
def encode (i : Instr) : InsnWord :=
  match i.toFields with
  | some f => f.pack
  | none => 0

/-- OP[7:6] (R196). -/
def opClass (w : InsnWord) : Nat := w.toNat / 64 % 4

/-- What a core takes a word for: the fault code of R201 items 1 to 3, or the instruction. -/
def coreDecode (w : InsnWord) : Except Nat Instr :=
  match decode w with
  | .illegalOpcode => .error 0x0101
  | .reservedField => if opClass w = 3 then .error 0x0105 else .error 0x0102
  | .insn i => if opClass w = 3 then .error 0x0105 else .ok i

/-- What the front stage takes a word for (R47, R201): the word of all zeros is SNOP. -/
def streamDecode (w : InsnWord) : Except Nat Instr :=
  if w = 0 then .ok .snop
  else match decode w with
    | .illegalOpcode => .error 0x0101
    | .reservedField => .error 0x0102
    | .insn i => .ok i

/-- The byte at an index of a number laid out little-endian (R2). -/
def leByte (n k : Nat) : Byte := BitVec.ofNat 8 (n / 2 ^ (8 * k))

/-- The twelve bytes of an instruction slot, lowest address first (R188). -/
def slotBytes (n : Nat) : List Byte := (List.range 12).map (leByte n)

/-- The number whose little-endian bytes are given (R2). -/
def ofBytes : List Byte → Nat
  | [] => 0
  | b :: bs => b.toNat + 256 * ofBytes bs

/-- The instruction the decoder reads from a word numbered as the opcode table numbers it. -/
def decodeTableWord (nbits w : Nat) : Option Instr :=
  match decode (BitVec.ofNat 96 (ofBytes (slotBytes (w % 2 ^ min nbits 96)))) with
  | .insn i => some i
  | _ => none

end Sys2Proof
end

