-- ==== Sys2Proof/Config.lean ====
section
/-! DEFINITION. What the spec fixes for the device, and what it leaves open: the open values are constants without a body, so nothing can evaluate them. -/

namespace Sys2Proof

/-- Who acts in a step: the choices and the inputs that the spec leaves open (R9, R28, R31, R41, R102). -/
inductive Agent where
  /-- A pipe of a quarter selects and issues (R28). -/
  | pipe (core quarter : Nat) (p : Pipe)
  /-- The front stage of a partition handles its next stream instruction (R46). -/
  | front (p : Nat)
  /-- An engine, a port, the Headframe or a register write acts. -/
  | event (i : Instr)
  /-- One arithmetic clock passes (R9). -/
  | tick
  /-- The host writes the n low bytes of v to host memory, whole (R124, R137). -/
  | hostStore (addr n v : Nat)
  /-- Another requester writes n bytes of pooled memory, whole (R102, R117, R124). -/
  | poolStore (addr n v : Nat)
  /-- The host writes n bytes of a partition's mailbox words; an aligned word is written whole (R162). -/
  | mailStore (p addr n v : Nat)
  /-- A single-bit error is corrected in a store of a partition, in a row of a Lode slice or a scratchpad or in another SRAM (R377,
  R379). -/
  | corrected (p : Nat) (row : Option (SramPlace × Nat))
  /-- A line leaves a core's read cache (R110). -/
  | evictLine (key : Nat)
  /-- An entry leaves a core's translation cache (R101). -/
  | evictPte (key : Nat)
  /-- The completion of the oldest write of a partition's retired SSIGNALs arrives (R138). -/
  | ssignalDone (p : Nat)
  deriving DecidableEq, Repr, Inhabited

/-- The special functions (R256). -/
inductive SfuFn where
  | exp2 | log2 | rcp | rsq | sqrt | sin | cos | tanh
  deriving DecidableEq, Repr

/-- A verdict on a firmware image (R170, Table 24.2). -/
inductive Verdict where
  | accepted | badSignature | badVersion | noImage
  deriving DecidableEq, Repr, Inhabited

namespace Config

/-- 128 logical cores (R10). -/
def cores : Nat := 128
/-- Eight partitions (R14). -/
def partitions : Nat := 8
/-- Sixteen token queues (R14). -/
def queues : Nat := 16
/-- Slots of a Slot Unit (R14). -/
def slots : Nat := 16384
/-- Entries of a Task Window (R46). -/
def windowEntries : Nat := 256
/-- Scratchpad bytes of a core (R11). -/
def scratchBytes : Nat := 2097152

/-- Lines of 128 bytes in a core's read cache of 256 KiB (R110). -/
def readCacheLines : Nat := 2048

/-- FREE VALUE: who acts next when the agenda says nothing (log 1). -/
opaque freeAgent : Nat → Agent
/-- FREE VALUE: the clock at which a physical core leaves device reset, after the given number of resets (R45; log 2). -/
opaque cycleOffset : Nat → Nat → Nat
/-- FREE VALUE: element of a tile nothing has written since it was reserved, or of half an f64 pair (R108, R293; log 6). -/
opaque tileWord : Nat → Nat → DWord
/-- FREE VALUE: a candidate SFU result; the model keeps it when it lies within the bound of Table 04.3 (R78; log 11). -/
opaque sfu : SfuFn → Word → Word
/-- FREE VALUE: a bit the spec leaves open, by the counter and a place (R327, R370; log 2). -/
opaque freeBit : Nat → Nat → Bool
/-- FREE VALUE: a byte that an Ethes peer answers to a read: link, clock, counter, address (R168; log 12). -/
opaque peerByte : Nat → Nat → Nat → Nat → Byte
/-- FREE VALUE: which line leaves a full read cache, by the counter (R110; log 84). -/
opaque victim : Nat → Nat
/-- FREE VALUE: bytes of an Ethes child's partial (R168, R300; log 12). -/
opaque peerPartial : Nat → Nat → Word
/-- FREE VALUE: the Ethes link at the edge port of a core of column 0 or 15, which no rule numbers (R168; log 12). -/
opaque edgeLink : Nat → Option Nat
/-- The Headframe's verdict on an image of the given bytes under R170; the keys are the vendor's (log 4). -/
opaque verdict : List Nat → Verdict
/-- The image stored at manufacture (R170; log 4). -/
opaque factoryImage : List Nat
/-- CDI(0), from the device's fused secret (R169; log 4). -/
opaque rootCdi : BitVec 256
/-- Measurement H of layer 0, which no layer makes (Table 08.5; log 4). -/
opaque romMeasurement : BitVec 256
/-- The public key of the LMS key that a CDI generates (R169; log 4). -/
opaque lmsPublic : BitVec 256 → Nat
/-- The signature of such a key over bytes, as its nth of this boot (R169; log 4). -/
opaque lmsSign : BitVec 256 → Nat → List Byte → Nat

end Config

end Sys2Proof
end

