-- ==== Sys2Proof/Machine/State.lean ====
section
/-! DEFINITION. The state of the AK768 as plain data: memories, teams, crews, engines, partitions and the device, and the state after reset. INVENTORY.md names the rule behind every field. -/

namespace Sys2Proof.Machine

/-- What stops the machine because nobody is there to act. The device has no such state: step never raises one of these. -/
inductive Fault where
  /-- exec of a core instruction while no team is current. Raised by the core instructions' shared entry; safe: the device
  has no instruction without a team. -/
  | noTeam
  /-- exec of a stream instruction while no partition is current. Raised by the stream instructions' shared entry; safe, as
  above. -/
  | noStream
  deriving DecidableEq, Repr

/-- What the model gives no meaning to. -/
inductive Refusal where
  /-- An instruction whose meaning is not written: raised by an arm of Dispatch.lean only; safe: the run ends. -/
  | notModelled (mnemonic : String)
  deriving DecidableEq, Repr

/-- A byte store: cells in strictly rising address order, none of them zero; an unlisted byte reads as zero (log 3). -/
abbrev Memory := List Host.Cell

/-- The canonical form from an address on. -/
def Memory.wfFrom : Nat → Memory → Bool
  | _, [] => true
  | n, (a, b) :: m => decide (n ≤ a) && b != 0 && Memory.wfFrom (a + 1) m

/-- The canonical form of a store: addresses strictly rising, no listed zero. -/
def Memory.wf (m : Memory) : Bool := m.wfFrom 0

/-- A table by number, keys strictly rising. -/
abbrev FMap (α : Type) := List (Nat × α)

namespace FMap
variable {α : Type}

def get? : FMap α → Nat → Option α
  | [], _ => none
  | (k, v) :: m, n => if k = n then some v else get? m n

def getD (m : FMap α) (n : Nat) (d : α) : α := (m.get? n).getD d

def set : FMap α → Nat → α → FMap α
  | [], n, v => [(n, v)]
  | (k, w) :: m, n, v =>
    if n < k then (n, v) :: (k, w) :: m
    else if n = k then (n, v) :: m
    else (k, w) :: set m n v

def erase : FMap α → Nat → FMap α
  | [], _ => []
  | (k, w) :: m, n => if n = k then erase m n else (k, w) :: erase m n

def keys (m : FMap α) : List Nat := m.map (·.1)
def vals (m : FMap α) : List α := m.map (·.2)
def has (m : FMap α) (n : Nat) : Bool := (m.get? n).isSome

end FMap

/-! ### Teams (02, 11, 21) -/

/-- A return frame (R36). -/
structure Frame where
  ret : PC
  mask : LaneMask
  deriving DecidableEq, Repr

/-- Why an entry is not selectable (Table 21.3). -/
inductive Hold where
  | none
  | join (j : Nat)
  | exchange
  | ret
  deriving DecidableEq, Repr

/-- A frontier entry (R33). ins is its place in insertion order; back is set by YIELD for one selection (R35). -/
structure Entry where
  ins : Nat
  pc : PC
  mask : LaneMask
  hold : Hold := .none
  back : Bool := false
  deriving DecidableEq, Repr

/-- A join mask (R215). -/
structure Join where
  members : LaneMask := 0
  arrived : LaneMask := 0
  deriving DecidableEq, Repr

/-- The operands of one lane of a producer (Table 21.4): offset or A operand, C operand, new value of CAS, old value. -/
structure LaneOps where
  a : Nat := 0
  c : Nat := 0
  n : Nat := 0
  old : Nat := 0
  deriving DecidableEq, Repr

/-- A replay entry (Table 21.4). -/
structure Replay where
  word : Nat
  pc : PC
  base : Nat
  value : Bool
  faulted : Bool
  lm : LaneMask
  ops : FMap LaneOps
  deriving DecidableEq, Repr

/-- A long-latency producer that has issued (R268, R344): the lanes not yet delivered and the values that will arrive. -/
structure Producer where
  insn : Instr
  pc : PC
  base : Nat
  lm : LaneMask
  ops : FMap LaneOps
  vals : FMap Nat
  /-- Lanes whose read part fails when it arrives (R368, R369), with the code and the address. -/
  bad : FMap (Nat × Nat) := []
  /-- Holds one of the quarter's two handler SFU slots (R256). -/
  handler : Bool
  faulted : Bool := false
  /-- Clock of its requests, and the lanes whose request left through a port (R368). -/
  since : Nat := 0
  out : LaneMask := 0
  deriving DecidableEq, Repr

/-- A failed read of a producer: the trap at the next boundary (R369). -/
structure PortFail where
  code : Nat
  lane : Nat
  addr : Nat
  /-- The failed write that it reports, which stays until its trap is taken (R357). -/
  write : Option Nat := none
  deriving DecidableEq, Repr

/-- A CXL.mem or Ethes write without its completion, or failed (R138, R370). -/
structure OutWrite where
  addr : Nat
  /-- Bytes, and for pooled memory the physical address, the old value and the new one. -/
  len : Nat := 0
  pa : Option Nat := none
  old : Nat := 0
  val : Nat := 0
  /-- Clock of the request (R368). -/
  since : Nat := 0
  failed : Option Nat := none
  /-- How many writes of pooled memory cxlLog lists up to this one (R370). -/
  mark : Nat := 0
  /-- A store of a background spill, for which no release waits (R38). -/
  spill : Bool := false
  deriving DecidableEq, Repr

/-- A host atomic that holds its team's issue (R372): the participants not yet complete, and the clock at which the lowest of them
was sent. -/
structure HostAtomic where
  insn : Instr
  todo : LaneMask
  since : Nat := 0
  deriving DecidableEq, Repr

/-- A store of bytes (Table 05.1); an Ethes window reaches a peer's memory (R168). -/
inductive Store where
  | lode (p : Nat)
  | cxl
  | host
  | buf (p : Nat)
  | mail (p : Nat)
  | window (cid : Nat)
  | ethes (link : Nat)
  deriving DecidableEq, Repr

/-- What a trap's frame wrote over, until the clock of the trap has passed (R382): where, how many bytes, and what they were. -/
structure TrapUndo where
  clock : Nat
  pages : List (Store × Nat × Nat × Memory)
  deriving DecidableEq, Repr

/-- The uncorrectable value that a team met (Table 24.1): of the stores of its core, or of its shadow's (R383), or of global memory,
found by an engine on a core in the line at an address. -/
inductive Lost where
  | store (shadow : Bool)
  | line (engine core addr : Nat)
  deriving DecidableEq, Repr

/-- The wait of a mirrored leader for its shadow's signature (R384). -/
inductive Sig where
  | idle | waiting | matched
  deriving DecidableEq, Repr

/-- A fetched block (R188): its address and its 512 bits. -/
structure Block where
  addr : VAddr
  bits : Nat
  deriving DecidableEq, Repr

/-- A push still to be waited for (R299, R301): the core, and the round of its router; told, once its time-out has been
reported (R357). -/
structure Push where
  core : Nat
  round : Nat
  told : Bool := false
  deriving DecidableEq, Repr

/-- A failed translation: its code, and what XLFSTAT records of it; cause 16 is a fault the record does not keep. -/
structure XFail where
  code : Nat
  cause : Nat := 16
  level : Nat := 0
  pa : Nat := 0
  deriving DecidableEq, Repr

/-- A team (R20 to R45). -/
structure Team where
  cid : Nat
  /-- %team. -/
  num : Nat
  /-- 4·core + quarter. -/
  quarter : Nat
  /-- In the active set (R27). -/
  active : Bool
  /-- Placement order on its quarter (R28). -/
  order : Nat
  nlanes : Nat
  /-- Vector registers per lane (R26). -/
  nregs : Nat
  /-- Register r of lane l at 1024·r + l; an absent register is 0. -/
  vregs : FMap Word := []
  sregs : FMap DWord := []
  /-- p1 to p7. -/
  preds : FMap LaneMask := []
  joins : FMap Join := []
  entries : List Entry := []
  nextIns : Nat := 0
  /-- The running entry (R33): it issues until it splits, reaches a new block or exits. -/
  run : Option Nat := none
  exited : LaneMask := 0
  stack : List Frame := []
  /-- Frames in memory (R37). -/
  memFrames : Nat := 0
  /-- Frames spilled before the trap whose handler runs (R348). -/
  outerFrames : Nat := 0
  /-- A held spill fault, and its address (R38). -/
  heldSpill : Option (Nat × XFail) := none
  /-- The fault of a refill, and its address (R38). -/
  heldRefill : Option (Nat × XFail) := none
  emptyV : FMap LaneMask := []
  emptyS : FMap Bool := []
  /-- Registers held empty by the handler's replay entries (R349). -/
  heldV : FMap LaneMask := []
  heldS : FMap Bool := []
  producers : List Producer := []
  replay : List Replay := []
  portFail : Option PortFail := none
  writes : FMap OutWrite := []
  nextWrite : Nat := 0
  hostAtomic : Option HostAtomic := none
  handler : Bool := false
  /-- The area with which the handler was entered (R207). -/
  tsaveIn : DWord := 0
  /-- SPILL of that frame (R351). -/
  spillIn : Bool := false
  /-- The entry whose next instruction honours ONCE (R350). -/
  once : Option Nat := none
  /-- The entry that TRAPENT of the frame last restored names, for a trap of a re-injected producer (R350). -/
  trapEnt : Nat := 0
  stkbase : DWord := 0
  stklim : DWord := 0
  tsave : DWord := 0
  tvec : DWord := 0
  bufd : DWord := 0
  bufa : DWord := 0
  bufb : DWord := 0
  migr : Bool := false
  tcause : BitVec 16 := 0
  draws : FMap Word := []
  /-- Sealed batches (R112). -/
  sealed : Nat := 0
  /-- Copies issued, in order (R286). -/
  copyNo : Nat := 0
  pushes : FMap Push := []
  halted : Bool := false
  /-- A HALTREQ waits for the boundary after its host atomic (R222). -/
  haltAsked : Bool := false
  block : Option Block := none
  sig : Sig := .idle
  /-- An ATOM or RED outside the crew windows and the bound D buffer (R381). -/
  didAtomic : Bool := false
  /-- Clock at which it entered the active set, and became ready (R28, R30). -/
  enteredAt : Nat := 0
  readyAt : Option Nat := none
  /-- Clocks since which a replay or the fetch of its next block is due, and a spill or a refill of its stack (R368). -/
  wantSince : Option Nat := none
  stackSince : Option Nat := none
  /-- Clock of its last issue on pipes A, B and C (R28). -/
  lastIssue : FMap Nat := []
  /-- Clock until which its place issues nothing (R29). -/
  blockedUntil : Nat := 0
  /-- A pre-emption has been acknowledged (R41). -/
  stopped : Bool := false
  /-- LIMIT of TSLICE as the count of the slice began, 0 while none is counted (R30, Table 02.5). -/
  slice : Nat := 0
  /-- It met an uncorrectable value, and stops with no trap (R343, Table 24.1). -/
  lost : Option Lost := none
  /-- It ended because its LAUNCH faulted; what it issued stops at the units of Table 02.3 (R335, R354). -/
  cut : Bool := false
  undo : Option TrapUndo := none
  /-- Clock of its last read of memory, or of its last acquire: the latest whose writes it can have seen (R122, R126, R136, R138). -/
  readAt : Option Nat := none
  deriving DecidableEq, Repr

/-- Kind of a tile (R293). -/
inductive TKind where
  | f32 | i32 | f64
  deriving DecidableEq, Repr

/-- An accumulator tile: element (i, j) at 256·i + j. An f64 pair keeps its elements in its even tile. An element absent from
vals is 0, or, while free holds, an unknown value (R108). -/
structure Tile where
  kind : TKind := .f32
  vals : FMap Nat := []
  free : Option Nat := none
  deriving DecidableEq, Repr

/-- A crew (R24, R25). -/
structure Crew where
  part : Nat
  /-- The LAUNCH's window entry. -/
  seq : Nat
  /-- %crew. -/
  num : Nat
  launch : DWord
  cls : Nat
  nteams : Nat
  ncrew : Nat
  /-- Member cores, ascending (R24). -/
  cores : List Nat
  winBytes : Nat
  window : Memory := []
  /-- Physical tiles of the class bank on every member core, by a number; and mask queues (R108, R115). -/
  tiles : Nat
  tileMap : FMap (List Nat) := []
  queueMap : FMap (List Nat) := []
  placed : Bool := true
  /-- A class pre-emption of the crew is pending (R40, Table 21.2). -/
  preempt : Bool := false
  /-- Quarters of the shadow teams of a mirrored launch (R383). -/
  shadow : List Nat := []
  /-- Saved while it is not placed (R43, R109, R115): tags (4096·k + 4·set + way, tag, slot), and at 16·k + n and 8·k + n the tiles
  and the queues it names n, of its member core k; k counts on from 128 for the tags of its shadow's cores. -/
  savedTags : List (Nat × Nat × Nat) := []
  savedQueues : FMap (List Nat) := []
  savedTiles : FMap Tile := []
  deriving DecidableEq, Repr

/-! ### Cores (01, 05, 13, 14) -/

/-- A tag entry (R106). -/
structure Tag where
  tag : Nat
  slot : Nat
  cid : Nat
  deriving DecidableEq, Repr

/-- A tile spilled to Lode for other work on its bank, with its owner (R39, R62). -/
structure Spilled where
  owner : Nat
  tile : Tile
  deriving DecidableEq, Repr

/-- Where a copy reads or writes. -/
inductive CAddr where
  | g (va : Nat)
  | w (cid addr : Nat)
  | buf (part phys off : Nat)
  deriving DecidableEq, Repr

/-- What a copy does (Table 05.6). A queue is named as its crew names it. -/
inductive CKind where
  | copy (n : Nat)
  | plane (fmt : AFmt) (stride k m : Nat)
  | split (cols : Bool) (slices stride k l : Nat) (exps : Nat)
  | mask (q n : Nat)
  | gather (size n index : Nat)
  deriving DecidableEq, Repr

/-- Whose copy it is (R111, R112). -/
inductive COwner where
  | team (tid batch no : Nat)
  | task (part seq : Nat)
  deriving DecidableEq, Repr

/-- A fault of a copy (R114). -/
structure CFault where
  code : Nat
  addr : Nat
  core : Nat
  deriving DecidableEq, Repr

/-- A copy of a Hoist (R277 to R284). Its number in State is its age. -/
structure Copy where
  owner : COwner
  /-- The Hoist that runs it; none: the free Hoist of the lowest logical core (R315). -/
  core : Option Nat
  part : Nat
  src : CAddr
  dst : CAddr
  kind : CKind
  /-- The PC of its HCOPY (R384), and the clock of its issue or of its last chunk's start (R368). -/
  pc : PC := ⟨0, 0⟩
  since : Nat := 0
  /-- The barrier's window address, with its counted fields (R113). -/
  bar : Option (Nat × Bool × Bool) := none
  /-- Chunks started, and the chunks in flight with the bytes read. -/
  started : Nat := 0
  flight : FMap (List Byte) := []
  flightCore : FMap Nat := []
  /-- Clock at which each was read (R368). -/
  flightAt : FMap Nat := []
  /-- Source bytes that were read for a chunk and that later chunks need too: offset, bytes, value (R113, R279). -/
  held : List (Nat × Nat × Nat) := []
  /-- Chunks in flight whose signature has matched (R384). -/
  matched : List Nat := []
  fault : Option CFault := none
  deriving DecidableEq, Repr

/-- An operation of a Spindle (R291). Tiles and queues are named as the crew names them. -/
inductive SKind where
  | mmp (a g b : Nat) (m planes : Nat) (af : AFmt) (bf : BFmt) (q : Option Nat) (tiles : List Nat)
  | mms (a ea b eb : Nat) (g s : Nat) (d w : Nat)
  | zero (pair : Bool) (d : Nat)
  | load (pair : Bool) (d a : Nat)
  | out (pair : Bool) (d a rs cs : Nat) (q : Option Nat) (fmt : Nat) (ovf : Bool) (rm : RM)
  | move (pair : Bool) (d a : Nat)
  | spill (pair : Bool) (d : Nat) (va : Nat)
  /-- Tile t of an MMT or SMMT (R62). -/
  | tile (part seq t : Nat)
  deriving DecidableEq, Repr

structure SpinOp where
  core : Nat
  cls : Nat
  tid : Option Nat
  cid : Option Nat
  batch : Nat := 0
  /-- Its place among the copies its team issued (R286). -/
  no : Nat := 0
  kind : SKind
  /-- Next K-group or pair (R92). -/
  cursor : Nat := 0
  /-- The PC of its instruction, and whether its shadow's signature has matched (R384); the clock of its issue (R368). -/
  pc : PC := ⟨0, 0⟩
  matched : Bool := false
  since : Nat := 0
  fault : Option CFault := none
  done : Bool := false
  deriving DecidableEq, Repr

/-! ### Partitions (03, 07, 08, 20, 23) -/

/-- A report of a router that timed out (R374): its core and the missing children. -/
structure Report where
  core : Nat
  missing : Nat
  deriving DecidableEq, Repr

/-- A partial on its way up, or a result (R300, R374). -/
structure Partial where
  round : BitVec 8
  vals : List Word
  report : Option Report
  deriving DecidableEq, Repr

/-- A pushed flit (R299, R327): where it stands, what it held, and when it came; frozen, once its push's wait has returned. -/
structure Flit where
  cid : Nat
  addr : Nat
  vals : List Word
  at_ : Nat
  frozen : Bool := false
  deriving DecidableEq, Repr

/-- A router for one tree (R300, R374). -/
structure Router where
  /-- Rounds folded since the tree began; its round number is this one modulo 256. -/
  count : Nat := 0
  flit : Option Flit := none
  /-- Accepted partials by port code. -/
  parts : FMap Partial := []
  /-- Partials sent upward and not yet arrived, oldest first. -/
  sent : List Partial := []
  /-- Results sent down, by round (R300, R301). -/
  results : FMap Partial := []
  /-- Rounds this router closed by time-out (R375). -/
  own : FMap Report := []
  /-- Clock of the round's first partial at a root that has lost its core (R387). -/
  since : Option Nat := none
  deriving DecidableEq, Repr

/-- State of a slot (Table 07.1). -/
inductive SlotState where
  | masked | tentative | final | never
  deriving DecidableEq, Repr

structure Slot where
  state : SlotState := .masked
  token : BitVec 24 := 0xFFFFFF
  conf : BitVec 16 := 0
  pass : BitVec 16 := 0
  kv : Bool := false
  pub : Bool := false
  draft : BitVec 24 := 0xFFFFFF
  deriving DecidableEq, Repr

/-- An open block of slots (R140, R150). -/
structure SlotBlock where
  size : Nat
  ordered : Bool
  positional : Bool
  ring : Nat
  reqid : BitVec 16
  pos0 : Word
  endTok : BitVec 24
  passCtr : BitVec 16 := 0
  published : Nat := 0
  kvCount : Nat := 0
  ended : Bool := false
  endSent : Bool := false
  deriving DecidableEq, Repr

/-- A token ring (Table 07.4) and the device's copy CONS (R153). -/
structure Ring where
  base : DWord := 0
  baseHi : BitVec 16 := 0
  cons : DWord := 0
  consHi : BitVec 16 := 0
  en : Bool := false
  log2n : BitVec 5 := 0
  prod : Word := 0
  seq : Word := 1
  lim : Word := 0
  copy : Word := 0
  /-- Clock of the last read of the index. -/
  polled : Option Nat := none
  deriving DecidableEq, Repr

/-- A declared area (R57). -/
structure Area where
  base : Nat
  len : Nat
  write : Bool
  deriving DecidableEq, Repr

/-- The stream state that a squash restores (R335). -/
structure Snap where
  k : FMap DWord := []
  calls : List PC := []
  seed : Word := 0
  det : Bool := false
  rename : FMap Nat := []
  areas : List Area := []
  /-- The next launch id: what passes again keeps its id (R159). -/
  launch : Nat := 1
  deriving DecidableEq, Repr

/-- A task fault held in its entry (R334, R337). -/
structure TaskFault where
  code : Nat
  engine : Nat
  core : Nat
  addr : Option Nat
  detail : Nat := 0
  /-- The team whose double fault it is, and the clock of its trap (R346, R382). -/
  trap : Option (Nat × Nat) := none
  deriving DecidableEq, Repr

inductive TStatus where
  | waiting
  | issued
  | completed
  | faulted (f : TaskFault)
  deriving DecidableEq, Repr

/-- Slot transitions held until retirement (R60). -/
structure Pend where
  base : Nat
  block : Option SlotBlock
  slots : FMap Slot
  deriving DecidableEq, Repr

/-- A tile of an MMT or SMMT handed out (R62): its core, and whether it is written. -/
structure TileRun where
  core : Nat
  tiles : List Nat
  queue : Option Nat
  done : Bool := false
  /-- Its next K-group or pair, and its tiles, while no Spindle holds it (R54, R92). -/
  cursor : Nat := 0
  saved : List Tile := []
  deriving DecidableEq, Repr

/-- An entry of the window (R46). -/
structure WinEntry where
  seq : Nat
  pc : PC
  /-- Where the front stage went on. -/
  next : PC := ⟨0, 0⟩
  insn : Instr
  cls : Nat
  /-- Captured descriptor: the k file as the instruction passed the front stage (R49). -/
  k : FMap DWord := []
  /-- Physical buffers of D, A and B (R53). -/
  d : Option Nat := none
  a : Option Nat := none
  b : Option Nat := none
  /-- The fresh buffer taken, and the architectural buffer and mapping it replaces (R53). -/
  fresh : Option Nat := none
  arch : Option Nat := none
  prev : Option Nat := none
  areas : List Area := []
  launch : DWord := 0
  seed : Word := 0
  det : Bool := false
  status : TStatus := .waiting
  snap : Snap := {}
  /-- Progress offset in bytes (R315, R337). -/
  progress : Nat := 0
  /-- Crews placed, and ended (R31, R312). -/
  placed : Nat := 0
  ended : Nat := 0
  /-- Row blocks per tile, tiles handed out (R62). -/
  mblocks : Nat := 0
  tiles : FMap TileRun := []
  /-- The value for a k register (R307, R318). -/
  result : Nat := 0
  pend : Option Pend := none
  /-- Slots whose KV is set at retirement (R149, R156). -/
  kvSlots : List Nat := []
  /-- Clock of the wait's start and of the last read (R63, R153). -/
  since : Nat := 0
  lastPoll : Option Nat := none
  /-- Clock at which it entered the window (R368). -/
  entered : Nat := 0
  /-- Service re-runs in this entry, and cores to be avoided (R381). -/
  reruns : Nat := 0
  avoid : List Nat := []
  /-- The cores that run either copy of each crew of a mirrored launch, and those of the run that a mismatch ended, which the re-run
  keeps off (R385). -/
  ran : FMap (List Nat) := []
  apart : FMap (List Nat) := []
  /-- A tile waits while no core is free, and the first core that became free since (R329). -/
  tileWaits : Bool := false
  firstFree : Option Nat := none
  /-- A team that has ended performed an ATOM or RED outside the crew windows and the bound D buffer (R381). -/
  didAtomic : Bool := false
  /-- The cursor was lost to an uncorrectable error (R340, R380). -/
  lost : Bool := false
  deriving DecidableEq, Repr

/-- A fault of the front stage, waiting to be reported (R334). -/
structure FrontFault where
  code : Nat
  pc : PC
  op : Nat
  cls : Nat
  addr : Option Nat
  /-- A block fault of a stream fetch. -/
  block : Bool
  deriving DecidableEq, Repr

/-- The states of a Task Window (Table 03.7). -/
inductive TwState where
  | idle | running | halted | faulted
  deriving DecidableEq, Repr

/-- The states of a partition (Table 08.1). -/
inductive PState where
  | free | forming | formed | dissolving
  deriving DecidableEq, Repr

/-- A window of physical addresses (Table 08.2). -/
structure PWindow where
  base : Nat
  len : Nat
  ports : Nat
  link : Nat
  ethes : Bool
  target : Nat
  deriving DecidableEq, Repr

/-- The record of translation faults (Table 23.3). -/
structure XlRecord where
  valid : Bool := false
  more : Bool := false
  cause : BitVec 4 := 0
  level : BitVec 3 := 0
  core : BitVec 7 := 0
  pa : BitVec 58 := 0
  va : VAddr := 0
  /-- Clock of the recorded fault and the place of its requester in the order of R367; no register shows them. -/
  clock : Nat := 0
  rank : Nat := 0
  deriving DecidableEq, Repr

/-- The fault record (Table 20.1). -/
structure TwRecord where
  code : BitVec 16 := 0
  op : BitVec 8 := 0
  cls : BitVec 2 := 0
  stage : Bool := false
  restart : Bool := false
  outward : Bool := false
  addrv : Bool := false
  core : BitVec 7 := 0
  engine : BitVec 3 := 0
  detail : BitVec 16 := 0
  pc : PC := ⟨0, 0⟩
  addr : VAddr := 0
  prog : DWord := 0
  deriving DecidableEq, Repr

/-- IOLOG (Table 23.3). -/
structure IoLog where
  valid : Bool := false
  count : BitVec 16 := 0
  engine : BitVec 3 := 0
  code : BitVec 16 := 0
  deriving DecidableEq, Repr

/-- The dbg registers (Table 11.4). -/
structure Debug where
  en : Bool := false
  code : BitVec 16 := 0
  cause : Bool := false
  team : BitVec 4 := 0
  quarter : BitVec 2 := 0
  core : BitVec 7 := 0
  pc : PC := ⟨0, 0⟩
  crew : Word := 0
  deriving DecidableEq, Repr

/-- XLROOT (Table 05.4). -/
structure XlRoot where
  pa : BitVec 43 := 0
  mt : BitVec 2 := 0
  en : Bool := false
  deriving DecidableEq, Repr

/-- A partition (R14, R162 to R167). -/
structure Part where
  state : PState := .free
  err : BitVec 6 := 0
  pcore0 : DWord := 0
  pcore1 : DWord := 0
  pcore2 : DWord := 0
  pcore3 : DWord := 0
  direct : Word := 0
  size : BitVec 16 := 0
  base : BitVec 16 := 0
  ppool0 : DWord := 0
  ppool1 : DWord := 0
  ppool2 : DWord := 0
  cxlShare : Byte := 0
  meshShare : Byte := 0
  pcxl : DWord := 0
  windows : List PWindow := []
  /-- The partition holds its CXL IDE key (R165). -/
  ideKey : Bool := false
  /-- CXL ports that have stopped carrying its traffic (R389). -/
  ideFail : BitVec 12 := 0
  lode : Memory := []
  /-- Physical buffer n at n·2^26, as in the buffer window (R104). -/
  bufs : Memory := []
  mail : Memory := []
  twState : TwState := .idle
  preempted : Bool := false
  /-- A HALT waits for the acknowledgements (R41, R67); it stands for a Function Level Reset (R163). -/
  haltReq : Bool := false
  flrReq : Bool := false
  acks : List Engine := []
  pc : PC := ⟨0, 0⟩
  rec_ : TwRecord := {}
  /-- Free lists by class, head first (R51). -/
  free : FMap (List Nat) := []
  window : List WinEntry := []
  nextSeq : Nat := 0
  k : FMap DWord := []
  calls : List PC := []
  rename : FMap Nat := []
  areas : List Area := []
  seed : Word := 0
  det : Bool := false
  fblock : Option Block := none
  /-- Clock since which the front stage lacks the block it needs (R368). -/
  fetchSince : Option Nat := none
  ffault : Option FrontFault := none
  shaltPassed : Bool := false
  /-- The next launch id, and the lowest never given (R25, R159). -/
  nextLaunch : Nat := 1
  launchTop : Nat := 1
  /-- XLROOT as the host wrote it (Table 05.4). -/
  xlroot : XlRoot := {}
  /-- The root in force, taken at GO (Table 05.4). -/
  rootInForce : XlRoot := {}
  xlinvBusy : Bool := false
  xlf : XlRecord := {}
  iotmo : Word := 0x4000
  nredlim : Word := 0x100
  iolog : IoLog := {}
  eccCorr : Word := 0
  eccUncorr : BitVec 16 := 0
  reruns : Word := 0
  mismatch : Word := 0
  jpass : DWord := 0
  dbg : Debug := {}
  tslice : Word := 0
  qconsent : BitVec 16 := 0
  /-- Writes of retired SSIGNALs that went out through a port (R371). -/
  ssig : List OutWrite := []
  rings : FMap Ring := []
  slots : FMap Slot := []
  blocks : FMap SlotBlock := []
  /-- Tree t's descriptor byte of core c at 128·t + c, present while the tree has an entry (R316). -/
  trees : FMap (List Byte) := []
  /-- Router of tree t on core c at 128·t + c (R300). -/
  routers : FMap Router := []
  msix : Nat := 0
  /-- Which signature of the firmware's key endorsed the partition's (R172). -/
  endorsed : Option Nat := none
  deriving DecidableEq, Repr

/-! ### The device (08, 24) -/

/-- QDEF of a queue (R167). -/
structure QDef where
  send : BitVec 3 := 0
  recv : BitVec 3 := 0
  en : Bool := false
  deriving DecidableEq, Repr

/-- LINKCFG of an Ethes link (Table 08.3). -/
structure LinkCfg where
  glen : BitVec 20 := 0
  gbase : BitVec 20 := 0
  en : Bool := false
  part : BitVec 3 := 0
  deriving DecidableEq, Repr

/-- CORESTAT (Table 24.2). -/
structure CoreStat where
  phys : BitVec 8
  strikes : BitVec 4 := 0
  srows : BitVec 5 := 16
  tiles0 : Bool := true
  tiles1 : Bool := true
  state : BitVec 2 := 0
  deriving DecidableEq, Repr

/-- PORTSTAT (Table 24.2), and the lanes that have failed (R388). -/
structure PortStat where
  retrain : BitVec 8 := 0
  width : BitVec 5 := 16
  spare : Bool := false
  state : BitVec 2 := 0
  lost : Nat := 0
  deriving DecidableEq, Repr

/-- The whole device. -/
structure State where
  clock : Nat
  /-- Device resets since the first (R45). -/
  epoch : Nat
  agenda : List Agent
  fresh : Nat
  cur : Option Nat
  curPart : Option Nat
  host : Memory
  cxl : Memory
  /-- Writes of pooled memory while some are outstanding, in order: physical address and bytes (R119, R370). -/
  cxlLog : List (Nat × Nat)
  /-- Poisoned lines of pooled memory, by line number (R368). -/
  poisonCxl : List Nat
  /-- Poisoned Lode lines of a partition, at part·2^51 + line; buffer lines at 2^50 above (R378). -/
  poisonLode : List Nat
  /-- Poisoned lines of crew windows, at 2^20·cid + line, 2^19 above in the shadows' cores (R378, R383). -/
  poisonWin : List Nat
  /-- Reads of this clock beyond a port that fail, at 2^64·store + line, and compare-and-swaps on host memory, at 2^64·50 + line,
  with their codes (R366, R368). -/
  portLine : FMap Nat
  /-- Port errors recorded for Advanced Error Reporting, counted by 65536·port + code (R368). -/
  aer : FMap Nat
  teams : FMap Team
  crews : FMap Crew
  nextTid : Nat
  nextCid : Nat
  nextAge : Nat
  /-- Line of store and address in the read cache of a core (R110). -/
  rcache : FMap Nat
  /-- Cached translations: entry of store and address, of a core (R101). -/
  ptes : FMap Nat
  /-- Tag entry at 4096·core + 4·set + way (R106). -/
  tags : FMap Tag
  /-- Tile at 32·core + 16·bank + number (R12). -/
  tiles : FMap Tile
  /-- Owner of a tile: 2·cid for a crew, 2·key + 1 for a tile of a task; none listed when it is free (R108). -/
  tileOwner : FMap Nat
  /-- Tiles spilled under R39 and R62, by place, the last one first. -/
  spilled : FMap (List Spilled)
  /-- Queue n of a core at 8·core + n (R115), and its owner. -/
  mqs : FMap (List Nat)
  mqOwner : FMap Nat
  copies : FMap Copy
  spin : FMap SpinOp
  /-- The operation whose K-group or pair a core's Spindle has under way (R39). -/
  spinNow : FMap Nat
  /-- Clock until which pipe 0, 1 or 2 of a quarter is busy, at 3·(4·core + quarter) + pipe (R22). -/
  pipeBusy : FMap Nat
  parts : FMap Part
  queues : FMap (List Nat)
  /-- Head messages lost to an uncorrectable error, which a QRECV is still to report (Table 24.1). -/
  queueLost : FMap Nat
  qdef : FMap QDef
  linkcfg : FMap LinkCfg
  attLayer : BitVec 4
  attStatus : BitVec 8
  attAddr : DWord
  /-- The nonce of the accepted request (R172). -/
  attNonce : Nat
  /-- Signatures of this boot, by key: 0 the ROM's, 1 the firmware's, 2 + the Table 08.1 registers as one number a partition's (R169). -/
  sigCount : FMap Nat
  /-- CDI(1), which this boot's ROM passed to the firmware (R169). -/
  cdi : BitVec 256
  /-- ISO and BOOT of SVCSTAT (Table 24.2). -/
  iso : Bool
  boot : BitVec 4
  fwLen : Word
  fwDone : Bool
  fwReject : Bool
  fwBusy : Bool
  fwAddr : DWord
  fwImage : List Nat
  /-- The image that runs since the last boot. -/
  fwRun : List Nat
  /-- CORESTAT of the cores that differ from the factory's (R386). -/
  coreStat : FMap CoreStat
  /-- Dies whose spare is in service (R386). -/
  spareUsed : List Nat
  /-- Spare rows left of a Lode slice, 32 where not listed (R379). -/
  lodeSpare : FMap Nat
  /-- Corrected errors of row r of a patrol's store n at 65536·n + r, 4 after an uncorrectable one (R379). -/
  rowErr : FMap Nat
  /-- Lines read by the patrol of Lode slice n at n, and of the scratchpad of core n at 64 + n (R378). -/
  patrol : FMap Nat
  ports : FMap PortStat
  withheldCores : List Nat
  withheldLode : List Nat
  /-- Clock at which a physical core was first given a crew since device reset (R45). -/
  firstWork : FMap Nat
  /-- A reset of function 0 waits for its partitions to be dissolved (R163). -/
  pf0Reset : Bool
  /-- Clock since which the request that is being made can have been outstanding (R368; log 34). -/
  asker : Nat
  msixPf : Nat
  deriving DecidableEq, Repr

/-- CORESTAT at reset: logical core c on die c / 16, at position c mod 16 (R386; log 5). -/
def factoryCore (c : Nat) : CoreStat := { phys := BitVec.ofNat 8 (17 * (c / 16) + c % 16) }

/-- The device right after reset. -/
def State.reset : State where
  clock := 0
  epoch := 0
  agenda := []
  fresh := 0
  cur := none
  curPart := none
  host := []
  cxl := []
  cxlLog := []
  poisonCxl := []
  poisonLode := []
  poisonWin := []
  portLine := []
  aer := []
  teams := []
  crews := []
  nextTid := 0
  nextCid := 0
  nextAge := 0
  rcache := []
  ptes := []
  tags := []
  tiles := []
  tileOwner := []
  spilled := []
  mqs := []
  mqOwner := []
  copies := []
  spin := []
  spinNow := []
  pipeBusy := []
  parts := []
  queues := []
  queueLost := []
  qdef := []
  linkcfg := []
  attLayer := 0
  attStatus := 0
  attAddr := 0
  attNonce := 0
  sigCount := []
  cdi := 0
  iso := false
  boot := 0
  fwLen := 0
  fwDone := false
  fwReject := false
  fwBusy := false
  fwAddr := 0
  fwImage := Config.factoryImage
  fwRun := []
  coreStat := []
  spareUsed := []
  lodeSpare := []
  rowErr := []
  patrol := []
  ports := []
  withheldCores := []
  withheldLode := []
  firstWork := []
  pf0Reset := false
  asker := 0
  msixPf := 0

end Sys2Proof.Machine
end

