-- ==== Sys2Proof/Machine/Mem.lean ====
section
/-! DEFINITION. Byte stores: reading and writing little-endian numbers (R2), and which store an address reaches (Table 05.1). -/

namespace Sys2Proof.Machine

namespace Memory

/-- The byte at an address; an unlisted byte is zero (log 3). -/
def byte : Memory → Nat → Byte
  | [], _ => 0
  | (a, b) :: m, n => if a = n then b else byte m n

/-- n bytes from a on, as a little-endian number. -/
def read (m : Memory) : Nat → Nat → Nat
  | _, 0 => 0
  | a, n + 1 => (m.byte a).toNat + 256 * read m (a + 1) n

/-- The cells of n bytes of a number from a on. -/
def cells : Nat → Nat → Nat → Memory
  | _, 0, _ => []
  | a, n + 1, v =>
    if BitVec.ofNat 8 v = 0 then cells (a + 1) n (v / 256) else (a, BitVec.ofNat 8 v) :: cells (a + 1) n (v / 256)

/-- The n low bytes of v, stored from a on. -/
def write (m : Memory) (a n v : Nat) : Memory :=
  m.filter (fun c => c.1 < a) ++ cells a n v ++ m.filter (fun c => a + n ≤ c.1)

/-- The byte at an address becomes b; a zero is not listed. -/
def put : Memory → Nat → Byte → Memory
  | [], a, b => if b = 0 then [] else [(a, b)]
  | (k, c) :: m, a, b =>
    if a < k then if b = 0 then (k, c) :: m else (a, b) :: (k, c) :: m
    else if a = k then if b = 0 then m else (a, b) :: m
    else (k, c) :: put m a b

/-- The canonical form of a list of cells, of which an earlier one counts. -/
def canon (l : List Host.Cell) : Memory := l.foldr (fun c m => m.put c.1 c.2) []

/-- n bytes from a on are those that the cells list, and zero elsewhere. -/
def replace (m : Memory) (a n : Nat) (l : List Host.Cell) : Memory :=
  m.filter (fun c => c.1 < a) ++ canon (l.filter fun c => a ≤ c.1 && c.1 < a + n) ++ m.filter (fun c => a + n ≤ c.1)

/-- No byte from a to a + n - 1 is nonzero. -/
def isZero (m : Memory) (a n : Nat) : Bool := m.all fun c => c.1 < a || a + n ≤ c.1

end Memory

/-- A number for a store, for the keys of the caches. -/
def Store.code : Store → Nat
  | .lode p => p
  | .buf p => 16 + p
  | .mail p => 32 + p
  | .cxl => 48
  | .host => 49
  | .ethes l => 56 + l
  | .window c => 64 + c

/-- The read cache holds lines of Lode, CXL and host memory and of the buffer window (R110). -/
def Store.cached : Store → Bool
  | .lode _ | .cxl | .host | .buf _ => true
  | _ => false

namespace State

def part (s : State) (p : Nat) : Part := s.parts.getD p {}
def setPart (s : State) (p : Nat) (x : Part) : State := { s with parts := s.parts.set p x }
def updPart (s : State) (p : Nat) (f : Part → Part) : State := s.setPart p (f (s.part p))
def setTeam (s : State) (t : Nat) (x : Team) : State := { s with teams := s.teams.set t x }
def setCrew (s : State) (c : Nat) (x : Crew) : State := { s with crews := s.crews.set c x }
def updTeam (s : State) (t : Nat) (f : Team → Team) : State :=
  match s.teams.get? t with
  | some x => s.setTeam t (f x)
  | none => s
def updCrew (s : State) (c : Nat) (f : Crew → Crew) : State :=
  match s.crews.get? c with
  | some x => s.setCrew c (f x)
  | none => s
def coreStatOf (s : State) (c : Nat) : CoreStat := s.coreStat.getD c (factoryCore c)

/-- The bytes of a store. An Ethes peer's are not the device's: see load. -/
def memOf (s : State) : Store → Memory
  | .lode p => (s.part p).lode
  | .cxl => s.cxl
  | .host => s.host
  | .buf p => (s.part p).bufs
  | .mail p => (s.part p).mail
  | .window c => match s.crews.get? c with
    | some x => x.window
    | none => []
  | .ethes _ => []

def setMem (s : State) (st : Store) (m : Memory) : State :=
  match st with
  | .lode p => s.updPart p fun x => { x with lode := m }
  | .cxl => { s with cxl := m }
  | .host => { s with host := m }
  | .buf p => s.updPart p fun x => { x with bufs := m }
  | .mail p => s.updPart p fun x => { x with mail := m }
  | .window c => s.updCrew c fun x => { x with window := m }
  | .ethes _ => s

/-- n bytes of a store; what an Ethes peer answers is a free value (R168, log 12). -/
def load (s : State) (st : Store) (a n : Nat) : Nat :=
  match st with
  | .ethes l => ofBytes ((List.range n).map fun j => Config.peerByte l s.clock s.fresh (a + j))
  | _ => (s.memOf st).read a n

/-- A write of pooled memory enters the list of those made (R119, R370). -/
def logCxl (s : State) (st : Store) (a n : Nat) : State :=
  match st with
  | .cxl => { s with cxlLog := s.cxlLog ++ [(a, n)] }
  | _ => s

/-- The n low bytes of v, stored from a on; a peer's memory is not the device's. -/
def store (s : State) (st : Store) (a n v : Nat) : State := (s.setMem st ((s.memOf st).write a n v)).logCxl st a n

/-! The read cache (R110): line ℓ of a store in a core at 2^84·core + 2^64·store + ℓ. -/

def lineKey (core : Nat) (st : Store) (a : Nat) : Nat := 2 ^ 84 * core + 2 ^ 64 * st.code + a / 128

/-- The line that an access reads: the core's copy, or memory's. -/
def lineOf (s : State) (core : Nat) (st : Store) (a : Nat) : Nat :=
  match s.rcache.get? (lineKey core st a) with
  | some v => v
  | none => s.load st (a / 128 * 128) 128

/-- A load by a core through its read cache. An aligned access of at most 32 bytes lies in one line. -/
def cload (s : State) (core : Nat) (st : Store) (a n : Nat) : Nat :=
  if st.cached then s.lineOf core st a / 2 ^ (8 * (a % 128)) % 2 ^ (8 * n) else s.load st a n

/-- The lines a core's read cache holds. -/
def coreLines (s : State) (core : Nat) : List Nat := s.rcache.keys.filter fun k => k / 2 ^ 84 == core

/-- A line leaves a core's full read cache; which one, the spec leaves open (R110; log 84). -/
def makeRoom (s : State) (core : Nat) : State :=
  let ls := s.coreLines core
  if ls.length < Config.readCacheLines then s
  else { s with rcache := s.rcache.erase (ls.getD (Config.victim s.fresh % ls.length) 0), fresh := s.fresh + 1 }

/-- The line that a read brings enters the cache (R110); a later read of a peer's memory is another one. -/
def fill (s : State) (core : Nat) (st : Store) (a : Nat) : State :=
  if st.cached then
    let k := lineKey core st a
    let v := s.lineOf core st a
    let s' := if s.rcache.has k then s else s.makeRoom core
    { s' with rcache := s'.rcache.set k v }
  else match st with
    | .ethes _ => { s with fresh := s.fresh + 1 }
    | _ => s

/-- The core's own copy of a line takes n bytes (R110). -/
def refresh (s : State) (core : Nat) (st : Store) (a n v : Nat) : State :=
  match s.rcache.get? (lineKey core st a) with
  | some l =>
    let o := 8 * (a % 128)
    let l' := l % 2 ^ o + 2 ^ o * (v % 2 ^ (8 * n)) + l / 2 ^ (o + 8 * n) * 2 ^ (o + 8 * n)
    { s with rcache := s.rcache.set (lineKey core st a) l' }
  | none => s

/-- A store by a core: memory, and the core's own copy of the line (R110). -/
def cstore (s : State) (core : Nat) (st : Store) (a n v : Nat) : State := (s.store st a n v).refresh core st a n v

/-- Every line of a core is stale (R110). -/
def stale (s : State) (core : Nat) : State :=
  { s with rcache := s.rcache.filter fun e => e.1 / 2 ^ 84 != core }

/-! Poison (R368, R378). -/

def poisonKey (p a : Nat) : Nat := 2 ^ 51 * p + a / 128
def bufPoisonKey (p a : Nat) : Nat := 2 ^ 51 * p + 2 ^ 50 + a / 128

/-- A line of a crew's window, of its leaders' cores or of their shadows' (R383). -/
def winPoisonKey (shadow : Bool) (c line : Nat) : Nat := 2 ^ 20 * c + (if shadow then 2 ^ 19 else 0) + line
def poisonedCopy (s : State) (shadow : Bool) (c a : Nat) : Bool := s.poisonWin.contains (winPoisonKey shadow c (a / 128))

def poisoned (s : State) (st : Store) (a : Nat) : Bool :=
  match st with
  | .cxl => s.poisonCxl.contains (a / 128)
  | .lode p => s.poisonLode.contains (poisonKey p a)
  | .buf p => s.poisonLode.contains (bufPoisonKey p a)
  | .window c => s.poisonedCopy false c a || s.poisonedCopy true c a
  | _ => false

/-- A write that covers a whole line clears its poison; a CXL line stays poisoned until it is written (R369, R378). -/
def clearPoison (s : State) (st : Store) (a n : Nat) : State :=
  match st with
  | .cxl => { s with poisonCxl := s.poisonCxl.filter fun l => !(a ≤ 128 * l + 127 && 128 * l < a + n) }
  | .lode p => { s with poisonLode := s.poisonLode.filter fun k =>
      !(k / 2 ^ 50 == 2 * p && a ≤ 128 * (k % 2 ^ 50) && 128 * (k % 2 ^ 50) + 128 ≤ a + n) }
  | .buf p => { s with poisonLode := s.poisonLode.filter fun k =>
      !(k / 2 ^ 50 == 2 * p + 1 && a ≤ 128 * (k % 2 ^ 50) && 128 * (k % 2 ^ 50) + 128 ≤ a + n) }
  | .window c => { s with poisonWin := s.poisonWin.filter fun k =>
      !(k / 2 ^ 20 == c && a ≤ 128 * (k % 2 ^ 19) && 128 * (k % 2 ^ 19) + 128 ≤ a + n) }
  | _ => s

/-! Ports (Table 24.2). -/

def portStat (s : State) (n : Nat) : PortStat := s.ports.getD n {}

/-- A line beyond a port, as portLine numbers it. -/
def portKey (st : Store) (a : Nat) : Nat := 2 ^ 64 * st.code + a / 128

/-- The line of host memory of a compare-and-swap, as portLine numbers it. -/
def casKey (a : Nat) : Nat := 2 ^ 64 * 50 + a / 128

end State

end Sys2Proof.Machine
end

