-- ==== Sys2Proof/Machine/Translate.lean ====
section
/-! DEFINITION. Translation: the buffer window, the six-level walk, the checks of a leaf, the A and D updates and the fault record (R97 to R104, R366, R367). -/

namespace Sys2Proof.Machine

/-- The kind of an access (R99). -/
structure Acc where
  fetch : Bool := false
  read : Bool := false
  write : Bool := false
  /-- A load or store instruction's access, which register space admits at 4 or 8 bytes. -/
  plain : Bool := false
  bytes : Nat := 1
  deriving DecidableEq, Repr

/-- The engine number that stands for the front stage and the Slot Unit in the caches and in XLFSTAT (R367). -/
def frontCore : Nat := 128

/-- A leaf's place and value. -/
structure Leaf where
  store : Store
  addr : Nat
  val : Nat
  level : Nat
  deriving DecidableEq, Repr

/-- Where an access goes: the store and the address, the leaf, the memory type, and the entries met. -/
structure XOk where
  store : Store
  addr : Nat
  leaf : Option Leaf := none
  mt : Nat := 0
  seen : FMap Nat := []
  deriving DecidableEq, Repr

abbrev XRes := Except XFail XOk

/-- Buffers of class c in the pool (Table 08.1). -/
def Part.poolCount (x : Part) (c : Nat) : Nat :=
  (if c < 4 then x.ppool0 else if c < 8 then x.ppool1 else x.ppool2).toNat / 2 ^ (16 * (c % 4)) % 65536

/-- The class of a physical buffer: ascending class, then ascending index (R164). -/
def Part.bufClass? (x : Part) (n : Nat) : Option Nat := go 0 n 12
where
  go (c n : Nat) : Nat → Option Nat
    | 0 => none
    | f + 1 => if n < x.poolCount c then some c else go (c + 1) (n - x.poolCount c) f

/-- Bytes of a buffer of class c (R51). -/
def classBytes (c : Nat) : Nat := 32768 * 2 ^ c

/-- The number of the first buffer of class c. -/
def Part.firstBuf (x : Part) (c : Nat) : Nat := ((List.range c).map x.poolCount).sum

/-- The bytes of a physical buffer; none beyond the pool. -/
def Part.bufBytes? (x : Part) (n : Nat) : Option Nat := (x.bufClass? n).map classBytes

/-- The cores of a partition (Table 08.1). -/
def Part.hasCore (x : Part) (c : Nat) : Bool :=
  if c < 64 then x.pcore0.getLsbD c else c < 128 && x.pcore1.getLsbD (c - 64)

/-- First address of the buffer window (R104). -/
def bufWindow : Nat := 0xFFFF00000000_00000000

def inBufWindow (va : Nat) : Bool := va / 2 ^ 56 == 0xFFFF00

/-- The window that holds a range (R102, R171). -/
def Part.windowOf (x : Part) (pa n : Nat) : Option PWindow :=
  x.windows.find? fun w => w.base ≤ pa && pa + n ≤ w.base + w.len

/-- The CXL port of an address of a pooled window: its 4 KiB units go round the window's ports, in ascending order (R171). -/
def Part.cxlPort (x : Part) (pa : Nat) : Option Nat :=
  (x.windowOf pa 1).bind fun w =>
    let ps := (List.range 12).filter fun n => w.ports.testBit n
    ps[(pa - w.base) / 4096 % ps.length]?

/-- The port of a store's address, numbered as PORTSTAT numbers it (Table 24.2). -/
def portOf (s : State) (p : Nat) (st : Store) (a : Nat) : Option Nat :=
  match st with
  | .cxl => (s.part p).cxlPort a
  | .host => some 12
  | .ethes l => some (13 + l)
  | _ => none

/-- The port carries nothing of the partition: it is down, or it has met an integrity failure on the partition's traffic (R376,
R389). -/
def stopped (s : State) (p : Nat) (st : Store) (a : Nat) : Bool :=
  match portOf s p st a with
  | some n => (s.portStat n).state = 2 || (st = .cxl && (s.part p).ideFail.getLsbD n)
  | none => false

/-- The store behind n bytes at a physical address, when they lie wholly in the range of R102. -/
def physStore (s : State) (p mt pa n : Nat) : Option (Store × Nat) :=
  let x := s.part p
  match mt with
  | 0 => if pa + n ≤ x.direct.toNat * 4096 then some (.lode p, pa) else none
  | 1 => (x.windowOf pa n).map fun w => if w.ethes then (.ethes w.link, w.target + (pa - w.base)) else (.cxl, pa)
  | 2 => if pa + n ≤ 2 ^ 58 then some (.host, pa) else none
  | _ => if pa + n ≤ 65536 then some (.mail p, pa) else none

/-- The low bit of a level's index (Table 05.2), which is also the page size of a leaf there. -/
def levelShift : Nat → Nat
  | 0 => 75
  | 1 => 63
  | 2 => 51
  | 3 => 39
  | 4 => 27
  | _ => 15

def levelIndex (va l : Nat) : Nat := va / 2 ^ levelShift l % (if l = 0 then 32 else 4096)

def pteKey (core : Nat) (st : Store) (a : Nat) : Nat := 2 ^ 84 * core + 2 ^ 64 * st.code + a

/-- The limit of a request has been reached (R368). -/
def atLimit (s : State) (p since : Nat) : Bool := since + 256 * (s.part p).iotmo.toNat ≤ s.clock

/-- The request of a clock has passed its limit (R368). -/
def pastLimit (s : State) (p since : Nat) : Bool := since + 256 * (s.part p).iotmo.toNat < s.clock

/-- The request that is made now can have been outstanding since a clock (R368; log 34). -/
def State.asking (s : State) (since : Nat) : State := { s with asker := since }

/-- What a port answers to a request of this clock: its error, or nothing, which ends a request that has reached its limit (R368;
log 34). -/
def portAnswer (s : State) (p key : Nat) : Option Nat :=
  (s.portLine.get? key).filter fun code => code != 0x0A02 || atLimit s p s.asker

/-- A read that fails where its data lies: CXL poison, an uncorrectable line, a port that refuses the reads of this clock or answers
none, a port that stopped carrying the partition (R368, R376, R378, R389). -/
def dataFailure (s : State) (p : Nat) (st : Store) (a : Nat) : Option Nat :=
  if s.poisoned st a then (match st with
    | .cxl => some 0x0A03
    | _ => some 0x0902)
  else match portAnswer s p (State.portKey st a) with
    | some code => some code
    | none => if stopped s p st a then some 0x0A02 else none

/-- CAUSE of a failed read of an entry (Table 23.2). -/
def readCause (code : Nat) : Nat :=
  if code = 0x0A03 then 10 else if code = 0x0A02 then 11 else if code = 0x0902 then 13 else 12

/-- The checks of a leaf for an access (R99). -/
def leafCheck (acc : Acc) (e mt : Nat) : Option (Nat × Nat) :=
  if acc.read && e / 4 % 2 = 0 then some (0x0302, 6)
  else if acc.write && e / 8 % 2 = 0 then some (0x0302, 7)
  else if acc.fetch && e / 16 % 2 = 0 then some (0x0302, 8)
  else if mt = 3 && !(acc.plain && (acc.bytes = 4 || acc.bytes = 8)) then some (0x0302, 9)
  else none

/-- The walk from a table on, level by level (R97 to R99). -/
def walk (s : State) (p core va : Nat) (acc : Acc) : List Nat → Nat → Nat → Nat → Nat → FMap Nat → XRes
  | [], _, _, lv, lp, _ => .error ⟨0x0301, 3, lv, lp⟩
  | l :: ls, mt, base, lv, lp, seen =>
    match physStore s p mt base 32768 with
    | none => .error ⟨0x0301, 5, lv, lp⟩
    | some (st, a0) =>
      let a := a0 + 8 * levelIndex va l
      let pa := base + 8 * levelIndex va l
      let key := pteKey core st a
      match (if s.ptes.has key then none else dataFailure s p st a) with
      | some code => .error ⟨code, readCause code, l, pa⟩
      | none =>
        let e := (s.ptes.get? key).getD (s.load st a 8)
        let seen := seen.set key e
        let ept := e / 2 ^ 5 % 4
        let epa := e / 2 ^ 15 % 2 ^ 43 * 2 ^ 15
        if e % 2 = 0 then .error ⟨0x0301, 0, l, pa⟩
        else if e / 2 ^ 10 % 32 ≠ 0 then .error ⟨0x0301, 1, l, pa⟩
        else if e / 2 % 2 = 1 then
          if l < 3 then .error ⟨0x0301, 2, l, pa⟩
          else if epa % 2 ^ levelShift l ≠ 0 then .error ⟨0x0301, 4, l, pa⟩
          else match physStore s p ept epa (2 ^ levelShift l) with
            | none => .error ⟨0x0301, 5, l, pa⟩
            | some (dst, d0) =>
              let off := va % 2 ^ levelShift l
              if ept = 3 && epa + off < 4096 then .error ⟨0x0301, 5, l, pa⟩
              else match leafCheck acc e ept with
                | some (code, cause) => .error ⟨code, cause, l, pa⟩
                | none => .ok ⟨dst, d0 + off, some ⟨st, a, e, l⟩, ept, seen⟩
        else if l = 5 then .error ⟨0x0301, 3, l, pa⟩
        else walk s p core va acc ls ept epa l pa seen

/-- Where a global access goes (R93, R104, Table 05.4). A fetch from the buffer window answers 0x0302 beyond the pool too: R104 gives no
order (log 124). -/
def resolve (s : State) (p core va : Nat) (acc : Acc) : XRes :=
  let x := s.part p
  if inBufWindow va then
    let off := va % 2 ^ 56
    if acc.fetch then .error { code := 0x0302 }
    else match x.bufBytes? (off / 2 ^ 26) with
      | none => .error { code := 0x0301 }
      | some n => if off % 2 ^ 26 + acc.bytes ≤ n then .ok { store := .buf p, addr := off } else .error { code := 0x0301 }
  else if x.rootInForce.en then
    walk s p core va acc [0, 1, 2, 3, 4, 5] x.rootInForce.mt.toNat (x.rootInForce.pa.toNat * 2 ^ 15) 0 0 []
  else .error { code := 0x0301, cause := 0 }

/-- The requester's place in the order of R367: its core, and there the quarter 0 to 3, the Hoist as 4, or the Spindle as 5. -/
def faultRank (core unit : Nat) : Nat := 8 * (if core < 128 then core else 127) + (if core < 128 then unit else 7)

/-- The record of a translation fault: the first to reach it, and of those of one clock the first in the order of R367. -/
def xlRecord (s : State) (p core unit va : Nat) (f : XFail) : State :=
  if f.cause = 16 then s
  else s.updPart p fun x =>
    if x.xlf.valid && !(x.xlf.clock = s.clock && faultRank core unit < x.xlf.rank) then { x with xlf := { x.xlf with more := true } }
    else { x with xlf := {
      valid := true
      more := x.xlf.more || x.xlf.valid
      clock := s.clock
      rank := faultRank core unit
      cause := BitVec.ofNat 4 f.cause
      level := BitVec.ofNat 3 f.level
      core := BitVec.ofNat 7 (if core < 128 then core else 127)
      pa := BitVec.ofNat 58 (f.pa / 8 * 8)
      va := BitVec.ofNat 80 va } }

/-- A core's cached translations of a partition go (R101). -/
def dropPtes (s : State) (core : Nat) : State := { s with ptes := s.ptes.filter fun e => e.1 / 2 ^ 84 != core }

def cachePtes (s : State) (seen : FMap Nat) : State :=
  { s with ptes := seen.foldl (fun m e => FMap.set m e.1 e.2) s.ptes }

/-- The A and D bits an access needs (R100). -/
def adBits (acc : Acc) : Nat := if acc.write then 0x300 else 0x200

/-- The bits of v that w sets too. -/
def orBits (v w : Nat) : Nat := v ||| w

/-- One attempt of the A and D update: the compare-and-swap of the leaf; none when it fails (R100). -/
def adTry (s : State) (acc : Acc) (core : Nat) (o : XOk) : Option State :=
  match o.leaf with
  | none => some s
  | some lf =>
    let s := cachePtes s o.seen
    if orBits lf.val (adBits acc) = lf.val then some s
    else if s.load lf.store lf.addr 8 = lf.val then
      let v := orBits lf.val (adBits acc)
      let s := s.store lf.store lf.addr 8 v
      some { s with ptes := s.ptes.set (pteKey core lf.store lf.addr) v }
    else none

/-- The compare-and-swap that sets bits of a leaf fails at its port: that carries nothing of the partition, or the host answers with an
error (R366, R373, R376, R389); CAUSE as for a read so answered (log 85). -/
def casRefused (s : State) (p bits : Nat) (o : XOk) : Option XFail :=
  match o.leaf with
  | some lf =>
    if orBits lf.val bits = lf.val then none
    else (if stopped s p lf.store lf.addr then some 0x0A02
      else if lf.store = .host then portAnswer s p (State.casKey lf.addr) else none).map fun code =>
        ⟨code, readCause code, lf.level, lf.addr⟩
  | none => none

/-- The access that a walk allows: the entries met are cached, and the A and D bits are set, unless their port refuses (R100, R366,
R376). -/
def granted (s : State) (p core : Nat) (acc : Acc) (o : XOk) : Except (XFail × State) (Option (State × XOk)) :=
  match casRefused s p (adBits acc) o with
  | some f => .error (f, cachePtes s o.seen)
  | none => .ok ((adTry s acc core o).map fun s' => (s', o))

/-- The A and D update of one access, with the fresh walk of R100 when the compare fails. -/
def touch (s : State) (p core va : Nat) (acc : Acc) : Except (XFail × State) (State × XOk) :=
  match resolve s p core va acc with
  | .error f => .error (f, s)
  | .ok o =>
    match granted s p core acc o with
    | .error e => .error e
    | .ok (some r) => .ok r
    | .ok none =>
      let s := dropPtes s core
      match resolve s p core va acc with
      | .error f => .error (f, s)
      | .ok o' => match granted s p core acc o' with
        | .error e => .error e
        | .ok r => .ok (r.getD (s, o'))

/-- XLINV's effect on the cores of a partition and its front stage (R101). -/
def invalidate (s : State) (p : Nat) : State :=
  let x := s.part p
  { s with ptes := s.ptes.filter fun e => !(e.1 / 2 ^ 84 == frontCore + p || x.hasCore (e.1 / 2 ^ 84)) }

end Sys2Proof.Machine
end

