-- ==== Sys2Proof/Machine/Operands.lean ====
section
/-! DEFINITION. Reading and writing the registers of a team, and the lanes that take part in an instruction (R6, R20, R21, R26, R192, R193, R203, R242). -/

namespace Sys2Proof.Machine

/-- The lanes of a mask below a count, ascending. -/
def lanesOf (n : Nat) (m : LaneMask) : List Nat := (List.range n).filter fun l => m.getLsbD l

/-- The mask of one lane. -/
def laneBit (l : Nat) : LaneMask := BitVec.ofNat 1024 (2 ^ l)

/-- The mask of listed lanes. -/
def maskOf (ls : List Nat) : LaneMask := ls.foldl (fun m l => m ||| laneBit l) 0

/-- The mask of lanes 0 to n - 1. -/
def maskBelow (n : Nat) : LaneMask := BitVec.ofNat 1024 (2 ^ n - 1)

/-- Lanes rounded up to a multiple of 32 (R26). -/
def roundLanes (n : Nat) : Nat := (n + 31) / 32 * 32

namespace Team

/-- Register r of a lane. -/
def v (t : Team) (r l : Nat) : Word := t.vregs.getD (1024 * r + l) 0
/-- Scalar register r. -/
def s (t : Team) (r : Nat) : DWord := t.sregs.getD r 0
/-- Predicate p as a mask of lanes; p0 is true (R20). -/
def p (t : Team) (n : Nat) : LaneMask := if n = 0 then BitVec.allOnes 1024 else t.preds.getD n 0
def join (t : Team) (n : Nat) : Join := t.joins.getD n {}

/-- Even pair of vector registers as 64 bits (R191). -/
def v64 (t : Team) (r l : Nat) : DWord := t.v (r + 1) l ++ t.v r l
/-- The 80-bit value of a scalar pair, when bits 63:16 of the odd register are zero (R94). -/
def pair? (t : Team) (r : Nat) : Option Nat :=
  let hi := (t.s (r + 1)).toNat
  if hi < 65536 then some ((t.s r).toNat + 2 ^ 64 * hi) else none

/-- Marks lanes of a register full: a write fills a register that a replay entry holds empty (R349). -/
def fillV (t : Team) (r : Nat) (m : LaneMask) : Team :=
  { t with
    emptyV := match t.emptyV.get? r with
      | some e => if e &&& ~~~m = 0 then t.emptyV.erase r else t.emptyV.set r (e &&& ~~~m)
      | none => t.emptyV
    heldV := match t.heldV.get? r with
      | some e => if e &&& ~~~m = 0 then t.heldV.erase r else t.heldV.set r (e &&& ~~~m)
      | none => t.heldV }

def fillS (t : Team) (r : Nat) : Team := { t with emptyS := t.emptyS.erase r, heldS := t.heldS.erase r }

/-- Writes one value per listed lane into a register. -/
def setV (t : Team) (r : Nat) (vals : List (Nat × Word)) : Team :=
  ({ t with vregs := vals.foldl (fun (m : FMap Word) (e : Nat × Word) => m.set (1024 * r + e.1) e.2) t.vregs }).fillV r (maskOf (vals.map Prod.fst))

/-- Writes a pair per listed lane (R191). -/
def setV64 (t : Team) (r : Nat) (vals : List (Nat × DWord)) : Team :=
  (t.setV r (vals.map fun e => (e.1, e.2.extractLsb' 0 32))).setV (r + 1) (vals.map fun e => (e.1, e.2.extractLsb' 32 32))

def setS (t : Team) (r : Nat) (x : DWord) : Team := ({ t with sregs := t.sregs.set r x }).fillS r

/-- The team has read, or waited for others, in this clock: it can have seen what they had written (R122). -/
def sees (t : Team) (clock : Nat) : Team := { t with readAt := some clock }

/-- Writes predicate n of the lanes of m; a write to p0 is discarded (R219). -/
def setP (t : Team) (n : Nat) (m vals : LaneMask) : Team :=
  if n = 0 then t else { t with preds := t.preds.set n ((t.p n &&& ~~~m) ||| (vals &&& m)) }

/-- The lanes a guard admits (R192). -/
def guard (t : Team) (g : BitVec 4) : LaneMask :=
  if g.toNat < 8 then t.p g.toNat else ~~~(t.p (g.toNat - 8))

/-- B/i of a vector form (R203). -/
def vb (t : Team) (b : VB) (l : Nat) : Word :=
  match b with
  | .reg r => t.v r.val l
  | .imm x => x
/-- B/i of an f64-capable form. -/
def vbf (t : Team) (ty : FTy) (b : VB) (l : Nat) : Nat :=
  match b, ty with
  | .reg r, .f32 => (t.v r.val l).toNat
  | .reg r, .f64 => (t.v64 r.val l).toNat
  | .imm x, _ => x.toNat
/-- A source of type f32 or f64 (R242). -/
def vf (t : Team) (ty : FTy) (r : VReg) (l : Nat) : Nat :=
  match ty with
  | .f32 => (t.v r.val l).toNat
  | .f64 => (t.v64 r.val l).toNat
/-- B/i of a form on scalars: EXTS(X, 32) to 64 bits (R203). -/
def sb (t : Team) (b : SB) : DWord :=
  match b with
  | .reg r => t.s r.val
  | .imm x => x.signExtend 64
/-- A C operand (R242). -/
def vc (t : Team) (x : VC) (l : Nat) : Word :=
  match x with
  | .v r => t.v r.val l
  | .s r => (t.s r.val).extractLsb' 0 32
/-- The C operand of DFMA: all 64 bits of a scalar (R242). -/
def vc64 (t : Team) (x : VC) (l : Nat) : DWord :=
  match x with
  | .v r => t.v64 r.val l
  | .s r => t.s r.val

/-- The running entry (R33). -/
def entry? (t : Team) : Option Entry :=
  match t.run with
  | some n => t.entries.find? fun e => e.ins == n
  | none => none

/-- Live lanes: in some entry (R33). -/
def live (t : Team) : LaneMask := t.entries.foldl (fun m e => m ||| e.mask) 0

/-- Lanes that are not in the team: they have exited, or the launch never had them (R23, R36, R217). -/
def gone (t : Team) : LaneMask := t.exited ||| ~~~maskBelow t.nlanes

/-- Lanes of a register that are empty. -/
def emptyOf (t : Team) (m : LaneMask) : Reg → Bool
  | .v r => (t.emptyV.getD r 0) &&& m != 0
  | .s r => t.emptyS.getD r false
/-- Lanes of a register that a producer is still to fill; those that a replay entry holds are not among them (R349). -/
def owedOf (t : Team) (m : LaneMask) : Reg → Bool
  | .v r => (t.emptyV.getD r 0) &&& ~~~(t.heldV.getD r 0) &&& m != 0
  | .s r => t.emptyS.getD r false && !t.heldS.getD r false
/-- Held empty by a replay entry in the handler (R349). -/
def heldOf (t : Team) (m : LaneMask) : Reg → Bool
  | .v r => (t.heldV.getD r 0) &&& m != 0
  | .s r => t.heldS.getD r false

/-- A register is beyond the allocation (R26). -/
def beyond (t : Team) : Reg → Bool
  | .v r => t.nregs ≤ r
  | .s _ => false

/-- Marks a register empty for the lanes of m: a producer fills them, and no replay entry holds them any more (R268, R349). -/
def markEmpty (t : Team) (m : LaneMask) : Reg → Team
  | .v r => { t with
      emptyV := t.emptyV.set r (t.emptyV.getD r 0 ||| m)
      heldV := match t.heldV.get? r with
        | some e => if e &&& ~~~m = 0 then t.heldV.erase r else t.heldV.set r (e &&& ~~~m)
        | none => t.heldV }
  | .s r => { t with emptyS := t.emptyS.set r true, heldS := t.heldS.erase r }

end Team


end Sys2Proof.Machine

namespace Sys2Proof
open Machine

/-- Every register a form names. -/
def Form.regs (f : Form) : List Reg :=
  f.srcA.getD [] ++ f.srcB.getD [] ++ f.srcC.getD [] ++ f.data ++ f.dst

/-- Sources with their FE bit; ONCE reads every one as 0 (R193, Table 21.2). -/
def Form.sources (f : Form) (once : Bool) : List (Bool × Reg) :=
  let fe := if once then 0 else f.ctl.fe
  (f.srcA.getD []).map (fun r => (fe.getLsbD 0, r)) ++ (f.srcB.getD []).map (fun r => (fe.getLsbD 1, r)) ++
  (f.srcC.getD []).map (fun r => (fe.getLsbD 2, r)) ++ f.data.map (fun r => (false, r))

/-- A register still to be filled that the form waits for: a source with FE 0, or a destination (R28, R29), in a lane of its entry; a
source of ZIP in another lane of the band is read as it stands (log 115). A register held by a replay entry is not waited for (R349). -/
def Form.waitsFor (f : Form) (t : Machine.Team) (m : LaneMask) (once : Bool) : Bool :=
  (f.sources once).any (fun x => !x.1 && t.owedOf m x.2) || f.dst.any (t.owedOf m)

/-- EMPTY_READ: a source with FE 1 that is empty in some active lane, or one held by a replay entry (R193, R349). -/
def Form.emptyRead (f : Form) (t : Machine.Team) (m : LaneMask) (once : Bool) : Bool :=
  (f.sources once).any fun x => (x.1 && t.emptyOf m x.2) || t.heldOf m x.2

end Sys2Proof

namespace Sys2Proof.Machine

/-- An entry of a partition's window (R46). -/
def State.entryOf (s : State) (p seq : Nat) : Option WinEntry := (s.part p).window.find? fun e => e.seq == seq

/-- The LAUNCH of a team. -/
def launchOf (s : State) (c : Crew) : Option WinEntry := s.entryOf c.part c.seq

/-- The current core of a team. -/
def Team.core (t : Team) : Nat := t.quarter / 4

/-- Bytes of segment k of a window over n cores: consecutive segments of ⌈size / (512·n)⌉·512 bytes, the last the rest (R24). -/
def segment (size n k : Nat) : Nat × Nat :=
  let each := (size + 512 * n - 1) / (512 * n) * 512
  let a := min (each * k) size
  (a, if k + 1 = n then size - a else min each (size - a))

namespace Crew

/-- The segment of a core: start and bytes (R24). -/
def seg (c : Crew) (core : Nat) : Nat × Nat :=
  match c.cores.findIdx? (· == core) with
  | some k => segment c.winBytes c.cores.length k
  | none => (0, 0)

end Crew

end Sys2Proof.Machine
end

