-- ==== Sys2Proof/Machine/Flags.lean ====
section
/-! DEFINITION. Comparisons and the predicate results they give (R224, R238, R246); the device has no flags register (R72). -/

namespace Sys2Proof

/-- A comparison of two words of equal width (R224). -/
def CC.eval {w : Nat} (cc : CC) (a b : BitVec w) : Bool :=
  match cc with
  | .eq => a == b
  | .ne => a != b
  | .lt => a.slt b
  | .le => a.sle b
  | .gt => b.slt a
  | .ge => b.sle a
  | .ltn => a.ult b
  | .len => a.ule b
  | .gtn => b.ult a
  | .gen => b.ule a

end Sys2Proof

namespace Sys2Proof.Machine

/-- FCMP's conditions (R246). -/
inductive FCC where
  | eq | ne | lt | le | gt | ge | unord | ord
  deriving DecidableEq, Repr

def FCC.eval (cc : FCC) (a b : FVal) : Bool :=
  let nan := a.isNaN || b.isNaN
  match cc with
  | .eq => a.eq b
  | .ne => nan || !a.eq b
  | .lt => a.lt b
  | .le => !nan && !b.lt a
  | .gt => b.lt a
  | .ge => !nan && !a.lt b
  | .unord => nan
  | .ord => !nan

/-- The lanes of a list whose result is true. -/
def predMask (ls : List Nat) (f : Nat → Bool) : LaneMask := maskOf (ls.filter f)

/-- PLOP's operations (R225). -/
inductive PlopOp where
  | and | or | xor | andn | not | mov
  deriving DecidableEq, Repr

def PlopOp.eval (op : PlopOp) (a b : LaneMask) : LaneMask :=
  match op with
  | .and => a &&& b
  | .or => a ||| b
  | .xor => a ^^^ b
  | .andn => a &&& ~~~b
  | .not => ~~~a
  | .mov => a

end Sys2Proof.Machine
end

