-- ==== Sys2Proof/Machine/Frontier.lean ====
section
/-! DEFINITION. The frontier table: blocks and their headers, the next PC, arrival at a block, and selection (R33 to R35, R188 to R190, R209). -/

namespace Sys2Proof.Machine

/-- COUNT of a block header (Table 10.1). -/
def Block.count (b : Block) : Nat := b.bits % 8
/-- The instruction word of a slot (R188). -/
def Block.word (b : Block) (slot : Nat) : Nat := b.bits / 2 ^ (32 + 96 * slot) % 2 ^ 96

/-- The block check: CRC-16, polynomial 0x1021, initial value 0, each byte most significant bit first (R185). -/
def crcByte (c : Nat) (b : Byte) : Nat := go 8 ((c ^^^ (b.toNat * 256)) % 65536)
where
  go : Nat → Nat → Nat
    | 0, c => c
    | n + 1, c => go n (if c / 32768 % 2 = 1 then (c * 2 % 65536) ^^^ 0x1021 else c * 2 % 65536)
def crc16 (bs : List Byte) : Nat := bs.foldl crcByte 0

/-- Bytes 4 to 63 of a block. -/
def Block.body (b : Block) : List Byte := (List.range 60).map fun j => BitVec.ofNat 8 (b.bits / 2 ^ (32 + 8 * j))

/-- A block of a core: the first of the codes of R190 that applies. -/
def Block.coreFault (b : Block) : Option Nat :=
  if b.count = 0 || 5 < b.count || b.bits / 16 % 2 = 1 || b.bits / 32 % 2048 ≠ 0 then some 0x0104
  else if b.bits / 65536 % 65536 ≠ crc16 b.body then some 0x0903
  else none

/-- Sixty-four bytes further (R189); the space wraps (log 10). -/
def nextBlock (a : VAddr) : VAddr := a + 64

/-- The PC after a slot, in the fetched block (R189, R209). -/
def Team.nextPC (t : Team) (pc : PC) : PC :=
  match t.block with
  | some b => if b.addr = pc.blk && pc.slot + 1 < b.count then ⟨pc.blk, pc.slot + 1⟩ else ⟨nextBlock pc.blk, 0⟩
  | none => ⟨nextBlock pc.blk, 0⟩

/-- ENTRY of the block at an address, as it stands in memory when lanes arrive (Table 10.1; log 13). -/
def State.entryBit (s : State) (p core : Nat) (a : VAddr) : Bool :=
  match resolve s p core a.toNat { fetch := true, bytes := 64 } with
  | .ok o => s.load o.store o.addr 1 / 8 % 2 == 1
  | .error _ => false

/-- The PC after a slot whose block need not be the fetched one: COUNT as it stands in memory (log 13). -/
def State.nextPC (s : State) (p core : Nat) (t : Team) (pc : PC) : PC :=
  match t.block with
  | some b => if b.addr = pc.blk then t.nextPC pc else fromMemory
  | none => fromMemory
where
  fromMemory : PC :=
    match resolve s p core pc.blk.toNat { fetch := true, bytes := 64 } with
    | .ok o => if pc.slot + 1 < s.load o.store o.addr 1 % 8 then ⟨pc.blk, pc.slot + 1⟩ else ⟨nextBlock pc.blk, 0⟩
    | .error _ => ⟨nextBlock pc.blk, 0⟩

/-- A new entry behind those at its PC (R34). -/
def Team.insert (t : Team) (pc : PC) (m : LaneMask) (back : Bool) : Team :=
  { t with entries := t.entries ++ [{ ins := t.nextIns, pc, mask := m, back }], nextIns := t.nextIns + 1 }

/-- Lanes arrive at a PC: at slot 0 of a block with ENTRY they join the entry that waits there, unless it waits at a RET (R34). -/
def Team.arrive (t : Team) (entry : VAddr → Bool) (pc : PC) (m : LaneMask) (back : Bool) : Team :=
  match t.entries.find? (fun e => e.pc == pc && e.hold != .ret) with
  | some w =>
    if pc.slot = 0 && entry pc.blk then
      { t with entries := t.entries.map fun e =>
          if e.ins = w.ins then { e with mask := e.mask ||| m, back := e.back || back } else e }
    else t.insert pc m back
  | none => t.insert pc m back

/-- Selection order: lowest PC, then the earlier inserted (R33). -/
def Entry.before (a b : Entry) : Bool := a.pc.lt b.pc || (a.pc == b.pc && a.ins < b.ins)

def Entry.insertSorted (e : Entry) : List Entry → List Entry
  | [] => [e]
  | x :: xs => if e.before x then e :: x :: xs else x :: Entry.insertSorted e xs

/-- The entries in selection order. -/
def sortEntries (es : List Entry) : List Entry := es.foldl (fun l e => e.insertSorted l) []

/-- The entry the scheduler selects: not held, and behind every other while a YIELD puts it back (R33, R35). -/
def Team.choose (t : Team) : Option Entry :=
  let sel := (sortEntries t.entries).filter fun e => e.hold == .none
  match sel.find? fun e => !e.back with
  | some e => some e
  | none => sel.head?

/-- The scheduler selects; a YIELD counts for one selection, and the block is fetched anew (R33, R35, R190). -/
def Team.select (t : Team) : Team :=
  match t.choose with
  | some e => { t with run := some e.ins, block := none, entries := t.entries.map fun x => { x with back := false } }
  | none => t

end Sys2Proof.Machine
end

