-- ==== Sys2Proof/Machine/Sfu.lean ====
section
/-! DEFINITION. The special-function unit: the special values and the bounds of Table 04.3. A result the table does not fix is the free value Config.sfu, kept within the bound (R78; log 11). -/

namespace Sys2Proof.Machine.Sfu

/-- Fixed point of 256 fractional bits. -/
def one : Nat := 2 ^ 256

/-- ln 2 in fixed point. -/
def ln2 : Nat := 80260960185991308862233904206310070533990667611589946606122867505419956976171

/-- π with 512 fractional bits. -/
def pi512 : Nat := 42121870893450636219446821484559388105255997313489254605594685088103805782276098919793885372247726346443771296916333485327292916625599161542353774203832599

/-- Σ y^k / k! from a term on, in fixed point. -/
def expSum (y : Nat) : Nat → Nat → Nat → Nat
  | 0, _, _ => 0
  | f + 1, k, t => t + expSum y f (k + 1) (t * y / one / k)

/-- e^y for y in fixed point below 64. -/
def exp (y : Nat) : Nat := expSum y 240 1 one

/-- Σ (−1)^k y^(2k+j) / (2k+j)! from a term on. -/
def trigSum (y : Nat) : Nat → Nat → Bool → Nat → Int
  | 0, _, _, _ => 0
  | f + 1, k, neg, t =>
    (if neg then -(t : Int) else t) + trigSum y f (k + 2) (!neg) (t * y / one * y / one / ((k + 1) * (k + 2)))

/-- Σ z^(2k+1) / (2k+1) from a term on. -/
def atanhSum (z : Nat) : Nat → Nat → Nat → Nat
  | 0, _, _ => 0
  | f + 1, k, t => t / k + atanhSum z f (k + 2) (t * z / one * z / one)

/-- ln t for t from 1 to 2, in fixed point. -/
def ln (t : Nat) : Nat := 2 * atanhSum ((t - one) * one / (t + one)) 90 1 ((t - one) * one / (t + one))

/-- The integer square root, bit by bit. -/
def isqrt (n : Nat) : Nat → Nat → Nat
  | 0, r => r
  | f + 1, r => if (r + 2 ^ f) * (r + 2 ^ f) ≤ n then isqrt n f (r + 2 ^ f) else isqrt n f r

/-- m · 2^e in fixed point. -/
def fixed (m : Nat) (e : Int) : Nat := if 0 ≤ e + 256 then m * 2 ^ (e + 256).toNat else m / 2 ^ (-(e + 256)).toNat

/-- The remainder of a magnitude by 2π, in fixed point. The argument is exact: π is held to 512 bits. -/
def mod2pi (m : Nat) (e : Int) : Nat := (m * 2 ^ (e + 512).toNat % (2 * pi512)) / 2 ^ 256

/-- The exact function value of a finite nonzero operand in fixed point, sign in front (Table 04.3). The error of the
enclosure is far below any bound of the table. -/
def value (fn : SfuFn) (neg : Bool) (m : Nat) (e : Int) : Int :=
  match fn with
  | .exp2 =>
    let x := fixed m e
    if neg then
      let n := (x + one - 1) / one
      (exp ((n * one - x) * ln2 / one) / 2 ^ n : Nat)
    else (exp (x % one * ln2 / one) * 2 ^ (x / one) : Nat)
  | .log2 =>
    let l := bitLen m - 1
    let t := m * 2 ^ 256 / 2 ^ l
    (e + l) * one + ((ln t * one / ln2 : Nat) : Int)
  | .rcp =>
    let v : Int := (one * one / fixed m e : Nat)
    if neg then -v else v
  | .sqrt => (isqrt (fixed m e * one) 320 0 : Nat)
  | .rsq => (isqrt (one * one * one / fixed m e) 400 0 : Nat)
  | .sin =>
    let v := trigSum (mod2pi m e) 120 1 false (mod2pi m e)
    if neg then -v else v
  | .cos => min (trigSum (mod2pi m e) 120 0 false one) (one - 1)
  | .tanh =>
    let v : Int := if 20 * one ≤ fixed m e then (one : Int) - 1
      else ((exp (2 * fixed m e) - one) * one / (exp (2 * fixed m e) + one) : Nat)
    if neg then -v else v

/-- An f32 in fixed point. -/
def ofF32 (w : Word) : Option Int :=
  match FFmt.f32.val w.toNat with
  | .fin neg m e => some (if neg then -(fixed m e : Int) else fixed m e)
  | _ => none

/-- The ulp of f32 at a value, in fixed point (R78). -/
def ulp (v : Int) : Nat :=
  let l := bitLen v.natAbs
  2 ^ max (l - 24) 107

/-- The bound of Table 04.3 at a value of the function and an operand in fixed point. -/
def bound (fn : SfuFn) (x : Nat) (v : Int) : Nat :=
  match fn with
  | .exp2 | .rsq => 2 * ulp v
  | .log2 => if one ≤ 2 * x && x ≤ 2 * one then max (2 * ulp v) (2 ^ 234) else 2 * ulp v
  | .rcp | .sqrt => ulp v
  | .sin | .cos => 2 ^ 235
  | .tanh => max (2 * ulp v) (2 ^ 235)

/-- A candidate is a finite f32 within the bound. -/
def within (fn : SfuFn) (x : Nat) (v : Int) (c : Word) : Bool :=
  match ofF32 c with
  | some y => (y - v).natAbs ≤ bound fn x v
  | none => false

/-- The f32 nearest to a value in fixed point. -/
def nearest (v : Int) : Word := BitVec.ofNat 32 (FFmt.f32.round .rne (.fin (v < 0) v.natAbs (-256)))

/-- The result on a finite nonzero operand in the function's domain. -/
def general (fn : SfuFn) (a : Word) (neg : Bool) (m : Nat) (e : Int) : Word :=
  let v := value fn neg m e
  if (fixed (2 ^ 24 - 1) 104 : Int) < v then 0x7F800000
  else if v < -(fixed (2 ^ 24 - 1) 104 : Int) then 0xFF800000
  else if 0 < v && v < 2 ^ 106 then 0
  else if v < 0 && -(2 ^ 106) < v then 0x80000000
  else
    let c := Config.sfu fn a
    if within fn (fixed m e) v c then c else nearest v

/-- SFU.fn of an f32 (Table 04.3). -/
def eval (fn : SfuFn) (a : Word) : Word :=
  match FFmt.f32.val a.toNat with
  | .nan => 0x7FC00000
  | .inf neg => match fn with
    | .exp2 => if neg then 0 else 0x7F800000
    | .log2 | .sqrt => if neg then 0x7FC00000 else 0x7F800000
    | .rcp => if neg then 0x80000000 else 0
    | .rsq => if neg then 0x7FC00000 else 0
    | .sin | .cos => 0x7FC00000
    | .tanh => if neg then 0xBF800000 else 0x3F800000
  | .fin neg m e =>
    if m = 0 then match fn with
      | .exp2 | .cos => let c := Config.sfu fn a
        if within fn 0 one c then c else 0x3F800000
      | .log2 => 0xFF800000
      | .rcp | .rsq => if neg then 0xFF800000 else 0x7F800000
      | .sqrt | .sin | .tanh => a
    else match fn with
      | .log2 | .rsq | .sqrt => if neg then 0x7FC00000 else general fn a neg m e
      | .exp2 => if !neg && fixed 128 0 ≤ fixed m e then 0x7F800000
        else if neg && fixed 150 0 < fixed m e then 0
        else general fn a neg m e
      | _ => general fn a neg m e

end Sys2Proof.Machine.Sfu
end

