-- ==== Sys2Proof/Machine/Access.lean ====
section
/-! DEFINITION. Lane accesses: addresses, the checks of every participant before any effect, and the long-latency producers, which a trap replays from their captured operands (R94 to R96, R256, R265 to R273, R344, R350). -/

namespace Sys2Proof

def Order.acquires : Order → Bool
  | .acq | .ar => true
  | _ => false
def Order.releases : Order → Bool
  | .rel | .ar => true
  | _ => false

/-- Sign extension of the narrow widths to a number of bits (Table 10.12). -/
def Width.extend (w : Width) (bits v : Nat) : Nat :=
  match w with
  | .i8 => if v < 128 then v else v + 2 ^ bits - 256
  | .i16 => if v < 32768 then v else v + 2 ^ bits - 65536
  | _ => v

/-- The parts of an ATOM or RED (R272, R273). -/
structure AtomForm where
  op : AOp
  wide : Bool
  uns : Bool
  m : MemOp
  x : VC
  ret : Bool
  deriving DecidableEq, Repr

def Instr.atomForm : Instr → Option AtomForm
  | .atomAdd _ w u _ m x => some ⟨.red .add, w, u, m, x, true⟩
  | .atomMin _ w u _ m x => some ⟨.red .min, w, u, m, x, true⟩
  | .atomMax _ w u _ m x => some ⟨.red .max, w, u, m, x, true⟩
  | .atomAnd _ w u _ m x => some ⟨.red .and, w, u, m, x, true⟩
  | .atomOr _ w u _ m x => some ⟨.red .or, w, u, m, x, true⟩
  | .atomXor _ w u _ m x => some ⟨.red .xor, w, u, m, x, true⟩
  | .atomSwap _ w u _ m x => some ⟨.swap, w, u, m, x, true⟩
  | .atomCas _ w u _ m x => some ⟨.cas, w, u, m, x, true⟩
  | .atomFadd _ w _ m x => some ⟨.red .fadd, w, false, m, x, true⟩
  | .red _ op w u m x => some ⟨.red op, w, u, m, x, false⟩
  | _ => none

/-- The destinations of a form. -/
def Instr.dsts (i : Instr) : List Reg :=
  match i.form with
  | some f => f.dst
  | none => []

/-- The function of an SFU form. -/
def Instr.sfu : Instr → Option SfuFn
  | .sfuExp2 _ _ _ => some .exp2
  | .sfuLog2 _ _ _ => some .log2
  | .sfuRcp _ _ _ => some .rcp
  | .sfuRsq _ _ _ => some .rsq
  | .sfuSqrt _ _ _ => some .sqrt
  | .sfuSin _ _ _ => some .sin
  | .sfuCos _ _ _ => some .cos
  | .sfuTanh _ _ _ => some .tanh
  | _ => none

/-- The space that a producer reads (R93). -/
def Instr.space (i : Instr) : Space :=
  match i with
  | .ld _ _ _ m => m.space
  | .lds _ _ _ sp _ _ _ => sp
  | _ => match i.atomForm with
    | some f => f.m.space
    | none => .g

end Sys2Proof

namespace Sys2Proof.Machine

/-- A fault of an instruction: its code, the lane and address the frame reports, and the failed walk that the record keeps
(R345, R365, R367). -/
structure Trap where
  code : Nat
  lane : Nat := 0
  addr : Option Nat := none
  walk : Option (Nat × XFail) := none
  /-- It is the held fault of a spill or of a refill (Table 21.2). -/
  spill : Bool := false
  deriving DecidableEq, Repr

/-- Who issues, and for which lanes: the team, its crew, its running entry, and the participants (R192, R265). -/
structure Ctx where
  tid : Nat
  t : Team
  crew : Crew
  e : Entry
  /-- H[7] of the instruction (R194). -/
  spin : Bool
  m : LaneMask
  ls : List Nat
  deriving DecidableEq, Repr

def Ctx.part (c : Ctx) : Nat := c.crew.part
def Ctx.core (c : Ctx) : Nat := c.t.core

/-- A participant's access that passed its checks. -/
structure Spot where
  lane : Nat
  va : Nat
  ok : XOk
  deriving DecidableEq, Repr

/-- The base of an address: an 80-bit pair, or bits 31:0 of a register (R94, R265). -/
def Team.base? (t : Team) (sp : Space) (r : SReg) : Option Nat :=
  match sp with
  | .g => t.pair? r.val
  | _ => some ((t.s r.val).toNat % 2 ^ 32)

/-- Where an access of a space goes (R93, R95). -/
def reach (s : State) (c : Ctx) (sp : Space) (va : Nat) (acc : Acc) : XRes :=
  match sp with
  | .g => resolve s c.part c.core va acc
  | .w => if va + acc.bytes ≤ c.crew.winBytes then .ok { store := .window c.t.cid, addr := va } else .error { code := 0x0301 }
  | .l =>
    let g := c.crew.seg c.core
    if va + acc.bytes ≤ g.2 then .ok { store := .window c.t.cid, addr := g.1 + va } else .error { code := 0x0301 }

/-- The checks of one lane, in the order of R96, then the form's own check of the leaf. -/
def spot (s : State) (c : Ctx) (sp : Space) (base : Option Nat) (acc : Acc) (extra : XOk → Option Nat) (lane off : Nat) :
    Except Trap Spot :=
  match base with
  | none => .error { code := 0x0304, lane }
  | some b =>
    if sp = .g && 2 ^ 80 ≤ b + off then .error { code := 0x0304, lane, addr := some ((b + off) % 2 ^ 80) }
    else
      let va := if sp = .g then b + off else (b + off) % 2 ^ 32
      if va % acc.bytes ≠ 0 then .error { code := 0x0303, lane, addr := some va }
      else match reach s c sp va acc with
        | .error f => .error { code := f.code, lane, addr := some va, walk := some (va, f) }
        | .ok o => match extra o with
          | some code => .error { code, lane, addr := some va }
          | none => .ok ⟨lane, va, o⟩

/-- Every participant in ascending order; the lowest failing one is reported (R96, R266). -/
def spots (s : State) (c : Ctx) (sp : Space) (base : Option Nat) (acc : Acc) (extra : XOk → Option Nat) :
    List (Nat × Nat) → Except Trap (List Spot)
  | [] => .ok []
  | (lane, off) :: l =>
    match spot s c sp base acc extra lane off with
    | .error e => .error e
    | .ok x => match spots s c sp base acc extra l with
      | .error e => .error e
      | .ok xs => .ok (x :: xs)

/-- The A and D updates, once every participant has passed (R100, R266). A compare that fails walks and checks again. -/
def commit (s : State) (c : Ctx) (sp : Space) (acc : Acc) (extra : XOk → Option Nat) :
    List Spot → Except (Trap × State) (State × List Spot)
  | [] => .ok (s, [])
  | x :: l =>
    if sp = .g && x.ok.leaf.isSome then
      match touch s c.part c.core x.va acc with
      | .error (f, s') => .error ({ code := f.code, lane := x.lane, addr := some x.va, walk := some (x.va, f) }, s')
      | .ok (s', o) => match extra o with
        | some code => .error ({ code, lane := x.lane, addr := some x.va }, s')
        | none => match commit s' c sp acc extra l with
          | .error e => .error e
          | .ok (s'', xs) => .ok (s'', { x with ok := o } :: xs)
    else match commit s c sp acc extra l with
      | .error e => .error e
      | .ok (s'', xs) => .ok (s'', x :: xs)

/-- Checks and updates of an access of several lanes. -/
def accesses (s : State) (c : Ctx) (sp : Space) (base : Option Nat) (acc : Acc) (extra : XOk → Option Nat)
    (offs : List (Nat × Nat)) : Except (Trap × State) (State × List Spot) :=
  match spots s c sp base acc extra offs with
  | .error e => .error (e, s)
  | .ok xs => commit s c sp acc extra xs

/-- An acquire at crew, partition or system scope marks the core's read cache stale (R110). -/
def acquire (s : State) (core : Nat) (sc : Scope) : State :=
  match sc with
  | .team | .core => s
  | .crew | .part | .sys => s.stale core

/-- A line that the read cache holds is not read again (R110). -/
def readFailure (s : State) (p core : Nat) (st : Store) (a : Nat) : Option Nat :=
  if s.rcache.has (State.lineKey core st a) then none else dataFailure s p st a

/-- What the accesses of a load find: the value of each lane, or the code with which its part fails (R269, R369). -/
def sample (s : State) (p core n : Nat) : List Spot → State × FMap Nat × FMap (Nat × Nat)
  | [] => (s, [], [])
  | x :: l =>
    match readFailure s p core x.ok.store x.ok.addr with
    | some code =>
      let r := sample s p core n l
      (r.1, r.2.1, r.2.2.set x.lane (code, x.va))
    | none =>
      let v := s.cload core x.ok.store x.ok.addr n
      let r := sample (s.fill core x.ok.store x.ok.addr) p core n l
      (r.1, r.2.1.set x.lane v, r.2.2)

/-- A store that lies beyond a port (R368). -/
def Store.outside : Store → Bool
  | .cxl | .host | .ethes _ => true
  | _ => false

/-- The lanes whose read leaves through a port; a line of the read cache does not (R110, R368). -/
def outLanes (s : State) (core : Nat) (xs : List Spot) : LaneMask :=
  maskOf ((xs.filter fun x => x.ok.store.outside && !s.rcache.has (State.lineKey core x.ok.store x.ok.addr)).map Spot.lane)

/-- A signed reading of w bits. -/
def signedNat (bits v : Nat) : Int := if v < 2 ^ (bits - 1) then v else (v : Int) - 2 ^ bits

/-- The new value of a location under an operation of 4 or 8 bytes; none when CAS writes nothing (R272). -/
def atomValue (op : AOp) (wide uns : Bool) (old c n : Nat) : Option Nat :=
  let bits := if wide then 64 else 32
  let lt := fun a b => if uns then decide (a < b) else decide (signedNat bits a < signedNat bits b)
  match op with
  | .red .add => some ((old + c) % 2 ^ bits)
  | .red .min => some (if lt c old then c else old)
  | .red .max => some (if lt old c then c else old)
  | .red .and => some (old &&& c)
  | .red .or => some (old ||| c)
  | .red .xor => some (old ^^^ c)
  | .red .fadd => some ((if wide then FFmt.f64 else FFmt.f32).add .rne old c)
  | .swap => some c
  | .cas => if old = c then some n else none

/-- The same for a form. -/
def atomNew (f : AtomForm) (old c n : Nat) : Option Nat := atomValue f.op f.wide f.uns old c n

/-- The C operand of a lane, and CAS's new value (R272). -/
def atomOperands (f : AtomForm) (t : Team) (lane : Nat) : Nat × Nat :=
  match f.x with
  | .v r => if f.wide then ((t.v64 r.val lane).toNat, (t.v64 (r.val + 2) lane).toNat)
    else ((t.v r.val lane).toNat, (t.v (r.val + 1) lane).toNat)
  | .s r => if f.wide then ((t.s r.val).toNat, (t.s (r.val + 1)).toNat)
    else ((t.s r.val).toNat % 2 ^ 32, (t.s (r.val + 1)).toNat % 2 ^ 32)

def atomBytes (f : AtomForm) : Nat := if f.wide then 8 else 4

/-- Host memory carries only ADD, SWAP and CAS, and no page with AU set (R125). -/
def hostCheck (f : AtomForm) (o : XOk) : Option Nat :=
  if o.mt = 2 && o.store = .host then
    let kind := match f.op with
      | .red .add | .swap | .cas => true
      | _ => false
    let au := match o.leaf with
      | some lf => lf.val / 128 % 2 == 1
      | none => false
    if kind && !au then none else some 0x0401
  else none

/-- A write that has left through a CXL port or an Ethes link waits for its completion (R138, R370); s is the state after it. -/
def outWrite (s : State) (t : Team) (x : Spot) (n old v : Nat) : Team :=
  match x.ok.store with
  | .cxl => { t with
      writes := t.writes.set t.nextWrite
        { addr := x.va, len := n, pa := some x.ok.addr, old, val := v, since := s.clock, mark := s.cxlLog.length }
      nextWrite := t.nextWrite + 1 }
  | .ethes _ => { t with
      writes := t.writes.set t.nextWrite { addr := x.va, len := n, val := v, since := s.clock }
      nextWrite := t.nextWrite + 1 }
  | _ => t

/-- A write of a team fails at once; the first instruction that waits for it reports it (R370). -/
def Team.lostWrite (t : Team) (va code : Nat) : Team :=
  { t with writes := t.writes.set t.nextWrite { addr := va, failed := some code }, nextWrite := t.nextWrite + 1 }

/-- A store of one lane (R270). A port that carries nothing of the partition fails the write; one to host memory is lost, as posted
writes are (R370, R376, R389). -/
def storeSpot (s : State) (p core tid n : Nat) (x : Spot) (v : Nat) : State :=
  if stopped s p x.ok.store x.ok.addr then
    if x.ok.store = .host then s else s.updTeam tid fun t => t.lostWrite x.va 0x0A02
  else
    let old := s.load x.ok.store x.ok.addr n
    let s := (s.cstore core x.ok.store x.ok.addr n v).clearPoison x.ok.store x.ok.addr n
    s.updTeam tid fun t => outWrite s t x n old v

/-- A team meets an uncorrectable value: it stops with no trap, and the end of the clock settles its LAUNCH (R343, Table 24.1;
log 86). -/
def loseTeam (s : State) (tid : Nat) (why : Lost) : State := s.updTeam tid fun t => { t with lost := t.lost.orElse fun _ => some why }

/-- The lines that a range touches, by their first addresses. -/
def linesOf (a n : Nat) : List Nat :=
  ((List.range (n / 128 + 2)).map fun j => a / 128 * 128 + 128 * j).filter fun l => n != 0 && decide (l < a + n)

/-- The first poisoned line of a range of a store. -/
def firstPoisoned (s : State) (st : Store) (a n : Nat) : Option Nat := (linesOf a n).find? (s.poisoned st)

/-- Some line of a range of a store is poisoned. -/
def rangePoisoned (s : State) (st : Store) (a n : Nat) : Bool := (firstPoisoned s st a n).isSome

/-- What a team meets in poisoned ranges of its crew's window: a value of the leaders' cores, or, where those are whole, of the shadows'
(R383, Table 24.1). -/
def lostIn (s : State) (cid : Nat) (rs : List (Nat × Nat)) : Lost :=
  .store !(rs.any fun r => (linesOf r.1 r.2).any (s.poisonedCopy false cid))

/-- The crew of a window. -/
def Store.cid : Store → Nat
  | .window c => c
  | _ => 0

/-- The line of an address. -/
def lineAddr (va : Nat) : Nat := va / 128 * 128

/-- What the operations of one ATOM or RED have done: the state, the old values, the lanes whose read failed, and what they left at a
peer's addresses, which later lanes of it see (R168, R272). -/
structure AtomRun where
  s : State
  vals : FMap Nat := []
  bad : FMap (Nat × Nat) := []
  peers : FMap Nat := []
  deriving DecidableEq, Repr

/-- A peer's address as a key. -/
def peerKey (o : XOk) : Option Nat :=
  match o.store with
  | .ethes l => some (2 ^ 64 * l + o.addr)
  | _ => none

/-- What a lane of an ATOM or RED reads: memory, or what an earlier lane of it left at a peer's address. Another read of a peer is
another one. -/
def AtomRun.read (r : AtomRun) (o : XOk) (n : Nat) : Nat × AtomRun :=
  match peerKey o with
  | none => (r.s.load o.store o.addr n, r)
  | some k => match r.peers.get? k with
    | some v => (v, r)
    | none => (r.s.load o.store o.addr n, { r with s := { r.s with fresh := r.s.fresh + 1 } })

/-- One lane's operation of an ATOM or RED: memory is read, and the core's copy of the aligned 8-byte part follows, which no access may see
in two halves (R110, R124, R125). -/
def atomSpot (r : AtomRun) (p core tid : Nat) (f : AtomForm) (x : Spot) (c n : Nat) : AtomRun :=
  let q := r.read x.ok (atomBytes f)
  let part := x.ok.addr / 8 * 8
  let s := q.2.s.refresh core x.ok.store part 8 (q.2.s.load x.ok.store part 8)
  let new := atomNew f q.1 c n
  { q.2 with
    s := match new with
      | some v => storeSpot s p core tid (atomBytes f) x v
      | none => s
    vals := q.2.vals.set x.lane q.1
    peers := match peerKey x.ok with
      | some k => q.2.peers.set k (new.getD q.1)
      | none => q.2.peers }

/-- The read part of a lane of an ATOM fails at its CXL port. Memory then stays as it was, so it is settled as the ATOM issues; its code
comes with the failure (R369; log 98). -/
def readFails (f : AtomForm) (k : Nat) (x : Spot) : Bool := f.ret && x.ok.store == .cxl && Config.freeBit k x.lane

/-- The lanes of an ATOM whose answer is still to come through a port: those of a peer, and those whose read part fails. What a lane has
done to pooled memory has been answered, and its write has a completion of its own (R138, R345, R369; log 98). -/
def atomOut (xs : List Spot) (vals : FMap Nat) : LaneMask :=
  maskOf ((xs.filter fun y => match y.ok.store with
    | .ethes _ => true
    | st => st.outside && !vals.has y.lane).map Spot.lane)

/-- One lane of an ATOM or RED, whose read part may fail: that of an ATOM fails as it arrives (R369); that of a RED at an uncorrectable
line loses the line or, of its core's window, the value (Table 24.1), and at a port fails as a write does (R370). -/
def atomLane (k : Nat) (r : AtomRun) (c : Ctx) (f : AtomForm) (x : Spot) (o : LaneOps) : AtomRun :=
  match dataFailure r.s c.part x.ok.store x.ok.addr with
  | none => if readFails f k x then r else atomSpot r c.part c.core c.tid f x o.c o.n
  | some code =>
    if f.ret then { r with bad := r.bad.set x.lane (code, x.va) }
    else { r with s :=
      if code ≠ 0x0902 then r.s.updTeam c.tid fun t => t.lostWrite x.va code
      else loseTeam r.s c.tid (if f.m.space = .g then .line 1 c.core (lineAddr x.va) else lostIn r.s x.ok.store.cid [(x.ok.addr, 1)]) }

/-- An atomic outside the crew windows and the bound D buffer (R381). -/
def outsideD (s : State) (c : Crew) (x : Spot) : Bool :=
  match x.ok.store with
  | .window _ => false
  | .buf _ => match launchOf s c with
    | some e => e.d != some (x.ok.addr / 2 ^ 26)
    | none => true
  | _ => true

/-- The value of a participant arrives: it fills the destinations of its lane (R268, R269, R271, R272). -/
def landed (t : Team) (i : Instr) (lane v : Nat) : Team :=
  let v := match i with
    | .ld _ w _ _ => w.extend 32 v
    | .lds _ w _ _ _ _ _ => w.extend 64 v
    | _ => v
  i.dsts.zipIdx.foldl (fun t e => match e.1 with
    | .v r => t.setV r [(lane, BitVec.ofNat 32 (v / 2 ^ (32 * e.2)))]
    | .s r => t.setS r (BitVec.ofNat 64 v)) t

/-- A producer issues: its destinations are empty for its lanes until their values arrive (R268, R344). -/
def produce (t : Team) (x : Producer) : Team :=
  let t := x.insn.dsts.foldl (fun t r => t.markEmpty x.lm r) t
  { t with producers := t.producers ++ [x] }

/-- The ways of a set that hold an entry of the crew with the key's tag (R106). -/
def tagWay (s : State) (core cid key : Nat) : Option Nat :=
  (List.range 4).find? fun w => match s.tags.get? (4096 * core + 4 * (key / 512 % 1024) + w) with
    | some g => g.tag == key / 512 && g.cid == cid
    | none => false

/-- The slot of the crew's entry for a key, or the miss code (R106). -/
def tagSlot (s : State) (core cid key : Nat) : Nat :=
  match tagWay s core cid key with
  | some w => match s.tags.get? (4096 * core + 4 * (key / 512 % 1024) + w) with
    | some g => g.slot
    | none => 0xFFFFFFFF
  | none => 0xFFFFFFFF

/-- Lanes and offsets of captured operands. -/
def offsets (ops : FMap LaneOps) : List (Nat × Nat) := ops.map fun e => (e.1, e.2.a)

/-- A producer performs from its captured operands, at issue and again at TRET (R256, R268 to R272, R350). -/
def perform (s : State) (c : Ctx) (i : Instr) (pc : PC) (base : Nat) (lm : LaneMask) (ops : FMap LaneOps) (handler : Bool) :
    Except (Trap × State) State :=
  let x : Producer := { insn := i, pc, base, lm, ops, vals := [], handler, since := s.clock }
  match i with
  | .ld _ w _ m =>
    match accesses s c m.space (some base) { read := true, plain := true, bytes := w.bytes } (fun _ => none) (offsets ops) with
    | .error e => .error e
    | .ok (s, xs) =>
      let out := outLanes s c.core xs
      let r := sample s c.part c.core w.bytes xs
      let s := if m.order.acquires then acquire r.1 c.core m.scope else r.1
      .ok (s.updTeam c.tid fun t => produce (t.sees s.clock) { x with vals := r.2.1, bad := r.2.2, out })
  | .lds _ w _ sp o sc _ =>
    match accesses s c sp (some base) { read := true, plain := true, bytes := w.bytes } (fun _ => none) [(0, 0)] with
    | .error e => .error e
    | .ok (s, xs) =>
      let out := outLanes s c.core xs
      let r := sample s c.part c.core w.bytes xs
      let s := if o.acquires then acquire r.1 c.core sc else r.1
      .ok (s.updTeam c.tid fun t => produce (t.sees s.clock) { x with vals := r.2.1, bad := r.2.2, out })
  | .tagTagq _ _ _ =>
    .ok (s.updTeam c.tid fun t => produce t { x with vals := ops.map fun (e : Nat × LaneOps) => (e.1, tagSlot s c.core c.t.cid e.2.a) })
  | _ => match i.sfu with
    | some fn =>
      .ok (s.updTeam c.tid fun t =>
        produce t { x with vals := ops.map fun (e : Nat × LaneOps) => (e.1, (Sfu.eval fn (BitVec.ofNat 32 e.2.a)).toNat) })
    | none => match i.atomForm with
      | none => .ok s
      | some f =>
        match accesses s c f.m.space (some base) { read := true, write := true, bytes := atomBytes f } (hostCheck f) (offsets ops) with
        | .error e => .error e
        | .ok (s, xs) =>
          let k := s.fresh
          let s := if f.ret && xs.any fun y => y.ok.store == .cxl then { s with fresh := k + 1 } else s
          let r := xs.foldl (fun r x => atomLane k r c f x (ops.getD x.lane {})) { s }
          let s := if f.m.order.acquires then acquire r.s c.core f.m.scope else r.s
          let far := xs.any fun y => outsideD s c.crew y
          let s := s.updTeam c.tid fun t => { t with didAtomic := t.didAtomic || far, readAt := some s.clock }
          .ok (if f.ret then s.updTeam c.tid fun t => produce t { x with vals := r.vals, bad := r.bad, out := atomOut xs r.vals } else s)

end Sys2Proof.Machine
end

