-- ==== Sys2Proof/Machine/Waits.lean ====
section
/-! DEFINITION. The waits of the forms that are not ready by themselves (R28, R29), and what they look at: barrier objects, batches, router rounds, queues. -/

namespace Sys2Proof

/-- The instructions that are releases (R122, R123, R138, R274, R288, R299). -/
def Instr.releases (i : Instr) : Bool :=
  match i with
  | .st _ _ _ m => m.order.releases
  | .fence _ mode _ => mode != .acq
  | .barArrive _ _ _ | .barArrivex _ _ _ _ | .nredPush _ _ _ => true
  | _ => match i.atomForm with
    | some f => f.m.order.releases
    | none => false

/-- The releases at system scope (R122, R138). -/
def Instr.sysRelease (i : Instr) : Bool :=
  match i with
  | .st _ _ _ m => m.order.releases && m.scope == .sys
  | .fence _ mode sc => mode != .acq && sc == .sys
  | _ => match i.atomForm with
    | some f => f.m.order.releases && f.m.scope == .sys
    | none => false

/-- A load or atomic that is an acquire (R110, R122). -/
def Instr.acquires (i : Instr) : Bool :=
  match i with
  | .ld _ _ _ m => m.order.acquires
  | .lds _ _ _ _ o _ _ => o.acquires
  | _ => match i.atomForm with
    | some f => f.m.order.acquires
    | none => false

/-- The instructions that access memory, or order accesses, and so stand after an earlier acquire (R122). -/
def Instr.touches (i : Instr) : Bool :=
  match i with
  | .ld _ _ _ _ | .lds _ _ _ _ _ _ _ | .st _ _ _ _ | .fence _ _ _
  | .hcopyCopy _ _ _ _ _ _ _ | .hcopyPlane _ _ _ _ _ _ _ _ _ | .hcopySplit _ _ _ _ _ _ _ _ _ _ | .hcopyMask _ _ _ _ _ _
  | .hcopyGather _ _ _ _ _ _ _ _ | .barArrive _ _ _ | .barArrivex _ _ _ _ | .barExpect _ _ _ _ | .barWait _ _ _ | .barWaitout _ _
  | .barTest _ _ _ _ | .mmp _ _ _ _ _ _ _ _ _ | .mms _ _ _ _ _ _ _ | .accLoad _ _ _ _ | .accOut _ _ _ _ _ _ _ _ _
  | .accSpill _ _ _ _ | .nredPush _ _ _ | .nredWait _ _ _ _ => true
  | _ => i.atomForm.isSome

/-- The instructions that wait for the team's earlier writes and report their failures: the releases, and the EXIT of the last lanes
(R138, R214, R370). -/
def Instr.waitsWrites (i : Instr) (lastExit : Bool) : Bool :=
  match i with
  | .exit _ => lastExit
  | _ => i.releases

/-- The instruction is one whose effect a mirrored leader holds for its shadow's signature; an ACC.SPILL is held in the Spindle (R384). -/
def Instr.signed (i : Instr) : Bool :=
  match i with
  | .st _ _ _ m => m.space == .g
  | .hcopyCopy _ _ _ _ _ _ _ | .hcopyPlane _ _ _ _ _ _ _ _ _ | .hcopySplit _ _ _ _ _ _ _ _ _ _ | .hcopyMask _ _ _ _ _ _
  | .hcopyGather _ _ _ _ _ _ _ _ | .nredPush _ _ _ | .exit _ => true
  | _ => match i.atomForm with
    | some f => f.m.space == .g
    | none => false

end Sys2Proof

namespace Sys2Proof.Machine

/-- A barrier object (Table 06.2). -/
structure Bar where
  gen : Nat
  overrun : Bool
  pending : Nat
  expected : Nat
  inbound : Nat
  outbound : Nat
  rest : Nat := 0
  deriving DecidableEq, Repr

/-- The fields of a stored object. The reserved bits are kept as they stand. -/
def Bar.ofNat (v : Nat) : Bar :=
  { gen := v % 16, overrun := v / 16 % 2 == 1, pending := v / 2 ^ 8 % 2 ^ 16, expected := v / 2 ^ 24 % 2 ^ 16
    inbound := v / 2 ^ 40 % 2 ^ 32, outbound := v / 2 ^ 72 % 2 ^ 32, rest := v / 2 ^ 104 * 8 + v / 32 % 8 }

def Bar.toNat (b : Bar) : Nat :=
  b.gen + (if b.overrun then 16 else 0) + b.rest % 8 * 32 + b.pending * 2 ^ 8 + b.expected * 2 ^ 24 + b.inbound * 2 ^ 40 +
  b.outbound * 2 ^ 72 + b.rest / 8 * 2 ^ 104

/-- The phase completes when PENDING and INBOUND are both zero (R132). -/
def Bar.settled (b : Bar) : Bar :=
  if b.pending = 0 && b.inbound = 0 then { b with gen := (b.gen + 1) % 16, pending := b.expected, inbound := 0 } else b

def Bar.arrive (b : Bar) : Bar := ({ b with pending := b.pending - 1 } : Bar).settled

/-- A counted chunk (R113, R132). -/
def Bar.land (b : Bar) (n : Nat) : Bar :=
  if b.inbound < n then ({ b with inbound := 0, overrun := true } : Bar).settled
  else ({ b with inbound := b.inbound - n } : Bar).settled
def Bar.readOut (b : Bar) (n : Nat) : Bar :=
  if b.outbound < n then { b with outbound := 0, overrun := true } else { b with outbound := b.outbound - n }

/-- The barrier that a register names, or the code of R287. -/
def barAddr (c : Ctx) (r : SReg) : Except Trap Nat :=
  let x := (c.t.s r.val).toNat
  if 2 ^ 32 ≤ x then .error { code := 0x0102 }
  else if x % 16 ≠ 0 then .error { code := 0x0303, addr := some x }
  else if c.crew.winBytes < x + 16 then .error { code := 0x0301, addr := some x }
  else .ok x

def barAt (c : Ctx) (a : Nat) : Bar := Bar.ofNat (c.crew.window.read a 16)

/-- The line of an object is uncorrectable (R378). -/
def barPoisoned (s : State) (c : Ctx) (a : Nat) : Bool := rangePoisoned s (.window c.t.cid) a 16

/-- The value of a second operand of BAR and BWAIT; an immediate of BWAIT is zero-extended (R286). -/
def plain (t : Team) (b : SB) : Nat :=
  match b with
  | .reg r => (t.s r.val).toNat
  | .imm x => x.toNat

/-- A copy that BWAIT still waits for: not stopped, or with chunks in flight (R114, R286). -/
def Copy.busy (x : Copy) : Bool := x.fault.isNone || !x.flight.isEmpty

/-- The batches a BWAIT covers: 1 to min(n, last sealed) (R112). -/
def bwaitLast (t : Team) (b : SB) : Nat := min (plain t b) t.sealed

def Copy.ofTeam (x : Copy) (tid : Nat) (last : Nat) : Bool :=
  match x.owner with
  | .team t b _ => t == tid && b ≤ last
  | .task _ _ => false

/-- A copy of a team that named a barrier and stopped on a fault not yet reported (R289). -/
def barFault (s : State) (tid a : Nat) : Option (Nat × Copy) :=
  s.copies.find? fun e => e.2.fault.isSome && e.2.flight.isEmpty &&
    (match e.2.bar with
      | some (x, _, _) => x == a
      | none => false) &&
    (match e.2.owner with
      | .team t _ _ => t == tid
      | _ => false)

/-- The physical queue behind a name of the crew on the team's core (R115). -/
def queueOf (c : Ctx) (q : QReg) : Option Nat := (c.crew.queueMap.getD c.core [])[q.val]?

def TStatus.isFaulted : TStatus → Bool
  | .faulted _ => true
  | _ => false

/-- The LAUNCH of a crew still wants its results: a faulted or squashed task's teams issue nothing more (R32, R334, R335). -/
def wanted (s : State) (c : Crew) : Bool :=
  match launchOf s c with
  | some e => !e.status.isFaulted
  | none => false

/-- The team of a Spindle operation, and its crew. -/
def SpinOp.team? (s : State) (x : SpinOp) : Option (Team × Crew) :=
  (x.tid.bind s.teams.get?).bind fun t => (s.crews.get? t.cid).map fun c => (t, c)

/-- A Spindle still has to run an operation: its task is not faulted; its team is on the device, and is neither cut off nor of a LAUNCH
that faulted, unless it ended by itself (R62, R291, R335, R353). -/
def SpinOp.live (s : State) (x : SpinOp) : Bool :=
  !x.done && match x.kind with
  | .tile p seq _ => (s.entryOf p seq).any fun e => !e.status.isFaulted
  | _ => (x.team? s).any fun y => !y.1.cut && y.2.placed && (wanted s y.2 || y.1.entries.isEmpty)

/-- An operation is on a core: its team's there, or its shadow's (R383). -/
def SpinOp.onCore (s : State) (x : SpinOp) (core : Nat) : Bool :=
  x.core == core || (x.team? s).any fun y => (y.2.shadow[y.1.num]?).any fun q => q / 4 == core

/-- Spindle operations of the teams of a core not yet completed (R291). -/
def spinCount (s : State) (core : Nat) : Nat := (s.spin.filter fun e => e.2.tid.isSome && e.2.onCore s core && e.2.live s).length

def SKind.queue : SKind → Option Nat
  | .mmp _ _ _ _ _ _ _ q _ => q
  | .out _ _ _ _ _ q _ _ _ => q
  | _ => none

/-- Earlier Spindle operations of a team on a queue (R298). -/
def queueBusy (s : State) (c : Ctx) (q : QReg) : Bool :=
  s.spin.any fun e => e.2.tid == some c.tid && e.2.core == c.core && e.2.kind.queue == some q.val && !e.2.done

/-- The byte of a core in a tree of the partition (R186, R316). -/
def treeByte (s : State) (p t core : Nat) : Option Nat :=
  match (s.part p).trees.get? t with
  | some l => (l[core]?).map BitVec.toNat
  | none => none

def isMember (s : State) (p t core : Nat) : Bool :=
  match treeByte s p t core with
  | some b => b / 128 % 2 == 1
  | none => false

def isRoot (s : State) (p t core : Nat) : Bool :=
  match treeByte s p t core with
  | some b => b / 16 % 8 == 4
  | none => false

def routerOf (s : State) (p t core : Nat) : Router := (s.part p).routers.getD (128 * t + core) {}

/-- NRED.WAIT: the result that ends a push, when the team has to write one (R301). -/
def nredResult (s : State) (c : Ctx) (t : Nat) (x : Push) : Option Partial := (routerOf s c.part t x.core).results.get? x.round

/-- The wait of NRED.WAIT (R28, R301). -/
def nredWaits (s : State) (c : Ctx) (t : Nat) (bcast : Bool) : Bool :=
  match c.t.pushes.get? t with
  | none => false
  | some x => if bcast || isRoot s c.part t x.core then (nredResult s c t x).isNone
    else (routerOf s c.part t x.core).flit.isSome && (routerOf s c.part t x.core).count == x.round

/-- SFU slots in use on the team's quarter, ordinary or of handlers (R256). -/
def sfuUsed (s : State) (quarter : Nat) (handler : Bool) : Nat :=
  (s.teams.map fun e => if e.2.quarter = quarter then
    (e.2.producers.filter fun x => x.insn.sfu.isSome && x.handler == handler).length else 0).sum

/-- A write of the team that has neither its completion nor its failure (R138, R370). -/
def outstanding (t : Team) : Bool := t.writes.any fun e => e.2.failed.isNone

/-- The same of the writes that a release waits for: no store of a spill is one (R38). -/
def unperformed (t : Team) : Bool := t.writes.any fun e => e.2.failed.isNone && !e.2.spill

/-- A write of a team or of a retired SSIGNAL is outstanding that a read of this clock can have seen (R122, R138). -/
def seenWrites (s : State) (clock : Nat) : Bool :=
  let seen := fun (w : OutWrite) => w.failed.isNone && !w.spill && decide (w.since ≤ clock)
  (s.teams.any fun e => e.2.writes.any fun w => seen w.2) || s.parts.any fun e => e.2.ssig.any seen

/-- The live lanes that remain after the participants leave (R214). -/
def lastExit (c : Ctx) : Bool := c.t.live &&& ~~~c.m == 0

/-- The target of a lane, or its first code (R210). -/
def target (base : Option Nat) (l off : Nat) : Except Trap Nat :=
  match base with
  | none => .error { code := 0x0304, lane := l }
  | some b =>
    if 2 ^ 80 ≤ b + off then .error { code := 0x0304, lane := l, addr := some ((b + off) % 2 ^ 80) }
    else if (b + off) % 64 ≠ 0 then .error { code := 0x0103, lane := l, addr := some (b + off) }
    else .ok (b + off)

/-- The one target of an indirect CALL, or its trap: 0x0102 when the callers' targets differ (R212). -/
def callTarget (c : Ctx) (base : SReg) (off : VReg) : Except Trap Nat :=
  let low := c.ls.headD 0
  if c.ls.any fun l => c.t.v off.val l != c.t.v off.val low then .error { code := 0x0102 }
  else target (c.t.pair? base.val) low (c.t.v off.val low).toNat

/-- A CALL waits for the background spill to free a place (R38, R212). -/
def callWaits (c : Ctx) : Bool := 32 ≤ c.t.stack.length && c.t.heldSpill.isNone && !c.t.handler

/-- A producer reads memory (R268). -/
def Producer.reads (x : Producer) : Bool :=
  match x.insn with
  | .ld _ _ _ _ | .lds _ _ _ _ _ _ _ => true
  | i => i.atomForm.isSome

/-- Team copies that count against the 64 of a core's Hoist: those of the crews placed on it that are not complete; one that stopped on
a fault is not, until the fault is reported (R278, R286). -/
def teamCopies (s : State) (core : Nat) : Nat :=
  (s.copies.filter fun e => e.2.core == some core && match e.2.owner with
    | .team tid _ _ => match (s.teams.get? tid).bind fun t => s.crews.get? t.cid with
      | some crew => crew.placed
      | none => false
    | _ => false).length

/-- A form's own wait (R28). It is looked at only when a participant exists. A release waits for the earlier writes and reads alike; one at
system scope also for every write that the team can have seen, whoever performed it. What follows an acquire waits for its value (R122,
R138). -/
def ownWait (s : State) (c : Ctx) (i : Instr) : Bool :=
  (i.waitsWrites (lastExit c) && unperformed c.t) || (i.releases && c.t.producers.any Producer.reads) ||
  (i.sysRelease && c.t.readAt.any (seenWrites s)) || (i.touches && c.t.producers.any fun x => x.insn.acquires) ||
  match i with
  | .hcopyCopy _ _ _ _ _ _ _ | .hcopyPlane _ _ _ _ _ _ _ _ _ | .hcopySplit _ _ _ _ _ _ _ _ _ _ | .hcopyMask _ _ _ _ _ _
  | .hcopyGather _ _ _ _ _ _ _ _ =>
    64 ≤ teamCopies s c.core
  | .fence _ _ _ => c.t.producers.any Producer.reads
  | .bwait _ b =>
    let n := bwaitLast c.t b
    (s.copies.any fun e => e.2.ofTeam c.tid n && e.2.busy) ||
    (s.spin.any fun e => e.2.tid == some c.tid && e.2.batch != 0 && e.2.batch ≤ n && !e.2.done)
  | .barArrive _ _ b | .barArrivex _ _ b _ => match barAddr c b with
    | .ok a => !barPoisoned s c a && (barAt c a).settled.pending == 0
    | .error _ => false
  | .barWait _ b g => match barAddr c b with
    | .ok a => !barPoisoned s c a && !(barAt c a).overrun && (barFault s c.tid a).isNone && (barAt c a).gen == plain c.t g % 16
    | .error _ => false
  | .barWaitout _ b => match barAddr c b with
    | .ok a => !barPoisoned s c a && !(barAt c a).overrun && (barFault s c.tid a).isNone && (barAt c a).outbound != 0
    | .error _ => false
  | .mmp _ _ _ _ _ _ _ _ _ | .mms _ _ _ _ _ _ _ | .accZero _ _ _ | .accLoad _ _ _ _ | .accOut _ _ _ _ _ _ _ _ _
  | .accMove _ _ _ _ | .accSpill _ _ _ _ => 16 ≤ spinCount s c.core
  | .mqStat _ _ q | .mqFlush _ q => queueBusy s c q
  | .nredPush _ _ t => (routerOf s c.part t.toNat c.core).flit.isSome
  | .nredWait _ _ t bcast => nredWaits s c t.toNat bcast
  | .callDirect _ _ => callWaits c
  | .callIndirect _ b o => callWaits c && match callTarget c b o with
    | .ok _ => true
    | .error _ => false
  | .ret _ => c.t.stack.isEmpty && c.t.memFrames != 0 && c.t.heldRefill.isNone
  | .tret ctl => c.t.handler && ctl.g == 0 && (unperformed c.t || !c.t.producers.isEmpty)
  | .ld _ _ _ _ | .lds _ _ _ _ _ _ _ | .tagTagq _ _ _ => 16 ≤ c.t.producers.length
  | _ =>
    if i.sfu.isSome then
      16 ≤ c.t.producers.length || (if c.t.handler then 2 else 8) ≤ sfuUsed s c.t.quarter c.t.handler
    else match i.atomForm with
      | some f => f.ret && 16 ≤ c.t.producers.length
      | none => false

end Sys2Proof.Machine
end

