-- ==== Sys2Proof/Machine/Ops.lean ====
section
/-! DEFINITION. Taking a trap, its frame, the return from it, and what every core instruction does before and after its own effect (R33 to R35, R192, R193, R201, R343 to R358). -/

namespace Sys2Proof.Machine

abbrev Out := Host.Outcome State Fault Refusal

/-- An action on a resident team and its crew. -/
def State.onTeam (s : State) (tid : Nat) (k : Team → Crew → State) : State :=
  match s.teams.get? tid with
  | none => s
  | some t => match s.crews.get? t.cid with
    | none => s
    | some c => k t c

/-! ### Task faults -/

def State.updEntry (s : State) (p seq : Nat) (f : WinEntry → WinEntry) : State :=
  s.updPart p fun x => { x with window := x.window.map fun e => if e.seq = seq then f e else e }

/-- Live lanes leave; what was to come is discarded, and a halt is over (R222, R353). -/
def Team.leave (t : Team) : Team :=
  { t with exited := t.exited ||| t.live, entries := [], run := none, producers := [], replay := [], portFail := none
           hostAtomic := none, handler := false, halted := false, haltAsked := false, emptyV := [], emptyS := [], heldV := [], heldS := [] }

/-- A team of a faulted LAUNCH ends at an instruction boundary, in its handler or not; a host atomic that it issues completes first
(R354). -/
def Team.cutOff (t : Team) : Team := if t.hostAtomic.isSome || t.entries.isEmpty then t else { t.leave with cut := true }

/-- The crews of a task. -/
def crewsOf (s : State) (p seq : Nat) : FMap Crew := s.crews.filter fun (e : Nat × Crew) => e.2.part == p && e.2.seq == seq

/-- A task completes with a fault; its first fault is kept, and its teams end (R334, R354). -/
def taskFault (s : State) (p seq : Nat) (f : TaskFault) : State :=
  let s := s.updEntry p seq fun e => if e.status.isFaulted then e else { e with status := .faulted f }
  let cs := crewsOf s p seq
  if cs.isEmpty then s
  else { s with teams := s.teams.map fun (e : Nat × Team) => if cs.has e.2.cid then (e.1, e.2.cutOff) else e }

/-! ### The trap frame -/

def pcLow (p : PC) : Nat := p.blk.toNat % 2 ^ 64 / 64 * 64 + p.slot
def pcHigh (p : PC) : Nat := p.blk.toNat / 2 ^ 64

/-- Lanes counted (R26). -/
def Team.lc (t : Team) : Nat := roundLanes t.nlanes

/-- F, the bytes of the frame. -/
def frameBytes (lc : Nat) : Nat := 11776 + 530 * lc

/-- JOIN and HOLD of Table 21.3. -/
def Hold.code : Hold → Nat
  | .none => 0
  | .join j => 1 + 4 * (j % 8)
  | .exchange => 2
  | .ret => 3
def Hold.ofCode (n : Nat) : Hold :=
  match n % 4 with
  | 0 => .none
  | 1 => .join (n / 4 % 8)
  | 2 => .exchange
  | _ => .ret

/-- A field of the frame: offset, bytes, value. -/
abbrev FrameField := Nat × Nat × Nat

/-- Bytes of fields at rising offsets. -/
def fieldCells (l : List FrameField) : Memory := l.flatMap fun f => Memory.cells f.1 f.2.1 f.2.2

/-- Where entry table, lane map and replay entry k begin (Table 21.1). -/
def mapAt (lc : Nat) : Nat := 0x2200 + 16 * lc
def replayAt (lc k : Nat) : Nat := 0x2200 + 18 * lc + k * (192 + 32 * lc)

/-- A return frame in the layout of R37. -/
def frameFields (o : Nat) (f : Frame) : List FrameField :=
  [(o, 128, f.mask.toNat), (o + 128, 8, pcLow f.ret), (o + 136, 2, pcHigh f.ret)]

/-- A replay entry (Table 21.4; FAULTED of R369). -/
def replayFields (o : Nat) (r : Replay) : List FrameField :=
  [(o, 12, r.word), (o + 0x10, 8, pcLow r.pc), (o + 0x18, 2, pcHigh r.pc), (o + 0x20, 16, r.base),
   (o + 0x30, 1, (if r.value then 1 else 0) + (if r.faulted then 2 else 0)), (o + 0x40, 128, r.lm.toNat)] ++
  (r.ops.filter fun e => r.lm.getLsbD e.1).flatMap fun e =>
    [(o + 0xC0 + 32 * e.1, 4, e.2.a), (o + 0xC8 + 32 * e.1, 8, e.2.c), (o + 0xD0 + 32 * e.1, 8, e.2.n),
     (o + 0xD8 + 32 * e.1, 8, e.2.old)]

/-- Without the answers that a port still owed past its limit, which are discarded (R368). -/
def Producer.answered (x : Producer) (late : Bool) : Producer :=
  if late then { x with vals := x.vals.filter fun (e : Nat × Nat) => !x.out.getLsbD e.1 } else x

/-- A team of a partition without those answers. -/
def Team.answered (t : Team) (s : State) (p : Nat) : Team :=
  { t with producers := t.producers.map fun x => x.answered (pastLimit s p x.since) }

/-- The old values of every outstanding ATOM arrive before the frame is built (R345). -/
def drainAtoms (t : Team) : Team :=
  t.producers.foldl (fun t x =>
    if x.insn.atomForm.isSome then
      (lanesOf 1024 x.lm).foldl (fun t l => match x.vals.get? l with
        | some v => landed t x.insn l v
        | none => t) t
    else t) t

/-- The lanes of a producer whose destination is still empty after that. -/
def Producer.left (x : Producer) : LaneMask :=
  if x.insn.atomForm.isSome then maskOf ((lanesOf 1024 x.lm).filter fun l => (x.vals.get? l).isNone) else x.lm

/-- The replay entry of a producer; a lane of an ATOM that has no old value once every one has returned is one that failed (R345, R369). -/
def Producer.replay (x : Producer) : Option Replay :=
  if x.left = 0 then none
  else some { word := (encode x.insn).toNat, pc := x.pc, base := x.base, value := false, faulted := x.faulted || x.insn.atomForm.isSome, lm := x.left, ops := x.ops }

/-- The replay entries of a trap: the producers in issue order, then those not yet re-injected (R345, R350). -/
def replaysOf (t : Team) : List Replay := t.producers.filterMap Producer.replay ++ t.replay

/-- The fields of the frame (Tables 21.1 to 21.4); NRED_TIMEOUT has ADDRV = 0 (R375). -/
def frameOf (t : Team) (tr : Trap) (word : Nat) (slice : Bool) (es : List Entry) (k : Nat) (rs : List Replay) : Memory :=
  let lc := t.lc
  let b := fun (x : Bool) => if x then 1 else 0
  let a := tr.addr.getD 0
  fieldCells <|
    [(0, 8, tr.code % 2 ^ 16 + tr.lane % 1024 * 2 ^ 16 + b tr.spill * 2 ^ 26 + b (tr.addr.isSome && tr.code != 0x0B01) * 2 ^ 27 + b slice * 2 ^ 28 +
        es.length * 2 ^ 37 + rs.length * 2 ^ 48 + t.stack.length * 2 ^ 53),
     (8, 8, a % 2 ^ 64), (0x10, 8, a / 2 ^ 64), (0x18, 8, k), (0x20, 12, word)] ++
    ((List.range 64).map fun n => (0x40 + 8 * n, 8, (t.s n).toNat)) ++
    ((List.range 7).map fun n => (0x240 + 128 * n, 128, (t.p (n + 1)).toNat)) ++
    ((List.range 8).flatMap fun n =>
      [(0x5C0 + 256 * n, 128, (t.join n).members.toNat), (0x640 + 256 * n, 128, (t.join n).arrived.toNat)]) ++
    (t.stack.reverse.zipIdx.flatMap fun f => frameFields (0xDC0 + 160 * f.2) f.1) ++
    (es.zipIdx.flatMap fun e =>
      [(0x2200 + 16 * e.2, 8, pcLow e.1.pc), (0x2208 + 16 * e.2, 2, pcHigh e.1.pc), (0x220A + 16 * e.2, 1, e.1.hold.code)]) ++
    ((List.range lc).map fun l => (mapAt lc + 2 * l, 2, ((es.findIdx? fun e => e.mask.getLsbD l).getD 0xFFFF))) ++
    (rs.zipIdx.flatMap fun r => replayFields (replayAt lc r.2) r.1)

/-- Bytes lo to hi - 1 of a line taken from another. -/
def mixLine (old new lo hi : Nat) : Nat :=
  old % 2 ^ (8 * lo) + new / 2 ^ (8 * lo) % 2 ^ (8 * (hi - lo)) * 2 ^ (8 * lo) + old / 2 ^ (8 * hi) * 2 ^ (8 * hi)

/-- n bytes of a store from a on are replaced by cells, and a core's own copies of the lines follow (R110). -/
def State.splice (s : State) (core : Nat) (st : Store) (a n : Nat) (cells : List Host.Cell) : State :=
  let s := ((s.setMem st ((s.memOf st).replace a n cells)).logCxl st a n).clearPoison st a n
  { s with rcache := s.rcache.map fun e =>
      let l := e.1 % 2 ^ 64 * 128
      if e.1 / 2 ^ 64 = 2 ^ 20 * core + st.code && l < a + n && a < l + 128 then
        (e.1, mixLine e.2 (s.load st l 128) (max a l - l) (min (a + n) (l + 128) - l))
      else e }

/-- Bytes of a page from an address on, at most n. -/
def pageRest (va n : Nat) : Nat := min n (32768 - va % 32768)

/-- What the stores of an image leave: the writes to be completed (R138, R346), and what stood where they went. -/
structure Stored where
  s : State
  writes : List OutWrite := []
  pages : List (Store × Nat × Nat × Memory) := []
  deriving DecidableEq, Repr

/-- The pieces of a range that one port carries: of pooled memory the 4 KiB units, else the range (R171). -/
def portUnits (st : Store) (a n : Nat) : List (Nat × Nat) :=
  match st with
  | .cxl => (List.range (n / 4096 + 2)).filterMap fun j =>
      let lo := max a (a / 4096 * 4096 + 4096 * j)
      let hi := min (a + n) (a / 4096 * 4096 + 4096 * j + 4096)
      if lo < hi then some (lo, hi - lo) else none
  | _ => [(a, n)]

/-- The store of one piece, with its write at the port (R138, R370, R376, R389); va is the global address of the store's address 0. -/
def storePiece (p core : Nat) (st : Store) (va : Int) (cells : List Host.Cell) (x : Stored) (u : Nat × Nat) : Stored :=
  let va := (va + u.1).toNat
  if stopped x.s p st u.1 then
    if st = .host then x else { x with writes := x.writes ++ [{ addr := va, failed := some 0x0A02 }] }
  else
    let s' := x.s.splice core st u.1 u.2 cells
    { s := s'
      writes := x.writes ++ match st with
        | .cxl => [{ addr := va, len := u.2, pa := some u.1, old := x.s.load st u.1 u.2, val := s'.load st u.1 u.2, since := s'.clock, mark := s'.cxlLog.length }]
        | .ethes _ => [{ addr := va, len := u.2, since := s'.clock }]
        | _ => []
      pages := x.pages ++ [(st, u.1, u.2, (x.s.memOf st).filter fun c => u.1 ≤ c.1 && c.1 < u.1 + u.2)] }

/-- The frame's stores, page by page; a page that fails leaves those before it stored (R346; log 48). They are plain accesses of 8 bytes,
which register space takes (log 125). -/
def storeImage (p core va0 size : Nat) (img : Memory) (x : Stored) : Nat → Nat → Except (Nat × XFail × Stored) Stored
  | 0, _ => .ok x
  | f + 1, off =>
    if size ≤ off then .ok x
    else
      let va := va0 + off
      let n := pageRest va (size - off)
      match touch x.s p core va { write := true, plain := true, bytes := 8 } with
      | .error (e, s') => .error (va, e, { x with s := s' })
      | .ok (s', o) =>
        let cells := (img.filter fun c => off ≤ c.1 && c.1 < off + n).map fun c => (c.1 - off + o.addr, c.2)
        storeImage p core va0 size img ((portUnits o.store o.addr n).foldl (storePiece p core o.store (va - o.addr) cells) { x with s := s' }) f (off + n)

/-- Writes of a team that are still to be completed. -/
def Team.addWrites (t : Team) (ws : List OutWrite) : Team :=
  ws.foldl (fun t w => { t with writes := t.writes.set t.nextWrite w, nextWrite := t.nextWrite + 1 }) t

/-- The first line of a range that cannot be read: the code, and how many bytes after the range's first line it lies (R368, R378). -/
def rangeFailure (s : State) (p : Nat) (st : Store) (a n : Nat) : Option (Nat × Nat) :=
  (List.range (n / 128 + 2)).findSome? fun j =>
    if a / 128 * 128 + 128 * j < a + n then (dataFailure s p st (a / 128 * 128 + 128 * j)).map fun code => (code, 128 * j) else none

/-- The address that reports a failing line of a range: the line's for an uncorrectable error, else the first byte wanted of it
(R365, Table 24.1). -/
def failAddr (va : Nat) (f : Nat × Nat) : Nat :=
  let l := va / 128 * 128 + f.2
  if f.1 = 0x0902 then l else max va l

/-- The frame's bytes at TRET, page by page (R350). -/
def loadImage (s : State) (p core va0 size : Nat) : Nat → Nat → Except (Nat × XFail × State) (State × Memory)
  | 0, _ => .ok (s, [])
  | f + 1, off =>
    if size ≤ off then .ok (s, [])
    else
      let va := va0 + off
      let n := pageRest va (size - off)
      match touch s p core va { read := true, plain := true, bytes := 8 } with
      | .error (x, s') => .error (va, x, s')
      | .ok (s', o) =>
        match rangeFailure s' p o.store o.addr n with
        | some f => .error (max va (va / 128 * 128 + f.2), { code := f.1 }, s')
        | none =>
          match loadImage s' p core va0 size f (off + n) with
          | .error e => .error e
          | .ok (s'', m) =>
            .ok (s'', (((s'.memOf o.store).filter fun c => o.addr ≤ c.1 && c.1 < o.addr + n).map
              fun c => (c.1 - o.addr + off, c.2)) ++ m)

/-! ### Entry -/

/-- A fault of a team that is its LAUNCH's: it never reaches a handler (R343, R380). -/
def launchFault (s : State) (c : Crew) (core code : Nat) (addr : Option Nat) (engine detail : Nat) : State :=
  taskFault s c.part c.seq { code, engine, core, addr, detail }

/-- A double fault ends the team at once and faults its LAUNCH (R353, R340); a fault on a frame byte comes with its address
(Table 23.1). -/
def doubleFault (s : State) (tid code : Nat) (addr : Option Nat) : State :=
  s.onTeam tid fun t c =>
    (taskFault s c.part c.seq { code := 0x0815, engine := 1, core := t.core, addr, detail := code, trap := some (tid, s.clock) }).setTeam
      tid t.leave

/-- The walk's failure enters the partition's record (R367). -/
def recordWalk (s : State) (p core unit : Nat) (tr : Trap) : State :=
  match tr.walk with
  | some (va, f) => xlRecord s p core unit va f
  | none => s

/-- The registers that replay entries hold empty (R345, R349). -/
def heldBy (rs : List Replay) : FMap LaneMask × FMap Bool :=
  rs.foldl (fun (h : FMap LaneMask × FMap Bool) r =>
    match coreDecode (BitVec.ofNat 96 r.word) with
    | .error _ => h
    | .ok i => i.dsts.foldl (fun (h : FMap LaneMask × FMap Bool) x => match x with
      | .v n => (h.1.set n (h.1.getD n 0 ||| r.lm), h.2)
      | .s n => (h.1, h.2.set n true)) h) ([], [])

/-- Trap entry (R345): the frame at %tsave, then every live lane at %tvec. The trapping entry is e, with the PC the frame gives it; it
keeps the place of the PC at which it trapped, and joins no entry (R347; log 119). -/
def takeTrap (s : State) (tid : Nat) (e : Entry) (pc : PC) (word : Nat) (tr : Trap) : State :=
  match s.teams.get? tid with
  | none => s
  | some t => match s.crews.get? t.cid with
    | none => s
    | some c =>
      if t.handler then doubleFault s tid tr.code none
      else
        let t := drainAtoms (t.answered s c.part)
        let rs := replaysOf t
        let order := sortEntries t.entries
        let k := (order.findIdx? fun x => x.ins == e.ins).getD 0
        let es := order.map fun x => if x.ins = e.ins then { x with pc } else x
        let slice := (s.part c.part).haltReq || c.preempt
        let img := frameOf t tr word slice es k rs
        let n := frameBytes t.lc
        match storeImage c.part t.core t.tsave.toNat n img { s } (n / 32768 + 2) 0 with
        | .error (va, f, x) =>
          let t' := { t.addWrites x.writes with undo := some ⟨s.clock, x.pages⟩ }
          doubleFault (xlRecord (x.s.setTeam tid t') c.part t.core (t.quarter % 4) va f) tid f.code (some va)
        | .ok x =>
          let h := heldBy rs
          let t' : Team := { t.addWrites x.writes with
            undo := some ⟨s.clock, x.pages⟩
            stack := [], memFrames := 0, outerFrames := t.memFrames, heldSpill := none, heldRefill := none
            producers := [], replay := [], portFail := none, hostAtomic := none, sig := .idle, once := none
            tcause := BitVec.ofNat 16 tr.code, handler := true, tsaveIn := t.tsave, spillIn := tr.spill
            heldV := h.1, heldS := h.2, entries := [], run := none, block := none }
          x.s.setTeam tid (t'.insert ⟨t.tvec.setWidth 80, 0⟩ t.live false)

/-- A line of the fresh buffer that a crew's LAUNCH writes (Table 24.1). -/
def inFresh (s : State) (c : Crew) (va : Nat) : Bool :=
  inBufWindow va && (launchOf s c).any fun e => e.fresh == some (va % 2 ^ 56 / 2 ^ 26)

/-- An engine meets an uncorrectable line of memory in the work of a team: the team stops when the line is of the fresh buffer that its
LAUNCH writes, and otherwise the LAUNCH faults (Table 24.1). -/
def lineLost (s : State) (tid engine core va : Nat) : State :=
  s.onTeam tid fun _ c =>
    if inFresh s c va then loseTeam s tid (.line engine core va) else launchFault s c core 0x0902 (some va) engine 0

/-- A fault of a team at an entry: a trap, or, for an uncorrectable line, its LAUNCH's course (R343, R355, R380). -/
def teamFault (s : State) (tid : Nat) (e : Entry) (pc : PC) (word : Nat) (tr : Trap) : State :=
  s.onTeam tid fun t c =>
    let s := recordWalk s c.part t.core (t.quarter % 4) tr
    if tr.code ≠ 0x0902 then takeTrap s tid e pc word tr
    else match tr.addr with
      | some a => lineLost s tid 1 t.core a
      | none => launchFault s c t.core tr.code none 1 0

/-- A fault of an instruction of a team (R343, R355). -/
def raise (s : State) (c : Ctx) (i : Instr) (tr : Trap) : State :=
  teamFault s c.tid c.e (if 0xF000 ≤ tr.code then c.t.nextPC c.e.pc else c.e.pc) (encode i).toNat tr

/-- The failed write that a team's pending failure reports is reported with it (R357). -/
def Team.reported (t : Team) : Team :=
  match t.portFail.bind PortFail.write with
  | some n => { t with writes := t.writes.erase n }
  | none => t

/-! ### Return -/

/-- A PC of the frame: bits 5:3 zero and a slot of a block (Table 21.3, R350). -/
def framePC (img : Memory) (o : Nat) : Option PC :=
  let lo := img.read o 8
  if lo / 8 % 8 = 0 && lo % 8 ≤ 4 then some ⟨BitVec.ofNat 80 (lo / 64 * 64 + img.read (o + 8) 2 * 2 ^ 64), lo % 8⟩ else none

/-- A saved return frame (R37). -/
def frameFrame (img : Memory) (o : Nat) : Option Frame :=
  match framePC img (o + 128) with
  | some pc => if img.isZero (o + 138) 22 then some ⟨pc, BitVec.ofNat 1024 (img.read o 128)⟩ else none
  | none => none

/-- The instruction of a replay entry: a long-latency producer (R344). -/
def producerOf (word : Nat) : Option Instr :=
  match coreDecode (BitVec.ofNat 96 word) with
  | .error _ => none
  | .ok i => match i with
    | .ld _ _ _ _ | .lds _ _ _ _ _ _ _ | .tagTagq _ _ _ => some i
    | _ => if i.sfu.isSome then some i else match i.atomForm with
      | some f => if f.ret then some i else none
      | none => none

/-- A replay entry, with the lanes that are live (R350, R369). -/
def frameReplay (img : Memory) (o lc : Nat) (live : LaneMask) : Option Replay :=
  let word := img.read o 12
  let flags := img.read (o + 0x30) 16
  let lm := BitVec.ofNat 1024 (img.read (o + 0x40) 128) &&& live &&& maskBelow lc
  match producerOf word, framePC img (o + 0x10) with
  | some i, some pc =>
    if flags < 4 && img.isZero (o + 0x1A) 6 && !(flags % 2 = 1 && 2 < i.dsts.length) then
      some { word, pc, base := img.read (o + 0x20) 16, value := flags % 2 = 1, faulted := false, lm
             ops := (lanesOf lc lm).map fun l => (l, { a := img.read (o + 0xC0 + 32 * l) 4, c := img.read (o + 0xC8 + 32 * l) 8
                                                       n := img.read (o + 0xD0 + 32 * l) 8, old := img.read (o + 0xD8 + 32 * l) 8 }) }
    else none
  | _, _ => none

/-- Every element, or none. -/
def allSome {α : Type} : List (Option α) → Option (List α)
  | [] => some []
  | none :: _ => none
  | some x :: l => (allSome l).map (x :: ·)

/-- The entries of the frame, with the lanes the lane map gives them; none when an entry or a live lane's word is bad (R350). The words
of other lanes are not looked at (log 118). -/
def frameEntries (img : Memory) (lc nent ins : Nat) (live : LaneMask) : Option (List Entry) :=
  if (lanesOf lc live).all fun l => img.read (mapAt lc + 2 * l) 2 < nent then
    allSome ((List.range nent).map fun k =>
      let o := 0x2200 + 16 * k
      match framePC img o with
      | some pc =>
        let h := img.read (o + 10) 1
        if h < 32 && img.isZero (o + 11) 5 then
          some { ins := ins + k, pc, hold := Hold.ofCode h
                 mask := maskOf ((lanesOf lc live).filter fun l => img.read (mapAt lc + 2 * l) 2 == k) }
        else none
      | none => none)
  else none

/-- The checks of the frame and the state it restores (R350). NENT lies in the entry table (log 117). -/
def restore (t : Team) (img : Memory) : Option Team :=
  let lc := t.lc
  let h := img.read 0 8
  let nst := h / 2 ^ 53 % 64
  let nrep := h / 2 ^ 48 % 32
  let nent := h / 2 ^ 37 % 2048
  let te := img.read 0x18 8
  if h / 2 ^ 59 = 0 && h / 2 ^ 30 % 128 = 0 && nst ≤ 32 && nrep ≤ 16 && 1 ≤ nent && nent ≤ lc && te < 1024 &&
      img.isZero 0x12 6 && img.isZero 0x2C 20 && img.isZero 0x21C0 64 then
    match frameEntries img lc nent t.nextIns t.live,
        allSome ((List.range nst).map fun k => frameFrame img (0xDC0 + 160 * k)),
        allSome ((List.range nrep).map fun k => frameReplay img (replayAt lc k) lc t.live) with
    | some es, some fs, some rs =>
      let rs := rs.filter fun r => r.lm != 0
      let kept := es.filter fun e => e.mask != 0
      let t' : Team := { t with
        sregs := (List.range 64).map fun n => (n, BitVec.ofNat 64 (img.read (0x40 + 8 * n) 8))
        preds := (List.range 7).map fun n => (n + 1, BitVec.ofNat 1024 (img.read (0x240 + 128 * n) 128))
        joins := (List.range 8).map fun n => (n, { members := BitVec.ofNat 1024 (img.read (0x5C0 + 256 * n) 128)
                                                   arrived := BitVec.ofNat 1024 (img.read (0x640 + 256 * n) 128) })
        stack := fs.reverse, memFrames := t.outerFrames, outerFrames := 0, spillIn := false
        entries := kept, nextIns := t.nextIns + nent, run := none, block := none
        handler := false, emptyV := [], emptyS := [], heldV := [], heldS := [], replay := rs
        once := if h / 2 ^ 29 % 2 = 1 && kept.any (fun e => e.ins == t.nextIns + te) then some (t.nextIns + te) else none
        trapEnt := t.nextIns + te }
      some (rs.foldl (fun t r => match coreDecode (BitVec.ofNat 96 r.word) with
        | .ok i => i.dsts.foldl (fun t x => t.markEmpty r.lm x) t
        | .error _ => t) t')
    | _, _, _ => none
  else none

/-- TRET inside a handler (R350). The producers are performed again one by one before the team issues: see reinject. -/
def leaveHandler (s : State) (tid : Nat) : State :=
  match s.teams.get? tid with
  | none => s
  | some t => match s.crews.get? t.cid with
    | none => s
    | some c =>
      let n := frameBytes t.lc
      match loadImage s c.part t.core t.tsaveIn.toNat n (n / 32768 + 2) 0 with
      | .error (va, f, s') => doubleFault (xlRecord s' c.part t.core (t.quarter % 4) va f) tid f.code (some va)
      | .ok (s', img) => match restore t img with
        | none => doubleFault s' tid 0x0102 none
        | some t' => s'.setTeam tid t'

/-- A value a replay entry holds is written as it stands (R350, R369). -/
def writeHeld (t : Team) (i : Instr) (lane v : Nat) : Team :=
  i.dsts.zipIdx.foldl (fun t e => match e.1 with
    | .v r => t.setV r [(lane, BitVec.ofNat 32 (v / 2 ^ (32 * e.2)))]
    | .s r => t.setS r (BitVec.ofNat 64 v)) t

/-- The next replay entry of a team is performed (R350, R354); none while it must wait, also for the signature of an atomic (R384). Inside a handler a team has one only after it
stopped halted (R352). -/
def reinject (s : State) (tid : Nat) : Option State :=
  match s.teams.get? tid with
  | none => none
  | some t => match t.replay, s.crews.get? t.cid with
    | r :: rs, some crew =>
      let order := sortEntries t.entries
      match (match order.find? fun e => e.ins == t.trapEnt with
        | some e => some e
        | none => order.head?), coreDecode (BitVec.ofNat 96 r.word) with
      | some e, .ok i =>
        if r.value then
          some (s.setTeam tid (r.ops.foldl (fun t o => writeHeld t i o.1 o.2.old) { t with replay := rs }))
        else if 16 ≤ t.producers.length || t.sig == .waiting || (i.sfu.isSome && (if t.handler then 2 else 8) ≤ sfuUsed s t.quarter t.handler)
        then none
        else if i.signed && !crew.shadow.isEmpty && t.sig == .idle then some (s.setTeam tid { t with sig := .waiting })
        else
          let c : Ctx := { tid, t, crew, e, spin := false, m := r.lm, ls := lanesOf 1024 r.lm }
          match perform s c i r.pc r.base r.lm r.ops t.handler with
          | .ok s' => some (s'.updTeam tid fun t => { t with replay := rs, sig := .idle, wantSince := none })
          | .error (tr, s') => some (teamFault s' tid e e.pc r.word tr)
      | _, _ => some (s.setTeam tid { t with replay := rs })
    | _, _ => none

/-! ### Issue -/

/-- What a core instruction meets before its own effect. -/
inductive Gate where
  /-- No team is current. -/
  | nobody
  /-- It waits (R28). -/
  | wait
  /-- A mirrored leader holds the effect for its shadow's signature (R384). -/
  | sign (tid : Nat)
  /-- Steps 2 and 3 of R355. -/
  | trap (c : Ctx) (tr : Trap)
  /-- It waits, and a failed access is reported at this boundary (R369). -/
  | report (c : Ctx) (x : PortFail)
  | go (c : Ctx)
  deriving DecidableEq, Repr

/-- The lowest active lane in which a source read with FE 1 is empty. -/
def emptyLane (f : Form) (t : Team) (m : LaneMask) (once : Bool) : Nat :=
  ((lanesOf 1024 m).find? fun l => f.emptyRead t (laneBit l) once).getD 0

/-- The common front of every core instruction (R28, R192, R193, R201, R355, R369). -/
def gate (s : State) (i : Instr) : Gate :=
  match s.cur with
  | none => .nobody
  | some tid => match s.teams.get? tid with
    | none => .nobody
    | some t => match t.entry?, s.crews.get? t.cid, i.form with
      | some e, some crew, some f =>
        let m := e.mask &&& t.guard f.ctl.g
        let c : Ctx := { tid, t, crew, e, spin := f.ctl.h.getLsbD 7, m, ls := lanesOf t.nlanes m }
        let once := t.once == some e.ins
        if t.hostAtomic.isSome then .wait
        else if f.regs.any t.beyond then .trap c { code := 0x0202 }
        else if t.sig == .waiting || f.waitsFor t e.mask once || (m != 0 && ownWait s c i) then
          match t.portFail with
          | some x => .report c x
          | none => .wait
        else if f.emptyRead t e.mask once then .trap c { code := 0x0201, lane := emptyLane f t e.mask once }
        else if m != 0 && i.signed && !crew.shadow.isEmpty && t.sig == .idle && t.portFail.isNone then .sign tid
        else .go c
      | _, _, _ => .nobody

/-- A failed access is reported at an instruction, which has no effect (R357, R369). -/
def portTrap (s : State) (c : Ctx) (i : Instr) (x : PortFail) : State :=
  raise (s.updTeam c.tid Team.reported) c i { code := x.code, lane := x.lane, addr := some x.addr }

/-- The team of c took a fault between s and s': a trap, or one of its LAUNCH's, or it stopped. -/
def faultTaken (s : State) (c : Ctx) (s' : State) : Bool :=
  match s'.teams.get? c.tid with
  | some t' => (t'.handler && !c.t.handler) || (t'.lost.isSome && c.t.lost.isNone) || (wanted s c.crew && !wanted s' c.crew)
  | none => true

/-- A core instruction: its own effect k, once it issues. A failed access ranks after the faults of the instruction, and is reported where it
meets none (R357). -/
def core (s : State) (i : Instr) (k : Ctx → State) : Out :=
  match gate s i with
  | .nobody => .fault .noTeam
  | .wait => .next s
  | .sign tid => .next (s.updTeam tid fun t => { t with sig := .waiting })
  | .trap c tr => .next (raise s c i tr)
  | .report c x => .next (portTrap s c i x)
  | .go c => .next (match c.t.portFail with
    | none => k c
    | some x => if faultTaken s c (k c) then k c else portTrap s c i x)

/-- After an instruction: the lanes of stay go on at the next PC, the others to their targets; the scheduler selects again when
the entry splits, reaches a block or exits (R33 to R35, R194). SPIN puts every entry that results behind, those of the leaving lanes as
well (log 113). cut says that lanes left in another way. -/
def settle (s : State) (c : Ctx) (t : Team) (stay : LaneMask) (goes : List (PC × LaneMask)) (cut : Bool := false) : State :=
  let flag := s.entryBit c.part c.core
  let n := t.nextPC c.e.pc
  let t0 : Team := { t with
    entries := t.entries.filter fun e => e.ins != c.e.ins
    run := none, sig := .idle
    once := if t.once == some c.e.ins then none else t.once }
  let t1 : Team :=
    if stay = 0 then t0
    else if n.slot = 0 then t0.arrive flag n stay c.spin
    else { t0 with
      entries := t0.entries ++ [{ c.e with pc := n, mask := stay, back := c.spin }]
      run := if goes.isEmpty && !c.spin && !cut then some c.e.ins else none }
  s.setTeam c.tid (goes.foldl (fun t g => t.arrive flag g.1 g.2 c.spin) t1)

/-- An instruction that only changes the team, and goes on (R202). -/
def done (s : State) (c : Ctx) (t : Team) : State := settle s c t c.e.mask []

/-- One result per participant (R202, R241). -/
def vec (s : State) (c : Ctx) (d : Nat) (f : Nat → Word) : State := done s c (c.t.setV d (c.ls.map fun l => (l, f l)))
def vec64 (s : State) (c : Ctx) (d : Nat) (f : Nat → DWord) : State := done s c (c.t.setV64 d (c.ls.map fun l => (l, f l)))
/-- One predicate result per participant. -/
def predv (s : State) (c : Ctx) (d : Nat) (f : Nat → Bool) : State := done s c (c.t.setP d c.m (predMask c.ls f))
/-- One result for the team, when a participant exists (R204). -/
def scal (s : State) (c : Ctx) (d : Nat) (f : DWord) : State := done s c (if c.m = 0 then c.t else c.t.setS d f)

/-- The lowest participant (R204). -/
def Ctx.low (c : Ctx) : Nat := c.ls.headD 0

/-- An instruction whose effect on the rest of the state is s': the team stands as s' holds it. -/
def after (s' : State) (c : Ctx) : State :=
  match s'.teams.get? c.tid with
  | some t => done s' c t
  | none => s'

/-- A form that acts once for the team, or not at all when no lane takes part (R192, R356). -/
def onceFor (s : State) (c : Ctx) (k : State) : State := if c.m = 0 then done s c c.t else k

/-- A failed write that the instruction waits for (R357, R370). That of a spilled frame is held for the refill (R357; log 63). -/
def failedWrite (c : Ctx) (i : Instr) : Option (Nat × OutWrite) :=
  if i.waitsWrites (lastExit c) then c.t.writes.find? fun w => w.2.failed.isSome && !w.2.spill else none

/-- The deferred failure ranks after the instruction's own conditions, and the instruction then has no effect (R357, R370). -/
def reporting (s : State) (c : Ctx) (i : Instr) (k : State) : State :=
  match failedWrite c i with
  | some (n, w) =>
    raise (s.updTeam c.tid fun t => { t with writes := t.writes.erase n }) c i { code := w.failed.getD 0, addr := some w.addr }
  | none => k

/-- A long-latency producer issues for its participants, or traps (R256, R266, R268). -/
def produceOp (s : State) (c : Ctx) (i : Instr) (base : Nat) (ops : Nat → LaneOps) : State :=
  if c.m = 0 then done s c c.t
  else match perform s c i c.e.pc base c.m (c.ls.map fun l => (l, ops l)) c.t.handler with
    | .error (tr, s') => raise s' c i tr
    | .ok s' => reporting s c i (after s' c)

end Sys2Proof.Machine
end

