-- ==== Sys2Proof/Machine/Control.lean ====
section
/-! DEFINITION. Control flow, calls, join masks, traps and the debugger's halt (11, R208 to R223; R36 to R38; R190, R211). -/

namespace Sys2Proof.Machine

/-- A free number of n bits, and the counter advanced (log 2). -/
def freeNat (s : State) (n : Nat) : Nat := ((List.range n).map fun k => if Config.freeBit s.fresh k then 2 ^ k else 0).sum

/-- NOP (R208). -/
def execNop (c : Ctl) (s : State) : Out := core s (.nop c) fun x => done s x x.t

/-- YIELD (R35, R208). -/
def execYield (c : Ctl) (s : State) : Out := core s (.yield c) fun x => onceFor s x (done s { x with spin := true } x.t)

/-- The block at a signed offset of blocks (R209). -/
def blockAt (pc : PC) (off : BitVec 32) : VAddr := pc.blk + (off.signExtend 80) * 64

/-- BRA (R209). -/
def execBra (c : Ctl) (off : BitVec 32) (s : State) : Out :=
  core s (.bra c off) fun x =>
    settle s x x.t (x.e.mask &&& ~~~x.m) (if x.m = 0 then [] else [(⟨blockAt x.e.pc off, 0⟩, x.m)])

/-- The targets of the participants; the lowest failing lane is reported (R210). -/
def targets (base : Option Nat) (t : Team) (r : Nat) : List Nat → Except Trap (List (Nat × Nat))
  | [] => .ok []
  | l :: ls => match target base l (t.v r l).toNat with
    | .error e => .error e
    | .ok x => match targets base t r ls with
      | .error e => .error e
      | .ok xs => .ok ((x, l) :: xs)

/-- A lane joins the group of its target, targets ascending. -/
def groupIn (x : Nat × Nat) : List (Nat × LaneMask) → List (Nat × LaneMask)
  | [] => [(x.1, laneBit x.2)]
  | g :: gs =>
    if x.1 = g.1 then (g.1, g.2 ||| laneBit x.2) :: gs
    else if x.1 < g.1 then (x.1, laneBit x.2) :: g :: gs
    else g :: groupIn x gs

/-- One entry per distinct target, in ascending order (R210). -/
def groups (xs : List (Nat × Nat)) : List (PC × LaneMask) :=
  (xs.foldl (fun g x => groupIn x g) []).map fun g => (⟨BitVec.ofNat 80 g.1, 0⟩, g.2)

/-- BRX (R210). -/
def execBrx (c : Ctl) (base : SReg) (off : VReg) (s : State) : Out :=
  core s (.brx c base off) fun x =>
    match targets (x.t.pair? base.val) x.t off.val x.ls with
    | .error tr => raise s x (.brx c base off) tr
    | .ok xs => settle s x x.t (x.e.mask &&& ~~~x.m) (groups xs)

/-- The trap of a held fault: it reports its address, but for a stack limit, and a failed walk enters the record (R38, R365, R367). -/
def heldTrap (h : Nat × XFail) : Trap :=
  { code := h.2.code, addr := if h.2.code = 0x0306 then none else some h.1, walk := some h, spill := true }

/-- What a background spill or refill of the frame at an address holds of a failure: a translation fault has a code of its own, and the
failed read of a table entry or of the frame keeps its code and its address, that of the line where it is uncorrectable (R38, Tables 23.2
and 24.1; log 122). -/
def heldFault (frame va : Nat) (f : XFail) : Nat × XFail :=
  if f.code / 256 = 3 then (frame, { f with code := 0x0305 })
  else (if f.code = 0x0902 && f.cause = 16 then lineAddr va else va, f)

/-- A CALL's push and its callers' way, once its target is known; a CALL that finds the cache full traps (R38, R212, R349). -/
def call (s : State) (x : Ctx) (i : Instr) (dst : VAddr) : State :=
  if 32 ≤ x.t.stack.length then
    if x.t.handler then raise s x i { code := 0x0306 }
    else match x.t.heldSpill with
      | some h => raise s x i (heldTrap h)
      | none => s
  else settle s x { x.t with stack := ⟨x.t.nextPC x.e.pc, x.m⟩ :: x.t.stack } (x.e.mask &&& ~~~x.m) [(⟨dst, 0⟩, x.m)]

/-- CALL direct (R212). -/
def execCallDirect (c : Ctl) (off : BitVec 32) (s : State) : Out :=
  core s (.callDirect c off) fun x => onceFor s x (call s x (.callDirect c off) (blockAt x.e.pc off))

/-- CALL indirect (R212). -/
def execCallIndirect (c : Ctl) (base : SReg) (off : VReg) (s : State) : Out :=
  core s (.callIndirect c base off) fun x =>
    onceFor s x <|
      match callTarget x base off with
      | .error tr => raise s x (.callIndirect c base off) tr
      | .ok a => call s x (.callIndirect c base off) (BitVec.ofNat 80 a)

/-- The entry of the lanes that have returned to a frame (R36). -/
def waitsAt (f : Frame) (e : Entry) : Bool := e.hold == .ret && e.pc == f.ret && e.mask &&& ~~~f.mask == 0

/-- Frames whose calling mask has returned or exited are popped, newest first (R36, R213). The lanes that waited arrive at the return PC
with the pop: among the entries there they stand behind those that came earlier, a place the spec leaves open (log 87). -/
def popFrames (flag : VAddr → Bool) (t : Team) : Nat → Team
  | 0 => t
  | n + 1 => match t.stack with
    | [] => t
    | f :: fs =>
      let back := t.entries.foldl (fun m e => if waitsAt f e then m ||| e.mask else m) (0 : LaneMask)
      if f.mask &&& ~~~(back ||| t.gone) = 0 then
        let t := { t with stack := fs, entries := t.entries.filter fun e => !waitsAt f e }
        popFrames flag (if back = 0 then t else t.arrive flag f.ret back false) n
      else t

/-- The pops that are due, with the merges of R34. -/
def State.pop (s : State) (tid : Nat) : State :=
  match s.teams.get? tid with
  | none => s
  | some t => match s.crews.get? t.cid with
    | none => s
    | some c => s.setTeam tid (popFrames (s.entryBit c.part t.core) t t.stack.length)

/-- Lanes join the entry that waits at a frame's return PC (R36). -/
def Team.returnTo (t : Team) (f : Frame) (m : LaneMask) : Team :=
  if t.entries.any (waitsAt f) then
    { t with entries := t.entries.map fun e => if waitsAt f e then { e with mask := e.mask ||| m } else e }
  else { t with entries := t.entries ++ [{ ins := t.nextIns, pc := f.ret, mask := m, hold := .ret }], nextIns := t.nextIns + 1 }

/-- RET (R36, R38, R213). -/
def execRet (c : Ctl) (s : State) : Out :=
  core s (.ret c) fun x =>
    onceFor s x <|
      match x.t.stack with
      | [] => match x.t.heldRefill with
        | some h => raise s x (.ret c) (if x.t.memFrames = 0 then { code := 0x0102 } else heldTrap h)
        | none => raise s x (.ret c) { code := 0x0102 }
      | f :: _ =>
        match x.ls.find? fun l => !f.mask.getLsbD l with
        | some l => raise s x (.ret c) { code := 0x0102, lane := l }
        | none => ((settle s x x.t (x.e.mask &&& ~~~x.m) [] true).updTeam x.tid fun t => t.returnTo f x.m).pop x.tid

/-- Lanes leave the team for good; results bound for them are discarded (R214). -/
def Team.exitLanes (t : Team) (m : LaneMask) : Team :=
  let drop := fun (f : FMap LaneMask) =>
    ((f.map fun e => (e.1, e.2 &&& ~~~m)).filter fun e => e.2 != 0 : FMap LaneMask)
  { t with
    exited := t.exited ||| m, emptyV := drop t.emptyV, heldV := drop t.heldV
    producers := (t.producers.map fun x => match x.insn with
      | .lds _ _ _ _ _ _ _ => x
      | _ => { x with lm := x.lm &&& ~~~m }).filter fun x => x.lm != 0 }

/-- EXIT (R214, R370). The team's end is an event: R214's conditions come later. -/
def execExit (c : Ctl) (s : State) : Out :=
  core s (.exit c) fun x =>
    onceFor s x (reporting s x (.exit c) ((settle s x (x.t.exitLanes x.m) (x.e.mask &&& ~~~x.m) [] true).pop x.tid))

/-- JSET (R215). -/
def execJset (c : Ctl) (j : JReg) (s : State) : Out :=
  core s (.jset c j) fun x =>
    if x.m ≠ 0 && x.t.entries.any (fun e => e.hold == .join j.val) then raise s x (.jset c j) { code := 0x0502 }
    else done s x { x.t with joins := x.t.joins.set j.val { members := x.m, arrived := 0 } }

/-- JARR (R216). -/
def execJarr (c : Ctl) (j : JReg) (s : State) : Out :=
  core s (.jarr c j) fun x =>
    let y := x.t.join j.val
    done s x { x.t with joins := x.t.joins.set j.val { y with arrived := y.arrived ||| (x.m &&& y.members) } }

/-- JWAIT holds its lanes; lanes with a false guard go on (R217). -/
def execJwait (c : Ctl) (j : JReg) (s : State) : Out :=
  core s (.jwait c j) fun x =>
    onceFor s x <|
      (settle s x x.t (x.e.mask &&& ~~~x.m) [] true).updTeam x.tid fun t =>
        { t with entries := t.entries ++ [{ x.e with ins := if x.e.mask = x.m then x.e.ins else t.nextIns
                                                     mask := x.m, hold := .join j.val, back := false }]
                 nextIns := t.nextIns + 1 }

/-- JREAD (R219). -/
def execJread (c : Ctl) (d : PReg) (j : JReg) (s : State) : Out :=
  core s (.jread c d j) fun x => predv s x d.val fun l => (x.t.join j.val).members.getLsbD l

/-- TRAP (R220). -/
def execTrap (c : Ctl) (code : BitVec 16) (s : State) : Out :=
  core s (.trap c code) fun x =>
    onceFor s x <|
      raise s x (.trap c code) { code := if code.toNat < 0xF000 then 0x0102 else code.toNat }

/-- Where a team stands: its running entry, or the one the scheduler will select. The spec names no PC for a team whose entries are all
held; DBGPC is then 0 (log 88). -/
def Team.here (t : Team) : PC :=
  match t.entry? with
  | some e => e.pc
  | none => match t.choose with
    | some e => e.pc
    | none => ⟨0, 0⟩

/-- A halt and its record (R222). -/
def halt (s : State) (tid : Nat) (code : BitVec 16) (req : Bool) : State :=
  match s.teams.get? tid with
  | none => s
  | some t => match s.crews.get? t.cid with
    | none => s
    | some c =>
      if t.halted then s
      else
        (s.setTeam tid { t with halted := true }).updPart c.part fun p => { p with
          msix := p.msix + 1
          dbg := { p.dbg with
            code := if req then 0 else code, cause := req, team := BitVec.ofNat 4 t.num
            quarter := BitVec.ofNat 2 t.quarter, core := BitVec.ofNat 7 t.core, pc := t.here, crew := BitVec.ofNat 32 c.num } }

/-- A HALTREQ that met a host atomic halts the team at the boundary after it (R222). -/
def haltIfAsked (s : State) (tid : Nat) : State :=
  match s.teams.get? tid with
  | some t =>
    if t.haltAsked && t.hostAtomic.isNone then
      let s' := s.setTeam tid { t with haltAsked := false }
      match s.crews.get? t.cid with
      | some c => if (s.part c.part).dbg.en then halt s' tid 0 true else s'
      | none => s'
    else s
  | none => s

/-- BRK (R221). -/
def execBrk (c : Ctl) (code : BitVec 16) (s : State) : Out :=
  core s (.brk c code) fun x =>
    let s' := done s x x.t
    if x.m ≠ 0 && (s.part x.part).dbg.en then halt s' x.tid code false else s'

/-- TRET (R223, R350); with a guard field other than 0 it is a reserved use whatever the guard's value. -/
def execTret (c : Ctl) (s : State) : Out :=
  core s (.tret c) fun x => if x.t.handler && c.g = 0 then (leaveHandler s x.tid).pop x.tid else raise s x (.tret c) { code := 0x0102 }

/-! ### Events of control flow -/

/-- A fault of the block an entry would take first is raised at its PC. The frame's WORD is then open: no instruction was
fetched (R211, R347; log 2). -/
def fetchFault (s : State) (tid : Nat) (e : Entry) (tr : Trap) : State :=
  { teamFault s tid e e.pc (freeNat s 96) tr with fresh := s.fresh + 1 }

/-- CORE_FETCH: the block of the running entry (R190, R211). A PC at or above COUNT goes on at the next block (R189; log 14). A halted team
fetches nothing (R222); an uncorrectable line is reported by its own address (Table 24.1). -/
def coreFetch (s : State) (tid : Nat) : State :=
  match s.teams.get? tid with
  | none => s
  | some t => match t.entry?, s.crews.get? t.cid with
    | some e, some c =>
      if t.halted then s else
      let s := s.asking (t.wantSince.getD s.clock)
      let va := e.pc.blk.toNat
      match touch s c.part t.core va { fetch := true, bytes := 64 } with
      | .error (f, s') => fetchFault s' tid e { code := f.code, addr := some va, walk := some (va, f) }
      | .ok (s', o) =>
        match dataFailure s' c.part o.store o.addr with
        | some code => fetchFault s' tid e { code, addr := some (if code = 0x0902 then lineAddr va else va) }
        | none =>
          let b : Block := { addr := e.pc.blk, bits := s'.load o.store o.addr 64 }
          match b.coreFault with
          | some code => fetchFault s' tid e { code }
          | none =>
            if e.pc.slot < b.count then s'.setTeam tid { t with block := some b }
            else
              let t := { t with entries := t.entries.filter (fun x => x.ins != e.ins), run := none }
              s'.setTeam tid (t.arrive (s'.entryBit c.part t.core) ⟨nextBlock e.pc.blk, 0⟩ e.mask false)
    | _, _ => s

def execCoreFetch (tid : Nat) (s : State) : Out := .next (coreFetch s tid)

/-- The entries held at a JWAIT on a join mask (R217). -/
def heldAt (pc : PC) (h : Hold) (e : Entry) : Bool := e.pc == pc && e.hold == h

def unionOf (es : List Entry) : LaneMask := es.foldl (fun m e => m ||| e.mask) 0

/-- Lanes of entries whose PC is later (R217, R258). -/
def Team.later (t : Team) (pc : PC) : LaneMask := unionOf (t.entries.filter fun e => pc.lt e.pc)

/-- R217's release condition. -/
def Team.joinReady (t : Team) (pc : PC) (j : Nat) : Bool :=
  let held := unionOf (t.entries.filter (heldAt pc (.join j)))
  held != 0 && (t.join j).members &&& ~~~((t.join j).arrived ||| t.gone ||| held ||| t.later pc) == 0

/-- JWAIT_RELEASE (R217, R218). A halted team keeps its frontier and its join masks (R222). -/
def joinRelease (s : State) (tid : Nat) (pc : PC) (j : Nat) : State :=
  match s.teams.get? tid with
  | none => s
  | some t => match s.crews.get? t.cid with
    | none => s
    | some c =>
      if t.run.isNone && !t.halted && t.joinReady pc j then
        let held := unionOf (t.entries.filter (heldAt pc (.join j)))
        let y := t.join j
        let passed := y.members &&& t.later pc &&& ~~~held
        let t' : Team := { t with
          entries := t.entries.filter fun e => !heldAt pc (.join j) e
          joins := t.joins.set j { members := y.members &&& ~~~passed &&& ~~~t.gone, arrived := 0 }
          run := none }
        let t' := t'.arrive (s.entryBit c.part t.core) (s.nextPC c.part t.core t pc) held false
        let s := s.setTeam tid t'
        if passed = 0 then s else s.updPart c.part fun p => { p with jpass := p.jpass + 1 }
      else s

def execJwaitRelease (tid : Nat) (pc : PC) (j : JReg) (s : State) : Out := .next (joinRelease s tid pc j.val)

/-! ### Spill and refill -/

/-- The address of frame n of the stack region (R37). -/
def frameAddr (t : Team) (n : Nat) : Nat := (t.stkbase.toNat + 160 * n) % 2 ^ 64

/-- Sorted cells of a return frame, from 0 on. -/
def frameImg (f : Frame) : Memory := fieldCells (frameFields 0 f)

/-- The background spill, and the refill, have a frame to move; a halted team keeps its stack cache (R37, R222). -/
def Team.spillDue (t : Team) : Bool := 28 < t.stack.length && !t.handler && !t.halted
def Team.refillDue (t : Team) : Bool := t.stack.length < 4 && t.memFrames ≠ 0 && !t.halted

/-- The stores of a spill are still to be completed (R138, R368). -/
def Team.addSpill (t : Team) (ws : List OutWrite) : Team := t.addWrites (ws.map fun w => { w with spill := true })

/-- The stores of spills to the frame at an address (R38). -/
def Team.spillsOf (t : Team) (a : Nat) : FMap OutWrite :=
  t.writes.filter fun (e : Nat × OutWrite) => e.2.spill && decide (e.2.addr < a + 160) && decide (a < e.2.addr + max e.2.len 1)

/-- STACK_SPILL: the oldest cached frame goes to memory in the background when the cache holds more than 28; no release waits for its
stores (R37, R38). The stores are plain accesses of 8 bytes, which register space takes (log 125). -/
def stackSpill (s : State) (tid : Nat) : State :=
  match s.teams.get? tid with
  | none => s
  | some t => match s.crews.get? t.cid with
    | none => s
    | some c =>
      if t.spillDue && t.heldSpill.isNone then
        let s := s.asking (t.stackSince.getD s.clock)
        let a := frameAddr t t.memFrames
        if t.stklim.toNat < t.stkbase.toNat + 160 * (t.memFrames + 1) then
          s.setTeam tid { t with heldSpill := some (a, { code := 0x0306 }) }
        else match storeImage c.part t.core a 160 (frameImg (t.stack.getLastD ⟨⟨0, 0⟩, 0⟩)) { s } 3 0 with
          | .error (va, f, x) => x.s.setTeam tid { t.addSpill x.writes with heldSpill := some (heldFault a va f) }
          | .ok x => x.s.setTeam tid { t.addSpill x.writes with
              stack := t.stack.dropLast, memFrames := t.memFrames + 1, stackSince := none }
      else s

def execStackSpill (tid : Nat) (s : State) : Out := .next (stackSpill s tid)

/-- The newest spilled frame is read (R37, R38). -/
def refillRead (s : State) (tid : Nat) (t : Team) (c : Crew) (a : Nat) : State :=
  match loadImage s c.part t.core a 160 3 0 with
  | .error (va, f, s') => s'.setTeam tid { t with heldRefill := some (heldFault a va f) }
  | .ok (s', m) =>
    let lo := m.read 128 8
    let f : Frame := { ret := ⟨BitVec.ofNat 80 (lo / 64 * 64 + m.read 136 2 * 2 ^ 64), lo % 8⟩, mask := BitVec.ofNat 1024 (m.read 0 128) }
    (s'.setTeam tid { t with stack := t.stack ++ [f], memFrames := t.memFrames - 1, stackSince := none }).pop tid

/-- STACK_REFILL: the newest spilled frame comes back when the cache holds fewer than 4. It waits for the stores of that frame's spill, and
one that failed is the refill's fault (R37, R38, R370). -/
def stackRefill (s : State) (tid : Nat) : State :=
  match s.teams.get? tid with
  | none => s
  | some t => match s.crews.get? t.cid with
    | none => s
    | some c =>
      if t.refillDue && t.heldRefill.isNone then
        let s := s.asking (t.stackSince.getD s.clock)
        let a := frameAddr t (t.memFrames - 1)
        let ws := t.spillsOf a
        if ws.any fun e => e.2.failed.isNone then s
        else match ws with
          | (n, w) :: _ =>
            s.setTeam tid { t with heldRefill := some (w.addr, { code := w.failed.getD 0 }), writes := t.writes.erase n }
          | [] => refillRead s tid t c a
      else s

def execStackRefill (tid : Nat) (s : State) : Out := .next (stackRefill s tid)

end Sys2Proof.Machine
end

