-- ==== Sys2Proof/Machine/Integer.lean ====
section
/-! DEFINITION. Integer, predicate and move instructions on vector registers, and special registers (11, R206, R207, R224 to R236). -/

namespace Sys2Proof.Machine

/-! ### Operations on 32-bit words -/

/-- SAT to a range (R228). -/
def clamp (lo hi x : Int) : Int := if x < lo then lo else if hi < x then hi else x

/-- ADDSAT and SUBSAT (R228). -/
def addSat (uns : Bool) (a b : Word) : Word :=
  if uns then BitVec.ofInt 32 (clamp 0 (2 ^ 32 - 1) (a.toNat + b.toNat)) else BitVec.ofInt 32 (clamp (-2 ^ 31) (2 ^ 31 - 1) (a.toInt + b.toInt))
def subSat (uns : Bool) (a b : Word) : Word :=
  if uns then BitVec.ofInt 32 (clamp 0 (2 ^ 32 - 1) ((a.toNat : Int) - b.toNat))
  else BitVec.ofInt 32 (clamp (-2 ^ 31) (2 ^ 31 - 1) (a.toInt - b.toInt))

/-- The high halves of a product (R229). -/
def mulHis (a b : Word) : Word := (a.signExtend 64 * b.signExtend 64).extractLsb' 32 32
def mulHin (a b : Word) : Word := (a.setWidth 64 * b.setWidth 64).extractLsb' 32 32

/-- Shifts; the count is unsigned and may be 32 or more (R231). -/
def shl (a b : Word) : Word := if 32 ≤ b.toNat then 0 else a <<< b.toNat
def shr (a b : Word) : Word := if 32 ≤ b.toNat then 0 else a >>> b.toNat
def sar (a b : Word) : Word := if 32 ≤ b.toNat then (if a.msb then BitVec.allOnes 32 else 0) else a.sshiftRight b.toNat
def rol (a b : Word) : Word := a.rotateLeft (b.toNat % 32)

/-- Position and length of BITF (R232). -/
def bfPos (b : Word) : Nat := b.toNat % 32
def bfLen (b : Word) : Nat := b.toNat / 256 % 32

/-- BFE: the field, with A's sign above bit 31, sign-extended from its length (R232). -/
def bfe (a b : Word) : Word :=
  let f := ((a.signExtend 64).sshiftRight (bfPos b)).toNat % 2 ^ bfLen b
  if bfLen b = 0 then 0 else if f < 2 ^ (bfLen b - 1) then BitVec.ofNat 32 f else BitVec.ofNat 32 (f + 2 ^ 32 - 2 ^ bfLen b)
def bfen (a b : Word) : Word := BitVec.ofNat 32 (a.toNat / 2 ^ bfPos b % 2 ^ bfLen b)
def bfi (a b x : Word) : Word :=
  let m : Word := BitVec.ofNat 32 ((2 ^ bfLen b - 1) * 2 ^ bfPos b)
  (x &&& ~~~m) ||| ((a <<< bfPos b) &&& m)

/-- Bit counts and reversal (R233). -/
def popc (a : Word) : Word := BitVec.ofNat 32 ((List.range 32).filter fun i => a.getLsbD i).length
def clz (a : Word) : Word := BitVec.ofNat 32 (32 - bitLen a.toNat)
def ctz (a : Word) : Word := BitVec.ofNat 32 (((List.range 32).find? fun i => a.getLsbD i).getD 32)
def brev (a : Word) : Word := a.reverse

/-- The lesser and the greater, signed or unsigned (R234). -/
def minS (a b : Word) : Word := if b.slt a then b else a
def maxS (a b : Word) : Word := if a.slt b then b else a
def minU (a b : Word) : Word := if b.ult a then b else a
def maxU (a b : Word) : Word := if a.ult b then b else a

/-- Division truncates toward zero; a zero divisor gives all ones and the dividend (R235). -/
def divn (a b : Word) : Word := if b = 0 then BitVec.allOnes 32 else a / b
def remn (a b : Word) : Word := if b = 0 then a else a % b
def divs (a b : Word) : Word := if b = 0 then BitVec.allOnes 32 else BitVec.ofInt 32 (a.toInt.tdiv b.toInt)
def rems (a b : Word) : Word := if b = 0 then a else BitVec.ofInt 32 (a.toInt - a.toInt.tdiv b.toInt * b.toInt)

/-! ### Comparisons, predicates, selection -/

/-- ICMP.EQ (R224). -/
def execIcmpEq (c : Ctl) (d : PReg) (a : VReg) (b : VB) (s : State) : Out :=
  core s (.icmpEq c d a b) fun x => predv s x d.val fun l => CC.eq.eval (x.t.v a.val l) (x.t.vb b l)

/-- ICMP.NE (R224). -/
def execIcmpNe (c : Ctl) (d : PReg) (a : VReg) (b : VB) (s : State) : Out :=
  core s (.icmpNe c d a b) fun x => predv s x d.val fun l => CC.ne.eval (x.t.v a.val l) (x.t.vb b l)

/-- ICMP.LT (R224). -/
def execIcmpLt (c : Ctl) (d : PReg) (a : VReg) (b : VB) (s : State) : Out :=
  core s (.icmpLt c d a b) fun x => predv s x d.val fun l => CC.lt.eval (x.t.v a.val l) (x.t.vb b l)

/-- ICMP.LE (R224). -/
def execIcmpLe (c : Ctl) (d : PReg) (a : VReg) (b : VB) (s : State) : Out :=
  core s (.icmpLe c d a b) fun x => predv s x d.val fun l => CC.le.eval (x.t.v a.val l) (x.t.vb b l)

/-- ICMP.GT (R224). -/
def execIcmpGt (c : Ctl) (d : PReg) (a : VReg) (b : VB) (s : State) : Out :=
  core s (.icmpGt c d a b) fun x => predv s x d.val fun l => CC.gt.eval (x.t.v a.val l) (x.t.vb b l)

/-- ICMP.GE (R224). -/
def execIcmpGe (c : Ctl) (d : PReg) (a : VReg) (b : VB) (s : State) : Out :=
  core s (.icmpGe c d a b) fun x => predv s x d.val fun l => CC.ge.eval (x.t.v a.val l) (x.t.vb b l)

/-- ICMP.LTN (R224). -/
def execIcmpLtn (c : Ctl) (d : PReg) (a : VReg) (b : VB) (s : State) : Out :=
  core s (.icmpLtn c d a b) fun x => predv s x d.val fun l => CC.ltn.eval (x.t.v a.val l) (x.t.vb b l)

/-- ICMP.LEN (R224). -/
def execIcmpLen (c : Ctl) (d : PReg) (a : VReg) (b : VB) (s : State) : Out :=
  core s (.icmpLen c d a b) fun x => predv s x d.val fun l => CC.len.eval (x.t.v a.val l) (x.t.vb b l)

/-- ICMP.GTN (R224). -/
def execIcmpGtn (c : Ctl) (d : PReg) (a : VReg) (b : VB) (s : State) : Out :=
  core s (.icmpGtn c d a b) fun x => predv s x d.val fun l => CC.gtn.eval (x.t.v a.val l) (x.t.vb b l)

/-- ICMP.GEN (R224). -/
def execIcmpGen (c : Ctl) (d : PReg) (a : VReg) (b : VB) (s : State) : Out :=
  core s (.icmpGen c d a b) fun x => predv s x d.val fun l => CC.gen.eval (x.t.v a.val l) (x.t.vb b l)

/-- PLOP.AND (R225). -/
def execPlopAnd (c : Ctl) (d a b : PReg) (s : State) : Out :=
  core s (.plopAnd c d a b) fun x => done s x (x.t.setP d.val x.m (PlopOp.and.eval (x.t.p a.val) (x.t.p b.val)))

/-- PLOP.OR (R225). -/
def execPlopOr (c : Ctl) (d a b : PReg) (s : State) : Out :=
  core s (.plopOr c d a b) fun x => done s x (x.t.setP d.val x.m (PlopOp.or.eval (x.t.p a.val) (x.t.p b.val)))

/-- PLOP.XOR (R225). -/
def execPlopXor (c : Ctl) (d a b : PReg) (s : State) : Out :=
  core s (.plopXor c d a b) fun x => done s x (x.t.setP d.val x.m (PlopOp.xor.eval (x.t.p a.val) (x.t.p b.val)))

/-- PLOP.ANDN (R225). -/
def execPlopAndn (c : Ctl) (d a b : PReg) (s : State) : Out :=
  core s (.plopAndn c d a b) fun x => done s x (x.t.setP d.val x.m (PlopOp.andn.eval (x.t.p a.val) (x.t.p b.val)))

/-- PLOP.NOT (R225). -/
def execPlopNot (c : Ctl) (d a : PReg) (s : State) : Out :=
  core s (.plopNot c d a) fun x => done s x (x.t.setP d.val x.m (PlopOp.not.eval (x.t.p a.val) 0))

/-- PLOP.MOV (R225). -/
def execPlopMov (c : Ctl) (d a : PReg) (s : State) : Out :=
  core s (.plopMov c d a) fun x => done s x (x.t.setP d.val x.m (PlopOp.mov.eval (x.t.p a.val) 0))

/-- SEL (R226). -/
def execSel (c : Ctl) (d a b : VReg) (p : PReg) (inv : Bool) (s : State) : Out :=
  core s (.sel c d a b p inv) fun x => vec s x d.val fun l =>
    if (x.t.p p.val).getLsbD l != inv then x.t.v a.val l else x.t.v b.val l

/-! ### Moves -/

/-- MOV reg (R227). -/
def execMovReg (c : Ctl) (d a : VReg) (s : State) : Out := core s (.movReg c d a) fun x => vec s x d.val fun l => x.t.v a.val l

/-- MOV imm (R227). -/
def execMovImm (c : Ctl) (d : VReg) (i : Word) (s : State) : Out := core s (.movImm c d i) fun x => vec s x d.val fun _ => i

/-- MOV S2V (R227). -/
def execMovS2V (c : Ctl) (d : VReg) (a : SReg) (hi : Bool) (s : State) : Out :=
  core s (.movS2V c d a hi) fun x => vec s x d.val fun _ => (x.t.s a.val).extractLsb' (if hi then 32 else 0) 32

/-- One half of a scalar register replaced (R227, R240). -/
def setHalf (hi : Bool) (old : DWord) (w : Word) : DWord :=
  if hi then w ++ old.extractLsb' 0 32 else old.extractLsb' 32 32 ++ w

/-- MOV V2S (R204, R227). -/
def execMovV2S (c : Ctl) (d : SReg) (a : VReg) (hi : Bool) (s : State) : Out :=
  core s (.movV2S c d a hi) fun x => scal s x d.val (setHalf hi (x.t.s d.val) (x.t.v a.val x.low))

/-! ### Special registers -/

/-- A special register's value in a lane (Tables 02.4, 11.1). A core's counter runs from its first crew on (R45; log 2). -/
def specValue (s : State) (x : Ctx) (r : Spec) (l : Nat) : DWord :=
  match r with
  | .lane => BitVec.ofNat 64 l
  | .team => BitVec.ofNat 64 x.t.num
  | .crew => BitVec.ofNat 64 x.crew.num
  | .launch => x.crew.launch
  | .core => BitVec.ofNat 64 x.core
  | .quarter => BitVec.ofNat 64 (x.t.quarter % 4)
  | .migr => if x.t.migr then 1 else 0
  | .cycles =>
    let k := (s.coreStatOf x.core).phys.toNat
    BitVec.ofNat 64 (s.clock - Config.cycleOffset s.epoch k % (s.firstWork.getD k 0 + 1))
  | .stkbase => x.t.stkbase
  | .stklim => x.t.stklim
  | .bufd => x.t.bufd
  | .bufa => x.t.bufa
  | .bufb => x.t.bufb
  | .tsave => x.t.tsave
  | .tvec => x.t.tvec
  | .tcause => x.t.tcause.setWidth 64
  | .draws => (x.t.draws.getD l 0).setWidth 64
  | .nlanes => BitVec.ofNat 64 x.t.nlanes
  | .nteams => BitVec.ofNat 64 x.crew.nteams
  | .ncrew => BitVec.ofNat 64 x.crew.ncrew

/-- SREG read (R207). -/
def execSregRead (c : Ctl) (d : VC) (a : Spec) (s : State) : Out :=
  core s (.sregRead c d a) fun x => match d with
    | .v r => vec s x r.val fun l => (specValue s x a l).setWidth 32
    | .s r => scal s x r.val (specValue s x a x.low)

/-- The team with a special register written; none where the write faults, with the code (R207, R116, R351). -/
def writeSpec (t : Team) (r : Spec) (v : DWord) : Except Nat Team :=
  let inMemory := t.memFrames + t.outerFrames != 0
  match r with
  | .migr => .ok { t with migr := v.getLsbD 0 }
  | .tsave => if v.toNat % 64 ≠ 0 then .error 0x0102 else .ok { t with tsave := v }
  | .tvec => if v.toNat % 64 ≠ 0 then .error 0x0102 else .ok { t with tvec := v }
  | .stkbase =>
    if v.toNat % 32 ≠ 0 then .error 0x0102 else if inMemory then .error 0x0306 else .ok { t with stkbase := v }
  | .stklim =>
    if inMemory && !(t.handler && t.spillIn && t.stklim.toNat ≤ v.toNat) then .error 0x0306 else .ok { t with stklim := v }
  | _ => .error 0x0102

/-- SREG write (R207). -/
def execSregWrite (c : Ctl) (d : Spec) (a : VC) (s : State) : Out :=
  core s (.sregWrite c d a) fun x =>
    onceFor s x <|
      match writeSpec x.t d (match a with
        | .v r => (x.t.v r.val x.low).setWidth 64
        | .s r => x.t.s r.val) with
      | .ok t => done s x t
      | .error code => raise s x (.sregWrite c d a) { code }

/-! ### Arithmetic, logic, shifts, bit fields, division -/

/-- IADD.ADD (R228). -/
def execIaddAdd (c : Ctl) (d a : VReg) (b : VB) (s : State) : Out :=
  core s (.iaddAdd c d a b) fun x => vec s x d.val fun l => (x.t.v a.val l) + (x.t.vb b l)

/-- IADD.SUB (R228). -/
def execIaddSub (c : Ctl) (d a : VReg) (b : VB) (s : State) : Out :=
  core s (.iaddSub c d a b) fun x => vec s x d.val fun l => (x.t.v a.val l) - (x.t.vb b l)

/-- IADD.ADDSAT (R228). -/
def execIaddAddsat (c : Ctl) (d a : VReg) (b : VB) (uns : Bool) (s : State) : Out :=
  core s (.iaddAddsat c d a b uns) fun x => vec s x d.val fun l => addSat uns (x.t.v a.val l) (x.t.vb b l)

/-- IADD.SUBSAT (R228). -/
def execIaddSubsat (c : Ctl) (d a : VReg) (b : VB) (uns : Bool) (s : State) : Out :=
  core s (.iaddSubsat c d a b uns) fun x => vec s x d.val fun l => subSat uns (x.t.v a.val l) (x.t.vb b l)

/-- IADD.NEG (R228). -/
def execIaddNeg (c : Ctl) (d a : VReg) (s : State) : Out :=
  core s (.iaddNeg c d a) fun x => vec s x d.val fun l => -(x.t.v a.val l)

/-- IMUL.LO (R229). -/
def execImulLo (c : Ctl) (d a : VReg) (b : VB) (s : State) : Out :=
  core s (.imulLo c d a b) fun x => vec s x d.val fun l => (x.t.v a.val l) * (x.t.vb b l)

/-- IMUL.HIS (R229). -/
def execImulHis (c : Ctl) (d a : VReg) (b : VB) (s : State) : Out :=
  core s (.imulHis c d a b) fun x => vec s x d.val fun l => mulHis (x.t.v a.val l) (x.t.vb b l)

/-- IMUL.HIN (R229). -/
def execImulHin (c : Ctl) (d a : VReg) (b : VB) (s : State) : Out :=
  core s (.imulHin c d a b) fun x => vec s x d.val fun l => mulHin (x.t.v a.val l) (x.t.vb b l)

/-- IMUL.MAD (R229). -/
def execImulMad (c : Ctl) (d a b : VReg) (y : VC) (s : State) : Out :=
  core s (.imulMad c d a b y) fun x => vec s x d.val fun l => x.t.v a.val l * x.t.v b.val l + x.t.vc y l

/-- LOGIC.AND (R230). -/
def execLogicAnd (c : Ctl) (d a : VReg) (b : VB) (s : State) : Out :=
  core s (.logicAnd c d a b) fun x => vec s x d.val fun l => (x.t.v a.val l) &&& (x.t.vb b l)

/-- LOGIC.OR (R230). -/
def execLogicOr (c : Ctl) (d a : VReg) (b : VB) (s : State) : Out :=
  core s (.logicOr c d a b) fun x => vec s x d.val fun l => (x.t.v a.val l) ||| (x.t.vb b l)

/-- LOGIC.XOR (R230). -/
def execLogicXor (c : Ctl) (d a : VReg) (b : VB) (s : State) : Out :=
  core s (.logicXor c d a b) fun x => vec s x d.val fun l => (x.t.v a.val l) ^^^ (x.t.vb b l)

/-- LOGIC.ANDN (R230). -/
def execLogicAndn (c : Ctl) (d a : VReg) (b : VB) (s : State) : Out :=
  core s (.logicAndn c d a b) fun x => vec s x d.val fun l => (x.t.v a.val l) &&& ~~~(x.t.vb b l)

/-- LOGIC.NOT (R230). -/
def execLogicNot (c : Ctl) (d a : VReg) (s : State) : Out :=
  core s (.logicNot c d a) fun x => vec s x d.val fun l => ~~~(x.t.v a.val l)

/-- SHIFT.SHL (R231). -/
def execShiftShl (c : Ctl) (d a : VReg) (b : VB) (s : State) : Out :=
  core s (.shiftShl c d a b) fun x => vec s x d.val fun l => shl (x.t.v a.val l) (x.t.vb b l)

/-- SHIFT.SHR (R231). -/
def execShiftShr (c : Ctl) (d a : VReg) (b : VB) (s : State) : Out :=
  core s (.shiftShr c d a b) fun x => vec s x d.val fun l => shr (x.t.v a.val l) (x.t.vb b l)

/-- SHIFT.SAR (R231). -/
def execShiftSar (c : Ctl) (d a : VReg) (b : VB) (s : State) : Out :=
  core s (.shiftSar c d a b) fun x => vec s x d.val fun l => sar (x.t.v a.val l) (x.t.vb b l)

/-- SHIFT.ROL (R231). -/
def execShiftRol (c : Ctl) (d a : VReg) (b : VB) (s : State) : Out :=
  core s (.shiftRol c d a b) fun x => vec s x d.val fun l => rol (x.t.v a.val l) (x.t.vb b l)

/-- BITF.BFE (R232). -/
def execBitfBfe (c : Ctl) (d a : VReg) (b : VB) (s : State) : Out :=
  core s (.bitfBfe c d a b) fun x => vec s x d.val fun l => bfe (x.t.v a.val l) (x.t.vb b l)

/-- BITF.BFEN (R232). -/
def execBitfBfen (c : Ctl) (d a : VReg) (b : VB) (s : State) : Out :=
  core s (.bitfBfen c d a b) fun x => vec s x d.val fun l => bfen (x.t.v a.val l) (x.t.vb b l)

/-- BITF.BFI (R232). -/
def execBitfBfi (c : Ctl) (d a b : VReg) (y : VC) (s : State) : Out :=
  core s (.bitfBfi c d a b y) fun x => vec s x d.val fun l => bfi (x.t.v a.val l) (x.t.v b.val l) (x.t.vc y l)

/-- BITC.POPC (R233). -/
def execBitcPopc (c : Ctl) (d a : VReg) (s : State) : Out :=
  core s (.bitcPopc c d a) fun x => vec s x d.val fun l => popc (x.t.v a.val l)

/-- BITC.CLZ (R233). -/
def execBitcClz (c : Ctl) (d a : VReg) (s : State) : Out :=
  core s (.bitcClz c d a) fun x => vec s x d.val fun l => clz (x.t.v a.val l)

/-- BITC.CTZ (R233). -/
def execBitcCtz (c : Ctl) (d a : VReg) (s : State) : Out :=
  core s (.bitcCtz c d a) fun x => vec s x d.val fun l => ctz (x.t.v a.val l)

/-- BITC.BREV (R233). -/
def execBitcBrev (c : Ctl) (d a : VReg) (s : State) : Out :=
  core s (.bitcBrev c d a) fun x => vec s x d.val fun l => brev (x.t.v a.val l)

/-- IMINMAX.MIN (R234). -/
def execIminmaxMin (c : Ctl) (d a : VReg) (b : VB) (s : State) : Out :=
  core s (.iminmaxMin c d a b) fun x => vec s x d.val fun l => minS (x.t.v a.val l) (x.t.vb b l)

/-- IMINMAX.MAX (R234). -/
def execIminmaxMax (c : Ctl) (d a : VReg) (b : VB) (s : State) : Out :=
  core s (.iminmaxMax c d a b) fun x => vec s x d.val fun l => maxS (x.t.v a.val l) (x.t.vb b l)

/-- IMINMAX.MINN (R234). -/
def execIminmaxMinn (c : Ctl) (d a : VReg) (b : VB) (s : State) : Out :=
  core s (.iminmaxMinn c d a b) fun x => vec s x d.val fun l => minU (x.t.v a.val l) (x.t.vb b l)

/-- IMINMAX.MAXN (R234). -/
def execIminmaxMaxn (c : Ctl) (d a : VReg) (b : VB) (s : State) : Out :=
  core s (.iminmaxMaxn c d a b) fun x => vec s x d.val fun l => maxU (x.t.v a.val l) (x.t.vb b l)

/-- IDIV.DIVN (R235). -/
def execIdivDivn (c : Ctl) (d a : VReg) (b : VB) (s : State) : Out :=
  core s (.idivDivn c d a b) fun x => vec s x d.val fun l => divn (x.t.v a.val l) (x.t.vb b l)

/-- IDIV.REMN (R235). -/
def execIdivRemn (c : Ctl) (d a : VReg) (b : VB) (s : State) : Out :=
  core s (.idivRemn c d a b) fun x => vec s x d.val fun l => remn (x.t.v a.val l) (x.t.vb b l)

/-- IDIV.DIVS (R235). -/
def execIdivDivs (c : Ctl) (d a : VReg) (b : VB) (s : State) : Out :=
  core s (.idivDivs c d a b) fun x => vec s x d.val fun l => divs (x.t.v a.val l) (x.t.vb b l)

/-- IDIV.REMS (R235). -/
def execIdivRems (c : Ctl) (d a : VReg) (b : VB) (s : State) : Out :=
  core s (.idivRems c d a b) fun x => vec s x d.val fun l => rems (x.t.v a.val l) (x.t.vb b l)

/-- LEA (R236). -/
def execLea (c : Ctl) (d a b : VReg) (sh : BitVec 5) (s : State) : Out :=
  core s (.lea c d a b sh) fun x => vec s x d.val fun l => x.t.v a.val l + (x.t.v b.val l <<< sh.toNat)

end Sys2Proof.Machine
end

