-- ==== Sys2Proof/Machine/Scalar.lean ====
section
/-! DEFINITION. Instructions on scalar registers, which act once for the team (R204, R237 to R240). -/

namespace Sys2Proof.Machine

/-- The operations of SALU and KALU on 64 bits (R237, R306). -/
def alu (op : AluOp) (uns : Bool) (a b : DWord) : DWord :=
  match op with
  | .add => a + b
  | .sub => a - b
  | .mul => a * b
  | .and => a &&& b
  | .or => a ||| b
  | .xor => a ^^^ b
  | .shl => if 64 ≤ b.toNat then 0 else a <<< b.toNat
  | .shr => if 64 ≤ b.toNat then 0 else a >>> b.toNat
  | .sar => if 64 ≤ b.toNat then (if a.msb then BitVec.allOnes 64 else 0) else a.sshiftRight b.toNat
  | .min => if (if uns then b.ult a else b.slt a) then b else a
  | .max => if (if uns then a.ult b else a.slt b) then b else a

/-- SALU.ADD (R237). -/
def execSaluAdd (c : Ctl) (d a : SReg) (b : SB) (s : State) : Out :=
  core s (.saluAdd c d a b) fun x => scal s x d.val (alu .add false (x.t.s a.val) (x.t.sb b))

/-- SALU.SUB (R237). -/
def execSaluSub (c : Ctl) (d a : SReg) (b : SB) (s : State) : Out :=
  core s (.saluSub c d a b) fun x => scal s x d.val (alu .sub false (x.t.s a.val) (x.t.sb b))

/-- SALU.MUL (R237). -/
def execSaluMul (c : Ctl) (d a : SReg) (b : SB) (s : State) : Out :=
  core s (.saluMul c d a b) fun x => scal s x d.val (alu .mul false (x.t.s a.val) (x.t.sb b))

/-- SALU.AND (R237). -/
def execSaluAnd (c : Ctl) (d a : SReg) (b : SB) (s : State) : Out :=
  core s (.saluAnd c d a b) fun x => scal s x d.val (alu .and false (x.t.s a.val) (x.t.sb b))

/-- SALU.OR (R237). -/
def execSaluOr (c : Ctl) (d a : SReg) (b : SB) (s : State) : Out :=
  core s (.saluOr c d a b) fun x => scal s x d.val (alu .or false (x.t.s a.val) (x.t.sb b))

/-- SALU.XOR (R237). -/
def execSaluXor (c : Ctl) (d a : SReg) (b : SB) (s : State) : Out :=
  core s (.saluXor c d a b) fun x => scal s x d.val (alu .xor false (x.t.s a.val) (x.t.sb b))

/-- SALU.SHL (R237). -/
def execSaluShl (c : Ctl) (d a : SReg) (b : SB) (s : State) : Out :=
  core s (.saluShl c d a b) fun x => scal s x d.val (alu .shl false (x.t.s a.val) (x.t.sb b))

/-- SALU.SHR (R237). -/
def execSaluShr (c : Ctl) (d a : SReg) (b : SB) (s : State) : Out :=
  core s (.saluShr c d a b) fun x => scal s x d.val (alu .shr false (x.t.s a.val) (x.t.sb b))

/-- SALU.SAR (R237). -/
def execSaluSar (c : Ctl) (d a : SReg) (b : SB) (s : State) : Out :=
  core s (.saluSar c d a b) fun x => scal s x d.val (alu .sar false (x.t.s a.val) (x.t.sb b))

/-- SALU.MIN (R237). -/
def execSaluMin (c : Ctl) (d a : SReg) (b : SB) (uns : Bool) (s : State) : Out :=
  core s (.saluMin c d a b uns) fun x => scal s x d.val (alu .min uns (x.t.s a.val) (x.t.sb b))

/-- SALU.MAX (R237). -/
def execSaluMax (c : Ctl) (d a : SReg) (b : SB) (uns : Bool) (s : State) : Out :=
  core s (.saluMax c d a b uns) fun x => scal s x d.val (alu .max uns (x.t.s a.val) (x.t.sb b))

/-- SCMP (R238). Its immediate is sign-extended under an unsigned comparison too (log 130). -/
def execScmp (c : Ctl) (cc : CC) (d : PReg) (a : SReg) (b : SB) (s : State) : Out :=
  core s (.scmp c cc d a b) fun x => predv s x d.val fun _ => cc.eval (x.t.s a.val) (x.t.sb b)

/-- A pair takes an 80-bit address (R94). -/
def Team.setPair (t : Team) (r : Nat) (v : Nat) : Team :=
  (t.setS r (BitVec.ofNat 64 v)).setS (r + 1) (BitVec.ofNat 64 (v / 2 ^ 64 % 2 ^ 16))

/-- ADDR (R239). -/
def execAddr (c : Ctl) (d a : SReg) (b : SB) (s : State) : Out :=
  core s (.addr c d a b) fun x =>
    onceFor s x <|
      match x.t.pair? a.val with
      | none => raise s x (.addr c d a b) { code := 0x0304 }
      | some v => done s x (x.t.setPair d.val (((v : Int) + (x.t.sb b).toInt) % 2 ^ 80).toNat)

/-- SMOVI.LO (R240). -/
def execSmoviLo (c : Ctl) (d : SReg) (i : Word) (s : State) : Out :=
  core s (.smoviLo c d i) fun x => scal s x d.val (setHalf false (x.t.s d.val) i)

/-- SMOVI.HI (R240). -/
def execSmoviHi (c : Ctl) (d : SReg) (i : Word) (s : State) : Out :=
  core s (.smoviHi c d i) fun x => scal s x d.val (setHalf true (x.t.s d.val) i)

end Sys2Proof.Machine
end

