-- ==== Sys2Proof/Machine/FloatInsn.lean ====
section
/-! DEFINITION. Floating point, conversion, keys, dot products and the special functions (12, R241 to R256). -/

namespace Sys2Proof.Machine

def word (n : Nat) : Word := BitVec.ofNat 32 n
def dword (n : Nat) : DWord := BitVec.ofNat 64 n

/-- One f32 or f64 result per participant (R242). -/
def vecf (s : State) (c : Ctx) (ty : FTy) (d : Nat) (f : Nat → Nat) : State :=
  match ty with
  | .f32 => vec s c d fun l => word (f l)
  | .f64 => vec64 s c d fun l => dword (f l)

/-- The format of a type selector. -/
def fmtOf : FTy → FFmt
  | .f32 => .f32
  | .f64 => .f64

/-- FARITH.ADD (R243). -/
def execFarithAdd (c : Ctl) (rm : RM) (d a : VReg) (b : VB) (s : State) : Out :=
  core s (.farithAdd c rm d a b) fun x => vec s x d.val fun l =>
    word (FFmt.f32.add rm (x.t.v a.val l).toNat (x.t.vb b l).toNat)

/-- FARITH.SUB (R243). -/
def execFarithSub (c : Ctl) (rm : RM) (d a : VReg) (b : VB) (s : State) : Out :=
  core s (.farithSub c rm d a b) fun x => vec s x d.val fun l =>
    word (FFmt.f32.sub rm (x.t.v a.val l).toNat (x.t.vb b l).toNat)

/-- FARITH.MUL (R243). -/
def execFarithMul (c : Ctl) (rm : RM) (d a : VReg) (b : VB) (s : State) : Out :=
  core s (.farithMul c rm d a b) fun x => vec s x d.val fun l =>
    word (FFmt.f32.mul rm (x.t.v a.val l).toNat (x.t.vb b l).toNat)

/-- FFMA.FMA (R244). -/
def execFfmaFma (c : Ctl) (rm : RM) (d a b : VReg) (y : VC) (s : State) : Out :=
  core s (.ffmaFma c rm d a b y) fun x => vec s x d.val fun l =>
    word (FFmt.f32.fma rm false false (x.t.v a.val l).toNat (x.t.v b.val l).toNat (x.t.vc y l).toNat)

/-- FFMA.FMS (R244). -/
def execFfmaFms (c : Ctl) (rm : RM) (d a b : VReg) (y : VC) (s : State) : Out :=
  core s (.ffmaFms c rm d a b y) fun x => vec s x d.val fun l =>
    word (FFmt.f32.fma rm false true (x.t.v a.val l).toNat (x.t.v b.val l).toNat (x.t.vc y l).toNat)

/-- FFMA.FNMA (R244). -/
def execFfmaFnma (c : Ctl) (rm : RM) (d a b : VReg) (y : VC) (s : State) : Out :=
  core s (.ffmaFnma c rm d a b y) fun x => vec s x d.val fun l =>
    word (FFmt.f32.fma rm true false (x.t.v a.val l).toNat (x.t.v b.val l).toNat (x.t.vc y l).toNat)

/-- FFMA.FNMS (R244). -/
def execFfmaFnms (c : Ctl) (rm : RM) (d a b : VReg) (y : VC) (s : State) : Out :=
  core s (.ffmaFnms c rm d a b y) fun x => vec s x d.val fun l =>
    word (FFmt.f32.fma rm true true (x.t.v a.val l).toNat (x.t.v b.val l).toNat (x.t.vc y l).toNat)

/-- FMINMAX.min (R77, R245). -/
def execFminmaxMin (c : Ctl) (ty : FTy) (d a : VReg) (b : VB) (s : State) : Out :=
  core s (.fminmaxMin c ty d a b) fun x => vecf s x ty d.val fun l => (fmtOf ty).minmax false (x.t.vf ty a l) (x.t.vbf ty b l)

/-- FMINMAX.max (R77, R245). -/
def execFminmaxMax (c : Ctl) (ty : FTy) (d a : VReg) (b : VB) (s : State) : Out :=
  core s (.fminmaxMax c ty d a b) fun x => vecf s x ty d.val fun l => (fmtOf ty).minmax true (x.t.vf ty a l) (x.t.vbf ty b l)

/-- FCMP.EQ (R246). -/
def execFcmpEq (c : Ctl) (ty : FTy) (d : PReg) (a : VReg) (b : VB) (s : State) : Out :=
  core s (.fcmpEq c ty d a b) fun x => predv s x d.val fun l =>
    FCC.eq.eval ((fmtOf ty).val (x.t.vf ty a l)) ((fmtOf ty).val (x.t.vbf ty b l))

/-- FCMP.NE (R246). -/
def execFcmpNe (c : Ctl) (ty : FTy) (d : PReg) (a : VReg) (b : VB) (s : State) : Out :=
  core s (.fcmpNe c ty d a b) fun x => predv s x d.val fun l =>
    FCC.ne.eval ((fmtOf ty).val (x.t.vf ty a l)) ((fmtOf ty).val (x.t.vbf ty b l))

/-- FCMP.LT (R246). -/
def execFcmpLt (c : Ctl) (ty : FTy) (d : PReg) (a : VReg) (b : VB) (s : State) : Out :=
  core s (.fcmpLt c ty d a b) fun x => predv s x d.val fun l =>
    FCC.lt.eval ((fmtOf ty).val (x.t.vf ty a l)) ((fmtOf ty).val (x.t.vbf ty b l))

/-- FCMP.LE (R246). -/
def execFcmpLe (c : Ctl) (ty : FTy) (d : PReg) (a : VReg) (b : VB) (s : State) : Out :=
  core s (.fcmpLe c ty d a b) fun x => predv s x d.val fun l =>
    FCC.le.eval ((fmtOf ty).val (x.t.vf ty a l)) ((fmtOf ty).val (x.t.vbf ty b l))

/-- FCMP.GT (R246). -/
def execFcmpGt (c : Ctl) (ty : FTy) (d : PReg) (a : VReg) (b : VB) (s : State) : Out :=
  core s (.fcmpGt c ty d a b) fun x => predv s x d.val fun l =>
    FCC.gt.eval ((fmtOf ty).val (x.t.vf ty a l)) ((fmtOf ty).val (x.t.vbf ty b l))

/-- FCMP.GE (R246). -/
def execFcmpGe (c : Ctl) (ty : FTy) (d : PReg) (a : VReg) (b : VB) (s : State) : Out :=
  core s (.fcmpGe c ty d a b) fun x => predv s x d.val fun l =>
    FCC.ge.eval ((fmtOf ty).val (x.t.vf ty a l)) ((fmtOf ty).val (x.t.vbf ty b l))

/-- FCMP.UNORD (R246). -/
def execFcmpUnord (c : Ctl) (ty : FTy) (d : PReg) (a : VReg) (b : VB) (s : State) : Out :=
  core s (.fcmpUnord c ty d a b) fun x => predv s x d.val fun l =>
    FCC.unord.eval ((fmtOf ty).val (x.t.vf ty a l)) ((fmtOf ty).val (x.t.vbf ty b l))

/-- FCMP.ORD (R246). -/
def execFcmpOrd (c : Ctl) (ty : FTy) (d : PReg) (a : VReg) (b : VB) (s : State) : Out :=
  core s (.fcmpOrd c ty d a b) fun x => predv s x d.val fun l =>
    FCC.ord.eval ((fmtOf ty).val (x.t.vf ty a l)) ((fmtOf ty).val (x.t.vbf ty b l))

/-- The sign bit of a pattern, and a pattern without it (R247). -/
def signOf (f : FFmt) (x : Nat) : Nat := x / f.signBit % 2 * f.signBit
def magOf (f : FFmt) (x : Nat) : Nat := x % f.signBit

/-- FSIGN.ABS (R247). -/
def execFsignAbs (c : Ctl) (ty : FTy) (d a : VReg) (s : State) : Out :=
  core s (.fsignAbs c ty d a) fun x => vecf s x ty d.val fun l => magOf (fmtOf ty) (x.t.vf ty a l)

/-- FSIGN.NEG (R247). -/
def execFsignNeg (c : Ctl) (ty : FTy) (d a : VReg) (s : State) : Out :=
  core s (.fsignNeg c ty d a) fun x => vecf s x ty d.val fun l =>
    magOf (fmtOf ty) (x.t.vf ty a l) + ((fmtOf ty).signBit - signOf (fmtOf ty) (x.t.vf ty a l))

/-- FSIGN.COPYSIGN (R247). -/
def execFsignCopysign (c : Ctl) (ty : FTy) (d a b : VReg) (s : State) : Out :=
  core s (.fsignCopysign c ty d a b) fun x => vecf s x ty d.val fun l =>
    magOf (fmtOf ty) (x.t.vf ty a l) + signOf (fmtOf ty) (x.t.vf ty b l)

/-- DARITH.DADD (R248). -/
def execDarithDadd (c : Ctl) (rm : RM) (d a b : VReg) (s : State) : Out :=
  core s (.darithDadd c rm d a b) fun x => vec64 s x d.val fun l =>
    dword (FFmt.f64.add rm (x.t.v64 a.val l).toNat (x.t.v64 b.val l).toNat)

/-- DARITH.DSUB (R248). -/
def execDarithDsub (c : Ctl) (rm : RM) (d a b : VReg) (s : State) : Out :=
  core s (.darithDsub c rm d a b) fun x => vec64 s x d.val fun l =>
    dword (FFmt.f64.sub rm (x.t.v64 a.val l).toNat (x.t.v64 b.val l).toNat)

/-- DARITH.DMUL (R248). -/
def execDarithDmul (c : Ctl) (rm : RM) (d a b : VReg) (s : State) : Out :=
  core s (.darithDmul c rm d a b) fun x => vec64 s x d.val fun l =>
    dword (FFmt.f64.mul rm (x.t.v64 a.val l).toNat (x.t.v64 b.val l).toNat)

/-- DARITH.DFMA (R248). -/
def execDarithDfma (c : Ctl) (rm : RM) (d a b : VReg) (y : VC) (s : State) : Out :=
  core s (.darithDfma c rm d a b y) fun x => vec64 s x d.val fun l =>
    dword (FFmt.f64.fma rm false false (x.t.v64 a.val l).toNat (x.t.v64 b.val l).toNat (x.t.vc64 y l).toNat)

/-- The format of packed halves (R249). -/
def halfFmt : HTy → FFmt
  | .f16 => .f16
  | .bf16 => .bf16

/-- A function on the two halves of a register (R249). -/
def halves (f : Nat → Nat) : Word := BitVec.ofNat 16 (f 1) ++ BitVec.ofNat 16 (f 0)
def half (w : Word) (h : Nat) : Nat := w.toNat / 2 ^ (16 * h) % 65536

/-- HARITH2.HADD2 (R249). -/
def execHarith2Hadd2 (c : Ctl) (rm : RM) (ty : HTy) (d a b : VReg) (s : State) : Out :=
  core s (.harith2Hadd2 c rm ty d a b) fun x => vec s x d.val fun l =>
    halves fun h => (halfFmt ty).add rm (half (x.t.v a.val l) h) (half (x.t.v b.val l) h)

/-- HARITH2.HMUL2 (R249). -/
def execHarith2Hmul2 (c : Ctl) (rm : RM) (ty : HTy) (d a b : VReg) (s : State) : Out :=
  core s (.harith2Hmul2 c rm ty d a b) fun x => vec s x d.val fun l =>
    halves fun h => (halfFmt ty).mul rm (half (x.t.v a.val l) h) (half (x.t.v b.val l) h)

/-- HARITH2.HFMA2 (R249). -/
def execHarith2Hfma2 (c : Ctl) (rm : RM) (ty : HTy) (d a b : VReg) (y : VC) (s : State) : Out :=
  core s (.harith2Hfma2 c rm ty d a b y) fun x => vec s x d.val fun l =>
    halves fun h => (halfFmt ty).fma rm false false (half (x.t.v a.val l) h) (half (x.t.v b.val l) h) (half (x.t.vc y l) h)

/-! ### Conversion -/

/-- The float behind a format code; none for an integer. -/
def ffmtOf : Fmt → Option FFmt
  | .f16 => some .f16
  | .bf16 => some .bf16
  | .f32 => some .f32
  | .f64 => some .f64
  | .e4m3 => some .e4m3
  | .e5m2 => some .e5m2
  | _ => none

/-- A source code from i8 to i64 is signed (R251). -/
def isSigned : Fmt → Bool
  | .i8 | .i16 | .i32 | .i64 => true
  | _ => false

/-- The value of an integer pattern. -/
def intValue (f : Fmt) (v : Nat) : Int := if isSigned f then signedNat f.width v else v

/-- An integer saturated to a format, as a pattern (R76). -/
def saturate (f : Fmt) (x : Int) : Nat :=
  if isSigned f then (clamp (-2 ^ (f.width - 1)) (2 ^ (f.width - 1) - 1) x % 2 ^ f.width).toNat else (clamp 0 (2 ^ f.width - 1) x).toNat

/-- The extreme of a format: what an infinity becomes (R76). -/
def extreme (f : Fmt) (neg : Bool) : Nat := saturate f (if neg then -2 ^ 65 else 2 ^ 65)

/-- A float value to an integer format (R76). -/
def toInteger (f : Fmt) (rm : RM) : FVal → Nat
  | .nan => 0
  | .inf neg => extreme f neg
  | .fin neg m e =>
    let n : Int := FVal.toInt rm neg m e
    saturate f (if neg then -n else n)

/-- A conversion of a pattern (R75, R76, R251, R252). -/
def convert (dst src : Fmt) (ovf : Bool) (rm : RM) (v : Nat) : Nat :=
  match ffmtOf src, ffmtOf dst with
  | some f, some g => f.convert g rm ovf v
  | some f, none => toInteger dst rm (f.val v)
  | none, some g => g.narrow rm ovf (FVal.int (intValue src v))
  | none, none => saturate dst (intValue src v)

/-- The bit offset of a narrow operand in its register (R250). -/
def partShift (f : Fmt) (part : BitVec 2) : Nat :=
  if f.width = 8 then 8 * part.toNat else if f.width = 16 then 16 * (part.toNat % 2) else 0

/-- CVT (R250 to R252). -/
def execCvt (c : Ctl) (dst src : Fmt) (ovf : Bool) (rm : RM) (part : BitVec 2) (d a : VReg) (s : State) : Out :=
  core s (.cvt c dst src ovf rm part d a) fun x =>
    let get := fun l => convert dst src ovf rm
      (if src.width = 64 then (x.t.v64 a.val l).toNat else (x.t.v a.val l).toNat / 2 ^ partShift src part % 2 ^ src.width)
    if dst.width = 64 then vec64 s x d.val fun l => dword (get l)
    else vec s x d.val fun l =>
      let k := partShift dst part
      let m : Word := BitVec.ofNat 32 ((2 ^ dst.width - 1) * 2 ^ k)
      (x.t.v d.val l &&& ~~~m) ||| BitVec.ofNat 32 (get l * 2 ^ k)

/-- FRND (R253). -/
def execFrnd (c : Ctl) (ty : FTy) (rm : RM) (d a : VReg) (s : State) : Out :=
  core s (.frnd c ty rm d a) fun x => vecf s x ty d.val fun l => (fmtOf ty).integral rm (x.t.vf ty a l)

/-! ### Keys -/

def keyFmt : KTy → FFmt
  | .f32 => .f32
  | .f16 => .f16
  | .f64 => .f64

/-- The forward key of a pattern (R254). -/
def keyOf (f : FFmt) (v : Nat) : Nat :=
  let x := if (f.val v).isNaN then f.nan else v % 2 ^ f.width
  if x / f.signBit = 0 then x + f.signBit else 2 ^ f.width - 1 - x
/-- The inverse (R254). A pattern that is a NaN comes out as the canonical one, as every NaN result of R71 does (log 111). -/
def keyInv (f : FFmt) (k : Nat) : Nat :=
  let k := k % 2 ^ f.width
  let x := if k / f.signBit = 1 then k - f.signBit else 2 ^ f.width - 1 - k
  if (f.val x).isNaN then f.nan else x

/-- The operand of FKEY. -/
def keyArg (t : Team) (ty : KTy) (a : VReg) (l : Nat) : Nat :=
  match ty with
  | .f64 => (t.v64 a.val l).toNat
  | _ => (t.v a.val l).toNat

/-- The result of FKEY: an f16 result has bits 31:16 zero (R254). -/
def keyVec (s : State) (c : Ctx) (ty : KTy) (d : Nat) (f : Nat → Nat) : State :=
  match ty with
  | .f64 => vec64 s c d fun l => dword (f l)
  | _ => vec s c d fun l => word (f l)

/-- FKEY (R254). -/
def execFkey (c : Ctl) (ty : KTy) (d a : VReg) (s : State) : Out :=
  core s (.fkey c ty d a) fun x => keyVec s x ty d.val fun l => keyOf (keyFmt ty) (keyArg x.t ty a l)

/-- FKEY.INV (R254). -/
def execFkeyInv (c : Ctl) (ty : KTy) (d a : VReg) (s : State) : Out :=
  core s (.fkeyInv c ty d a) fun x => keyVec s x ty d.val fun l => keyInv (keyFmt ty) (keyArg x.t ty a l)

/-! ### Dot products -/

/-- A signed element of w bits. -/
def elem (w : Nat) (x : Word) (k : Nat) : Int := signedNat w (x.toNat / 2 ^ (w * k) % 2 ^ w)

/-- The exact sum of n products of elements (R255). -/
def dotInt (w n : Nat) (a b : Word) : Int := ((List.range n).map fun k => elem w a k * elem w b k).sum

/-- DOT.DOT4I8 (R255). -/
def execDotDot4i8 (c : Ctl) (d a b : VReg) (y : VC) (s : State) : Out :=
  core s (.dotDot4i8 c d a b y) fun x => vec s x d.val fun l =>
    x.t.vc y l + BitVec.ofInt 32 (dotInt 8 4 (x.t.v a.val l) (x.t.v b.val l))

/-- DOT4E4M3: the accumulator and four products, rounded once (R83, R255). -/
def dotE4m3 (rm : RM) (a b y : Word) : Word :=
  let e := fun (w : Word) k => FFmt.e4m3.val (w.toNat / 2 ^ (8 * k) % 256)
  word (FFmt.f32.round rm (exactSum (FFmt.f32.val y.toNat :: (List.range 4).map fun k => (e a k).mul (e b k))))

/-- DOT.DOT4E4M3 (R255). -/
def execDotDot4e4m3 (c : Ctl) (rm : RM) (d a b : VReg) (y : VC) (s : State) : Out :=
  core s (.dotDot4e4m3 c rm d a b y) fun x => vec s x d.val fun l => dotE4m3 rm (x.t.v a.val l) (x.t.v b.val l) (x.t.vc y l)

/-- DOT.DOT8I4 (R255). -/
def execDotDot8i4 (c : Ctl) (d a b : VReg) (y : VC) (s : State) : Out :=
  core s (.dotDot8i4 c d a b y) fun x => vec s x d.val fun l =>
    x.t.vc y l + BitVec.ofInt 32 (dotInt 4 8 (x.t.v a.val l) (x.t.v b.val l))

/-! ### Special functions -/

/-- An SFU instruction captures its operand and issues as a producer (R256). -/
def sfu (s : State) (c : Ctx) (i : Instr) (a : VReg) : State := produceOp s c i 0 fun l => { a := (c.t.v a.val l).toNat }

/-- SFU.EXP2 (R78, R256). -/
def execSfuExp2 (c : Ctl) (d a : VReg) (s : State) : Out := core s (.sfuExp2 c d a) fun x => sfu s x (.sfuExp2 c d a) a

/-- SFU.LOG2 (R78, R256). -/
def execSfuLog2 (c : Ctl) (d a : VReg) (s : State) : Out := core s (.sfuLog2 c d a) fun x => sfu s x (.sfuLog2 c d a) a

/-- SFU.RCP (R78, R256). -/
def execSfuRcp (c : Ctl) (d a : VReg) (s : State) : Out := core s (.sfuRcp c d a) fun x => sfu s x (.sfuRcp c d a) a

/-- SFU.RSQ (R78, R256). -/
def execSfuRsq (c : Ctl) (d a : VReg) (s : State) : Out := core s (.sfuRsq c d a) fun x => sfu s x (.sfuRsq c d a) a

/-- SFU.SQRT (R78, R256). -/
def execSfuSqrt (c : Ctl) (d a : VReg) (s : State) : Out := core s (.sfuSqrt c d a) fun x => sfu s x (.sfuSqrt c d a) a

/-- SFU.SIN (R78, R256). -/
def execSfuSin (c : Ctl) (d a : VReg) (s : State) : Out := core s (.sfuSin c d a) fun x => sfu s x (.sfuSin c d a) a

/-- SFU.COS (R78, R256). -/
def execSfuCos (c : Ctl) (d a : VReg) (s : State) : Out := core s (.sfuCos c d a) fun x => sfu s x (.sfuCos c d a) a

/-- SFU.TANH (R78, R256). -/
def execSfuTanh (c : Ctl) (d a : VReg) (s : State) : Out := core s (.sfuTanh c d a) fun x => sfu s x (.sfuTanh c d a) a

end Sys2Proof.Machine
end

