-- ==== Sys2Proof/Machine/Lane.lean ====
section
/-! DEFINITION. Lane exchange, ZIP and random numbers (12, R257 to R264). -/

namespace Sys2Proof

/-- The lane-exchange fields of a form that shares the membership rules (R257). -/
def Instr.lx : Instr → Option LX
  | .shflIdx _ _ _ _ x | .shflUp _ _ _ _ x | .shflDown _ _ _ _ x | .shflXor _ _ _ _ x | .voteAny _ _ _ x | .voteAll _ _ _ x
  | .voteBallot _ _ _ x | .voteUni _ _ _ x | .sample _ _ _ _ x | .bandredIadd _ _ _ x | .bandredFadd _ _ _ x
  | .bandredMin _ _ _ _ x | .bandredMax _ _ _ _ x => some x
  | _ => none

end Sys2Proof

namespace Sys2Proof.Machine

/-! ### Membership -/

/-- The bands of some lanes, each once. -/
def bandsOf (ls : List Nat) : List Nat := (ls.map (· / 32)).eraseDups

/-- The lanes of a band that are in a list. -/
def inBand (ls : List Nat) (b : Nat) : List Nat := ls.filter fun l => l / 32 == b

/-- Mw, as lane numbers, of a band with these participants (R257). -/
def membersOf (t : Team) (active : LaneMask) (lx : LX) (ls : List Nat) (b : Nat) : List Nat :=
  ((List.range 32).map fun j => 32 * b + j).filter fun l =>
    match lx.members with
    | none => active.getLsbD l
    | some (.s r) => (t.s r.val).getLsbD (l % 32)
    | some (.v r) => (t.v r.val ((inBand ls b).headD 0)).getLsbD (l % 32)

/-- The lowest participant that supplies another mask than the lowest one of its band, or whose own bit is clear (R257). -/
def badMember (t : Team) (active : LaneMask) (lx : LX) (ls : List Nat) : Option Nat :=
  ls.find? fun l =>
    !(membersOf t active lx ls (l / 32)).contains l ||
    match lx.members with
    | some (.v r) => !lx.lead && t.v r.val l != t.v r.val ((inBand ls (l / 32)).headD 0)
    | _ => false

/-- Every member of an entry's masks. -/
def entryMembers (t : Team) (lx : LX) (g : BitVec 4) (e : Entry) : LaneMask :=
  let ls := lanesOf t.nlanes (e.mask &&& t.guard g)
  maskOf ((bandsOf ls).flatMap fun b => membersOf t e.mask lx ls b)

/-- R258's release: every member of every mask of the entries held at a PC is counted. -/
def Team.exchangeReady (t : Team) (lx : LX) (g : BitVec 4) (pc : PC) (held : List Entry) : Bool :=
  held.all fun e => entryMembers t lx g e &&& ~~~unionOf held &&& t.live &&& ~~~t.later pc == 0

/-- The entries that an arriving one goes on with: those held at its PC, when a member of its own lies outside it (R258). -/
def Team.heldWith (t : Team) (lx : LX) (g : BitVec 4) (e : Entry) : List Entry :=
  e :: if entryMembers t lx g e &&& ~~~e.mask = 0 then [] else t.entries.filter (heldAt e.pc .exchange)

/-- A member of a band, with its value when it takes part (R258). -/
abbrev Member := Nat × Bool

/-- The common course of SHFL, VOTE, SAMPLE and BANDRED: R257, R258, then k for the merged entry with the members of each band;
absent says for which participants the absent predicate is true. The merged entry keeps the arriving one's place (log 131). -/
def exchange (s : State) (c : Ctx) (i : Instr) (g : BitVec 4) (lx : LX) (k : Ctx → (Nat → List Member) → Team)
    (absent : Ctx → (Nat → List Member) → Nat → Bool) : State :=
  if c.m = 0 then done s c c.t
  else match badMember c.t c.e.mask lx c.ls with
    | some l => raise s c i { code := 0x0501, lane := l }
    | none =>
      let held := c.t.heldWith lx g c.e
      if c.t.exchangeReady lx g c.e.pc held then
        let e : Entry := { c.e with mask := unionOf held }
        let m := e.mask &&& c.t.guard g
        let t : Team := { c.t with entries := c.t.entries.filter fun x => x.ins == c.e.ins || !held.contains x }
        let x : Ctx := { c with t, e, m, ls := lanesOf t.nlanes m }
        match badMember t e.mask lx x.ls with
        | some l => raise s c i { code := 0x0501, lane := l }
        | none =>
          let mem := fun b => (membersOf t e.mask lx x.ls b).map fun l => (l, m.getLsbD l)
          done s x ((k x mem).setP lx.absent.val m (predMask x.ls (absent x mem)))
      else s.setTeam c.tid { c.t with
        run := none, sig := .idle
        entries := c.t.entries.map fun y => if y.ins = c.e.ins then { y with hold := .exchange } else y }

/-- A member's contribution: an absent one gives 0 (R258). -/
def given (f : Nat → Word) (x : Member) : Word := if x.2 then f x.1 else 0

/-- The band of a participant holds an absent member (R258). -/
def bandAbsent (_ : Ctx) (mem : Nat → List Member) (l : Nat) : Bool := (mem (l / 32)).any fun x => !x.2

/-! ### SHFL -/

/-- SHFL's source band lane (R259). -/
inductive ShflFn where
  | idx | up | down | xor
  deriving DecidableEq, Repr

def ShflFn.from (f : ShflFn) (l n : Nat) : Int :=
  match f with
  | .idx => n
  | .up => (l : Int) - n
  | .down => (l : Int) + n
  | .xor => (l ^^^ n : Nat)

/-- The source of a participant: none, or the member (R259). -/
def shflSource (f : ShflFn) (t : Team) (b : LB) (mem : Nat → List Member) (l : Nat) : Option Member :=
  let n := match b with
    | .reg r => (t.v r.val l).toNat % 32
    | .imm x => x.toNat
  let y := f.from (l % 32) n
  if y < 0 || 31 < y then none else (mem (l / 32)).find? fun x => x.1 == 32 * (l / 32) + y.toNat

/-- SHFL (R259). -/
def shfl (s : State) (c : Ctx) (i : Instr) (ctl : Ctl) (f : ShflFn) (d a : VReg) (b : LB) (lx : LX) : State :=
  exchange s c i ctl.g lx
    (fun x mem => x.t.setV d.val (x.ls.map fun l => (l, match shflSource f x.t b mem l with
      | none => x.t.v a.val l
      | some y => given (x.t.v a.val) y)))
    (fun x mem l => match shflSource f x.t b mem l with
      | none => false
      | some y => !y.2)

/-- SHFL.IDX (R259). -/
def execShflIdx (c : Ctl) (d a : VReg) (b : LB) (lx : LX) (s : State) : Out :=
  core s (.shflIdx c d a b lx) fun x => shfl s x (.shflIdx c d a b lx) c .idx d a b lx
/-- SHFL.UP (R259). -/
def execShflUp (c : Ctl) (d a : VReg) (b : LB) (lx : LX) (s : State) : Out :=
  core s (.shflUp c d a b lx) fun x => shfl s x (.shflUp c d a b lx) c .up d a b lx
/-- SHFL.DOWN (R259). -/
def execShflDown (c : Ctl) (d a : VReg) (b : LB) (lx : LX) (s : State) : Out :=
  core s (.shflDown c d a b lx) fun x => shfl s x (.shflDown c d a b lx) c .down d a b lx
/-- SHFL.XOR (R259). -/
def execShflXor (c : Ctl) (d a : VReg) (b : LB) (lx : LX) (s : State) : Out :=
  core s (.shflXor c d a b lx) fun x => shfl s x (.shflXor c d a b lx) c .xor d a b lx

/-! ### VOTE, BANDRED and SAMPLE: one result for the band -/

/-- One word per band. -/
def bandWord (s : State) (c : Ctx) (i : Instr) (ctl : Ctl) (d : VReg) (lx : LX) (f : Ctx → List Member → Word) : State :=
  exchange s c i ctl.g lx (fun x mem => x.t.setV d.val (x.ls.map fun l => (l, f x (mem (l / 32))))) bandAbsent

/-- One predicate per band. -/
def bandPred (s : State) (c : Ctx) (i : Instr) (ctl : Ctl) (d : PReg) (lx : LX) (f : Ctx → List Member → Bool) : State :=
  exchange s c i ctl.g lx (fun x mem => x.t.setP d.val x.m (predMask x.ls fun l => f x (mem (l / 32)))) bandAbsent

/-- An absent member's predicate is false (R260). -/
def votes (x : Ctx) (a : PReg) (y : Member) : Bool := y.2 && (x.t.p a.val).getLsbD y.1

/-- VOTE.ANY (R260). -/
def execVoteAny (c : Ctl) (d a : PReg) (lx : LX) (s : State) : Out :=
  core s (.voteAny c d a lx) fun x => bandPred s x (.voteAny c d a lx) c d lx fun x l => l.any (votes x a)
/-- VOTE.ALL (R260). -/
def execVoteAll (c : Ctl) (d a : PReg) (lx : LX) (s : State) : Out :=
  core s (.voteAll c d a lx) fun x => bandPred s x (.voteAll c d a lx) c d lx fun x l => l.all (votes x a)
/-- VOTE.BALLOT (R260). -/
def execVoteBallot (c : Ctl) (d : VReg) (a : PReg) (lx : LX) (s : State) : Out :=
  core s (.voteBallot c d a lx) fun x => bandWord s x (.voteBallot c d a lx) c d lx fun x l =>
    word ((l.map fun y => if votes x a y then 2 ^ (y.1 % 32) else 0).sum)
/-- VOTE.UNI (R260). -/
def execVoteUni (c : Ctl) (d : PReg) (a : VReg) (lx : LX) (s : State) : Out :=
  core s (.voteUni c d a lx) fun x => bandPred s x (.voteUni c d a lx) c d lx fun x l =>
    match l.map (given (x.t.v a.val)) with
    | [] => true
    | v :: vs => vs.all (· == v)

/-- A fold in ascending lane order from the lowest member's value (R261). -/
def foldMembers (x : Ctx) (a : VReg) (f : Word → Word → Word) (l : List Member) : Word :=
  match l.map (given (x.t.v a.val)) with
  | [] => 0
  | v :: vs => vs.foldl f v

/-- The lesser or the greater of two values (R77, R261). -/
def pickOf (ty : BTy) (max : Bool) (a b : Word) : Word :=
  match ty with
  | .i32 => if (if max then a.slt b else b.slt a) then b else a
  | .n32 => if (if max then a.ult b else b.ult a) then b else a
  | .f32 => word (FFmt.f32.minmax max a.toNat b.toNat)

/-- BANDRED.IADD (R261). -/
def execBandredIadd (c : Ctl) (d a : VReg) (lx : LX) (s : State) : Out :=
  core s (.bandredIadd c d a lx) fun x => bandWord s x (.bandredIadd c d a lx) c d lx fun x l => foldMembers x a (· + ·) l
/-- BANDRED.FADD (R261): a NaN result is canonical, also that of one member. -/
def execBandredFadd (c : Ctl) (d a : VReg) (lx : LX) (s : State) : Out :=
  core s (.bandredFadd c d a lx) fun x => bandWord s x (.bandredFadd c d a lx) c d lx fun x l =>
    let v := foldMembers x a (fun p q => word (FFmt.f32.add .rne p.toNat q.toNat)) l
    if (FFmt.f32.val v.toNat).isNaN then word FFmt.f32.nan else v
/-- BANDRED.MIN (R261). -/
def execBandredMin (c : Ctl) (ty : BTy) (d a : VReg) (lx : LX) (s : State) : Out :=
  core s (.bandredMin c ty d a lx) fun x => bandWord s x (.bandredMin c ty d a lx) c d lx fun x l =>
    minMax x a ty false l
where
  minMax (x : Ctx) (a : VReg) (ty : BTy) (max : Bool) (l : List Member) : Word :=
    let v := foldMembers x a (pickOf ty max) l
    if ty = .f32 && (FFmt.f32.val v.toNat).isNaN then word FFmt.f32.nan else v
/-- BANDRED.MAX (R261). -/
def execBandredMax (c : Ctl) (ty : BTy) (d a : VReg) (lx : LX) (s : State) : Out :=
  core s (.bandredMax c ty d a lx) fun x => bandWord s x (.bandredMax c ty d a lx) c d lx fun x l =>
    execBandredMin.minMax x a ty true l

/-- f32 order of two values that are not NaN. -/
def f32lt (a b : Nat) : Bool := (FFmt.f32.val a).lt (FFmt.f32.val b)
/-- f32 zero of either sign. -/
def f32zero (a : Nat) : Bool := (FFmt.f32.val a).isZero

/-- A NaN, a negative number and −0 count as 0 (R262). -/
def sampleWeight (a : Nat) : Nat := if (FFmt.f32.val a).isNaN || f32lt a 0 || f32zero a then 0 else a

/-- SAMPLE's result (R262). -/
def sampleBand (u : Nat) (l : List (Nat × Nat)) : Word :=
  let u := sampleWeight u
  let u := if f32lt u 0x3F800000 then u else 0x3F7FFFFF
  let pre := (l.foldl (fun (r : Nat × List (Nat × Nat × Nat)) e =>
    let acc := FFmt.f32.add .rne r.1 e.2
    (acc, r.2 ++ [(e.1, e.2, acc)])) (0, []))
  let total := pre.1
  if f32zero total then 0xFFFFFFFF
  else if total = FFmt.f32.inf then match pre.2.find? fun e => e.2.2 == FFmt.f32.inf with
    | some e => word (e.1 % 32)
    | none => 0
  else
    let tau := FFmt.f32.mul .rne u total
    match pre.2.find? fun e => f32lt tau e.2.2 with
    | some e => word (e.1 % 32)
    | none => match pre.2.reverse.find? fun e => !f32zero e.2.1 with
      | some e => word (e.1 % 32)
      | none => 0

/-- SAMPLE (R262). -/
def execSample (c : Ctl) (d a : VReg) (u : SReg) (lx : LX) (s : State) : Out :=
  core s (.sample c d a u lx) fun x => bandWord s x (.sample c d a u lx) c d lx fun x l =>
    sampleBand ((x.t.s u.val).toNat % 2 ^ 32) (l.map fun y => (y.1, sampleWeight (given (x.t.v a.val) y).toNat))

/-! ### ZIP -/

/-- The source register and band lane of ZIPn and UNZIPn for destination register j, band lane l (R263). -/
def zipFrom (n : Nat) (un : Bool) (j l : Nat) : Nat × Nat :=
  if un then
    let w := l * n + j
    (w / 32, w % 32)
  else
    let w := 32 * j + l
    (w % n, w / n)

/-- ZIP and UNZIP: all sources are read before any write (R6, R263). -/
def zip (s : State) (c : Ctx) (n : Nat) (un : Bool) (d a : VReg) : State :=
  done s c ((List.range n).foldl (fun t j =>
    t.setV (d.val + j) (c.ls.map fun l =>
      let f := zipFrom n un j (l % 32)
      (l, c.t.v (a.val + f.1) (l / 32 * 32 + f.2)))) c.t)

/-- ZIP.ZIP2 (R263). -/
def execZipZip2 (c : Ctl) (d a : VReg) (s : State) : Out := core s (.zipZip2 c d a) fun x => zip s x 2 false d a
/-- ZIP.ZIP3 (R263). -/
def execZipZip3 (c : Ctl) (d a : VReg) (s : State) : Out := core s (.zipZip3 c d a) fun x => zip s x 3 false d a
/-- ZIP.ZIP4 (R263). -/
def execZipZip4 (c : Ctl) (d a : VReg) (s : State) : Out := core s (.zipZip4 c d a) fun x => zip s x 4 false d a
/-- ZIP.UNZIP2 (R263). -/
def execZipUnzip2 (c : Ctl) (d a : VReg) (s : State) : Out := core s (.zipUnzip2 c d a) fun x => zip s x 2 true d a
/-- ZIP.UNZIP3 (R263). -/
def execZipUnzip3 (c : Ctl) (d a : VReg) (s : State) : Out := core s (.zipUnzip3 c d a) fun x => zip s x 3 true d a
/-- ZIP.UNZIP4 (R263). -/
def execZipUnzip4 (c : Ctl) (d a : VReg) (s : State) : Out := core s (.zipUnzip4 c d a) fun x => zip s x 4 true d a

/-! ### Random numbers -/

/-- Four words of a Philox counter. -/
structure Philox where
  c0 : Word
  c1 : Word
  c2 : Word
  c3 : Word
  deriving DecidableEq, Repr

/-- The 64-bit product of two words. -/
def wide (a b : Word) : DWord := a.setWidth 64 * b.setWidth 64

/-- One round (R264). -/
def Philox.round (x : Philox) (k0 k1 : Word) : Philox :=
  let p := wide 0xD2511F53 x.c0
  let q := wide 0xCD9E8D57 x.c2
  ⟨q.extractLsb' 32 32 ^^^ x.c1 ^^^ k0, q.extractLsb' 0 32, p.extractLsb' 32 32 ^^^ x.c3 ^^^ k1, p.extractLsb' 0 32⟩

/-- Rounds with the key incremented after each (R264). -/
def Philox.rounds : Nat → Philox → Word → Word → Philox
  | 0, x, _, _ => x
  | n + 1, x, k0, k1 => Philox.rounds n (x.round k0 k1) (k0 + 0x9E3779B9) (k1 + 0xBB67AE85)

/-- The draw of a lane (R264). -/
def draw (seed : Word) (c : Ctx) (l : Nat) : Word :=
  (Philox.rounds 10
    ⟨c.t.draws.getD l 0, word (l ||| (c.t.num * 1024)), c.crew.launch.extractLsb' 32 32, seed⟩
    (c.crew.launch.extractLsb' 0 32) (word c.crew.num)).c0

/-- The seed the team's LAUNCH captured (R159, R264). -/
def seedOf (s : State) (c : Ctx) : Word :=
  match launchOf s c.crew with
  | some e => e.seed
  | none => 0

/-- %draws of the participants increments (R264). -/
def rng (s : State) (c : Ctx) (d : VReg) (f : Word → Word) : State :=
  done s c ({ c.t with draws := c.ls.foldl (fun (m : FMap Word) l => m.set l (c.t.draws.getD l 0 + 1)) c.t.draws }.setV d.val
    (c.ls.map fun l => (l, f (draw (seedOf s c) c l))))

/-- RNG.U32 (R264). -/
def execRngU32 (c : Ctl) (d : VReg) (s : State) : Out := core s (.rngU32 c d) fun x => rng s x d id
/-- RNG.UNIF: (y >> 8) × 2^−24 (R264). -/
def execRngUnif (c : Ctl) (d : VReg) (s : State) : Out :=
  core s (.rngUnif c d) fun x => rng s x d fun y => word (FFmt.f32.round .rne (.fin false (y.toNat / 256) (-24)))

/-! ### Release -/

/-- The instruction word that stands in memory at a PC (R258; log 13). -/
def State.insnAt (s : State) (p core : Nat) (pc : PC) : Option Instr :=
  match resolve s p core pc.blk.toNat { fetch := true, bytes := 64 } with
  | .ok o => match coreDecode (BitVec.ofNat 96 (s.load o.store (o.addr + 4 + 12 * pc.slot) 12)) with
    | .ok i => some i
    | .error _ => none
  | .error _ => none

/-- The entries held at a PC may go on; an instruction there that has no membership holds nobody (R258). -/
def exchangeFree (s : State) (c : Crew) (t : Team) (pc : PC) (held : List Entry) : Bool :=
  match s.insnAt c.part t.core pc with
  | some i => match i.lx, i.form with
    | some lx, some f => t.exchangeReady lx f.ctl.g pc held
    | _, _ => true
  | none => true

/-- The entries held at a PC merged into their first one, whose place they take, selectable (R258; log 131). -/
def Team.mergeHeld (t : Team) (pc : PC) : Team :=
  let held := t.entries.filter (heldAt pc .exchange)
  let ins := (held.head?.map Entry.ins).getD 0
  { t with entries := (t.entries.filter fun x => !(heldAt pc .exchange x) || x.ins == ins).map fun x =>
      if x.ins = ins then { x with mask := unionOf held, hold := .none } else x }

/-- LANE_EXCHANGE_RELEASE: the entries held at a PC become one selectable entry, whose instruction issues next (R258), and a trap of which
finds them merged (log 53); a halted team keeps its frontier (R222). -/
def exchangeRelease (s : State) (tid : Nat) (pc : PC) : State :=
  s.onTeam tid fun t c =>
    let held := t.entries.filter (heldAt pc .exchange)
    if !held.isEmpty && t.run.isNone && !t.halted && exchangeFree s c t pc held then s.setTeam tid (t.mergeHeld pc) else s

def execLaneExchangeRelease (tid : Nat) (pc : PC) (s : State) : Out := .next (exchangeRelease s tid pc)

end Sys2Proof.Machine
end

