-- ==== Sys2Proof/Machine/MemoryInsn.lean ====
section
/-! DEFINITION. Loads, stores, atomics, fences and the tag table (13, R265 to R276; R372, R373). -/

namespace Sys2Proof.Machine

/-- A form with a lane address: its base pair may be malformed (R94, R96). -/
def based (s : State) (c : Ctx) (i : Instr) (m : MemOp) (k : Nat → State) : State :=
  onceFor s c <| match c.t.base? m.space m.base with
    | none => raise s c i { code := 0x0304, lane := c.low }
    | some b => k b

/-- The offset of a lane (R265). -/
def offsetOf (c : Ctx) (m : MemOp) (l : Nat) : Nat := (c.t.v m.off.val l).toNat

/-! ### Loads and stores -/

/-- LD (R269). -/
def execLd (c : Ctl) (w : Width) (d : VReg) (m : MemOp) (s : State) : Out :=
  core s (.ld c w d m) fun x =>
    based s x (.ld c w d m) m fun b => produceOp s x (.ld c w d m) b fun l => { a := offsetOf x m l }

/-- The data of a store, low bytes first (R270). -/
def storeData (t : Team) (w : Width) (d l : Nat) : Nat :=
  ((List.range w.nregs).map fun j => (t.v (d + j) l).toNat * 2 ^ (32 * j)).sum % 2 ^ (8 * w.bytes)

/-- The accesses that win: of those at one address, the highest lane's. Aligned accesses of one width meet wholly or not at all
(R96, R118). -/
def winners : List Spot → List Spot
  | [] => []
  | x :: l => if l.any fun y => y.ok.store == x.ok.store && y.ok.addr == x.ok.addr then winners l else x :: winners l

/-- The accesses of n bytes cover the line that begins with one of them. -/
def coversLine (xs : List Spot) (n : Nat) (x : Spot) : Bool :=
  x.ok.addr % 128 == 0 && n * (xs.filter fun y => y.ok.store == x.ok.store && y.ok.addr / 128 == x.ok.addr / 128).length == 128

/-- The lines of the device's own memories that one ST writes whole are no longer poisoned (R378). -/
def clearCovered (s : State) (xs : List Spot) (n : Nat) : State :=
  (xs.filter (coversLine xs n)).foldl (fun s x => if x.ok.store.outside then s else s.clearPoison x.ok.store x.ok.addr 128) s

/-- The stores of one ST: no other lane's value is ever seen where the highest participant stores (R118, R270, R378). -/
def storeAll (s : State) (c : Ctx) (w : Width) (d : Nat) (xs : List Spot) : State :=
  clearCovered ((winners xs).foldl (fun s x => storeSpot s c.part c.core c.tid w.bytes x (storeData c.t w d x.lane)) s) (winners xs) w.bytes

/-- ST (R270). -/
def execSt (c : Ctl) (w : Width) (d : VReg) (m : MemOp) (s : State) : Out :=
  core s (.st c w d m) fun x =>
    onceFor s x <|
      match accesses s x m.space (x.t.base? m.space m.base) { write := true, plain := true, bytes := w.bytes } (fun _ => none)
          (x.ls.map fun l => (l, offsetOf x m l)) with
      | .error (tr, s') => raise s' x (.st c w d m) tr
      | .ok (s', xs) => reporting s x (.st c w d m) (after (storeAll s' x w d.val xs) x)

/-- LDS (R271): a fault reports lane 0. -/
def execLds (c : Ctl) (w : Width) (d : SReg) (sp : Space) (o : Order) (sc : Scope) (b : SReg) (s : State) : Out :=
  core s (.lds c w d sp o sc b) fun x =>
    onceFor s x <|
      match x.t.base? sp b with
      | none => raise s x (.lds c w d sp o sc b) { code := 0x0304 }
      | some a => produceOp s x (.lds c w d sp o sc b) a fun _ => {}

/-! ### Atomics -/

/-- The stream is in determinism mode, as the LAUNCH captured it (R125, R310). -/
def determinism (s : State) (c : Ctx) : Bool :=
  match launchOf s c.crew with
  | some e => e.det
  | none => false

/-- The access of an atomic. -/
def atomAcc (f : AtomForm) : Acc := { read := true, write := true, bytes := atomBytes f }

/-- A participant reaches host memory (R125). -/
def toHost (x : Spot) : Bool := x.ok.mt == 2 && x.ok.store == .host

/-- The next participant of a host atomic goes to host memory (R372). -/
def atHost (s : State) (c : Ctx) (f : AtomForm) (l : Nat) : Bool :=
  match spot s c f.m.space (c.t.base? f.m.space f.m.base) (atomAcc f) (fun _ => none) l (offsetOf c f.m l) with
  | .ok x => toHost x
  | .error _ => false

/-- ATOM and RED: checks of every participant, then all operations, or, when one reaches host memory, one after another
(R272, R273, R372). -/
def atomOp (s : State) (c : Ctx) (i : Instr) (f : AtomForm) : State :=
  onceFor s c <|
    if f.op = .red .fadd && determinism s c then raise s c i { code := 0x0402 }
    else based s c i f.m fun b =>
      let ops := fun l => let o := atomOperands f c.t l
        ({ a := offsetOf c f.m l, c := o.1, n := o.2 } : LaneOps)
      match accesses s c f.m.space (some b) (atomAcc f) (hostCheck f) (c.ls.map fun l => (l, offsetOf c f.m l)) with
      | .error (tr, s') => raise s' c i tr
      | .ok (s', xs) =>
        if xs.any toHost then
          reporting s c i (s'.updTeam c.tid fun t => { t with hostAtomic := some { insn := i, todo := c.m, since := s.clock } })
        else produceOp s c i b ops

/-- ATOM.ADD (R272). -/
def execAtomAdd (c : Ctl) (w u : Bool) (d : VReg) (m : MemOp) (y : VC) (s : State) : Out :=
  core s (.atomAdd c w u d m y) fun x => atomOp s x (.atomAdd c w u d m y) ⟨.red .add, w, u, m, y, true⟩
/-- ATOM.MIN (R272). -/
def execAtomMin (c : Ctl) (w u : Bool) (d : VReg) (m : MemOp) (y : VC) (s : State) : Out :=
  core s (.atomMin c w u d m y) fun x => atomOp s x (.atomMin c w u d m y) ⟨.red .min, w, u, m, y, true⟩
/-- ATOM.MAX (R272). -/
def execAtomMax (c : Ctl) (w u : Bool) (d : VReg) (m : MemOp) (y : VC) (s : State) : Out :=
  core s (.atomMax c w u d m y) fun x => atomOp s x (.atomMax c w u d m y) ⟨.red .max, w, u, m, y, true⟩
/-- ATOM.AND (R272). -/
def execAtomAnd (c : Ctl) (w u : Bool) (d : VReg) (m : MemOp) (y : VC) (s : State) : Out :=
  core s (.atomAnd c w u d m y) fun x => atomOp s x (.atomAnd c w u d m y) ⟨.red .and, w, u, m, y, true⟩
/-- ATOM.OR (R272). -/
def execAtomOr (c : Ctl) (w u : Bool) (d : VReg) (m : MemOp) (y : VC) (s : State) : Out :=
  core s (.atomOr c w u d m y) fun x => atomOp s x (.atomOr c w u d m y) ⟨.red .or, w, u, m, y, true⟩
/-- ATOM.XOR (R272). -/
def execAtomXor (c : Ctl) (w u : Bool) (d : VReg) (m : MemOp) (y : VC) (s : State) : Out :=
  core s (.atomXor c w u d m y) fun x => atomOp s x (.atomXor c w u d m y) ⟨.red .xor, w, u, m, y, true⟩
/-- ATOM.SWAP (R272). -/
def execAtomSwap (c : Ctl) (w u : Bool) (d : VReg) (m : MemOp) (y : VC) (s : State) : Out :=
  core s (.atomSwap c w u d m y) fun x => atomOp s x (.atomSwap c w u d m y) ⟨.swap, w, u, m, y, true⟩
/-- ATOM.CAS (R272). -/
def execAtomCas (c : Ctl) (w u : Bool) (d : VReg) (m : MemOp) (y : VC) (s : State) : Out :=
  core s (.atomCas c w u d m y) fun x => atomOp s x (.atomCas c w u d m y) ⟨.cas, w, u, m, y, true⟩
/-- ATOM.FADD (R272). -/
def execAtomFadd (c : Ctl) (w : Bool) (d : VReg) (m : MemOp) (y : VC) (s : State) : Out :=
  core s (.atomFadd c w d m y) fun x => atomOp s x (.atomFadd c w d m y) ⟨.red .fadd, w, false, m, y, true⟩
/-- RED (R273). -/
def execRed (c : Ctl) (op : RedOp) (w u : Bool) (m : MemOp) (y : VC) (s : State) : Out :=
  core s (.red c op w u m y) fun x => atomOp s x (.red c op w u m y) ⟨.red op, w, u, m, y, false⟩

/-- The context of a team's issuing host atomic, with what it is. -/
def hostCtx (t : Team) (crew : Crew) (tid : Nat) : Option (Ctx × HostAtomic × AtomForm) :=
  match t.hostAtomic, t.entry? with
  | some h, some e => match h.insn.atomForm, h.insn.form with
    | some f, some fm =>
      let m := e.mask &&& t.guard fm.ctl.g
      some ({ tid, t, crew, e, spin := fm.ctl.h.getLsbD 7, m, ls := lanesOf t.nlanes m }, h, f)
    | _, _ => none
  | _, _ => none

/-- Where a participant of a host atomic acts; the leaf was checked at issue (R372). -/
def hostSpot (s : State) (c : Ctx) (f : AtomForm) (l : Nat) : Except Trap Spot :=
  spot s c f.m.space (c.t.base? f.m.space f.m.base) (atomAcc f) (fun _ => none) l (offsetOf c f.m l)

/-- The completion of the lowest participant still to be sent: its operation has been performed, and an ATOM writes its old value
(R372). After the last one the instruction is complete. A participant whose memory cannot be read traps there (R369; log 89). -/
def hostStep (s : State) (tid : Nat) : State :=
  s.onTeam tid fun t crew =>
    match hostCtx t crew tid with
    | none => s
    | some (c, h, f) =>
      match lanesOf 1024 h.todo with
      | [] => s
      | l :: rest =>
        match hostSpot s c f l with
        | .error tr => raise (s.updTeam tid fun t => { t with hostAtomic := none }) c h.insn tr
        | .ok x => match dataFailure s c.part x.ok.store x.ok.addr with
          | some code =>
            let s := s.updTeam tid fun t => { t with hostAtomic := none }
            if code = 0x0902 then loseTeam s tid (if f.m.space = .g then .line 1 c.core (lineAddr x.va) else lostIn s x.ok.store.cid [(x.ok.addr, 1)])
            else raise s c h.insn { code, lane := l, addr := some x.va }
          | none =>
          let o := atomOperands f c.t l
          let r := atomSpot { s } c.part c.core tid f x o.1 o.2
          let s := r.s.updTeam tid fun t =>
            let t := if f.ret then landed t h.insn l (r.vals.getD l 0) else t
            { t with didAtomic := t.didAtomic || outsideD r.s crew x, readAt := some r.s.clock
                     hostAtomic := if rest.isEmpty then none else some { h with todo := h.todo &&& ~~~laneBit l, since := s.clock } }
          if rest.isEmpty then after (if f.m.order.acquires then acquire s c.core f.m.scope else s) c else s

/-- AU is set in the leaf through which the refused participant was translated, if its compare succeeds, which
the host may refuse (R366, R373). -/
def setAU (s : State) (p core : Nat) (o : XOk) : State :=
  match o.leaf with
  | none => s
  | some lf =>
    if (casRefused s p 0x80 o).isNone && s.load lf.store lf.addr 8 = lf.val then
      let v := orBits lf.val 0x80
      let s := s.store lf.store lf.addr 8 v
      { s with ptes := s.ptes.set (pteKey core lf.store lf.addr) v }
    else s

/-- The completion of a host atomic fails; an Unsupported Request also sets AU (R368, R372, R373). -/
def hostFail (s : State) (tid code : Nat) (au : Bool) : State :=
  s.onTeam tid fun t crew =>
    match hostCtx t crew tid with
    | none => s
    | some (c, h, f) =>
      match lanesOf 1024 h.todo with
      | [] => s
      | l :: _ =>
        let s := s.updTeam tid fun t => { t with hostAtomic := none }
        match hostSpot s c f l with
        | .error tr => raise s c h.insn tr
        | .ok x => raise (if au then setAU s c.part c.core x.ok else s) c h.insn { code, lane := l, addr := some x.va }

/-! ### Fences -/

/-- FENCE's modes with an acquire. -/
def fenceAcquires : FenceMode → Bool
  | .rel => false
  | _ => true

/-- FENCE (R123, R274): loads have their values and stores are in memory when the next instruction issues (log 9). -/
def execFence (c : Ctl) (mode : FenceMode) (sc : Scope) (s : State) : Out :=
  core s (.fence c mode sc) fun x =>
    onceFor s x <| reporting s x (.fence c mode sc) <|
      done (if fenceAcquires mode then acquire s x.core sc else s) x x.t

/-! ### The tag table -/

/-- TAG.TAGQ (R106, R275). -/
def execTagTagq (c : Ctl) (d a : VReg) (s : State) : Out :=
  core s (.tagTagq c d a) fun x => produceOp s x (.tagTagq c d a) 0 fun l => { a := (x.t.v a.val l).toNat }

/-- The entry of a set's way. -/
def tagKey (core key way : Nat) : Nat := 4096 * core + 4 * (key / 512 % 1024) + way

/-- TAGSET of one lane: the table after it, and the result (R106). -/
def tagSet (s : State) (core cid key slot : Nat) : State × Nat :=
  match tagWay s core cid key with
  | some w => ({ s with tags := s.tags.set (tagKey core key w) ⟨key / 512, slot, cid⟩ }, tagSlot s core cid key)
  | none => match (List.range 4).find? fun w => !s.tags.has (tagKey core key w) with
    | some w => ({ s with tags := s.tags.set (tagKey core key w) ⟨key / 512, slot, cid⟩ }, slot)
    | none => (s, 0xFFFFFFFF)

/-- TAGCLR of one lane (R106). -/
def tagClear (s : State) (core cid key : Nat) : State × Nat :=
  match tagWay s core cid key with
  | some w => ({ s with tags := s.tags.erase (tagKey core key w) }, tagSlot s core cid key)
  | none => (s, 0xFFFFFFFF)

/-- The participants act one after another in ascending lane order, and D takes their results (R107, R275). -/
def tagLanes (s : State) (c : Ctx) (d : VReg) (f : State → Nat → State × Nat) : State :=
  let r := c.ls.foldl (fun (r : State × List (Nat × Word)) l => ((f r.1 l).1, r.2 ++ [(l, word (f r.1 l).2)])) (s, [])
  done r.1 c (c.t.setV d.val r.2)

/-- A slot lies in the crew's window and on the current core (R275). -/
def slotOk (c : Ctx) (slot : Nat) : Bool :=
  let g := c.crew.seg c.core
  slot < c.crew.winBytes / 512 && g.1 ≤ 512 * slot && 512 * slot + 512 ≤ g.1 + g.2

/-- The core of the team's shadow (R383). -/
def Ctx.shadowCore (c : Ctx) : Option Nat := (c.crew.shadow[c.t.num]?).map (· / 4)

/-- An act of a lane on the tag table of its core, and on that of its shadow's core; the leader's result is the lane's (R106, R383;
log 45). -/
def onTags (s : State) (c : Ctx) (f : State → Nat → State × Nat) : State × Nat :=
  let r := f s c.core
  (match c.shadowCore with
    | some k => (f r.1 k).1
    | none => r.1, r.2)

/-- TAG.TAGSET (R106, R275). -/
def execTagTagset (c : Ctl) (d a b : VReg) (s : State) : Out :=
  core s (.tagTagset c d a b) fun x =>
    match x.ls.find? fun l => !slotOk x (x.t.v b.val l).toNat with
    | some l => raise s x (.tagTagset c d a b) { code := 0x0302, lane := l }
    | none => tagLanes s x d fun s l => onTags s x fun s core => tagSet s core x.t.cid (x.t.v a.val l).toNat (x.t.v b.val l).toNat

/-- TAG.TAGCLR (R106, R275). -/
def execTagTagclr (c : Ctl) (d a : VReg) (s : State) : Out :=
  core s (.tagTagclr c d a) fun x =>
    tagLanes s x d fun s l => onTags s x fun s core => tagClear s core x.t.cid (x.t.v a.val l).toNat

end Sys2Proof.Machine
end

