-- ==== Sys2Proof/Machine/Issue.lean ====
section
/-! DEFINITION. Which team a pipe selects, and what a team does before its next instruction can issue (R22, R27 to R29, R33, R190, R217, R258, R350). -/

namespace Sys2Proof.Machine

/-- What an agent does. -/
inductive Choice where
  | idle
  /-- A step of its own; the agent then goes on. -/
  | act (s : State)
  | issue (s : State) (i : Instr)
  deriving DecidableEq, Repr

/-- A pipe of a quarter, as a key. -/
def pipeIndex : Pipe → Nat
  | .a | .ab => 0
  | .b => 1
  | .c => 2
def pipeKey (q : Nat) (p : Pipe) : Nat := 3 * q + pipeIndex p
def pipeFree (s : State) (q : Nat) (p : Pipe) : Bool := s.pipeBusy.getD (pipeKey q p) 0 ≤ s.clock

/-- The teams of a quarter. -/
def residents (s : State) (q : Nat) : List (Nat × Team) := s.teams.filter fun e => e.2.quarter == q

/-- A team whose LAUNCH faulted while its host atomic was under way ends once that is complete (R354, R372). -/
def cutIfUnwanted (s : State) (tid : Nat) : State :=
  s.onTeam tid fun t c => if wanted s c then s else s.setTeam tid t.cutOff

/-- The team may act at all (R29, R41, R222, Table 24.1). -/
def mayRun (s : State) (t : Team) : Bool :=
  !t.halted && !t.stopped && t.lost.isNone && !t.entries.isEmpty && t.blockedUntil ≤ s.clock &&
  match s.crews.get? t.cid with
  | some c => c.placed && wanted s c
  | none => false

/-- The next release that is due, in selection order (R217, R258). -/
def dueRelease (s : State) (tid : Nat) (t : Team) (c : Crew) : List Entry → Option State
  | [] => none
  | e :: es => match e.hold with
    | .join j => if t.joinReady e.pc j then some (joinRelease s tid e.pc j) else dueRelease s tid t c es
    | .exchange =>
      if exchangeFree s c t e.pc (t.entries.filter (heldAt e.pc .exchange)) then some (exchangeRelease s tid e.pc)
      else dueRelease s tid t c es
    | _ => dueRelease s tid t c es

/-- What a team does before its next instruction: a replay, a release, a selection, a fetch. -/
def prepare (s : State) (tid : Nat) (t : Team) : Option State :=
  if !mayRun s t then none
  else if !t.replay.isEmpty then reinject (s.asking (t.wantSince.getD s.clock)) tid
  else match t.run, s.crews.get? t.cid with
    | none, some c => match dueRelease s tid t c (sortEntries t.entries) with
      | some s' => some s'
      | none => if t.choose.isSome then some (s.setTeam tid t.select) else none
    | some _, some _ => if t.block.isNone then some (coreFetch s tid) else none
    | _, none => none

def firstPrepared (s : State) : List (Nat × Team) → Option State
  | [] => none
  | (tid, t) :: l => match prepare s tid t with
    | some s' => some s'
    | none => firstPrepared s l

/-- The word of a team's next instruction, once its block is fetched. -/
def nextWord (t : Team) : Option Nat :=
  match t.entry?, t.block with
  | some e, some b => some (b.word e.pc.slot)
  | _, _ => none

/-- The pipe of an instruction; a word that faults at decode issues on any. -/
def insnPipe (i : Instr) : Option Pipe := i.form.map Form.pipe

/-- An instruction of this pipe may be selected by pipe p: one for A or B goes to B only while A is busy (R28, R196). -/
def takes (s : State) (q : Nat) (p : Pipe) (x : Option Pipe) : Bool :=
  match x with
  | none => true
  | some .ab => p == .a || p == .ab || (p == .b && !pipeFree s q .a)
  | some y => p == y || (p == .ab && y == .a)

/-- The next instruction is ready: it does not wait (R28). -/
def isReady (s : State) (tid : Nat) (t : Team) : Bool :=
  mayRun s t && t.replay.isEmpty &&
  match nextWord t with
  | none => false
  | some w => match coreDecode (BitVec.ofNat 96 w) with
    | .error _ => true
    | .ok i => match gate { s with cur := some tid } i with
      | .wait | .nobody => false
      | _ => true

def readyOn (s : State) (q : Nat) (p : Pipe) (tid : Nat) (t : Team) : Bool :=
  t.active && t.lastIssue.all (fun (e : Nat × Nat) => e.2 != s.clock + 1) && isReady s tid t &&
  match nextWord t with
  | none => false
  | some w => match coreDecode (BitVec.ofNat 96 w) with
    | .error _ => true
    | .ok i => takes s q p (insnPipe i)

def classOf (s : State) (t : Team) : Nat :=
  match s.crews.get? t.cid with
  | some c => c.cls
  | none => 0

/-- Selection order: class, then the least recent issue on the pipe, then placement (R28). -/
def preferred (s : State) (p : Pipe) (a b : Team) : Bool :=
  let la := a.lastIssue.getD (pipeIndex p) 0
  let lb := b.lastIssue.getD (pipeIndex p) 0
  if classOf s a ≠ classOf s b then classOf s b < classOf s a
  else if la ≠ lb then la < lb
  else a.order < b.order

def bestTeam (s : State) (p : Pipe) : List (Nat × Team) → Option (Nat × Team)
  | [] => none
  | x :: l => match bestTeam s p l with
    | none => some x
    | some y => if preferred s p y.2 x.2 then some y else some x

/-- Beats of an instruction over a mask (R22). -/
def beats (m : LaneMask) : Nat := ((List.range 32).filter fun w => m.extractLsb' (32 * w) 32 != 0).length

/-- The lanes that an instruction of an entry runs over: a lane exchange that this arrival releases runs over the merged entry
(R258). -/
def sweepOf (t : Team) (i : Instr) (f : Form) (e : Entry) : LaneMask :=
  match i.lx with
  | some lx =>
    let held := t.heldWith lx f.ctl.g e
    let m := e.mask &&& t.guard f.ctl.g
    if m ≠ 0 && (badMember t e.mask lx (lanesOf t.nlanes m)).isNone && t.exchangeReady lx f.ctl.g e.pc held then unionOf held
    else e.mask
  | none => e.mask

/-- Clock since which the requests of a team's next instruction can have been outstanding: since it has been ready, and no instruction
issued before it (R368; log 34). -/
def Team.issueSince (t : Team) (clock : Nat) : Nat := (t.lastIssue.vals).foldl max (t.readyAt.getD clock)

/-- Clocks for which an instruction holds its pipe (R22, R196). -/
def clocksOf (t : Team) (i : Instr) : Nat :=
  match i.form, t.entry? with
  | some f, some e => if f.once then 1 else beats (sweepOf t i f e) * f.cost
  | _, _ => 1

/-- The decode fault of a word; a failed access ranks after it (R355, R357). -/
def decodeTrap (s : State) (tid : Nat) (t : Team) (w code : Nat) : State :=
  match t.entry? with
  | none => s
  | some e => teamFault s tid e e.pc w { code }

/-- A pipe's choice in this clock (R28). -/
def pipeChoice (s : State) (core quarter : Nat) (p : Pipe) : Choice :=
  let q := 4 * core + quarter
  match firstPrepared s (residents s q) with
  | some s' => .act s'
  | none =>
    if !pipeFree s q p then .idle
    else match bestTeam s p ((residents s q).filter fun e => readyOn s q p e.1 e.2) with
      | none => .idle
      | some (tid, t) => match nextWord t with
        | none => .idle
        | some w =>
          let busy := fun n => s.pipeBusy.set (pipeKey q p) (s.clock + n)
          let t' := { t with lastIssue := t.lastIssue.set (pipeIndex p) (s.clock + 1) }
          let s := s.asking (t.issueSince s.clock)
          match coreDecode (BitVec.ofNat 96 w) with
          | .error code =>
            .act (decodeTrap ({ s with pipeBusy := busy 1, cur := some tid }.setTeam tid t') tid t' w code)
          | .ok i => .issue ({ s with pipeBusy := busy (clocksOf t i), cur := some tid }.setTeam tid t') i

/-- The clock since which a condition has held, when it holds at the end of this clock. -/
def sinceWhen (holds : Bool) (old : Option Nat) (clock : Nat) : Option Nat := if holds then some (old.getD clock) else none

/-- A replay of a team, or the fetch of its block, is due. -/
def Team.wants (t : Team) : Bool := !t.replay.isEmpty || (t.run.isSome && t.block.isNone)

/-- Readiness is counted from the clock at which it began (R28); so are the requests that a team's own accesses make (R368; log 34). -/
def countReady (s : State) : State :=
  { s with teams := s.teams.map fun (e : Nat × Team) => (e.1, { e.2 with
      readyAt := sinceWhen (isReady s e.1 e.2) e.2.readyAt s.clock
      wantSince := sinceWhen (mayRun s e.2 && e.2.wants) e.2.wantSince s.clock
      stackSince := sinceWhen (e.2.spillDue || e.2.refillDue) e.2.stackSince s.clock }) }

end Sys2Proof.Machine
end

