-- ==== Sys2Proof/Machine/Matrix.lean ====
section
/-! DEFINITION. Bit-plane records, the Spindle's sums, sliced products and output conversion (R79 to R92, R281, R282). -/

namespace Sys2Proof

/-- Bits of an element of an A operand (R281). -/
def AFmt.bits : AFmt → Nat
  | .i1 => 1
  | .i2 => 2
  | .i4 => 4
  | .i8 | .e4m3 | .e5m2 => 8
  | .bf16 | .f16 => 16
/-- The float format of an A operand; none is an integer (R79). -/
def AFmt.float? : AFmt → Option Machine.FFmt
  | .e4m3 => some .e4m3
  | .e5m2 => some .e5m2
  | .bf16 => some .bf16
  | .f16 => some .f16
  | _ => none
/-- P, the significand or value planes (R79). -/
def AFmt.planes (f : AFmt) : Nat :=
  match f.float? with
  | some g => 1 + g.mbits
  | none => f.bits
/-- Planes before them: sign and exponent (R80). -/
def AFmt.side (f : AFmt) : Nat :=
  match f.float? with
  | some g => 1 + g.ebits
  | none => 0
/-- Bytes of a plane record (R80). -/
def AFmt.record (f : AFmt) : Nat := 32 * (f.side + f.planes)

/-- Bytes of an element of a B operand (R82). -/
def BFmt.bytes : BFmt → Nat
  | .bf16 => 2
  | _ => 1
/-- An integer B operand (R82). -/
def BFmt.isInt : BFmt → Bool
  | .i8 | .n8 => true
  | _ => false

end Sys2Proof

namespace Sys2Proof.Machine

/-- The accumulator is i32 (R82). -/
def intAcc (af : AFmt) (bf : BFmt) : Bool := af.float?.isNone && bf.isInt

/-! ### Operands -/

/-- A bit of plane j of a record: row i, element k (R79, R85). -/
def planeBit (rec j i k : Nat) : Nat := rec / 2 ^ (256 * j + 16 * i + k) % 2

/-- A number whose bits, most significant first, are planes j, j + 1, … of n. -/
def planeNum (rec i k : Nat) (j n : Nat) : Nat := ((List.range n).map fun q => planeBit rec (j + q) i k * 2 ^ (n - 1 - q)).sum

/-- An integer element as read with p planes (R70, R79, R81). -/
def aInt (f : AFmt) (p rec i k : Nat) : Int :=
  match f with
  | .i1 => 1 - 2 * (planeBit rec 0 i k : Int)
  | _ =>
    let w := f.bits
    signedNat w (planeNum rec i k 0 p * 2 ^ (w - p))

/-- A float element as read with p planes (R81). -/
def aFloat (g : FFmt) (p rec i k : Nat) : FVal :=
  let ex := planeNum rec i k 1 g.ebits
  let all := planeNum rec i k (1 + g.ebits) (1 + g.mbits)
  let neg := planeBit rec 0 i k == 1
  let frac := all % 2 ^ g.mbits
  if g.hasInf && ex = g.emax then (if frac = 0 then .inf neg else .nan)
  else if !g.hasInf && ex = g.emax && frac = 2 ^ g.mbits - 1 then .nan
  else
    let drop := 1 + g.mbits - p
    .fin neg (all / 2 ^ drop * 2 ^ drop) (g.qmin + (max ex 1 - 1 : Nat))

/-- An A element (R79 to R81). -/
def aVal (f : AFmt) (p rec i k : Nat) : FVal :=
  match f.float? with
  | some g => aFloat g p rec i k
  | none => FVal.int (aInt f p rec i k)

/-- An integer B element (R82). -/
def bInt (f : BFmt) (v : Nat) : Int :=
  match f with
  | .i8 => signedNat 8 v
  | _ => v

/-- A B element (R82). -/
def bVal (f : BFmt) (v : Nat) : FVal :=
  match f with
  | .e4m3 => FFmt.e4m3.val v
  | .e5m2 => FFmt.e5m2.val v
  | .bf16 => FFmt.bf16.val v
  | _ => FVal.int (bInt f v)

/-- The products of row i that a mask entry includes (R85). -/
def included (mask i : Nat) : List Nat := (List.range 16).filter fun k => mask / 2 ^ (16 * i + k) % 2 == 1

/-- One K-group of one element: the accumulator after it (R83, R84). b gives element k of column j. -/
def groupStep (af : AFmt) (bf : BFmt) (p rec mask i : Nat) (b : Nat → Nat) (acc : Nat) : Nat :=
  let ks := included mask i
  if intAcc af bf then
    ((signedNat 32 acc + (ks.map fun k => aInt af p rec i k * bInt bf (b k)).sum) % 2 ^ 32).toNat
  else
    let s := exactSum (ks.map fun k => (aVal af p rec i k).mul (bVal bf (b k)))
    FFmt.f32.round .rne ((FFmt.f32.val acc).add .rne s)

/-! ### Sliced products -/

/-- The pairs (t, u) in the order of R89. -/
def slicePairs (s : Nat) : List (Nat × Nat) :=
  ((List.range (2 * s + 1)).reverse.filter fun n => 2 ≤ n && n ≤ s + 1).flatMap fun n =>
    ((List.range s).map fun t => (t + 1, n - (t + 1))).filter fun x => 1 ≤ x.2 && x.2 ≤ s && x.1 < n

/-- V of a pair: Z · 2^(e + f + 2 − 7(t + u)), as f64 (R89). -/
def pairTerm (z : Int) (e f : Int) (tu : Nat) : Nat :=
  FFmt.f64.round .rne (match FVal.int z with
    | .fin n m _ => .fin n m (e + f + 2 - 7 * (tu : Int))
    | v => v)

/-- The exponent of a row or column that holds a NaN or an infinity (R282). -/
def badExp : Nat := 0x7FFF

/-- e_i of the finite values of a row: the smallest integer with max < 2^e, 0 for a row of zeros (R87). -/
def sliceExp (l : List FVal) : Int :=
  let tops := l.filterMap fun v => match v with
    | .fin _ m e => if m = 0 then none else some (e + bitLen m)
    | _ => none
  match tops with
  | [] => 0
  | x :: xs => xs.foldl max x

/-- RNE to an integer of a value (R87). -/
def rneInt : FVal → Int
  | .fin n m e => let x : Int := FVal.toInt .rne n m e; if n then -x else x
  | _ => 0

/-- Digits 1 to s of an element: d_t = RNE(rem · 2^(7t−1)), the remainder kept exact (R87). -/
def sliceDigits : Nat → Nat → FVal → List Int
  | 0, _, _ => []
  | n + 1, t, rem =>
    let scaled := match rem with
      | .fin a m e => FVal.fin a m (e + 7 * (t : Int) - 1)
      | v => v
    let d := rneInt scaled
    let sub := match FVal.int (-d) with
      | .fin a m _ => FVal.fin a m (1 - 7 * (t : Int))
      | v => v
    d :: sliceDigits n (t + 1) (rem.add .rne sub)

/-- The digits of an f64 element under its row's exponent (R87). -/
def digitsOf (s : Nat) (e : Int) (v : FVal) : List Int :=
  sliceDigits s 1 (match v with
    | .fin a m x => .fin a m (x - e)
    | w => w)

/-! ### Output (R86) -/

/-- The value of an accumulator word by the tile's kind (R86, R293). -/
def accVal (k : TKind) (x : Nat) : FVal :=
  match k with
  | .f32 => FFmt.f32.val x
  | .i32 => FVal.int (signedNat 32 x)
  | .f64 => FFmt.f64.val x

/-- A format into which a value of the tile is not narrowed; an integer is narrowed into every one (R75, R86; log 15). -/
def keepsRange (k : TKind) (g : FFmt) : Bool :=
  match k with
  | .f64 => g == .f64
  | .f32 => g == .f32 || g == .f64
  | .i32 => false

/-- RND(acc × ρ × γ, f, m) (R86). -/
def outValue (k : TKind) (dst : Fmt) (ovf : Bool) (rm : RM) (acc rho gamma : Nat) : Nat :=
  let v := ((accVal k acc).mul (FFmt.f32.val rho)).mul (FFmt.f32.val gamma)
  match ffmtOf dst with
  | some g => if keepsRange k g then g.round rm v else g.narrow rm ovf v
  | none => if v.isNaN then 0 else toInteger dst rm v

/-- The value of an output that the mask excludes (R86). -/
def maskedOut (dst : Fmt) : Nat :=
  match ffmtOf dst with
  | some g => g.signBit + (if g.hasInf then g.inf else g.maxFin)
  | none => extreme dst true

/-! ### Plane records from rows (R79, R80, R281) -/

/-- Plane j of an element's bits in a record (R79, R80). -/
def elementPlane (f : AFmt) (v j : Nat) : Nat :=
  match f.float? with
  | none => v / 2 ^ (f.bits - 1 - j) % 2
  | some g =>
    if j ≤ g.ebits then v / 2 ^ (f.bits - 1 - j) % 2
    else
      let q := j - 1 - g.ebits
      if q = 0 then (if v / 2 ^ g.mbits % 2 ^ g.ebits = 0 then 0 else 1) else v / 2 ^ (g.mbits - q) % 2

/-- A plane record: elements by row and K index. -/
def planeRecord (f : AFmt) (x : Nat → Nat → Nat) : Nat :=
  ((List.range (f.side + f.planes)).map fun j =>
    ((List.range 256).map fun b => elementPlane f (x (b / 16) (b % 16)) j * 2 ^ (256 * j + b)).sum).sum

end Sys2Proof.Machine
end

