-- ==== Sys2Proof/Machine/Stream.lean ====
section
/-! DEFINITION. The front stage of the Task Window: fetch, order of checks, renaming, and the handling of every stream instruction (03, 14, R46 to R57, R302 to R320, R363). -/

namespace Sys2Proof

/-- Class of a task, M[1:0] (R303); 0 for every other stream instruction. -/
def Instr.taskClass : Instr → Nat
  | .kread c _ _ _ | .launch c _ _ _ _ | .mmt c _ _ _ _ _ _ | .smmt c _ _ _ _ _ _ | .copyt c _ _ _ _ | .redt c _ _
  | .maskgen c _ _ _ | .kvcompact c _ _ _ _ | .sopen c _ | .srule c _ _ _ _ _ | .saccept c _ _ _ _ _ | .skv c _ _
  | .spublish c _ | .sclose c _ | .scount c _ _ | .qsend c _ _ _ | .qrecv c _ _ _ | .ssignal c _ _ _ | .swait c _ _ _ _ => c.toNat
  | _ => 0

/-- A task of Table 03.1's last row. -/
def Instr.isTask : Instr → Bool
  | .kread _ _ _ _ | .launch _ _ _ _ _ | .mmt _ _ _ _ _ _ _ | .smmt _ _ _ _ _ _ _ | .copyt _ _ _ _ _ | .redt _ _ _
  | .maskgen _ _ _ _ | .kvcompact _ _ _ _ _ | .sopen _ _ | .srule _ _ _ _ _ _ | .saccept _ _ _ _ _ _ | .skv _ _ _
  | .spublish _ _ | .sclose _ _ | .scount _ _ _ | .qsend _ _ _ _ | .qrecv _ _ _ _ | .ssignal _ _ _ _ | .swait _ _ _ _ _ => true
  | _ => false

/-- After KREAD or SCOUNT the front stage handles nothing until the task has retired (R49). -/
def Instr.joins : Instr → Bool
  | .kread _ _ _ _ | .scount _ _ _ => true
  | _ => false

/-- AREA may stand before AREA or a task only (R57). -/
def Instr.isArea : Instr → Bool
  | .areaRead _ _ | .areaWrite _ _ => true
  | _ => false

/-- An instruction that only the front stage of a partition handles (Table 03.1). -/
def Instr.isStream (i : Instr) : Bool :=
  i.isTask || match i with
    | .snop | .shalt | .sbr _ _ _ _ | .scall _ | .sret | .sjoin | .kalu _ _ _ _ | .areaRead _ _ | .areaWrite _ _ | .bdecl _ _
    | .bdrop _ | .smode _ _ => true
    | _ => false

end Sys2Proof

namespace Sys2Proof.Machine

/-! ### Stream scalars -/

/-- A stream scalar (R302). -/
def kOf (k : FMap DWord) (n : Nat) : DWord := k.getD n 0
/-- Bits lo upward, n of them, of a descriptor register. -/
def kBits (k : FMap DWord) (r lo n : Nat) : Nat := (kOf k r).toNat / 2 ^ lo % 2 ^ n
/-- The 80-bit address of a pair; none with VA high bits (R302). -/
def kPair? (k : FMap DWord) (r : Nat) : Option Nat :=
  let hi := (kOf k (r + 1)).toNat
  if hi < 65536 then some ((kOf k r).toNat + 2 ^ 64 * hi) else none
/-- The same, once the front stage has checked it. -/
def kPair (k : FMap DWord) (r : Nat) : Nat := (kOf k r).toNat + 2 ^ 64 * ((kOf k (r + 1)).toNat % 65536)

/-! ### Buffers (R51 to R55) -/

/-- The free list of a class. -/
def Part.freeOf (x : Part) (c : Nat) : List Nat := x.free.getD c []
def Part.classOf (x : Part) (phys : Nat) : Nat := (x.bufClass? phys).getD 0
/-- A buffer returns to the tail of its list at a retirement (R51). -/
def Part.giveTail (x : Part) (phys : Nat) : Part :=
  let c := x.classOf phys
  { x with free := x.free.set c (x.freeOf c ++ [phys]) }
/-- A fresh buffer given back goes to the head of its list (R51). -/
def Part.giveHead (x : Part) (phys : Nat) : Part :=
  let c := x.classOf phys
  { x with free := x.free.set c (phys :: x.freeOf c) }
/-- Some entry returns a buffer of the class when it retires (R55). -/
def Part.willReturn (x : Part) (c : Nat) : Bool := x.window.any fun e => match e.prev with
  | some b => x.classOf b == c
  | none => false

/-! ### Position -/

/-- The next PC of the stream (R189). -/
def Part.nextPC (x : Part) (pc : PC) : PC :=
  match x.fblock with
  | some b => if b.addr = pc.blk && pc.slot + 1 < b.count then ⟨pc.blk, pc.slot + 1⟩ else ⟨nextBlock pc.blk, 0⟩
  | none => if pc.slot < 4 then ⟨pc.blk, pc.slot + 1⟩ else ⟨nextBlock pc.blk, 0⟩

/-- The front stage goes on at a PC; a block it reaches is fetched anew (R47). -/
def Part.goTo (x : Part) (pc : PC) : Part := { x with pc, fblock := none }
def Part.advance (x : Part) : Part :=
  let n := x.nextPC x.pc
  { x with pc := n, fblock := if n.slot = 0 then none else x.fblock }

/-! ### Faults and waits -/

/-- The front stage halts at an instruction (R334). -/
def frontFault (s : State) (p : Nat) (f : FrontFault) : State := s.updPart p fun x => { x with ffault := some f }

/-- A fault of an instruction at the front stage. -/
def frontTrap (s : State) (p : Nat) (x : Part) (i : Instr) (code : Nat) (addr : Option Nat := none) : State :=
  frontFault s p { code, pc := x.pc, op := (encode i).toNat % 256, cls := i.taskClass, addr, block := false }

/-- The front stage handles nothing: it does not run, it halted, or a join holds it (R49, R66, R334). -/
def Part.frontHeld (x : Part) : Bool :=
  x.twState != .running || x.haltReq || x.ffault.isSome || x.shaltPassed || x.window.any fun e => e.insn.joins

/-- What a stream instruction meets before its own handling. -/
inductive FGate where
  | nobody
  | wait
  | fault (p : Nat) (code : Nat)
  | go (p : Nat)
  deriving DecidableEq, Repr

/-- The AREA sequence (R57, R363 item 3). -/
def areaFault (x : Part) (i : Instr) : Option Nat :=
  if i.isArea then (if 4 ≤ x.areas.length then some 0x0803 else none)
  else if !i.isTask && !x.areas.isEmpty then some 0x0804
  else none

def frontGate (s : State) (i : Instr) : FGate :=
  match s.curPart with
  | none => .nobody
  | some p =>
    if (s.part p).frontHeld then .wait
    else match areaFault (s.part p) i with
      | some code => .fault p code
      | none => .go p

/-- A stream instruction: its handling k of a partition, once the front stage takes it. -/
def front (s : State) (i : Instr) (k : Nat → Part → State) : Out :=
  match frontGate s i with
  | .nobody => .fault .noStream
  | .wait => .next s
  | .fault p code => .next (frontTrap s p (s.part p) i code)
  | .go p => .next (k p (s.part p))

/-! ### Front-stage instructions -/

/-- SNOP (R305). -/
def execSnop (s : State) : Out := front s .snop fun p x => s.setPart p x.advance

/-- SBR (R305). -/
def execSbr (cc : CC) (a b : KReg) (off : BitVec 32) (s : State) : Out :=
  front s (.sbr cc a b off) fun p x =>
    s.setPart p (if cc.eval (kOf x.k a.val) (kOf x.k b.val) then x.goTo ⟨x.pc.blk + (off.signExtend 80) * 64, 0⟩ else x.advance)

/-- SCALL (R48). -/
def execScall (off : BitVec 32) (s : State) : Out :=
  front s (.scall off) fun p x =>
    if 16 ≤ x.calls.length then frontTrap s p x (.scall off) 0x0801
    else s.setPart p (({ x with calls := x.nextPC x.pc :: x.calls } : Part).goTo ⟨x.pc.blk + (off.signExtend 80) * 64, 0⟩)

/-- SRET (R48). -/
def execSret (s : State) : Out :=
  front s .sret fun p x =>
    match x.calls with
    | [] => frontTrap s p x .sret 0x0802
    | c :: cs => s.setPart p (({ x with calls := cs } : Part).goTo c)

/-- SJOIN waits until every older entry has retired (R50). -/
def execSjoin (s : State) : Out := front s .sjoin fun p x => if x.window.isEmpty then s.setPart p x.advance else s

/-- The second operand of KALU (R306). -/
def kb (x : Part) : KB → DWord
  | .reg r => kOf x.k r.val
  | .imm v => v.signExtend 64

/-- KALU (R306). -/
def execKalu (op : AluOp) (d a : KReg) (b : KB) (s : State) : Out :=
  front s (.kalu op d a b) fun p x =>
    s.setPart p (({ x with k := x.k.set d.val (alu op false (kOf x.k a.val) (kb x b)) } : Part).advance)

/-- SMODE (R310). -/
def execSmode (b : KReg) (det : Bool) (s : State) : Out :=
  front s (.smode b det) fun p x => s.setPart p (({ x with seed := (kOf x.k b.val).extractLsb' 0 32, det } : Part).advance)

/-- AREA (R56, R57, R308, R363). -/
def area (s : State) (p : Nat) (x : Part) (i : Instr) (a b : KReg) (write : Bool) : State :=
  let len := (kOf x.k b.val).toNat
  if 2 ^ 40 < len then frontTrap s p x i 0x0811
  else match kPair? x.k a.val with
    | none => frontTrap s p x i 0x0304
    | some base =>
      if len ≠ 0 && (inBufWindow base || inBufWindow (base + len - 1) || (base < bufWindow && bufWindow ≤ base + len - 1)) then
        frontTrap s p x i 0x0808
      else s.setPart p (({ x with areas := x.areas ++ [{ base, len, write }] } : Part).advance)

/-- AREA.READ (R308). -/
def execAreaRead (a b : KReg) (s : State) : Out := front s (.areaRead a b) fun p x => area s p x (.areaRead a b) a b false
/-- AREA.WRITE (R308). -/
def execAreaWrite (a b : KReg) (s : State) : Out := front s (.areaWrite a b) fun p x => area s p x (.areaWrite a b) a b true

/-! ### Entries of the window -/

/-- The stream state that a squash restores (R335). -/
def Part.snap (x : Part) : Snap := { k := x.k, calls := x.calls, seed := x.seed, det := x.det, rename := x.rename, areas := x.areas, launch := x.nextLaunch }

/-- An instruction enters the window, and the front stage goes on (R46, R49). -/
def Part.enter (x : Part) (e : WinEntry) : Part :=
  let x := ({ x with nextSeq := x.nextSeq + 1 } : Part).advance
  { x with window := x.window ++ [{ e with seq := x.nextSeq - 1, snap := x.snap, next := x.pc }] }

/-- A new entry: the instruction, and what it captures (R49, R310). -/
def Part.entry (x : Part) (i : Instr) : WinEntry :=
  { seq := 0, pc := x.pc, insn := i, cls := i.taskClass, k := x.k, seed := x.seed, det := x.det }

def Part.full (x : Part) : Bool := Config.windowEntries ≤ x.window.length

/-- SHALT (R66, R305). -/
def execShalt (s : State) : Out :=
  front s .shalt fun p x => if x.full then s else s.setPart p (({ x with shaltPassed := true } : Part).enter (x.entry .shalt))

/-- BDECL (R51, R52, R55, R309). -/
def execBdecl (d : BufNo) (cls : BitVec 4) (s : State) : Out :=
  front s (.bdecl d cls) fun p x =>
    if x.full then s
    else match x.freeOf cls.toNat with
      | [] => if x.willReturn cls.toNat then s else frontTrap s p x (.bdecl d cls) 0x0805
      | b :: bs =>
        s.setPart p (({ x with free := x.free.set cls.toNat bs, rename := x.rename.set d.val b } : Part).enter
          { x.entry (.bdecl d cls) with fresh := some b, arch := some d.val, prev := x.rename.get? d.val })

/-- BDROP (R52, R309). -/
def execBdrop (d : BufNo) (s : State) : Out :=
  front s (.bdrop d) fun p x =>
    if x.full then s
    else match x.rename.get? d.val with
      | none => frontTrap s p x (.bdrop d) 0x0806
      | some b =>
        s.setPart p (({ x with rename := x.rename.erase d.val } : Part).enter { x.entry (.bdrop d) with arch := some d.val, prev := some b })

/-! ### Tasks -/

/-- What a task names: its first failing descriptor field, its pairs, its buffers with the bytes it needs of each, the ranges that
its areas must cover, and the ranges its own accesses add to them (R58, R302, R363). -/
structure Plan where
  code : Option Nat := none
  pairs : List Nat := []
  d : Option BufNo := none
  /-- D is written in place (R54). -/
  inPlace : Bool := false
  a : Option BufNo := none
  b : Option BufNo := none
  needD : Nat := 0
  needA : Nat := 0
  needB : Nat := 0
  ranges : List Area := []
  own : List Area := []
  deriving DecidableEq, Repr

/-- A buffer is too small for the task (R55). -/
def tooSmall (x : Part) (b : Option BufNo) (need : Nat) : Bool :=
  match b with
  | none => false
  | some n => match x.rename.get? n.val with
    | none => false
    | some p => (x.bufBytes? p).getD 0 < need

def undeclared (x : Part) (b : Option BufNo) : Bool :=
  match b with
  | none => false
  | some n => (x.rename.get? n.val).isNone

/-- A range lies inside one of the task's declared areas of its kind (R304). -/
def covered (areas : List Area) (r : Area) : Bool :=
  areas.any fun a => a.write == r.write && a.base ≤ r.base && r.base + r.len ≤ a.base + a.len

/-- The first fault of items 4 to 6 of R363, up to the pool. -/
def planFault (x : Part) (q : Plan) : Option Nat :=
  match q.code with
  | some c => some c
  | none =>
    if q.pairs.any fun r => (kPair? x.k r).isNone then some 0x0304
    else if undeclared x q.d || undeclared x q.a || undeclared x q.b then some 0x0806
    else if tooSmall x q.d q.needD || tooSmall x q.a q.needA || tooSmall x q.b q.needB then some 0x0807
    else none

/-- A physical buffer by its present name. -/
def Part.phys (x : Part) (b : Option BufNo) : Option Nat := b.bind fun n => x.rename.get? n.val

/-- A task passes the front stage, stalls, or faults (R49, R53 to R57, R363). f fills what only this task has. -/
def passTask (s : State) (p : Nat) (x : Part) (i : Instr) (q : Plan) (f : WinEntry → WinEntry) (g : Part → Part) : State :=
  match planFault x q with
  | some code => frontTrap s p x i code
  | none =>
    let missing := (q.ranges.any fun r => !covered x.areas r)
    let e : WinEntry := { x.entry i with
      a := x.phys q.a, b := x.phys q.b
      areas := x.areas ++ q.own, entered := s.clock }
    match (if q.inPlace then none else q.d) with
    | none =>
      if missing then frontTrap s p x i 0x0812
      else if x.full then s
      else s.setPart p ((g { x with areas := [] }).enter (f { e with d := x.phys q.d }))
    | some n =>
      let old := (x.rename.get? n.val).getD 0
      let c := x.classOf old
      match x.freeOf c with
      | [] => if x.willReturn c then s else frontTrap s p x i 0x0805
      | b :: bs =>
        if missing then frontTrap s p x i 0x0812
        else if x.full then s
        else s.setPart p ((g { x with areas := [], free := x.free.set c bs, rename := x.rename.set n.val b }).enter
          (f { e with d := some b, fresh := some b, arch := some n.val, prev := some old }))

/-- A task with nothing of its own to fill. -/
def passPlain (s : State) (p : Nat) (x : Part) (i : Instr) (q : Plan) : State := passTask s p x i q id id

/-- The code of the first condition that fails (R363 item 4). -/
def firstBad : List (Bool × Nat) → Option Nat
  | [] => none
  | (ok, c) :: l => if ok then firstBad l else some c

/-- KREAD (R307). -/
def execKread (cls : BitVec 2) (d a : KReg) (wide : Bool) (s : State) : Out :=
  front s (.kread cls d a wide) fun p x =>
    passPlain s p x (.kread cls d a wide)
      { pairs := [a.val], own := [{ base := kPair x.k a.val, len := if wide then 8 else 4, write := false }] }

/-! LAUNCH (R24 to R26, R311). -/

/-- Teams of a shape that one quarter holds (R26, R27). -/
def teamsPerQuarter (lanes regs : Nat) : Nat := min 32 (65536 / (roundLanes lanes * regs))

/-- A core that is not lost to its partition (R387). -/
def coreUsable (s : State) (c : Nat) : Bool := (s.coreStatOf c).state != 2
/-- A core on which new work may be placed: neither retired nor lost (R386, R387). -/
def corePlaceable (s : State) (c : Nat) : Bool := (s.coreStatOf c).state == 0

def Part.cores (x : Part) : List Nat := (List.range Config.cores).filter x.hasCore

/-- Cores that a partition can give to a launch. -/
def launchCores (s : State) (x : Part) : List Nat := x.cores.filter (coreUsable s)

/-- Member cores of a crew: one when it holds all the teams, else as many as they need (R24). -/
def coresNeeded (teams lanes regs : Nat) : Nat :=
  max 1 ((teams + 4 * teamsPerQuarter lanes regs - 1) / (4 * teamsPerQuarter lanes regs))

/-- The fields of a LAUNCH descriptor (Table 14.4). -/
structure LaunchShape where
  entry : Nat
  ncrew : Nat
  win : Nat
  teams : Nat
  lanes : Nat
  regs : Nat
  tiles : Nat
  queues : Nat
  scalars : Nat
  mirror : Bool
  stack : Nat
  sstride : Nat
  tstride : Nat
  tvec : Nat
  tsave : Nat
  deriving DecidableEq, Repr

def launchShape (k : FMap DWord) (d : Nat) : LaunchShape where
  entry := kPair k d
  ncrew := kBits k (d + 2) 0 32 + 1
  win := 512 * kBits k (d + 2) 32 15
  teams := kBits k (d + 3) 0 4 + 1
  lanes := kBits k (d + 3) 4 10 + 1
  regs := 8 * (kBits k (d + 3) 14 6 + 1)
  tiles := kBits k (d + 3) 20 5
  queues := kBits k (d + 3) 25 4
  scalars := kBits k (d + 3) 29 4
  mirror := kBits k (d + 3) 33 1 = 1
  stack := (kOf k (d + 4)).toNat
  sstride := kBits k (d + 5) 0 32
  tstride := kBits k (d + 5) 32 32
  tvec := (kOf k (d + 6)).toNat
  tsave := (kOf k (d + 7)).toNat

/-- The crew shape fits some cores of the partition (R24, R26, R311, R383). -/
def shapeFits (s : State) (x : Part) (h : LaunchShape) : Bool :=
  roundLanes h.lanes * h.regs ≤ 65536 &&
  h.win ≤ 2 ^ 21 * coresNeeded h.teams h.lanes h.regs &&
  coresNeeded h.teams h.lanes h.regs ≤ 4 &&
  coresNeeded h.teams h.lanes h.regs * (if h.mirror then 2 else 1) ≤ (launchCores s x).length

/-- Descriptor of LAUNCH, fields in ascending order (R311, R363). A STACK that is not 32-byte aligned is taken as it is (log 125). -/
def launchCode (s : State) (x : Part) (d : Nat) : Option Nat :=
  if d % 2 = 1 || 32 < d + 8 then some 0x0811
  else
    let h := launchShape x.k d
    firstBad
      [(h.entry % 64 = 0, 0x0810), (kBits x.k (d + 2) 32 15 ≤ 16384, 0x0810), (kBits x.k (d + 2) 47 17 = 0, 0x0811),
       (h.regs ≤ 384, 0x0810), (h.tiles ≤ 16, 0x0810), (h.queues ≤ 8, 0x0810), (h.scalars ≤ 8, 0x0811),
       (kBits x.k (d + 3) 34 30 = 0, 0x0811), (d + 8 + h.scalars ≤ 32, 0x0811), (shapeFits s x h, 0x0810),
       (h.sstride % 32 = 0, 0x0810), (h.tstride % 64 = 0, 0x0810), (h.tvec % 64 = 0, 0x0810), (h.tsave % 64 = 0, 0x0810)]

/-- LAUNCH (R53, R311, R312): its launch id is assigned here. -/
def execLaunch (cls : BitVec 2) (bd ba bb : Option BufNo) (kd : KReg) (s : State) : Out :=
  front s (.launch cls bd ba bb kd) fun p x =>
    passTask s p x (.launch cls bd ba bb kd)
      { code := launchCode s x kd.val, pairs := [kd.val], d := bd, a := ba, b := bb }
      (fun e => { e with launch := BitVec.ofNat 64 x.nextLaunch }) (fun y => { y with nextLaunch := y.nextLaunch + 1, launchTop := max y.launchTop (y.nextLaunch + 1) })

/-! MMT and SMMT (R313, R314). -/

/-- The shape of an MMT or SMMT (Tables 14.5, 14.6). -/
structure MatShape where
  m : Nat
  n : Nat
  k : Nat
  groups : Nat
  blocks : Nat
  af : AFmt
  bf : BFmt
  planes : Nat
  out : Fmt
  ovf : Bool
  rm : RM
  rscale : Nat
  cscale : Nat
  maskoff : Nat
  /-- SMMT. -/
  sliced : Bool
  slices : Nat
  deriving DecidableEq, Repr

def aFmtOf (n : Nat) : AFmt := (AFmt.ofCode n).getD .i1
def bFmtOf (n : Nat) : BFmt := (BFmt.ofCode n).getD .i8
def fmtOfCode (n : Nat) : Fmt := (Fmt.ofCode n).getD .i8
def rmOf (n : Nat) : RM := (RM.ofCode n).getD .rne

def mmtShape (k : FMap DWord) (d : Nat) : MatShape where
  m := kBits k d 0 32
  n := kBits k d 32 32
  k := kBits k (d + 1) 0 32
  groups := (kBits k (d + 1) 0 32 + 15) / 16
  blocks := (kBits k d 0 32 + 15) / 16
  af := aFmtOf (kBits k (d + 1) 32 3)
  bf := bFmtOf (kBits k (d + 1) 35 3)
  planes := kBits k (d + 1) 38 4
  out := fmtOfCode (kBits k (d + 1) 42 4)
  ovf := kBits k (d + 1) 46 1 = 1
  rm := rmOf (kBits k (d + 1) 47 2)
  rscale := kBits k (d + 2) 0 32
  cscale := kBits k (d + 2) 32 32
  maskoff := kBits k (d + 3) 0 32
  sliced := false
  slices := 0

def smmtShape (k : FMap DWord) (d : Nat) : MatShape where
  m := kBits k d 0 32
  n := kBits k d 32 32
  k := kBits k (d + 1) 0 32
  groups := (kBits k (d + 1) 0 32 + 15) / 16
  blocks := (kBits k d 0 32 + 15) / 16
  af := .i8
  bf := .i8
  planes := 8
  out := .f64
  ovf := false
  rm := .rne
  rscale := 0xFFFFFFFF
  cscale := 0xFFFFFFFF
  maskoff := kBits k (d + 2) 0 32
  sliced := true
  slices := kBits k (d + 1) 32 4

/-- Bytes that a scale vector or a mask needs. -/
def scaleEnd (off n : Nat) : Nat := if off = 0xFFFFFFFF then 0 else off + 4 * n
def maskEnd (h : MatShape) (masked : Bool) : Nat := if masked then h.maskoff + 32 * (h.groups * h.blocks) else 0

/-- Bytes of an element of a format (Table 10.10). -/
def fmtBytes (f : Fmt) : Nat := f.width / 8

def mmtCode (k : FMap DWord) (acc masked : Bool) (d : Nat) : Option Nat :=
  if 32 < d + 4 then some 0x0811
  else
    let h := mmtShape k d
    firstBad
      [(1 ≤ h.m && h.m ≤ 2 ^ 20, 0x0811), (1 ≤ h.n && h.n ≤ 2 ^ 20, 0x0811), (1 ≤ h.k && h.k ≤ 2 ^ 19, 0x0601),
       (kBits k (d + 1) 35 3 ≤ 4, 0x0811), (1 ≤ h.planes && h.planes ≤ h.af.planes, 0x0601), (kBits k (d + 1) 42 4 ≤ 13, 0x0811),
       (!acc || h.out == (if intAcc h.af h.bf then Fmt.i32 else Fmt.f32), 0x0811), (kBits k (d + 1) 49 15 = 0, 0x0811),
       (!acc || h.rscale = 0xFFFFFFFF, 0x0811), (!acc || h.cscale = 0xFFFFFFFF, 0x0811),
       (masked || h.maskoff = 0, 0x0811), (kBits k (d + 3) 32 32 = 0, 0x0811)]

/-- MMT (R313). -/
def execMmt (cls : BitVec 2) (acc masked : Bool) (d a b : BufNo) (kd : KReg) (s : State) : Out :=
  front s (.mmt cls acc masked d a b kd) fun p x =>
    let h := mmtShape x.k kd.val
    passPlain s p x (.mmt cls acc masked d a b kd)
      { code := mmtCode x.k acc masked kd.val, d := some d, inPlace := acc, a := some a, b := some b
        needD := h.m * h.n * fmtBytes h.out
        needA := max (h.blocks * h.groups * h.af.record) (max (scaleEnd h.rscale h.m) (maskEnd h masked))
        needB := max (h.k * h.n * h.bf.bytes) (scaleEnd h.cscale h.n) }

def smmtCode (k : FMap DWord) (masked : Bool) (d : Nat) : Option Nat :=
  if 32 < d + 3 then some 0x0811
  else
    let h := smmtShape k d
    firstBad
      [(1 ≤ h.m && h.m ≤ 2 ^ 20, 0x0811), (1 ≤ h.n && h.n ≤ 2 ^ 20, 0x0811), (1 ≤ h.k && h.k ≤ 2 ^ 19, 0x0601),
       (1 ≤ h.slices && h.slices ≤ 9, 0x0601), (kBits k (d + 1) 36 28 = 0, 0x0811),
       (masked || h.maskoff = 0, 0x0811), (kBits k (d + 2) 32 32 = 0, 0x0811)]

/-- SMMT (R314). -/
def execSmmt (cls : BitVec 2) (acc masked : Bool) (d a b : BufNo) (kd : KReg) (s : State) : Out :=
  front s (.smmt cls acc masked d a b kd) fun p x =>
    let h := smmtShape x.k kd.val
    passPlain s p x (.smmt cls acc masked d a b kd)
      { code := smmtCode x.k masked kd.val, d := some d, inPlace := acc, a := some a, b := some b
        needD := 8 * h.m * h.n, needA := max (8 * h.m * h.k) (maskEnd h masked), needB := 8 * h.k * h.n }

/-! COPYT (R315). -/

/-- The shape of a COPYT (Table 14.7). -/
structure CopyShape where
  plane : Bool
  fmt : AFmt
  stride : Nat
  /-- Bytes of a COPY. -/
  count : Nat
  k : Nat
  m : Nat
  src : Nat
  dst : Nat
  deriving DecidableEq, Repr

def copyShape (k : FMap DWord) (d : Nat) : CopyShape where
  plane := kBits k d 0 2 = 1
  fmt := aFmtOf (kBits k d 2 3)
  stride := kBits k d 32 32
  count := (kOf k (d + 1)).toNat
  k := kBits k (d + 1) 0 32
  m := kBits k (d + 1) 32 16
  src := kPair k (d + 2)
  dst := kPair k (d + 4)

/-- Bytes of a row of K elements (R281). -/
def rowBytes (f : AFmt) (k : Nat) : Nat := (k * f.bits + 7) / 8
/-- Bytes that PLANE reads, and writes (R281). -/
def planeReads (f : AFmt) (stride k m : Nat) : Nat := (m - 1) * stride + rowBytes f k
def planeWrites (f : AFmt) (k m : Nat) : Nat := (m + 15) / 16 * ((k + 15) / 16) * f.record

def copytCode (k : FMap DWord) (dbuf abuf : Bool) (d : Nat) : Option Nat :=
  if d % 2 = 1 || 32 < d + 6 then some 0x0811
  else
    let h := copyShape k d
    firstBad
      [(kBits k d 0 2 ≤ 1, 0x0811), (kBits k d 5 27 = 0, 0x0811),
       (if h.plane then decide (max 1 (rowBytes h.fmt h.k) ≤ h.stride ∧ h.stride ≤ 262143) else kBits k d 2 3 == 0 && h.stride == 0, 0x0811),
       (if h.plane then decide (1 ≤ h.k ∧ h.k ≤ 2 ^ 19 ∧ 1 ≤ h.m) && kBits k (d + 1) 48 16 == 0
        else decide (1 ≤ h.count ∧ h.count ≤ 2 ^ 40), 0x0811),
       (!abuf || kOf k (d + 3) == 0, 0x0811), (!h.plane || kBits k (d + 4) 0 5 = 0, 0x0811), (!dbuf || kOf k (d + 5) == 0, 0x0811)]

/-- COPYT (R315). -/
def execCopyt (cls : BitVec 2) (acc : Bool) (d a : Option BufNo) (kd : KReg) (s : State) : Out :=
  front s (.copyt cls acc d a kd) fun p x =>
    let h := copyShape x.k kd.val
    let rd := if h.plane then planeReads h.fmt h.stride h.k h.m else h.count
    let wr := if h.plane then planeWrites h.fmt h.k h.m else h.count
    passPlain s p x (.copyt cls acc d a kd)
      { code := copytCode x.k d.isSome a.isSome kd.val
        pairs := (if a.isSome then [] else [kd.val + 2]) ++ (if d.isSome then [] else [kd.val + 4])
        d, inPlace := acc, a, needD := h.dst + wr, needA := h.src + rd
        ranges := (if a.isSome then [] else [{ base := h.src, len := rd, write := false }]) ++
          (if d.isSome then [] else [{ base := h.dst, len := wr, write := true }]) }

/-! The other tasks. -/

/-- REDT (R316). -/
def execRedt (cls : BitVec 2) (a : KReg) (t : BitVec 4) (s : State) : Out :=
  front s (.redt cls a t) fun p x =>
    passPlain s p x (.redt cls a t) { pairs := [a.val], own := [{ base := kPair x.k a.val, len := 128, write := false }] }

/-- Nodes, cached keys and row groups of MASKGEN (R157, R317). -/
def maskNodes (k : FMap DWord) (d : Nat) : Nat := kBits k d 0 9
def maskKeys (k : FMap DWord) (d : Nat) : Nat := kBits k d 9 21
def maskEntries (t pk : Nat) : Nat := (pk + t + 15) / 16 * ((t + 15) / 16)

/-- MASKGEN (R317): A holds a word for each node (R155), D one entry of 32 bytes for each K-group and row group. -/
def execMaskgen (cls : BitVec 2) (d a : BufNo) (kd : KReg) (s : State) : Out :=
  front s (.maskgen cls d a kd) fun p x =>
    let t := maskNodes x.k kd.val
    let pk := maskKeys x.k kd.val
    passPlain s p x (.maskgen cls d a kd)
      { code := firstBad [(1 ≤ t && t ≤ 256, 0x0825), (pk ≤ 2 ^ 20, 0x0811), (kBits x.k kd.val 30 34 = 0, 0x0811)]
        d := some d, a := some a, needD := 32 * maskEntries t pk, needA := 4 * t }

/-- KVCOMPACT (R156, R317). -/
def execKvcompact (cls : BitVec 2) (d a b : BufNo) (kd : KReg) (s : State) : Out :=
  front s (.kvcompact cls d a b kd) fun p x =>
    let w := kBits x.k kd.val 14 14
    passPlain s p x (.kvcompact cls d a b kd)
      { code := firstBad [(1 ≤ w && w ≤ 8192, 0x0811), (kBits x.k kd.val 28 36 = 0, 0x0811)], d := some d, a := some a, b := some b }

/-- A block size of R140. -/
def sizeOk (n : Nat) : Bool := [8, 16, 32, 64, 128, 256, 512, 1024].contains n

/-- SOPEN (R318). -/
def execSopen (cls : BitVec 2) (kd : KReg) (s : State) : Out :=
  front s (.sopen cls kd) fun p x =>
    passPlain s p x (.sopen cls kd)
      { code := if 32 < kd.val + 2 then some 0x0811 else firstBad
          [(sizeOk (kBits x.k kd.val 14 11), 0x0820), (kBits x.k kd.val 30 2 = 0, 0x0811), (kBits x.k kd.val 48 16 = 0, 0x0811),
           (kBits x.k (kd.val + 1) 56 8 = 0, 0x0811)] }

/-- SRULE (R318). -/
def execSrule (cls : BitVec 2) (img : Bool) (d a : BufNo) (b : Option BufNo) (kd : KReg) (s : State) : Out :=
  front s (.srule cls img d a b kd) fun p x =>
    passPlain s p x (.srule cls img d a b kd)
      { code := firstBad [(kBits x.k kd.val 14 2 = 0, 0x0811), (kBits x.k kd.val 48 11 ≤ 1024, 0x0811), (kBits x.k kd.val 59 5 = 0, 0x0811)]
        d := some d, a := some a, b }

/-- SACCEPT (R318). -/
def execSaccept (cls : BitVec 2) (img : Bool) (d a b : BufNo) (kd : KReg) (s : State) : Out :=
  front s (.saccept cls img d a b kd) fun p x =>
    let t := kBits x.k kd.val 14 9
    passPlain s p x (.saccept cls img d a b kd)
      { code := firstBad [(1 ≤ t && t ≤ 256, 0x0825), (kBits x.k kd.val 23 41 = 0, 0x0811)], d := some d, a := some a, b := some b }

/-- SKV (R318). -/
def execSkv (cls : BitVec 2) (a : BufNo) (kd : KReg) (s : State) : Out :=
  front s (.skv cls a kd) fun p x =>
    let w := kBits x.k (kd.val + 2) 14 14
    passPlain s p x (.skv cls a kd)
      { code := if 32 < kd.val + 3 then some 0x0811 else firstBad
          [(1 ≤ w && w ≤ 8192, 0x0811), (kBits x.k (kd.val + 2) 28 36 = 0, 0x0811)]
        pairs := [kd.val], a := some a }

/-- A descriptor of a block number alone (Table 14.9). -/
def blockOnly (k : FMap DWord) (d : Nat) : Option Nat := firstBad [(kBits k d 14 50 = 0, 0x0811)]

/-- SPUBLISH (R318). -/
def execSpublish (cls : BitVec 2) (kd : KReg) (s : State) : Out :=
  front s (.spublish cls kd) fun p x => passPlain s p x (.spublish cls kd) { code := blockOnly x.k kd.val }
/-- SCLOSE (R318). -/
def execSclose (cls : BitVec 2) (kd : KReg) (s : State) : Out :=
  front s (.sclose cls kd) fun p x => passPlain s p x (.sclose cls kd) { code := blockOnly x.k kd.val }
/-- SCOUNT (R318). -/
def execScount (cls : BitVec 2) (d kd : KReg) (s : State) : Out :=
  front s (.scount cls d kd) fun p x => passPlain s p x (.scount cls d kd) { code := blockOnly x.k kd.val }

/-- QSEND (R319). -/
def execQsend (cls : BitVec 2) (a : BufNo) (off : BitVec 16) (q : BitVec 4) (s : State) : Out :=
  front s (.qsend cls a off q) fun p x =>
    passPlain s p x (.qsend cls a off q) { a := some a, needA := 64 * off.toNat + 64 }
/-- QRECV (R319). -/
def execQrecv (cls : BitVec 2) (d : BufNo) (half : Bool) (q : BitVec 4) (s : State) : Out :=
  front s (.qrecv cls d half q) fun p x => passPlain s p x (.qrecv cls d half q) { d := some d, needD := 64 }

/-- SSIGNAL (R64, R320). -/
def execSsignal (cls : BitVec 2) (a b : KReg) (wide : Bool) (s : State) : Out :=
  front s (.ssignal cls a b wide) fun p x =>
    passPlain s p x (.ssignal cls a b wide)
      { pairs := [a.val], own := [{ base := kPair x.k a.val, len := if wide then 8 else 4, write := true }] }
/-- SWAIT (R63, R320). -/
def execSwait (cls : BitVec 2) (cmp : WaitCmp) (wide : Bool) (a kd : KReg) (s : State) : Out :=
  front s (.swait cls cmp wide a kd) fun p x =>
    passPlain s p x (.swait cls cmp wide a kd)
      { code := if 32 < kd.val + 3 then some 0x0811 else none
        pairs := [a.val], own := [{ base := kPair x.k a.val, len := if wide then 8 else 4, write := false }] }

/-! ### Fetch -/

/-- The first fault of a stream block (R47). -/
def Block.streamFault (b : Block) : Option Nat :=
  if b.count = 0 || 5 < b.count || b.bits / 16 % 2 = 0 || b.bits / 32 % 2048 ≠ 0 then some 0x0104
  else if b.bits / 65536 % 65536 ≠ crc16 b.body then some 0x0903
  else if (List.range b.count).any fun j => b.word j ≠ 0 && b.word j / 64 % 4 ≠ 3 then some 0x0106
  else none

/-- The OP and the class of a word at the front stage. -/
def wordClass (w : Nat) : Nat :=
  match streamDecode (BitVec.ofNat 96 w) with
  | .ok i => i.taskClass
  | .error _ => 0

/-- The front stage as an agent of the caches and of the fault record (R101, R367). -/
def frontAgent (p : Nat) : Nat := frontCore + p

/-- The front stage lacks the block that it needs. -/
def Part.wantsBlock (x : Part) : Bool := !x.frontHeld && x.fblock.all fun b => b.addr != x.pc.blk

/-- STREAM_FETCH (R47). A fetch that fails reads no instruction: the record's OP is then open (log 2). -/
def streamFetch (s : State) (p : Nat) : State :=
  let x := s.part p
  if x.frontHeld then s
  else
    let s := s.asking (x.fetchSince.getD s.clock)
    let va := x.pc.blk.toNat
    match touch s p (frontAgent p) va { fetch := true, bytes := 64 } with
    | .error (f, s') =>
      { frontFault (xlRecord s' p (frontAgent p) 0 va f) p
          { code := f.code, pc := x.pc, op := freeNat s 8, cls := 0, addr := some va, block := false } with fresh := s.fresh + 1 }
    | .ok (s', o) =>
      match dataFailure s' p o.store o.addr with
      | some code =>
        { frontFault s' p { code, pc := x.pc, op := freeNat s 8, cls := 0, addr := some va, block := false } with fresh := s.fresh + 1 }
      | none =>
        let b : Block := { addr := x.pc.blk, bits := s'.load o.store o.addr 64 }
        match b.streamFault with
        | some code =>
          let w := b.word x.pc.slot
          frontFault s' p { code, pc := x.pc, op := w % 256, cls := wordClass w, addr := some va, block := true }
        | none =>
          s'.updPart p fun y =>
            let y := { y with fetchSince := none }
            if y.pc.slot < b.count then { y with fblock := some b } else { y with pc := ⟨nextBlock y.pc.blk, 0⟩, fblock := none }

def execStreamFetch (p : Nat) (s : State) : Out := .next (streamFetch s p)

end Sys2Proof.Machine
end

