-- ==== Sys2Proof/Machine/Front.lean ====
section
/-! DEFINITION. What the front stage of a partition does next (R46, R47, R67). -/

namespace Sys2Proof.Machine

/-- The front stage's next act: a fetch, a slot past COUNT, a decode fault, or an instruction (R47, R67, R201). -/
def frontChoice (s : State) (p : Nat) : Choice :=
  let x := s.part p
  if x.frontHeld then .idle
  else match x.fblock with
    | none => .act (streamFetch s p)
    | some b =>
      if b.addr ≠ x.pc.blk then .act (streamFetch s p)
      else if b.count ≤ x.pc.slot then .act (s.setPart p (x.goTo ⟨nextBlock x.pc.blk, 0⟩))
      else
        let w := b.word x.pc.slot
        match streamDecode (BitVec.ofNat 96 w) with
        | .error code => .act (frontFault s p { code, pc := x.pc, op := w % 256, cls := wordClass w, addr := none, block := false })
        | .ok i => .issue { s with curPart := some p } i

end Sys2Proof.Machine
end

