-- ==== Sys2Proof/Machine/Hoist.lean ====
section
/-! DEFINITION. Hoist copies of teams and of tasks: issue, chunks, batches (05, 13, R111 to R115, R277 to R286, R315). -/

namespace Sys2Proof.Machine

/-! ### Ranges -/

/-- What stops an engine's access to a range. -/
structure CFail where
  code : Nat
  addr : Nat
  walk : Option XFail := none
  deriving DecidableEq, Repr

/-- n bytes of global memory from an address on, page by page; plain says that they are one load (R97, R99, R378). -/
def globalRead (s : State) (p core : Nat) (plain : Bool) : Nat → Nat → Nat → Except (CFail × State) (State × Nat)
  | 0, _, _ => .ok (s, 0)
  | f + 1, va, n =>
    if n = 0 then .ok (s, 0)
    else if 2 ^ 80 ≤ va then .error (⟨0x0304, va % 2 ^ 80, none⟩, s)
    else
      let m := pageRest va n
      match touch s p core va { read := true, plain, bytes := m } with
      | .error (x, s') => .error (⟨x.code, va, some x⟩, s')
      | .ok (s', o) => match rangeFailure s' p o.store o.addr m with
        | some f => .error (⟨f.1, failAddr va f, none⟩, s')
        | none => match globalRead s' p core plain f (va + m) (n - m) with
          | .error e => .error e
          | .ok (s'', v) => .ok (s'', s'.load o.store o.addr m + 2 ^ (8 * m) * v)

/-- A piece of a range whose port carries nothing of the partition (R376, R389); a posted write to host memory is lost without an
error (R370). -/
def pieceStopped (s : State) (p : Nat) (st : Store) (a n : Nat) : Bool :=
  st != .host && (portUnits st a n).any fun u => stopped s p st u.1

/-- A range that will be written can be written (R99, R389). -/
def globalCheck (s : State) (p core : Nat) (plain : Bool) : Nat → Nat → Nat → Except (CFail × State) State
  | 0, _, _ => .ok s
  | f + 1, va, n =>
    if n = 0 then .ok s
    else if 2 ^ 80 ≤ va then .error (⟨0x0304, va % 2 ^ 80, none⟩, s)
    else
      let m := pageRest va n
      match touch s p core va { write := true, plain, bytes := m } with
      | .error (x, s') => .error (⟨x.code, va, some x⟩, s')
      | .ok (s', o) =>
        if pieceStopped s' p o.store o.addr m then .error (⟨0x0A02, va, none⟩, s')
        else globalCheck s' p core plain f (va + m) (n - m)

/-- n bytes stored to global memory, page by page. -/
def globalWrite (s : State) (p core : Nat) (plain : Bool) : Nat → Nat → Nat → Nat → Except (CFail × State) State
  | 0, _, _, _ => .ok s
  | f + 1, va, n, v =>
    if n = 0 then .ok s
    else if 2 ^ 80 ≤ va then .error (⟨0x0304, va % 2 ^ 80, none⟩, s)
    else
      let m := pageRest va n
      match touch s p core va { write := true, plain, bytes := m } with
      | .error (x, s') => .error (⟨x.code, va, some x⟩, s')
      | .ok (s', o) =>
        if pieceStopped s' p o.store o.addr m then .error (⟨0x0A02, va, none⟩, s')
        else
          let s'' := if o.store = .host && stopped s' p o.store o.addr then s'
            else s'.splice core o.store o.addr m (Memory.cells o.addr m (v % 2 ^ (8 * m)))
          globalWrite s'' p core plain f (va + m) (n - m) (v / 2 ^ (8 * m))

/-- Pages that n bytes can touch. -/
def pagesOf (n : Nat) : Nat := n / 32768 + 2

/-- The bytes of a crew's window. -/
def windowBytes (s : State) (cid : Nat) : Nat :=
  match s.crews.get? cid with
  | some c => c.winBytes
  | none => 0

/-- n bytes at an offset of a copy's source (R111). -/
def readAt (s : State) (p core : Nat) (a : CAddr) (off n : Nat) : Except (CFail × State) (State × Nat) :=
  match a with
  | .g va => globalRead s p core false (pagesOf n) (va + off) n
  | .w cid x =>
    if windowBytes s cid < x + off + n then .error (⟨0x0301, x + off, none⟩, s)
    else if !s.poisonWin.isEmpty && rangePoisoned s (.window cid) (x + off) n then .error (⟨0x0902, x + off, none⟩, s)
    else .ok (s, (s.memOf (.window cid)).read (x + off) n)
  | .buf q b o => match rangeFailure s q (.buf q) (2 ^ 26 * b + o + off) n with
    | some f => .error (⟨f.1, failAddr (bufWindow + 2 ^ 26 * b + o + off) f, none⟩, s)
    | none => .ok (s, (s.memOf (.buf q)).read (2 ^ 26 * b + o + off) n)

/-- The destination of n bytes can be written. -/
def checkAt (s : State) (p core : Nat) (a : CAddr) (off n : Nat) : Except (CFail × State) State :=
  match a with
  | .g va => globalCheck s p core false (pagesOf n) (va + off) n
  | _ => .ok s

/-- n bytes stored at an offset of a copy's destination; lines of a window that are written whole are no longer poisoned (R378). -/
def writeAt (s : State) (p core : Nat) (a : CAddr) (off n v : Nat) : Except (CFail × State) State :=
  match a with
  | .g va => globalWrite s p core false (pagesOf n) (va + off) n v
  | .w cid x => .ok ((s.store (.window cid) (x + off) n v).clearPoison (.window cid) (x + off) n)
  | .buf q b o => .ok (s.splice core (.buf q) (2 ^ 26 * b + o + off) n (Memory.cells (2 ^ 26 * b + o + off) n v))

/-! ### Shapes of copies -/

/-- Bytes of the digits that SPLIT writes (R282). -/
def splitDigitBytes (cols : Bool) (slices k l : Nat) : Nat :=
  let g := (k + 15) / 16
  if cols then slices * (16 * g) * l else (l + 15) / 16 * slices * g * 256
/-- Bytes of its exponents (R282). -/
def splitExpBytes (cols : Bool) (l : Nat) : Nat := if cols then 2 * l else 2 * (16 * ((l + 15) / 16))

/-- Bytes that a copy writes (R280 to R284). -/
def CKind.total : CKind → Nat
  | .copy n => n
  | .plane fmt _ k m => planeBytes fmt k m
  | .split cols sl _ k l _ => splitDigitBytes cols sl k l + splitExpBytes cols l
  | .mask _ n => 32 * n
  | .gather size n _ => size * n
where
  planeBytes (f : AFmt) (k m : Nat) : Nat := (m + 15) / 16 * ((k + 15) / 16) * f.record

/-- Bytes by which the destination of a copy's byte o misses the start of an aligned word: where a chunk ends, no word is cut (R279; log
90). The digits and the exponents of SPLIT stand one after the other (log 114). -/
def Copy.skew (x : Copy) (o : Nat) : Nat :=
  match x.kind, x.dst with
  | .copy _, .g a | .copy _, .w _ a | .copy _, .buf _ _ a => a % 4
  | .split cols sl _ k l exps, _ => if splitDigitBytes cols sl k l < o then exps % 4 else 0
  | _, _ => 0

/-- The 4 KiB chunks of a copy (R111). -/
def Copy.chunks (x : Copy) : Nat := if x.kind.total = 0 then 0 else (x.kind.total + x.skew x.kind.total + 4095) / 4096
/-- The first byte of chunk j. -/
def Copy.chunkAt (x : Copy) (j : Nat) : Nat := 4096 * j - x.skew (4096 * j)
/-- Bytes of chunk j. -/
def Copy.chunkBytes (x : Copy) (j : Nat) : Nat := min (x.chunkAt (j + 1)) x.kind.total - x.chunkAt j

/-! ### The bytes of a chunk -/

/-- Source bytes read: offset, bytes, value. -/
abbrev Pieces := List (Nat × Nat × Nat)

def takePieces (s : State) (p core : Nat) (a : CAddr) : List (Nat × Nat) → Except (CFail × State) (State × Pieces)
  | [] => .ok (s, [])
  | (off, n) :: l => match readAt s p core a off n with
    | .error e => .error e
    | .ok (s', v) => match takePieces s' p core a l with
      | .error e => .error e
      | .ok (s'', ps) => .ok (s'', (off, n, v) :: ps)

/-- The failure at the lowest address among those of a chunk's pieces (Table 23.1). -/
def lowestFail (s : State) (p core : Nat) (a : CAddr) (l : List (Nat × Nat)) (f : CFail) : CFail :=
  l.foldl (fun f x => match readAt s p core a x.1 x.2 with
    | .error (g, _) => if g.addr < f.addr then g else f
    | .ok _ => f) f

/-- The source bytes of a chunk; a failure is reported at the lowest address of the chunk that failed. -/
def readPieces (s : State) (p core : Nat) (a : CAddr) (l : List (Nat × Nat)) : Except (CFail × State) (State × Pieces) :=
  match takePieces s p core a l with
  | .error (f, s') => .error (lowestFail s p core a l f, s')
  | .ok r => .ok r

/-- Bits of the source: w bits at bit b of the byte at off. -/
def Pieces.bits (ps : Pieces) (off b w : Nat) : Nat :=
  match ps.find? fun x => x.1 ≤ off && 8 * off + b + w ≤ 8 * (x.1 + x.2.1) with
  | some x => x.2.2 / 2 ^ (8 * (off - x.1) + b) % 2 ^ w
  | none => 0

/-- Consecutive units of u bytes that bytes lo to hi - 1 touch, as a number from lo on. -/
def unitBytes (u lo n : Nat) (f : Nat → Nat) : Nat :=
  let q0 := lo / u
  let q1 := (lo + n + u - 1) / u
  ((List.range (q1 - q0)).map fun j => f (q0 + j) % 2 ^ (8 * u) * 2 ^ (8 * u * j)).sum / 2 ^ (8 * (lo - u * q0)) % 2 ^ (8 * n)

/-- Source ranges of the plane records q0 to q1 - 1 (R281). -/
def planePieces (f : AFmt) (stride k m q0 q1 : Nat) : List (Nat × Nat) :=
  let g := (k + 15) / 16
  (List.range (q1 - q0)).flatMap fun j =>
    let q := q0 + j
    ((List.range 16).map fun i => 16 * (q / g) + i).filterMap fun r =>
      if r < m then some (r * stride + 2 * f.bits * (q % g), (min 16 (k - 16 * (q % g)) * f.bits + 7) / 8) else none

/-- Plane record q of a copy (R80, R281). The elements past the operand are bits 0, which i1 reads as +1 (log 132). -/
def planeAt (f : AFmt) (stride k m : Nat) (ps : Pieces) (q : Nat) : Nat :=
  let g := (k + 15) / 16
  planeRecord f fun i e =>
    let r := 16 * (q / g) + i
    let c := 16 * (q % g) + e
    if r < m && c < k then ps.bits (r * stride + 2 * f.bits * (q % g) + e * f.bits / 8) (e * f.bits % 8) f.bits else 0

/-- Source ranges of SPLIT: every row (R282). -/
def splitPieces (cols : Bool) (stride k l : Nat) : List (Nat × Nat) :=
  (List.range (if cols then k else l)).map fun r => (8 * stride * r, 8 * (if cols then l else k))

/-- Element e of line r of SPLIT: row r for side 0, column r for side 1. -/
def splitElem (cols : Bool) (stride : Nat) (ps : Pieces) (r e : Nat) : FVal :=
  FFmt.f64.val (if cols then ps.bits (8 * (stride * e + r)) 0 64 else ps.bits (8 * (stride * r + e)) 0 64)

/-- The exponent of a line, as stored; none marks a NaN or an infinity (R87, R282). -/
def splitLineExp (cols : Bool) (stride k : Nat) (ps : Pieces) (r : Nat) : Option Int :=
  let l := (List.range k).map fun e => splitElem cols stride ps r e
  if l.any fun v => match v with
      | .fin _ _ _ => false
      | _ => true
  then none else some (sliceExp l)

/-- Digit t (from 1) of an element of a line (R87, R282). -/
def splitDigit (cols : Bool) (sl stride k l : Nat) (ps : Pieces) (t r e : Nat) : Nat :=
  if r < l && e < k then
    match splitLineExp cols stride k ps r with
    | none => 0
    | some x => (((digitsOf sl x (splitElem cols stride ps r e))[t - 1]?.getD 0) % 256).toNat
  else 0

/-- Unit q of SPLIT's digits: a plane record of 256 bytes, or a byte of a column matrix (R282). -/
def splitUnit (cols : Bool) (sl stride k l : Nat) (ps : Pieces) (q : Nat) : Nat :=
  let g := (k + 15) / 16
  if cols then
    let per := 16 * g * l
    splitDigit cols sl stride k l ps (q / per + 1) (q % l) (q % per / l)
  else
    let b := q / (sl * g)
    let t := q / g % sl + 1
    planeRecord .i8 fun i e => splitDigit cols sl stride k l ps t (16 * b + i) (16 * (q % g) + e)

/-- The stored exponent of a line (R282). -/
def splitExpWord (cols : Bool) (stride k l : Nat) (ps : Pieces) (r : Nat) : Nat :=
  if r < l then
    match splitLineExp cols stride k ps r with
    | none => badExp
    | some x => (x % 65536).toNat
  else 0

/-- Source ranges of elements j0 to j1 - 1 of GATHER, from its indices (R284). -/
def gatherPieces (m : Memory) (index size j0 j1 : Nat) : List (Nat × Nat) :=
  (List.range (j1 - j0)).filterMap fun j =>
    let x := m.read (index + 4 * (j0 + j)) 4
    if x = 0xFFFFFFFF then none else some (x * size, size)

/-- A chunk as read: its bytes, the source bytes counted off OUTBOUND (R113), and what later chunks need of them. -/
structure ChunkData where
  val : Nat
  counted : Nat
  held : Pieces := []
  deriving DecidableEq, Repr

/-- The bytes of listed pieces. -/
def pieceSum (l : List (Nat × Nat)) : Nat := (l.map (·.2)).sum

/-- The crew whose window holds a copy's index list. -/
def CAddr.cid : CAddr → Nat
  | .w c _ => c
  | _ => 0

/-- The first plane record that a chunk from a byte on reads itself. A record that an earlier chunk began stands in what that chunk held;
the first chunk of a COPYT that goes on reads it again. -/
def Copy.firstRecord (x : Copy) (record lo : Nat) : Nat := if x.held.isEmpty then lo / record else (lo + record - 1) / record

/-- The source bytes that chunk j of a copy reads: offset, bytes. -/
def chunkPieces (s : State) (x : Copy) (j : Nat) : List (Nat × Nat) :=
  let lo := x.chunkAt j
  let n := x.chunkBytes j
  match x.kind with
  | .copy _ | .mask _ _ => [(lo, n)]
  | .plane f stride k m => planePieces f stride k m (x.firstRecord f.record lo) ((lo + n + f.record - 1) / f.record)
  | .split cols _ stride k l _ => if j = 0 then splitPieces cols stride k l else []
  | .gather size _ index => gatherPieces (s.memOf (.window x.dst.cid)) index size (lo / size) ((lo + n) / size)

/-- Chunk j of a copy, read by a Hoist. No source byte is read twice: SPLIT reads its whole source with its first chunk, PLANE the
source of a record with the chunk in which the record begins, and what they have read is held for the chunks that follow (R113, R279;
log 17). -/
def readChunk (s : State) (x : Copy) (core j : Nat) : Except (CFail × State) (State × ChunkData) :=
  let lo := x.chunkAt j
  let n := x.chunkBytes j
  match x.kind with
  | .copy _ => (readAt s x.part core x.src lo n).map fun r => (r.1, { val := r.2, counted := n })
  | .mask _ _ => (readAt s x.part core x.src lo n).map fun r => (r.1, { val := r.2, counted := n })
  | .plane f stride k m =>
    let first := x.firstRecord f.record lo
    let q0 := lo / f.record
    let q1 := (lo + n + f.record - 1) / f.record
    let new := chunkPieces s x j
    (readPieces s x.part core x.src new).map fun r =>
      let ps := x.held ++ r.2
      (r.1, { val := unitBytes f.record lo n fun q => planeAt f stride k m (if q < first then x.held else r.2) q
              counted := pieceSum new
              held := if (lo + n) % f.record = 0 then []
                else if q0 + 1 = q1 then ps
                else r.2.drop (planePieces f stride k m first (q1 - 1)).length })
  | .split cols sl stride k l _ =>
    let ds := splitDigitBytes cols sl k l
    let new := chunkPieces s x j
    (readPieces s x.part core x.src new).map fun r =>
      let ps := if j = 0 then r.2 else x.held
      let a := min n (ds - lo)
      let digits := unitBytes (if cols then 1 else 256) lo a (splitUnit cols sl stride k l ps)
      let exps := unitBytes 2 (lo + a - ds) (n - a) (splitExpWord cols stride k l ps)
      (r.1, { val := digits + 2 ^ (8 * a) * exps, counted := pieceSum new, held := ps })
  | .gather size _ index =>
    let cid := x.dst.cid
    if !s.poisonWin.isEmpty && rangePoisoned s (.window cid) (index + 4 * (lo / size)) (4 * (n / size)) then
      .error (⟨0x0902, index, none⟩, s)
    else
      let m := s.memOf (.window cid)
      let ps := chunkPieces s x j
      (readPieces s x.part core x.src ps).map fun r =>
        (r.1, { val := unitBytes size lo n fun q =>
                  let e := m.read (index + 4 * q) 4
                  if e = 0xFFFFFFFF then 0 else r.2.bits (e * size) 0 (8 * size)
                counted := pieceSum ps })

/-- Where a chunk lands: destination, offset, first byte of the chunk, bytes (R282; log 114). -/
def chunkSpans (x : Copy) (j : Nat) : List (CAddr × Nat × Nat × Nat) :=
  let lo := x.chunkAt j
  let n := x.chunkBytes j
  match x.kind with
  | .split cols sl _ k l exps =>
    let ds := splitDigitBytes cols sl k l
    let a := min n (ds - lo)
    [(x.dst, lo, 0, a), (.w x.dst.cid exps, lo + a - ds, a, n - a)]
  | .mask _ _ => []
  | _ => [(x.dst, lo, 0, n)]

def checkSpans (s : State) (p core : Nat) : List (CAddr × Nat × Nat × Nat) → Except (CFail × State) State
  | [] => .ok s
  | (a, off, _, n) :: l => match checkAt s p core a off n with
    | .error e => .error e
    | .ok s' => checkSpans s' p core l

def writeSpans (s : State) (p core v : Nat) : List (CAddr × Nat × Nat × Nat) → Except (CFail × State) State
  | [] => .ok s
  | (a, off, b, n) :: l => match writeAt s p core a off n (v / 2 ^ (8 * b) % 2 ^ (8 * n)) with
    | .error e => .error e
    | .ok s' => writeSpans s' p core v l

/-! ### Barriers -/

/-- A change of the barrier object at a window address, as one step (R132). -/
def setBar (s : State) (cid a : Nat) (b : Bar) : State :=
  s.updCrew cid fun c => { c with window := c.window.write a 16 b.toNat }

def updBar (s : State) (cid a : Nat) (f : Bar → Bar) : State :=
  match s.crews.get? cid with
  | some c => setBar s cid a (f (Bar.ofNat (c.window.read a 16)))
  | none => s

/-- The crew of a team's copy. -/
def COwner.crew (s : State) : COwner → Nat
  | .team tid _ _ => match s.teams.get? tid with
    | some t => t.cid
    | none => 0
  | .task _ _ => 0

/-! ### Chunks -/

def State.updCopy (s : State) (age : Nat) (f : Copy → Copy) : State :=
  match s.copies.get? age with
  | some x => { s with copies := s.copies.set age (f x) }
  | none => s

/-- Chunks a Hoist has in flight (R279). -/
def inFlight (s : State) (core : Nat) : Nat :=
  (s.copies.map fun (e : Nat × Copy) => (e.2.flightCore.filter fun (f : Nat × Nat) => f.2 == core).length).sum

/-- The lowest chunk that has not completed (R315). -/
def Copy.offset (x : Copy) : Nat := min (x.chunkAt (x.flight.keys.foldl min x.started)) x.kind.total

/-- The engines of a partition run: it is neither halted nor being halted (R41, R67). -/
def runs (s : State) (p : Nat) : Bool := (s.part p).twState == .running && !(s.part p).haltReq

/-- A copy's owner still wants it, and nobody has stopped it (R41, R335, R354). -/
def ownerRuns (s : State) (x : Copy) : Bool :=
  runs s x.part && match x.owner with
  | .task p seq => match s.entryOf p seq with
    | some e => !e.status.isFaulted
    | none => false
  | .team tid _ _ => match s.teams.get? tid with
    | some t => !t.stopped && t.lost.isNone && !t.cut && (match s.crews.get? t.cid with
      | some c => c.placed && (wanted s c || t.entries.isEmpty)
      | none => false)
    | none => false

/-- A task's chunks go to the free Hoist of the lowest logical core (R315). -/
def servesTasks (s : State) (p core : Nat) : Bool :=
  (s.part p).hasCore core && coreFree core && (List.range core).all fun c => !(s.part p).hasCore c || !coreFree c
where
  coreFree (c : Nat) : Bool := inFlight s c < 8 && (s.coreStatOf c).state == 0

/-- The physical queue that a MASK copy fills: its crew's, on the core of its Hoist (R115). -/
def maskQueue (s : State) (x : Copy) (q : Nat) : Nat :=
  let core := x.core.getD 0
  8 * core + match s.crews.get? (x.owner.crew s) with
    | some c => ((c.queueMap.getD core [])[q]?).getD 0
    | none => 0

/-- A copy whose next chunk a Hoist can start (R279). -/
def startable (s : State) (core : Nat) (x : Copy) : Bool :=
  x.fault.isNone && x.started < x.chunks && ownerRuns s x &&
  (match x.core with
    | some c => c == core
    | none => servesTasks s x.part core) &&
  match x.kind with
  | .mask q _ => (s.mqs.getD (maskQueue s x q) []).length < 32
  | _ => true

/-- A copy that has nothing in flight any more: a task learns of its end or its fault (R114, R315, R337). -/
def settleCopy (s : State) (age : Nat) : State :=
  match s.copies.get? age with
  | none => s
  | some x =>
    if !x.flight.isEmpty then s
    else match x.fault, x.owner with
      | some f, .task p seq =>
        let s := { s with copies := s.copies.erase age }
        let s := s.updEntry p seq fun e => { e with progress := x.offset }
        taskFault s p seq { code := f.code, engine := 3, core := f.core, addr := some f.addr }
      | some _, .team _ _ _ => s
      | none, _ => if x.started = x.chunks then { s with copies := s.copies.erase age } else s

/-- A chunk of a team's copy meets an uncorrectable line: of its crew's window, or of memory (Table 24.1). -/
def chunkLost (s : State) (tid core : Nat) (x : Copy) (f : CFail) : State :=
  let lo := x.chunkAt x.started
  let n := x.chunkBytes x.started
  match x.src with
  | .w cid a => loseTeam s tid (lostIn s cid ((chunkPieces s x x.started).map fun r => (a + r.1, r.2)))
  | _ => match f.walk with
    | none => (match x.kind with
      | .gather size _ index =>
        if f.addr = index then loseTeam s tid (lostIn s x.dst.cid [(index + 4 * (lo / size), 4 * (n / size))])
        else lineLost s tid 3 core f.addr
      | _ => lineLost s tid 3 core f.addr)
    | some _ => s.onTeam tid fun _ c => launchFault s c core 0x0902 (some f.addr) 3 0

/-- A chunk fails: the copy starts no further chunk (R114). -/
def failChunk (s : State) (age core : Nat) (f : CFail) : State :=
  match s.copies.get? age with
  | none => s
  | some x =>
    let s := match f.walk with
      | some w => xlRecord s x.part core 4 f.addr w
      | none => s
    match x.owner with
    | .team tid _ _ =>
      if f.code = 0x0902 then chunkLost s tid core x f
      else settleCopy (s.updCopy age fun x => { x with fault := some (x.fault.getD { code := f.code, addr := f.addr, core }) }) age
    | .task _ _ =>
      settleCopy (s.updCopy age fun x => { x with fault := some (x.fault.getD { code := f.code, addr := f.addr, core }) }) age

/-- HOIST_CHUNK_START: the oldest copy that can start one (R111, R279). -/
def chunkStart (s : State) (core : Nat) : State :=
  if 8 ≤ inFlight s core then s
  else match s.copies.find? fun e => startable s core e.2 with
    | none => s
    | some (age, x) =>
      let j := x.started
      let s := s.asking x.since
      match readChunk s x core j with
      | .error (f, s') => failChunk s' age core f
      | .ok (s', d) => match checkSpans s' x.part core (chunkSpans x j) with
        | .error (f, s'') => failChunk s'' age core f
        | .ok s'' =>
          let n := x.chunkBytes j
          let s := s''.updCopy age fun x => { x with
            started := j + 1, since := s.clock, held := d.held, flightCore := x.flightCore.set j core, flightAt := x.flightAt.set j s.clock
            flight := x.flight.set j ((List.range n).map (leByte d.val)) }
          match x.bar with
          | some (a, _, true) => updBar s (x.owner.crew s) a fun b => b.readOut d.counted
          | _ => s

def execHoistChunkStart (core : Nat) (s : State) : Out := .next (chunkStart s core)

/-- A chunk is out of flight, and counted off INBOUND (R113). -/
def chunkDone (s : State) (age j : Nat) (x : Copy) (n : Nat) : State :=
  let s := s.updCopy age fun x => { x with
    flight := x.flight.erase j, flightCore := x.flightCore.erase j, flightAt := x.flightAt.erase j
    matched := x.matched.filter fun k => k != j }
  let s := match x.bar with
    | some (a, true, _) => updBar s (x.owner.crew s) a fun b => b.land n
    | _ => s
  settleCopy s age

/-- The entries of a MASK chunk enter the queue while it has room, in order (R115, R283). -/
def maskLand (s : State) (age j key : Nat) (x : Copy) (bs : List Byte) : State :=
  if x.flight.keys.head? ≠ some j then s
  else
    let queue := s.mqs.getD key []
    let room := 32 - queue.length
    let all := bs.length / 32
    let n := min room all
    let new := (List.range n).map fun k => ofBytes ((bs.drop (32 * k)).take 32)
    let s := { s with mqs := s.mqs.set key (queue ++ new) }
    if n = all then chunkDone s age j x (x.chunkBytes j)
    else s.updCopy age fun x => { x with flight := x.flight.set j (bs.drop (32 * n)) }

/-- A chunk that a mirrored leader writes to global memory waits for its shadow's signature; one of MASK writes a queue (R384). -/
def chunkSigned (s : State) (x : Copy) (j : Nat) : Bool :=
  !x.matched.contains j && match x.kind, x.dst, x.owner with
  | .mask _ _, _, _ => false
  | _, .g _, .team tid _ _ => match (s.teams.get? tid).bind fun t => s.crews.get? t.cid with
    | some c => !c.shadow.isEmpty
    | none => false
  | _, _, _ => false

/-- What is in flight of a copy from chunk j on is not written. -/
def Copy.cutFrom (x : Copy) (j : Nat) : Copy :=
  { x with
    flight := x.flight.filter fun (e : Nat × List Byte) => e.1 < j, flightCore := x.flightCore.filter fun (e : Nat × Nat) => e.1 < j
    flightAt := x.flightAt.filter fun (e : Nat × Nat) => e.1 < j, started := j }

/-- HOIST_CHUNK_LAND (R111, R113, R279, R384). -/
def chunkLand (s : State) (age j : Nat) : State :=
  match s.copies.get? age with
  | none => s
  | some x => match x.flight.get? j with
    | none => s
    | some bs =>
      if chunkSigned s x j then s else
      let s := s.asking (x.flightAt.getD j s.clock)
      let core := x.flightCore.getD j 0
      match x.kind with
      | .mask q _ => maskLand s age j (maskQueue s x q) x bs
      | _ => match writeSpans s x.part core (ofBytes bs) (chunkSpans x j) with
        | .error (f, s') =>
          failChunk (s'.updCopy age fun x => x.cutFrom j) age core f
        | .ok s' => chunkDone s' age j x (x.chunkBytes j)

def execHoistChunkLand (age chunk : Nat) (s : State) : Out := .next (chunkLand s age chunk)

/-- A failed write of n bytes of global memory: each aligned 8-byte part of it was made or not (R370). -/
def partWritten (s : State) (p core va n v : Nat) : State :=
  let s' := (List.range (n / 8 + 2)).foldl (fun s' j =>
    let lo := max va (va / 8 * 8 + 8 * j)
    let hi := min (va + n) (va / 8 * 8 + 8 * j + 8)
    if hi ≤ lo || Config.freeBit s.fresh j then s'
    else match globalWrite s' p core false 2 lo (hi - lo) (v / 2 ^ (8 * (lo - va)) % 2 ^ (8 * (hi - lo))) with
      | .error (_, s'') => s''
      | .ok s'' => s'') s
  { s' with fresh := s'.fresh + 1 }

/-- The write of chunk j, which is in flight, fails at its port: later chunks are not written (R114, R370, R371). -/
def chunkWriteFail (s : State) (age j code : Nat) : State :=
  match s.copies.get? age with
  | none => s
  | some x => match x.dst, x.flight.get? j with
    | .g va, some bs =>
      let core := x.flightCore.getD j 0
      failChunk ((partWritten s x.part core (va + x.chunkAt j) bs.length (ofBytes bs)).updCopy age fun x => x.cutFrom j) age core
        ⟨code, va + x.chunkAt j, none⟩
    | _, _ => s

/-- The read of chunk j, which is in flight, fails at its port: later chunks are not written (R114, R371). -/
def chunkPortFail (s : State) (age j code : Nat) : State :=
  match s.copies.get? age with
  | none => s
  | some x =>
    if !x.flight.has j then s
    else
      let core := x.flightCore.getD j 0
      let low := match (chunkPieces s x j).map (·.1) with
        | [] => x.chunkAt j
        | o :: l => l.foldl min o
      failChunk (s.updCopy age fun x => x.cutFrom j) age core
        ⟨code, match x.src with
          | .g va => va + low
          | .w _ a => a + low
          | .buf _ b o => bufWindow + 2 ^ 26 * b + o + low, none⟩

/-! ### HCOPY -/

/-- The first trap of an ordered list of checks. -/
def firstTrap : List (Bool × Trap) → Option Trap
  | [] => none
  | (ok, t) :: l => if ok then firstTrap l else some t

/-- A .g pair with VA high bits (R94). -/
def pairOk (x : Ctx) (sp : Space) (r : SReg) : Bool := sp != .g || (x.t.pair? r.val).isSome

/-- The address that a register names in a space, before conversion. -/
def named (x : Ctx) (sp : Space) (r : SReg) : Nat := (x.t.base? sp r).getD 0

/-- An address as the Hoist uses it: .l becomes .w (R277). -/
def hoistAddr (x : Ctx) (sp : Space) (a : Nat) : CAddr :=
  match sp with
  | .g => .g a
  | .w => .w x.t.cid a
  | .l => .w x.t.cid ((x.crew.seg x.core).1 + a)

/-- n bytes at an address lie in the window, or in the segment (R278). -/
def rangeOk (x : Ctx) (sp : Space) (a n : Nat) : Bool :=
  match sp with
  | .g => true
  | .w => n = 0 || a + n ≤ x.crew.winBytes
  | .l => n = 0 || a + n ≤ (x.crew.seg x.core).2

/-- The barrier that an HCOPY names (R278, R287). -/
def barTrap (x : Ctx) : Option BarRef → Option Trap
  | none => none
  | some b => match barAddr x b.bar with
    | .error t => some t
    | .ok _ => none

def barOf (x : Ctx) : Option BarRef → Option (Nat × Bool × Bool)
  | none => none
  | some b => match barAddr x b.bar with
    | .error _ => none
    | .ok a => some (a, b.inbound, b.outbound)

/-- A copy reaches the Hoist of the team's core, and joins the open batch; one of no bytes is complete at once (R112, R278, R280). -/
def issueCopy (s : State) (x : Ctx) (src dst : CAddr) (kind : CKind) (bar : Option (Nat × Bool × Bool)) : State :=
  let s := s.updTeam x.tid fun t => { t with copyNo := t.copyNo + 1 }
  if kind.total = 0 then s
  else { s with
    nextAge := s.nextAge + 1
    copies := s.copies.set s.nextAge
      { owner := .team x.tid (x.t.sealed + 1) (x.t.copyNo + 1), core := some x.core, part := x.part, src, dst, kind, bar, pc := x.e.pc
        since := s.clock } }

/-- The common course of HCOPY: checks in order, then the issue (R278). -/
def hcopy (s : State) (x : Ctx) (i : Instr) (checks : List (Bool × Trap)) (src dst : CAddr) (kind : CKind) (bar : Option BarRef) :
    State :=
  onceFor s x <|
    match firstTrap checks with
    | some t => raise s x i t
    | none => match barTrap x bar with
      | some t => raise s x i t
      | none => after (issueCopy s x src dst kind (barOf x bar)) x

/-- Bits of a scalar register. -/
def sBits (x : Ctx) (r : SReg) (lo n : Nat) : Nat := (x.t.s r.val).toNat / 2 ^ lo % 2 ^ n

def highBits (x : Ctx) (ds ss : Space) (dst src : SReg) : List (Bool × Trap) :=
  [(pairOk x ds dst, { code := 0x0304 }), (pairOk x ss src, { code := 0x0304 })]
def aligned (a n : Nat) : Bool × Trap := (a % n == 0, { code := 0x0303, addr := some a })
def inRange (x : Ctx) (sp : Space) (a n : Nat) : Bool × Trap := (rangeOk x sp a n, { code := 0x0301, addr := some a })

/-- HCOPY.COPY (R280). -/
def execHcopyCopy (c : Ctl) (ds ss : Space) (dst src cnt : SReg) (bar : Option BarRef) (s : State) : Out :=
  core s (.hcopyCopy c ds ss dst src cnt bar) fun x =>
    let n := sBits x cnt 0 32
    let d := named x ds dst
    let a := named x ss src
    hcopy s x (.hcopyCopy c ds ss dst src cnt bar)
      (highBits x ds ss dst src ++ [inRange x ds d n, inRange x ss a n]) (hoistAddr x ss a) (hoistAddr x ds d) (.copy n) bar

/-- HCOPY.PLANE (R281). -/
def execHcopyPlane (c : Ctl) (ds ss : Space) (dst src cnt : SReg) (bar : Option BarRef) (fmt : AFmt) (stride : BitVec 18) (s : State) :
    Out :=
  core s (.hcopyPlane c ds ss dst src cnt bar fmt stride) fun x =>
    let k := sBits x cnt 0 32
    let m := sBits x cnt 32 16
    let d := named x ds dst
    let a := named x ss src
    let row := (k * fmt.bits + 7) / 8
    hcopy s x (.hcopyPlane c ds ss dst src cnt bar fmt stride)
      ([(decide (1 ≤ stride.toNat ∧ row ≤ stride.toNat ∧ 1 ≤ k ∧ k ≤ 2 ^ 19 ∧ 1 ≤ m), { code := 0x0102 })] ++ highBits x ds ss dst src ++
        [aligned d 32, inRange x ds d (CKind.total.planeBytes fmt k m), inRange x ss a ((m - 1) * stride.toNat + row)])
      (hoistAddr x ss a) (hoistAddr x ds d) (.plane fmt stride.toNat k m) bar

/-- HCOPY.SPLIT (R282): both destinations are window addresses. -/
def execHcopySplit (c : Ctl) (ds ss : Space) (dst src cnt : SReg) (bar : Option BarRef) (side : Bool) (slices : BitVec 4)
    (stride : BitVec 16) (s : State) : Out :=
  core s (.hcopySplit c ds ss dst src cnt bar side slices stride) fun x =>
    let k := sBits x cnt 0 32
    let l := sBits x cnt 32 16
    let d := sBits x dst 0 32
    let e := sBits x dst 32 32
    let a := named x ss src
    let sl := slices.toNat
    let row := if side then l else k
    let exps := match hoistAddr x ds e with
      | .w _ y => y
      | _ => e
    hcopy s x (.hcopySplit c ds ss dst src cnt bar side slices stride)
      ([(decide (1 ≤ sl ∧ sl ≤ 9 ∧ 1 ≤ stride.toNat ∧ row ≤ stride.toNat ∧ 1 ≤ k ∧ k ≤ 2 ^ 19 ∧ 1 ≤ l), { code := 0x0102 }),
        (pairOk x ss src, { code := 0x0304 }), aligned d 32, aligned e 2, aligned a 8,
        inRange x ds d (splitDigitBytes side sl k l), inRange x ds e (splitExpBytes side l),
        inRange x ss a (8 * (((if side then k else l) - 1) * stride.toNat + row))])
      (hoistAddr x ss a) (hoistAddr x ds d) (.split side sl stride.toNat k l exps) bar

/-- HCOPY.MASK (R115, R283). -/
def execHcopyMask (c : Ctl) (ss : Space) (q : QReg) (src cnt : SReg) (bar : Option BarRef) (s : State) : Out :=
  core s (.hcopyMask c ss q src cnt bar) fun x =>
    let n := sBits x cnt 0 32
    let a := named x ss src
    hcopy s x (.hcopyMask c ss q src cnt bar)
      [(pairOk x ss src, { code := 0x0304 }), aligned a 32, inRange x ss a (32 * n), ((queueOf x q).isSome, { code := 0x0602 })]
      (hoistAddr x ss a) (hoistAddr x ss a) (.mask q.val n) bar

/-- HCOPY.GATHER (R284). -/
def execHcopyGather (c : Ctl) (ds ss : Space) (dst src cnt : SReg) (bar : Option BarRef) (size : BitVec 2) (s : State) : Out :=
  core s (.hcopyGather c ds ss dst src cnt bar size) fun x =>
    let n := sBits x cnt 0 32
    let index := sBits x cnt 32 32
    let d := named x ds dst
    let a := named x ss src
    let z := 4 * 2 ^ size.toNat
    hcopy s x (.hcopyGather c ds ss dst src cnt bar size)
      ([(pairOk x ss src, { code := 0x0304 }), aligned d z, aligned a z, aligned index 4, inRange x ds d (z * n), inRange x .w index (4 * n)])
      (hoistAddr x ss a) (hoistAddr x ds d) (.gather z n index) bar

/-! ### Batches -/

/-- BSEAL (R112, R285). -/
def execBseal (c : Ctl) (d : SReg) (s : State) : Out :=
  core s (.bseal c d) fun x =>
    onceFor s x <|
      if 2 ^ 32 ≤ x.t.sealed + 1 then raise s x (.bseal c d) { code := 0x0502 }
      else done s x ({ x.t with sealed := x.t.sealed + 1 }.setS d.val (BitVec.ofNat 64 (x.t.sealed + 1)))

/-- A faulted operation of a batch: batch, issue number, its key, whether it is a copy, and the fault. -/
structure Faulty where
  batch : Nat
  no : Nat
  key : Nat
  copy : Bool
  fault : CFault
  deriving DecidableEq, Repr

def Faulty.before (a b : Faulty) : Bool := a.batch < b.batch || (a.batch == b.batch && a.no < b.no)

/-- The faulted copies of a team up to a batch (R114, R286, R292). -/
def faultyOf (s : State) (tid last : Nat) : List Faulty :=
  (s.copies.filterMap fun e => match e.2.owner, e.2.fault with
    | .team t b n, some f => if t = tid && b ≤ last then some ⟨b, n, e.1, true, f⟩ else none
    | _, _ => none) ++
  (s.spin.filterMap fun e => match e.2.fault with
    | some f => if e.2.tid = some tid && e.2.batch ≤ last then some ⟨e.2.batch, e.2.no, e.1, false, f⟩ else none
    | none => none)

/-- The one to be reported: the lowest batch, then the first issued (R286). -/
def firstFaulty : List Faulty → Option Faulty
  | [] => none
  | f :: l => match firstFaulty l with
    | none => some f
    | some g => if g.before f then some g else some f

/-- A reported copy is complete (R286). -/
def dropFaulty (s : State) (f : Faulty) : State :=
  if f.copy then { s with copies := s.copies.erase f.key } else { s with spin := s.spin.erase f.key }

/-- BWAIT, once its batches are complete (R112, R286). -/
def execBwait (c : Ctl) (b : SB) (s : State) : Out :=
  core s (.bwait c b) fun x =>
    onceFor s x <|
      match firstFaulty (faultyOf s x.tid (bwaitLast x.t b)) with
      | some f => raise (dropFaulty s f) x (.bwait c b) { code := f.fault.code, addr := some f.fault.addr }
      | none => done (s.stale x.core) x (x.t.sees s.clock)

end Sys2Proof.Machine
end

