-- ==== Sys2Proof/Machine/Nred.lean ====
section
/-! DEFINITION. Reductions in the routers (14, 17, 23, R299 to R301, R316, R326, R327, R374, R375). -/

namespace Sys2Proof

/-- Bit of a port in CHILDREN, and its code in PARENT (R186). -/
def Port.code : Port → Nat
  | .west => 0
  | .north => 1
  | .east => 2
  | .south => 3
def Port.all : List Port := [.west, .north, .east, .south]
def Port.opposite : Port → Port
  | .west => .east
  | .north => .south
  | .east => .west
  | .south => .north

end Sys2Proof

namespace Sys2Proof.Machine

/-- The core that a port faces (R326). -/
def neighbour (core : Nat) (p : Port) : Option Nat :=
  match p with
  | .west => if core % 16 = 0 then none else some (core - 1)
  | .east => if core % 16 = 15 then none else some (core + 1)
  | .north => if core < 16 then none else some (core - 16)
  | .south => if 112 ≤ core then none else some (core + 16)

/-- An edge port that carries a link assigned to the partition (R168, R326). -/
def carriesLink (s : State) (p core : Nat) (port : Port) : Bool :=
  ((port == .west && core % 16 == 0) || (port == .east && core % 16 == 15)) &&
  match Config.edgeLink core with
  | some l => match s.linkcfg.get? l with
    | some c => c.en && c.part.toNat == p
    | none => false
  | none => false

/-- The link of an edge core is up (R376). -/
def edgeUp (s : State) (core : Nat) : Bool := (Config.edgeLink core).any fun l => (s.portStat (13 + l)).state != 2

def childBit (b : Nat) (port : Port) : Bool := b / 2 ^ port.code % 2 == 1
/-- The port of PARENT; none at the root. -/
def parentPort (b : Nat) : Option Port := Port.all.find? fun x => x.code == b / 16 % 8

/-- The conditions of one byte of a tree descriptor (R316). -/
def treeByteOk (s : State) (p : Nat) (desc : List Byte) (core : Nat) : Bool :=
  let at_ := fun (n : Nat) => ((desc[n]?).map BitVec.toNat).getD 0
  let b := at_ core
  if b / 128 % 2 = 0 then b == 0
  else
    (s.part p).hasCore core &&
    (b / 16 % 8 == 4 || match parentPort b with
      | none => false
      | some port => match neighbour core port with
        | some n => at_ n / 128 % 2 == 1 && childBit (at_ n) port.opposite
        | none => carriesLink s p core port) &&
    Port.all.all fun port => !childBit b port || match neighbour core port with
      | some n => at_ n / 128 % 2 == 1 && at_ n / 16 % 8 == port.opposite.code
      | none => carriesLink s p core port

/-- The conditions of a tree descriptor (R316). -/
def treeOk (s : State) (p : Nat) (desc : List Byte) : Bool :=
  (desc.filter fun b => b.toNat / 128 % 2 == 1 && b.toNat / 16 % 8 == 4).length == 1 &&
  (List.range 128).all (treeByteOk s p desc)

/-! ### Routers -/

def State.setRouter (s : State) (p t core : Nat) (r : Router) : State :=
  s.updPart p fun x => { x with routers := x.routers.set (128 * t + core) r }

/-- Words of a flit. -/
def flitWords (m : Memory) (a : Nat) : List Word := (List.range 32).map fun j => BitVec.ofNat 32 (m.read (a + 4 * j) 4)

/-- A router's round number (R374). -/
def Router.round (r : Router) : BitVec 8 := BitVec.ofNat 8 r.count

/-- The round of a router that a number names: the nearest one (log 94). -/
def Router.named (r : Router) (n : BitVec 8) : Nat :=
  let d := (n - r.round).toNat
  if d < 128 then r.count + d else r.count + d - 256

/-- The flit as the router reads it: a word stored since the push may or may not be read, until the push's wait returns (R327). -/
def readFlit (s : State) (f : Flit) : List Word :=
  match s.crews.get? f.cid with
  | none => f.vals
  | some c =>
    if f.frozen || rangePoisoned s (.window f.cid) f.addr 128 then f.vals
    else ((f.vals.zip (flitWords c.window f.addr)).zipIdx).map fun x =>
      if x.1.1 != x.1.2 && Config.freeBit s.fresh x.2 then x.1.2 else x.1.1

/-- The end of a clock: of the words stored in it, a router may have read each one or not (R327). A team stores at most once in a clock,
so every value that it stores meets one such end. -/
def sampleFlits (s : State) : State :=
  s.parts.foldl (fun s (e : Nat × Part) => e.2.routers.foldl (fun s (x : Nat × Router) => match x.2.flit with
    | none => s
    | some f =>
      { s.setRouter e.1 (x.1 / 128) (x.1 % 128) { x.2 with flit := some { f with vals := readFlit s f } } with fresh := s.fresh + 1 }) s) s

def foldWords (a b : List Word) : List Word :=
  (a.zip b).map fun x => BitVec.ofNat 32 (FFmt.f32.round .rne ((FFmt.f32.val x.1.toNat).add .rne (FFmt.f32.val x.2.toNat)))

/-- Of two reports, the one of the lower core (R374). -/
def lowestReport : Option Report → Option Report → Option Report
  | none, r => r
  | r, none => r
  | some a, some b => if b.core < a.core then some b else some a

/-- The result goes down the tree to every member below a core (R300). -/
def sendDown (p t : Nat) (x : Partial) : Nat → Nat → State → State
  | 0, _, s => s
  | n + 1, core, s =>
    let r := routerOf s p t core
    let s := s.setRouter p t core { r with results := r.results.set (r.named x.round) x }
    let b := (treeByte s p t core).getD 0
    Port.all.foldl (fun s port => if childBit b port then (match neighbour core port with
      | some c => sendDown p t x n c s
      | none => s) else s) s

/-- The values that a router folds, local first: its flit's, where it has one, and those of the partials it accepted (R300, R387). -/
def foldInputs (s : State) (r : Router) : List (List Word) :=
  (r.flit.map (readFlit s)).toList ++ Port.all.filterMap fun port => (r.parts.get? port.code).map Partial.vals

/-- The router folds what it holds and sends it upward; report is its own (R300, R374). -/
def foldRouter (s : State) (p t core : Nat) (own : Option Report) : State :=
  let r := routerOf s p t core
  match foldInputs s r with
  | [] => s
  | v :: vs =>
    let kids := Port.all.filterMap fun port => r.parts.get? port.code
    let report := kids.foldl (fun acc (x : Partial) => lowestReport acc x.report) own
    let x : Partial := { round := r.round, vals := vs.foldl foldWords v, report }
    let root := isRoot s p t core
    let r' : Router := { r with
      count := r.count + 1, flit := none, parts := [], since := none
      sent := if root then r.sent else r.sent ++ [x]
      own := match own with
        | some y => r.own.set r.count y
        | none => r.own }
    let s := { s.setRouter p t core r' with fresh := s.fresh + 1 }
    if root then sendDown p t x 128 core s else s

/-- Children whose partial has not been accepted, as a mask of ports (R374). -/
def missingMask (s : State) (p t core : Nat) : Nat :=
  let r := routerOf s p t core
  (Port.all.map fun port => if childBit ((treeByte s p t core).getD 0) port && (r.parts.get? port.code).isNone then 2 ^ port.code else 0).sum

/-- The tree's root is a core that is lost to its partition: no flit comes from it, and its router completes every round without one
(R387; log 133). -/
def lostRoot (s : State) (p t core : Nat) : Bool := isRoot s p t core && (s.coreStatOf core).state == 2

/-- The router has its own flit, or stands for a lost root and has a partial to fold. -/
def canFold (s : State) (p t core : Nat) : Bool :=
  (routerOf s p t core).flit.isSome || (lostRoot s p t core && !(routerOf s p t core).parts.isEmpty)

/-- What a router that misses no child reports: nothing, unless a lost root's flit is missing (R374, R387; log 133). -/
def ownReport (s : State) (p t core : Nat) : Option Report :=
  if (routerOf s p t core).flit.isNone then some { core, missing := 0 } else none

/-- ROUTER_FOLD: the flit and every child's partial are present (R300). -/
def execRouterFold (p t core : Nat) (s : State) : Out :=
  .next (if isMember s p t core && missingMask s p t core = 0 && canFold s p t core then foldRouter s p t core (ownReport s p t core) else s)

/-- A router has waited NREDLIM × 256 cycles with its flit, or, at a lost root, with its first partial; it waits for no child any more
(R374, R387; log 133). -/
def overdue (s : State) (p t core : Nat) : Bool :=
  (match (routerOf s p t core).flit with
    | some f => some f.at_
    | none => if lostRoot s p t core then (routerOf s p t core).since else none).any fun at_ =>
    at_ + 256 * (s.part p).nredlim.toNat ≤ s.clock

/-- NRED_ROUTER_TIMEOUT: the children that are still missing are skipped (R374). -/
def execNredRouterTimeout (p t core : Nat) (s : State) : Out :=
  let m := missingMask s p t core
  .next (if isMember s p t core && m ≠ 0 && overdue s p t core then foldRouter s p t core (some { core, missing := m }) else s)

/-- A round number is behind another: of the two ways round the 256 numbers the shorter leads up to the other (log 94). -/
def behind (a b : BitVec 8) : Bool := a != b && (b - a).toNat < 128

/-- A router takes a child's partial: one of its own round is accepted while it waits, one behind it is discarded, and another is left
waiting (R374). -/
def takePartial (s : State) (p t core : Nat) (port : Port) (x : Partial) (pop : State → State) : State :=
  let r := routerOf s p t core
  if x.round = r.round then (if overdue s p t core then s else (pop s).updPart p fun y => { y with
    routers := y.routers.set (128 * t + core) { r with
      parts := r.parts.set port.code x
      since := if lostRoot s p t core then r.since.orElse (fun _ => some s.clock) else r.since } })
  else if behind x.round r.round then pop s
  else s

/-- What an Ethes peer sends: values, and whether they are marked PARTIAL (R168, R374; log 12). -/
def peerSends (s : State) (round : BitVec 8) : Partial :=
  { round
    vals := (List.range 32).map fun j => Config.peerPartial s.fresh j
    report := if Config.freeBit s.fresh 64 then
        some { core := ((List.range 7).map fun k => if Config.freeBit s.fresh (65 + k) then 2 ^ k else 0).sum
               missing := ((List.range 4).map fun k => if Config.freeBit s.fresh (72 + k) then 2 ^ k else 0).sum }
      else none }

/-- ROUTER_PARTIAL_ARRIVE at a port of a router: a child's oldest partial (R300, R374). At an edge port, what the peer sends:
the partial of a child, or the result of a parent, while its link is up (R168, R376). -/
def partialArrive (s : State) (p t core : Nat) (port : Port) : State :=
  let b := (treeByte s p t core).getD 0
  if !isMember s p t core then s
  else match neighbour core port with
    | some c =>
      let child := routerOf s p t c
      if childBit b port then (match child.sent with
        | [] => s
        | x :: xs => takePartial s p t core port x fun s => s.setRouter p t c { routerOf s p t c with sent := xs })
      else s
    | none =>
      if !carriesLink s p core port || !edgeUp s core then s
      else
        let s' := { s with fresh := s.fresh + 1 }
        let r := routerOf s p t core
        if childBit b port && r.parts.get? port.code = none then takePartial s' p t core port (peerSends s r.round) id
        else if parentPort b = some port then (match r.sent with
          | [] => s
          | x :: xs => sendDown p t (peerSends s x.round) 128 core (s'.setRouter p t core { r with sent := xs }))
        else s

def execRouterPartialArrive (p t core : Nat) (port : Port) (s : State) : Out := .next (partialArrive s p t core port)

/-! ### The team's forms -/

/-- NRED.PUSH (R299). -/
def execNredPush (c : Ctl) (a : SReg) (t : BitVec 4) (s : State) : Out :=
  core s (.nredPush c a t) fun x =>
    let n := sBits x a 0 32
    onceFor s x <| match firstTrap
        [aligned n 128, inRange x .w n 128, (isMember s x.part t.toNat x.core, { code := 0x0B02 })] with
      | some tr => raise s x (.nredPush c a t) tr
      | none => reporting s x (.nredPush c a t) <|
        if rangePoisoned s (.window x.t.cid) n 128 then loseTeam s x.tid (lostIn s x.t.cid [(n, 128)])
        else
          let r := routerOf s x.part t.toNat x.core
          let f : Flit := { cid := x.t.cid, addr := n, vals := flitWords x.crew.window n, at_ := s.clock }
          done (s.setRouter x.part t.toNat x.core { r with flit := some f }) x
            { x.t with pushes := x.t.pushes.set t.toNat { core := x.core, round := r.count } }

/-- ADDRLOW of NRED_TIMEOUT (R375). -/
def Report.low (r : Report) : Nat := r.core % 128 + 2 ^ 8 * (r.missing % 16) + 2 ^ 16

/-- What a time-out shows to a wait: the result's report where the wait writes it, else its own router's (R375). -/
def timedOut (s : State) (x : Ctx) (t : Nat) (y : Push) (writes : Bool) : Option Report :=
  if writes then (nredResult s x t y).bind Partial.report else (routerOf s x.part t y.core).own.get? y.round

/-- Once its wait has returned, a push's flit that its router still holds changes no more (R327). -/
def freezeFlit (s : State) (p t : Nat) (y : Push) : State :=
  let r := routerOf s p t y.core
  if r.count = y.round then s.setRouter p t y.core { r with flit := r.flit.map fun f => { f with frozen := true } } else s

/-- NRED.WAIT, once its push has ended (R301, R375, R378). The time-out is reported once, and the wait that is executed again after it
completes (R357). -/
def nredEnd (s : State) (x : Ctx) (i : Instr) (t n : Nat) (y : Push) (writes : Bool) : State :=
  let s := match (if writes then nredResult s x t y else none) with
    | some z => (s.updCrew x.t.cid fun c => { c with
        window := z.vals.zipIdx.foldl (fun (m : Memory) w => m.write (n + 4 * w.2) 4 w.1.toNat) c.window }).clearPoison
          (.window x.t.cid) n 128
    | none => s
  match (if y.told then none else timedOut s x t y writes) with
  | some r =>
    raise (s.updTeam x.tid fun u => { u with pushes := u.pushes.set t { y with told := true } }) x i
      { code := 0x0B01, addr := some r.low }
  | none => done (acquire (freezeFlit s x.part t y) x.core .part) x { x.t with pushes := x.t.pushes.erase t }

/-- NRED.WAIT (R301). -/
def execNredWait (c : Ctl) (a : SReg) (t : BitVec 4) (bcast : Bool) (s : State) : Out :=
  core s (.nredWait c a t bcast) fun x =>
    let n := sBits x a 0 32
    onceFor s x <| match x.t.pushes.get? t.toNat with
      | none => raise s x (.nredWait c a t bcast) { code := 0x0B02 }
      | some y => match firstTrap [aligned n 128, inRange x .w n 128] with
        | some tr => raise s x (.nredWait c a t bcast) tr
        | none => nredEnd s x (.nredWait c a t bcast) t.toNat n y (bcast || isRoot s x.part t.toNat y.core)

end Sys2Proof.Machine
end

