-- ==== Sys2Proof/Machine/SlotUnit.lean ====
section
/-! DEFINITION. The Slot Unit: the slot table at a place in the stream, and what each of its tasks computes and writes (07, R140 to R157, R318). -/

namespace Sys2Proof.Machine

/-! ### The table at a place in the stream -/

/-- Slots and open blocks. -/
structure SlotView where
  slots : FMap Slot
  blocks : FMap SlotBlock
  deriving DecidableEq, Repr

/-- No token, no end token, no proposal (R140, R143). -/
def noToken : Nat := 0xFFFFFF

def SlotView.slot (v : SlotView) (n : Nat) : Slot := v.slots.getD n {}
def SlotView.setSlot (v : SlotView) (n : Nat) (x : Slot) : SlotView := { v with slots := v.slots.set n x }

/-- The index of the slot that ended a block: the first of the leading final slots that holds E (R146). -/
def SlotView.endIndex (v : SlotView) (base : Nat) (b : SlotBlock) : Option Nat :=
  if b.endTok.toNat = noToken then none else go base b.endTok b.size 0
where
  go (base : Nat) (e : BitVec 24) : Nat → Nat → Option Nat
    | 0, _ => none
    | n + 1, i =>
      if (v.slot (base + i)).state != .final then none
      else if (v.slot (base + i)).token = e then some i
      else go base e n (i + 1)

/-- A slot beyond the end of an ENDED block (R146). -/
def SlotView.discarded (v : SlotView) (base : Nat) (b : SlotBlock) (i : Nat) : Bool :=
  b.ended && match v.endIndex base b with
    | some e => e < i
    | none => false

/-- Masked or tentative, in an open block that is not ENDED (R141). -/
def SlotView.isOpen (v : SlotView) (base : Nat) (b : SlotBlock) (i : Nat) : Bool :=
  !b.ended && ((v.slot (base + i)).state == .masked || (v.slot (base + i)).state == .tentative)

def SlotView.isFinal (v : SlotView) (base : Nat) (b : SlotBlock) (i : Nat) : Bool :=
  (v.slot (base + i)).state == .final && !v.discarded base b i

/-- The block indices that satisfy a condition, ascending. -/
def SlotView.indices (b : SlotBlock) (f : Nat → Bool) : List Nat := (List.range b.size).filter f

/-- Slots an SKV commits (R149). -/
def SlotView.commits (v : SlotView) (base : Nat) (b : SlotBlock) : List Nat :=
  SlotView.indices b fun i => v.isFinal base b i && !(v.slot (base + i)).kv && (v.slot (base + i)).pass == b.passCtr

/-- KV is set on slots of a block (R149, R156). -/
def SlotView.setKv (v : SlotView) (base : Nat) (l : List Nat) : SlotView :=
  l.foldl (fun v i => v.setSlot (base + i) { v.slot (base + i) with kv := true }) v

/-- What an SPUBLISH has still to publish (R150). -/
def SlotView.unpublished (v : SlotView) (base : Nat) (b : SlotBlock) : List Nat :=
  if b.positional then SlotView.indices b fun i => v.isFinal base b i && !(v.slot (base + i)).pub
  else run base b b.size b.published
where
  run (base : Nat) (b : SlotBlock) : Nat → Nat → List Nat
    | 0, _ => []
    | n + 1, i =>
      if b.size ≤ i || !v.isFinal base b i then []
      else if b.endTok.toNat ≠ noToken && (v.slot (base + i)).token = b.endTok then [i]
      else i :: run base b n (i + 1)

/-- Slots are published, and END sent (R150). -/
def SlotView.publish (v : SlotView) (base : Nat) (l : List Nat) (sent : Bool) : SlotView :=
  let v := l.foldl (fun v i => v.setSlot (base + i) { v.slot (base + i) with pub := true }) v
  match v.blocks.get? base with
  | some b => { v with blocks := v.blocks.set base { b with published := b.published + l.length, endSent := b.endSent || sent } }
  | none => v

def Pend.apply (q : Pend) (v : SlotView) : SlotView where
  slots := q.slots.foldl (fun (m : FMap Slot) e => m.set e.1 e.2) v.slots
  blocks := match q.block with
    | some b => v.blocks.set q.base b
    | none => v.blocks.erase q.base

/-- The block that a Slot Unit task names. -/
def blockOf (e : WinEntry) : Nat :=
  match e.insn with
  | .skv _ _ kd => kBits e.k (kd.val + 2) 0 14
  | .sopen _ kd | .srule _ _ _ _ _ kd | .saccept _ _ _ _ _ kd | .spublish _ kd | .sclose _ kd | .scount _ _ kd
  | .kvcompact _ _ _ _ kd => kBits e.k kd.val 0 14
  | _ => 0

/-- The L accepted nodes of a SACCEPT output (R155). Of a count beyond the 1,024 that an output can hold the first 1,024 are taken
(log 126). -/
def acceptedNodes (s : State) (p a : Nat) : List Nat :=
  let m := s.memOf (.buf p)
  let n := m.read (2 ^ 26 * a + 4096) 4
  (List.range (min n 1024)).map fun j => m.read (2 ^ 26 * a + 4100 + 4 * j) 4

/-- Slots of the block whose KV is set. -/
def SlotView.kvSlots (v : SlotView) (base : Nat) (b : SlotBlock) : List Nat := SlotView.indices b fun i => (v.slot (base + i)).kv

/-- The root of the tree is a slot of the block: some slot was final before the SACCEPT that wrote the buffer, so the lowest slot which
that one finalised is not the block's first (R155, R156; log 92). -/
def rootIsSlot (s : State) (p a : Nat) (v : SlotView) (base : Nat) (b : SlotBlock) : Bool :=
  let m := s.memOf (.buf p)
  if m.read (2 ^ 26 * a) 4 = 0 then (SlotView.indices b fun i => v.isFinal base b i) != [] else m.read (2 ^ 26 * a + 4) 4 != 0

/-- Slots on which a KVCOMPACT sets KV (R156); one that has been discarded is never committed (R146). -/
def compactSlots (s : State) (p a : Nat) (v : SlotView) (base : Nat) (b : SlotBlock) : List Nat :=
  let n := (v.kvSlots base b).length
  let more := (if rootIsSlot s p a v base b then 1 else 0) + (acceptedNodes s p a).length
  ((List.range more).map fun j => n + j).filter fun i => decide (i < b.size) && !v.discarded base b i

/-- What an older entry that has not retired does to the table (R60, R141). -/
def olderEffect (s : State) (p : Nat) (e : WinEntry) (v : SlotView) : SlotView :=
  let base := blockOf e
  match e.pend with
  | some q => q.apply v
  | none => match v.blocks.get? base with
    | none => v
    | some b => match e.insn with
      | .skv _ _ _ => v.setKv base (v.commits base b)
      | .kvcompact _ _ _ _ _ => v.setKv base (compactSlots s p (e.a.getD 0) v base b)
      | .spublish _ _ => v.publish base (v.unpublished base b) b.ended
      | _ => v

/-- The slot table with the effects of every older task applied (R141). -/
def slotView (s : State) (p seq : Nat) : SlotView :=
  ((s.part p).window.filter fun e => e.seq < seq).foldl (fun v e => olderEffect s p e v)
    { slots := (s.part p).slots, blocks := (s.part p).blocks }

/-! ### Records and outputs -/

def SlotState.code : SlotState → Nat
  | .masked => 0
  | .tentative => 1
  | .final => 2
  | .never => 3

/-- A slot record (Table 07.1). -/
def Slot.record (x : Slot) : Nat :=
  x.token.toNat + 2 ^ 24 * x.state.code + (if x.pub then 2 ^ 26 else 0) + (if x.kv then 2 ^ 27 else 0) +
  2 ^ 32 * x.conf.toNat + 2 ^ 48 * x.pass.toNat + 2 ^ 64 * x.draft.toNat

/-- Bytes stored in a physical buffer by the Slot Unit. -/
def bufWrite (s : State) (p d off n v : Nat) : State :=
  s.splice (frontAgent p) (.buf p) (2 ^ 26 * d + off) n (Memory.cells (2 ^ 26 * d + off) n v)

/-- A count and its list of words at an offset (R147, R155). -/
def writeList (s : State) (p d off : Nat) (l : List Nat) : State :=
  (l.length :: l).zipIdx.foldl (fun s x => bufWrite s p d (off + 4 * x.2) 4 x.1) s

/-- The image of a block (R147). -/
def writeImage (s : State) (p d base n : Nat) (v : SlotView) : State :=
  (List.range n).foldl (fun s i => bufWrite s p d (8192 + 16 * i) 16 (v.slot (base + i)).record) s

/-! ### Faults -/

/-- A fault of the Slot Unit (R337). -/
def slotFault (s : State) (p seq code : Nat) (addr : Option Nat := none) : State :=
  taskFault s p seq { code, engine := 4, core := 127, addr }

/-- A buffer is too small for its layout (R318). -/
def smallBuf (s : State) (p : Nat) (b : Option Nat) (need : Nat) : Bool := ((b.bind (s.part p).bufBytes?).getD 0) < need

/-- The first line of a range of a buffer that cannot be read: buffer, offset, bytes (R378). -/
def badBuf (s : State) (p : Nat) (x : Option Nat × Nat × Nat) : Option Nat :=
  x.1.bind fun b => (firstPoisoned s (.buf p) (2 ^ 26 * b + x.2.1) x.2.2).map fun l => bufWindow + l

/-- A Slot Unit task: its block and the mode it needs, then k; ordered is the mode (R161, Table 07.7, Table 22.4). -/
def slotTask (s : State) (p : Nat) (e : WinEntry) (mode : Option Bool) (k : SlotView → Nat → SlotBlock → State) : State :=
  let v := slotView s p e.seq
  let base := blockOf e
  match v.blocks.get? base with
  | none => slotFault s p e.seq 0x0822
  | some b => if (match mode with
      | some m => m != b.ordered
      | none => false) then slotFault s p e.seq 0x0823 else k v base b

/-- Buffers that the layout of the block needs: size, then readability of what the task reads of them. -/
def withBufs (s : State) (p : Nat) (e : WinEntry) (needs : List (Option Nat × Nat)) (reads : List (Option Nat × Nat × Nat)) (k : State) :
    State :=
  if needs.any fun x => smallBuf s p x.1 x.2 then slotFault s p e.seq 0x0807
  else match reads.findSome? (badBuf s p) with
    | some a => slotFault s p e.seq 0x0902 (some a)
    | none => k

def State.issued (s : State) (p seq : Nat) (f : WinEntry → WinEntry) : State :=
  s.updEntry p seq fun e => f { e with status := .issued }

/-! ### SOPEN, SCLOSE, SCOUNT -/

/-- SOPEN (R140, R318). -/
def issueSopen (s : State) (p : Nat) (e : WinEntry) (kd : Nat) : State :=
  let base := kBits e.k kd 0 14
  let n := kBits e.k kd 14 11
  let v := slotView s p e.seq
  if base % n ≠ 0 || 16384 < base + n then slotFault s p e.seq 0x0820
  else if v.blocks.any fun (x : Nat × SlotBlock) => x.1 < base + n && base < x.1 + x.2.size then slotFault s p e.seq 0x0821
  else
    let b : SlotBlock := {
      size := n
      ordered := kBits e.k kd 25 1 = 1
      positional := kBits e.k kd 26 1 = 1
      ring := kBits e.k kd 27 3
      reqid := BitVec.ofNat 16 (kBits e.k kd 32 16)
      pos0 := BitVec.ofNat 32 (kBits e.k (kd + 1) 0 32)
      endTok := BitVec.ofNat 24 (kBits e.k (kd + 1) 32 24) }
    s.issued p e.seq fun e => { e with pend := some {
      base, block := some b, slots := (List.range n).map fun i => (base + i, { state := .masked }) } }

/-- SCLOSE (R140). -/
def issueSclose (s : State) (p : Nat) (e : WinEntry) : State :=
  slotTask s p e none fun _ base _ => s.issued p e.seq fun e => { e with pend := some { base, block := none, slots := [] } }

/-- The counts of a block (R147). -/
def countWord (v : SlotView) (base : Nat) (b : SlotBlock) : Nat :=
  let n := fun (f : Nat → Bool) => (SlotView.indices b f).length
  n (fun i => (v.slot (base + i)).state == .masked) + 2 ^ 11 * n (fun i => (v.slot (base + i)).state == .tentative) +
  2 ^ 22 * n (v.isFinal base b) + 2 ^ 33 * b.published + 2 ^ 44 * (v.kvSlots base b).length + (if b.ended then 2 ^ 55 else 0)

/-- SCOUNT (R147). -/
def issueScount (s : State) (p : Nat) (e : WinEntry) : State :=
  slotTask s p e none fun v base b => s.issued p e.seq fun e => { e with result := countWord v base b }

/-! ### SRULE -/

/-- Outcome of a slot (Table 07.2). -/
inductive Outcome where
  | f | t | m
  deriving DecidableEq, Repr

/-- What SRULE reads of an open slot. -/
structure Cand where
  i : Nat
  /-- The slot's token, when it is tentative. -/
  held : Option Nat
  c : Nat
  /-- The confidence, NaN and −0 as +0. -/
  q : Nat
  d : Option Nat
  out : Outcome
  tok : Nat
  deriving DecidableEq, Repr

/-- A confidence as it counts (R143). -/
def confBits (q : Nat) : Nat := if (FFmt.f16.val q).isNaN || q = 0x8000 then 0 else q
/-- An exact comparison with a threshold; false for a NaN (R143, R318). -/
def reaches (q th : Nat) : Bool := (FFmt.f16.val th).lt (FFmt.f16.val q) || (FFmt.f16.val th).eq (FFmt.f16.val q)

/-- Table 07.2. -/
def ruleOutcome (thF thT : Nat) (held : Option Nat) (c q : Nat) (d : Option Nat) : Outcome :=
  match held with
  | none => if d = some c || reaches q thF then .f else if reaches q thT then .t else .m
  | some t => if c = t && (d = some c || reaches q thF) then .f else if c = t && reaches q thT then .t else .m

/-- Rank order: q descending, then index (R145). -/
def Cand.ranks (a b : Cand) : Bool :=
  (FFmt.f16.val b.q).lt (FFmt.f16.val a.q) || ((FFmt.f16.val b.q).eq (FFmt.f16.val a.q) && a.i < b.i)

/-- Its place in rank order among others. -/
def Cand.rank (l : List Cand) (a : Cand) : Nat := (l.filter fun b => b.ranks a).length

/-- The budget (R145). -/
def budget (fmax thT : Nat) (l : List Cand) : List Cand :=
  let fs := l.filter fun x => x.out == .f
  if fmax = 0 || fs.length ≤ fmax then l
  else l.map fun x =>
    if x.out == .f && fmax ≤ x.rank fs then
      { x with tok := x.c, out := if reaches x.q thT && (x.held.isNone || x.held = some x.c) then .t else .m }
    else x

/-- The progress rule (R145). -/
def progress (l : List Cand) : List Cand :=
  if l.any fun x => x.out == .f then l
  else l.map fun x => if x.rank l = 0 then { x with out := .f, tok := x.c } else x

/-- The candidates of the open slots of a block (R143, R144). -/
def candidates (s : State) (p a : Nat) (drafts : Option Nat) (v : SlotView) (base : Nat) (b : SlotBlock) (thF thT : Nat) : List Cand :=
  let m := s.memOf (.buf p)
  (SlotView.indices b (v.isOpen base b)).map fun i =>
    let c := m.read (2 ^ 26 * a + 8 * i) 3
    let q := confBits (m.read (2 ^ 26 * a + 8 * i + 4) 2)
    let d := match drafts with
      | some x => let y := m.read (2 ^ 26 * x + 4 * i) 3; if y = noToken then none else some y
      | none => none
    let held := if (v.slot (base + i)).state == .tentative then some (v.slot (base + i)).token.toNat else none
    { i, held, c, q, d, out := ruleOutcome thF thT held c q d, tok := held.getD c }

/-- The slot after its outcome (R145). -/
def Cand.apply (x : Cand) (pass : BitVec 16) (y : Slot) : Slot :=
  let y := { y with
    conf := BitVec.ofNat 16 x.q
    draft := match x.d with
      | some d => BitVec.ofNat 24 d
      | none => y.draft }
  match x.out with
  | .f => { y with state := .final, token := BitVec.ofNat 24 x.tok, pass }
  | .t => { y with state := .tentative, token := BitVec.ofNat 24 x.tok }
  | .m => { y with state := .masked, token := 0xFFFFFF }

/-- The end of a block: it becomes ENDED, and the slots beyond E are discarded (R146); an open one keeps its PASS (log 112). -/
def endBlock (v : SlotView) (base : Nat) (b : SlotBlock) : SlotView :=
  if b.ended then v
  else match v.endIndex base b with
    | none => v
    | some e =>
      let v := (SlotView.indices b fun i => e < i).foldl (fun v i =>
        v.setSlot (base + i) { v.slot (base + i) with state := .final, token := 0xFFFFFF }) v
      { v with blocks := v.blocks.set base { b with ended := true } }

/-- The pending transitions of a task: its block and its slots as v has them (R60). -/
def pendOf (v : SlotView) (base n : Nat) : Pend :=
  { base, block := v.blocks.get? base, slots := (List.range n).map fun i => (base + i, v.slot (base + i)) }

/-- The slots that a task made final and that are not discarded. -/
def madeFinal (v : SlotView) (base : Nat) (l : List Nat) : List Nat :=
  match v.blocks.get? base with
  | some b => l.filter fun i => v.isFinal base b i
  | none => []

/-- SRULE (R143 to R147, R318). -/
def issueSrule (s : State) (p : Nat) (e : WinEntry) (img : Bool) (kd : Nat) : State :=
  slotTask s p e (some false) fun v base b =>
    withBufs s p e [(e.a, 8 * b.size), (if e.b.isSome then (e.b, 4 * b.size) else (e.a, 0)),
        (e.d, if img then 8192 + 16 * b.size else 4 + 4 * b.size)] [(e.a, 0, 8 * b.size), (e.b, 0, 4 * b.size)] <|
      let thF := kBits e.k kd 16 16
      let thT := kBits e.k kd 32 16
      let l := candidates s p (e.a.getD 0) e.b v base b thF thT
      if l.any fun x => x.c = noToken then slotFault s p e.seq 0x0824
      else
        let l := progress (budget (kBits e.k kd 48 11) thT l)
        let b' := if l.isEmpty then b else { b with passCtr := b.passCtr + 1 }
        let v' := l.foldl (fun v x => v.setSlot (base + x.i) (x.apply b'.passCtr (v.slot (base + x.i)))) { v with blocks := v.blocks.set base b' }
        let v' := if l.isEmpty then v' else endBlock v' base b'
        let s := writeList s p (e.d.getD 0) 0 (madeFinal v' base ((l.filter fun x => x.out == .f).map Cand.i))
        let s := if img then writeImage s p (e.d.getD 0) base b.size v' else s
        s.issued p e.seq fun e => { e with pend := some (pendOf v' base b.size) }

/-! ### SACCEPT -/

/-- Token and parent of a tree node (R155). -/
def nodeToken (s : State) (p a n : Nat) : Nat := (s.memOf (.buf p)).read (2 ^ 26 * a + 4 * n) 3
def nodeParent (s : State) (p a n : Nat) : Nat := (s.memOf (.buf p)).read (2 ^ 26 * a + 4 * n + 3) 1
/-- Every node but the root has a parent lower than its own index (R155). -/
def treeShape (s : State) (p a t : Nat) : Bool := (List.range t).all fun n => n = 0 || nodeParent s p a n < n

/-- The path that the target accepts from a node on (R155). -/
def acceptPath (s : State) (p a b t : Nat) (endTok : Nat) : Nat → Nat → List Nat
  | 0, _ => []
  | f + 1, cur =>
    match (List.range t).find? fun n => n ≠ 0 && nodeParent s p a n = cur && nodeToken s p a n = nodeToken s p b cur with
    | none => []
    | some ch => ch :: (if endTok ≠ noToken && nodeToken s p a ch = endTok then [] else acceptPath s p a b t endTok f ch)

/-- SACCEPT (R155, R318). -/
def issueSaccept (s : State) (p : Nat) (e : WinEntry) (img : Bool) (kd : Nat) : State :=
  slotTask s p e (some true) fun v base b =>
    let t := kBits e.k kd 14 9
    let a := e.a.getD 0
    let tb := e.b.getD 0
    withBufs s p e [(e.a, 4 * t), (e.b, 4 * t), (e.d, if img then 8192 + 16 * b.size else 4100 + 4 * t)]
        [(e.a, 0, 4 * t), (e.b, 0, 4 * t)] <|
      if !treeShape s p a t then slotFault s p e.seq 0x0825
      else
        let et := b.endTok.toNat
        let path := acceptPath s p a tb t et t 0
        let last := path.getLastD 0
        let ended := et ≠ noToken && !path.isEmpty && nodeToken s p a last = et
        let toks := path.map (nodeToken s p a) ++ (if ended then [] else [nodeToken s p tb last])
        let opens := SlotView.indices b (v.isOpen base b)
        let b' := if opens.isEmpty then b else { b with passCtr := b.passCtr + 1 }
        let pairs := opens.zip toks
        let v' := pairs.foldl (fun v x => v.setSlot (base + x.1)
          { v.slot (base + x.1) with state := .final, token := BitVec.ofNat 24 x.2, pass := b'.passCtr }) { v with blocks := v.blocks.set base b' }
        let v' := if opens.isEmpty then v' else endBlock v' base b'
        let d := e.d.getD 0
        let s := writeList s p d 0 (madeFinal v' base (pairs.map (·.1)))
        let s := writeList s p d 4096 (path.take pairs.length)
        let s := if img then writeImage s p d base b.size v' else s
        s.issued p e.seq fun e => { e with pend := some (pendOf v' base b.size) }

/-! ### Copies of SKV and KVCOMPACT -/

/-- A task's copy of n bytes goes to the Hoists (R149, R156, R315). -/
def taskCopy (s : State) (p seq : Nat) (src dst : CAddr) (kind : CKind) : State :=
  if kind.total = 0 then s
  else { s with nextAge := s.nextAge + 1, copies := s.copies.set s.nextAge {
    owner := .task p seq, core := none, part := p, src, dst, kind, since := s.clock } }

/-- SKV (R149, R318). -/
def issueSkv (s : State) (p : Nat) (e : WinEntry) (kd : Nat) : State :=
  slotTask s p e (some false) fun v base b =>
    let w := 128 * kBits e.k (kd + 2) 14 14
    let cache := kPair e.k kd
    let a := e.a.getD 0
    if smallBuf s p e.a (b.size * w) then slotFault s p e.seq 0x0807
    else if !covered e.areas { base := cache, len := b.size * w, write := true } then slotFault s p e.seq 0x0812
    else
      let l := v.commits base b
      l.foldl (fun s i => taskCopy s p e.seq (.buf p a (i * w)) (.g (cache + i * w)) (.copy w))
        (s.issued p e.seq fun e => { e with kvSlots := l })

/-- KVCOMPACT (R156, R318). -/
def issueKvcompact (s : State) (p : Nat) (e : WinEntry) (kd : Nat) : State :=
  slotTask s p e (some true) fun v base b =>
    let w := 128 * kBits e.k kd 14 14
    let a := e.a.getD 0
    let old := e.prev.getD 0
    let d := e.d.getD 0
    let nodes := acceptedNodes s p a
    let root := rootIsSlot s p a v base b
    let n := (v.kvSlots base b).length
    let rows := (if root then [0] else []) ++ nodes
    withBufs s p e [(e.a, 4100 + 4 * nodes.length), (e.b, (rows.foldl max 0 + (if rows.isEmpty then 0 else 1)) * w), (e.d, (n + rows.length) * w)]
        [(e.a, 0, 8), (e.a, 4096, 4 + 4 * nodes.length)] <|
      rows.zipIdx.foldl (fun s x => taskCopy s p e.seq (.buf p (e.b.getD 0) (x.1 * w)) (.buf p d ((n + x.2) * w)) (.copy w))
        (taskCopy (s.issued p e.seq fun e => { e with kvSlots := compactSlots s p a v base b }) p e.seq (.buf p old 0) (.buf p d 0) (.copy (n * w)))

/-! ### MASKGEN -/

/-- A node is an ancestor of another, or itself (R157). -/
def ancestor (s : State) (p a k : Nat) : Nat → Nat → Bool
  | 0, _ => false
  | f + 1, n => n == k || (n != 0 && ancestor s p a k f (nodeParent s p a n))

/-- The mask entry of K-group g and row block r (R157). -/
def genEntry (s : State) (p a t pk g r : Nat) : Nat :=
  ((List.range 256).map fun x =>
    let row := 16 * r + x / 16
    let key := 16 * g + x % 16
    if row < t && key < pk + t && (key < pk || ancestor s p a (key - pk) t row) then 2 ^ x else 0).sum

/-- MASKGEN (R157, R317). -/
def issueMaskgen (s : State) (p : Nat) (e : WinEntry) (kd : Nat) : State :=
  let t := maskNodes e.k kd
  let pk := maskKeys e.k kd
  let a := e.a.getD 0
  let m := (t + 15) / 16
  match badBuf s p (e.a, 0, 4 * t) with
  | some x => slotFault s p e.seq 0x0902 (some x)
  | none =>
    if !treeShape s p a t then slotFault s p e.seq 0x0825
    else ((List.range (maskEntries t pk)).foldl (fun s' j => bufWrite s' p (e.d.getD 0) (32 * j) 32 (genEntry s p a t pk (j / m) (j % m))) s).issued
      p e.seq id

/-! ### Publication -/

/-- PUB and the published count go into the table and into the pending transitions of older entries of the block. A younger entry has
computed its own with the effects of the whole SPUBLISH applied (R141, R150). -/
def markPublished (x : Part) (seq base : Nat) (l : List Nat) (sent : Bool) : Part :=
  let v := ({ slots := x.slots, blocks := x.blocks } : SlotView).publish base l sent
  { x with
    slots := v.slots, blocks := v.blocks
    window := x.window.map fun e => match e.pend with
      | some q => if e.seq < seq && q.base = base then
          let w := ({ slots := q.slots, blocks := match q.block with
            | some b => [(base, b)]
            | none => [] } : SlotView).publish base l sent
          { e with pend := some { q with slots := w.slots, block := w.blocks.get? base } }
        else e
      | none => e }

/-- A ring that is disabled (R151). -/
def Ring.disabled (r : Ring) : Bool := !r.en || r.log2n.toNat = 0 || 16 < r.log2n.toNat
/-- Records of a ring. -/
def Ring.size (r : Ring) : Nat := 2 ^ r.log2n.toNat
/-- The ring has no room, by the device's copy of the consumer index (R153). -/
def Ring.isFull (r : Ring) : Bool := r.size ≤ (r.prod - r.copy).toNat
def Ring.addr (r : Ring) : Nat := r.base.toNat + 2 ^ 64 * r.baseHi.toNat
def Ring.consAddr (r : Ring) : Nat := r.cons.toNat + 2 ^ 64 * r.consHi.toNat

/-- SPUBLISH issues once its block and its ring are found (R150, R151). -/
def issueSpublish (s : State) (p : Nat) (e : WinEntry) : State :=
  slotTask s p e none fun _ _ b =>
    if ((s.part p).rings.getD b.ring {}).disabled then
      slotFault (s.updEntry p e.seq fun e => { e with progress := b.published }) p e.seq 0x0827
    else s.issued p e.seq fun e => { e with since := s.clock, progress := b.published }

/-- The next record of an SPUBLISH: its slots, and whether it carries END; none when nothing is left (R150). -/
def nextRecord (v : SlotView) (base : Nat) (b : SlotBlock) : Option (List Nat × Bool) :=
  let l := v.unpublished base b
  let per := if b.positional then 6 else 13
  let send := b.ended && !b.endSent
  if l.isEmpty && !send then none else some (l.take per, send && l.length ≤ per)

/-- The 64 bytes of a record (Table 07.5). A position wraps at 2^32 (log 127). -/
def recordNat (v : SlotView) (base : Nat) (b : SlotBlock) (seq : Word) (l : List Nat) (last : Bool) : Nat :=
  let pos := fun (i : Nat) => (b.pos0 + BitVec.ofNat 32 i).toNat
  let tok := fun (i : Nat) => (v.slot (base + i)).token.toNat
  let head := if b.positional then (if last then pos ((v.endIndex base b).getD 0) else pos (l.headD 0))
    else pos (l.headD b.published)
  let body := if b.positional then l.flatMap fun i => [pos i, tok i] else l.map tok
  seq.toNat + 2 ^ 32 * (b.reqid.toNat + 2 ^ 16 * l.length + (if last then 2 ^ 24 else 0) + (if b.positional then 2 ^ 25 else 0)) +
  2 ^ 64 * head + (body.zipIdx.map fun x => x.1 * 2 ^ (96 + 32 * x.2)).sum

/-- SEQ skips 0 (R153). -/
def nextSeqNo (x : Word) : Word := if x + 1 = 0 then 1 else x + 1

/-- A translation or port fault of an access that the Slot Unit makes for a task (R337). -/
def slotAccess (s : State) (p seq : Nat) (f : CFail) : State :=
  let s := match f.walk with
    | some w => xlRecord s p (frontAgent p) 0 f.addr w
    | none => s
  slotFault s p seq f.code (some f.addr)

/-- SPUBLISH_RECORD_WRITE: words 1 to 15, then word 0 (R139, R150, R152, R153); the ring may have been disabled while the partition was
halted (R151). -/
def recordWrite (s : State) (p seq : Nat) : State :=
  match s.entryOf p seq with
  | none => s
  | some e => match e.insn, e.status with
    | .spublish _ _, .issued =>
      let v := slotView s p seq
      let base := blockOf e
      if !runs s p then s
      else match v.blocks.get? base with
        | none => s
        | some b => match nextRecord v base b with
          | none => s
          | some (l, last) =>
            let r := (s.part p).rings.getD b.ring {}
            if r.disabled then slotFault (s.updEntry p seq fun e => { e with progress := b.published }) p seq 0x0827
            else if r.isFull then s
            else
              match globalWrite (s.asking e.since) p (frontAgent p) false 2 (r.addr + 64 * (r.prod.toNat % r.size)) 64 (recordNat v base b r.seq l last) with
              | .error (f, s') => slotAccess s' p seq f
              | .ok s' =>
                (s'.updPart p fun x => markPublished
                  { x with rings := x.rings.set b.ring { r with prod := r.prod + 1, seq := nextSeqNo r.seq } } seq base l last).updEntry p seq
                  fun e => { e with since := s.clock, progress := b.published + l.length }
    | _, _ => s

def execSpublishRecordWrite (p seq : Nat) (s : State) : Out := .next (recordWrite s p seq)

/-- The ring that an SPUBLISH waits for, when it waits. -/
def waitingRing (s : State) (p seq : Nat) : Option (Nat × Ring × WinEntry) :=
  match s.entryOf p seq with
  | none => none
  | some e => match e.insn, e.status, (slotView s p seq).blocks.get? (blockOf e) with
    | .spublish _ _, .issued, some b =>
      let r := (s.part p).rings.getD b.ring {}
      if runs s p && !r.disabled && r.isFull && (nextRecord (slotView s p seq) (blockOf e) b).isSome then some (b.ring, r, e) else none
    | _, _, _ => none

/-- RING_CONS_POLL: the consumer index is read again, at most once in 256 cycles (R153). A value beyond PROD counts as full. A read that
fails does not count (log 72). -/
def consPoll (s : State) (p seq : Nat) : State :=
  match waitingRing s p seq with
  | none => s
  | some (n, r, e) =>
    if r.polled.any fun c => s.clock < c + 256 then s
    else match globalRead (s.asking ((r.polled.map (· + 256)).getD e.since)) p (frontAgent p) true 2 r.consAddr 4 with
      | .error (f, s') => slotAccess s' p seq f
      | .ok (s', v) => s'.updPart p fun x => { x with rings := x.rings.set n { r with copy := BitVec.ofNat 32 v, polled := some s.clock } }

def execRingConsPoll (p seq : Nat) (s : State) : Out := .next (consPoll s p seq)

/-- RING_LIMIT_EXPIRY (R153). Clocks that pass while the partition is halted count toward the limit (log 93). -/
def ringExpiry (s : State) (p seq : Nat) : State :=
  match waitingRing s p seq with
  | none => s
  | some (_, r, e) => if r.lim ≠ 0 && e.since + 256 * r.lim.toNat ≤ s.clock then slotFault s p seq 0x0826 else s

def execRingLimitExpiry (p seq : Nat) (s : State) : Out := .next (ringExpiry s p seq)

end Sys2Proof.Machine
end

