-- ==== Sys2Proof/Machine/Spindle.lean ====
section
/-! DEFINITION. The Spindle: the team's MMP, MMS, ACC and MQ, and the tiles of MMT and SMMT, unit by unit (14, R39, R62, R83 to R92, R108, R109, R115, R291 to R298). -/

namespace Sys2Proof.Machine

/-! ### Tiles -/

/-- Element n of a tile: what was written, else 0, or an unknown value (R108, R293; log 6). -/
def Tile.elem (t : Tile) (n : Nat) : Nat :=
  match t.vals.get? n with
  | some v => v
  | none => match t.free with
    | some f => (Config.tileWord f n).toNat
    | none => 0
/-- The same, as a word of 32 bits. -/
def Tile.word (t : Tile) (n : Nat) : Nat := t.elem n % 2 ^ 32

/-- Elements 0 to 4095 in order. -/
def tileVals (f : Nat → Nat → Nat) : FMap Nat := (List.range 4096).map fun n => (n, f (n / 256) (n % 256))

def State.tile (s : State) (k : Nat) : Tile := s.tiles.getD k {}
def State.setTile (s : State) (k : Nat) (t : Tile) : State := { s with tiles := s.tiles.set k t }

/-- The bank of a class (R12, R39). -/
def bankOf (cls : Nat) : Nat := cls / 2
/-- A physical tile of a core's class bank. -/
def tileKey (core cls n : Nat) : Nat := 32 * core + 16 * bankOf cls + n

/-- The physical tile a crew names on a core. -/
def Crew.tileAt (c : Crew) (core n : Nat) : Nat := tileKey core c.cls (((c.tileMap.getD core [])[n]?).getD 0)
/-- The physical queue a crew names on a core. -/
def Crew.queueAt (c : Crew) (core n : Nat) : Nat := 8 * core + ((c.queueMap.getD core [])[n]?).getD 0

/-- A tile as 32-bit words: half of an f64 pair then holds unknown words, as does its other half (R293). -/
def asWords (s : State) (k other : Nat) : State :=
  if (s.tile k).kind = .f64 then
    { (s.setTile k { free := some s.fresh }).setTile other { free := some (s.fresh + 1) } with fresh := s.fresh + 2 }
  else s

/-- A pair as an f64 pair: unless it is one, its elements are unknown (R293; log 6). -/
def asPair (s : State) (k other : Nat) : State :=
  if (s.tile k).kind = .f64 && (s.tile other).kind = .f64 then s
  else { (s.setTile k { kind := .f64, free := some s.fresh }).setTile other { kind := .f64 } with fresh := s.fresh + 1 }

/-- The other tile of the pair that a crew's tile belongs to. -/
def Crew.other (c : Crew) (core n : Nat) : Nat := c.tileAt core (if n % 2 = 0 then n + 1 else n - 1)

/-- Makes a crew's tile, or pair, ready for a form of its size. -/
def prepared (s : State) (c : Crew) (core : Nat) (pair : Bool) (n : Nat) : State :=
  if pair then asPair s (c.tileAt core n) (c.tileAt core (n + 1)) else asWords s (c.tileAt core n) (c.other core n)

/-- A tile or pair as OUT, SPILL and MOVE read it: TY 01 makes it an f64 pair; the words of half an f64 pair are unknown, and the tile
stays as it is (R293; log 6). -/
def readAs (s : State) (c : Crew) (core : Nat) (pair : Bool) (n : Nat) : Tile × State :=
  if pair then
    let s := prepared s c core true n
    (s.tile (c.tileAt core n), s)
  else
    let t := s.tile (c.tileAt core n)
    if t.kind = .f64 then ({ free := some s.fresh }, { s with fresh := s.fresh + 1 }) else (t, s)

/-! ### Queues -/

/-- The next n entries of a queue, and the queue after them; none while it holds fewer (R85, R115). -/
def popQueue (s : State) (key n : Nat) : Option (List Nat × State) :=
  let q := s.mqs.getD key []
  if q.length < n then none else some (q.take n, { s with mqs := s.mqs.set key (q.drop n) })

/-! ### Operations of a team -/

/-- The window of a crew. -/
def windowRead (s : State) (cid a n : Nat) : Nat := (s.memOf (.window cid)).read a n

/-- Element j of a row of elements of z bytes, as one number. -/
def element (z : Nat) (row j : Nat) : Nat := row >>> (8 * z * j) % 2 ^ (8 * z)

/-- The K-group of one row block of an MMP (R83 to R85, R294). -/
def mmpBlock (s : State) (cid core : Nat) (c : Crew) (a g b : Nat) (planes : Nat) (af : AFmt) (bf : BFmt) (cur r tile e : Nat) : State :=
  let s := prepared s c core false tile
  let k := c.tileAt core tile
  let t := { s.tile k with kind := if intAcc af bf then TKind.i32 else .f32 }
  if e = 0 then s.setTile k t
  else
    let rec_ := windowRead s cid (a + (r * g + cur) * af.record) af.record
    let rows := (List.range 16).map fun k => windowRead s cid (b + 256 * (16 * cur + k) * bf.bytes) (256 * bf.bytes)
    let vals := tileVals fun i j => groupStep af bf planes rec_ e i (fun k => element bf.bytes (rows.getD k 0) j) (t.word (256 * i + j))
    s.setTile k { t with vals, free := none }

/-- Signed 16-bit exponents of a sliced product (R87). -/
def expAt (s : State) (cid a n : Nat) : Nat := windowRead s cid (a + 2 * n) 2

/-- Z of a pair over all K, from the records of A and the rows of B (R88). -/
def mmsZ (recs rows : List Nat) (i j : Nat) : Int :=
  (rows.zipIdx.map fun r => aInt .i8 8 (recs.getD (r.2 / 16) 0) i (r.2 % 16) * signedNat 8 (element 1 r.1 j)).sum

/-- S after one more pair (R89). -/
def sliceSum (first : Bool) (old v : Nat) : Nat :=
  if first then v else FFmt.f64.round .rne ((FFmt.f64.val old).add .rne (FFmt.f64.val v))

/-- Pair cur of an MMS (R89, R295). -/
def mmsPair (s : State) (cid core : Nat) (c : Crew) (a ea b eb g sl d w cur : Nat) : State :=
  let s := prepared (prepared s c core true d) c core true w
  match (slicePairs sl)[cur]? with
  | none => s
  | some (t, u) =>
    let old := s.tile (c.tileAt core w)
    let recs := (List.range g).map fun q => windowRead s cid (a + ((t - 1) * g + q) * 256) 256
    let rows := (List.range (16 * g)).map fun k => windowRead s cid (b + ((u - 1) * (16 * g) + k) * 256) 256
    let vals := tileVals fun i j => sliceSum (cur == 0) (old.elem (256 * i + j))
      (pairTerm (mmsZ recs rows i j) (signedNat 16 (expAt s cid ea i)) (signedNat 16 (expAt s cid eb j)) (t + u))
    let new : Tile := { kind := .f64, vals }
    let s := s.setTile (c.tileAt core w) new
    if cur + 1 < (slicePairs sl).length then s
    else
      let cOld := s.tile (c.tileAt core d)
      let vals := tileVals fun i j =>
        if expAt s cid ea i = badExp || expAt s cid eb j = badExp then FFmt.f64.nan
        else sliceSum false (cOld.elem (256 * i + j)) (new.elem (256 * i + j))
      s.setTile (c.tileAt core d) { kind := .f64, vals }

/-- Bytes of an element of a tile (R109). -/
def TKind.bytes : TKind → Nat
  | .f64 => 8
  | _ => 4

/-- A tile in the layout of R109. -/
def Tile.image (t : Tile) : Memory :=
  (List.range 4096).flatMap fun n => Memory.cells (t.kind.bytes * n) t.kind.bytes (t.elem n)

/-- ACC.LOAD (R296). -/
def accLoad (s : State) (cid core : Nat) (c : Crew) (pair : Bool) (d a : Nat) : State :=
  let z := if pair then 8 else 4
  let t : Tile := { kind := if pair then .f64 else .f32, vals := tileVals fun i j => windowRead s cid (a + z * (256 * i + j)) z }
  let s := (prepared s c core pair d).setTile (c.tileAt core d) t
  if pair then s.setTile (c.tileAt core (d + 1)) { kind := .f64 } else s

/-- ACC.ZERO (R296). -/
def accZero (s : State) (core : Nat) (c : Crew) (pair : Bool) (d : Nat) : State :=
  let s := (prepared s c core pair d).setTile (c.tileAt core d) { kind := if pair then .f64 else .f32 }
  if pair then s.setTile (c.tileAt core (d + 1)) { kind := .f64 } else s

/-- ACC.MOVE: elements and kind; equal tiles have no effect (R296). -/
def accMove (s : State) (core : Nat) (c : Crew) (pair : Bool) (d a : Nat) : State :=
  if d = a then s
  else
    let r := readAs s c core pair a
    let s := (prepared r.2 c core pair d).setTile (c.tileAt core d) r.1
    if pair then s.setTile (c.tileAt core (d + 1)) { kind := .f64 } else s

/-- A scale of ACC.OUT: 1.0 for 0xFFFF_FFFF (R297). -/
def scaleAt (s : State) (cid a n : Nat) : Nat := if a = 0xFFFFFFFF then 0x3F800000 else windowRead s cid (a + 4 * n) 4

/-- ACC.OUT with its mask entries; none where it is unmasked (R86, R297). Lines written whole are no longer poisoned (R378). -/
def accOut (s : State) (cid core : Nat) (c : Crew) (pair : Bool) (d a rs cs fmt : Nat) (ovf : Bool) (rm : RM) (es : Option (List Nat)) :
    State :=
  let r := readAs s c core pair d
  let t := r.1
  let s := r.2
  let f := fmtOfCode fmt
  let z := fmtBytes f
  let v := fun n =>
    let i := n / 256
    let j := n % 256
    if (match es with
      | some l => (l[j / 16]?).getD 0 / 2 ^ (16 * i + j % 16) % 2 == 0
      | none => false) then maskedOut f
    else outValue t.kind f ovf rm (if pair then t.elem n else t.word n) (scaleAt s cid rs i) (scaleAt s cid cs j)
  (s.setMem (.window cid) ((s.memOf (.window cid)).replace a (4096 * z)
    ((List.range 4096).flatMap fun n => Memory.cells (a + z * n) z (v n)))).clearPoison (.window cid) a (4096 * z)

/-- The value of the cells, as one number. -/
def imageNat (m : Memory) : Nat := (m.map fun (c : Host.Cell) => c.2.toNat * 2 ^ (8 * c.1)).sum

/-- What an ACC.SPILL writes: its bytes, their value, and the state once they are read (R109, R296). -/
def spillData (s : State) (core : Nat) (c : Crew) (pair : Bool) (d : Nat) : Nat × Nat × State :=
  let r := readAs s c core pair d
  let t := if pair then r.1 else { r.1 with vals := tileVals fun i j => r.1.word (256 * i + j) }
  (4096 * r.1.kind.bytes, imageNat t.image, r.2)

/-- What stops an ACC.SPILL, or the state after it (R109, R296, R357). The spill writes nothing when any page fails. -/
def accSpill (s : State) (p core : Nat) (c : Crew) (pair : Bool) (d va : Nat) : Except (CFail × State) State :=
  if 2 ^ 80 ≤ va then .error (⟨0x0304, va % 2 ^ 80, none⟩, s)
  else if va % 128 ≠ 0 then .error (⟨0x0303, va, none⟩, s)
  else
    let (n, v, s) := spillData s core c pair d
    match globalCheck s p core false (pagesOf n) va n with
    | .error e => .error e
    | .ok s' => globalWrite s' p core false (pagesOf n) va n v

/-! ### Tiles of a task (R62, R313, R314) -/

/-- The shape of an MMT or SMMT, and whether it is masked and accumulates. -/
def matTask (e : WinEntry) : Option (MatShape × Bool × Bool) :=
  match e.insn with
  | .mmt _ acc masked _ _ _ kd => some (mmtShape e.k kd.val, masked, acc)
  | .smmt _ acc masked _ _ _ kd => some (smmtShape e.k kd.val, masked, acc)
  | _ => none

/-- Column strips. -/
def MatShape.strips (h : MatShape) : Nat := (h.n + 255) / 256
/-- Units of a tile: K-groups, or pairs (R92). -/
def MatShape.units (h : MatShape) : Nat := if h.sliced then (slicePairs h.slices).length else h.groups
/-- Tiles of the task, with blocks row groups in each. -/
def MatShape.count (h : MatShape) (blocks : Nat) : Nat := (h.blocks + blocks - 1) / blocks * h.strips

/-- Bytes of a physical buffer. -/
def bufRead (s : State) (p b off n : Nat) : Nat := (s.memOf (.buf p)).read (2 ^ 26 * b + off) n

/-- The mask entry of K-group g and row block r; all ones without a mask (R313). -/
def taskMask (s : State) (p a : Nat) (h : MatShape) (masked : Bool) (g r : Nat) : Nat :=
  if masked then bufRead s p a (h.maskoff + 32 * (g * h.blocks + r)) 32 else 2 ^ 256 - 1

/-- C_old of an element: D's buffer under ACC, else +0. -/
def taskOld (s : State) (p d : Nat) (h : MatShape) (acc : Bool) (row col : Nat) : Nat :=
  if acc && row < h.m && col < h.n then bufRead s p d (fmtBytes h.out * (row * h.n + col)) (fmtBytes h.out) else 0

/-- K-group g of row block r of an MMT tile on strip j0 (R83, R84, R313). -/
def mmtBlock (s : State) (p a b : Nat) (h : MatShape) (masked : Bool) (r j0 g : Nat) (t : Tile) : Tile :=
  let e := taskMask s p a h masked g r
  if e = 0 then t
  else
    let rec_ := bufRead s p a ((r * h.groups + g) * h.af.record) h.af.record
    let rows := (List.range 16).map fun k =>
      if 16 * g + k < h.k then bufRead s p b (((16 * g + k) * h.n + 256 * j0) * h.bf.bytes) (min 256 (h.n - 256 * j0) * h.bf.bytes) else 0
    { t with vals := tileVals fun i j =>
        groupStep h.af h.bf h.planes rec_ e i (fun k => element h.bf.bytes (rows.getD k 0) j) (t.word (256 * i + j)) }

/-- An f64 element of A or B of an SMMT. -/
def smmtA (s : State) (p a : Nat) (h : MatShape) (row k : Nat) : FVal :=
  if row < h.m && k < h.k then FFmt.f64.val (bufRead s p a (8 * (row * h.k + k)) 8) else FVal.int 0
def smmtB (s : State) (p b : Nat) (h : MatShape) (k col : Nat) : FVal :=
  if col < h.n && k < h.k then FFmt.f64.val (bufRead s p b (8 * (k * h.n + col)) 8) else FVal.int 0

/-- A line of A or B: its values over all K. -/
def matLine (h : MatShape) (f : Nat → FVal) : List FVal := (List.range h.k).map f
/-- It holds a NaN or an infinity. -/
def badLine (l : List FVal) : Bool := l.any fun v => match v with
  | .fin _ _ _ => false
  | _ => true

/-- Digit t of every element of a line (R87). -/
def lineDigits (sl t : Nat) (l : List FVal) : List Int :=
  if badLine l then l.map fun _ => 0
  else
    let e := sliceExp l
    l.map fun v => ((digitsOf sl e v)[t - 1]?).getD 0
/-- The exponent of a line (R87, R282). -/
def lineExp (l : List FVal) : Int := if badLine l then 0 else sliceExp l

/-- The row lines of a row block, and the column lines of a strip. -/
def rowLines (s : State) (p a : Nat) (h : MatShape) (r : Nat) : List (List FVal) :=
  (List.range 16).map fun i => matLine h fun k => smmtA s p a h (16 * r + i) k
def colLines (s : State) (p b : Nat) (h : MatShape) (j0 : Nat) : List (List FVal) :=
  (List.range 256).map fun j => matLine h fun k => smmtB s p b h k (256 * j0 + j)

/-- Pair cur of row block r of an SMMT tile (R88, R89, R314). -/
def smmtBlock (s : State) (p a b : Nat) (h : MatShape) (masked : Bool) (r j0 cur : Nat) (t : Tile) : Tile :=
  match (slicePairs h.slices)[cur]? with
  | none => t
  | some (x, y) =>
    let line := fun n (l : List FVal) => (lineDigits h.slices n l, lineExp l)
    let rows := (rowLines s p a h r).map (line x)
    let cols := (colLines s p b h j0).map (line y)
    let masks := (List.range h.groups).map fun g => taskMask s p a h masked g r
    let vals := tileVals fun i j =>
      let ra := rows.getD i ([], 0)
      let cb := cols.getD j ([], 0)
      let z := ((ra.1.zip cb.1).zipIdx.map fun q =>
        if (masks.getD (q.2 / 16) 0).testBit (16 * i + q.2 % 16) then q.1.1 * q.1.2 else 0).sum
      sliceSum (cur == 0) (t.elem (256 * i + j)) (pairTerm z ra.2 cb.2 (x + y))
    { kind := .f64, vals }

/-- Tile numbers of row block q of a tile: one, or the even one of a pair. -/
def TileRun.key (x : TileRun) (cls : Nat) (sliced : Bool) (q : Nat) : Nat :=
  tileKey x.core cls ((x.tiles[if sliced then 2 * q else q]?).getD 0)

/-- The accumulators with which a tile begins (R313). -/
def startTile (s : State) (p d : Nat) (h : MatShape) (acc : Bool) (r j0 : Nat) : Tile :=
  if h.sliced then { kind := .f64 }
  else { kind := if intAcc h.af h.bf then .i32 else .f32
         vals := if acc then tileVals fun i j => taskOld s p d h true (16 * r + i) (256 * j0 + j) else [] }

/-- The output of an element; bad says that its row or its column holds a NaN or an infinity, be it only in products that a mask excludes
(R85, R86, R89, R313, R314; log 70). -/
def taskOut (s : State) (p a b d : Nat) (h : MatShape) (acc : Bool) (t : Tile) (r j0 i j : Nat) (bad : Bool) : Nat :=
  let row := 16 * r + i
  let col := 256 * j0 + j
  if h.sliced then
    if bad then FFmt.f64.nan
    else sliceSum false (taskOld s p d h acc row col) (t.elem (256 * i + j))
  else
    outValue t.kind h.out h.ovf h.rm (t.word (256 * i + j))
      (if h.rscale = 0xFFFFFFFF then 0x3F800000 else bufRead s p a (h.rscale + 4 * row) 4)
      (if h.cscale = 0xFFFFFFFF then 0x3F800000 else bufRead s p b (h.cscale + 4 * col) 4)

/-- The outputs of one row block, inside M and N (R62). -/
def writeBlock (s : State) (p core a b d : Nat) (h : MatShape) (acc : Bool) (t : Tile) (r j0 : Nat) : State :=
  let z := fmtBytes h.out
  let badR := if h.sliced then (rowLines s p a h r).map badLine else []
  let badC := if h.sliced then (colLines s p b h j0).map badLine else []
  (List.range 16).foldl (fun s' i =>
    let row := 16 * r + i
    let n := min 256 (h.n - 256 * j0)
    if row < h.m then
      let off := 2 ^ 26 * d + z * (row * h.n + 256 * j0)
      s'.splice core (.buf p) off (z * n) ((List.range n).flatMap fun j => Memory.cells (off + z * j) z
        (taskOut s p a b d h acc t r j0 i j (badR.getD i false || badC.getD j false)))
    else s') s

/-- A tile comes free; what was spilled for it returns (R39, R108). -/
def releaseTile (s : State) (k : Nat) : State :=
  match s.spilled.get? k with
  | some (x :: l) =>
    { s with
      tileOwner := s.tileOwner.set k x.owner, tiles := s.tiles.set k x.tile
      spilled := if l.isEmpty then s.spilled.erase k else s.spilled.set k l }
  | _ => { s with tileOwner := s.tileOwner.erase k, tiles := s.tiles.erase k }

/-- A queue comes free, and its entries are discarded (R115). -/
def releaseQueue (s : State) (k : Nat) : State := { s with mqOwner := s.mqOwner.erase k, mqs := s.mqs.erase k }

/-- The tiles and the queue that a tile of a task held come free (R62, R108, R115). -/
def freeTile (s : State) (cls : Nat) (x : TileRun) : State :=
  let s := x.tiles.foldl (fun s n => releaseTile s (tileKey x.core cls n)) s
  match x.queue with
  | some q => releaseQueue s (8 * x.core + q)
  | none => s

def State.updTile (s : State) (p seq t : Nat) (f : TileRun → TileRun) : State :=
  s.updEntry p seq fun e => match e.tiles.get? t with
    | some x => { e with tiles := e.tiles.set t (f x) }
    | none => e

/-- What unit cur of a row block of a tile reads of the buffers of A, B and D: buffer, offset, bytes (R62, R313, R314). -/
def matReads (s : State) (p a b d : Nat) (h : MatShape) (masked acc : Bool) (r j0 cur : Nat) : List (Nat × Nat × Nat) :=
  let cols := min 256 (h.n - 256 * j0)
  let rows := min 16 (h.m - 16 * r)
  let z := fmtBytes h.out
  let last := cur + 1 == h.units
  let mask := fun g => (a, h.maskoff + 32 * (g * h.blocks + r), 32)
  let old := if acc then (List.range rows).map fun i => (d, z * ((16 * r + i) * h.n + 256 * j0), z * cols) else []
  if h.sliced then
    (if masked then (List.range h.groups).map mask else []) ++ [(a, 8 * (16 * r * h.k), 8 * (rows * h.k))] ++
    (List.range h.k).map (fun k => (b, 8 * (k * h.n + 256 * j0), 8 * cols)) ++ if last then old else []
  else
    (if masked then [mask cur] else []) ++
    (if taskMask s p a h masked cur r = 0 then []
      else (a, (r * h.groups + cur) * h.af.record, h.af.record) ::
        ((List.range 16).filter fun k => 16 * cur + k < h.k).map fun k =>
          (b, ((16 * cur + k) * h.n + 256 * j0) * h.bf.bytes, cols * h.bf.bytes)) ++
    (if cur = 0 then old else []) ++
    if last then
      (if h.rscale = 0xFFFFFFFF then [] else [(a, h.rscale + 64 * r, 4 * rows)]) ++
      if h.cscale = 0xFFFFFFFF then [] else [(b, h.cscale + 1024 * j0, 4 * cols)]
    else []

/-- A poisoned line among what is read of the buffers: the code and the line's address (R378, Table 24.1). -/
def matFailure (s : State) (p : Nat) (reads : List (Nat × Nat × Nat)) : Option (Nat × Nat) :=
  if s.poisonLode.isEmpty then none
  else reads.findSome? fun x => (firstPoisoned s (.buf p) (2 ^ 26 * x.1 + x.2.1) x.2.2).map fun l => (0x0902, bufWindow + l)

/-- Unit cur of tile t of a task (R62, R92, R313, R314). -/
def tileUnit (s : State) (p seq t cur : Nat) : State :=
  match s.entryOf p seq with
  | none => s
  | some e => match matTask e, e.tiles.get? t with
    | some (h, masked, acc), some x =>
      let a := e.a.getD 0
      let b := e.b.getD 0
      let d := e.d.getD 0
      let r0 := e.mblocks * (t / h.strips)
      let j0 := t % h.strips
      let qs := (List.range e.mblocks).filter fun q => r0 + q < h.blocks
      match matFailure s p (qs.flatMap fun q => matReads s p a b d h masked acc (r0 + q) j0 cur) with
      | some (code, va) => taskFault s p seq { code, engine := 2, core := x.core, addr := some va }
      | none =>
        let s := qs.foldl (fun s q =>
          let k := x.key e.cls h.sliced q
          let old := if cur = 0 then startTile s p d h acc (r0 + q) j0 else s.tile k
          s.setTile k (if h.sliced then smmtBlock s p a b h masked (r0 + q) j0 cur old else mmtBlock s p a b h masked (r0 + q) j0 cur old)) s
        if cur + 1 < h.units then s
        else
          let s := qs.foldl (fun s q => writeBlock s p x.core a b d h acc (s.tile (x.key e.cls h.sliced q)) (r0 + q) j0) s
          (freeTile s e.cls x).updTile p seq t fun y => { y with done := true, cursor := cur + 1, tiles := [], queue := none }
    | _, _ => s

/-! ### The sequencer -/

/-- Units of an operation (Table 02.3). -/
def spinUnits (s : State) : SKind → Nat
  | .mmp _ g _ _ _ _ _ _ _ => g
  | .mms _ _ _ _ _ sl _ _ => (slicePairs sl).length
  | .tile p seq _ => match s.entryOf p seq with
    | some e => match matTask e with
      | some (h, _, _) => h.units
      | none => 1
    | none => 1
  | _ => 1

def State.updSpin (s : State) (age : Nat) (f : SpinOp → SpinOp) : State :=
  match s.spin.get? age with
  | some x => { s with spin := s.spin.set age (f x) }
  | none => s

/-- A fault of an ACC.SPILL is held for its BWAIT (R292, R357). -/
def spillFault (s : State) (age p core : Nat) (f : CFail) : State :=
  let s := match f.walk with
    | some w => xlRecord s p core 5 f.addr w
    | none => s
  s.updSpin age fun x => { x with fault := some { code := f.code, addr := f.addr, core } }

/-- The row blocks of an MMP's K-group in ascending order, each with its mask entry. -/
def mmpGroup (s : State) (cid core : Nat) (c : Crew) (a g b m planes : Nat) (af : AFmt) (bf : BFmt) (tiles : List Nat) (cur : Nat)
    (es : Nat → Nat) : State :=
  (List.range m).foldl (fun s r => mmpBlock s cid core c a g b planes af bf cur r ((tiles[r]?).getD 0) (es r)) s

/-- What unit cur of a team's operation reads of its window: address, bytes (R294 to R297). -/
def SKind.windowReads (k : SKind) (cur : Nat) : List (Nat × Nat) :=
  match k with
  | .mmp a g b m _ af bf _ _ =>
    (b + 4096 * cur * bf.bytes, 4096 * bf.bytes) :: (List.range m).map fun r => (a + (r * g + cur) * af.record, af.record)
  | .mms a ea b eb g sl _ _ => match (slicePairs sl)[cur]? with
    | some (t, u) => [(a + (t - 1) * g * 256, 256 * g), (ea, 32), (b + (u - 1) * (16 * g) * 256, 4096 * g), (eb, 512)]
    | none => []
  | .load pair _ a => [(a, if pair then 32768 else 16384)]
  | .out _ _ _ rs cs _ _ _ _ => (if rs = 0xFFFFFFFF then [] else [(rs, 64)]) ++ if cs = 0xFFFFFFFF then [] else [(cs, 1024)]
  | _ => []

/-- An ACC.SPILL of a mirrored crew waits for its shadow's signature (R384). -/
def SpinOp.unsigned (x : SpinOp) (c : Crew) : Bool := !c.shadow.isEmpty && !x.matched

/-- One unit of an operation; none while its mask queue holds too few entries, or an ACC.SPILL has no signature (R85, R291, R384). -/
def spinUnit (s : State) (age : Nat) (x : SpinOp) : Option State :=
  let cid := x.cid.getD 0
  match x.kind with
  | .tile p seq t => some (tileUnit s p seq t x.cursor)
  | _ => match s.crews.get? cid with
    | none => some s
    | some c =>
      if !s.poisonWin.isEmpty && (x.kind.windowReads x.cursor).any fun r => rangePoisoned s (.window cid) r.1 r.2 then
        some (match x.tid with
          | some tid => loseTeam s tid (lostIn s cid (x.kind.windowReads x.cursor))
          | none => s)
      else match x.kind with
      | .mmp a g b m planes af bf q tiles => match q with
        | none => some (mmpGroup s cid x.core c a g b m planes af bf tiles x.cursor fun _ => 2 ^ 256 - 1)
        | some q => (popQueue s (c.queueAt x.core q) m).map fun r =>
            mmpGroup r.2 cid x.core c a g b m planes af bf tiles x.cursor fun k => (r.1[k]?).getD 0
      | .mms a ea b eb g sl d w => some (mmsPair s cid x.core c a ea b eb g sl d w x.cursor)
      | .zero pair d => some (accZero s x.core c pair d)
      | .load pair d a => some (accLoad s cid x.core c pair d a)
      | .move pair d a => some (accMove s x.core c pair d a)
      | .spill pair d va =>
        if x.unsigned c then none
        else match accSpill (s.asking x.since) c.part x.core c pair d va with
        | .error (f, s') => some (spillFault s' age c.part x.core f)
        | .ok s' => some s'
      | .out pair d a rs cs q fmt ovf rm => match q with
        | none => some (accOut s cid x.core c pair d a rs cs fmt ovf rm none)
        | some q => (popQueue s (c.queueAt x.core q) 16).map fun r => accOut r.2 cid x.core c pair d a rs cs fmt ovf rm (some r.1)
      | .tile _ _ _ => some s

/-- A unit is done: the cursor moves, and a completed operation leaves unless a fault is still to be reported. -/
def spinAdvance (s : State) (age : Nat) : State :=
  match s.spin.get? age with
  | none => s
  | some x =>
    if x.cursor + 1 < spinUnits s x.kind then s.updSpin age fun x => { x with cursor := x.cursor + 1 }
    else if x.fault.isSome then s.updSpin age fun x => { x with cursor := x.cursor + 1, done := true }
    else { s with spin := s.spin.erase age }

/-- The operation met an uncorrectable error, and its task or its team stops with the cursor where it is (R54, R339, Table 24.1). -/
def SpinOp.struck (s : State) (x : SpinOp) : Bool :=
  match x.kind with
  | .tile p seq _ => match s.entryOf p seq with
    | some e => e.status.isFaulted
    | none => true
  | _ => match x.tid.bind s.teams.get? with
    | some t => t.lost.isSome
    | none => false

/-- At most n units of an operation. -/
def spinRun (age : Nat) : Nat → State → State
  | 0, s => s
  | n + 1, s => match s.spin.get? age with
    | none => s
    | some x =>
      if x.done then s
      else match spinUnit s age x with
        | none => s
        | some s' => if x.struck s' then s' else spinRun age n (spinAdvance s' age)

/-- No tile of its owner on the core is spilled (R39). A tile of a task is owned under the number of its operation. -/
def tilesPresent (s : State) (age : Nat) (x : SpinOp) : Bool :=
  let owner := match x.cid with
    | some cid => 2 * cid
    | none => 2 * age + 1
  s.spilled.all fun (e : Nat × List Spilled) => !(e.1 / 32 == x.core && e.2.any fun y => y.owner == owner)

/-- An operation that the Spindle may run now: no stop or loss has reached it, and its tiles stand in the bank (R39, R41, Table 24.1). -/
def spinRuns (s : State) (age : Nat) (x : SpinOp) : Bool :=
  x.live s && tilesPresent s age x &&
  match x.kind with
  | .tile p _ _ => runs s p
  | _ => (x.team? s).any fun y => !y.1.stopped && y.1.lost.isNone && runs s y.2.part

/-- The runnable operations of a core. -/
def spinOps (s : State) (core : Nat) : List (Nat × SpinOp) := s.spin.filter fun e => e.2.core == core && spinRuns s e.1 e.2

/-- The highest class first, then the oldest (R39, R291). -/
def bestOp : List (Nat × SpinOp) → Option (Nat × SpinOp)
  | [] => none
  | x :: l => match bestOp l with
    | none => some x
    | some y => if x.2.cls < y.2.cls then some y else some x

/-- Units that an operation has still to run. -/
def unitsLeft (s : State) (x : SpinOp) : Nat := spinUnits s x.kind - x.cursor

/-- The operation that a core's Spindle has under way, while it may run (R39). -/
def underWay (s : State) (core : Nat) : Option (Nat × SpinOp) :=
  (s.spinNow.get? core).bind fun age => (spinOps s core).find? fun e => e.1 == age

/-- SPINDLE_OP_COMPLETE: the running operation goes on to its end, or until its queue is empty (R85, R291). -/
def spinComplete (s : State) (core : Nat) : State :=
  match bestOp (spinOps s core) with
  | none => s
  | some (age, x) => spinRun age (unitsLeft s x) { s with spinNow := s.spinNow.erase core }

def execSpindleOpComplete (core : Nat) (s : State) : Out := .next (spinComplete s core)

/-- SPINDLE_CLASS_PREEMPT: an operation that a higher class has overtaken stops at the end of the unit that is under way; one that none
has overtaken does some units, and is under way then (R39, R92). -/
def spinPreempt (s : State) (core units : Nat) : State :=
  match bestOp (spinOps s core) with
  | none => s
  | some (age, x) => match (underWay s core).filter fun e => e.2.cls < x.cls with
    | some (low, y) => spinRun low (min (min units 1) (unitsLeft s y)) { s with spinNow := s.spinNow.erase core }
    | none => spinRun age (min units (unitsLeft s x)) { s with spinNow := s.spinNow.set core age }

def execSpindleClassPreempt (core units : Nat) (s : State) : Out := .next (spinPreempt s core units)

/-- The end of a clock: a Spindle with work has an operation under way, which goes on until it stops (R39). -/
def spinStart (s : State) (core : Nat) : State :=
  match underWay s core, bestOp (spinOps s core) with
  | none, some (age, _) => { s with spinNow := s.spinNow.set core age }
  | _, _ => s

/-! ### Issue -/

/-- An operation reaches the Spindle of the team's core; an ACC form that accesses memory joins the open batch (R291, R292). -/
def submit (s : State) (x : Ctx) (kind : SKind) (joins : Bool) : State :=
  let s := if joins then s.updTeam x.tid fun t => { t with copyNo := t.copyNo + 1 } else s
  after { s with
    nextAge := s.nextAge + 1
    spin := s.spin.set s.nextAge
      { core := x.core, cls := x.crew.cls, tid := some x.tid, cid := some x.t.cid, pc := x.e.pc, since := s.clock, batch := if joins then x.t.sealed + 1 else 0
        no := if joins then x.t.copyNo + 1 else 0, kind } } x

/-- The checks of a Spindle form in their order, then its issue (R291, R362). -/
def spindleOp (s : State) (x : Ctx) (i : Instr) (checks : List (Bool × Trap)) (kind : SKind) (joins : Bool) : State :=
  onceFor s x <| match firstTrap checks with
    | some t => raise s x i t
    | none => submit s x kind joins

/-- The crew holds n tiles from d on (R108). -/
def tilesOk (x : Ctx) (d n : Nat) : Bool × Trap := (decide (d + n ≤ x.crew.tiles), { code := 0x0202 })

/-- The queue is the crew's (R115). -/
def queueOk (x : Ctx) (q : Option QReg) : Bool × Trap :=
  (match q with
    | none => true
    | some q => (queueOf x q).isSome, { code := 0x0602 })

/-- n bytes at an address lie in the window (R291). -/
def windowOk (x : Ctx) (a n : Nat) : Bool × Trap := inRange x .w a n

/-- MMP (R294). A K-group count above 32,768 has no code of its own; its records and its B block do not fit a window (R362). -/
def execMmp (c : Ctl) (d : TileNo) (a b : SReg) (q : QSel) (m1 : BitVec 4) (bf : BFmt) (af : AFmt) (planes : BitVec 4)
    (s : State) : Out :=
  core s (.mmp c d a b q m1 bf af planes) fun x =>
    let m := m1.toNat + 1
    let g := sBits x a 32 32
    let av := sBits x a 0 32
    let bv := sBits x b 0 32
    let p := planes.toNat
    spindleOp s x (.mmp c d a b q m1 bf af planes)
      [(decide (1 ≤ p ∧ p ≤ af.planes ∧ 1 ≤ g), { code := 0x0601 }), tilesOk x d.val m, queueOk x q.used,
       aligned av 32, aligned bv 32, windowOk x av (m * g * af.record), windowOk x bv (16 * g * 256 * bf.bytes)]
      (.mmp av g bv m p af bf (q.used.map Fin.val) ((List.range m).map fun r => d.val + r)) false

/-- MMS (R295). An odd working pair is tested at step 4, for participants (R362, Table 22.3; log 110). -/
def execMms (c : Ctl) (d : TileNo) (a b : SReg) (groups : BitVec 16) (w slices : BitVec 4) (s : State) : Out :=
  core s (.mms c d a b groups w slices) fun x =>
    let g := groups.toNat
    let sl := slices.toNat
    let av := sBits x a 0 32
    let ea := sBits x a 32 32
    let bv := sBits x b 0 32
    let eb := sBits x b 32 32
    spindleOp s x (.mms c d a b groups w slices)
      [(decide (1 ≤ sl ∧ sl ≤ 9 ∧ 1 ≤ g ∧ g ≤ 32768), { code := 0x0601 }),
       (decide (w.toNat % 2 = 0 ∧ w.toNat ≠ d.val), { code := 0x0102 }), tilesOk x d.val 2, tilesOk x w.toNat 2,
       aligned av 32, aligned ea 2, aligned bv 32, aligned eb 2,
       windowOk x av (sl * g * 256), windowOk x ea 32, windowOk x bv (sl * (16 * g) * 256), windowOk x eb 512]
      (.mms av ea bv eb g sl d.val w.toNat) false

/-- Tiles of an ACC form. -/
def accTiles (pair : Bool) : Nat := if pair then 2 else 1

/-- ACC.ZERO (R296). -/
def execAccZero (c : Ctl) (pair : Bool) (d : TileNo) (s : State) : Out :=
  core s (.accZero c pair d) fun x => spindleOp s x (.accZero c pair d) [tilesOk x d.val (accTiles pair)] (.zero pair d.val) false

/-- ACC.LOAD (R296). -/
def execAccLoad (c : Ctl) (pair : Bool) (d : TileNo) (a : SReg) (s : State) : Out :=
  core s (.accLoad c pair d a) fun x =>
    let av := sBits x a 0 32
    spindleOp s x (.accLoad c pair d a)
      [tilesOk x d.val (accTiles pair), aligned av 128, windowOk x av (16384 * accTiles pair)] (.load pair d.val av) true

/-- A vector of scales is aligned, or every scale is 1.0 (R297). -/
def scaleOk (a : Nat) : Bool × Trap := if a = 0xFFFFFFFF then (true, { code := 0x0303 }) else aligned a 4
def scaleIn (x : Ctx) (a n : Nat) : Bool × Trap := if a = 0xFFFFFFFF then (true, { code := 0x0301 }) else windowOk x a n

/-- ACC.OUT (R297). The output codes 14 and 15 are tested at step 4, for participants (R362, Table 22.3; log 110). -/
def execAccOut (c : Ctl) (pair : Bool) (d : TileNo) (a b : SReg) (q : QSel) (fmt : BitVec 4) (ovf : Bool) (rm : RM) (s : State) :
    Out :=
  core s (.accOut c pair d a b q fmt ovf rm) fun x =>
    let av := sBits x a 0 32
    let rs := sBits x b 0 32
    let cs := sBits x b 32 32
    spindleOp s x (.accOut c pair d a b q fmt ovf rm)
      [(decide (fmt.toNat ≤ 13), { code := 0x0102 }), tilesOk x d.val (accTiles pair), queueOk x q.used,
       aligned av 32, scaleOk rs, scaleOk cs,
       windowOk x av (4096 * fmtBytes (fmtOfCode fmt.toNat)), scaleIn x rs 64, scaleIn x cs 1024]
      (.out pair d.val av rs cs (q.used.map Fin.val) fmt.toNat ovf rm) true

/-- ACC.MOVE: TY gives source and destination one size, so the sizes of R296 never differ (log 18). -/
def execAccMove (c : Ctl) (pair : Bool) (d a : TileNo) (s : State) : Out :=
  core s (.accMove c pair d a) fun x =>
    spindleOp s x (.accMove c pair d a) [tilesOk x d.val (accTiles pair), tilesOk x a.val (accTiles pair)] (.move pair d.val a.val) false

/-- ACC.SPILL: its address is checked when the Spindle reaches it (R296, R357). -/
def execAccSpill (c : Ctl) (pair : Bool) (d : TileNo) (a : SReg) (s : State) : Out :=
  core s (.accSpill c pair d a) fun x =>
    spindleOp s x (.accSpill c pair d a) [tilesOk x d.val (accTiles pair)]
      (.spill pair d.val ((x.t.s a.val).toNat + 2 ^ 64 * (x.t.s (a.val + 1)).toNat)) true

/-- MQ.STAT (R298). -/
def execMqStat (c : Ctl) (d : SReg) (q : QReg) (s : State) : Out :=
  core s (.mqStat c d q) fun x =>
    onceFor s x <| match queueOf x q with
      | none => raise s x (.mqStat c d q) { code := 0x0602 }
      | some n => done s x (x.t.setS d.val (BitVec.ofNat 64 (s.mqs.getD (8 * x.core + n) []).length))

/-- MQ.FLUSH (R298). -/
def execMqFlush (c : Ctl) (q : QReg) (s : State) : Out :=
  core s (.mqFlush c q) fun x =>
    onceFor s x <| match queueOf x q with
      | none => raise s x (.mqFlush c q) { code := 0x0602 }
      | some n => done { s with mqs := s.mqs.erase (8 * x.core + n) } x x.t

end Sys2Proof.Machine
end

