-- ==== Sys2Proof/Machine/Tasks.lean ====
section
/-! DEFINITION. Issue of tasks, the tiler, waits, completion and retirement (03, 14, R58 to R66, R141, R158, R167, R307, R315, R316, R319, R320, R329, R371). -/

namespace Sys2Proof

/-- A task that decides slots (Table 03.2). -/
def Instr.decidesSlots : Instr → Bool
  | .sopen _ _ | .srule _ _ _ _ _ _ | .saccept _ _ _ _ _ _ | .sclose _ _ => true
  | _ => false
/-- A Slot Unit task (R141). -/
def Instr.usesSlots (i : Instr) : Bool :=
  i.decidesSlots || match i with
    | .skv _ _ _ | .spublish _ _ | .scount _ _ _ | .kvcompact _ _ _ _ _ => true
    | _ => false
def Instr.isSpublish : Instr → Bool
  | .spublish _ _ => true
  | _ => false
def Instr.isSwait : Instr → Bool
  | .swait _ _ _ _ _ => true
  | _ => false
def Instr.isRedt : Instr → Bool
  | .redt _ _ _ => true
  | _ => false
def Instr.isLaunch : Instr → Bool
  | .launch _ _ _ _ _ => true
  | _ => false
def Instr.isScount : Instr → Bool
  | .scount _ _ _ => true
  | _ => false

end Sys2Proof

namespace Sys2Proof.Machine

/-! ### Dependences (Table 03.2) -/

/-- The entry has completed without fault; an entry that no engine runs always has (R46, R66). -/
def WinEntry.ok (e : WinEntry) : Bool := e.status == .completed || !e.insn.isTask
/-- It has completed, with or without a fault. -/
def WinEntry.finished (e : WinEntry) : Bool := e.ok || e.status.isFaulted

/-- The hull of an area, as its first and last 512-byte units (R58). -/
def Area.hull (a : Area) : Nat × Nat := (a.base / 512, (a.base + a.len + 511) / 512)

/-- Two areas share a byte of their hulls, and one of them writes (R58). -/
def Area.conflicts (a b : Area) : Bool :=
  a.len != 0 && b.len != 0 && (a.write || b.write) && a.hull.1 < b.hull.2 && b.hull.1 < a.hull.2

/-- An outward task; those of the Slot Unit that have no effect on memory are not, whatever areas they declare (R59, R318). -/
def WinEntry.outward (e : WinEntry) : Bool :=
  match e.insn with
  | .spublish _ _ | .ssignal _ _ _ _ | .skv _ _ _ | .qsend _ _ _ _ | .qrecv _ _ _ _ | .kvcompact _ _ _ _ _ => true
  | .sopen _ _ | .srule _ _ _ _ _ _ | .saccept _ _ _ _ _ _ | .sclose _ _ | .scount _ _ _ => false
  | _ => e.areas.any fun a => a.write && a.len != 0

/-- D is written in place (R54). -/
def WinEntry.inPlace (e : WinEntry) : Bool := e.d.isSome && e.fresh.isNone

/-- Physical buffers that a task reads (R53, R54, R156). -/
def WinEntry.reads (e : WinEntry) : List Nat :=
  e.a.toList ++ e.b.toList ++ (if e.inPlace then e.d.toList else []) ++ (match e.insn with
    | .kvcompact _ _ _ _ _ => e.prev.toList
    | _ => [])

/-- Y has to wait for an older entry O (Table 03.2, R316). -/
def waitsFor (y o : WinEntry) : Bool :=
  (o.d.any (fun b => y.reads.contains b) && !o.ok) ||
  (y.inPlace && y.d.any (fun b => o.reads.contains b) && !o.ok) ||
  (y.areas.any (fun a => o.areas.any a.conflicts) && !o.ok) ||
  (y.insn.usesSlots && o.insn.decidesSlots && !o.finished) ||
  (y.insn.isSpublish && o.insn.isSpublish && !o.finished) ||
  (y.outward && !o.ok) ||
  (o.insn.isSwait && !o.finished) ||
  y.insn.isScount ||
  (y.insn.isRedt && !o.finished) ||
  (o.insn.isRedt && (y.insn.isLaunch || y.insn.isRedt) && !o.finished)

def mayIssue (s : State) (p : Nat) (e : WinEntry) : Bool :=
  runs s p && e.status == .waiting && e.insn.isTask &&
  ((s.part p).window.filter fun o => o.seq < e.seq).all fun o => !waitsFor e o

/-! ### Accesses of the Task Window -/

/-- A fault of an access that the Task Window makes for a task (R337). -/
def windowFault (s : State) (p seq code : Nat) (addr : Option Nat := none) : State :=
  taskFault s p seq { code, engine := 0, core := 127, addr }

def windowAccess (s : State) (p seq : Nat) (f : CFail) : State :=
  let s := match f.walk with
    | some w => xlRecord s p (frontAgent p) 0 f.addr w
    | none => s
  windowFault s p seq f.code (some f.addr)

/-- An aligned read by the Task Window (R63, R307, R316). -/
def windowRead8 (s : State) (p seq va n : Nat) (k : State → Nat → State) : State :=
  if va % n ≠ 0 then windowFault s p seq 0x0303 (some va)
  else match globalRead s p (frontAgent p) (decide (n ≤ 8)) 2 va n with
    | .error (f, s') => windowAccess s' p seq f
    | .ok (s', v) => k s' v

/-! ### SWAIT -/

/-- The comparison of an SWAIT (R63, R320). -/
def waitHolds (cmp : WaitCmp) (wide : Bool) (k : FMap DWord) (kd v : Nat) : Bool :=
  let w := if wide then 64 else 32
  let x := Nat.land v (kBits k kd 0 w)
  let r := kBits k (kd + 1) 0 w
  match cmp with
  | .eq => x == r
  | .ne => x != r
  | .ge => decide (r ≤ x)
  | .lt => decide (x < r)

/-- One read of an SWAIT (R63). -/
def swaitRead (s : State) (p : Nat) (e : WinEntry) (cmp : WaitCmp) (wide : Bool) (a kd : Nat) : State :=
  windowRead8 s p e.seq (kPair e.k a) (if wide then 8 else 4) fun s v =>
    s.updEntry p e.seq fun y => { y with lastPoll := some s.clock, result := if waitHolds cmp wide e.k kd v then 1 else 0 }

/-- An SWAIT that has issued and is not yet satisfied. -/
def WinEntry.waits (e : WinEntry) : Bool := e.insn.isSwait && e.status == .issued && e.result == 0

/-- SWAIT_POLL: every 256 local cycles (R63). -/
def swaitPoll (s : State) (p seq : Nat) : State :=
  match s.entryOf p seq with
  | none => s
  | some e =>
    if runs s p && e.waits && e.lastPoll.all fun c => c + 256 ≤ s.clock then
      match e.insn with
      | .swait _ cmp wide a kd => swaitRead (s.asking (e.lastPoll.getD e.entered + 256)) p e cmp wide a.val kd.val
      | _ => s
    else s

def execSwaitPoll (p seq : Nat) (s : State) : Out := .next (swaitPoll s p seq)

/-- SWAIT_LIMIT_EXPIRY (R63). The limit counts from the issue, and clocks that pass while the partition is halted count (log 93). -/
def swaitExpiry (s : State) (p seq : Nat) : State :=
  match s.entryOf p seq with
  | none => s
  | some e => match e.insn with
    | .swait _ _ _ _ kd =>
      let lim := (kOf e.k (kd.val + 2)).toNat
      if runs s p && e.waits && lim ≠ 0 && e.since + lim ≤ s.clock then windowFault s p seq 0x0809 else s
    | _ => s

def execSwaitLimitExpiry (p seq : Nat) (s : State) : Out := .next (swaitExpiry s p seq)

/-! ### Token queues -/

/-- The queue is live, and the partition holds it in a role (R158, R167). -/
def queueHeld (s : State) (p q : Nat) (send : Bool) : Bool :=
  let d := s.qdef.getD q {}
  d.en && d.send != d.recv && (s.part d.send.toNat).state == .formed && (s.part d.recv.toNat).state == .formed &&
  (if send then d.send.toNat == p else d.recv.toNat == p) &&
  (s.part d.send.toNat).qconsent.getLsbD q && (s.part d.recv.toNat).qconsent.getLsbD q

def queueFault (s : State) (p seq code : Nat) (addr : Option Nat := none) : State :=
  taskFault s p seq { code, engine := 5, core := 127, addr }

def State.finish (s : State) (p seq : Nat) : State := s.updEntry p seq fun e => { e with status := .completed }

/-- QSEND, whole or not at all (R158). -/
def queueSend (s : State) (p : Nat) (e : WinEntry) (off q : Nat) : State :=
  if !queueHeld s p q true then queueFault s p e.seq 0x0830
  else
    let l := s.queues.getD q []
    if 64 ≤ l.length then s
    else match rangeFailure s p (.buf p) (2 ^ 26 * e.a.getD 0 + 64 * off) 64 with
      | some f => queueFault s p e.seq f.1 (some (failAddr (bufWindow + 2 ^ 26 * e.a.getD 0 + 64 * off) f))
      | none => ({ s with queues := s.queues.set q (l ++ [bufRead s p (e.a.getD 0) (64 * off) 64]) }).finish p e.seq

/-- QRECV, whole or not at all (R158); a message that was lost faults the QRECV that would take it (Table 24.1). -/
def queueReceive (s : State) (p : Nat) (e : WinEntry) (half : Bool) (q : Nat) : State :=
  if !queueHeld s p q false then queueFault s p e.seq 0x0830
  else if s.queueLost.getD q 0 ≠ 0 then
    queueFault { s with queueLost := if s.queueLost.getD q 0 = 1 then s.queueLost.erase q else s.queueLost.set q (s.queueLost.getD q 0 - 1) }
      p e.seq 0x0902
  else match s.queues.getD q [] with
    | [] => s
    | m :: l =>
      if m % 2 ≠ (if half then 1 else 0) then queueFault s p e.seq 0x0831
      else (bufWrite { s with queues := s.queues.set q l } p (e.d.getD 0) 0 64 m).finish p e.seq

/-! ### The tiler -/

/-- A core whose Spindle holds no work of a class or higher; a shadow's work is on its own core (R62, R329, R383). -/
def spindleFree (s : State) (core cls : Nat) : Bool :=
  s.spin.all fun (e : Nat × SpinOp) => !e.2.onCore s core || !e.2.live s || e.2.cls < cls

/-- The class of a tile's owner; none for a free tile. -/
def tileClass (s : State) (k : Nat) : Option Nat :=
  match s.tileOwner.get? k with
  | none => none
  | some o => if o % 2 = 0 then (s.crews.get? (o / 2)).map Crew.cls else (s.spin.get? (o / 2)).map SpinOp.cls

/-- What it takes to give a tile to work of a class: 0 for a free one, 1 for one that a lower class holds, 2 for any other (R39, R108). -/
def tileLevel (s : State) (cls k : Nat) : Nat :=
  if s.tileOwner.has k then (match tileClass s k with
    | some c => if c < cls then 1 else 2
    | none => 2)
  else 0

/-- The tiles of a class bank of a core, or its even-odd pairs, as lists (R12, R62). -/
def tileUnits (pairs : Bool) : List (List Nat) :=
  if pairs then (List.range 8).map fun t => [2 * t, 2 * t + 1] else (List.range 16).map fun t => [t]

/-- n tiles of a class bank of a core, in ascending order: free ones first, then held ones, which are spilled (R39, R62, R108). A crew
takes none that its own class or a higher one holds. A tile of a task takes them: its core is free at its class, and teams with no
Spindle work there do not affect it (log 74). -/
def chooseTiles (s : State) (core cls n : Nat) (pairs task : Bool) : Option (List Nat) :=
  let level := fun t => tileLevel s cls (tileKey core cls t)
  let ok := (tileUnits pairs).filter fun u => u.all fun t => task || level t < 2
  let l := (((List.range 5).flatMap fun v => ok.filter fun u => (u.map level).sum == v).flatMap id).take n
  if l.length = n then some ((List.range 16).filter l.contains) else none

/-- A tile is taken; what it held for its owner is spilled (R39). -/
def takeTile (s : State) (owner k : Nat) (t : Tile) : State :=
  let s := match s.tileOwner.get? k with
    | some o => { s with spilled := s.spilled.set k ({ owner := o, tile := s.tile k } :: s.spilled.getD k []) }
    | none => s
  { s with tileOwner := s.tileOwner.set k owner, tiles := s.tiles.set k t }

/-- A free queue of a core (R115). -/
def freeQueue (s : State) (core : Nat) : Option Nat := (List.range 8).find? fun q => !s.mqOwner.has (8 * core + q)

/-- A core that the tiler gives tiles of a class: free at it, and not retired (R62, R329). -/
def canTile (s : State) (core cls : Nat) : Bool := corePlaceable s core && spindleFree s core cls

/-- m of R62. -/
def tilerBlocks (h : MatShape) (cores : Nat) : Nat :=
  ((if h.sliced then [8, 4, 2, 1] else [16, 8, 4, 2, 1]).find? fun m => cores ≤ h.count m).getD 1

/-- Tile t is neither handed out nor written. -/
def WinEntry.unhanded (e : WinEntry) (t : Nat) : Bool :=
  match e.tiles.get? t with
  | none => true
  | some x => !x.done && x.tiles.isEmpty

/-- The free cores of a task's class. -/
def tileCores (s : State) (p : Nat) (e : WinEntry) : List Nat := (s.part p).cores.filter fun c => canTile s c e.cls

/-- The core that takes the next tile of a task: the first that became free while a tile waited, else the lowest free one that it does not
avoid, else the lowest free one (R62, R329, R381). -/
def tileCore (s : State) (p : Nat) (e : WinEntry) : Option Nat :=
  let l := tileCores s p e
  match l.find? fun c => e.firstFree == some c, l.find? fun c => !e.avoid.contains c with
  | some c, _ => some c
  | none, some c => some c
  | none, none => l.head?

/-- A task's tile waits for a core. -/
def WinEntry.tilesLeft (e : WinEntry) : Bool :=
  e.status == .issued && (matTask e).any fun h => (List.range (h.1.count e.mblocks)).any e.unhanded

/-- The end of a clock: a tile that finds no free core waits, and the first core that becomes free is noted; of several in one clock the
lowest, and one that the task avoids only when it is alone (R329, R381). -/
def awaitCore (s : State) (p : Nat) (e : WinEntry) : WinEntry :=
  if !e.tilesLeft then { e with tileWaits := false, firstFree := none }
  else
    let l := tileCores s p e
    if l.isEmpty then { e with tileWaits := true, firstFree := none }
    else if e.tileWaits && e.firstFree.all (!l.contains ·) then { e with firstFree := tileCore s p { e with firstFree := none } }
    else e

/-- TILE_DISPATCH: the lowest tile not yet handed out (R62, R329). A tile that was stopped goes on at its cursor (R54, R92). A masked
task's tile waits for a free queue of the core (R115). -/
def tileDispatch (s : State) (p seq : Nat) : State :=
  match s.entryOf p seq with
  | none => s
  | some e => match matTask e with
    | none => s
    | some (h, masked, _) =>
      if !runs s p || e.status != .issued then s
      else match (List.range (h.count e.mblocks)).find? e.unhanded with
        | none => s
        | some t =>
          let n := if h.sliced then 2 * e.mblocks else e.mblocks
          match tileCore s p e with
          | none => s
          | some core => match chooseTiles s core e.cls n h.sliced true, masked && (freeQueue s core).isNone with
            | some l, false =>
              let old := (e.tiles.get? t).getD { core, tiles := [], queue := none }
              let age := s.nextAge
              let q := if masked then freeQueue s core else none
              let s := l.zipIdx.foldl (fun s x => takeTile s (2 * age + 1) (tileKey core e.cls x.1) ((old.saved[x.2]?).getD {})) s
              let s := match q with
                | some n => { s with mqOwner := s.mqOwner.set (8 * core + n) (2 * age + 1) }
                | none => s
              ({ s with
                nextAge := age + 1
                spin := s.spin.set age { core, cls := e.cls, tid := none, cid := none, kind := .tile p seq t, cursor := old.cursor } }).updEntry p seq
                fun e => { e with tiles := e.tiles.set t { core, tiles := l, queue := q }, tileWaits := false, firstFree := none }
            | _, _ => s

def execTileDispatch (p seq : Nat) (s : State) : Out := .next (tileDispatch s p seq)

/-! ### Issue -/

/-- MMT and SMMT issue with their tiling; one re-run under ACC keeps it, with its cursors (R54, R62, R339). -/
def issueMat (s : State) (p : Nat) (e : WinEntry) : State :=
  match matTask e with
  | none => s
  | some (h, _, acc) =>
    let cores := ((s.part p).cores.filter fun c => canTile s c e.cls).length
    let keeps := acc && !e.tiles.isEmpty
    s.issued p e.seq fun y => if keeps then y else { y with mblocks := tilerBlocks h cores, tiles := [] }

/-- COPYT: a copy that goes on at the progress offset, which lies at most 3 bytes before a multiple of 4,096 (R315; log 90). -/
def issueCopyt (s : State) (p : Nat) (e : WinEntry) (dbuf abuf : Bool) (kd : Nat) : State :=
  let h := copyShape e.k kd
  let s := s.issued p e.seq id
  { s with
    nextAge := s.nextAge + 1
    copies := s.copies.set s.nextAge {
      owner := .task p e.seq, core := none, part := p
      src := if abuf then .buf p (e.a.getD 0) h.src else .g h.src
      dst := if dbuf then .buf p (e.d.getD 0) h.dst else .g h.dst
      kind := if h.plane then .plane h.fmt h.stride h.k h.m else .copy h.count
      since := s.clock
      started := (e.progress + 3) / 4096 } }

/-- REDT: the descriptor, its conditions, and the tree (R316). Routers of the tree begin anew. -/
def issueRedt (s : State) (p : Nat) (e : WinEntry) (a t : Nat) : State :=
  windowRead8 s p e.seq (kPair e.k a) 128 fun s v =>
    let desc := (List.range 128).map (leByte v)
    if treeOk s p desc then
      (s.updPart p fun x => { x with
        trees := x.trees.set t desc
        routers := x.routers.filter fun (r : Nat × Router) => r.1 / 128 != t }).issued p e.seq id
    else windowFault s p e.seq 0x0813

/-- SSIGNAL: translation and alignment; the write waits for its retirement (R64, R320). -/
def issueSsignal (s : State) (p : Nat) (e : WinEntry) (a : Nat) (wide : Bool) : State :=
  let va := kPair e.k a
  let n := if wide then 8 else 4
  if va % n ≠ 0 then windowFault s p e.seq 0x0303 (some va)
  else match touch s p (frontAgent p) va { write := true, plain := true, bytes := n } with
    | .error (f, s') => windowAccess s' p e.seq ⟨f.code, va, some f⟩
    | .ok (s', _) => s'.issued p e.seq fun e => { e with since := s.clock }

/-- A task issues (R58 to R64). -/
def issueTask (s : State) (p : Nat) (e : WinEntry) : State :=
  match e.insn with
  | .kread _ _ a wide =>
    windowRead8 s p e.seq (kPair e.k a.val) (if wide then 8 else 4) fun s v => s.issued p e.seq fun e => { e with result := v }
  | .launch _ _ _ _ _ => s.issued p e.seq id
  | .mmt _ _ _ _ _ _ _ | .smmt _ _ _ _ _ _ _ => issueMat s p e
  | .copyt _ _ d a kd => issueCopyt s p e d.isSome a.isSome kd.val
  | .redt _ a t => issueRedt s p e a.val t.toNat
  | .maskgen _ _ _ kd => issueMaskgen s p e kd.val
  | .kvcompact _ _ _ _ kd => issueKvcompact s p e kd.val
  | .sopen _ kd => issueSopen s p e kd.val
  | .srule _ img _ _ _ kd => issueSrule s p e img kd.val
  | .saccept _ img _ _ _ kd => issueSaccept s p e img kd.val
  | .skv _ _ kd => issueSkv s p e kd.val
  | .spublish _ _ => issueSpublish s p e
  | .sclose _ _ => issueSclose s p e
  | .scount _ _ _ => issueScount s p e
  | .qsend _ _ _ q => if queueHeld s p q.toNat true then s.issued p e.seq id else queueFault s p e.seq 0x0830
  | .qrecv _ _ _ q => if queueHeld s p q.toNat false then s.issued p e.seq id else queueFault s p e.seq 0x0830
  | .ssignal _ a _ wide => issueSsignal s p e a.val wide
  | .swait _ cmp wide a kd =>
    swaitRead (s.issued p e.seq fun e => { e with since := s.clock, result := 0 }) p e cmp wide a.val kd.val
  | _ => s

/-- TASK_ISSUE (R58 to R61). -/
def execTaskIssue (p seq : Nat) (s : State) : Out :=
  .next (match s.entryOf p seq with
    | some e => if mayIssue s p e then issueTask (s.asking e.entered) p e else s
    | none => s)

/-! ### Completion and retirement -/

/-- No copy of a task is left. -/
def copiesDone (s : State) (p seq : Nat) : Bool := s.copies.all fun (e : Nat × Copy) => e.2.owner != .task p seq

/-- TASK_COMPLETE (R62, R66, R150, R158, R312). -/
def taskComplete (s : State) (p seq : Nat) : State :=
  match s.entryOf p seq with
  | none => s
  | some e =>
    if e.status != .issued || (s.part p).twState != .running then s
    else
      let done := fun (b : Bool) => if b then s.finish p seq else s
      match e.insn with
      | .launch _ _ _ _ kd => done (e.ended == (launchShape e.k kd.val).ncrew)
      | .mmt _ _ _ _ _ _ _ | .smmt _ _ _ _ _ _ _ => (match matTask e with
        | some (h, _, _) => done ((List.range (h.count e.mblocks)).all fun t => (e.tiles.get? t).any TileRun.done)
        | none => s)
      | .copyt _ _ _ _ _ | .skv _ _ _ | .kvcompact _ _ _ _ _ => done (copiesDone s p seq)
      | .spublish _ _ =>
        let v := slotView s p seq
        done (match v.blocks.get? (blockOf e) with
          | some b => (nextRecord v (blockOf e) b).isNone
          | none => true)
      | .qsend _ _ off q => if runs s p then queueSend s p e off.toNat q.toNat else s
      | .qrecv _ _ half q => if runs s p then queueReceive s p e half q.toNat else s
      | .swait _ _ _ _ _ => done (e.result == 1)
      | _ => done true

def execTaskComplete (p seq : Nat) (s : State) : Out := .next (taskComplete s p seq)

/-- The log of errors with no requester (R371). -/
def logIo (x : Part) (code engine : Nat) : Part :=
  { x with iolog := {
      valid := true
      count := if x.iolog.count = 0xFFFF then 0xFFFF else x.iolog.count + 1
      engine := BitVec.ofNat 3 engine, code := BitVec.ofNat 16 code } }

/-- The pending transitions and KV bits of a task enter the table (R60, R148, R149, R156). -/
def applySlots (x : Part) (e : WinEntry) : Part :=
  let v : SlotView := { slots := x.slots, blocks := x.blocks }
  let v := match e.pend with
    | some q => q.apply v
    | none => v
  let base := blockOf e
  let v := if e.kvSlots.isEmpty then v else v.setKv base e.kvSlots
  { x with slots := v.slots
           blocks := match v.blocks.get? base with
             | some b => if e.kvSlots.isEmpty then v.blocks else v.blocks.set base { b with kvCount := b.kvCount + e.kvSlots.length }
             | none => v.blocks }

/-- An SSIGNAL's write that went out through a port can still fail there (R371). -/
def signalled (s s' : State) (p va n v : Nat) : State :=
  match resolve s' p (frontAgent p) va { write := true, plain := true, bytes := n } with
  | .ok o => if o.store = .host || !o.store.outside then s' else s'.updPart p fun x => { x with
      ssig := x.ssig ++ [{ addr := va, len := n, pa := if o.store = .cxl then some o.addr else none
                           old := s.load o.store o.addr n, val := v, since := s.clock, mark := s'.cxlLog.length }] }
  | .error _ => s'

/-- The free lists at formation (R51). -/
def Part.pool (x : Part) : FMap (List Nat) :=
  (List.range 12).map fun c => (c, (List.range (x.poolCount c)).map (x.firstBuf c + ·))

/-- Steps 2 to 5 of a Function Level Reset (R163). -/
def Part.flr (x : Part) : Part :=
  { state := x.state, err := x.err, pcore0 := x.pcore0, pcore1 := x.pcore1, pcore2 := x.pcore2, pcore3 := x.pcore3
    direct := x.direct, size := x.size, base := x.base, ppool0 := x.ppool0, ppool1 := x.ppool1, ppool2 := x.ppool2
    cxlShare := x.cxlShare, meshShare := x.meshShare, pcxl := x.pcxl, windows := x.windows, ideKey := x.ideKey, ideFail := x.ideFail
    lode := x.lode, bufs := x.bufs, free := x.pool, nextSeq := x.nextSeq, nextLaunch := x.launchTop, launchTop := x.launchTop, msix := x.msix
    endorsed := x.endorsed }

/-- What the retirement of an instruction does beyond the window (R49, R64, R66). A Function Level Reset that waits goes on with its
pre-emption behind an SHALT (R163). -/
def retireEffect (s : State) (p : Nat) (e : WinEntry) : State :=
  match e.insn with
  | .kread _ d _ _ | .scount _ d _ => s.updPart p fun x => { x with k := x.k.set d.val (BitVec.ofNat 64 e.result) }
  | .ssignal _ a b wide =>
    let n := if wide then 8 else 4
    (match globalWrite (s.asking e.entered) p (frontAgent p) true 2 (kPair e.k a.val) n ((kOf e.k b.val).toNat % 2 ^ (8 * n)) with
      | .ok s' => signalled s s' p (kPair e.k a.val) n ((kOf e.k b.val).toNat % 2 ^ (8 * n))
      | .error (f, s') => s'.updPart p fun x => logIo x f.code 7)
  | .shalt => s.updPart p fun x => { x with
      twState := .halted, pc := e.next, fblock := none, shaltPassed := false, msix := x.msix + 1
      preempted := x.preempted || x.haltReq, haltReq := x.flrReq, acks := if x.flrReq then x.acks else [] }
  | _ => s

/-- An SSIGNAL's write is a release at system scope: it waits for the completions of earlier ones, and of every write that what precedes
it in the stream can have seen, whoever performed it (R64, R122, R138). -/
def retireWaits (s : State) (p : Nat) (e : WinEntry) : Bool :=
  match e.insn with
  | .ssignal _ _ _ _ => !(s.part p).ssig.isEmpty || seenWrites s e.since
  | _ => false

/-- TASK_RETIRE: the oldest entry, once it has completed without fault (R51, R53, R60, R66). -/
def taskRetire (s : State) (p : Nat) : State :=
  let x := s.part p
  match x.window with
  | [] => s
  | e :: es =>
    if x.twState == .running && e.ok && !retireWaits s p e then
      let s := s.updPart p fun x => applySlots { x with window := es } e
      let s := match e.prev with
        | some b => s.updPart p fun x => x.giveTail b
        | none => s
      retireEffect s p e
    else s

def execTaskRetire (p : Nat) (s : State) : Out := .next (taskRetire s p)

end Sys2Proof.Machine
end

