-- ==== Sys2Proof/Machine/Crews.lean ====
section
/-! DEFINITION. Placing, pre-empting, resuming and ending crews; exchange of teams; arrival of results (02, 21, 23, R24 to R31, R39 to R43, R105 to R108, R115, R214, R268, R340, R354, R368, R369, R381). -/

namespace Sys2Proof.Machine

/-! ### Room (R24, R26, R27, R105, R108, R115) -/

def isPlaced (s : State) (t : Team) : Bool :=
  match s.crews.get? t.cid with
  | some c => c.placed
  | none => false

/-- The quarter of a team's shadow (R383). -/
def shadowOf (s : State) (t : Team) : Option Nat :=
  match s.crews.get? t.cid with
  | some c => c.shadow[t.num]?
  | none => none

/-- Teams and shadows that a quarter holds. -/
def quarterLoad (s : State) (q : Nat) : List Team :=
  (s.teams.map Prod.snd).flatMap fun t =>
    if isPlaced s t then (if t.quarter = q then [t] else []) ++ (if shadowOf s t = some q then [t] else []) else []

/-- Words of a quarter's register file that a team takes (R26). -/
def Team.words (t : Team) : Nat := t.lc * t.nregs

/-- Teams of a shape that a quarter can still hold (R26, R27). -/
def quarterRoom (s : State) (q words : Nat) : Nat :=
  min (32 - (quarterLoad s q).length) ((65536 - ((quarterLoad s q).map Team.words).sum) / words)

/-- Bytes of the segment of one of a list of cores. -/
def segmentOn (cores : List Nat) (size core : Nat) : Nat :=
  match cores.findIdx? (· == core) with
  | some k => (segment size cores.length k).2
  | none => 0

/-- The cores of listed quarters, ascending. -/
def coresOf (qs : List Nat) : List Nat := (List.range Config.cores).filter fun c => qs.any fun q => q / 4 == c

/-- Scratchpad bytes of a core under the windows of placed crews and of their shadows (R105, R383). -/
def scratchUsed (s : State) (core : Nat) : Nat :=
  (s.crews.map fun (e : Nat × Crew) =>
    if e.2.placed then segmentOn e.2.cores e.2.winBytes core + segmentOn (coresOf e.2.shadow) e.2.winBytes core else 0).sum

/-- What a crew needs. -/
structure Need where
  part : Nat
  cls : Nat
  /-- Teams, and words of a quarter for each. -/
  teams : Nat
  words : Nat
  ncores : Nat
  win : Nat
  tiles : Nat
  queues : Nat
  mirror : Bool
  deriving DecidableEq, Repr

def freeQueues (s : State) (core : Nat) : List Nat := (List.range 8).filter fun q => !s.mqOwner.has (8 * core + q)

def rising : List Nat → Bool
  | a :: b :: l => a < b && rising (b :: l)
  | _ => true

/-- Member cores, and quarters of them, that have room for one copy of a crew. -/
def roomOn (s : State) (n : Need) (cores quarters : List Nat) : Bool :=
  rising cores &&
  (cores.all fun c => (s.part n.part).hasCore c && corePlaceable s c && scratchUsed s c + segmentOn cores n.win c ≤ Config.scratchBytes &&
    (chooseTiles s c n.cls n.tiles false false).isSome && n.queues ≤ (freeQueues s c).length) &&
  quarters.all fun q => cores.contains (q / 4) && quarters.count q ≤ quarterRoom s q n.words

/-- Cores, quarters and shadow quarters that a crew can be placed on (R24, R31, R383). Entries of shadow beyond the teams only name
member cores of the shadow. -/
def canPlace (s : State) (n : Need) (cores quarters shadow : List Nat) : Bool :=
  cores.length == n.ncores && quarters.length == n.teams && roomOn s n cores quarters &&
  if n.mirror then
    let far := coresOf shadow
    far.length == n.ncores && (far.all fun c => !cores.contains c) && n.teams ≤ shadow.length &&
    roomOn s n far (shadow.take n.teams) && (quarters.zip shadow).all fun q => q.1 / 4 < q.2 / 4
  else shadow.isEmpty

/-- The sublists of n elements. -/
def combos : Nat → List Nat → List (List Nat)
  | 0, _ => [[]]
  | _ + 1, [] => []
  | n + 1, x :: xs => (combos n xs).map (x :: ·) ++ combos (n + 1) xs

/-- Quarters of cores for the teams, from the lowest up. -/
def spread (s : State) (n : Need) (cores : List Nat) : List Nat :=
  (cores.flatMap fun c => (List.range 4).flatMap fun j => List.replicate (quarterRoom s (4 * c + j) n.words) (4 * c + j)).take n.teams

/-- Teams of a shape that a core can still hold. -/
def coreRoom (s : State) (n : Need) (c : Nat) : Nat := ((List.range 4).map fun j => quarterRoom s (4 * c + j) n.words).sum

/-- How many teams find a leader's place on cores a and a shadow's on cores b, each on a core above its leader's (R383): going up the
cores, the places of leaders still without a shadow, and the pairs. -/
def pairRoom (s : State) (n : Need) (a b : List Nat) : Nat :=
  ((List.range Config.cores).foldl (fun (x : Nat × Nat) c =>
    if b.contains c then (x.1 - coreRoom s n c, x.2 + min x.1 (coreRoom s n c))
    else if a.contains c then (x.1 + coreRoom s n c, x.2)
    else x) (0, 0)).2

/-- A crew fits on admitted cores of its partition. -/
def fits (s : State) (n : Need) (allowed : Nat → Bool) : Bool :=
  let cs := (s.part n.part).cores.filter allowed
  (combos n.ncores cs).any fun a =>
    if n.mirror then roomOn s n a [] && (combos n.ncores (cs.filter fun c => !a.contains c)).any fun b =>
      roomOn s n b [] && n.teams ≤ pairRoom s n a b
    else canPlace s n a (spread s n a) []

/-- What the crews of a LAUNCH need. -/
def needOf (p : Nat) (e : WinEntry) (h : LaunchShape) : Need where
  part := p
  cls := e.cls
  teams := h.teams
  words := roundLanes h.lanes * h.regs
  ncores := coresNeeded h.teams h.lanes h.regs
  win := h.win
  tiles := h.tiles
  queues := h.queues
  mirror := h.mirror

/-- The shape of a LAUNCH in the window. -/
def launchOfEntry (e : WinEntry) : Option (LaunchShape × Nat) :=
  match e.insn with
  | .launch _ _ _ _ kd => some (launchShape e.k kd.val, kd.val)
  | _ => none

/-! ### Tiles and queues of a crew -/

/-- Tiles and queues of a core are reserved; their contents are unknown (R108, R115). -/
def reserveOn (s : State) (cid cls tiles queues core : Nat) : State :=
  let ts := (chooseTiles s core cls tiles false false).getD []
  let qs := (freeQueues s core).take queues
  let s := ts.foldl (fun s t => { takeTile s (2 * cid) (tileKey core cls t) { free := some s.fresh } with fresh := s.fresh + 1 }) s
  let s := qs.foldl (fun s q => { s with mqOwner := s.mqOwner.set (8 * core + q) (2 * cid) }) s
  s.updCrew cid fun c => { c with tileMap := c.tileMap.set core ts, queueMap := c.queueMap.set core qs }

/-- What an owner's tile holds, spilled or not (R39). -/
def tileNow (s : State) (owner k : Nat) : Tile :=
  match (s.spilled.getD k []).find? fun (x : Spilled) => x.owner == owner with
  | some x => x.tile
  | none => s.tile k

/-- An owner gives a tile up (R39, R108). -/
def giveUpTile (s : State) (owner k : Nat) : State :=
  let l := s.spilled.getD k []
  if l.any fun (x : Spilled) => x.owner == owner then
    let l' := l.filter fun (x : Spilled) => x.owner != owner
    { s with spilled := if l'.isEmpty then s.spilled.erase k else s.spilled.set k l' }
  else releaseTile s k

/-- The tiles, queues and tags of a placed crew come free. -/
def releaseCrew (s : State) (cid : Nat) (c : Crew) : State :=
  let s := c.tileMap.foldl (fun (s : State) (e : Nat × List Nat) => e.2.foldl (fun s t => giveUpTile s (2 * cid) (tileKey e.1 c.cls t)) s) s
  let s := c.queueMap.foldl (fun (s : State) (e : Nat × List Nat) => e.2.foldl (fun s q => releaseQueue s (8 * e.1 + q)) s) s
  { s with tags := s.tags.filter fun (e : Nat × Tag) => e.2.cid != cid }

/-- A crew leaves the device. -/
def endCrew (s : State) (cid : Nat) : State :=
  match s.crews.get? cid with
  | none => s
  | some c => { releaseCrew s cid c with crews := (releaseCrew s cid c).crews.erase cid }

/-- What a team leaves behind: its entry keeps that it performed an atomic (R381). -/
def leaveBehind (s : State) (tid : Nat) : State :=
  s.onTeam tid fun t c => if t.didAtomic then s.updEntry c.part c.seq fun e => { e with didAtomic := true } else s

/-- A team leaves the device, with its copies and its Spindle operations. -/
def dropTeam (s : State) (tid : Nat) : State :=
  let s := leaveBehind s tid
  { s with
    teams := s.teams.erase tid
    copies := s.copies.filter fun (e : Nat × Copy) => match e.2.owner with
      | .team t _ _ => t != tid
      | .task _ _ => true
    spin := s.spin.filter fun (e : Nat × SpinOp) => e.2.tid != some tid }

/-! ### Placement -/

/-- A buffer-window address, bits 63:0; 0 where no buffer is bound (R104, R206). -/
def windowAddress (b : Option Nat) : DWord :=
  match b with
  | some n => BitVec.ofNat 64 (bufWindow + 2 ^ 26 * n)
  | none => 0

/-- Teams of the active set of a quarter. -/
def activeCount (s : State) (q : Nat) : Nat :=
  (s.teams.filter fun (e : Nat × Team) => e.2.quarter == q && e.2.active && isPlaced s e.2).length

/-- A team as a LAUNCH starts it (R23, R25, R311, R312). -/
def newTeam (e : WinEntry) (h : LaunchShape) (kd cid crew num q order clock : Nat) (active : Bool) : Team where
  cid := cid
  num := num
  quarter := q
  active := active
  order := order
  nlanes := h.lanes
  nregs := h.regs
  sregs := (List.range h.scalars).map fun n => (n, kOf e.k (kd + 8 + n))
  entries := [{ ins := 0, pc := ⟨BitVec.ofNat 80 h.entry, 0⟩, mask := maskBelow h.lanes }]
  nextIns := 1
  stkbase := BitVec.ofNat 64 (h.stack + (crew * h.teams + num) * h.sstride)
  stklim := BitVec.ofNat 64 (h.stack + (crew * h.teams + num) * h.sstride + h.sstride)
  tsave := BitVec.ofNat 64 (h.tsave + (crew * h.teams + num) * h.tstride)
  tvec := BitVec.ofNat 64 h.tvec
  bufd := windowAddress e.d
  bufa := windowAddress e.a
  bufb := windowAddress e.b
  enteredAt := clock
  readAt := some clock

/-- The slice whose count begins as a team of a partition enters an active set (R30, Table 02.5). -/
def sliceAt (s : State) (p : Nat) (active : Bool) : Nat := if active then (s.part p).tslice.toNat else 0

def addTeam (s : State) (p : Nat) (e : WinEntry) (h : LaunchShape) (kd cid crew : Nat) (x : Nat × Nat) : State :=
  let a := decide (activeCount s x.1 < 8)
  { s with
    nextTid := s.nextTid + 1
    nextAge := s.nextAge + 1
    teams := s.teams.set s.nextTid { newTeam e h kd cid crew x.2 x.1 s.nextAge s.clock a with slice := sliceAt s p a } }

/-- The cores of a mirrored crew's copies are noted (R385). -/
def WinEntry.haveRun (e : WinEntry) (num : Nat) (cores shadow : List Nat) : WinEntry :=
  if shadow.isEmpty then e else { e with ran := e.ran.set num (e.ran.getD num [] ++ cores ++ coresOf shadow) }

/-- The clock at which each core first has a crew since device reset: its counter runs by then (R45; log 2). -/
def State.startCores (s : State) (cores : List Nat) : State :=
  { s with firstWork := cores.foldl (fun m c =>
      let k := (s.coreStatOf c).phys.toNat
      if m.has k then m else m.set k s.clock) s.firstWork }

/-- The crew that is next in turn is placed (R24, R31, R105, R108, R115). The start of a team is an acquire (R110). -/
def placeCrew (s : State) (p : Nat) (e : WinEntry) (h : LaunchShape) (kd : Nat) (cores quarters shadow : List Nat) : State :=
  let cid := s.nextCid
  let crew : Crew := {
    part := p, seq := e.seq, num := e.placed, launch := e.launch, cls := e.cls, nteams := h.teams, ncrew := h.ncrew, cores
    winBytes := h.win, tiles := h.tiles, shadow }
  let s := { s.startCores (cores ++ coresOf shadow) with nextCid := cid + 1, crews := s.crews.set cid crew }
  let s := (cores ++ coresOf shadow).foldl (reserveOn · cid e.cls h.tiles h.queues) s
  let s := quarters.zipIdx.foldl (fun s x => addTeam s p e h kd cid e.placed x) s
  (((coresOf quarters).foldl State.stale s).updEntry p e.seq fun e => { e with placed := e.placed + 1 }).updEntry p e.seq
    (WinEntry.haveRun · e.placed cores shadow)

/-- The cores that a crew of a LAUNCH keeps off, by its number, whatever room they have: after a mismatch those that ran either copy of
it, where the partition has others enough (R385; log 100). -/
def keepsOff (s : State) (n : Need) (e : WinEntry) (num : Nat) : List Nat :=
  let ran := e.apart.getD num []
  if ((s.part n.part).cores.filter fun c => corePlaceable s c && !ran.contains c).length < 2 * n.ncores then [] else ran

/-- The cores that a crew of a LAUNCH may take: of those it need not keep off, those that a re-run does not avoid, unless it finds no room
there (R381, R385). -/
def admits (s : State) (n : Need) (e : WinEntry) (num : Nat) : Nat → Bool :=
  let off := keepsOff s n e num
  if fits s n fun c => !off.contains c && !e.avoid.contains c then fun c => !off.contains c && !e.avoid.contains c
  else fun c => !off.contains c

/-- CREW_PLACE (R31). -/
def execCrewPlace (p seq : Nat) (cores quarters shadow : List Nat) (s : State) : Out :=
  .next (match s.entryOf p seq with
    | none => s
    | some e => match launchOfEntry e with
      | none => s
      | some (h, kd) =>
        let n := needOf p e h
        if runs s p && e.status == .issued && e.placed < h.ncrew && canPlace s n cores quarters shadow &&
            (cores ++ coresOf shadow).all (admits s n e e.placed) then
          placeCrew s p e h kd cores quarters shadow
        else s)

/-! ### Pre-emption and resumption -/

/-- The team can stop here: its writes are performed, and it is halted, or out of its handler with nothing left to be re-injected (R41,
R42, R126, R270, R352, R372). -/
def canStop (t : Team) : Bool :=
  t.hostAtomic.isNone && !outstanding t && (t.halted || (!t.handler && t.portFail.isNone && t.replay.isEmpty))

/-- A team stops at an instruction boundary: its producers go to the replay queue (Table 02.3). -/
def stopTeam (t : Team) : Team :=
  let t := drainAtoms t
  { t with replay := replaysOf t, producers := [], sig := .idle, stopped := true }

/-- The member cores of a crew, each with its number. -/
def Crew.members (c : Crew) : List (Nat × Nat) := c.cores.zipIdx

/-- The cores that may hold tags of a crew, each with its number: the members, and from 128 on those of its shadow (R106, R383). -/
def Crew.tagCores (c : Crew) : List (Nat × Nat) := c.members ++ (coresOf c.shadow).zipIdx 128

/-- The core of a saved tag of such a number, on new cores. -/
def tagHome (cores shadow : List Nat) (x : Nat) : Nat :=
  let k := x / 4096
  4096 * (if k < 128 then (cores[k]?).getD 0 else ((coresOf shadow)[k - 128]?).getD 0) + x % 4096

/-- The partition of a team. -/
def partOf (s : State) (t : Team) : Nat :=
  match s.crews.get? t.cid with
  | some c => c.part
  | none => 0

/-- A pre-empted crew gives its place up, and keeps what it held (R43, R107, R109, R115). -/
def unplaceCrew (s : State) (cid : Nat) : State :=
  match s.crews.get? cid with
  | none => s
  | some c =>
    let tags := c.tagCores.flatMap fun m => (s.tags.filter fun (e : Nat × Tag) => e.1 / 4096 == m.1 && e.2.cid == cid).map
      fun (e : Nat × Tag) => (4096 * m.2 + e.1 % 4096, e.2.tag, e.2.slot)
    let tiles := c.members.flatMap fun m => (c.tileMap.getD m.1 []).zipIdx.map fun t =>
      (16 * m.2 + t.2, tileNow s (2 * cid) (tileKey m.1 c.cls t.1))
    let queues := c.members.flatMap fun m => (c.queueMap.getD m.1 []).zipIdx.map fun q => (8 * m.2 + q.2, s.mqs.getD (8 * m.1 + q.1) [])
    let s := releaseCrew s cid c
    let s := s.setCrew cid { c with
      placed := false, preempt := false, tileMap := [], queueMap := [], savedTags := tags, savedTiles := tiles, savedQueues := queues }
    { s with teams := s.teams.map fun (e : Nat × Team) => if e.2.cid = cid then (e.1, { e.2 with active := false }) else e }

/-- The teams of a crew. -/
def teamsOf (s : State) (cid : Nat) : List (Nat × Team) := s.teams.filter fun (e : Nat × Team) => e.2.cid == cid

/-- A copy of a team of the crew has a chunk in flight. -/
def crewFlies (s : State) (cid : Nat) : Bool :=
  s.copies.any fun (e : Nat × Copy) => !e.2.flight.isEmpty && match e.2.owner with
    | .team t _ _ => (teamsOf s cid).any fun x => x.1 == t
    | .task _ _ => false

/-- Every engine that holds work of the crew has stopped (R41). -/
def crewStopped (s : State) (cid : Nat) : Bool := ((teamsOf s cid).all fun x => x.2.stopped) && !crewFlies s cid

/-- Crews under a class pre-emption that have stopped give their places up (R40). -/
def unplaceStopped (s : State) (p : Nat) : State :=
  s.crews.keys.foldl (fun s cid => match s.crews.get? cid with
    | some c => if c.part = p && c.placed && c.preempt && crewStopped s cid then unplaceCrew s cid else s
    | none => s) s

/-- The first sublist, fewest elements first, that satisfies a condition. -/
def fewest (l : List Nat) (f : List Nat → Bool) : Option (List Nat) :=
  (List.range (l.length + 1)).findSome? fun n => (combos n l).find? f

/-- Crews of a partition that a class pre-emption may still mark, below a class. -/
def victims (s : State) (p cls : Nat) : List (Nat × Crew) :=
  s.crews.filter fun (e : Nat × Crew) => e.2.part == p && e.2.placed && !e.2.preempt && e.2.cls < cls

/-- CLASS_PREEMPT: the next crew of a LAUNCH finds no room, and crews of the lowest class below its own are pre-empted, as few as
let it fit; when even all of them do not, all are (R40). -/
def classPreempt (s : State) (p seq : Nat) : State :=
  match s.entryOf p seq with
  | none => s
  | some e => match launchOfEntry e with
    | none => s
    | some (h, _) =>
      let n := needOf p e h
      let marked := (s.crews.filter fun (x : Nat × Crew) => x.2.part == p && x.2.placed && x.2.preempt).map Prod.fst
      let fitsWithout := fun (l : List Nat) =>
        let s' := (marked ++ l).foldl unplaceCrew s
        fits s' n (admits s' n e e.placed)
      if !runs s p || e.status != .issued || h.ncrew ≤ e.placed || fitsWithout [] then s
      else
        let vs := victims s p e.cls
        let low := (vs.map fun (x : Nat × Crew) => x.2.cls).foldl min e.cls
        let l := (vs.filter fun (x : Nat × Crew) => x.2.cls == low).map Prod.fst
        ((fewest l fitsWithout).getD l).foldl (fun s cid => s.updCrew cid fun c => { c with preempt := true }) s

def execClassPreempt (p seq : Nat) (s : State) : Out := .next (classPreempt s p seq)

/-- Everything a team issued has completed (R214, R353). -/
def teamQuiet (s : State) (tid : Nat) (t : Team) : Bool :=
  t.entries.isEmpty && t.hostAtomic.isNone && !outstanding t &&
  (s.copies.all fun (e : Nat × Copy) => match e.2.owner with
    | .team n _ _ => n != tid || !e.2.busy
    | .task _ _ => true) &&
  s.spin.all fun (e : Nat × SpinOp) => e.2.tid != some tid || e.2.done

/-- A pre-empted crew waits for room: its LAUNCH wants its results, or a team of it ended by itself with work of its that has still to
complete (R40, R353). -/
def waitsForRoom (s : State) (cid : Nat) (c : Crew) : Bool :=
  !c.placed && (wanted s c || (teamsOf s cid).any fun x => !x.2.cut && x.2.entries.isEmpty && !teamQuiet s x.1 x.2)

/-- Another crew of the launch with a lower number waits for room (R40). -/
def earlierWaits (s : State) (c : Crew) : Bool :=
  s.crews.any fun (e : Nat × Crew) => e.2.part == c.part && e.2.seq == c.seq && e.2.num < c.num && waitsForRoom s e.1 e.2

/-- Team n's place on the new cores answers to its place on the old ones (R43). -/
def samePlace (old new : List Nat) (q q' : Nat) : Bool := old.findIdx? (· == q / 4) == new.findIdx? (· == q' / 4)

/-- A failed write is reported before the first instruction on resume, but for one of a spill; it stays until it has been (R357, R370). -/
def reportOnResume (t : Team) : Team :=
  match t.portFail, t.writes.find? fun (w : Nat × OutWrite) => w.2.failed.isSome && !w.2.spill with
  | none, some (n, w) => { t with portFail := some { code := w.failed.getD 0, lane := 0, addr := w.addr, write := some n } }
  | _, _ => t

/-- The copies of an owner reach a Hoist again, in their order, and take their age from then (R279). -/
def reage (s : State) (own : COwner → Bool) (core : Option Nat) : State :=
  s.copies.foldl (fun s' (e : Nat × Copy) =>
    if own e.2.owner then
      { s' with nextAge := s'.nextAge + 1, copies := (s'.copies.erase e.1).set s'.nextAge { e.2 with core } }
    else s') s

def COwner.isTeam (tid : Nat) : COwner → Bool
  | .team n _ _ => n == tid
  | .task _ _ => false

def COwner.isTask (p : Nat) : COwner → Bool
  | .team _ _ _ => false
  | .task q _ => q == p

/-- A team resumes on a quarter (R27, R43, R354). -/
def resumeTeam (s : State) (tid q : Nat) : State :=
  match s.teams.get? tid with
  | none => s
  | some t =>
    let a := decide (activeCount s q < 8)
    let t' := reportOnResume { t with
      quarter := q, stopped := false, migr := t.migr || q != t.quarter, active := a, order := s.nextAge, slice := sliceAt s (partOf s t) a
      lastIssue := if q = t.quarter then t.lastIssue else [], enteredAt := s.clock, readyAt := none, blockedUntil := 0
      readAt := some s.clock }
    let s := reage { s with nextAge := s.nextAge + 1, teams := s.teams.set tid t' } (COwner.isTeam tid) (some (q / 4))
    { s with
      spin := s.spin.map fun (e : Nat × SpinOp) => if e.2.tid = some tid then (e.1, { e.2 with core := q / 4 }) else e }

/-- Mask queues that a crew has on each member core. -/
def Crew.nqueues (s : State) (c : Crew) : Nat :=
  match (launchOf s c).bind launchOfEntry with
  | some (h, _) => h.queues
  | none => 0

/-- The tags, tiles and queues of a crew come back on its new cores (R43, R107, R115). -/
def restoreCrew (s : State) (cid : Nat) (c : Crew) (cores shadow : List Nat) : State :=
  let s := s.setCrew cid { c with placed := true, cores, shadow, savedTags := [], savedTiles := [], savedQueues := [] }
  let s := (cores ++ coresOf shadow).foldl (reserveOn · cid c.cls c.tiles (c.nqueues s)) s
  match s.crews.get? cid with
  | none => s
  | some d =>
    let s := cores.zipIdx.foldl (fun s m =>
      let s := (d.tileMap.getD m.1 []).zipIdx.foldl (fun s t => match c.savedTiles.get? (16 * m.2 + t.2) with
        | some x => s.setTile (tileKey m.1 c.cls t.1) x
        | none => s) s
      (d.queueMap.getD m.1 []).zipIdx.foldl (fun (s : State) q =>
        { s with mqs := s.mqs.set (8 * m.1 + q.1) (c.savedQueues.getD (8 * m.2 + q.2) []) }) s) s
    { s with tags := c.savedTags.foldl (fun (m : FMap Tag) x =>
        m.set (tagHome cores shadow x.1) ⟨x.2.1, x.2.2, cid⟩) s.tags }

/-- CREW_RESUME: the new cores, and a quarter for each team number, then for each shadow (R40, R43, R107, R354, R385). A resume is an acquire at
partition scope (R110, R126). -/
def crewResume (s : State) (cid : Nat) (cores quarters : List Nat) : State :=
  match s.crews.get? cid with
  | none => s
  | some c =>
    let lead := quarters.take c.nteams
    let shadow := quarters.drop c.nteams
    let live := teamsOf s cid
    let at_ := fun (t : Team) => (lead[t.num]?).getD 0
    let n : Need := {
      part := c.part, cls := c.cls, teams := live.length, words := ((live.map fun x => x.2.words).foldl max 1), ncores := c.cores.length
      win := c.winBytes, tiles := c.tiles, queues := c.nqueues s, mirror := !c.shadow.isEmpty }
    if runs s c.part && waitsForRoom s cid c && !earlierWaits s c && lead.length == c.nteams &&
        canPlace s n cores (live.map fun x => at_ x.2) (if c.shadow.isEmpty then shadow else live.filterMap (fun x => shadow[x.2.num]?) ++ shadow) &&
        (live.all fun x => samePlace c.cores cores x.2.quarter (at_ x.2)) &&
        (c.savedTags.all fun x => !s.tags.has (tagHome cores shadow x.1)) &&
        (s.entryOf c.part c.seq).all fun e => (cores ++ coresOf shadow).all (admits s n e c.num) then
      ((coresOf (live.map fun x => at_ x.2)).foldl State.stale
        (live.foldl (fun s x => resumeTeam s x.1 (at_ x.2)) ((restoreCrew s cid c cores shadow).startCores (cores ++ coresOf shadow)))).updEntry c.part c.seq
        (WinEntry.haveRun · c.num cores shadow)
    else s

def execCrewResume (cid : Nat) (cores quarters : List Nat) (s : State) : Out := .next (crewResume s cid cores quarters)

/-! ### Exchange -/

/-- A ready pending team of a quarter. -/
def pendingReady (s : State) (q : Nat) : List (Nat × Team) :=
  (residents s q).filter fun (e : Nat × Team) => !e.2.active && isPlaced s e.2 && isReady s e.1 e.2

/-- Ready longest (R29); of two ready equally long, the one placed earlier, which is the model's choice (log 120). -/
def readyBefore (s : State) (a b : Team) : Bool :=
  let x := a.readyAt.getD s.clock
  let y := b.readyAt.getD s.clock
  if x ≠ y then x < y else a.order < b.order

def firstReady (s : State) : List (Nat × Team) → Option (Nat × Team)
  | [] => none
  | x :: l => match firstReady s l with
    | none => some x
    | some y => if readyBefore s y.2 x.2 then some y else some x

/-- A pending team takes a place of the active set, which issues nothing for 4 clocks (R29). -/
def admitTeam (s : State) (tid : Nat) : State :=
  s.updTeam tid fun t => { t with
    active := true, enteredAt := s.clock, slice := sliceAt s (partOf s t) true, blockedUntil := s.clock + 4 }

/-- The team that leaves joins the pending set as one that has just become ready (R30). -/
def retireTeam (s : State) (tid : Nat) : State := s.updTeam tid fun t => { t with
  active := false, slice := 0, readyAt := t.readyAt.map fun _ => s.clock }

/-- An active team cannot issue for one of the reasons of R29, R217, R222, R258 and R288. -/
def isBlocked (s : State) (tid : Nat) (t : Team) : Bool :=
  !isReady s tid t &&
  (t.halted || (!t.entries.isEmpty && t.entries.all fun e => e.hold != .none) ||
    match nextWord t, t.entry? with
    | some w, some e => match coreDecode (BitVec.ofNat 96 w) with
      | .error _ => false
      | .ok i => (match i with
          | .bwait _ _ | .barWait _ _ _ | .barWaitout _ _ | .nredWait _ _ _ _ | .barArrive _ _ _ | .barArrivex _ _ _ _ => true
          | _ => false) || match i.form with
          | some f => (f.sources (t.once == some e.ins)).any fun x => !x.1 && t.emptyOf e.mask x.2
          | none => false
    | _, _ => false)

/-- TEAM_EXCHANGE (R29): of a blocked active team, or into a place that an ended team left. -/
def teamExchange (s : State) (q tid : Nat) : State :=
  match firstReady s (pendingReady s q) with
  | none => s
  | some (n, _) => match s.teams.get? tid with
    | some t =>
      if t.quarter = q && t.active && isPlaced s t && isBlocked s tid t then admitTeam (retireTeam s tid) n else s
    | none => if activeCount s q < 8 then admitTeam s n else s

def execTeamExchange (quarter tid : Nat) (s : State) : Out := .next (teamExchange s quarter tid)

/-- The highest class among teams. -/
def topClass (s : State) (l : List (Nat × Team)) : Nat := (l.map fun (e : Nat × Team) => classOf s e.2).foldl max 0

/-- TIME_SLICE_EXPIRY, by the LIMIT with which the team's count began (R30, Table 02.5; log 95). -/
def timeSlice (s : State) (tid : Nat) : State :=
  s.onTeam tid fun t c =>
    let lim := t.slice
    if lim = 0 || (s.part c.part).tslice = 0 || !t.active || !c.placed || t.handler || t.hostAtomic.isSome || s.clock < t.enteredAt + 256 * lim then s
    else
      let l := (pendingReady s t.quarter).filter fun e => c.cls ≤ classOf s e.2
      match firstReady s (l.filter fun e => classOf s e.2 == topClass s l) with
      | none => s.setTeam tid { t with enteredAt := s.clock, slice := sliceAt s c.part true }
      | some (n, _) => admitTeam (retireTeam s tid) n

def execTimeSliceExpiry (tid : Nat) (s : State) : Out := .next (timeSlice s tid)

/-! ### The work of a task ends -/

/-- The operation of a tile stops: its cursor and its accumulators are kept in the window entry, and its tiles come free (R54, R92,
R335). -/
def parkTile (s : State) (age : Nat) (x : SpinOp) : State :=
  match x.kind with
  | .tile p seq t => match s.entryOf p seq with
    | none => s
    | some e => match e.tiles.get? t with
      | none => s
      | some r =>
        let owner := 2 * age + 1
        let saved := r.tiles.map fun n => tileNow s owner (tileKey r.core e.cls n)
        let s := r.tiles.foldl (fun s n => giveUpTile s owner (tileKey r.core e.cls n)) s
        let s := match r.queue with
          | some q => releaseQueue s (8 * r.core + q)
          | none => s
        s.updTile p seq t fun y => { y with cursor := x.cursor, saved, tiles := [], queue := none }
  | _ => s

def SKind.ofTask (k : SKind) (p seq : Nat) : Bool :=
  match k with
  | .tile q n _ => q == p && n == seq
  | _ => false

/-- No engine holds work of a task any more, but for its entry (R335, R336). -/
def stopTask (s : State) (p seq : Nat) : State :=
  let ops := s.spin.filter fun (e : Nat × SpinOp) => e.2.kind.ofTask p seq
  let offsets := (s.copies.filter fun (e : Nat × Copy) => e.2.owner == COwner.task p seq).map fun (e : Nat × Copy) => e.2.offset
  let s := ops.foldl (fun s (e : Nat × SpinOp) => parkTile s e.1 e.2) s
  let crews : FMap Crew := s.crews.filter fun (e : Nat × Crew) => e.2.part == p && e.2.seq == seq
  let tids := (s.teams.filter fun (e : Nat × Team) => crews.has e.2.cid).map Prod.fst
  let s := { s with
    spin := s.spin.filter fun (e : Nat × SpinOp) => !e.2.kind.ofTask p seq
    copies := s.copies.filter fun (e : Nat × Copy) => e.2.owner != COwner.task p seq }
  let s := offsets.foldl (fun s x => s.updEntry p seq fun e => { e with progress := x }) s
  crews.keys.foldl endCrew (tids.foldl dropTeam s)

/-- A service re-run of a task is allowed (R58, R381). -/
def mayRerun (s : State) (p : Nat) (e : WinEntry) : Bool :=
  e.reruns < 3 && !e.didAtomic &&
  (e.areas.all fun a => a.write || e.areas.all fun b => !b.write || !a.conflicts b) &&
  s.teams.all fun (x : Nat × Team) => !x.2.didAtomic || match s.crews.get? x.2.cid with
    | some c => !(c.part == p && c.seq == e.seq)
    | none => true

/-- The entry as Table 20.3 starts it again. -/
def WinEntry.again (e : WinEntry) : WinEntry :=
  let acc := match matTask e with
    | some (_, _, acc) => acc
    | none => false
  { e with
    status := .waiting, placed := 0, ended := 0, result := 0, pend := none, kvSlots := [], lastPoll := none, ran := [], tileWaits := false
    firstFree := none, mblocks := if acc then e.mblocks else 0, tiles := if acc then e.tiles else [] }

/-- Saturating addition of one. -/
def succSat (v : Word) : Word := if v = BitVec.allOnes 32 then v else v + 1

/-- A trap that a team took in this clock is discarded: its frame's bytes are as they were (R382). -/
def undoTrap (s : State) (tid : Nat) : State :=
  match (s.teams.get? tid).bind Team.undo with
  | some u =>
    if u.clock = s.clock then
      u.pages.foldl (fun s x => s.setMem x.1 ((s.memOf x.1).replace x.2.1 x.2.2.1 x.2.2.2)) s
    else s
  | none => s

/-- The task's fault is the double fault of a team in this clock, which its stop discards (R382). -/
def WinEntry.undone (e : WinEntry) (clock : Nat) (struck : Option Nat) : Bool :=
  match e.status with
  | .faulted f => f.trap.any fun x => x.2 == clock && some x.1 == struck
  | _ => false

/-- A service re-run, or, where R381 does not allow it, the task fault that prompted it (R380, R381). The team that Table 24.1 stops is
struck, and with it goes what it did in this clock (R382). -/
def serviceRerun (s : State) (p seq : Nat) (bad : List Nat) (struck : Option Nat) (f : TaskFault) : State :=
  match s.entryOf p seq with
  | none => s
  | some e =>
    if e.status.isFaulted && !e.undone s.clock struck then s
    else
      let s := match struck with
        | some tid => undoTrap s tid
        | none => s
      let s := s.updEntry p seq fun e => { e with status := .issued }
      if mayRerun s p e then
        ((stopTask s p seq).updEntry p seq fun e => { e.again with reruns := e.reruns + 1, avoid := bad, apart := [] }).updPart p
          fun x => { x with reruns := succSat x.reruns }
      else taskFault s p seq f

/-! ### Results -/

/-- The lowest failing lane of the first failed producer (R369). -/
def Team.failing (t : Team) : Option PortFail :=
  (t.producers.find? Producer.faulted).bind fun x => match x.bad with
    | [] => none
    | (l, code, addr) :: _ => some { code, lane := l, addr }

/-- A producer's lane has its answer; the producer leaves when none is owed (R344). -/
def Team.delivered (t : Team) (idx lane : Nat) : Team :=
  { t with producers := t.producers.zipIdx.filterMap fun (x : Producer × Nat) =>
      if x.2 = idx then
        let lm := match x.1.insn with
          | .lds _ _ _ _ _ _ _ => 0
          | _ => x.1.lm &&& ~~~laneBit lane
        if lm = 0 then none else some { x.1 with lm }
      else some x.1 }

/-- A lane of a producer fails at a port (R369). -/
def failLane (t : Team) (idx lane code addr : Nat) : Team :=
  let t := { t with producers := t.producers.zipIdx.map fun (x : Producer × Nat) =>
      if x.2 = idx then { x.1 with faulted := true, bad := x.1.bad.set lane (code, addr), vals := x.1.vals.erase lane } else x.1 }
  { t with portFail := t.failing }

/-- The value of a lane of a producer arrives (R268). -/
def deliver (s : State) (tid idx lane : Nat) (x : Producer) (v : Nat) : State :=
  s.updTeam tid fun t => (landed t x.insn lane v).delivered idx lane

/-- A producer's lane is answered with an uncorrectable line of memory, or of its core's window (R343, Table 24.1). -/
def loseRead (s : State) (tid : Nat) (t : Team) (c : Crew) (x : Producer) (addr : Nat) : State :=
  match x.insn.space with
  | .g => lineLost s tid 1 t.core (lineAddr addr)
  | .w => loseTeam s tid (lostIn s t.cid [(addr, 1)])
  | .l => loseTeam s tid (lostIn s t.cid [((c.seg t.core).1 + addr, 1)])

/-- RESULT_ARRIVE: of producer idx of a team for a lane, or of the host atomic that the team issues (R268, R368, R369, R372). -/
def resultArrive (s : State) (tid idx lane : Nat) : State :=
  s.onTeam tid fun t c =>
    match t.producers[idx]? with
    | none => match t.hostAtomic with
      | some h =>
        if pastLimit s c.part h.since then s else cutIfUnwanted (haltIfAsked (hostStep (s.asking h.since) tid) tid) tid
      | none => s
    | some x =>
      let key := match x.insn with
        | .lds _ _ _ _ _ _ _ => 0
        | _ => lane
      if !x.lm.getLsbD lane || (x.out.getLsbD key && pastLimit s c.part x.since) then s
      else match x.bad.get? key, x.vals.get? key with
        | some (code, addr), _ => if code = 0x0902 then loseRead s tid t c x addr else s.setTeam tid (failLane t idx key code addr)
        | none, some v => deliver s tid idx lane x v
        | none, none => s

def execResultArrive (tid idx lane : Nat) (s : State) : Out := .next (resultArrive s tid idx lane)

/-! ### End of a team -/

/-- The first fault of a team's copies that no wait has reported (R340). -/
def unreported (s : State) (tid : Nat) : Option CFault := (firstFaulty (faultyOf s tid (2 ^ 32))).map Faulty.fault

/-- TEAM_END (R23, R31, R214, R340). -/
def teamEnd (s : State) (tid : Nat) : State :=
  s.onTeam tid fun t c =>
    if !teamQuiet s tid t then s
    else
      let s' := match unreported s tid with
        | some f => launchFault s c f.core f.code (some f.addr) 3 0
        | none => s
      let s' := dropTeam s' tid
      if (teamsOf s' t.cid).isEmpty then (endCrew s' t.cid).updEntry c.part c.seq fun e => { e with ended := e.ended + 1 } else s'

def execTeamEnd (tid : Nat) (s : State) : Out := .next (teamEnd s tid)

end Sys2Proof.Machine
end

