-- ==== Sys2Proof/Machine/Stop.lean ====
section
/-! DEFINITION. How a stream stops and goes on: the fault record and the squash, resolutions, GO and HALT, the pre-emption of a partition and its Function Level Reset (02, 03, 08, 20, R41, R67, R163, R334 to R341, R352, R354). -/

namespace Sys2Proof.Machine

/-! ### The fault record (R337) -/

/-- Codes that may come with an address: those of R337, and 0x0902 and the double fault of a frame byte, which Tables 23.1 and 24.1 give
one. -/
def addrCode (code : Nat) : Bool :=
  code / 256 == 3 || code / 256 == 0x0A || code == 0x0104 || code == 0x0903 || code == 0x0106 || code == 0x0902 || code == 0x0815

def addrOf (code : Nat) (a : Option Nat) : VAddr := if addrCode code then BitVec.ofNat 80 (a.getD 0) else 0

/-- PROG: the progress of COPYT, the published count of SPUBLISH (Table 20.1). -/
def progOf (x : Part) (e : WinEntry) : Nat :=
  match e.insn with
  | .copyt _ _ _ _ _ => e.progress
  | .spublish _ _ => match x.blocks.get? (blockOf e) with
    | some b => b.published
    | none => 0
  | _ => 0

/-- Tasks that resume from a cursor (Table 20.3). -/
def WinEntry.resumes (e : WinEntry) : Bool :=
  match e.insn with
  | .copyt _ _ _ _ _ | .spublish _ _ => true
  | _ => match matTask e with
    | some (_, _, acc) => acc
    | none => false

/-- The record of a fault in a window entry. -/
def entryRecord (x : Part) (e : WinEntry) (f : TaskFault) : TwRecord where
  code := BitVec.ofNat 16 f.code
  op := BitVec.ofNat 8 ((encode e.insn).toNat % 256)
  cls := BitVec.ofNat 2 e.cls
  stage := true
  restart := e.resumes
  outward := e.outward
  addrv := addrCode f.code && f.addr.isSome
  core := BitVec.ofNat 7 (if f.engine = 0 || f.engine = 4 || f.engine = 5 then 127 else f.core)
  engine := BitVec.ofNat 3 f.engine
  detail := BitVec.ofNat 16 f.detail
  pc := e.pc
  addr := addrOf f.code f.addr
  prog := BitVec.ofNat 64 (progOf x e)

/-- The record of a fault at the front stage. -/
def frontRecord (f : FrontFault) : TwRecord where
  code := BitVec.ofNat 16 f.code
  op := BitVec.ofNat 8 f.op
  cls := BitVec.ofNat 2 f.cls
  core := 127
  addrv := addrCode f.code && f.addr.isSome
  pc := f.pc
  addr := addrOf f.code f.addr

/-- A team belongs to a task. -/
def ofTask (s : State) (p seq : Nat) (t : Team) : Bool :=
  match s.crews.get? t.cid with
  | some c => c.part == p && c.seq == seq
  | none => false

/-- The engines that hold work of a task have stopped it at their units; what a team issued before a double fault completes (R335, R353,
R354). A chunk that still waits for its shadow's signature is not sent (R384, R385; log 40). -/
def taskStopped (s : State) (p seq : Nat) (own : Bool) : Bool :=
  (s.copies.all fun (e : Nat × Copy) => (e.2.flight.keys.all fun j => chunkSigned s e.2 j) || match e.2.owner with
    | .task q n => !(q == p && n == seq)
    | .team tid _ _ => match s.teams.get? tid with
      | some t => !ofTask s p seq t
      | none => true) &&
  s.teams.all fun (e : Nat × Team) => !ofTask s p seq e.2 ||
    (e.2.hostAtomic.isNone && !outstanding e.2 && (!own || e.2.cut || teamQuiet s e.1 e.2))

/-- A fresh buffer returns to the head of its list (R51, R335). -/
def Part.takeBack (x : Part) (e : WinEntry) : Part :=
  match e.fresh with
  | some b => x.giveHead b
  | none => x

/-- Entries leave the window, the youngest first, with all their work (R335). -/
def squash (s : State) (p : Nat) (es : List WinEntry) : State :=
  es.foldr (fun e s => (stopTask s p e.seq).updPart p fun x => { x.takeBack e with window := x.window.filter fun y => y.seq != e.seq }) s

/-- STATE becomes faulted, with its record (R335, R337, R163). -/
def Part.faulted (x : Part) (r : TwRecord) : Part :=
  { x with twState := .faulted, rec_ := r, haltReq := false, acks := [], fblock := if x.ffault.isSome then x.fblock else none
           msix := x.msix + 1 }

/-- The stream state just after an entry passed the front stage (R335). -/
def Part.rewind (x : Part) (e : WinEntry) : Part :=
  { x with k := e.snap.k, calls := e.snap.calls, seed := e.snap.seed, det := e.snap.det, rename := e.snap.rename, areas := e.snap.areas
           pc := e.next, ffault := none, shaltPassed := false, nextLaunch := e.snap.launch }

/-- Every entry of a partition's window loses its work (R163). -/
def stopAll (s : State) (p : Nat) : State := (s.part p).window.foldl (fun s e => stopTask s p e.seq) s

/-- The reset of a partition that has stopped: BUSY reads 0 after it, so an invalidation under way is complete with it (R101, R163). -/
def flr (s : State) (p : Nat) : State :=
  let s := if (s.part p).xlinvBusy then invalidate s p else s
  (stopAll s p).updPart p Part.flr

/-- A Function Level Reset that waits for the partition to stop goes on: nothing of it runs any more (R163). -/
def resetIfAsked (s : State) (p : Nat) : State := if (s.part p).flrReq then flr s p else s

/-- The numbers of the partition's routers that have a reduction under way, which completes before they stop (R41, Table 02.3). -/
def busyRouters (s : State) (p : Nat) : List Nat := (s.part p).routers.keys.filter fun k => canFold s p (k / 128) (k % 128)

/-- FAULT_RECORD_WRITE: the oldest entry holds a fault, or the front stage does and the window is empty, and every engine has stopped
(R334 to R336). -/
def faultRecordWrite (s : State) (p : Nat) : State :=
  let x := s.part p
  if x.twState != .running || !(busyRouters s p).isEmpty then s
  else match x.window with
    | [] => match x.ffault with
      | some f => resetIfAsked (s.setPart p (x.faulted (frontRecord f))) p
      | none => s
    | e :: es => match e.status with
      | .faulted f =>
        if taskStopped s p e.seq true && es.all fun y => taskStopped s p y.seq false then
          resetIfAsked ((stopTask (squash s p es) p e.seq).updPart p fun y => (y.rewind e).faulted (entryRecord x e f)) p
        else s
      | _ => s

def execFaultRecordWrite (p : Nat) (s : State) : Out := .next (faultRecordWrite s p)

/-! ### Resolutions (R338 to R341) -/

/-- STATE becomes running; a write of GO puts the root in force (Table 05.4, R338). -/
def Part.runs (x : Part) : Part := { x with twState := .running, rootInForce := x.xlroot }

/-- Re-execute (R338 to R340). -/
def reexecute (s : State) (p : Nat) : State :=
  let x := s.part p
  if x.twState != .faulted then s
  else match x.window with
    | [] => s.setPart p { x.runs with ffault := none, fblock := none }
    | e :: es => match e.status with
      | .faulted f =>
        if f.code = 0x0814 || e.lost then s else s.setPart p { x.runs with window := e.again :: es }
      | _ => s

/-- The entry retires without further effect (R338). A block whose slots were lost is closed with it (Table 24.1). -/
def Part.discard (x : Part) (e : WinEntry) (es : List WinEntry) : Part :=
  let y := { x.takeBack e with window := es, areas := [] }
  let y := if e.lost && e.insn.usesSlots then { y with blocks := y.blocks.erase (blockOf e) } else y
  match e.fresh, e.arch with
  | some _, some a => { y with rename := match e.prev with
      | some b => y.rename.set a b
      | none => y.rename.erase a }
  | _, _ => y

/-- Skip (R338). -/
def skip (s : State) (p : Nat) : State :=
  let x := s.part p
  if x.twState != .faulted then s
  else match x.window with
    | e :: es => s.setPart p (x.discard e es).runs
    | [] => match x.ffault with
      | some f =>
        let y := { x.runs with ffault := none, areas := [] }
        s.setPart p (if f.block then y.goTo ⟨nextBlock x.pc.blk, 0⟩ else y.advance)
      | none => s

/-- Abandon (R338). The stream does not pass the squashed launches again, so their ids stay used (R25). -/
def abandon (s : State) (p : Nat) : State :=
  let x := s.part p
  if x.twState != .faulted then s
  else match x.window with
    | e :: es => s.setPart p { x.discard e es with pc := e.pc, fblock := none, twState := .idle, nextLaunch := x.launchTop }
    | [] => s.setPart p { x with ffault := none, fblock := none, areas := [], twState := .idle, nextLaunch := x.launchTop }

/-- The partition's function has registers (R162). -/
def isFormed (s : State) (p : Nat) : Bool := (s.part p).state == .formed

def execResolveReexecute (p : Nat) (s : State) : Out := .next (if isFormed s p then reexecute s p else s)
def execResolveSkip (p : Nat) (s : State) : Out := .next (if isFormed s p then skip s p else s)
def execResolveAbandon (p : Nat) (s : State) : Out := .next (if isFormed s p then abandon s p else s)

/-! ### GO, HALT and TWPC (R67, R302, R310) -/

/-- GO while STATE is idle or halted; a Function Level Reset under way leaves nothing to go on (R163). After a HALT with a passed SHALT in the window the front stage goes on behind it (log 96). The
task copies reach the Hoists again (R279). -/
def twGo (s : State) (p : Nat) : State :=
  let x := s.part p
  match x.twState with
  | .idle => s.setPart p { x.runs with
      preempted := false, k := [], calls := [], seed := 0, det := false, areas := [], fblock := none, ffault := none, shaltPassed := false }
  | .halted => if x.flrReq then s else (reage s (COwner.isTask p) none).setPart p { x.runs with preempted := false, fblock := none, shaltPassed := false }
  | _ => s

/-- HALT. -/
def twHalt (s : State) (p : Nat) : State :=
  let x := s.part p
  match x.twState with
  | .running => s.setPart p { x with haltReq := true }
  | .faulted => s
  | _ => s.setPart p { x with preempted := true }

def execTwctlGo (p : Nat) (s : State) : Out := .next (if isFormed s p then twGo s p else s)
def execTwctlHalt (p : Nat) (s : State) : Out := .next (if isFormed s p then twHalt s p else s)

/-- TWPC or TWPCH is written. A new PC leaves behind what the front stage met at the old one. -/
def writePC (x : Part) (high : Bool) (v : Nat) : Part :=
  let a := x.pc.blk.toNat
  let pc : PC :=
    if high then ⟨BitVec.ofNat 80 (a % 2 ^ 64 + 2 ^ 64 * (v % 65536)), x.pc.slot⟩
    else ⟨BitVec.ofNat 80 (v % 2 ^ 64 / 64 * 64 + 2 ^ 64 * (a / 2 ^ 64)), if v % 8 ≤ 4 then v % 8 else 0⟩
  { x with pc, fblock := none, ffault := none }

def twpcWrite (s : State) (p : Nat) (high : Bool) (v : Nat) : State :=
  let x := s.part p
  if x.twState = .idle || (x.twState = .halted && x.window.isEmpty) then s.setPart p (writePC x high v) else s

def execTwpcWrite (p : Nat) (high : Bool) (value : DWord) (s : State) : Out :=
  .next (if isFormed s p then twpcWrite s p high value.toNat else s)

/-- TWCTL is written (Table 03.7, R338). -/
def twctlWrite (s : State) (p v : Nat) : State :=
  let go := v % 2 == 1
  if (s.part p).twState = .faulted then
    if !go then s
    else match v / 4 % 4 with
      | 1 => reexecute s p
      | 2 => skip s p
      | 3 => abandon s p
      | _ => s
  else
    let s := if v / 2 % 2 = 1 then twHalt s p else s
    if go then twGo s p else s

/-! ### Pre-emption of a partition (R41, R42, R163, R352) -/

/-- Work of a partition that a Spindle holds. -/
def SpinOp.partOf (s : State) (x : SpinOp) : Option Nat :=
  match x.kind with
  | .tile p _ _ => some p
  | _ => match x.cid.bind s.crews.get? with
    | some c => some c.part
    | none => none

/-- The engines that hold work of a partition (R41, Table 02.3). -/
def holders (s : State) (p : Nat) : List Engine :=
  ((s.teams.filter fun (e : Nat × Team) => match s.crews.get? e.2.cid with
    | some c => c.part == p && c.placed
    | none => false).map fun (e : Nat × Team) => Engine.team e.1) ++
  ((List.range Config.cores).filter fun c => s.spin.any fun (e : Nat × SpinOp) => e.2.core == c && !e.2.done && e.2.partOf s == some p).map
    Engine.spindle ++
  ((List.range Config.cores).filter fun c => s.copies.any fun (e : Nat × Copy) =>
    e.2.part == p && (e.2.core == some c || e.2.flightCore.vals.contains c)).map Engine.hoist ++
  ((List.range Config.cores).filter fun c => (busyRouters s p).any fun k => k % 128 == c).map
    Engine.router ++
  (if (s.part p).window.any fun e => e.status == .issued && e.insn.usesSlots then [.slotUnit] else []) ++
  (if (s.part p).window.any fun e => e.status == .issued && match e.insn with
      | .qsend _ _ _ _ | .qrecv _ _ _ _ => true
      | _ => false then [.tokenQueue] else [])

/-- The engine has stopped; a router that holds a flit completes its reduction first (R41, Table 02.3). -/
def acked (s : State) (p : Nat) (e : Engine) : Bool :=
  match e with
  | .team tid => match s.teams.get? tid with
    | some t => t.stopped
    | none => true
  | .router _ => false
  | _ => (s.part p).acks.contains e

/-- Chunks of a partition's copies in flight on a Hoist. -/
def hoistFlies (s : State) (p core : Nat) : Bool := s.copies.any fun (e : Nat × Copy) => e.2.part == p && e.2.flightCore.vals.contains core

/-- ENGINE_PREEMPT_ACK: an engine stops at its unit (Table 02.3). The stop of a team is an acquire at partition scope (R110, R126). -/
def preemptAck (s : State) (p : Nat) (e : Engine) : State :=
  let asked := (s.part p).haltReq
  let ack := fun (s : State) => if asked then s.updPart p fun x => { x with acks := x.acks ++ [e] } else s
  unplaceStopped (match e with
    | .team tid => s.onTeam tid fun t c =>
      if c.part = p && c.placed && (asked || c.preempt) && canStop t && !t.stopped then
        ack ((s.setTeam tid (stopTeam (t.answered s c.part))).stale t.core)
      else s
    | .router _ => s
    | .hoist core => if hoistFlies s p core then s else ack s
    | .spindle _ | .slotUnit | .tokenQueue => ack s) p

def execEnginePreemptAck (p : Nat) (e : Engine) (s : State) : Out := .next (preemptAck s p e)

/-- PREEMPTION_COMPLETE: every engine that holds work of the partition has acknowledged (R41, R67). A service re-run starts again from the
beginning (R382). A Function Level Reset goes on from here, also behind an SHALT, which has entered halted and fired before (R163). -/
def preemptionComplete (s : State) (p : Nat) : State :=
  if (s.part p).haltReq && ((s.part p).twState == .running || (s.part p).flrReq) && (holders s p).all (acked s p) then
    let s := s.crews.keys.foldl (fun s cid => match s.crews.get? cid with
      | some c => if c.part = p && c.placed then unplaceCrew s cid else s
      | none => s) s
    let s := (s.part p).window.foldl (fun s e => if e.reruns ≠ 0 && e.status == .issued then
      (stopTask s p e.seq).updEntry p e.seq fun e => { e.again with progress := 0 } else s) s
    let reset := (s.part p).flrReq
    let s := s.updPart p fun x => { x with
      twState := .halted, preempted := true, haltReq := false, flrReq := false, acks := []
      msix := if x.twState = .halted then x.msix else x.msix + 1 }
    if reset then flr s p else s
  else s

def execPreemptionComplete (p : Nat) (s : State) : Out := .next (preemptionComplete s p)

/-- VF_FLR: the partition is pre-empted, and then reset (R163); one that runs nothing is reset at once. A partition that is not formed has
nothing to reset (R162). -/
def execVfFlr (p : Nat) (s : State) : Out :=
  .next (if !isFormed s p || (s.part p).flrReq then s
    else if (s.part p).twState = .running || ((s.part p).twState = .halted && !(holders s p).isEmpty) then
      s.updPart p fun x => { x with haltReq := true, flrReq := true }
    else flr s p)

end Sys2Proof.Machine
end

