-- ==== Sys2Proof/Machine/Ports.lean ====
section
/-! DEFINITION. Completions and failures at the ports, and the links (06, 08, 23, 24, R138, R171, R368 to R373, R376, R388, R389). -/

namespace Sys2Proof

/-- The code of a failed completion (R368). -/
def PortErr.code : PortErr → Nat
  | .unsupported | .abort => 0x0A01
  | .poison => 0x0A03

end Sys2Proof

namespace Sys2Proof.Machine

/-! ### Ports of requests -/

/-- The port through which a global address is reached (R102, R171). -/
def vaPort (s : State) (p core va : Nat) : Option Nat :=
  match resolve s p core va {} with
  | .ok o => portOf s p o.store o.addr
  | .error _ => none

/-- The CXL port of a line of pooled memory: that of a partition whose window holds it. -/
def linePort (s : State) (store n : Nat) : Option Nat :=
  if store = Store.host.code then some 12
  else if store = Store.cxl.code then (List.range Config.partitions).findSome? fun p => (s.part p).cxlPort (128 * n)
  else if 56 ≤ store && store < 64 then some (store - 43)
  else none

/-- The endpoint and the CXL ports record an error (R368; log 97). -/
def logAer (s : State) (port : Option Nat) (code : Nat) : State :=
  match port with
  | some n => if n ≤ 12 then { s with aer := s.aer.set (65536 * n + code) (s.aer.getD (65536 * n + code) 0 + 1) } else s
  | none => s

/-! ### Failures of requests -/

/-- A byte of pooled memory has been written again since a write was made (R119). -/
def OutWrite.rewritten (w : OutWrite) (s : State) (b : Nat) : Bool := (s.cxlLog.drop w.mark).any fun r => r.1 ≤ b && b < r.1 + r.2

/-- The aligned 8-byte parts of a failed write: each keeps the new value or takes the old one back (R370). What has been written again
since stays (R119). -/
def revertWrite (s : State) (w : OutWrite) : State :=
  match w.pa with
  | none => s
  | some a =>
    let back := (List.range w.len).filter fun j => Config.freeBit s.fresh ((a + j) / 8 - a / 8) && !w.rewritten s (a + j)
    { s with
      cxl := back.foldl (fun m j => m.write (a + j) 1 (w.old / 256 ^ j)) s.cxl
      fresh := s.fresh + 1 }

/-- The port of a write. -/
def writePort (s : State) (p core : Nat) (w : OutWrite) : Option Nat :=
  match w.pa with
  | some a => (s.part p).cxlPort a
  | none => vaPort s p core w.addr

/-- A write of a team fails; the first instruction that waits for it reports it (R370). -/
def failWrite (s : State) (tid idx code : Nat) : State :=
  s.onTeam tid fun t c =>
    match t.writes.get? idx with
    | none => s
    | some w =>
      if w.failed.isSome then s
      else logAer ((revertWrite s w).setTeam tid { t with writes := t.writes.set idx { w with failed := some code } })
        (writePort s c.part t.core w) code

/-- The global address of a lane of a producer. -/
def Producer.va (x : Producer) (lane : Nat) : Nat := x.base + (x.ops.getD lane {}).a

/-- Where a lane of a producer reads. -/
def producerSpot (s : State) (c : Crew) (core : Nat) (x : Producer) (lane : Nat) : Option XOk :=
  match resolve s c.part core (x.va lane) { read := true, plain := true, bytes := 1 } with
  | .ok o => some o
  | .error _ => none

/-- The port through which a lane of a producer reads. -/
def lanePort (s : State) (c : Crew) (core : Nat) (x : Producer) (lane : Nat) : Option Nat :=
  (producerSpot s c core x lane).bind fun o => portOf s c.part o.store o.addr

/-- A poisoned answer means a poisoned line, which stays so until it is written (R369). -/
def poisonLine (s : State) (o : Option XOk) : State :=
  match o with
  | some y => if y.store = .cxl && !s.poisonCxl.contains (y.addr / 128) then { s with poisonCxl := y.addr / 128 :: s.poisonCxl } else s
  | none => s

/-- The request of a lane ends: its read fails (R369). -/
def dropRead (s : State) (tid idx key code : Nat) : State :=
  s.onTeam tid fun t c =>
    match t.producers[idx]? with
    | none => s
    | some x =>
      let o := producerSpot s c t.core x key
      logAer ((if code = 0x0A03 then poisonLine s o else s).updTeam tid fun t => failLane t idx key code (x.va key))
        (lanePort s c t.core x key) code

/-- The read of a lane fails, before its limit or by it (R368, R369). -/
def failRead (s : State) (tid idx lane code : Nat) (timeout : Bool) : State :=
  s.onTeam tid fun t c =>
    match t.producers[idx]? with
    | none => s
    | some x =>
      let key := match x.insn with
        | .lds _ _ _ _ _ _ _ => 0
        | _ => lane
      if !x.lm.getLsbD lane || !x.out.getLsbD key || timeout != atLimit s c.part x.since then s
      else if code = 0x0A03 && (producerSpot s c t.core x key).all (fun y => y.store != .cxl) then s
      else dropRead s tid idx key code

/-- A task whose own read is due: at its issue, or while it polls (R371). -/
def taskReads (s : State) (p : Nat) (e : WinEntry) : Option (Nat × Nat) :=
  match e.insn with
  | .kread _ _ a wide => if mayIssue s p e then some (kPair e.k a.val, if wide then 8 else 4) else none
  | .redt _ a _ => if mayIssue s p e then some (kPair e.k a.val, 128) else none
  | .swait _ _ wide a _ => if mayIssue s p e || (runs s p && e.waits) then some (kPair e.k a.val, if wide then 8 else 4) else none
  | .spublish _ _ => (waitingRing s p e.seq).map fun r => (r.2.1.consAddr, 4)
  | _ => none

/-- The earliest clock at which the read of a task that is due can have been sent (R63, R153, R368). -/
def readSent (s : State) (p : Nat) (e : WinEntry) : Nat :=
  match e.insn with
  | .swait _ _ _ _ _ => (e.lastPoll.map (· + 256)).getD e.entered
  | .spublish _ _ => ((waitingRing s p e.seq).bind fun r => r.2.1.polled.map (· + 256)).getD e.since
  | _ => e.entered

/-- The read of a task fails at its port (R337, R371); its time-out comes no earlier than its limit allows (R368). -/
def failTask (s : State) (p seq code : Nat) (timeout : Bool) : State :=
  match s.entryOf p seq with
  | none => s
  | some e => match taskReads s p e with
    | none => s
    | some (va, n) => match resolve s p (frontAgent p) va { read := true, plain := decide (n ≤ 8), bytes := n } with
      | .error _ => s
      | .ok o =>
        if !o.store.outside || (code = 0x0A03 && o.store != .cxl) || (timeout && !atLimit s p (readSent s p e)) then s
        else
          let s := logAer s (portOf s p o.store o.addr) code
          match e.insn with
          | .spublish _ _ => slotAccess s p seq ⟨code, va, none⟩
          | _ => windowFault s p seq code (some va)

/-- The ports that n bytes of global memory are reached through, each with an address there: CXL ports change at 4 KiB (R171). -/
def rangePorts (s : State) (p core va n : Nat) : List (Nat × Nat) :=
  if n = 0 then []
  else (List.range (n / 4096 + 2)).filterMap fun k =>
    let a := va + min (4096 * k) (n - 1)
    (vaPort s p core a).map fun port => (port, a)

/-- The ports that the source bytes of a chunk come through. -/
def chunkPorts (s : State) (x : Copy) (j : Nat) : List Nat :=
  match x.src with
  | .g va => (chunkPieces s x j).flatMap fun r => (rangePorts s x.part (x.flightCore.getD j 0) (va + r.1) r.2).map Prod.fst
  | _ => []

/-- The ports that a chunk's write can fail at, once the shadow's signature lets it go out; a posted write to host memory returns no error
(R368, R370, R384). -/
def chunkOuts (s : State) (x : Copy) (j : Nat) : List Nat :=
  if chunkSigned s x j then []
  else ((chunkSpans x j).flatMap fun r => match r.1 with
    | .g va => (rangePorts s x.part (x.flightCore.getD j 0) (va + r.2.1) r.2.2.2).map Prod.fst
    | _ => []).filter (· != 12)

/-- A chunk fails at a port of its source, or of its destination (R114, R371). -/
def failFlight (s : State) (age code : Nat) (timeout : Bool) : State :=
  match s.copies.get? age with
  | none => s
  | some x => match x.flightAt with
    | [] => s
    | (j, since) :: _ =>
      let ins := if timeout != atLimit s x.part since then []
        else (chunkPorts s x j).filter fun n => code != 0x0A03 || n < 12
      let outs := if (timeout && !atLimit s x.part since) || code = 0x0A03 then [] else chunkOuts s x j
      match ins, outs with
      | [], [] => s
      | i :: _, [] => logAer (chunkPortFail s age j code) (some i) code
      | [], o :: _ => logAer (chunkWriteFail s age j code) (some o) code
      | i :: _, o :: _ =>
        let s' := { s with fresh := s.fresh + 1 }
        if Config.freeBit s.fresh age then logAer (chunkWriteFail s' age j code) (some o) code
        else logAer (chunkPortFail s' age j code) (some i) code

/-- The ACC.SPILL that a core's Spindle has under way, or runs next, unless it still waits for its shadow's signature: its number, the
operation, its crew, and what it writes (R291, R296, R384). -/
def spillNow (s : State) (core : Nat) : Option (Nat × SpinOp × Crew × Nat × Nat × Nat) :=
  match (underWay s core).orElse fun _ => bestOp (spinOps s core) with
  | none => none
  | some (age, x) => match x.kind, x.cid.bind s.crews.get? with
    | .spill pair d va, some c =>
      if x.unsigned c then none
      else
        let r := spillData s core c pair d
        some (age, x, c, va, r.1, r.2.1)
    | _, _ => none

/-- The ports that the write of an ACC.SPILL can fail at, with addresses. -/
def spillPorts (s : State) (core : Nat) : List (Nat × Nat) :=
  match spillNow s core with
  | some (_, _, c, va, n, _) => (rangePorts s c.part core va n).filter fun r => r.1 != 12
  | none => []

/-- The write of an ACC.SPILL fails at a port: the operation ends, and its fault is held for the BWAIT (R114, R292, R370). -/
def dropSpill (s : State) (core port code : Nat) : State :=
  match spillNow s core, (spillPorts s core).find? fun r => r.1 == port with
  | some (age, x, c, va, n, v), some (_, a) =>
    logAer (spinAdvance (spillFault (partWritten s c.part x.core va n v) age c.part x.core ⟨code, a, none⟩) age) (some port) code
  | _, _ => s

/-- The write of the ACC.SPILL that a Spindle runs fails at its port; its time-out comes no earlier than its limit allows (R368, R370). -/
def failSpill (s : State) (core code : Nat) (timeout : Bool) : State :=
  match spillNow s core, spillPorts s core with
  | some (_, x, c, _, _, _), (port, _) :: _ =>
    if code = 0x0A03 || (timeout && !atLimit s c.part x.since) then s else dropSpill s core port code
  | _, _ => s

/-- The next participant of a team's host atomic is at host memory: its request is outstanding at the endpoint (R372). -/
def hostAsks (s : State) (tid : Nat) : Bool :=
  match s.teams.get? tid with
  | none => false
  | some t => match (s.crews.get? t.cid).bind fun c => hostCtx t c tid with
    | some (x, h, f) => (lanesOf 1024 h.todo).head?.any fun l => atHost s x f l
    | none => false

/-- The host atomic of a team ends without its operation (R372, R373, R354). -/
def dropAtomic (s : State) (tid code : Nat) (au : Bool) : State :=
  if hostAsks s tid then logAer (cutIfUnwanted (haltIfAsked (hostFail s tid code au) tid) tid) (some 12) code else s

def failAtomic (s : State) (tid lane code : Nat) (au timeout : Bool) : State :=
  s.onTeam tid fun t c =>
    match t.hostAtomic with
    | none => s
    | some h =>
      if (lanesOf 1024 h.todo).head? = some lane && timeout == atLimit s c.part h.since && hostAsks (s.asking h.since) tid then
        dropAtomic (s.asking h.since) tid code au
      else s

/-- The write of a team that is outstanding fails. -/
def failTeamWrite (s : State) (tid idx code : Nat) (timeout : Bool) : State :=
  s.onTeam tid fun t c =>
    match t.writes.get? idx with
    | none => s
    | some w => if timeout == atLimit s c.part w.since then failWrite s tid idx code else s

/-- A write of a retired SSIGNAL fails: only IOLOG tells (R371). -/
def dropSignal (s : State) (p : Nat) (w : OutWrite) (code : Nat) : State :=
  logAer ((revertWrite s w).updPart p fun x => logIo { x with ssig := x.ssig.erase w } code 7) (writePort s p (frontAgent p) w) code

/-- The oldest write of a retired SSIGNAL that can end so fails. -/
def failSignal (s : State) (p code : Nat) (timeout : Bool) : State :=
  match (s.part p).ssig.find? fun w => timeout == atLimit s p w.since with
  | none => s
  | some w => dropSignal s p w code

/-- SSIGNAL_DONE: the completion of the oldest write of a partition's retired SSIGNALs; one after its limit is discarded (R138, R368). -/
def signalDone (s : State) (p : Nat) : State :=
  match (s.part p).ssig.find? fun w => !pastLimit s p w.since with
  | none => s
  | some w => s.updPart p fun x => { x with ssig := x.ssig.erase w }

/-- The reads of this clock of a line beyond a port fail, those that have reached their limit where it is a time-out (R366, R368; log 34);
poison stays in the line (R369). -/
def failLine (s : State) (store n code : Nat) : State :=
  match linePort s store n with
  | none => s
  | some port =>
    if code = 0x0A03 then
      if store = Store.cxl.code && !s.poisonCxl.contains n then logAer { s with poisonCxl := n :: s.poisonCxl } (some port) code else s
    else logAer { s with portLine := s.portLine.set (2 ^ 64 * store + n) code } (some port) code

/-- The compare-and-swaps of this clock on a line of host memory are refused, or time out (R366; log 34). -/
def failCas (s : State) (n code : Nat) : State :=
  if code = 0x0A03 then s else logAer { s with portLine := s.portLine.set (State.casKey (128 * n)) code } (some 12) code

/-- IO_COMPLETION_TIMEOUT (R366, R368 to R372). What is answered at once times out in the step of its read, no earlier than its limit allows
(log 34). -/
def execIoCompletionTimeout (req : IoReq) (s : State) : Out :=
  .next (match req with
    | .read tid idx lane => failRead s tid idx lane 0x0A02 true
    | .write tid idx => failTeamWrite s tid idx 0x0A02 true
    | .atomic tid lane => failAtomic s tid lane 0x0A02 false true
    | .chunk age => failFlight s age 0x0A02 true
    | .spill core => failSpill s core 0x0A02 true
    | .task p seq => failTask s p seq 0x0A02 true
    | .ssignal p => failSignal s p 0x0A02 true
    | .line store n => failLine s store n 0x0A02
    | .cas n => failCas s n 0x0A02)

/-- PORT_COMPLETION_ERROR (R366, R368 to R373). -/
def execPortCompletionError (req : IoReq) (err : PortErr) (s : State) : Out :=
  .next (match req with
    | .read tid idx lane => failRead s tid idx lane err.code false
    | .write tid idx => failTeamWrite s tid idx err.code false
    | .atomic tid lane => failAtomic s tid lane (if err = .unsupported then 0x0401 else err.code) (err == .unsupported) false
    | .chunk age => failFlight s age err.code false
    | .spill core => failSpill s core err.code false
    | .task p seq => failTask s p seq err.code false
    | .ssignal p => failSignal s p err.code false
    | .line store n => failLine s store n err.code
    | .cas n => failCas s n err.code)

/-- WRITE_COMPLETION_ARRIVE: the write is performed (R138); a completion after the limit is discarded (R368). -/
def execWriteCompletionArrive (tid idx : Nat) (s : State) : Out :=
  .next (s.onTeam tid fun t c =>
    match t.writes.get? idx with
    | none => s
    | some w => if w.failed.isSome || pastLimit s c.part w.since then s else s.setTeam tid { t with writes := t.writes.erase idx })

/-! ### Links -/

/-- Twelve CXL ports, the endpoint and eight Ethes links (Table 24.2). -/
def portCount : Nat := 21

def State.updPort (s : State) (n : Nat) (f : PortStat → PortStat) : State :=
  if n < portCount then { s with ports := s.ports.set n (f (s.portStat n)) } else s

/-- LINK_LANE_FAIL: the first failed lane waits for the next retrain, a second one retrains the port (R388). -/
def execLinkLaneFail (port : Nat) (s : State) : Out :=
  .next (s.updPort port fun x => { x with lost := x.lost + 1, state := if 1 ≤ x.lost && x.state = 0 then 1 else x.state })

/-- LINK_RETRAIN (R388). -/
def execLinkRetrain (port : Nat) (s : State) : Out :=
  .next (s.updPort port fun x => { x with
    retrain := if x.retrain = 255 then 255 else x.retrain + 1
    spare := x.lost ≠ 0
    width := if x.lost ≤ 1 then 16 else 8
    state := 0 })

/-- Every element of a list changes the state in turn. -/
def each {α : Type} (l : List α) (s : State) (f : State → α → State) : State := l.foldl f s

/-- The requests of a team at a port end, each with its code: reads, the youngest first, writes, and the host atomic that it issues (R376,
R389). -/
def endTeam (s : State) (tid port : Nat) (code : Nat → Nat) : State :=
  s.onTeam tid fun t c =>
    let s := each ((List.range t.producers.length).reverse.flatMap fun i => match t.producers[i]? with
        | some x => ((lanesOf 1024 x.out).filter fun l => lanePort s c t.core x l == some port).map fun l => (i, l)
        | none => []) s fun s r => dropRead s tid r.1 r.2 (code (r.2 + 1024 * (r.1 + 16 * tid)))
    let s := each (t.writes.filter fun (w : Nat × OutWrite) => writePort s c.part t.core w.2 == some port) s fun s w =>
      failWrite s tid w.1 (code (2 ^ 60 + w.1 + 2 ^ 30 * tid))
    if port = 12 then dropAtomic s tid (code (2 ^ 61 + tid)) false else s

/-- The requests outstanding at a port end, of the partitions that are named (R376, R389). -/
def endRequests (s : State) (who : Nat → Bool) (port : Nat) (code : Nat → Nat) : State :=
  let s := each (s.teams.filter fun (e : Nat × Team) => who (partOf s e.2)) s fun s e => endTeam s e.1 port code
  let s := each (s.copies.filter fun (e : Nat × Copy) => who e.2.part) s fun s e =>
    match (e.2.flight.keys).find? fun j => (chunkPorts s e.2 j).contains port, (e.2.flight.keys).find? fun j => (chunkOuts s e.2 j).contains port with
    | some j, _ => logAer (chunkPortFail s e.1 j (code (2 ^ 62 + e.1))) (some port) (code (2 ^ 62 + e.1))
    | none, some j => logAer (chunkWriteFail s e.1 j (code (2 ^ 62 + e.1))) (some port) (code (2 ^ 62 + e.1))
    | none, none => s
  let s := each ((List.range Config.cores).filter fun c => (spillNow s c).any fun r => who r.2.2.1.part) s fun s c =>
    dropSpill s c port (code (2 ^ 59 + c))
  each (s.parts.filter fun (e : Nat × Part) => who e.1) s fun s e =>
    each (e.2.ssig.filter fun w => writePort s e.1 (frontAgent e.1) w == some port) s fun s w => dropSignal s e.1 w (code (2 ^ 63 + e.1))

/-- LINK_DOWN: the requests outstanding on the link end, each with a time-out or an error, which one is open (R376; log 37). -/
def execLinkDown (port : Nat) (s : State) : Out :=
  .next (if port < portCount then
      let s' := endRequests { s with fresh := s.fresh + 1 } (fun _ => true) port fun k => if Config.freeBit s.fresh k then 0x0A02 else 0x0A01
      s'.updPort port fun x => { x with state := 2, width := 0 }
    else s)

/-- An access from a peer is admitted (R171), over a link that is up. -/
def inboundOk (s : State) (link off len : Nat) : Bool :=
  match s.linkcfg.get? link with
  | none => false
  | some c =>
    c.en && (s.portStat (13 + link)).state != 2 && isFormed s c.part.toNat && c.gbase.toNat * 4096 ≤ off &&
    off + len ≤ (c.gbase.toNat + c.glen.toNat) * 4096 && off + len ≤ (s.part c.part.toNat).direct.toNat * 4096

/-- ETHES_INBOUND_ACCESS: a write and an atomic reach the partition's direct memory, and an atomic is one step (R125, R168); a read changes
nothing, and an access that is not admitted gets Unsupported Request (R171). What cannot be read is answered with an error. -/
def execEthesInboundAccess (link off len : Nat) (what : Inbound) (s : State) : Out :=
  let p := ((s.linkcfg.getD link {}).part).toNat
  .next (if link < 8 && inboundOk s link off len then match what with
      | .read => s
      | .write v => (s.store (.lode p) off len v).clearPoison (.lode p) off len
      | .atomic op wide uns c n =>
        if len ≠ (if wide then 8 else 4) || off % len ≠ 0 || rangePoisoned s (.lode p) off len then s
        else match atomValue op wide uns (s.load (.lode p) off len) c n with
          | some v => s.store (.lode p) off len v
          | none => s
    else s)

/-! ### IDE -/

/-- IDE_INTEGRITY_FAILURE at a CXL port: it carries nothing of the partition until that is formed again, and the requests there end with
0x0A02 (R389). -/
def execIdeIntegrityFailure (p : IdePlace) (s : State) : Out :=
  .next (if isFormed s p.part && p.port < 12 then
      let s := endRequests s (fun q => q == p.part) p.port fun _ => 0x0A02
      { s.updPart p.part fun x => { x with ideFail := x.ideFail ||| BitVec.twoPow 12 p.port } with iso := true }
    else s)

end Sys2Proof.Machine
end

