-- ==== Sys2Proof/Machine/Service.lean ====
section
/-! DEFINITION. Soft errors, mirrored launches and spares (24, R377 to R387). -/

namespace Sys2Proof.Machine

/-! ### Counters -/

/-- One more, up to a limit. -/
def capped (limit n : Nat) : Nat := min limit (n + 1)

def countCorr (x : Part) : Part := { x with eccCorr := BitVec.ofNat 32 (capped (2 ^ 32 - 1) x.eccCorr.toNat) }
def countUncorr (x : Part) : Part := { x with eccUncorr := BitVec.ofNat 16 (capped 65535 x.eccUncorr.toNat) }

/-- A partition that exists. -/
def lives (s : State) (p : Nat) : Bool := (s.part p).state != .free

/-- The partition of a core. -/
def coreOwner (s : State) (core : Nat) : Option Nat := (List.range Config.partitions).find? fun p => lives s p && (s.part p).hasCore core

def onOwner (s : State) (p : Option Nat) (f : Part → Part) : State :=
  match p with
  | some p => s.updPart p f
  | none => s

/-! ### Lines and rows (R103, R378) -/

/-- The partition whose carve-out holds line n of a slice (R103). -/
def sliceOwner (s : State) (n : Nat) : Option Nat :=
  (List.range Config.partitions).find? fun p => lives s p &&
    (s.part p).base.toNat ≤ n / 32 && n / 32 < (s.part p).base.toNat + (s.part p).size.toNat

/-- The buffer and the offset in it of a byte of the pool; the buffers stand in their order (log 19). -/
def poolPlace (x : Part) (o : Nat) : Option (Nat × Nat) := go x 12 0 o
where
  go (x : Part) : Nat → Nat → Nat → Option (Nat × Nat)
    | 0, _, _ => none
    | f + 1, c, o =>
      if o < x.poolCount c * classBytes c then some (x.firstBuf c + o / classBytes c, o % classBytes c)
      else go x f (c + 1) (o - x.poolCount c * classBytes c)

/-- The poison key of line n of a slice: of direct memory, which stands first, or of a buffer (R103; log 19). -/
def sliceKey (s : State) (p slice n : Nat) : Option Nat :=
  let x := s.part p
  let l := 64 * (n - 32 * x.base.toNat) + slice
  if l < 32 * x.direct.toNat then some (State.poisonKey p (128 * l))
  else (poolPlace x (128 * (l - 32 * x.direct.toNat))).map fun b => State.bufPoisonKey p (2 ^ 26 * b.1 + b.2)

def poisonAdd (s : State) (k : Nat) : State := if s.poisonLode.contains k then s else { s with poisonLode := k :: s.poisonLode }

/-- A store as the patrol numbers it. -/
def SramPlaceKey : SramPlace → Nat
  | .lodeSlice n => n
  | .scratch c => 64 + c

/-- Lines of a store (R378). -/
def placeLines : SramPlace → Nat
  | .lodeSlice _ => 40960
  | .scratch _ => 16384

def placeOk : SramPlace → Bool
  | .lodeSlice n => n < 64
  | .scratch c => c < 128

def rowKey (place : SramPlace) (row : Nat) : Nat := 65536 * SramPlaceKey place + row

/-- A row takes a corrected error, or an uncorrectable one (R379). -/
def rowHit (s : State) (place : SramPlace) (row : Nat) (found : EccFinding) : State :=
  let k := rowKey place row
  let n := s.rowErr.getD k 0
  match found with
  | .clean => s
  | .corrected => { s with rowErr := s.rowErr.set k (n + 1) }
  | .uncorrectable => { s with rowErr := s.rowErr.set k (max 4 n) }

/-- The partition whose storage a row holds (R103, R377). -/
def rowOwner (s : State) (place : SramPlace) (row : Nat) : Option Nat :=
  match place with
  | .lodeSlice _ => sliceOwner s (8 * row)
  | .scratch c => coreOwner s c

/-- A correction at an access counts in CORR of the partition, and against its row, which holds storage of the partition (R377, R379). -/
def correctedAt (s : State) (p : Nat) (row : Option (SramPlace × Nat)) : State :=
  if p < Config.partitions && lives s p then match row with
    | some (place, r) =>
      if placeOk place && r < placeLines place / 8 && rowOwner s place r = some p then rowHit (s.updPart p countCorr) place r .corrected
      else s
    | none => s.updPart p countCorr
  else s

/-- The place of a line of a partition's carve-out: the slice and the line in it (R103). -/
def sliceLine (x : Part) (l : Nat) : SramPlace × Nat := (.lodeSlice (l % 64), 32 * x.base.toNat + l / 64)

/-- The line of the carve-out in which a line of a buffer stands (log 19). -/
def Part.poolLine (x : Part) (l : Nat) : Nat :=
  let b := l / 2 ^ 19
  let c := (x.bufClass? b).getD 0
  32 * x.direct.toNat + (((List.range c).map fun c => x.poolCount c * classBytes c).sum + (b - x.firstBuf c) * classBytes c) / 128 + l % 2 ^ 19

/-- The key under which a poisoned line of a slice is held that no partition owns. -/
def looseKey (slice n : Nat) : Nat := 2 ^ 54 + 65536 * slice + n

/-- A partition that is formed takes over the poisoned lines of its carve-out (R378). -/
def adoptPoison (s : State) (p : Nat) : State :=
  { s with poisonLode := s.poisonLode.map fun k =>
      if k / 2 ^ 54 = 1 && sliceOwner s (k % 65536) = some p then (sliceKey s p (k % 2 ^ 54 / 65536) (k % 65536)).getD k else k }

/-- The segment of a placed crew's window, or of its shadow's, that a core holds: of the shadow, its first byte, its bytes (R105, R383). -/
def Crew.segmentAt (c : Crew) (core : Nat) : Option (Bool × Nat × Nat) :=
  if !c.placed then none
  else match c.cores.findIdx? (· == core), (coresOf c.shadow).findIdx? (· == core) with
    | some k, _ => some (false, segment c.winBytes c.cores.length k)
    | none, some k => some (true, segment c.winBytes (coresOf c.shadow).length k)
    | none, none => none

/-- The crew window line behind a byte of a core's scratchpad: the segments stand in the order of the crews (log 99). -/
def scratchPlace (core : Nat) : FMap Crew → Nat → Option Nat
  | [], _ => none
  | (cid, c) :: l, o =>
    match c.segmentAt core with
    | some (shadow, a, n) => if o < n then some (State.winPoisonKey shadow cid ((a + o) / 128)) else scratchPlace core l (o - n)
    | none => scratchPlace core l o

def poisonWindow (s : State) (k : Nat) : State := if s.poisonWin.contains k then s else { s with poisonWin := k :: s.poisonWin }

/-- PATROL_READ: the next line of a store, one every 65,536 clocks (R377, R378). -/
def patrolRead (s : State) (place : SramPlace) (found : EccFinding) : State :=
  let key := SramPlaceKey place
  let n := s.patrol.getD key 0
  if !placeOk place || s.clock < 65536 * (n + 1) then s
  else
    let line := n % placeLines place
    let owner := match place with
      | .lodeSlice _ => sliceOwner s line
      | .scratch c => coreOwner s c
    let s := rowHit { s with patrol := s.patrol.set key (n + 1) } place (line / 8) found
    match found with
    | .clean => s
    | .corrected => onOwner s owner countCorr
    | .uncorrectable =>
      let s := onOwner s owner countUncorr
      match place, owner with
      | .lodeSlice k, some p => match sliceKey s p k line with
        | some q => poisonAdd s q
        | none => s
      | .lodeSlice k, none => poisonAdd s (looseKey k line)
      | .scratch c, _ => match scratchPlace c s.crews (128 * line) with
        | some q => poisonWindow s q
        | none => s

def execPatrolRead (place : SramPlace) (found : EccFinding) (s : State) : Out := .next (patrolRead s place found)

/-- Spare rows left of a store (R379). -/
def spareRows (s : State) : SramPlace → Nat
  | .lodeSlice n => s.lodeSpare.getD n 32
  | .scratch c => (s.coreStatOf c).srows.toNat

/-- A row moves to one of the spare rows left. -/
def useSpareRow (s : State) (place : SramPlace) (row : Nat) : State :=
  let s := { s with rowErr := s.rowErr.erase (rowKey place row) }
  match place with
  | .lodeSlice n => { s with lodeSpare := s.lodeSpare.set n (s.lodeSpare.getD n 32 - 1) }
  | .scratch c => { s with coreStat := s.coreStat.set c { s.coreStatOf c with srows := (s.coreStatOf c).srows - 1 } }

/-- ROW_SPARE_REPLACE: a row with four corrected errors or an uncorrectable one moves to a spare row, when one is left; poison stays
(R379). -/
def execRowSpareReplace (place : SramPlace) (row : Nat) (s : State) : Out :=
  .next (if placeOk place && 4 ≤ s.rowErr.getD (rowKey place row) 0 && spareRows s place ≠ 0 then useSpareRow s place row else s)

/-! ### Retired cores (R385 to R387) -/

/-- A task has work on a core. -/
def hasWork (s : State) (core p : Nat) (e : WinEntry) : Bool :=
  (s.crews.any fun (x : Nat × Crew) => x.2.part == p && x.2.seq == e.seq && x.2.placed &&
    (x.2.cores.contains core || (coresOf x.2.shadow).contains core)) ||
  (e.tiles.any fun (x : Nat × TileRun) => x.2.core == core && !x.2.tiles.isEmpty) ||
  s.copies.any fun (x : Nat × Copy) => x.2.owner == COwner.task p e.seq && x.2.flightCore.vals.contains core

/-- SPARECORE (Table 24.2). -/
def sparesLeft (s : State) : Nat := 8 - s.spareUsed.length

/-- The agent that runs a task (R337). -/
def WinEntry.engine (e : WinEntry) : Nat :=
  match e.insn with
  | .launch _ _ _ _ _ => 1
  | .mmt _ _ _ _ _ _ _ | .smmt _ _ _ _ _ _ _ => 2
  | .copyt _ _ _ _ _ => 3
  | .qsend _ _ _ _ | .qrecv _ _ _ _ => 5
  | .kread _ _ _ _ | .redt _ _ _ | .ssignal _ _ _ _ | .swait _ _ _ _ _ => 0
  | _ => 4

/-- A core is retired: the tasks with work on it are run again, and its STATE is 01, or 10 when no spare is left (R386, R387). A task that
cannot be run again faults with the agent that runs it and the core (log 116). -/
def retireCore (s : State) (core code : Nat) : State :=
  let s := match coreOwner s core with
    | none => s
    | some p => ((s.part p).window.filter (hasWork s core p)).foldl
        (fun s (e : WinEntry) => serviceRerun s p e.seq [core] none { code, engine := e.engine, core, addr := none }) s
  { s with coreStat := s.coreStat.set core { s.coreStatOf core with state := if sparesLeft s = 0 then 2 else 1 } }

/-- A strike, and the retirement at the second (R380, R385, R386). -/
def strike (s : State) (code core : Nat) : State :=
  let x := s.coreStatOf core
  let s := { s with coreStat := s.coreStat.set core { x with strikes := BitVec.ofNat 4 (capped 2 x.strikes.toNat) } }
  if 1 ≤ x.strikes.toNat && x.state = 0 then retireCore s core code else s

/-- No work remains on a core. -/
def coreIdle (s : State) (core : Nat) : Bool :=
  (List.range Config.partitions).all fun p => (s.part p).window.all fun e => !hasWork s core p e

/-- A logical core is another core now: no task keeps off it for what its old one did (R381, R385). -/
def WinEntry.newCore (core : Nat) (e : WinEntry) : WinEntry :=
  let off := fun (m : FMap (List Nat)) => m.map fun (x : Nat × List Nat) => (x.1, x.2.filter (· != core))
  { e with avoid := e.avoid.filter (· != core), ran := off e.ran, apart := off e.apart }

/-- SPARE_CORE_SWAP: the spare of a die takes a retired core's logical number (R386). With the last spare gone, the other retired cores
are lost (R387). -/
def execSpareCoreSwap (core die : Nat) (s : State) : Out :=
  .next (if core < Config.cores && (s.coreStatOf core).state = 1 && die < 8 && !s.spareUsed.contains die && coreIdle s core then
      let s := { s with
        spareUsed := die :: s.spareUsed
        coreStat := s.coreStat.set core { phys := BitVec.ofNat 8 (17 * die + 16) }
        tags := s.tags.filter fun (e : Nat × Tag) => e.1 / 4096 != core
        rcache := s.rcache.filter fun (e : Nat × Nat) => e.1 / 2 ^ 84 != core
        ptes := s.ptes.filter fun (e : Nat × Nat) => e.1 / 2 ^ 84 != core
        rowErr := s.rowErr.filter fun (e : Nat × Nat) => e.1 / 65536 != 64 + core
        parts := s.parts.map fun (e : Nat × Part) => (e.1, { e.2 with window := e.2.window.map (WinEntry.newCore core) }) }
      if sparesLeft s = 0 then
        { s with coreStat := s.coreStat.map fun (e : Nat × CoreStat) => if e.2.state = 1 then (e.1, { e.2 with state := 2 }) else e }
      else s
    else s)

/-! ### Uncorrectable errors (R380, Table 24.1) -/

/-- The bank's spare tile takes the place of one with an uncorrectable error (R379). -/
def useSpareTile (s : State) (core bank : Nat) : State :=
  { s with coreStat := s.coreStat.set core (if bank = 0 then { s.coreStatOf core with tiles0 := false }
      else { s.coreStatOf core with tiles1 := false }) }

/-- An accumulator tile is lost to its owner (Table 24.1, R340). -/
def loseTile (s : State) (core key : Nat) : State :=
  match s.tileOwner.get? key with
  | none => s
  | some o =>
    if o % 2 = 0 then match s.crews.get? (o / 2) with
      | some c => serviceRerun s c.part c.seq [core] none { code := 0x0902, engine := 2, core, addr := none }
      | none => s
    else match s.spin.get? (o / 2) with
      | some x => match x.kind with
        | .tile p seq _ => match (s.entryOf p seq).bind matTask with
          | some (_, _, true) =>
            (taskFault s p seq { code := 0x0814, engine := 2, core, addr := none }).updEntry p seq fun e => { e with lost := true }
          | _ => serviceRerun s p seq [core] none { code := 0x0902, engine := 2, core, addr := none }
        | _ => s
      | none => s

/-- The oldest issued task that writes a physical buffer, other than in place. -/
def freshWriter (s : State) (p b : Nat) : Option WinEntry := (s.part p).window.find? fun e => e.fresh == some b && e.status == .issued

/-- The core of the engine of a task that meets the line: one with work of it, which one is open; none for a task of engine 0, 4 or 5, which
has no core (Table 20.1; log 121). -/
def WinEntry.finder (e : WinEntry) (s : State) (p : Nat) : Option Nat :=
  if e.engine = 0 || 4 ≤ e.engine then some 127
  else
    let l := (List.range Config.cores).filter fun c => hasWork s c p e
    l[Config.victim s.fresh % l.length]?

/-- A team whose core has lost a value of its stops, its LAUNCH is run again, and the core takes a strike (Table 24.1). -/
def storeStruck (s : State) (tid : Nat) (c : Crew) (core : Nat) : State :=
  strike (serviceRerun s c.part c.seq [core] (some tid) { code := 0x0902, engine := 1, core, addr := none }) 0x0902 core

/-- A store of a core has lost a value of a team, or of its shadow, in a row (R379, R383). -/
def storeLost (s : State) (tid : Nat) (c : Crew) (core : Nat) (row : Option Nat) : State :=
  let s := s.updPart c.part countUncorr
  let s := match row with
    | some r => if r < 2048 then rowHit s (.scratch core) r .uncorrectable else s
    | none => s
  storeStruck s tid c core

/-- What becomes of a team that met a lost value in this clock: of its core's stores or its shadow's, or a line of memory, of the fresh
buffer or another (R383, Table 24.1; log 86). -/
def settleLost (s : State) (tid : Nat) : State :=
  match s.teams.get? tid with
  | none => s
  | some t =>
    let s' := s.setTeam tid { t with lost := none }
    match t.lost with
    | none => s
    | some (.store shadow) => s'.onTeam tid fun t c =>
      storeStruck s' tid c (if shadow then ((c.shadow[t.num]?).map (· / 4)).getD t.core else t.core)
    | some (.line engine core addr) => s'.onTeam tid fun _ c =>
      let f : TaskFault := { code := 0x0902, engine, core, addr := some addr }
      if inFresh s' c addr then serviceRerun s' c.part c.seq [] none f else taskFault s' c.part c.seq f

/-- A line of a partition's carve-out is lost, in its row (R379). -/
def carveHit (s : State) (p l : Nat) : State :=
  let x := sliceLine (s.part p) l
  rowHit s x.1 (x.2 / 8) .uncorrectable

/-- UNCORRECTABLE_ERROR (R377, R380, Table 24.1). The tasks that read a poisoned line fault where they read it. A line of a fresh buffer
at which no engine has work of its task is met by nobody yet (log 121). -/
def uncorrectable (s : State) (place : ErrPlace) : State :=
  match place with
  | .teamStore tid row => s.onTeam tid fun t c => storeLost s tid c t.core row
  | .shadowStore tid row => s.onTeam tid fun t c => match c.shadow[t.num]? with
    | some q => storeLost s tid c (q / 4) row
    | none => s
  | .accTile core bank tile =>
    if core < Config.cores && bank < 2 && tile < 16 then
      useSpareTile (loseTile (onOwner s (coreOwner s core) countUncorr) core (32 * core + 16 * bank + tile)) core bank
    else s
  | .bufLine p line =>
    let s := poisonAdd (carveHit (s.updPart p countUncorr) p ((s.part p).poolLine line)) (State.bufPoisonKey p (128 * line))
    match freshWriter s p (line / 2 ^ 19) with
    | some e => match e.finder s p with
      | some core =>
        serviceRerun { s with fresh := s.fresh + 1 } p e.seq [] none { code := 0x0902, engine := e.engine, core, addr := some (bufWindow + 128 * line) }
      | none => s
    | none => s
  | .lodeLine p line => poisonAdd (carveHit (s.updPart p countUncorr) p line) (State.poisonKey p (128 * line))
  | .slotTable p =>
    let s := s.updPart p countUncorr
    match (s.part p).window.find? fun e => e.insn.usesSlots && e.status == .issued with
    | some e => (taskFault s p e.seq { code := 0x0902, engine := 4, core := 127, addr := none }).updEntry p e.seq fun e => { e with lost := true }
    | none => s
  | .queueStore q =>
    match s.queues.getD q [] with
    | [] => s
    | _ :: l =>
      let s := { s with queues := s.queues.set q l, queueLost := s.queueLost.set q (s.queueLost.getD q 0 + 1) }
      onOwner s ((s.qdef.get? q).map fun d => d.recv.toNat) countUncorr

def execUncorrectableError (place : ErrPlace) (s : State) : Out := .next (uncorrectable s place)

/-! ### Mirrored launches (R383 to R385) -/

/-- One bit of a CRC-64 in the ECMA-182 polynomial. -/
def crc64Bit (c : BitVec 64) : BitVec 64 := if c.getLsbD 63 then (c <<< 1) ^^^ 0x42F0E1EBA9EA3693 else c <<< 1
def crc64Byte (c : BitVec 64) (b : Byte) : BitVec 64 :=
  let c := c ^^^ (b.setWidth 64 <<< 56)
  crc64Bit (crc64Bit (crc64Bit (crc64Bit (crc64Bit (crc64Bit (crc64Bit (crc64Bit c)))))))
/-- The CRC of bytes, from 0, with no final inversion (log 101). -/
def crc64 (l : List Byte) : BitVec 64 := l.foldl crc64Byte 0

/-- What a signature covers of a participant (R384). -/
structure SigPart where
  lane : Nat
  addr : Nat
  width : Nat
  data : Nat
  deriving DecidableEq, Repr

def SigPart.bytes (x : SigPart) : List Byte :=
  (List.range 2).map (leByte x.lane) ++ (List.range 10).map (leByte x.addr) ++ (List.range 4).map (leByte x.width) ++
  (List.range x.width).map (leByte x.data)

/-- The signature of an instruction at a PC, from what it covers of each participant (R384; log 101). -/
def sigOver (pc : PC) (l : List SigPart) : Nat :=
  (crc64 ((List.range 10).map (leByte (pc.blk.toNat + pc.slot)) ++ l.flatMap SigPart.bytes)).toNat

/-- A form that acts once for its team, as its lowest participant (R204, R384). -/
def sigOnce (c : Ctx) (addr width data : Nat) : List SigPart := [{ lane := c.low, addr, width, data }]

/-- What the signature of a held instruction covers (R384). -/
def sigParts (c : Ctx) (i : Instr) : List SigPart :=
  match i with
  | .st _ w d m => c.ls.map fun l =>
    { lane := l, addr := (c.t.base? m.space m.base).getD 0 + offsetOf c m l, width := w.bytes, data := storeData c.t w d.val l }
  | .hcopyCopy _ ds _ dst _ n _ => sigOnce c (named c ds dst) 4 (sBits c n 0 32)
  | .hcopyPlane _ ds _ dst _ n _ _ _ | .hcopyGather _ ds _ dst _ n _ _ => sigOnce c (named c ds dst) 8 (sBits c n 0 64)
  | .hcopySplit _ _ _ dst _ n _ _ _ _ => sigOnce c (sBits c dst 0 64) 8 (sBits c n 0 64)
  | .hcopyMask _ ss _ src n _ => sigOnce c (named c ss src) 8 (sBits c n 0 64)
  | .nredPush _ a _ => sigOnce c (sBits c a 0 32) 128 (c.crew.window.read (sBits c a 0 32) 128)
  | _ => match i.atomForm with
    | some f => c.ls.map fun l =>
      let o := atomOperands f c.t l
      { lane := l, addr := (c.t.base? f.m.space f.m.base).getD 0 + offsetOf c f.m l, width := 2 * atomBytes f
        data := o.1 + 2 ^ (8 * atomBytes f) * o.2 }
    | none => c.ls.map fun l => { lane := l, addr := 0, width := 0, data := 0 }

/-- The instruction that a team holds for its shadow's signature. -/
def heldInsn (s : State) (tid : Nat) : Option (Ctx × Instr) :=
  match s.teams.get? tid with
  | none => none
  | some t => match t.entry?, s.crews.get? t.cid, nextWord t with
    | some e, some crew, some w => match coreDecode (BitVec.ofNat 96 w) with
      | .error _ => none
      | .ok i => i.form.map fun f =>
        let m := e.mask &&& t.guard f.ctl.g
        ({ tid, t, crew, e, spin := f.ctl.h.getLsbD 7, m, ls := lanesOf t.nlanes m }, i)
    | _, _, _ => none

/-- The signature of an ATOM that is performed again, from its captured operands (R350, R384). -/
def replaySig (r : Replay) (f : AtomForm) : Nat :=
  sigOver r.pc ((lanesOf 1024 r.lm).map fun l =>
    let o := r.ops.getD l {}
    { lane := l, addr := r.base + o.a, width := 2 * atomBytes f, data := o.c + 2 ^ (8 * atomBytes f) * o.n })

/-- The signature of what a team holds: of the replay entry that is due, else of its instruction (R384). -/
def teamSig (s : State) (tid : Nat) : Nat :=
  match ((s.teams.get? tid).bind fun t => t.replay.head?).bind fun r => ((producerOf r.word).bind Instr.atomForm).map fun f => (r, f) with
  | some (r, f) => replaySig r f
  | none => match heldInsn s tid with
    | some (c, i) => sigOver c.e.pc (sigParts c i)
    | none => 0

/-- The leader's signature (R384). -/
def leaderSig (s : State) : SigOf → Nat
  | .team tid => teamSig s tid
  | .chunk age k => match s.copies.get? age with
    | some x => sigOver x.pc [{
        lane := 0, width := x.chunkBytes k, data := ofBytes (x.flight.getD k [])
        addr := match x.dst with
          | .g va => va + x.chunkAt k
          | _ => 0 }]
    | none => 0
  | .spill age => match s.spin.get? age with
    | some x => match x.kind, x.cid.bind s.crews.get? with
      | .spill pair d va, some c =>
        let r := spillData s x.core c pair d
        sigOver x.pc [{ lane := 0, addr := va, width := r.1, data := r.2.1 }]
      | _, _ => 0
    | none => 0

/-- The next strike of a core is its second. -/
def secondStrike (s : State) (core : Nat) : Bool := 1 ≤ (s.coreStatOf core).strikes.toNat && (s.coreStatOf core).state = 0

/-- Both copies stop: the LAUNCH is run again on cores that ran neither, and each core takes a strike. A core that is retired by it has its
work moved off, which is one more re-run (R385, R386, Table 24.3; log 40). -/
def mismatched (s : State) (tid : Nat) : State :=
  s.onTeam tid fun t c =>
    let far := ((c.shadow[t.num]?).getD 0) / 4
    let both := [t.core, far]
    let again := fun (s : State) =>
      serviceRerun s c.part c.seq both none { code := 0x0901, engine := 1, core := t.core, addr := none }
    let ran := ((s.entryOf c.part c.seq).map WinEntry.ran).getD []
    let s' := again (s.updPart c.part fun x => { x with mismatch := succSat x.mismatch })
    let s' := (both.filter (secondStrike s)).foldl (fun s' _ => again s') s'
    let s' := s'.updEntry c.part c.seq fun e => { e with apart := ran }
    both.foldl (fun s' core => strike s' 0x0901 core) s'

/-- SIGNATURE_COMPARE: the leader sends its effect, or both copies stop, and what was held is never sent (R384, R385). The shadow is the leader's equal until hardware fails,
and only its signature is an input (log 45). -/
def signatureCompare (s : State) (what : SigOf) (sig : Nat) : State :=
  let same := sig == leaderSig s what
  match what with
  | .team tid => s.onTeam tid fun t _ =>
    if t.sig != .waiting then s
    else if same then s.setTeam tid { t with sig := .matched } else mismatched s tid
  | .chunk age k => match s.copies.get? age with
    | none => s
    | some x =>
      if !x.flight.has k || !chunkSigned s x k then s
      else if same then s.updCopy age fun x => { x with matched := k :: x.matched }
      else match x.owner with
        | .team tid _ _ =>
          let s' := mismatched s tid
          { s' with copies := s'.copies.erase age }
        | .task _ _ => s
  | .spill age => match s.spin.get? age with
    | none => s
    | some x => match x.kind, x.cid.bind s.crews.get?, x.tid with
      | .spill _ _ _, some c, some tid =>
        if !x.unsigned c || (bestOp (spinOps s x.core)).all fun e => e.1 != age then s
        else if same then s.updSpin age fun x => { x with matched := true }
        else
          let s' := mismatched s tid
          { s' with spin := s'.spin.erase age, spinNow := s'.spinNow.filter fun (e : Nat × Nat) => e.2 != age }
      | _, _, _ => s

def execSignatureCompare (what : SigOf) (sig : Nat) (s : State) : Out := .next (signatureCompare s what sig)

end Sys2Proof.Machine
end

