-- ==== Sys2Proof/Machine/Agents.lean ====
section
/-! DEFINITION. What the next step is, who takes it, and how a word is placed for it (R9, R28, R46, R101, R110, R117, R137, R162). -/

namespace Sys2Proof.Machine

/-- Who acts, taken from the agenda, or from the free choice when the agenda is empty (log 1). -/
def nextAgent (s : State) : Agent × State :=
  match s.agenda with
  | a :: rest => (a, { s with agenda := rest })
  | [] => (Config.freeAgent s.fresh, { s with fresh := s.fresh + 1 })

/-- An act of an agent's own leaves it next in turn. -/
def again (a : Agent) : Choice → Choice
  | .act s => .act { s with agenda := a :: s.agenda }
  | c => c

/-- The end of a clock for a partition: since when its front stage lacks a block, and the cores that its tiles wait for (R329, R368). -/
def Part.endClock (s : State) (p : Nat) (x : Part) : Part :=
  { x with fetchSince := sinceWhen x.wantsBlock x.fetchSince s.clock, window := x.window.map (awaitCore s p) }

/-- The end of a clock for the Spindles: each one with work has an operation under way (R39). -/
def startSpindles (s : State) : State :=
  ((s.spin.map fun (e : Nat × SpinOp) => e.2.core).eraseDups).foldl spinStart s

/-- A write of pooled memory is outstanding (R138). -/
def cxlPending (s : State) : Bool :=
  let out := fun (w : OutWrite) => w.failed.isNone && w.pa.isSome
  (s.teams.any fun e => e.2.writes.any fun w => out w.2) || s.parts.any fun e => e.2.ssig.any out

/-- One arithmetic clock: teams that met a lost value in it are stopped, the routers sample, what waits is noted, answers of its ports end,
and writes are listed only while some are outstanding (R9, R28, R327, R370; log 69, log 86). -/
def tick (s : State) : State :=
  let s := startSpindles (countReady (sampleFlits (s.teams.keys.foldl settleLost s)))
  { s with
    parts := s.parts.map fun (e : Nat × Part) => (e.1, e.2.endClock s e.1)
    clock := s.clock + 1, portLine := [], cxlLog := if cxlPending s then s.cxlLog else [] }

/-- The host writes its memory. -/
def hostStore (s : State) (a n v : Nat) : State := if a + n ≤ 2 ^ 58 then s.store .host a n v else s
/-- Another requester writes pooled memory. -/
def poolStore (s : State) (a n v : Nat) : State := if a + n ≤ 2 ^ 58 then (s.store .cxl a n v).clearPoison .cxl a n else s
/-- The host writes a formed partition's mailbox words (R162). -/
def mailStore (s : State) (p a n v : Nat) : State :=
  if p < Config.partitions && (s.part p).state = .formed && 0x1000 ≤ a && a + n ≤ 0x10000 then s.store (.mail p) a n v else s

/-- What an agent does in a step. An event is never an instruction of a core or of a stream. -/
def choice (s : State) (a : Agent) : Choice :=
  match a with
  | .pipe c q p => again a (pipeChoice s c q p)
  | .front p => again a (frontChoice s p)
  | .event i => if i.form.isNone && !i.isStream then .issue s i else .idle
  | .tick => .act (tick s)
  | .hostStore x n v => .act (hostStore s x n v)
  | .poolStore x n v => .act (poolStore s x n v)
  | .mailStore p x n v => .act (mailStore s p x n v)
  | .corrected p row => .act (correctedAt s p row)
  | .evictLine k => .act { s with rcache := s.rcache.erase k }
  | .ssignalDone p => .act (signalDone s p)
  | .evictPte k => .act { s with ptes := s.ptes.erase k }

/-- The step that a state takes: who acts, and what he does. -/
def plan (s : State) : State × Choice :=
  let n := nextAgent s
  (n.2, choice n.2 n.1)

/-! ### Placing a word (log 16) -/

/-- The block that holds a word in slot 0 (R188). -/
def placedBlock (stream : Bool) (w : Nat) : Block :=
  { addr := 0x1000, bits := (if stream then 0x15 else 5) + 2 ^ 32 * (w % 2 ^ 96) }

/-- The pipe that issues a word; a word that faults at decode issues on any. -/
def wordPipe (w : Nat) : Pipe :=
  match coreDecode (BitVec.ofNat 96 w) with
  | .error _ => .a
  | .ok i => match insnPipe i with
    | some .ab | none => .a
    | some p => p

/-- A team of 32 lanes and 384 registers whose fetched block holds the word. -/
def placedTeam (w : Nat) : Team where
  cid := 0
  num := 0
  quarter := 0
  active := true
  order := 0
  nlanes := 32
  nregs := 384
  entries := [{ ins := 0, pc := ⟨0x1000, 0⟩, mask := maskBelow 32 }]
  nextIns := 1
  run := some 0
  block := some (placedBlock false w)

/-- Its crew: the only one of a LAUNCH, on core 0. -/
def placedCrew : Crew where
  part := 0
  seq := 0
  num := 0
  launch := 1
  cls := 0
  nteams := 1
  ncrew := 1
  cores := [0]
  winBytes := 0
  tiles := 0

/-- The LAUNCH of that crew in the window of partition 0. -/
def placedLaunch : WinEntry where
  seq := 0
  pc := ⟨0, 0⟩
  insn := .launch 0 none none none 0
  cls := 0
  k := []
  launch := 1
  status := .issued
  placed := 1

/-- A stream word goes to the front stage of partition 0, every other to pipe of core 0. -/
def placeWord (s : State) (w : Nat) : State :=
  if w / 64 % 4 = 3 then
    { s.setPart 0 { s.part 0 with
        state := .formed, twState := .running, haltReq := false, ffault := none, shaltPassed := false, window := []
        areas := [], pc := ⟨0x1000, 0⟩, fblock := some (placedBlock true w) } with
      agenda := [.front 0], boot := 1 }
  else
    { s.setPart 0 { s.part 0 with
        state := .formed, pcore0 := 1, twState := .running, haltReq := false, window := [placedLaunch] } with
      teams := [(0, placedTeam w)], crews := [(0, placedCrew)], pipeBusy := []
      agenda := [.pipe 0 0 (wordPipe w)], boot := 1 }

end Sys2Proof.Machine
end

