-- ==== Sys2Proof/Machine/Barrier.lean ====
section
/-! DEFINITION. Barrier objects (06, 13, R131 to R134, R287 to R290). -/

namespace Sys2Proof.Machine

/-- The common course of a BAR form: its address, then k with the object (R287). -/
def barOp (s : State) (x : Ctx) (i : Instr) (r : SReg) (k : Nat → Bar → State) : State :=
  onceFor s x <| match barAddr x r with
    | .error t => raise s x i t
    | .ok a => k a (barAt x a)

/-- A form that reads the object: an uncorrectable line stops the team instead (Table 24.1). -/
def barRead (s : State) (x : Ctx) (i : Instr) (r : SReg) (k : Nat → Bar → State) : State :=
  barOp s x i r fun a b => if barPoisoned s x a then loseTeam s x.tid (lostIn s x.t.cid [(a, 16)]) else k a b

/-- BAR.INIT (R132, R287). -/
def execBarInit (c : Ctl) (bar : SReg) (n : SB) (s : State) : Out :=
  core s (.barInit c bar n) fun x =>
    barOp s x (.barInit c bar n) bar fun a _ =>
      let v := plain x.t n
      if v = 0 || 65535 < v then raise s x (.barInit c bar n) { code := 0x0502 }
      else after (setBar s x.t.cid a { gen := 0, overrun := false, pending := v, expected := v, inbound := 0, outbound := 0 }) x

/-- An arrival: the phase it arrives in goes to D, and the object takes it in one step (R132, R288). It arrives in the next phase where a
plain store left nothing to wait for in this one (log 91). -/
def arriveAt (s : State) (x : Ctx) (i : Instr) (d : SReg) (a : Nat) (b : Bar) (n : Nat) : State :=
  let b := b.settled
  if 2 ^ 32 ≤ b.inbound + n then raise s x i { code := 0x0502 }
  else reporting s x i <|
    done (setBar s x.t.cid a ({ b with inbound := b.inbound + n } : Bar).arrive) x (x.t.setS d.val (BitVec.ofNat 64 b.gen))

/-- BAR.ARRIVE (R132, R287). -/
def execBarArrive (c : Ctl) (d bar : SReg) (s : State) : Out :=
  core s (.barArrive c d bar) fun x =>
    barRead s x (.barArrive c d bar) bar fun a b => arriveAt s x (.barArrive c d bar) d a b 0

/-- BAR.ARRIVEX (R132, R287). -/
def execBarArrivex (c : Ctl) (d bar : SReg) (n : SB) (s : State) : Out :=
  core s (.barArrivex c d bar n) fun x =>
    barRead s x (.barArrivex c d bar n) bar fun a b => arriveAt s x (.barArrivex c d bar n) d a b (plain x.t n)

/-- BAR.EXPECT (R132, R287). The phase completes when it finds and leaves PENDING and INBOUND at 0, as a plain store can have left them
(log 91). -/
def execBarExpect (c : Ctl) (out : Bool) (bar : SReg) (n : SB) (s : State) : Out :=
  core s (.barExpect c out bar n) fun x =>
    barRead s x (.barExpect c out bar n) bar fun a b =>
      let v := (if out then b.outbound else b.inbound) + plain x.t n
      if 2 ^ 32 ≤ v then raise s x (.barExpect c out bar n) { code := 0x0502 }
      else after (setBar s x.t.cid a (if out then { b with outbound := v } else { b with inbound := v } : Bar).settled) x

/-- The end of a wait: misuse, then an unreported chunk fault of a copy that named the barrier, else an acquire at crew scope
(R133, R289). -/
def barWaited (s : State) (x : Ctx) (i : Instr) (a : Nat) (b : Bar) : State :=
  if b.overrun then raise s x i { code := 0x0502 }
  else match barFault s x.tid a with
    | some (age, y) => raise { s with copies := s.copies.erase age } x i
        { code := (y.fault.map CFault.code).getD 0, addr := y.fault.map CFault.addr }
    | none => done (acquire s x.core .crew) x (x.t.sees s.clock)

/-- BAR.WAIT (R133, R287). -/
def execBarWait (c : Ctl) (bar : SReg) (g : SB) (s : State) : Out :=
  core s (.barWait c bar g) fun x => barRead s x (.barWait c bar g) bar fun a b => barWaited s x (.barWait c bar g) a b

/-- BAR.WAITOUT (R133, R287). -/
def execBarWaitout (c : Ctl) (bar : SReg) (s : State) : Out :=
  core s (.barWaitout c bar) fun x => barRead s x (.barWaitout c bar) bar fun a b => barWaited s x (.barWaitout c bar) a b

/-- BAR.TEST (R133, R288). -/
def execBarTest (c : Ctl) (d : PReg) (bar : SReg) (g : SB) (s : State) : Out :=
  core s (.barTest c d bar g) fun x =>
    barRead s x (.barTest c d bar g) bar fun _ b =>
      let r := b.gen != plain x.t g % 16
      done (if r then acquire s x.core .crew else s) x ((if r then x.t.sees s.clock else x.t).setP d.val x.m (predMask x.ls fun _ => r))

end Sys2Proof.Machine
end

