-- ==== Sys2Proof/Machine/Sha256.lean ====
section
/-! DEFINITION. SHA-256 and HMAC-SHA-256, with which the Headframe measures its layers and derives their secrets (08, R169). The two
functions are the published standards that R169 names (log 4). -/

namespace Sys2Proof.Machine

/-- The constants of the 64 rounds. -/
def shaK : List Word := [
  0x428A2F98, 0x71374491, 0xB5C0FBCF, 0xE9B5DBA5, 0x3956C25B, 0x59F111F1, 0x923F82A4, 0xAB1C5ED5,
  0xD807AA98, 0x12835B01, 0x243185BE, 0x550C7DC3, 0x72BE5D74, 0x80DEB1FE, 0x9BDC06A7, 0xC19BF174,
  0xE49B69C1, 0xEFBE4786, 0x0FC19DC6, 0x240CA1CC, 0x2DE92C6F, 0x4A7484AA, 0x5CB0A9DC, 0x76F988DA,
  0x983E5152, 0xA831C66D, 0xB00327C8, 0xBF597FC7, 0xC6E00BF3, 0xD5A79147, 0x06CA6351, 0x14292967,
  0x27B70A85, 0x2E1B2138, 0x4D2C6DFC, 0x53380D13, 0x650A7354, 0x766A0ABB, 0x81C2C92E, 0x92722C85,
  0xA2BFE8A1, 0xA81A664B, 0xC24B8B70, 0xC76C51A3, 0xD192E819, 0xD6990624, 0xF40E3585, 0x106AA070,
  0x19A4C116, 0x1E376C08, 0x2748774C, 0x34B0BCB5, 0x391C0CB3, 0x4ED8AA4A, 0x5B9CCA4F, 0x682E6FF3,
  0x748F82EE, 0x78A5636F, 0x84C87814, 0x8CC70208, 0x90BEFFFA, 0xA4506CEB, 0xBEF9A3F7, 0xC67178F2]

/-- The eight working words. -/
structure ShaRegs where
  a : Word
  b : Word
  c : Word
  d : Word
  e : Word
  f : Word
  g : Word
  h : Word
  deriving DecidableEq, Repr

/-- The words with which a hash begins. -/
def shaStart : ShaRegs :=
  ⟨0x6A09E667, 0xBB67AE85, 0x3C6EF372, 0xA54FF53A, 0x510E527F, 0x9B05688C, 0x1F83D9AB, 0x5BE0CD19⟩

/-- One round, with its constant and its word of the schedule. -/
def shaRound (r : ShaRegs) (k w : Word) : ShaRegs :=
  let s1 := r.e.rotateRight 6 ^^^ r.e.rotateRight 11 ^^^ r.e.rotateRight 25
  let s0 := r.a.rotateRight 2 ^^^ r.a.rotateRight 13 ^^^ r.a.rotateRight 22
  let t1 := r.h + s1 + ((r.e &&& r.f) ^^^ (~~~r.e &&& r.g)) + k + w
  let t2 := s0 + ((r.a &&& r.b) ^^^ (r.a &&& r.c) ^^^ (r.b &&& r.c))
  ⟨t1 + t2, r.a, r.b, r.c, r.d + t1, r.e, r.f, r.g⟩

/-- The schedule, the newest word first: n more words. -/
def shaSchedule : Nat → List Word → List Word
  | 0, l => l
  | n + 1, l =>
    let x := l.getD 1 0
    let y := l.getD 14 0
    let w := (x.rotateRight 17 ^^^ x.rotateRight 19 ^^^ x >>> 10) + l.getD 6 0 + (y.rotateRight 7 ^^^ y.rotateRight 18 ^^^ y >>> 3) + l.getD 15 0
    shaSchedule n (w :: l)

/-- Words of bytes, the first byte the most significant. -/
def bigWords : Nat → List Byte → List Word
  | 0, _ => []
  | n + 1, l => (l.getD 0 0 ++ l.getD 1 0 ++ l.getD 2 0 ++ l.getD 3 0 : Word) :: bigWords n (l.drop 4)

/-- The hash after a block of 64 bytes. -/
def shaBlock (h : ShaRegs) (b : List Byte) : ShaRegs :=
  let w := (shaSchedule 48 (bigWords 16 b).reverse).reverse
  let r := (shaK.zip w).foldl (fun r x => shaRound r x.1 x.2) h
  ⟨h.a + r.a, h.b + r.b, h.c + r.c, h.d + r.d, h.e + r.e, h.f + r.f, h.g + r.g, h.h + r.h⟩

def shaBlocks : Nat → ShaRegs → List Byte → ShaRegs
  | 0, h, _ => h
  | n + 1, h, l => shaBlocks n (shaBlock h (l.take 64)) (l.drop 64)

/-- The bytes of a number, the most significant first. -/
def bigBytes (n v : Nat) : List Byte := ((List.range n).map fun j => BitVec.ofNat 8 (v / 2 ^ (8 * j))).reverse

/-- A message with its padding. -/
def shaPad (m : List Byte) : List Byte :=
  m ++ 0x80 :: (List.replicate ((119 - m.length % 64) % 64) 0 ++ bigBytes 8 (8 * m.length))

/-- SHA-256 of bytes; the first byte of the hash is the most significant. -/
def sha256 (m : List Byte) : BitVec 256 :=
  let p := shaPad m
  let h := shaBlocks (p.length / 64) shaStart p
  h.a ++ h.b ++ h.c ++ h.d ++ h.e ++ h.f ++ h.g ++ h.h

/-- The bytes of a hash or of a secret. -/
def hashBytes (h : BitVec 256) : List Byte := bigBytes 32 h.toNat

/-- HMAC-SHA-256 under a key of 32 bytes. -/
def hmacSha256 (key : BitVec 256) (m : List Byte) : BitVec 256 :=
  let k := hashBytes key ++ List.replicate 32 0
  sha256 (k.map (· ^^^ 0x5C) ++ hashBytes (sha256 (k.map (· ^^^ 0x36) ++ m)))

end Sys2Proof.Machine
end

