-- ==== Sys2Proof/Machine/Headframe.lean ====
section
/-! DEFINITION. The host's registers, partitions, boot, attestation and firmware (03, 05, 07, 08, 11, 20, 23, 24, R4, R65, R67, R101, R151 to R153, R162 to R172, R222, R389 to R391). -/

namespace Sys2Proof.Machine

/-! ### Writes of the Task Window page -/

/-- Bits lo upward, n of them, of a written value. -/
def vBits (v lo n : Nat) : Nat := v / 2 ^ lo % 2 ^ n

def updRing (x : Part) (r : Nat) (f : Ring → Ring) : Part := { x with rings := x.rings.set r (f (x.rings.getD r {})) }

/-- RINGCFG is written: PROD and the device's copy of the consumer index become 0 (R151, R153). The next read of the index may then come at
once (log 72). -/
def ringCfg (x : Part) (r v : Nat) : Part :=
  updRing x r fun y => { y with en := vBits v 8 1 = 1, log2n := BitVec.ofNat 5 v, prod := 0, copy := 0, polled := none }

/-- A ring register is written (Table 07.4). -/
def ringWrite (x : Part) (r off v : Nat) : Part :=
  match off with
  | 0x00 => updRing x r fun y => { y with base := BitVec.ofNat 64 (v / 64 * 64) }
  | 0x08 => updRing x r fun y => { y with baseHi := BitVec.ofNat 16 v }
  | 0x10 => updRing x r fun y => { y with cons := BitVec.ofNat 64 (v / 4 * 4) }
  | 0x18 => updRing x r fun y => { y with consHi := BitVec.ofNat 16 v }
  | 0x20 => ringCfg x r v
  | 0x30 => updRing x r fun y => { y with seq := if v % 2 ^ 32 = 0 then 1 else BitVec.ofNat 32 v }
  | 0x38 => updRing x r fun y => { y with lim := BitVec.ofNat 32 v }
  | _ => x

/-- RINGCFG_WRITE (R151, R153). -/
def execRingcfgWrite (p r : Nat) (value : DWord) (s : State) : Out :=
  .next (if isFormed s p && r < 8 && (s.part p).twState != .running then s.updPart p fun x => ringCfg x r value.toNat else s)

/-- QCONSENT_WRITE (R167). -/
def execQconsentWrite (p : Nat) (value : DWord) (s : State) : Out :=
  .next (if isFormed s p then s.updPart p fun x => { x with qconsent := value.setWidth 16 } else s)

/-- XLINV_ALL (R101). -/
def xlinv (s : State) (p : Nat) : State := s.updPart p fun x => { x with xlinvBusy := true }
def execXlinvAll (p : Nat) (s : State) : Out := .next (if isFormed s p then xlinv s p else s)

/-- INVALIDATION_COMPLETE (R101). -/
def execInvalidationComplete (p : Nat) (s : State) : Out :=
  .next (if (s.part p).xlinvBusy then (invalidate s p).updPart p fun x => { x with xlinvBusy := false } else s)

/-- Every team of a partition with lanes left. -/
def partTeams (s : State) (p : Nat) : List Nat :=
  (s.teams.filter fun (e : Nat × Team) => !e.2.entries.isEmpty && match s.crews.get? e.2.cid with
    | some c => c.part == p
    | none => false).map Prod.fst

/-- HALTREQ: a team in the middle of a host atomic halts after it (R222). The teams halt in the order of the table of teams, so that the
last one there is the latest halted (log 88). -/
def dbgHalt (s : State) (p : Nat) : State :=
  if (s.part p).dbg.en then
    (partTeams s p).foldl (fun s tid => haltIfAsked (s.updTeam tid fun t => { t with haltAsked := !t.halted }) tid) s
  else s

/-- RESUME (R222). -/
def dbgResume (s : State) (p : Nat) : State :=
  (partTeams s p).foldl (fun s tid => s.updTeam tid fun t => { t with halted := false, haltAsked := false }) s

/-- COUNT: the teams of a partition that are halted (Table 11.4). -/
def haltedTeams (s : State) (p : Nat) : Nat :=
  (s.teams.filter fun (e : Nat × Team) => e.2.halted && match s.crews.get? e.2.cid with
    | some c => c.part == p
    | none => false).length

def execDbgHaltreq (p : Nat) (s : State) : Out := .next (if isFormed s p then dbgHalt s p else s)
def execDbgResume (p : Nat) (s : State) : Out := .next (if isFormed s p then dbgResume s p else s)

/-- Halts that have been asked for and not yet made are given up: clearing EN stops new halts (R222). -/
def unaskHalts (s : State) (p : Nat) : State :=
  (partTeams s p).foldl (fun s tid => s.updTeam tid fun t => { t with haltAsked := false }) s

/-- DBGCTL is written: EN, then HALTREQ, then RESUME (log 20). -/
def dbgWrite (s : State) (p v : Nat) : State :=
  let s := s.updPart p fun x => { x with dbg := { x.dbg with en := vBits v 0 1 = 1 } }
  let s := if vBits v 0 1 = 1 then s else unaskHalts s p
  let s := if vBits v 1 1 = 1 then dbgHalt s p else s
  if vBits v 2 1 = 1 then dbgResume s p else s

/-- XLROOT (Table 05.4). -/
def rootOf (v : Nat) : XlRoot := { pa := BitVec.ofNat 43 (vBits v 15 43), mt := BitVec.ofNat 2 (vBits v 5 2), en := vBits v 0 1 = 1 }

/-- A limit register stores 1 for 0 (Table 23.3). -/
def limitOf (v : Nat) : Word := if v % 2 ^ 32 = 0 then 1 else BitVec.ofNat 32 v

/-- TSLICE is written: a team whose count runs keeps its LIMIT until the next count, and one with no count starts one (Table 02.5;
log 95). -/
def tsliceWrite (s : State) (p v : Nat) : State :=
  let s := s.updPart p fun x => { x with tslice := BitVec.ofNat 32 v }
  (partTeams s p).foldl (fun s tid => s.updTeam tid fun t =>
    if t.active && t.slice = 0 then { t with slice := v % 2 ^ 32, enteredAt := s.clock } else t) s

/-- A write of the Task Window page that only changes registers. -/
def pageWrite (x : Part) (off v : Nat) : Part :=
  let stopped := x.twState != .running
  match off with
  | 0x100 => if stopped then { x with xlroot := rootOf v } else x
  | 0x110 => { x with xlf := { x.xlf with valid := x.xlf.valid && vBits v 31 1 = 0, more := x.xlf.more && vBits v 30 1 = 0 } }
  | 0x130 => if stopped then { x with iotmo := limitOf v } else x
  | 0x138 => if stopped then { x with nredlim := limitOf v } else x
  | 0x140 => { x with iolog := { x.iolog with valid := x.iolog.valid && vBits v 63 1 = 0, count := BitVec.ofNat 16 (vBits v 32 16) } }
  | 0x148 => { x with eccCorr := BitVec.ofNat 32 (vBits v 32 32), eccUncorr := BitVec.ofNat 16 (vBits v 16 16) }
  | 0x150 => { x with mismatch := BitVec.ofNat 32 (vBits v 32 32), reruns := BitVec.ofNat 32 v }
  | 0x158 => { x with jpass := BitVec.ofNat 64 v }
  | 0x400 => { x with qconsent := BitVec.ofNat 16 v }
  | _ => if 0x200 ≤ off && off < 0x400 && stopped then ringWrite x ((off - 0x200) / 0x40) (off % 0x40) v else x

/-- A write of a formed partition's BAR0 (R162). -/
def vfWrite (s : State) (p off v : Nat) : State :=
  match off with
  | 0x000 => twctlWrite s p v
  | 0x010 => twpcWrite s p false v
  | 0x018 => twpcWrite s p true v
  | 0x108 => if vBits v 0 1 = 1 then xlinv s p else s
  | 0x160 => dbgWrite s p v
  | 0x188 => tsliceWrite s p v
  | _ =>
    if 0x1000 ≤ off then (if off + 8 ≤ 0x10000 then s.store (.mail p) off 8 v else s)
    else s.updPart p fun x => pageWrite x off v

/-! ### Formation (R164, R171) -/

/-- Bytes of a partition's carve-out, and of its pool (R164). -/
def Part.carve (x : Part) : Nat := x.size.toNat * 4096 * 64
def Part.poolBytes (x : Part) : Nat := ((List.range 12).map fun c => x.poolCount c * classBytes c).sum

/-- Others of the partitions. -/
def others (p : Nat) : List Nat := (List.range Config.partitions).filter (· != p)

/-- ERR 1. -/
def coresOk (s : State) (p : Nat) : Bool :=
  let x := s.part p
  x.pcore2 = 0 && x.pcore3 = 0 && !x.cores.isEmpty &&
  x.cores.all fun c => !s.withheldCores.contains c && (s.coreStatOf c).state != 2 && (others p).all fun q => !(lives s q && (s.part q).hasCore c)

/-- ERR 2. -/
def carveOk (s : State) (p : Nat) : Bool :=
  let x := s.part p
  x.base.toNat + x.size.toNat ≤ 1280 &&
  (s.withheldLode.all fun u => u < x.base.toNat || x.base.toNat + x.size.toNat ≤ u) &&
  (others p).all fun q =>
    let y := s.part q
    !lives s q || x.size = 0 || y.size = 0 || x.base.toNat + x.size.toNat ≤ y.base.toNat || y.base.toNat + y.size.toNat ≤ x.base.toNat

/-- ERR 3. -/
def poolOk (x : Part) : Bool := x.direct.toNat * 4096 ≤ x.carve && x.poolBytes ≤ x.carve - x.direct.toNat * 4096

/-- ERR 4. The shares of a partition that is being formed count with those of the formed ones, which they are about to join (log 106). -/
def sharesOk (s : State) (p : Nat) : Bool :=
  let l := (others p).filter fun q => (s.part q).state == .formed || (s.part q).state == .forming
  (s.part p).meshShare.toNat + (l.map fun q => (s.part q).meshShare.toNat).sum ≤ 100 &&
  (s.part p).cxlShare.toNat + (l.map fun q => (s.part q).cxlShare.toNat).sum ≤ 100

/-- An entry of a window list (Table 08.2, R171). -/
def windowEntry (s : State) (p a : Nat) : Option PWindow :=
  let base := s.host.read a 8
  let len := s.host.read (a + 8) 8
  let w := s.host.read (a + 16) 8
  let target := s.host.read (a + 24) 8
  let ethes := vBits w 0 2 == 1
  let link := vBits w 8 3
  let ports := vBits w 16 12
  if base % 2 ^ 28 = 0 && len % 2 ^ 28 = 0 && len ≠ 0 && base < 2 ^ 58 && base + len ≤ 2 ^ 58 && w / 2 ^ 28 = 0 && vBits w 11 5 = 0 &&
      vBits w 2 6 = 0 && vBits w 0 2 < 2 &&
      (if ethes then ports = 0 && target % 4096 = 0 && (match s.linkcfg.get? link with
          | some c => c.en && c.part.toNat == p
          | none => false)
        else ports ≠ 0 && link = 0 && target = 0) then
    some { base, len, ports, link, ethes, target }
  else none

/-- No two windows overlap. -/
def disjoint : List PWindow → Bool
  | [] => true
  | w :: l => (l.all fun v => w.base + w.len ≤ v.base || v.base + v.len ≤ w.base) && disjoint l

/-- An access to host memory at a clock in which the endpoint answers a line of it with an error (R368). -/
def hostFails (s : State) (a n : Nat) : Bool :=
  s.portLine.any fun (e : Nat × Nat) => e.1 / 2 ^ 64 == Store.host.code && a / 128 ≤ e.1 % 2 ^ 64 && 128 * (e.1 % 2 ^ 64) < a + n

/-- The window list of a partition, read through the endpoint; none breaks R171 or cannot be read (ERR 6). -/
def windowList (s : State) (p : Nat) : Option (List PWindow) :=
  let a := (s.part p).pcxl.toNat
  if a = 0 then some []
  else
    let n := s.host.read a 4
    if hostFails s a 64 || a % 64 ≠ 0 || 64 < n || 2 ^ 58 < a + 64 + 32 * n || hostFails s a (64 + 32 * n) || !s.host.isZero (a + 4) 60 then none
    else match allSome ((List.range n).map fun j => windowEntry s p (a + 64 + 32 * j)) with
      | none => none
      | some l => if disjoint l then some l else none

/-- The first condition of R164 that fails; 0 when none does. -/
def formError (s : State) (p : Nat) (free : Bool) : Nat :=
  if !coresOk s p then 1
  else if !carveOk s p then 2
  else if !poolOk (s.part p) then 3
  else if !sharesOk s p then 4
  else if !free then 5
  else if (windowList s p).isNone then 6
  else 0

/-- The registers of Table 08.1, in their order. -/
def Part.registers (x : Part) : List Nat :=
  [x.pcore0.toNat, x.pcore1.toNat, x.pcore2.toNat, x.pcore3.toNat, x.base.toNat + 2 ^ 16 * x.size.toNat + 2 ^ 32 * x.direct.toNat,
   x.ppool0.toNat, x.ppool1.toNat, x.ppool2.toNat, x.meshShare.toNat + 2 ^ 8 * x.cxlShare.toNat, x.pcxl.toNat]

/-- A partition with the registers of Table 08.1 and nothing else. -/
def Part.described (x : Part) : Part :=
  { err := x.err, pcore0 := x.pcore0, pcore1 := x.pcore1, pcore2 := x.pcore2, pcore3 := x.pcore3
    direct := x.direct, size := x.size, base := x.base, ppool0 := x.ppool0, ppool1 := x.ppool1, ppool2 := x.ppool2
    cxlShare := x.cxlShare, meshShare := x.meshShare, pcxl := x.pcxl, msix := x.msix, endorsed := x.endorsed }

/-- CMD form: the conditions hold of the state at the command, and the window list is read then and kept (R164, R171). Nothing is formed
while a reset of function 0 dissolves the partitions (R163). -/
def form (s : State) (p : Nat) : State :=
  if s.boot ≠ 1 || s.pf0Reset || Config.partitions ≤ p then s
  else match formError s p (!lives s p), windowList s p with
    | 0, some l => s.updPart p fun x => { x with state := .forming, err := 0, windows := l }
    | n, _ => s.updPart p fun x => { x with err := BitVec.ofNat 6 n }

def execPartitionForm (p : Nat) (s : State) : Out := .next (form s p)

/-- The key of a layer, as sigCount numbers it: a partition's follows from its Table 08.1 registers alone (R169). -/
def layerKey (s : State) (l : Nat) : Nat :=
  match l with
  | 0 => 0
  | 1 => 1
  | p + 2 => 2 + (s.part p).registers.foldl (fun k v => 2 ^ 64 * k + v) 0

/-- A key signs once more; none signs more than 1,024 times (R169). -/
def signedOnce (s : State) (key : Nat) : State := { s with sigCount := s.sigCount.set key (capped 1024 (s.sigCount.getD key 0)) }

/-- PARTITION_FORM_COMPLETE (R164, R172): the firmware's key endorses the partition's new one, if it may still sign (log 103). -/
def formComplete (s : State) (p : Nat) : State :=
  if (s.part p).state != .forming then s
  else
    let n := s.sigCount.getD 1 0
    let s := s.updPart p fun x => { x.described with
      state := .formed, err := 0, windows := x.windows, ideKey := true, free := x.pool, endorsed := if n < 1024 then some n else none }
    adoptPoison (signedOnce s 1) p

def execPartitionFormComplete (p : Nat) (s : State) : Out := .next (formComplete s p)

/-! ### Dissolution (R165, R389) -/

/-- The partition's queues are withdrawn: they are granted no longer, and lose their messages (R165, R167; log 107). -/
def withdraw (s : State) (p : Nat) : State :=
  let mine := fun (q : Nat) => match s.qdef.get? q with
    | some d => d.send.toNat == p || d.recv.toNat == p
    | none => false
  { s with qdef := s.qdef.map fun (e : Nat × QDef) => (e.1, if mine e.1 then { e.2 with en := false } else e.2)
           queues := s.queues.filter fun (e : Nat × List Nat) => !mine e.1
           queueLost := s.queueLost.filter fun (e : Nat × Nat) => !mine e.1 }

/-- The partition stops and its storage is about to be scrubbed: nothing of it runs or waits any more, and its function raises no
interrupt (R162, R163, R165). -/
def dissolveNow (s : State) (p : Nat) : State :=
  (withdraw (stopAll s p) p).updPart p fun x => { x with
    state := .dissolving, ideKey := false, qconsent := 0
    twState := .idle, window := [], haltReq := false, flrReq := false, acks := [], ffault := none }

/-- CMD dissolve (R165). -/
def dissolve (s : State) (p : Nat) : State :=
  if s.boot = 1 && isFormed s p && ((s.part p).twState = .idle || (s.part p).twState = .halted) then dissolveNow s p else s

def execPartitionDissolve (p : Nat) (s : State) : Out := .next (dissolve s p)

/-- A row of a core's scratchpad that does not read as zero moves to a spare row; with none left the core is withheld. A row from 2,048 up
stands for a line of the accumulator files or the mask queues, which have no spare rows (R389; log 108). -/
def scrubCore (s : State) (x : Nat × Nat) : State :=
  if x.2 < 2048 && spareRows s (.scratch x.1) ≠ 0 then useSpareRow s (.scratch x.1) x.2
  else { s with withheldCores := s.withheldCores ++ [x.1], iso := true }

/-- A row of a Lode slice that does not read as zero moves to a spare row; with none left its 4 KiB unit is withheld (R389). -/
def scrubRow (s : State) (x : Nat × Nat) : State :=
  if spareRows s (.lodeSlice x.1) ≠ 0 then useSpareRow s (.lodeSlice x.1) x.2
  else { s with withheldLode := s.withheldLode ++ [x.2 / 4], iso := true }

/-- The storage of a partition reads as zero, but for what is withheld (R165, R389). No cached line or translation is left. A line that
does not read as zero is 32,768·core + line, or 40,960·slice + line. -/
def scrub (s : State) (p : Nat) (badCores badLines : List Nat) : State :=
  let x := s.part p
  let cs := ((badCores.map fun b => (b / 32768, b % 32768 / 8)).filter fun b => x.hasCore b.1).eraseDups
  let us := ((badLines.map fun b => (b / 40960, b % 40960 / 8)).filter fun b =>
    b.1 < 64 && x.base.toNat ≤ b.2 / 4 && b.2 / 4 < x.base.toNat + x.size.toNat).eraseDups
  let gone := fun (k : Nat) => x.hasCore (k / 2 ^ 84) || k / 2 ^ 84 == frontCore + p
  let s := { s.setPart p x.described with
    rcache := s.rcache.filter fun (e : Nat × Nat) => !gone e.1
    ptes := s.ptes.filter fun (e : Nat × Nat) => !gone e.1
    poisonLode := s.poisonLode.filter fun k => k / 2 ^ 51 != p }
  us.foldl scrubRow (cs.foldl scrubCore s)

/-- The registers of function 0 take their reset values, but for the service status and the stored image, once every partition is
dissolved (R163). -/
def pf0Clear (s : State) : State :=
  if s.pf0Reset && (List.range Config.partitions).all fun p => !lives s p then
    { s with
      pf0Reset := false, parts := s.parts.map fun (e : Nat × Part) => (e.1, { msix := e.2.msix })
      qdef := [], linkcfg := [], attLayer := 0, attStatus := 0, attAddr := 0, attNonce := 0
      fwLen := 0, fwDone := false, fwReject := false, fwBusy := false, fwAddr := 0 }
  else s

/-- PARTITION_DISSOLVE_COMPLETE (R165, R389). -/
def execPartitionDissolveComplete (p : Nat) (badCores badLines : List Nat) (s : State) : Out :=
  .next (if (s.part p).state = .dissolving then pf0Clear (scrub s p badCores badLines) else s)

/-- PF0_FLR: every partition is dissolved, and with the last of them the registers are reset (R163, R165, R389; log 105). -/
def execPf0Flr (s : State) : Out :=
  .next (pf0Clear { (List.range Config.partitions).foldl (fun s p => if lives s p then dissolveNow s p else s) s with pf0Reset := true })

/-- UNFORMED_VF_ACCESS: a read answers all ones and changes nothing; a write is dropped (R162). -/
def execUnformedVfAccess (_p _off : Nat) (_value : Option DWord) (s : State) : Out := .next s

/-! ### Boot, attestation and firmware (R169 to R172, R390) -/

/-- BOOT (Table 24.2). -/
def bootOf : Verdict → BitVec 4
  | .accepted => 1
  | .badSignature => 2
  | .badVersion => 3
  | .noImage => 4

/-- Bytes of registers, each 8 bytes with the low byte first (log 4). -/
def registerBytes (l : List Nat) : List Byte := l.flatMap fun v => (List.range 8).map (leByte v)

/-- Measurement H of a layer (R169): of the firmware its image, of a partition its Table 08.1 registers. -/
def layerHash (image : List Nat) (s : State) (l : Nat) : BitVec 256 :=
  match l with
  | 0 => Config.romMeasurement
  | 1 => sha256 (image.map (BitVec.ofNat 8))
  | p + 2 => sha256 (registerBytes (s.part p).registers)

/-- The CDI of the next layer (R169). -/
def nextCdi (cdi hash : BitVec 256) : BitVec 256 := hmacSha256 cdi (hashBytes hash)

/-- DEVICE_RESET: the ROM checks the stored image and, when it accepts it, measures it, passes CDI(1) on, and endorses the firmware layer
(R169, R170, R172). What lies outside the device stays. -/
def execDeviceReset (s : State) : Out :=
  let b := bootOf (Config.verdict s.fwImage)
  .next { State.reset with
    epoch := s.epoch + 1, agenda := s.agenda, fresh := s.fresh, host := s.host, cxl := s.cxl, poisonCxl := s.poisonCxl
    fwImage := s.fwImage, fwRun := if b = 1 then s.fwImage else [], boot := b, sigCount := if b = 1 then [(0, 1)] else []
    cdi := if b = 1 then nextCdi Config.rootCdi (layerHash s.fwImage s 1) else 0 }

/-- The CDI of a layer (R169). -/
def layerCdi (s : State) (l : Nat) : BitVec 256 :=
  match l with
  | 0 => Config.rootCdi
  | 1 => s.cdi
  | p + 2 => nextCdi s.cdi (layerHash s.fwRun s (p + 2))

/-- Layers of a response (Table 08.5). -/
def layersOf (l : Nat) : List Nat :=
  match l with
  | 0 => [0]
  | 1 => [0, 1]
  | _ => [0, 1, l]

/-- STATUS that refuses a request (Table 08.4); 1 when it is served. Of an exhausted key and a buffer that cannot be accessed the key comes
first (log 128). -/
def attestStatus (s : State) (l : Nat) : BitVec 8 :=
  if s.boot ≠ 1 then 4
  else if 9 < l || (2 ≤ l && !isFormed s (l - 2)) then 5
  else if 1024 ≤ s.sigCount.getD (layerKey s l) 0 then 3
  else if 2 ^ 58 < s.attAddr.toNat + 16384 || hostFails s s.attAddr.toNat 32 then 6
  else 1

/-- ATTESTATION_START: a write of ATTCTL. The nonce is read before STATUS is 1 (R172). -/
def attest (s : State) (v : Nat) : State :=
  if s.attStatus = 1 then s
  else
    let l := vBits v 16 4
    let s := { s with attLayer := BitVec.ofNat 4 l }
    if vBits v 0 1 = 1 then { s with attStatus := attestStatus s l, attNonce := s.host.read s.attAddr.toNat 32 } else s

def execAttestationStart (value : DWord) (s : State) : Out := .next (attest s value.toNat)

/-- What an endorsement signs: H and the public key (Table 08.5). -/
def layerClaim (s : State) (l : Nat) : List Byte :=
  hashBytes (layerHash s.fwRun s l) ++ (List.range 56).map (leByte (Config.lmsPublic (layerCdi s l)))

/-- The endorsement of a layer by the key of the one before: of the firmware at boot, of a partition at formation, as that key's signature
of the number it then had. One that could not be made is unknown (R172, Table 08.5; log 103). -/
def endorsement (s : State) (l : Nat) : Nat :=
  match l with
  | 0 => 0
  | 1 => Config.lmsSign Config.rootCdi 0 (layerClaim s 1)
  | p + 2 => match (s.part p).endorsed with
    | some n => Config.lmsSign s.cdi n (layerClaim s (p + 2))
    | none => freeNat s (8 * 2508)

/-- The record of a layer (Table 08.5). -/
def layerRecord (s : State) (l : Nat) : Nat :=
  ofBytes (layerClaim s l) + 2 ^ (8 * 88) * (endorsement s l % 2 ^ (8 * 2508))

/-- Bytes 64 to 127 + 2,624·L of a response, as one number. -/
def responseBody (s : State) (l : Nat) : Nat :=
  (layersOf l).length + ((layersOf l).zipIdx.map fun x => layerRecord s x.1 * 2 ^ (8 * (64 + 2624 * x.2))).sum

/-- The quote: a signature of the layer's key over the nonce and the response (Table 08.5). -/
def quoteOf (s : State) (l n body : Nat) : Nat :=
  Config.lmsSign (layerCdi s l) (s.sigCount.getD (layerKey s l) 0) ((List.range 32).map (leByte s.attNonce) ++ (List.range n).map (leByte body)) %
    2 ^ (8 * 2508)

/-- ATTESTATION_RESPONSE: the whole response is written, or nothing; a key that has signed its last in the meantime signs no more (R169,
R172). A partition that was dissolved since the request is answered for by its Table 08.1 registers as they stand (log 104). -/
def attestationResponse (s : State) : State :=
  if s.attStatus ≠ 1 then s
  else
    let a := s.attAddr.toNat
    let l := s.attLayer.toNat
    let n := 64 + 2624 * (layersOf l).length
    if 1024 ≤ s.sigCount.getD (layerKey s l) 0 then { s with attStatus := 3 }
    else if hostFails s (a + 64) (n + 2508) then { s with attStatus := 6 }
    else
      let body := responseBody s l
      { signedOnce s (layerKey s l) with
        fresh := s.fresh + 1
        host := (s.host.write (a + 64) n body).write (a + 64 + n) 2508 (quoteOf s l n body)
        attStatus := 2 }

def execAttestationResponse (s : State) : Out := .next (attestationResponse s)

/-- FW_LOAD_START: a write of FWCTL (R390). A load that runs is not started again (log 21). -/
def fwStart (s : State) (v : Nat) : State :=
  { s with
    fwLen := BitVec.ofNat 32 (vBits v 32 32)
    fwReject := s.fwReject && vBits v 2 1 = 0
    fwDone := s.fwDone && vBits v 1 1 = 0
    fwBusy := s.fwBusy || vBits v 0 1 = 1 }

def execFwLoadStart (value : DWord) (s : State) : Out := .next (fwStart s value.toNat)

/-- FW_IMAGE_CHECK (R170, R390): an image that cannot be read is rejected (log 21). -/
def fwCheck (s : State) : State :=
  if !s.fwBusy then s
  else
    let a := s.fwAddr.toNat
    let image := (List.range s.fwLen.toNat).map fun j => (s.host.byte (a + j)).toNat
    if a + s.fwLen.toNat ≤ 2 ^ 58 && !hostFails s a s.fwLen.toNat && Config.verdict image = .accepted then { s with fwBusy := false, fwImage := image, fwDone := true }
    else { s with fwBusy := false, fwReject := true }

def execFwImageCheck (s : State) : Out := .next (fwCheck s)

/-! ### Writes of PF0 -/

/-- A register of Table 08.1 other than PCTL; writes count only while the partition is free (R164). -/
def descWrite (x : Part) (off v : Nat) : Part :=
  match off with
  | 0x10 => { x with pcore0 := BitVec.ofNat 64 v }
  | 0x18 => { x with pcore1 := BitVec.ofNat 64 v }
  | 0x20 => { x with pcore2 := BitVec.ofNat 64 v }
  | 0x28 => { x with pcore3 := BitVec.ofNat 64 v }
  | 0x30 => { x with base := BitVec.ofNat 16 v, size := BitVec.ofNat 16 (vBits v 16 16), direct := BitVec.ofNat 32 (vBits v 32 32) }
  | 0x38 => { x with ppool0 := BitVec.ofNat 64 v }
  | 0x40 => { x with ppool1 := BitVec.ofNat 64 v }
  | 0x48 => { x with ppool2 := BitVec.ofNat 64 v }
  | 0x50 => { x with meshShare := BitVec.ofNat 8 v, cxlShare := BitVec.ofNat 8 (vBits v 8 8) }
  | 0x58 => { x with pcxl := BitVec.ofNat 64 v }
  | _ => x

/-- A write among the registers of Table 08.1 (R164, R390). -/
def partWrite (s : State) (p off v : Nat) : State :=
  if s.boot ≠ 1 then s
  else if off = 0 then (match vBits v 0 2 with
    | 1 => form s p
    | 2 => dissolve s p
    | _ => s)
  else if lives s p then s
  else s.updPart p fun x => descWrite x off v

/-- LINKCFG (R171, Table 08.3). -/
def linkWrite (s : State) (n v : Nat) : State :=
  let c := s.linkcfg.getD n {}
  if c.en && lives s c.part.toNat then s
  else
    let y : LinkCfg := { glen := BitVec.ofNat 20 (vBits v 44 20), gbase := BitVec.ofNat 20 (vBits v 24 20), en := vBits v 8 1 = 1, part := BitVec.ofNat 3 v }
    { s with linkcfg := s.linkcfg.set n y }

/-- A write of function 0's BAR0 (R4, Tables 08.1, 08.3, 08.4, 24.2; R167). -/
def pfWrite (s : State) (off v : Nat) : State :=
  if 0x1000 ≤ off && off < 0x1800 then partWrite s ((off - 0x1000) / 0x100) (off % 0x100) v
  else if 0x2000 ≤ off && off < 0x2080 then
    let y : QDef := { send := BitVec.ofNat 3 v, recv := BitVec.ofNat 3 (vBits v 4 3), en := vBits v 8 1 = 1 }
    { s with qdef := s.qdef.set ((off - 0x2000) / 8) y }
  else if 0x2100 ≤ off && off < 0x2140 then linkWrite s ((off - 0x2100) / 8) v
  else if off = 0x3000 then { s with iso := s.iso && vBits v 4 1 = 0 }
  else if off = 0x3008 then fwStart s v
  else if off = 0x3010 then { s with fwAddr := BitVec.ofNat 64 v }
  else if 0x3100 ≤ off && off < 0x3500 then
    let y := { s.coreStatOf ((off - 0x3100) / 8) with strikes := BitVec.ofNat 4 (vBits v 16 4) }
    { s with coreStat := s.coreStat.set ((off - 0x3100) / 8) y }
  else if 0x3500 ≤ off && off < 0x3500 + 8 * portCount then
    s.updPort ((off - 0x3500) / 8) fun x => { x with retrain := BitVec.ofNat 8 (vBits v 16 8) }
  else if off = 0x3800 then attest s v
  else if off = 0x3808 then (if s.attStatus = 1 then s else { s with attAddr := BitVec.ofNat 64 (v / 4096 * 4096) })
  else s

/-- REGISTER_WRITE: an aligned 8-byte write of a BAR0 (R4, R162). -/
def execRegisterWrite (fn off : Nat) (value : DWord) (s : State) : Out :=
  .next (if off % 8 ≠ 0 then s
    else match fn with
      | 0 => pfWrite s off value.toNat
      | p + 1 => if p < Config.partitions && isFormed s p then vfWrite s p off value.toNat else s)

/-! ### Reads -/

/-- The instruction that the front stage holds. -/
def frontInsn (x : Part) : Option Instr :=
  match x.fblock with
  | some b => if b.addr = x.pc.blk && x.pc.slot < b.count then (match streamDecode (BitVec.ofNat 96 (b.word x.pc.slot)) with
      | .ok i => some i
      | .error _ => none) else none
  | none => none

/-- The free list that an instruction would take from is empty, and a buffer will return to it (R55). -/
def poolStalls (x : Part) (i : Instr) : Bool :=
  let short := fun (c : Nat) => (x.freeOf c).isEmpty && x.willReturn c
  let writes := fun (d : BufNo) => match x.rename.get? d.val with
    | some b => short (x.classOf b)
    | none => false
  match i with
  | .bdecl _ c => short c.toNat
  | .launch _ (some d) _ _ _ | .mmt _ false _ d _ _ _ | .smmt _ false _ d _ _ _ | .copyt _ false (some d) _ _ | .maskgen _ d _ _
  | .kvcompact _ d _ _ _ | .srule _ _ d _ _ _ | .saccept _ _ d _ _ _ | .qrecv _ d _ _ => writes d
  | _ => false

/-- An issued task has work that no engine or core is free to take, of those that it may take (R61, R385, Table 03.5). -/
def coresBusy (s : State) (p : Nat) (e : WinEntry) : Bool :=
  e.status == .issued && match launchOfEntry e, matTask e with
    | some (h, _), _ => e.placed < h.ncrew && !fits s (needOf p e h) (admits s (needOf p e h) e e.placed)
    | none, some (h, masked, _) => (List.range (h.count e.mblocks)).any e.unhanded && (match tileCore s p e with
      | none => true
      | some c => (chooseTiles s c e.cls (if h.sliced then 2 * e.mblocks else e.mblocks) h.sliced true).isNone ||
        (masked && (freeQueue s c).isNone))
    | none, none => (s.copies.any fun (x : Nat × Copy) => x.2.owner == COwner.task p e.seq && x.2.fault.isNone && x.2.started < x.2.chunks) &&
      (s.part p).cores.all fun c => !servesTasks s p c

/-- STALL, the rows of Table 03.5 in their order (R65). -/
def stalls (s : State) (p : Nat) : List Bool :=
  let x := s.part p
  let i := frontInsn x
  [x.full, i.any (poolStalls x),
   x.window.any (fun e => e.insn.joins) || (i == some .sjoin && !x.window.isEmpty),
   x.window.any fun e => e.status == .issued && match e.insn with
     | .qsend _ _ _ q => 64 ≤ (s.queues.getD q.toNat []).length
     | .qrecv _ _ _ q => (s.queues.getD q.toNat []).isEmpty
     | _ => false,
   x.window.any fun e => (waitingRing s p e.seq).isSome,
   x.window.any WinEntry.waits, x.window.any (coresBusy s p)]

/-- Named bits of a register: value and place. -/
def fieldsNat (l : List (Nat × Nat)) : Nat := (l.map fun f => f.1 * 2 ^ f.2).sum

def bit (b : Bool) : Nat := if b then 1 else 0

def TwState.code : TwState → Nat
  | .idle => 0
  | .running => 1
  | .halted => 2
  | .faulted => 3

def PState.code : PState → Nat
  | .free => 0
  | .forming => 1
  | .formed => 2
  | .dissolving => 3

/-- Four 16-bit counts of classes (Table 03.7). -/
def counts4 (f : Nat → Nat) (c : Nat) : Nat := fieldsNat ((List.range 4).map fun j => (f (c + j) % 65536, 16 * j))

/-- A ring register (Table 07.4). -/
def ringRead (r : Ring) (off : Nat) : Nat :=
  match off with
  | 0x00 => r.base.toNat
  | 0x08 => r.baseHi.toNat
  | 0x10 => r.cons.toNat
  | 0x18 => r.consHi.toNat
  | 0x20 => fieldsNat [(r.log2n.toNat, 0), (bit r.en, 8)]
  | 0x28 => r.prod.toNat
  | 0x30 => r.seq.toNat
  | 0x38 => r.lim.toNat
  | _ => 0

/-- A register of the Task Window page as 8 bytes (Tables 02.5, 03.7, 05.4, 07.4, 11.4, 20.1, 23.3, 24.2; R4). TWPC and TWPCH read as 0
while STATE is running (log 102). -/
def pageRead (s : State) (p off : Nat) : Nat :=
  let x := s.part p
  let r := x.rec_
  match off with
  | 0x008 => fieldsNat [(x.twState.code, 0), (bit x.preempted, 2), (fieldsNat ((stalls s p).zipIdx.map fun b => (bit b.1, b.2)), 10),
      (x.window.length, 17)]
  | 0x010 => if x.twState = .running then 0 else pcLow x.pc
  | 0x018 => if x.twState = .running then 0 else pcHigh x.pc
  | 0x020 => fieldsNat [(r.code.toNat, 0), (r.op.toNat, 16), (r.cls.toNat, 24), (bit r.stage, 26), (bit r.restart, 27), (bit r.outward, 28),
      (bit r.addrv, 29), (r.core.toNat, 32), (r.engine.toNat, 40), (r.detail.toNat, 48)]
  | 0x028 => pcLow r.pc
  | 0x030 => fieldsNat [(pcHigh r.pc, 0), (r.addr.toNat / 2 ^ 64, 16)]
  | 0x038 => r.addr.toNat % 2 ^ 64
  | 0x040 => counts4 (fun c => (x.freeOf c).length) 0
  | 0x048 => counts4 (fun c => (x.freeOf c).length) 4
  | 0x050 => counts4 (fun c => (x.freeOf c).length) 8
  | 0x060 => counts4 x.poolCount 0
  | 0x068 => counts4 x.poolCount 4
  | 0x070 => counts4 x.poolCount 8
  | 0x080 => r.prog.toNat
  | 0x100 => fieldsNat [(bit x.xlroot.en, 0), (x.xlroot.mt.toNat, 5), (x.xlroot.pa.toNat, 15)]
  | 0x108 => bit x.xlinvBusy
  | 0x110 => fieldsNat [(x.xlf.core.toNat, 0), (x.xlf.level.toNat, 13), (x.xlf.cause.toNat, 16), (bit x.xlf.more, 30), (bit x.xlf.valid, 31)]
  | 0x118 => x.xlf.pa.toNat
  | 0x120 => x.xlf.va.toNat % 2 ^ 64
  | 0x128 => x.xlf.va.toNat / 2 ^ 64
  | 0x130 => x.iotmo.toNat
  | 0x138 => x.nredlim.toNat
  | 0x140 => fieldsNat [(x.iolog.code.toNat, 0), (x.iolog.engine.toNat, 16), (x.iolog.count.toNat, 32), (bit x.iolog.valid, 63)]
  | 0x148 => fieldsNat [(x.eccUncorr.toNat, 16), (x.eccCorr.toNat, 32)]
  | 0x150 => fieldsNat [(x.reruns.toNat, 0), (x.mismatch.toNat, 32)]
  | 0x158 => x.jpass.toNat
  | 0x160 => bit x.dbg.en
  | 0x168 => fieldsNat [(x.dbg.core.toNat, 0), (x.dbg.quarter.toNat, 7), (x.dbg.team.toNat, 9), (bit x.dbg.cause, 32), (haltedTeams s p % 2 ^ 15, 33),
      (x.dbg.code.toNat, 48)]
  | 0x170 => pcLow x.dbg.pc
  | 0x178 => pcHigh x.dbg.pc
  | 0x180 => x.dbg.crew.toNat
  | 0x188 => x.tslice.toNat
  | 0x400 => x.qconsent.toNat
  | _ => if 0x200 ≤ off && off < 0x400 then ringRead (x.rings.getD ((off - 0x200) / 0x40) {}) (off % 0x40) else 0

/-- A register of Table 08.1; zero while no firmware runs (R390). -/
def partRead (s : State) (p off : Nat) : Nat :=
  let x := s.part p
  if s.boot ≠ 1 then 0
  else if off = 8 then fieldsNat [(x.state.code, 0), (x.err.toNat, 2)]
  else if 0x10 ≤ off && off < 0x60 then (x.registers[(off - 0x10) / 8]?).getD 0
  else 0

/-- Spare tiles left on a core. -/
def CoreStat.spareTiles (c : CoreStat) : Nat := bit c.tiles0 + bit c.tiles1

/-- SVCSTAT (Table 24.2). -/
def svcStat (s : State) : Nat :=
  let cs := (List.range Config.cores).map s.coreStatOf
  fieldsNat [(s.boot.toNat, 0), (bit s.iso, 4), (sparesLeft s, 16), ((cs.filter fun c => c.state == 2).length, 24),
    ((cs.map fun c => c.srows.toNat).foldl min (((List.range 64).map fun n => s.lodeSpare.getD n 32).foldl min 32), 32),
    ((cs.map CoreStat.spareTiles).foldl min 2, 40)]

/-- A register of function 0 as 8 bytes. -/
def pfRead (s : State) (off : Nat) : Nat :=
  if 0x1000 ≤ off && off < 0x1800 then partRead s ((off - 0x1000) / 0x100) (off % 0x100)
  else if 0x2000 ≤ off && off < 0x2080 then
    let d := s.qdef.getD ((off - 0x2000) / 8) {}
    fieldsNat [(d.send.toNat, 0), (d.recv.toNat, 4), (bit d.en, 8)]
  else if 0x2100 ≤ off && off < 0x2140 then
    let c := s.linkcfg.getD ((off - 0x2100) / 8) {}
    fieldsNat [(c.part.toNat, 0), (bit c.en, 8), (c.gbase.toNat, 24), (c.glen.toNat, 44)]
  else if off = 0x3000 then svcStat s
  else if off = 0x3008 then fieldsNat [(bit s.fwDone, 1), (bit s.fwReject, 2), (s.fwLen.toNat, 32)]
  else if off = 0x3010 then s.fwAddr.toNat
  else if 0x3100 ≤ off && off < 0x3500 then
    let c := s.coreStatOf ((off - 0x3100) / 8)
    fieldsNat [(c.state.toNat, 0), (c.spareTiles, 6), (c.srows.toNat, 8), (c.strikes.toNat, 16), (c.phys.toNat, 24)]
  else if 0x3500 ≤ off && off < 0x3500 + 8 * portCount then
    let x := s.portStat ((off - 0x3500) / 8)
    fieldsNat [(x.state.toNat, 0), (bit x.spare, 3), (x.width.toNat, 4), (x.retrain.toNat, 16)]
  else if off = 0x3800 then fieldsNat [(s.attLayer.toNat, 16), (s.attStatus.toNat, 24)]
  else if off = 0x3808 then s.attAddr.toNat
  else 0

/-- What an aligned 8-byte read of a BAR0 answers; all ones where the partition is not formed (R162). -/
def regRead (s : State) (fn off : Nat) : Nat :=
  match fn with
  | 0 => pfRead s off
  | p + 1 =>
    if !isFormed s p then 2 ^ 64 - 1
    else if 0x1000 ≤ off then (if off + 8 ≤ 0x10000 then s.load (.mail p) off 8 else 0)
    else pageRead s p off

end Sys2Proof.Machine
end

