-- ==== Sys2Proof/Machine/Dispatch.lean ====
section
/-! DEFINITION. One arm per instruction and event: its meaning. -/

namespace Sys2Proof.Machine

/-- The meaning of an instruction or event (R1: the rule is named at each meaning). -/
def exec (i : Instr) (s : State) : Host.Outcome State Fault Refusal :=
  match i with
  | .nop c => Sys2Proof.Machine.execNop c s
  | .yield c => Sys2Proof.Machine.execYield c s
  | .bra c off => Sys2Proof.Machine.execBra c off s
  | .brx c base off => Sys2Proof.Machine.execBrx c base off s
  | .callDirect c off => Sys2Proof.Machine.execCallDirect c off s
  | .callIndirect c base off => Sys2Proof.Machine.execCallIndirect c base off s
  | .ret c => Sys2Proof.Machine.execRet c s
  | .jset c j => Sys2Proof.Machine.execJset c j s
  | .jarr c j => Sys2Proof.Machine.execJarr c j s
  | .jwait c j => Sys2Proof.Machine.execJwait c j s
  | .jread c d j => Sys2Proof.Machine.execJread c d j s
  | .exit c => Sys2Proof.Machine.execExit c s
  | .trap c code => Sys2Proof.Machine.execTrap c code s
  | .brk c code => Sys2Proof.Machine.execBrk c code s
  | .tret c => Sys2Proof.Machine.execTret c s
  | .icmpEq c d a b => Sys2Proof.Machine.execIcmpEq c d a b s
  | .icmpNe c d a b => Sys2Proof.Machine.execIcmpNe c d a b s
  | .icmpLt c d a b => Sys2Proof.Machine.execIcmpLt c d a b s
  | .icmpLe c d a b => Sys2Proof.Machine.execIcmpLe c d a b s
  | .icmpGt c d a b => Sys2Proof.Machine.execIcmpGt c d a b s
  | .icmpGe c d a b => Sys2Proof.Machine.execIcmpGe c d a b s
  | .icmpLtn c d a b => Sys2Proof.Machine.execIcmpLtn c d a b s
  | .icmpLen c d a b => Sys2Proof.Machine.execIcmpLen c d a b s
  | .icmpGtn c d a b => Sys2Proof.Machine.execIcmpGtn c d a b s
  | .icmpGen c d a b => Sys2Proof.Machine.execIcmpGen c d a b s
  | .plopAnd c d a b => Sys2Proof.Machine.execPlopAnd c d a b s
  | .plopOr c d a b => Sys2Proof.Machine.execPlopOr c d a b s
  | .plopXor c d a b => Sys2Proof.Machine.execPlopXor c d a b s
  | .plopAndn c d a b => Sys2Proof.Machine.execPlopAndn c d a b s
  | .plopNot c d a => Sys2Proof.Machine.execPlopNot c d a s
  | .plopMov c d a => Sys2Proof.Machine.execPlopMov c d a s
  | .sel c d a b p inv => Sys2Proof.Machine.execSel c d a b p inv s
  | .movReg c d a => Sys2Proof.Machine.execMovReg c d a s
  | .movImm c d x => Sys2Proof.Machine.execMovImm c d x s
  | .movS2V c d a hi => Sys2Proof.Machine.execMovS2V c d a hi s
  | .movV2S c d a hi => Sys2Proof.Machine.execMovV2S c d a hi s
  | .sregRead c d a => Sys2Proof.Machine.execSregRead c d a s
  | .sregWrite c d a => Sys2Proof.Machine.execSregWrite c d a s
  | .iaddAdd c d a b => Sys2Proof.Machine.execIaddAdd c d a b s
  | .iaddSub c d a b => Sys2Proof.Machine.execIaddSub c d a b s
  | .iaddAddsat c d a b uns => Sys2Proof.Machine.execIaddAddsat c d a b uns s
  | .iaddSubsat c d a b uns => Sys2Proof.Machine.execIaddSubsat c d a b uns s
  | .iaddNeg c d a => Sys2Proof.Machine.execIaddNeg c d a s
  | .imulLo c d a b => Sys2Proof.Machine.execImulLo c d a b s
  | .imulHis c d a b => Sys2Proof.Machine.execImulHis c d a b s
  | .imulHin c d a b => Sys2Proof.Machine.execImulHin c d a b s
  | .imulMad c d a b x => Sys2Proof.Machine.execImulMad c d a b x s
  | .logicAnd c d a b => Sys2Proof.Machine.execLogicAnd c d a b s
  | .logicOr c d a b => Sys2Proof.Machine.execLogicOr c d a b s
  | .logicXor c d a b => Sys2Proof.Machine.execLogicXor c d a b s
  | .logicAndn c d a b => Sys2Proof.Machine.execLogicAndn c d a b s
  | .logicNot c d a => Sys2Proof.Machine.execLogicNot c d a s
  | .shiftShl c d a b => Sys2Proof.Machine.execShiftShl c d a b s
  | .shiftShr c d a b => Sys2Proof.Machine.execShiftShr c d a b s
  | .shiftSar c d a b => Sys2Proof.Machine.execShiftSar c d a b s
  | .shiftRol c d a b => Sys2Proof.Machine.execShiftRol c d a b s
  | .bitfBfe c d a b => Sys2Proof.Machine.execBitfBfe c d a b s
  | .bitfBfen c d a b => Sys2Proof.Machine.execBitfBfen c d a b s
  | .bitfBfi c d a b x => Sys2Proof.Machine.execBitfBfi c d a b x s
  | .bitcPopc c d a => Sys2Proof.Machine.execBitcPopc c d a s
  | .bitcClz c d a => Sys2Proof.Machine.execBitcClz c d a s
  | .bitcCtz c d a => Sys2Proof.Machine.execBitcCtz c d a s
  | .bitcBrev c d a => Sys2Proof.Machine.execBitcBrev c d a s
  | .iminmaxMin c d a b => Sys2Proof.Machine.execIminmaxMin c d a b s
  | .iminmaxMax c d a b => Sys2Proof.Machine.execIminmaxMax c d a b s
  | .iminmaxMinn c d a b => Sys2Proof.Machine.execIminmaxMinn c d a b s
  | .iminmaxMaxn c d a b => Sys2Proof.Machine.execIminmaxMaxn c d a b s
  | .idivDivn c d a b => Sys2Proof.Machine.execIdivDivn c d a b s
  | .idivRemn c d a b => Sys2Proof.Machine.execIdivRemn c d a b s
  | .idivDivs c d a b => Sys2Proof.Machine.execIdivDivs c d a b s
  | .idivRems c d a b => Sys2Proof.Machine.execIdivRems c d a b s
  | .lea c d a b sh => Sys2Proof.Machine.execLea c d a b sh s
  | .saluAdd c d a b => Sys2Proof.Machine.execSaluAdd c d a b s
  | .saluSub c d a b => Sys2Proof.Machine.execSaluSub c d a b s
  | .saluMul c d a b => Sys2Proof.Machine.execSaluMul c d a b s
  | .saluAnd c d a b => Sys2Proof.Machine.execSaluAnd c d a b s
  | .saluOr c d a b => Sys2Proof.Machine.execSaluOr c d a b s
  | .saluXor c d a b => Sys2Proof.Machine.execSaluXor c d a b s
  | .saluShl c d a b => Sys2Proof.Machine.execSaluShl c d a b s
  | .saluShr c d a b => Sys2Proof.Machine.execSaluShr c d a b s
  | .saluSar c d a b => Sys2Proof.Machine.execSaluSar c d a b s
  | .saluMin c d a b uns => Sys2Proof.Machine.execSaluMin c d a b uns s
  | .saluMax c d a b uns => Sys2Proof.Machine.execSaluMax c d a b uns s
  | .scmp c cc d a b => Sys2Proof.Machine.execScmp c cc d a b s
  | .addr c d a b => Sys2Proof.Machine.execAddr c d a b s
  | .smoviLo c d x => Sys2Proof.Machine.execSmoviLo c d x s
  | .smoviHi c d x => Sys2Proof.Machine.execSmoviHi c d x s
  | .farithAdd c rm d a b => Sys2Proof.Machine.execFarithAdd c rm d a b s
  | .farithSub c rm d a b => Sys2Proof.Machine.execFarithSub c rm d a b s
  | .farithMul c rm d a b => Sys2Proof.Machine.execFarithMul c rm d a b s
  | .ffmaFma c rm d a b x => Sys2Proof.Machine.execFfmaFma c rm d a b x s
  | .ffmaFms c rm d a b x => Sys2Proof.Machine.execFfmaFms c rm d a b x s
  | .ffmaFnma c rm d a b x => Sys2Proof.Machine.execFfmaFnma c rm d a b x s
  | .ffmaFnms c rm d a b x => Sys2Proof.Machine.execFfmaFnms c rm d a b x s
  | .fminmaxMin c ty d a b => Sys2Proof.Machine.execFminmaxMin c ty d a b s
  | .fminmaxMax c ty d a b => Sys2Proof.Machine.execFminmaxMax c ty d a b s
  | .fcmpEq c ty d a b => Sys2Proof.Machine.execFcmpEq c ty d a b s
  | .fcmpNe c ty d a b => Sys2Proof.Machine.execFcmpNe c ty d a b s
  | .fcmpLt c ty d a b => Sys2Proof.Machine.execFcmpLt c ty d a b s
  | .fcmpLe c ty d a b => Sys2Proof.Machine.execFcmpLe c ty d a b s
  | .fcmpGt c ty d a b => Sys2Proof.Machine.execFcmpGt c ty d a b s
  | .fcmpGe c ty d a b => Sys2Proof.Machine.execFcmpGe c ty d a b s
  | .fcmpUnord c ty d a b => Sys2Proof.Machine.execFcmpUnord c ty d a b s
  | .fcmpOrd c ty d a b => Sys2Proof.Machine.execFcmpOrd c ty d a b s
  | .fsignAbs c ty d a => Sys2Proof.Machine.execFsignAbs c ty d a s
  | .fsignNeg c ty d a => Sys2Proof.Machine.execFsignNeg c ty d a s
  | .fsignCopysign c ty d a b => Sys2Proof.Machine.execFsignCopysign c ty d a b s
  | .darithDadd c rm d a b => Sys2Proof.Machine.execDarithDadd c rm d a b s
  | .darithDsub c rm d a b => Sys2Proof.Machine.execDarithDsub c rm d a b s
  | .darithDmul c rm d a b => Sys2Proof.Machine.execDarithDmul c rm d a b s
  | .darithDfma c rm d a b x => Sys2Proof.Machine.execDarithDfma c rm d a b x s
  | .harith2Hadd2 c rm ty d a b => Sys2Proof.Machine.execHarith2Hadd2 c rm ty d a b s
  | .harith2Hmul2 c rm ty d a b => Sys2Proof.Machine.execHarith2Hmul2 c rm ty d a b s
  | .harith2Hfma2 c rm ty d a b x => Sys2Proof.Machine.execHarith2Hfma2 c rm ty d a b x s
  | .cvt c dst src ovf rm part d a => Sys2Proof.Machine.execCvt c dst src ovf rm part d a s
  | .frnd c ty rm d a => Sys2Proof.Machine.execFrnd c ty rm d a s
  | .fkey c ty d a => Sys2Proof.Machine.execFkey c ty d a s
  | .fkeyInv c ty d a => Sys2Proof.Machine.execFkeyInv c ty d a s
  | .dotDot4i8 c d a b x => Sys2Proof.Machine.execDotDot4i8 c d a b x s
  | .dotDot4e4m3 c rm d a b x => Sys2Proof.Machine.execDotDot4e4m3 c rm d a b x s
  | .dotDot8i4 c d a b x => Sys2Proof.Machine.execDotDot8i4 c d a b x s
  | .sfuExp2 c d a => Sys2Proof.Machine.execSfuExp2 c d a s
  | .sfuLog2 c d a => Sys2Proof.Machine.execSfuLog2 c d a s
  | .sfuRcp c d a => Sys2Proof.Machine.execSfuRcp c d a s
  | .sfuRsq c d a => Sys2Proof.Machine.execSfuRsq c d a s
  | .sfuSqrt c d a => Sys2Proof.Machine.execSfuSqrt c d a s
  | .sfuSin c d a => Sys2Proof.Machine.execSfuSin c d a s
  | .sfuCos c d a => Sys2Proof.Machine.execSfuCos c d a s
  | .sfuTanh c d a => Sys2Proof.Machine.execSfuTanh c d a s
  | .shflIdx c d a b lx => Sys2Proof.Machine.execShflIdx c d a b lx s
  | .shflUp c d a b lx => Sys2Proof.Machine.execShflUp c d a b lx s
  | .shflDown c d a b lx => Sys2Proof.Machine.execShflDown c d a b lx s
  | .shflXor c d a b lx => Sys2Proof.Machine.execShflXor c d a b lx s
  | .voteAny c d a lx => Sys2Proof.Machine.execVoteAny c d a lx s
  | .voteAll c d a lx => Sys2Proof.Machine.execVoteAll c d a lx s
  | .voteBallot c d a lx => Sys2Proof.Machine.execVoteBallot c d a lx s
  | .voteUni c d a lx => Sys2Proof.Machine.execVoteUni c d a lx s
  | .zipZip2 c d a => Sys2Proof.Machine.execZipZip2 c d a s
  | .zipZip3 c d a => Sys2Proof.Machine.execZipZip3 c d a s
  | .zipZip4 c d a => Sys2Proof.Machine.execZipZip4 c d a s
  | .zipUnzip2 c d a => Sys2Proof.Machine.execZipUnzip2 c d a s
  | .zipUnzip3 c d a => Sys2Proof.Machine.execZipUnzip3 c d a s
  | .zipUnzip4 c d a => Sys2Proof.Machine.execZipUnzip4 c d a s
  | .sample c d a u lx => Sys2Proof.Machine.execSample c d a u lx s
  | .rngU32 c d => Sys2Proof.Machine.execRngU32 c d s
  | .rngUnif c d => Sys2Proof.Machine.execRngUnif c d s
  | .bandredIadd c d a lx => Sys2Proof.Machine.execBandredIadd c d a lx s
  | .bandredFadd c d a lx => Sys2Proof.Machine.execBandredFadd c d a lx s
  | .bandredMin c ty d a lx => Sys2Proof.Machine.execBandredMin c ty d a lx s
  | .bandredMax c ty d a lx => Sys2Proof.Machine.execBandredMax c ty d a lx s
  | .laneExchangeRelease tid pc => Sys2Proof.Machine.execLaneExchangeRelease tid pc s
  | .ld c w d m => Sys2Proof.Machine.execLd c w d m s
  | .st c w d m => Sys2Proof.Machine.execSt c w d m s
  | .lds c w d space order scope base => Sys2Proof.Machine.execLds c w d space order scope base s
  | .atomAdd c wide uns d m x => Sys2Proof.Machine.execAtomAdd c wide uns d m x s
  | .atomMin c wide uns d m x => Sys2Proof.Machine.execAtomMin c wide uns d m x s
  | .atomMax c wide uns d m x => Sys2Proof.Machine.execAtomMax c wide uns d m x s
  | .atomAnd c wide uns d m x => Sys2Proof.Machine.execAtomAnd c wide uns d m x s
  | .atomOr c wide uns d m x => Sys2Proof.Machine.execAtomOr c wide uns d m x s
  | .atomXor c wide uns d m x => Sys2Proof.Machine.execAtomXor c wide uns d m x s
  | .atomSwap c wide uns d m x => Sys2Proof.Machine.execAtomSwap c wide uns d m x s
  | .atomCas c wide uns d m x => Sys2Proof.Machine.execAtomCas c wide uns d m x s
  | .atomFadd c wide d m x => Sys2Proof.Machine.execAtomFadd c wide d m x s
  | .red c op wide uns m x => Sys2Proof.Machine.execRed c op wide uns m x s
  | .fence c mode scope => Sys2Proof.Machine.execFence c mode scope s
  | .tagTagq c d a => Sys2Proof.Machine.execTagTagq c d a s
  | .tagTagset c d a b => Sys2Proof.Machine.execTagTagset c d a b s
  | .tagTagclr c d a => Sys2Proof.Machine.execTagTagclr c d a s
  | .hcopyCopy c ds ss dst src cnt bar => Sys2Proof.Machine.execHcopyCopy c ds ss dst src cnt bar s
  | .hcopyPlane c ds ss dst src cnt bar fmt stride => Sys2Proof.Machine.execHcopyPlane c ds ss dst src cnt bar fmt stride s
  | .hcopySplit c ds ss dst src cnt bar side slices stride => Sys2Proof.Machine.execHcopySplit c ds ss dst src cnt bar side slices stride s
  | .hcopyMask c ss q src cnt bar => Sys2Proof.Machine.execHcopyMask c ss q src cnt bar s
  | .hcopyGather c ds ss dst src cnt bar size => Sys2Proof.Machine.execHcopyGather c ds ss dst src cnt bar size s
  | .bseal c d => Sys2Proof.Machine.execBseal c d s
  | .bwait c b => Sys2Proof.Machine.execBwait c b s
  | .barInit c bar n => Sys2Proof.Machine.execBarInit c bar n s
  | .barArrive c d bar => Sys2Proof.Machine.execBarArrive c d bar s
  | .barArrivex c d bar n => Sys2Proof.Machine.execBarArrivex c d bar n s
  | .barExpect c out bar n => Sys2Proof.Machine.execBarExpect c out bar n s
  | .barWait c bar g => Sys2Proof.Machine.execBarWait c bar g s
  | .barWaitout c bar => Sys2Proof.Machine.execBarWaitout c bar s
  | .barTest c d bar g => Sys2Proof.Machine.execBarTest c d bar g s
  | .mmp c d a b q m1 bf af planes => Sys2Proof.Machine.execMmp c d a b q m1 bf af planes s
  | .mms c d a b groups w slices => Sys2Proof.Machine.execMms c d a b groups w slices s
  | .accZero c pair d => Sys2Proof.Machine.execAccZero c pair d s
  | .accLoad c pair d a => Sys2Proof.Machine.execAccLoad c pair d a s
  | .accOut c pair d a b q fmt ovf rm => Sys2Proof.Machine.execAccOut c pair d a b q fmt ovf rm s
  | .accMove c pair d a => Sys2Proof.Machine.execAccMove c pair d a s
  | .accSpill c pair d a => Sys2Proof.Machine.execAccSpill c pair d a s
  | .mqStat c d q => Sys2Proof.Machine.execMqStat c d q s
  | .mqFlush c q => Sys2Proof.Machine.execMqFlush c q s
  | .nredPush c a t => Sys2Proof.Machine.execNredPush c a t s
  | .nredWait c a t bcast => Sys2Proof.Machine.execNredWait c a t bcast s
  | .snop => Sys2Proof.Machine.execSnop s
  | .shalt => Sys2Proof.Machine.execShalt s
  | .sbr cc a b off => Sys2Proof.Machine.execSbr cc a b off s
  | .scall off => Sys2Proof.Machine.execScall off s
  | .sret => Sys2Proof.Machine.execSret s
  | .sjoin => Sys2Proof.Machine.execSjoin s
  | .kalu op d a b => Sys2Proof.Machine.execKalu op d a b s
  | .kread cls d a wide => Sys2Proof.Machine.execKread cls d a wide s
  | .areaRead a b => Sys2Proof.Machine.execAreaRead a b s
  | .areaWrite a b => Sys2Proof.Machine.execAreaWrite a b s
  | .bdecl d cls => Sys2Proof.Machine.execBdecl d cls s
  | .bdrop d => Sys2Proof.Machine.execBdrop d s
  | .launch cls bd ba bb kd => Sys2Proof.Machine.execLaunch cls bd ba bb kd s
  | .mmt cls acc masked d a b kd => Sys2Proof.Machine.execMmt cls acc masked d a b kd s
  | .smmt cls acc masked d a b kd => Sys2Proof.Machine.execSmmt cls acc masked d a b kd s
  | .copyt cls acc d a kd => Sys2Proof.Machine.execCopyt cls acc d a kd s
  | .redt cls a t => Sys2Proof.Machine.execRedt cls a t s
  | .maskgen cls d a kd => Sys2Proof.Machine.execMaskgen cls d a kd s
  | .kvcompact cls d a b kd => Sys2Proof.Machine.execKvcompact cls d a b kd s
  | .sopen cls kd => Sys2Proof.Machine.execSopen cls kd s
  | .srule cls img d a b kd => Sys2Proof.Machine.execSrule cls img d a b kd s
  | .saccept cls img d a b kd => Sys2Proof.Machine.execSaccept cls img d a b kd s
  | .skv cls a kd => Sys2Proof.Machine.execSkv cls a kd s
  | .spublish cls kd => Sys2Proof.Machine.execSpublish cls kd s
  | .sclose cls kd => Sys2Proof.Machine.execSclose cls kd s
  | .scount cls d kd => Sys2Proof.Machine.execScount cls d kd s
  | .qsend cls a off q => Sys2Proof.Machine.execQsend cls a off q s
  | .qrecv cls d half q => Sys2Proof.Machine.execQrecv cls d half q s
  | .ssignal cls a b wide => Sys2Proof.Machine.execSsignal cls a b wide s
  | .swait cls cmp wide a kd => Sys2Proof.Machine.execSwait cls cmp wide a kd s
  | .smode b det => Sys2Proof.Machine.execSmode b det s
  | .streamFetch p => Sys2Proof.Machine.execStreamFetch p s
  | .coreFetch tid => Sys2Proof.Machine.execCoreFetch tid s
  | .taskIssue p seq => Sys2Proof.Machine.execTaskIssue p seq s
  | .tileDispatch p seq => Sys2Proof.Machine.execTileDispatch p seq s
  | .taskComplete p seq => Sys2Proof.Machine.execTaskComplete p seq s
  | .taskRetire p => Sys2Proof.Machine.execTaskRetire p s
  | .faultRecordWrite p => Sys2Proof.Machine.execFaultRecordWrite p s
  | .crewPlace p seq cores quarters shadowQuarters => Sys2Proof.Machine.execCrewPlace p seq cores quarters shadowQuarters s
  | .classPreempt p seq => Sys2Proof.Machine.execClassPreempt p seq s
  | .crewResume cid cores quarters => Sys2Proof.Machine.execCrewResume cid cores quarters s
  | .teamExchange quarter tid => Sys2Proof.Machine.execTeamExchange quarter tid s
  | .timeSliceExpiry tid => Sys2Proof.Machine.execTimeSliceExpiry tid s
  | .resultArrive tid idx lane => Sys2Proof.Machine.execResultArrive tid idx lane s
  | .stackSpill tid => Sys2Proof.Machine.execStackSpill tid s
  | .stackRefill tid => Sys2Proof.Machine.execStackRefill tid s
  | .teamEnd tid => Sys2Proof.Machine.execTeamEnd tid s
  | .jwaitRelease tid pc j => Sys2Proof.Machine.execJwaitRelease tid pc j s
  | .spindleClassPreempt core units => Sys2Proof.Machine.execSpindleClassPreempt core units s
  | .spindleOpComplete core => Sys2Proof.Machine.execSpindleOpComplete core s
  | .hoistChunkStart core => Sys2Proof.Machine.execHoistChunkStart core s
  | .hoistChunkLand age chunk => Sys2Proof.Machine.execHoistChunkLand age chunk s
  | .enginePreemptAck p e => Sys2Proof.Machine.execEnginePreemptAck p e s
  | .preemptionComplete p => Sys2Proof.Machine.execPreemptionComplete p s
  | .routerFold p t core => Sys2Proof.Machine.execRouterFold p t core s
  | .routerPartialArrive p t core port => Sys2Proof.Machine.execRouterPartialArrive p t core port s
  | .nredRouterTimeout p t core => Sys2Proof.Machine.execNredRouterTimeout p t core s
  | .swaitPoll p seq => Sys2Proof.Machine.execSwaitPoll p seq s
  | .swaitLimitExpiry p seq => Sys2Proof.Machine.execSwaitLimitExpiry p seq s
  | .ringConsPoll p seq => Sys2Proof.Machine.execRingConsPoll p seq s
  | .ringLimitExpiry p seq => Sys2Proof.Machine.execRingLimitExpiry p seq s
  | .spublishRecordWrite p seq => Sys2Proof.Machine.execSpublishRecordWrite p seq s
  | .ioCompletionTimeout req => Sys2Proof.Machine.execIoCompletionTimeout req s
  | .portCompletionError req err => Sys2Proof.Machine.execPortCompletionError req err s
  | .patrolRead place found => Sys2Proof.Machine.execPatrolRead place found s
  | .rowSpareReplace place row => Sys2Proof.Machine.execRowSpareReplace place row s
  | .uncorrectableError place => Sys2Proof.Machine.execUncorrectableError place s
  | .signatureCompare what sig => Sys2Proof.Machine.execSignatureCompare what sig s
  | .spareCoreSwap core die => Sys2Proof.Machine.execSpareCoreSwap core die s
  | .linkLaneFail port => Sys2Proof.Machine.execLinkLaneFail port s
  | .linkDown port => Sys2Proof.Machine.execLinkDown port s
  | .ethesInboundAccess link off len value => Sys2Proof.Machine.execEthesInboundAccess link off len value s
  | .ideIntegrityFailure p => Sys2Proof.Machine.execIdeIntegrityFailure p s
  | .deviceReset => Sys2Proof.Machine.execDeviceReset s
  | .vfFlr p => Sys2Proof.Machine.execVfFlr p s
  | .pf0Flr => Sys2Proof.Machine.execPf0Flr s
  | .unformedVfAccess p off value => Sys2Proof.Machine.execUnformedVfAccess p off value s
  | .twctlGo p => Sys2Proof.Machine.execTwctlGo p s
  | .twctlHalt p => Sys2Proof.Machine.execTwctlHalt p s
  | .resolveReexecute p => Sys2Proof.Machine.execResolveReexecute p s
  | .resolveSkip p => Sys2Proof.Machine.execResolveSkip p s
  | .resolveAbandon p => Sys2Proof.Machine.execResolveAbandon p s
  | .twpcWrite p high value => Sys2Proof.Machine.execTwpcWrite p high value s
  | .xlinvAll p => Sys2Proof.Machine.execXlinvAll p s
  | .dbgHaltreq p => Sys2Proof.Machine.execDbgHaltreq p s
  | .dbgResume p => Sys2Proof.Machine.execDbgResume p s
  | .ringcfgWrite p r value => Sys2Proof.Machine.execRingcfgWrite p r value s
  | .qconsentWrite p value => Sys2Proof.Machine.execQconsentWrite p value s
  | .partitionForm p => Sys2Proof.Machine.execPartitionForm p s
  | .partitionDissolve p => Sys2Proof.Machine.execPartitionDissolve p s
  | .attestationStart value => Sys2Proof.Machine.execAttestationStart value s
  | .attestationResponse => Sys2Proof.Machine.execAttestationResponse s
  | .fwLoadStart value => Sys2Proof.Machine.execFwLoadStart value s
  | .fwImageCheck => Sys2Proof.Machine.execFwImageCheck s
  | .registerWrite fn off value => Sys2Proof.Machine.execRegisterWrite fn off value s
  | .linkRetrain port => Sys2Proof.Machine.execLinkRetrain port s
  | .writeCompletionArrive tid idx => Sys2Proof.Machine.execWriteCompletionArrive tid idx s
  | .invalidationComplete p => Sys2Proof.Machine.execInvalidationComplete p s
  | .partitionFormComplete p => Sys2Proof.Machine.execPartitionFormComplete p s
  | .partitionDissolveComplete p badCores badLines => Sys2Proof.Machine.execPartitionDissolveComplete p badCores badLines s

end Sys2Proof.Machine
end

