-- ==== Sys2Proof/Machine/Step.lean ====
section
/-! DEFINITION. One step of the machine: the agent that acts, and the meaning of what it issues. -/

namespace Sys2Proof.Machine

/-- One step. -/
def step (s : State) : Host.Outcome State Fault Refusal :=
  match (plan s).2 with
  | .idle => .next (plan s).1
  | .act s' => .next s'
  | .issue s' i => exec i s'

/-- The state whose next step runs the instruction with these bits (R188; log 16). -/
def State.withFetchWord (s : State) (nbits w : Nat) : State := placeWord s (w % 2 ^ min nbits 96)

end Sys2Proof.Machine
end

