-- ==== Sys2Proof/Safety.lean ====
section
/-! DEFINITION. The terms the statements use: a safe run, an instruction that is ready to issue, and what an instruction changes and leaves. -/

namespace Sys2Proof

/-- n steps from a state go on: no fault and no refusal ends them. -/
def Safe (n : Nat) (s : Machine.State) : Prop := ∃ t, core.run n s = .next t

namespace Claims
open Machine

/-- Instruction i of the current team issues at s for the participants x.m of entry x.e: its registers are allocated, no register
it waits for is empty, no failed read is to be reported and no other wait holds it (R26, R28, R192, R193, R355, R369, R372, R384). -/
structure Ready (s : State) (i : Instr) (x : Ctx) : Prop where
  cur : s.cur = some x.tid
  team : s.teams.get? x.tid = some x.t
  crew : s.crews.get? x.t.cid = some x.crew
  entry : x.t.entry? = some x.e
  lanes : x.ls = lanesOf x.t.nlanes x.m
  form : ∃ f, i.form = some f ∧ x.m = x.e.mask &&& x.t.guard f.ctl.g ∧ x.spin = f.ctl.h.getLsbD 7 ∧
    f.regs.any x.t.beyond = false ∧ f.waitsFor x.t x.e.mask (x.t.once == some x.e.ins) = false ∧
    f.emptyRead x.t x.e.mask (x.t.once == some x.e.ins) = false
  atomic : x.t.hostAtomic = none
  port : x.t.portFail = none
  sign : x.t.sig ≠ .waiting
  own : x.m ≠ 0 → ownWait s x i = false
  mirror : x.m ≠ 0 → i.signed = true → x.crew.shadow = [] ∨ x.t.sig ≠ .idle

/-- Nothing but team tid differs. -/
structure OnlyTeam (s s' : State) (tid : Nat) : Prop where
  rest : s' = { s with teams := s'.teams }
  teams : ∀ n, n ≠ tid → s'.teams.get? n = s.teams.get? n

/-- Every byte store of the machine is in canonical form. -/
def MemWf (s : State) : Prop :=
  s.host.wf = true ∧ s.cxl.wf = true ∧ (∀ e ∈ s.parts, e.2.lode.wf = true ∧ e.2.bufs.wf = true ∧ e.2.mail.wf = true) ∧
  ∀ e ∈ s.crews, e.2.window.wf = true

/-- Every byte of every store reads as before. -/
def SameBytes (s s' : State) : Prop := ∀ st a, (s'.memOf st).byte a = (s.memOf st).byte a

/-- The lanes of the running entry go on at the next PC; every other entry stays, and may have taken lanes in (R33, R34). -/
structure GoesOn (x : Ctx) (t' : Team) : Prop where
  next : x.e.mask ≠ 0 → ∃ e ∈ t'.entries, e.pc = x.t.nextPC x.e.pc ∧ x.e.mask &&& ~~~e.mask = 0
  others : ∀ e ∈ x.t.entries, e.ins ≠ x.e.ins →
    ∃ e' ∈ t'.entries, e'.ins = e.ins ∧ e'.pc = e.pc ∧ e'.hold = e.hold ∧ e.mask &&& ~~~e'.mask = 0

/-- The registers outside vr, sr and pr are as before, and of those in vr and pr the lanes that take no part. -/
structure SameRegs (x : Ctx) (t' : Team) (vr sr pr : List Nat) : Prop where
  v : ∀ r l, l < 1024 → r ∉ vr ∨ l ∉ x.ls → t'.v r l = x.t.v r l
  s : ∀ r, r ∉ sr → t'.s r = x.t.s r
  p : ∀ n, n ∉ pr → t'.p n = x.t.p n
  lanes : ∀ n l, l < 1024 → x.m.getLsbD l = false → (t'.p n).getLsbD l = (x.t.p n).getLsbD l
  emptyV : ∀ r, r ∉ vr → t'.emptyV.get? r = x.t.emptyV.get? r ∧ t'.heldV.get? r = x.t.heldV.get? r
  emptyS : ∀ r, r ∉ sr → t'.emptyS.get? r = x.t.emptyS.get? r ∧ t'.heldS.get? r = x.t.heldS.get? r

/-- i completes at s as an instruction that writes at most the registers vr, sr and pr, and t' is its team afterwards: no byte of
memory, no other team, no other state changes, and of the team only its registers and its place. -/
structure Completes (i : Instr) (s : State) (x : Ctx) (vr sr pr : List Nat) (s' : State) (t' : Team) : Prop where
  runs : exec i s = .next s'
  only : OnlyTeam s s' x.tid
  bytes : SameBytes s s'
  team : s'.teams.get? x.tid = some t'
  rest : t' = { x.t with
    vregs := t'.vregs, sregs := t'.sregs, preds := t'.preds, emptyV := t'.emptyV, emptyS := t'.emptyS, heldV := t'.heldV
    heldS := t'.heldS, entries := t'.entries, nextIns := t'.nextIns, run := t'.run, sig := .idle, once := t'.once }
  regs : SameRegs x t' vr sr pr
  goes : GoesOn x t'

/-- Whenever i is ready it completes, and register d of every participant l is f s x l. -/
def LaneResult (i : Instr) (d : Nat) (f : State → Ctx → Nat → Word) : Prop :=
  ∀ s x, Ready s i x → ∃ s' t', Completes i s x [d] [] [] s' t' ∧ ∀ l ∈ x.ls, t'.v d l = f s x l

/-- The same for a pair of registers (R191). -/
def PairResult (i : Instr) (d : Nat) (f : State → Ctx → Nat → DWord) : Prop :=
  ∀ s x, Ready s i x → ∃ s' t', Completes i s x [d, d + 1] [] [] s' t' ∧ ∀ l ∈ x.ls, t'.v64 d l = f s x l

/-- One result of a form whose type selects a register or a pair (R242). -/
def FloatResult (i : Instr) (ty : FTy) (d : Nat) (f : State → Ctx → Nat → Nat) : Prop :=
  match ty with
  | .f32 => LaneResult i d fun s x l => BitVec.ofNat 32 (f s x l)
  | .f64 => PairResult i d fun s x l => BitVec.ofNat 64 (f s x l)

/-- Whenever i is ready it completes, and predicate d of every participant l is f s x l; p0 stays true (R20, R219). -/
def PredResult (i : Instr) (d : Nat) (f : State → Ctx → Nat → Bool) : Prop :=
  ∀ s x, Ready s i x → ∃ s' t', Completes i s x [] [] [d] s' t' ∧ ∀ l ∈ x.ls, (t'.p d).getLsbD l = (d == 0 || f s x l)

/-- Whenever i is ready it completes; scalar register d takes f s x when a lane takes part, and stays otherwise (R192, R204). -/
def ScalarResult (i : Instr) (d : Nat) (f : State → Ctx → DWord) : Prop :=
  ∀ s x, Ready s i x → ∃ s' t', Completes i s x [] [d] [] s' t' ∧ t'.s d = if x.m = 0 then x.t.s d else f s x

/-- i completes at s, and its team becomes u but for the place of its entries: no byte of memory, no other team and no other state
changes, and the lanes of the running entry go on. -/
structure Becomes (i : Instr) (s : State) (x : Ctx) (u : Team) (s' : State) (t' : Team) : Prop where
  runs : exec i s = .next s'
  only : OnlyTeam s s' x.tid
  bytes : SameBytes s s'
  team : s'.teams.get? x.tid = some t'
  rest : t' = { u with entries := t'.entries, nextIns := t'.nextIns, run := t'.run, sig := .idle, once := t'.once }
  goes : GoesOn x t'

/-- i completes at s, and its team becomes u but for the place of its entries: the lanes of stay go on at the next PC, lane l of goes
stands at the PC beside it, and every other entry stays (R34, R194). -/
structure Splits (i : Instr) (s : State) (x : Ctx) (u : Team) (stay : LaneMask) (goes : List (Nat × PC)) (s' : State) (t' : Team) :
    Prop where
  runs : exec i s = .next s'
  only : OnlyTeam s s' x.tid
  bytes : SameBytes s s'
  team : s'.teams.get? x.tid = some t'
  rest : t' = { u with entries := t'.entries, nextIns := t'.nextIns, run := t'.run, sig := .idle, once := t'.once }
  next : stay ≠ 0 → ∃ e ∈ t'.entries, e.pc = x.t.nextPC x.e.pc ∧ stay &&& ~~~e.mask = 0
  goes : ∀ g ∈ goes, ∃ e ∈ t'.entries, e.pc = g.2 ∧ e.mask.getLsbD g.1 = true
  others : ∀ e ∈ x.t.entries, e.ins ≠ x.e.ins →
    ∃ e' ∈ t'.entries, e'.ins = e.ins ∧ e'.pc = e.pc ∧ e'.hold = e.hold ∧ e.mask &&& ~~~e'.mask = 0

/-- i completes at s: the state is s1 but for the running team, which becomes u but for the place of its entries; the lanes of the
running entry go on. s1 is s with the effect beyond the team. -/
structure Does (i : Instr) (s : State) (x : Ctx) (s1 : State) (u : Team) (s' : State) (t' : Team) : Prop where
  runs : exec i s = .next s'
  rest : s' = { s1 with teams := s'.teams }
  others : ∀ n, n ≠ x.tid → s'.teams.get? n = s1.teams.get? n
  team : s'.teams.get? x.tid = some t'
  place : t' = { u with entries := t'.entries, nextIns := t'.nextIns, run := t'.run, sig := .idle, once := t'.once }
  goes : GoesOn x t'

/-- i completes at s for a team that turns into u, with no place of its own to go on from: an exit, a return or a handler. -/
structure Turns (i : Instr) (s : State) (x : Ctx) (s' : State) (t' : Team) : Prop where
  runs : exec i s = .next s'
  only : OnlyTeam s s' x.tid
  bytes : SameBytes s s'
  team : s'.teams.get? x.tid = some t'
  others : ∀ e ∈ x.t.entries, e.ins ≠ x.e.ins → ∀ l, e.mask.getLsbD l = true → ∃ e' ∈ t'.entries, e'.mask.getLsbD l = true

/-- The context once the entries held at the running entry's lane exchange have joined it, those that it waits for (R258). -/
def joined (x : Ctx) (g : BitVec 4) (lx : LX) : Ctx :=
  let held := x.t.heldWith lx g x.e
  let e : Entry := { x.e with mask := unionOf held }
  let t : Team := { x.t with entries := x.t.entries.filter fun y => y.ins == x.e.ins || !held.contains y }
  { x with t, e, m := e.mask &&& t.guard g, ls := lanesOf t.nlanes (e.mask &&& t.guard g) }

/-- The members of the band of lane l at a lane exchange (R257). -/
def bandOf (y : Ctx) (lx : LX) (l : Nat) : List Nat := membersOf y.t y.e.mask lx y.ls (l / 32)

/-- A lane exchange that is ready: it goes on without a participant; with well-formed memberships whose members are all counted it
merges the entries held there and completes for all their lanes (R257, R258). out says what its registers hold. -/
def ExchangeResult (i : Instr) (g : BitVec 4) (lx : LX) (vr pr : List Nat) (out : Ctx → Team → Prop) : Prop :=
  ∀ s x, Ready s i x →
    (x.m = 0 → ∃ s' t', Completes i s x [] [] [] s' t') ∧
    (x.m ≠ 0 → badMember x.t x.e.mask lx x.ls = none →
      x.t.exchangeReady lx g x.e.pc (x.t.heldWith lx g x.e) = true →
      badMember (joined x g lx).t (joined x g lx).e.mask lx (joined x g lx).ls = none →
      ∃ s' t', Completes i s (joined x g lx) vr [] (lx.absent.val :: pr) s' t' ∧ out (joined x g lx) t')

/-- The absent predicate of a lane whose band holds a member that takes no part (R258). -/
def Absent (y : Ctx) (t' : Team) (lx : LX) (l : Nat) : Prop :=
  lx.absent.val ≠ 0 → (t'.p lx.absent.val).getLsbD l = (bandOf y lx l).any fun z => !y.m.getLsbD z

/-- Word d of every participant of a band is f of the band's members. -/
def BandWord (i : Instr) (g : BitVec 4) (lx : LX) (d : Nat) (f : Ctx → List Nat → Word) : Prop :=
  ExchangeResult i g lx [d] [] fun y t' => ∀ l ∈ y.ls, t'.v d l = f y (bandOf y lx l) ∧ Absent y t' lx l

/-- Predicate d of every participant of a band is f of the band's members; where d is also the absent predicate, that one stands. -/
def BandPred (i : Instr) (g : BitVec 4) (lx : LX) (d : Nat) (f : Ctx → List Nat → Bool) : Prop :=
  ExchangeResult i g lx [] [d] fun y t' => ∀ l ∈ y.ls,
    (d ≠ lx.absent.val ∨ d = 0 → (t'.p d).getLsbD l = (d == 0 || f y (bandOf y lx l))) ∧ Absent y t' lx l

/-- What a member gives: an absent one gives 0 (R258). -/
def gives (y : Ctx) (a z : Nat) : Word := if y.m.getLsbD z then y.t.v a z else 0

/-- i is the instruction that the front stage of partition p handles next: the window runs, no join, fault, HALT or passed SHALT holds
it, and the AREA sequence admits it (R47, R49, R57, R66). -/
structure AtFront (s : State) (i : Instr) (p : Nat) : Prop where
  cur : s.curPart = some p
  runs : (s.part p).twState = .running
  halt : (s.part p).haltReq = false
  fault : (s.part p).ffault = none
  passed : (s.part p).shaltPassed = false
  join : ∀ e ∈ (s.part p).window, (∀ c d a w, e.insn ≠ .kread c d a w) ∧ ∀ c d k, e.insn ≠ .scount c d k
  area : i.isArea = true ∧ (s.part p).areas.length < 4 ∨ i.isTask = true ∨ i.isArea = false ∧ (s.part p).areas = []

/-- The front stage goes on after i: the partition becomes x but for its place (R47, R189). -/
def FrontGoesOn (i : Instr) (s : State) (p : Nat) (x : Part) : Prop :=
  exec i s = .next (s.setPart p { x with
    pc := (s.part p).nextPC (s.part p).pc
    fblock := if ((s.part p).nextPC (s.part p).pc).slot = 0 then none else (s.part p).fblock })

/-- What a task names: D, A and B with the bytes it needs of each, whether D is written in place, and its address pairs. -/
structure Names where
  d : Option BufNo := none
  inPlace : Bool := false
  a : Option BufNo := none
  b : Option BufNo := none
  needD : Nat := 0
  needA : Nat := 0
  needB : Nat := 0
  pairs : List Nat := []

/-- A declared buffer that is large enough (R55). -/
def BufReady (x : Part) (b : Option BufNo) (need : Nat) : Prop :=
  ∀ n, b = some n → ∃ f size, x.rename.get? n.val = some f ∧ x.bufBytes? f = some size ∧ need ≤ size

/-- Task i can pass the front stage: its pairs are addresses, its buffers are declared and large enough, the window has room, and the
class of a D that is not written in place has a free buffer (R53, R55, R302, R363). -/
structure TaskReady (s : State) (i : Instr) (p : Nat) (q : Names) : Prop where
  front : AtFront s i p
  pairs : ∀ r ∈ q.pairs, ((s.part p).k.getD (r + 1) 0).toNat < 2 ^ 16
  d : BufReady (s.part p) q.d q.needD
  a : BufReady (s.part p) q.a q.needA
  b : BufReady (s.part p) q.b q.needB
  room : (s.part p).window.length < 256
  pool : ∀ n f, q.d = some n → q.inPlace = false → (s.part p).rename.get? n.val = some f →
    (s.part p).freeOf ((s.part p).classOf f) ≠ []

/-- Task i passes the front stage: an entry that captures the descriptor, seed, mode, areas and physical buffers joins the window, D
takes a fresh buffer from the head of its class's free list, and the front stage goes on; nothing else changes (R49, R53, R54, R57). -/
def TaskPasses (s : State) (i : Instr) (p : Nat) (q : Names) (own : List Area) : Prop :=
  ∃ y e, exec i s = .next (s.setPart p y) ∧
    let x := s.part p
    let map := fun (b : Option BufNo) => b.bind fun n => x.rename.get? n.val
    y.window = x.window ++ [e] ∧ e.insn = i ∧ e.seq = x.nextSeq ∧ e.pc = x.pc ∧ e.next = y.pc ∧ e.cls = i.taskClass ∧ e.k = x.k ∧
    e.seed = x.seed ∧ e.det = x.det ∧ e.status = .waiting ∧ e.areas = x.areas ++ own ∧ e.a = map q.a ∧ e.b = map q.b ∧
    y = { x with
      window := y.window, nextSeq := x.nextSeq + 1, pc := x.nextPC x.pc, areas := [], rename := y.rename, free := y.free
      nextLaunch := y.nextLaunch, launchTop := y.launchTop, fblock := if (x.nextPC x.pc).slot = 0 then none else x.fblock } ∧
    ((q.d = none ∨ q.inPlace = true) → e.d = map q.d ∧ e.fresh = none ∧ e.prev = none ∧ y.rename = x.rename ∧ y.free = x.free) ∧
    (∀ n f, q.d = some n → q.inPlace = false → x.rename.get? n.val = some f →
      ∃ g gs, x.freeOf (x.classOf f) = g :: gs ∧ e.d = some g ∧ e.fresh = some g ∧ e.arch = some n.val ∧ e.prev = some f ∧
        y.rename = x.rename.set n.val g ∧ y.free = x.free.set (x.classOf f) gs) ∧
    ((∃ c d a b k, i = .launch c d a b k) → e.launch = BitVec.ofNat 64 x.nextLaunch ∧ y.nextLaunch = x.nextLaunch + 1) ∧
    ((∀ c d a b k, i ≠ .launch c d a b k) → y.nextLaunch = x.nextLaunch ∧ y.launchTop = x.launchTop)

end Claims

end Sys2Proof
end

