-- ==== Sys2Proof/Certificates/Slice0/Obligations.lean ====
section
/-! DEFINITION. The statements of this model, from the numbered rules of the spec. Ready, Completes and the result forms are defined in Safety.lean. -/

open Sys2Proof Sys2Proof.Machine Sys2Proof.Claims

/-! ### Encoding -/

/-- Decode and encode agree: the word of every well-formed instruction that has an encoding decodes to it (R188, R192 to R201). -/
def Obligations.DecodeEncode : Prop :=
  ∀ i : Instr, i.toFields.isSome = true → i.wellFormed = true → decode (encode i) = .insn i

/-- The four encoded examples of Table 11.3 decode to the instructions beside them. -/
def Obligations.EncodedExamples : Prop :=
  decode 0xFFFFFFFD0000008000000001 = .insn (.bra ⟨1, 0, 0⟩ 0xFFFFFFFD) ∧
  decode 0x0000000000400205 = .insn (.jwait ⟨0, 0, 0⟩ 2) ∧
  decode 0x0000000A0080000000801208 = .insn (.icmpLt ⟨0, 0, 0⟩ 1 4 (.imm 10)) ∧
  decode 0x00000040008000003158A020 = .insn (.saluAdd ⟨0, 0, 0⟩ 10 10 (.imm 64))

/-- A word is accepted only as the encoding of a well-formed instruction, bit for bit (R201). R201 items 1 and 3 on a core: an unlisted OP
or FN is 0x0101 whatever stands in the other fields; a listed word that decodes to no instruction is 0x0102, and a stream opcode 0x0105.
The front stage takes the word of all zeros for SNOP (R47). Readings and choices of the model that clauses rest on: log 129. -/
def Obligations.EncodeDecode : Prop :=
  (∀ (w : InsnWord) (i : Instr), decode w = .insn i → i.wellFormed = true ∧ encode i = w) ∧
  ((∀ w : InsnWord, forms (Fields.unpack w).op ≤ (Fields.unpack w).fn →
    coreDecode w = .error 0x0101 ∧ (w ≠ 0 → streamDecode w = .error 0x0101)) ∧
  (∀ w : InsnWord, (Fields.unpack w).fn < forms (Fields.unpack w).op →
    (∀ i : Instr, decode w ≠ .insn i) →
    coreDecode w = .error (if opClass w = 3 then 0x0105 else 0x0102) ∧ (w ≠ 0 → streamDecode w = .error 0x0102)) ∧
  (∀ i : Instr, i.isStream = true → i.toFields.isSome = true → i.wellFormed = true → coreDecode (encode i) = .error 0x0105) ∧
  streamDecode 0 = .ok .snop)

/-! ### Integer, predicate and scalar instructions -/

/-- IADD, IMUL, LOGIC and LEA write the rule's result for each participant, and nothing else changes (R228 to R230, R236). SHIFT, BITF and
BITC (R231 to R233). IMINMAX and IDIV (R234, R235). -/
def Obligations.IntegerArithmetic : Prop :=
  ((∀ c d a b, LaneResult (.iaddAdd c d a b) d fun _ x l => x.t.v a l + x.t.vb b l) ∧
  (∀ c d a b, LaneResult (.iaddSub c d a b) d fun _ x l => x.t.v a l - x.t.vb b l) ∧
  (∀ c d a b uns, LaneResult (.iaddAddsat c d a b uns) d fun _ x l =>
    if uns then BitVec.ofNat 32 (min (2 ^ 32 - 1) ((x.t.v a l).toNat + (x.t.vb b l).toNat))
    else BitVec.ofInt 32 (max (-2 ^ 31) (min (2 ^ 31 - 1) ((x.t.v a l).toInt + (x.t.vb b l).toInt)))) ∧
  (∀ c d a b uns, LaneResult (.iaddSubsat c d a b uns) d fun _ x l =>
    if uns then BitVec.ofNat 32 ((x.t.v a l).toNat - (x.t.vb b l).toNat)
    else BitVec.ofInt 32 (max (-2 ^ 31) (min (2 ^ 31 - 1) ((x.t.v a l).toInt - (x.t.vb b l).toInt)))) ∧
  (∀ c d a, LaneResult (.iaddNeg c d a) d fun _ x l => 0 - x.t.v a l) ∧
  (∀ c d a b, LaneResult (.imulLo c d a b) d fun _ x l => x.t.v a l * x.t.vb b l) ∧
  (∀ c d a b, LaneResult (.imulHis c d a b) d fun _ x l => BitVec.ofInt 32 ((x.t.v a l).toInt * (x.t.vb b l).toInt / 2 ^ 32)) ∧
  (∀ c d a b, LaneResult (.imulHin c d a b) d fun _ x l => BitVec.ofNat 32 ((x.t.v a l).toNat * (x.t.vb b l).toNat / 2 ^ 32)) ∧
  (∀ c d a b y, LaneResult (.imulMad c d a b y) d fun _ x l => x.t.v a l * x.t.v b l + x.t.vc y l) ∧
  (∀ c d a b, LaneResult (.logicAnd c d a b) d fun _ x l => x.t.v a l &&& x.t.vb b l) ∧
  (∀ c d a b, LaneResult (.logicOr c d a b) d fun _ x l => x.t.v a l ||| x.t.vb b l) ∧
  (∀ c d a b, LaneResult (.logicXor c d a b) d fun _ x l => x.t.v a l ^^^ x.t.vb b l) ∧
  (∀ c d a b, LaneResult (.logicAndn c d a b) d fun _ x l => x.t.v a l &&& ~~~x.t.vb b l) ∧
  (∀ c d a, LaneResult (.logicNot c d a) d fun _ x l => ~~~x.t.v a l) ∧
  (∀ c d a b sh, LaneResult (.lea c d a b sh) d fun _ x l => x.t.v a l + (x.t.v b l <<< sh.toNat))) ∧
  ((∀ c d a b, LaneResult (.shiftShl c d a b) d fun _ x l => BitVec.ofNat 32 ((x.t.v a l).toNat * 2 ^ (x.t.vb b l).toNat)) ∧
  (∀ c d a b, LaneResult (.shiftShr c d a b) d fun _ x l => BitVec.ofNat 32 ((x.t.v a l).toNat / 2 ^ (x.t.vb b l).toNat)) ∧
  (∀ c d a b, LaneResult (.shiftSar c d a b) d fun _ x l => BitVec.ofInt 32 ((x.t.v a l).toInt / 2 ^ (x.t.vb b l).toNat)) ∧
  (∀ c d a b, LaneResult (.shiftRol c d a b) d fun _ x l => (x.t.v a l).rotateLeft ((x.t.vb b l).toNat % 32)) ∧
  (∀ c d a b, LaneResult (.bitfBfe c d a b) d fun _ x l =>
    (((x.t.v a l).signExtend 64).extractLsb' ((x.t.vb b l).toNat % 32) ((x.t.vb b l).toNat / 256 % 32)).signExtend 32) ∧
  (∀ c d a b, LaneResult (.bitfBfen c d a b) d fun _ x l =>
    (((x.t.v a l).setWidth 64).extractLsb' ((x.t.vb b l).toNat % 32) ((x.t.vb b l).toNat / 256 % 32)).setWidth 32) ∧
  (∀ c d a b y, ∀ s x, Ready s (.bitfBfi c d a b y) x → ∃ s' t', Completes (.bitfBfi c d a b y) s x [d.val] [] [] s' t' ∧
    ∀ l ∈ x.ls, ∀ i, i < 32 → (t'.v d l).getLsbD i =
      (let pos := (x.t.v b l).toNat % 32
       let len := (x.t.v b l).toNat / 256 % 32
       if pos ≤ i ∧ i < pos + len then (x.t.v a l).getLsbD (i - pos) else (x.t.vc y l).getLsbD i)) ∧
  (∀ c d a, LaneResult (.bitcPopc c d a) d fun _ x l => BitVec.ofNat 32 ((List.range 32).countP fun i => (x.t.v a l).getLsbD i)) ∧
  (∀ c d a, LaneResult (.bitcClz c d a) d fun _ x l => (x.t.v a l).clz) ∧
  (∀ c d a, LaneResult (.bitcCtz c d a) d fun _ x l => (x.t.v a l).ctz) ∧
  (∀ c d a, ∀ s x, Ready s (.bitcBrev c d a) x → ∃ s' t', Completes (.bitcBrev c d a) s x [d.val] [] [] s' t' ∧
    ∀ l ∈ x.ls, ∀ i, i < 32 → (t'.v d l).getLsbD i = (x.t.v a l).getLsbD (31 - i))) ∧
  ((∀ c d a b, LaneResult (.iminmaxMin c d a b) d fun _ x l => BitVec.ofInt 32 (min (x.t.v a l).toInt (x.t.vb b l).toInt)) ∧
  (∀ c d a b, LaneResult (.iminmaxMax c d a b) d fun _ x l => BitVec.ofInt 32 (max (x.t.v a l).toInt (x.t.vb b l).toInt)) ∧
  (∀ c d a b, LaneResult (.iminmaxMinn c d a b) d fun _ x l => BitVec.ofNat 32 (min (x.t.v a l).toNat (x.t.vb b l).toNat)) ∧
  (∀ c d a b, LaneResult (.iminmaxMaxn c d a b) d fun _ x l => BitVec.ofNat 32 (max (x.t.v a l).toNat (x.t.vb b l).toNat)) ∧
  (∀ c d a b, LaneResult (.idivDivn c d a b) d fun _ x l =>
    if x.t.vb b l = 0 then 0xFFFFFFFF else BitVec.ofNat 32 ((x.t.v a l).toNat / (x.t.vb b l).toNat)) ∧
  (∀ c d a b, LaneResult (.idivRemn c d a b) d fun _ x l =>
    if x.t.vb b l = 0 then x.t.v a l
    else BitVec.ofNat 32 ((x.t.v a l).toNat - (x.t.v a l).toNat / (x.t.vb b l).toNat * (x.t.vb b l).toNat)) ∧
  (∀ c d a b, LaneResult (.idivDivs c d a b) d fun _ x l =>
    if x.t.vb b l = 0 then 0xFFFFFFFF else BitVec.ofInt 32 ((x.t.v a l).toInt.tdiv (x.t.vb b l).toInt)) ∧
  (∀ c d a b, LaneResult (.idivRems c d a b) d fun _ x l =>
    if x.t.vb b l = 0 then x.t.v a l else BitVec.ofInt 32 ((x.t.v a l).toInt.tmod (x.t.vb b l).toInt)))

/-- ICMP writes each participant's predicate, and SCMP the one result to all of them; p0 stays true (R219, R224, R238). PLOP, SEL, MOV and
JREAD (R219, R225 to R227). Readings and choices of the model that clauses rest on: log 130. -/
def Obligations.IntegerCompares : Prop :=
  ((∀ c d a b, PredResult (.icmpEq c d a b) d fun _ x l => decide (x.t.v a l = x.t.vb b l)) ∧
  (∀ c d a b, PredResult (.icmpNe c d a b) d fun _ x l => decide (x.t.v a l ≠ x.t.vb b l)) ∧
  (∀ c d a b, PredResult (.icmpLt c d a b) d fun _ x l => decide ((x.t.v a l).toInt < (x.t.vb b l).toInt)) ∧
  (∀ c d a b, PredResult (.icmpLe c d a b) d fun _ x l => decide ((x.t.v a l).toInt ≤ (x.t.vb b l).toInt)) ∧
  (∀ c d a b, PredResult (.icmpGt c d a b) d fun _ x l => decide ((x.t.v a l).toInt > (x.t.vb b l).toInt)) ∧
  (∀ c d a b, PredResult (.icmpGe c d a b) d fun _ x l => decide ((x.t.v a l).toInt ≥ (x.t.vb b l).toInt)) ∧
  (∀ c d a b, PredResult (.icmpLtn c d a b) d fun _ x l => decide ((x.t.v a l).toNat < (x.t.vb b l).toNat)) ∧
  (∀ c d a b, PredResult (.icmpLen c d a b) d fun _ x l => decide ((x.t.v a l).toNat ≤ (x.t.vb b l).toNat)) ∧
  (∀ c d a b, PredResult (.icmpGtn c d a b) d fun _ x l => decide ((x.t.v a l).toNat > (x.t.vb b l).toNat)) ∧
  (∀ c d a b, PredResult (.icmpGen c d a b) d fun _ x l => decide ((x.t.v a l).toNat ≥ (x.t.vb b l).toNat)) ∧
  (∀ c d a b, PredResult (.scmp c .eq d a b) d fun _ x _ => decide (x.t.s a = x.t.sb b)) ∧
  (∀ c d a b, PredResult (.scmp c .ne d a b) d fun _ x _ => decide (x.t.s a ≠ x.t.sb b)) ∧
  (∀ c d a b, PredResult (.scmp c .lt d a b) d fun _ x _ => decide ((x.t.s a).toInt < (x.t.sb b).toInt)) ∧
  (∀ c d a b, PredResult (.scmp c .le d a b) d fun _ x _ => decide ((x.t.s a).toInt ≤ (x.t.sb b).toInt)) ∧
  (∀ c d a b, PredResult (.scmp c .gt d a b) d fun _ x _ => decide ((x.t.s a).toInt > (x.t.sb b).toInt)) ∧
  (∀ c d a b, PredResult (.scmp c .ge d a b) d fun _ x _ => decide ((x.t.s a).toInt ≥ (x.t.sb b).toInt)) ∧
  (∀ c d a b, PredResult (.scmp c .ltn d a b) d fun _ x _ => decide ((x.t.s a).toNat < (x.t.sb b).toNat)) ∧
  (∀ c d a b, PredResult (.scmp c .len d a b) d fun _ x _ => decide ((x.t.s a).toNat ≤ (x.t.sb b).toNat)) ∧
  (∀ c d a b, PredResult (.scmp c .gtn d a b) d fun _ x _ => decide ((x.t.s a).toNat > (x.t.sb b).toNat)) ∧
  (∀ c d a b, PredResult (.scmp c .gen d a b) d fun _ x _ => decide ((x.t.s a).toNat ≥ (x.t.sb b).toNat))) ∧
  ((∀ c d a b, PredResult (.plopAnd c d a b) d fun _ x l => (x.t.p a).getLsbD l && (x.t.p b).getLsbD l) ∧
  (∀ c d a b, PredResult (.plopOr c d a b) d fun _ x l => (x.t.p a).getLsbD l || (x.t.p b).getLsbD l) ∧
  (∀ c d a b, PredResult (.plopXor c d a b) d fun _ x l => xor ((x.t.p a).getLsbD l) ((x.t.p b).getLsbD l)) ∧
  (∀ c d a b, PredResult (.plopAndn c d a b) d fun _ x l => (x.t.p a).getLsbD l && !(x.t.p b).getLsbD l) ∧
  (∀ c d a, PredResult (.plopNot c d a) d fun _ x l => !(x.t.p a).getLsbD l) ∧
  (∀ c d a, PredResult (.plopMov c d a) d fun _ x l => (x.t.p a).getLsbD l) ∧
  (∀ c d j, PredResult (.jread c d j) d fun _ x l => (x.t.join j).members.getLsbD l) ∧
  (∀ c d a b p inv, LaneResult (.sel c d a b p inv) d fun _ x l =>
    if xor ((x.t.p p).getLsbD l) inv then x.t.v a l else x.t.v b l) ∧
  (∀ c d a, LaneResult (.movReg c d a) d fun _ x l => x.t.v a l) ∧
  (∀ c d i, LaneResult (.movImm c d i) d fun _ _ _ => i) ∧
  (∀ c d a, LaneResult (.movS2V c d a false) d fun _ x _ => (x.t.s a).extractLsb' 0 32) ∧
  (∀ c d a, LaneResult (.movS2V c d a true) d fun _ x _ => (x.t.s a).extractLsb' 32 32) ∧
  (∀ c d a, ScalarResult (.movV2S c d a false) d fun _ x => (x.t.s d).extractLsb' 32 32 ++ x.t.v a (x.ls.headD 0)) ∧
  (∀ c d a, ScalarResult (.movV2S c d a true) d fun _ x => x.t.v a (x.ls.headD 0) ++ (x.t.s d).extractLsb' 0 32))

/-- SALU and SMOVI act once for the team, when a lane takes part (R204, R237, R240). ADDR: T = (V + EXTS(B, 64)) mod 2^80 into the pair,
with bits 63:16 of the odd register zero (R94, R239). With no participant nothing is written. -/
def Obligations.ScalarArithmetic : Prop :=
  ((∀ c d a b, ScalarResult (.saluAdd c d a b) d fun _ x => x.t.s a + x.t.sb b) ∧
  (∀ c d a b, ScalarResult (.saluSub c d a b) d fun _ x => x.t.s a - x.t.sb b) ∧
  (∀ c d a b, ScalarResult (.saluMul c d a b) d fun _ x => x.t.s a * x.t.sb b) ∧
  (∀ c d a b, ScalarResult (.saluAnd c d a b) d fun _ x => x.t.s a &&& x.t.sb b) ∧
  (∀ c d a b, ScalarResult (.saluOr c d a b) d fun _ x => x.t.s a ||| x.t.sb b) ∧
  (∀ c d a b, ScalarResult (.saluXor c d a b) d fun _ x => x.t.s a ^^^ x.t.sb b) ∧
  (∀ c d a b, ScalarResult (.saluShl c d a b) d fun _ x => if 64 ≤ (x.t.sb b).toNat then 0 else x.t.s a <<< (x.t.sb b).toNat) ∧
  (∀ c d a b, ScalarResult (.saluShr c d a b) d fun _ x => if 64 ≤ (x.t.sb b).toNat then 0 else x.t.s a >>> (x.t.sb b).toNat) ∧
  (∀ c d a b, ScalarResult (.saluSar c d a b) d fun _ x =>
    if 64 ≤ (x.t.sb b).toNat then (if (x.t.s a).getLsbD 63 then BitVec.allOnes 64 else 0)
    else (x.t.s a).sshiftRight (x.t.sb b).toNat) ∧
  (∀ c d a b, ScalarResult (.saluMin c d a b false) d fun _ x => BitVec.ofInt 64 (min (x.t.s a).toInt (x.t.sb b).toInt)) ∧
  (∀ c d a b, ScalarResult (.saluMin c d a b true) d fun _ x => BitVec.ofNat 64 (min (x.t.s a).toNat (x.t.sb b).toNat)) ∧
  (∀ c d a b, ScalarResult (.saluMax c d a b false) d fun _ x => BitVec.ofInt 64 (max (x.t.s a).toInt (x.t.sb b).toInt)) ∧
  (∀ c d a b, ScalarResult (.saluMax c d a b true) d fun _ x => BitVec.ofNat 64 (max (x.t.s a).toNat (x.t.sb b).toNat)) ∧
  (∀ c d i, ScalarResult (.smoviLo c d i) d fun _ x => (x.t.s d).extractLsb' 32 32 ++ i) ∧
  (∀ c d i, ScalarResult (.smoviHi c d i) d fun _ x => i ++ (x.t.s d).extractLsb' 0 32)) ∧
  (∀ c d a b s x, Ready s (.addr c d a b) x →
    ((x.t.s (a.val + 1)).toNat < 2 ^ 16 → x.m ≠ 0 → ∃ s' t', Completes (.addr c d a b) s x [] [d.val, d.val + 1] [] s' t' ∧
      let v : Int := (x.t.s a).toNat + 2 ^ 64 * (x.t.s (a.val + 1)).toNat
      ((t'.s d).toNat : Int) + 2 ^ 64 * (t'.s (d.val + 1)).toNat = (v + (x.t.sb b).toInt) % 2 ^ 80) ∧
    (x.m = 0 → ∃ s' t', Completes (.addr c d a b) s x [] [] [] s' t'))

/-- SREG read: into a vector register each lane's value, into a scalar register one value zero-extended (R206, R207, Tables 02.4 and 11.1).
%cycles counts the device’s clocks from the clock at which the core left device reset, which is a free value no later than the core's
first crew (log 2). SREG write of each register that may be written, by the value of an s register or the zero-extended v register of
the lowest participant: %migr; %tsave and %tvec at a multiple of 64; %stkbase at a multiple of 32 and %stklim, while no frame is in
memory (R116, R207). Nothing else of the team changes. Readings and choices of the model that clauses rest on: logs 2, 29. -/
def Obligations.SpecialRegisters : Prop :=
  ((∀ c d, LaneResult (.sregRead c (.v d) .lane) d fun _ _ l => BitVec.ofNat 32 l) ∧
  (∀ c d, LaneResult (.sregRead c (.v d) .team) d fun _ x _ => BitVec.ofNat 32 x.t.num) ∧
  (∀ c d, LaneResult (.sregRead c (.v d) .crew) d fun _ x _ => BitVec.ofNat 32 x.crew.num) ∧
  (∀ c d, LaneResult (.sregRead c (.v d) .core) d fun _ x _ => BitVec.ofNat 32 (x.t.quarter / 4)) ∧
  (∀ c d, LaneResult (.sregRead c (.v d) .quarter) d fun _ x _ => BitVec.ofNat 32 (x.t.quarter % 4)) ∧
  (∀ c d, LaneResult (.sregRead c (.v d) .migr) d fun _ x _ => if x.t.migr then 1 else 0) ∧
  (∀ c d, LaneResult (.sregRead c (.v d) .tcause) d fun _ x _ => x.t.tcause.setWidth 32) ∧
  (∀ c d, LaneResult (.sregRead c (.v d) .draws) d fun _ x l => x.t.draws.getD l 0) ∧
  (∀ c d, LaneResult (.sregRead c (.v d) .nlanes) d fun _ x _ => BitVec.ofNat 32 x.t.nlanes) ∧
  (∀ c d, LaneResult (.sregRead c (.v d) .nteams) d fun _ x _ => BitVec.ofNat 32 x.crew.nteams) ∧
  (∀ c d, ScalarResult (.sregRead c (.s d) .team) d fun _ x => BitVec.ofNat 64 x.t.num) ∧
  (∀ c d, ScalarResult (.sregRead c (.s d) .crew) d fun _ x => BitVec.ofNat 64 x.crew.num) ∧
  (∀ c d, ScalarResult (.sregRead c (.s d) .launch) d fun _ x => x.crew.launch) ∧
  (∀ c d, ScalarResult (.sregRead c (.s d) .core) d fun _ x => BitVec.ofNat 64 (x.t.quarter / 4)) ∧
  (∀ c d, ScalarResult (.sregRead c (.s d) .quarter) d fun _ x => BitVec.ofNat 64 (x.t.quarter % 4)) ∧
  (∀ c d, ScalarResult (.sregRead c (.s d) .migr) d fun _ x => if x.t.migr then 1 else 0) ∧
  (∀ c d, ScalarResult (.sregRead c (.s d) .cycles) d fun s x =>
    let k := (s.coreStatOf (x.t.quarter / 4)).phys.toNat
    BitVec.ofNat 64 (s.clock - Config.cycleOffset s.epoch k % (s.firstWork.getD k 0 + 1))) ∧
  (∀ c d, ScalarResult (.sregRead c (.s d) .stkbase) d fun _ x => x.t.stkbase) ∧
  (∀ c d, ScalarResult (.sregRead c (.s d) .stklim) d fun _ x => x.t.stklim) ∧
  (∀ c d, ScalarResult (.sregRead c (.s d) .bufd) d fun _ x => x.t.bufd) ∧
  (∀ c d, ScalarResult (.sregRead c (.s d) .bufa) d fun _ x => x.t.bufa) ∧
  (∀ c d, ScalarResult (.sregRead c (.s d) .bufb) d fun _ x => x.t.bufb) ∧
  (∀ c d, ScalarResult (.sregRead c (.s d) .tsave) d fun _ x => x.t.tsave) ∧
  (∀ c d, ScalarResult (.sregRead c (.s d) .tvec) d fun _ x => x.t.tvec) ∧
  (∀ c d, ScalarResult (.sregRead c (.s d) .tcause) d fun _ x => x.t.tcause.setWidth 64) ∧
  (∀ c d, ScalarResult (.sregRead c (.s d) .nlanes) d fun _ x => BitVec.ofNat 64 x.t.nlanes) ∧
  (∀ c d, ScalarResult (.sregRead c (.s d) .nteams) d fun _ x => BitVec.ofNat 64 x.crew.nteams) ∧
  (∀ c d, ScalarResult (.sregRead c (.s d) .ncrew) d fun _ x => BitVec.ofNat 64 x.crew.ncrew)) ∧
  (∀ c a s x, ∀ v : DWord,
    v = (match a with
      | .v r => (x.t.v r.val (x.ls.headD 0)).setWidth 64
      | .s r => x.t.s r.val) → x.m ≠ 0 →
    (Ready s (.sregWrite c .migr a) x → ∃ s' t', Becomes (.sregWrite c .migr a) s x { x.t with migr := v.getLsbD 0 } s' t') ∧
    (Ready s (.sregWrite c .tsave a) x → v.toNat % 64 = 0 →
      ∃ s' t', Becomes (.sregWrite c .tsave a) s x { x.t with tsave := v } s' t') ∧
    (Ready s (.sregWrite c .tvec a) x → v.toNat % 64 = 0 →
      ∃ s' t', Becomes (.sregWrite c .tvec a) s x { x.t with tvec := v } s' t') ∧
    (Ready s (.sregWrite c .stkbase a) x → v.toNat % 32 = 0 → x.t.memFrames = 0 → x.t.outerFrames = 0 →
      ∃ s' t', Becomes (.sregWrite c .stkbase a) s x { x.t with stkbase := v } s' t') ∧
    (Ready s (.sregWrite c .stklim a) x → x.t.memFrames = 0 → x.t.outerFrames = 0 →
      ∃ s' t', Becomes (.sregWrite c .stklim a) s x { x.t with stklim := v } s' t'))

/-! ### Floating point -/

/-- Rounding to a format is correct in every mode: of the finite magnitudes of the format, RTZ (and RDN of a positive and RUP of a negative
value) takes the greatest not above the exact one, the opposite modes the least not below it, and RNE a nearest one, the even one of two
(R73). There is no finite result exactly when the mode, with an unbounded exponent, rounds beyond the largest finite magnitude (R74).
Magnitudes are counted in units of 2^(qmin − k), which hold both the format's and the exact one without a fraction. -/
def Obligations.RoundingIsCorrect : Prop :=
  ∀ f ∈ [FFmt.f64, FFmt.f32, FFmt.f16, FFmt.bf16, FFmt.e4m3, FFmt.e5m2], ∀ (neg : Bool) (m : Nat) (e : Int),
    let k := (f.qmin - e).toNat
    let v := m * 2 ^ (e - f.qmin).toNat
    let mag := fun (y : Nat) => match f.val y with
      | .fin _ n d => n * 2 ^ (d - f.qmin).toNat * 2 ^ k
      | _ => 0
    let down := fun (x : Nat) => mag x ≤ v ∧ ∀ y ≤ f.maxFin, mag y ≤ v → y ≤ x
    let up := fun (x : Nat) => v ≤ mag x ∧ ∀ y ≤ f.maxFin, v ≤ mag y → x ≤ y
    let top := mag f.maxFin
    let step := top - mag (f.maxFin - 1)
    (∀ rm, f.roundMag rm neg m e = none ↔ (match rm with
      | .rne => 2 * top + step < 2 * v ∨ (2 * top + step = 2 * v ∧ f.maxFin % 2 = 1)
      | .rtz => top + step ≤ v
      | .rdn => if neg then top < v else top + step ≤ v
      | .rup => if neg then top + step ≤ v else top < v)) ∧
    (∀ x, f.roundMag .rtz neg m e = some x → down x) ∧
    (∀ x, f.roundMag .rdn neg m e = some x → if neg then up x else down x) ∧
    (∀ x, f.roundMag .rup neg m e = some x → if neg then down x else up x) ∧
    (∀ x, f.roundMag .rne neg m e = some x → ∀ y ≤ f.maxFin,
      ((mag x : Int) - v).natAbs ≤ ((mag y : Int) - v).natAbs ∧
      (((mag x : Int) - v).natAbs = ((mag y : Int) - v).natAbs → y = x ∨ x % 2 = 0))

/-- FARITH, FFMA, DARITH and HARITH2 round the exact result once in the instruction's mode (R73, R243, R244, R248, R249). An arithmetic
result that is a NaN is the canonical one, whatever the mode (R71), and one beyond the largest finite value is the overflow result of
its mode (R74). -/
def Obligations.FloatArithmetic : Prop :=
  (let w := fun (f : FFmt) (x : Word) => f.val x.toNat
  let r := fun rm (x : FVal) => BitVec.ofNat 32 (FFmt.f32.round rm x)
  let v := fun (x : DWord) => FFmt.f64.val x.toNat
  let d := fun rm (x : FVal) => BitVec.ofNat 64 (FFmt.f64.round rm x)
  let h := fun (f : FFmt) (x : Word) k => f.val (x.toNat / 2 ^ (16 * k) % 2 ^ 16)
  let p := fun (f : FFmt) rm (x : Nat → FVal) => BitVec.ofNat 32 (f.round rm (x 0) % 2 ^ 16 + 2 ^ 16 * (f.round rm (x 1) % 2 ^ 16))
  (∀ c rm e a b, LaneResult (.farithAdd c rm e a b) e fun _ x l => r rm ((w .f32 (x.t.v a l)).add rm (w .f32 (x.t.vb b l)))) ∧
  (∀ c rm e a b, LaneResult (.farithSub c rm e a b) e fun _ x l => r rm ((w .f32 (x.t.v a l)).add rm (w .f32 (x.t.vb b l)).neg)) ∧
  (∀ c rm e a b, LaneResult (.farithMul c rm e a b) e fun _ x l => r rm ((w .f32 (x.t.v a l)).mul (w .f32 (x.t.vb b l)))) ∧
  (∀ c rm e a b y, LaneResult (.ffmaFma c rm e a b y) e fun _ x l =>
    r rm (((w .f32 (x.t.v a l)).mul (w .f32 (x.t.v b l))).add rm (w .f32 (x.t.vc y l)))) ∧
  (∀ c rm e a b y, LaneResult (.ffmaFms c rm e a b y) e fun _ x l =>
    r rm (((w .f32 (x.t.v a l)).mul (w .f32 (x.t.v b l))).add rm (w .f32 (x.t.vc y l)).neg)) ∧
  (∀ c rm e a b y, LaneResult (.ffmaFnma c rm e a b y) e fun _ x l =>
    r rm (((w .f32 (x.t.v a l)).mul (w .f32 (x.t.v b l))).neg.add rm (w .f32 (x.t.vc y l)))) ∧
  (∀ c rm e a b y, LaneResult (.ffmaFnms c rm e a b y) e fun _ x l =>
    r rm (((w .f32 (x.t.v a l)).mul (w .f32 (x.t.v b l))).neg.add rm (w .f32 (x.t.vc y l)).neg)) ∧
  (∀ c rm e a b, PairResult (.darithDadd c rm e a b) e fun _ x l => d rm ((v (x.t.v64 a l)).add rm (v (x.t.v64 b l)))) ∧
  (∀ c rm e a b, PairResult (.darithDsub c rm e a b) e fun _ x l => d rm ((v (x.t.v64 a l)).add rm (v (x.t.v64 b l)).neg)) ∧
  (∀ c rm e a b, PairResult (.darithDmul c rm e a b) e fun _ x l => d rm ((v (x.t.v64 a l)).mul (v (x.t.v64 b l)))) ∧
  (∀ c rm e a b y, PairResult (.darithDfma c rm e a b y) e fun _ x l =>
    d rm (((v (x.t.v64 a l)).mul (v (x.t.v64 b l))).add rm (v (x.t.vc64 y l)))) ∧
  ∀ c rm ty e a b y, let f := halfFmt ty
    LaneResult (.harith2Hadd2 c rm ty e a b) e (fun _ x l =>
      p f rm fun k => (h f (x.t.v a l) k).add rm (h f (x.t.v b l) k)) ∧
    LaneResult (.harith2Hmul2 c rm ty e a b) e (fun _ x l => p f rm fun k => (h f (x.t.v a l) k).mul (h f (x.t.v b l) k)) ∧
    LaneResult (.harith2Hfma2 c rm ty e a b y) e (fun _ x l =>
      p f rm fun k => ((h f (x.t.v a l) k).mul (h f (x.t.v b l) k)).add rm (h f (x.t.vc y l) k))) ∧
  (∀ (f : FFmt) (rm : RM),
    f.round rm .nan = f.nan ∧
    (∀ a b, ((f.val a).isNaN || (f.val b).isNaN) = true → f.add rm a b = f.nan ∧ f.sub rm a b = f.nan ∧ f.mul rm a b = f.nan) ∧
    ∀ neg m e, f.roundMag rm neg m e = none → f.hasInf = true →
      f.round rm (.fin neg m e) = (if neg then f.signBit else 0) + (match rm with
        | .rne => f.inf
        | .rtz => f.maxFin
        | .rdn => if neg then f.inf else f.maxFin
        | .rup => if neg then f.maxFin else f.inf))

/-- FMIN and FMAX order −0 below +0. When exactly one operand is a NaN they return the other operand. When both are NaN they return the
canonical NaN (R77). Otherwise the lesser or the greater operand is returned. -/
def Obligations.MinMaxOfFloats : Prop :=
  ∀ f ∈ [FFmt.f64, FFmt.f32, FFmt.f16], ∀ max a b,
    (f.minmax max f.signBit 0 = (if max then 0 else f.signBit) ∧ f.minmax max 0 f.signBit = (if max then 0 else f.signBit)) ∧
    ((f.val a).isNaN = true → (f.val b).isNaN = false → f.minmax max a b = b ∧ f.minmax max b a = b) ∧
    ((f.val a).isNaN = true → (f.val b).isNaN = true → f.minmax max a b = f.nan) ∧
    ((f.val a).lt (f.val b) = true → f.minmax max a b = (if max then b else a) ∧ f.minmax max b a = (if max then b else a))

/-- FMINMAX, FSIGN and FCMP on f32 and f64 (R245 to R247). FSIGN changes only the sign bit. -/
def Obligations.FloatSelectionAndCompares : Prop :=
  (∀ c ty d a b, FloatResult (.fminmaxMin c ty d a b) ty d fun _ x l => (fmtOf ty).minmax false (x.t.vf ty a l) (x.t.vbf ty b l)) ∧
  (∀ c ty d a b, FloatResult (.fminmaxMax c ty d a b) ty d fun _ x l => (fmtOf ty).minmax true (x.t.vf ty a l) (x.t.vbf ty b l)) ∧
  (∀ c d a, LaneResult (.fsignAbs c .f32 d a) d fun _ x l => x.t.v a l &&& 0x7FFFFFFF) ∧
  (∀ c d a, PairResult (.fsignAbs c .f64 d a) d fun _ x l => x.t.v64 a l &&& 0x7FFFFFFFFFFFFFFF) ∧
  (∀ c d a, LaneResult (.fsignNeg c .f32 d a) d fun _ x l => x.t.v a l ^^^ 0x80000000) ∧
  (∀ c d a, PairResult (.fsignNeg c .f64 d a) d fun _ x l => x.t.v64 a l ^^^ 0x8000000000000000) ∧
  (∀ c d a b, LaneResult (.fsignCopysign c .f32 d a b) d fun _ x l =>
    (x.t.v a l &&& 0x7FFFFFFF) ||| (x.t.v b l &&& 0x80000000)) ∧
  (∀ c d a b, PairResult (.fsignCopysign c .f64 d a b) d fun _ x l =>
    (x.t.v64 a l &&& 0x7FFFFFFFFFFFFFFF) ||| (x.t.v64 b l &&& 0x8000000000000000)) ∧
  ∀ c ty d a b,
    let n := fun (x : Ctx) l => ((fmtOf ty).val (x.t.vf ty a l)).isNaN || ((fmtOf ty).val (x.t.vbf ty b l)).isNaN
    let e := fun (x : Ctx) l => ((fmtOf ty).val (x.t.vf ty a l)).eq ((fmtOf ty).val (x.t.vbf ty b l))
    let lt := fun (x : Ctx) l => ((fmtOf ty).val (x.t.vf ty a l)).lt ((fmtOf ty).val (x.t.vbf ty b l))
    let gt := fun (x : Ctx) l => ((fmtOf ty).val (x.t.vbf ty b l)).lt ((fmtOf ty).val (x.t.vf ty a l))
    PredResult (.fcmpEq c ty d a b) d (fun _ => e) ∧
    PredResult (.fcmpNe c ty d a b) d (fun _ x l => n x l || !e x l) ∧
    PredResult (.fcmpLt c ty d a b) d (fun _ => lt) ∧
    PredResult (.fcmpLe c ty d a b) d (fun _ x l => !n x l && !gt x l) ∧
    PredResult (.fcmpGt c ty d a b) d (fun _ => gt) ∧
    PredResult (.fcmpGe c ty d a b) d (fun _ x l => !n x l && !lt x l) ∧
    PredResult (.fcmpUnord c ty d a b) d (fun _ => n) ∧
    PredResult (.fcmpOrd c ty d a b) d (fun _ x l => !n x l)

/-- A conversion from floating point to an integer format rounds in the selected mode and then saturates to the integer range; a NaN gives
0, and ±∞ give the largest and smallest values. One between integer formats saturates, and .ovf on an integer target is a reserved field
(R76). Integer patterns are read in two's complement. -/
def Obligations.ConversionsToIntegers : Prop :=
  ∀ (dst src : Fmt) (ovf : Bool) (rm : RM) (v : Nat), dst.isFloat = false →
    let lo : Int := if isSigned dst then -2 ^ (dst.width - 1) else 0
    let hi : Int := if isSigned dst then 2 ^ (dst.width - 1) - 1 else 2 ^ dst.width - 1
    let pat := fun (x : Int) => (x % 2 ^ dst.width).toNat
    (∀ f, ffmtOf src = some f → convert dst src ovf rm v = (match f.val v with
      | .nan => 0
      | .inf true => pat lo
      | .inf false => pat hi
      | .fin neg m e =>
        let n : Int := FVal.toInt rm neg m e
        pat (max lo (min hi (if neg then -n else n))))) ∧
    (ffmtOf src = none → convert dst src ovf rm v = pat (max lo (min hi (intValue src v)))) ∧
    ∀ c part d a, (Instr.cvt c dst src true rm part d a).wellFormed = false ∧
      coreDecode (encode (Instr.cvt c dst src true rm part d a)) = .error 0x0102

/-- A widening conversion is exact whatever the mode and .ovf; a narrowing one, and one from an integer format to a float format, rounds,
and saturates or, with .ovf, gives the overflow result (R75). Every narrowing NaN is canonical. CVT reads and writes the selected part
of a narrow operand and keeps the rest of D (R250 to R252); FRND rounds to an integral value (R253); FKEY and its inverse (R254). The
unsigned order of the keys is −∞ < … < −0 < +0 < … < +∞ < NaN; every NaN maps to the key of the canonical NaN, and the inverse form
inverts the forward form for every value that is not a NaN (R254). Readings and choices of the model that clauses rest on: log 111. -/
def Obligations.Conversions : Prop :=
  ((∀ src dst : FFmt, src ∈ [FFmt.f32, FFmt.f16, FFmt.bf16, FFmt.e4m3, FFmt.e5m2] →
    dst ∈ [FFmt.f64, FFmt.f32, FFmt.f16, FFmt.bf16] → src.widens dst = true → ∀ rm ovf v,
    (match src.val v, dst.val (src.convert dst rm ovf v) with
      | .nan, y => y = .nan ∧ src.convert dst rm ovf v = dst.nan
      | .inf a, y => y = .inf a
      | .fin a m e, .fin b n d => a = b ∧ m * 2 ^ (e + 1100).toNat = n * 2 ^ (d + 1100).toNat
      | _, _ => False)) ∧
  (∀ (dst src : Fmt) (g : FFmt) ovf rm v, ffmtOf dst = some g →
    (∀ f, ffmtOf src = some f → convert dst src ovf rm v = if f.widens g then f.convert g rm ovf v else g.narrow rm ovf (f.val v)) ∧
    (ffmtOf src = none →
      v < 2 ^ src.width →
      let x : Int := if isSigned src && v / 2 ^ (src.width - 1) = 1 then (v : Int) - 2 ^ src.width else v
      convert dst src ovf rm v = g.narrow rm ovf (.fin (x < 0) x.natAbs 0))) ∧
  (∀ f ∈ [FFmt.f64, FFmt.f32, FFmt.f16, FFmt.bf16, FFmt.e4m3, FFmt.e5m2],
    ([FFmt.f64, FFmt.f32, FFmt.f16, FFmt.bf16, FFmt.e4m3, FFmt.e5m2].filter f.widens) =
      if f = .f16 ∨ f = .bf16 then [.f64, .f32] else if f = .f32 then [.f64]
      else if f = .e4m3 ∨ f = .e5m2 then [.f64, .f32, .f16, .bf16] else []) ∧
  (∀ (dst : FFmt) rm ovf neg m e, dst.narrow rm ovf (.fin neg m e) = (match dst.roundMag rm neg m e with
    | some x => (if neg then dst.signBit else 0) + x
    | none => if ovf && !dst.hasInf then dst.nan
      else (if neg then dst.signBit else 0) + (if ovf then dst.overflow rm neg else dst.maxFin))) ∧
  (∀ (dst : FFmt) rm, dst.narrow rm false (.inf false) = dst.maxFin ∧ dst.narrow rm false (.inf true) = dst.signBit + dst.maxFin ∧
    (dst.hasInf = true → dst.narrow rm true (.inf false) = dst.inf ∧ dst.narrow rm true (.inf true) = dst.signBit + dst.inf) ∧
    ∀ ovf, dst.narrow rm ovf .nan = dst.nan) ∧
  (∀ neg, FFmt.e4m3.narrow .rne true (.inf neg) = 0x7F) ∧
  FFmt.e4m3.narrow .rne false (.fin false 464 0) = 0x7E ∧ FFmt.e4m3.narrow .rne false (.fin false 465 0) = 0x7E ∧
  FFmt.e4m3.narrow .rne true (.fin false 465 0) = 0x7F) ∧
  ((∀ c dst src ovf rm part (d a : VReg),
    let get := fun (x : Ctx) l => convert dst src ovf rm (if src.width = 64 then (x.t.v64 a l).toNat
      else (x.t.v a l).toNat / 2 ^ (if src.width = 8 then 8 * part.toNat else if src.width = 16 then 16 * (part.toNat % 2) else 0) %
        2 ^ src.width)
    (dst.width = 64 → PairResult (.cvt c dst src ovf rm part d a) d fun _ x l => BitVec.ofNat 64 (get x l)) ∧
    (dst.width = 32 → LaneResult (.cvt c dst src ovf rm part d a) d fun _ x l => BitVec.ofNat 32 (get x l)) ∧
    (dst.width < 32 → ∀ s x, Ready s (.cvt c dst src ovf rm part d a) x →
      ∃ s' t', Completes (.cvt c dst src ovf rm part d a) s x [d.val] [] [] s' t' ∧ ∀ l ∈ x.ls,
        let k := if dst.width = 8 then 8 * part.toNat else 16 * (part.toNat % 2)
        (t'.v d l).toNat / 2 ^ k % 2 ^ dst.width = get x l % 2 ^ dst.width ∧
        ∀ j, j < 32 → (j < k ∨ k + dst.width ≤ j) → (t'.v d l).getLsbD j = (x.t.v d l).getLsbD j)) ∧
  (∀ c ty rm d a, FloatResult (.frnd c ty rm d a) ty d fun _ x l =>
    match (fmtOf ty).val (x.t.vf ty a l) with
    | .nan => (fmtOf ty).nan
    | .inf _ => x.t.vf ty a l
    | .fin neg m e => (fmtOf ty).round rm (.fin neg (FVal.toInt rm neg m e) 0)) ∧
  (∀ c d a, LaneResult (.fkey c .f32 d a) d fun _ x l => BitVec.ofNat 32 (keyOf .f32 (x.t.v a l).toNat)) ∧
  (∀ c d a, LaneResult (.fkey c .f16 d a) d fun _ x l => BitVec.ofNat 32 (keyOf .f16 ((x.t.v a l).toNat % 2 ^ 16))) ∧
  (∀ c d a, PairResult (.fkey c .f64 d a) d fun _ x l => BitVec.ofNat 64 (keyOf .f64 (x.t.v64 a l).toNat)) ∧
  (∀ c d a, LaneResult (.fkeyInv c .f32 d a) d fun _ x l => BitVec.ofNat 32 (keyInv .f32 (x.t.v a l).toNat)) ∧
  (∀ c d a, LaneResult (.fkeyInv c .f16 d a) d fun _ x l => BitVec.ofNat 32 (keyInv .f16 ((x.t.v a l).toNat % 2 ^ 16))) ∧
  (∀ c d a, PairResult (.fkeyInv c .f64 d a) d fun _ x l => BitVec.ofNat 64 (keyInv .f64 (x.t.v64 a l).toNat))) ∧
  (∀ f ∈ [FFmt.f32, FFmt.f16, FFmt.f64], ∀ a b, a < 2 ^ f.width → b < 2 ^ f.width →
    ((f.val a).lt (f.val b) = true → keyOf f a < keyOf f b) ∧
    keyOf f f.signBit < keyOf f 0 ∧
    ((f.val a).isNaN = false → (f.val b).isNaN = true → keyOf f a < keyOf f b) ∧
    ((f.val a).isNaN = true → keyOf f a = keyOf f f.nan) ∧
    ((f.val a).isNaN = false → keyInv f (keyOf f a) = a) ∧
    ((f.val (keyInv f a)).isNaN = true → keyInv f a = f.nan) ∧
    keyOf f a < 2 ^ f.width)

/-- DOT: the integer forms add the exact sum of products and wrap; DOT4E4M3 rounds the exact sum with C once (R255). -/
def Obligations.DotProducts : Prop :=
  (∀ c d a b y, LaneResult (.dotDot4i8 c d a b y) d fun _ x l => x.t.vc y l + BitVec.ofInt 32 ((List.range 4).map fun k =>
    ((x.t.v a l).extractLsb' (8 * k) 8).toInt * ((x.t.v b l).extractLsb' (8 * k) 8).toInt).sum) ∧
  (∀ c d a b y, LaneResult (.dotDot8i4 c d a b y) d fun _ x l => x.t.vc y l + BitVec.ofInt 32 ((List.range 8).map fun k =>
    ((x.t.v a l).extractLsb' (4 * k) 4).toInt * ((x.t.v b l).extractLsb' (4 * k) 4).toInt).sum) ∧
  (∀ c rm d a b y, LaneResult (.dotDot4e4m3 c rm d a b y) d fun _ x l =>
    BitVec.ofNat 32 (FFmt.f32.round rm (exactSum (FFmt.f32.val (x.t.vc y l).toNat :: (List.range 4).map fun k =>
      (FFmt.e4m3.val ((x.t.v a l).extractLsb' (8 * k) 8).toNat).mul (FFmt.e4m3.val ((x.t.v b l).extractLsb' (8 * k) 8).toNat)))))

/-! ### The special-function unit, lane exchange and random numbers -/

/-- SFU: the destination is empty until the result arrives, a producer holds the function of each participant, and the team goes on (R256,
R268). With no participant nothing else happens. The special values of the functions (Table 04.3, R78): a NaN gives the canonical NaN;
infinities, zeros and negative operands give the table's values. Every other result lies within the table's bound of the function's
value, computed in fixed point, unless that is beyond the finite numbers; which of the values there are within the bound it is stays
open (log 11). Readings and choices of the model that clauses rest on: log 11. -/
def Obligations.SpecialFunctions : Prop :=
  (∀ (c : Ctl) (d a : VReg), ∀ p ∈ [(Instr.sfuExp2 c d a, SfuFn.exp2), (.sfuLog2 c d a, .log2), (.sfuRcp c d a, .rcp),
      (.sfuRsq c d a, .rsq), (.sfuSqrt c d a, .sqrt), (.sfuSin c d a, .sin), (.sfuCos c d a, .cos), (.sfuTanh c d a, .tanh)],
    ∀ s x, Ready s p.1 x →
      (x.m = 0 → ∃ s' t', Becomes p.1 s x x.t s' t') ∧
      (x.m ≠ 0 → ∃ s' t', Becomes p.1 s x { x.t with
          emptyV := x.t.emptyV.set d.val (x.t.emptyV.getD d.val 0 ||| x.m), heldV := t'.heldV
          producers := x.t.producers ++ [{ insn := p.1, pc := x.e.pc, base := 0, lm := x.m, handler := x.t.handler, since := s.clock
                                           ops := x.ls.map fun l => (l, { a := (x.t.v a l).toNat })
                                           vals := x.ls.map fun l => (l, (Sfu.eval p.2 (x.t.v a l)).toNat) }] } s' t' ∧
        (∀ n, t'.heldV.getD n 0 = x.t.heldV.getD n 0 &&& ~~~(if n = d.val then x.m else 0)))) ∧
  ((∀ fn (w : Word), (FFmt.f32.val w.toNat).isNaN = true → Sfu.eval fn w = 0x7FC00000) ∧
  Sfu.eval .exp2 0x7F800000 = 0x7F800000 ∧ Sfu.eval .exp2 0xFF800000 = 0 ∧
  Sfu.eval .log2 0x7F800000 = 0x7F800000 ∧ Sfu.eval .log2 0 = 0xFF800000 ∧ Sfu.eval .log2 0x80000000 = 0xFF800000 ∧
  Sfu.eval .rcp 0x7F800000 = 0 ∧ Sfu.eval .rcp 0xFF800000 = 0x80000000 ∧ Sfu.eval .rcp 0 = 0x7F800000 ∧
  Sfu.eval .rcp 0x80000000 = 0xFF800000 ∧
  Sfu.eval .rsq 0x7F800000 = 0 ∧ Sfu.eval .rsq 0 = 0x7F800000 ∧ Sfu.eval .rsq 0x80000000 = 0xFF800000 ∧
  Sfu.eval .sqrt 0x7F800000 = 0x7F800000 ∧ Sfu.eval .sqrt 0 = 0 ∧ Sfu.eval .sqrt 0x80000000 = 0x80000000 ∧
  (∀ fn ∈ [SfuFn.sin, SfuFn.cos], Sfu.eval fn 0x7F800000 = 0x7FC00000 ∧ Sfu.eval fn 0xFF800000 = 0x7FC00000) ∧
  Sfu.eval .sin 0 = 0 ∧ Sfu.eval .sin 0x80000000 = 0x80000000 ∧
  Sfu.eval .tanh 0x7F800000 = 0x3F800000 ∧ Sfu.eval .tanh 0xFF800000 = 0xBF800000 ∧ Sfu.eval .tanh 0 = 0 ∧
  Sfu.eval .tanh 0x80000000 = 0x80000000 ∧
  (∀ fn ∈ [SfuFn.log2, SfuFn.rsq, SfuFn.sqrt], ∀ w : Word, (FFmt.f32.val w.toNat).lt (FFmt.f32.val 0) = true →
    Sfu.eval fn w = 0x7FC00000) ∧
  let near := fun fn (w : Word) x v => ∃ y, Sfu.ofF32 (Sfu.eval fn w) = some y ∧ (y - v).natAbs ≤ Sfu.bound fn x v
  let top : Int := Sfu.fixed (2 ^ 24 - 1) 104
  (∀ fn ∈ [SfuFn.exp2, SfuFn.cos], near fn 0 0 Sfu.one ∧ near fn 0x80000000 0 Sfu.one) ∧
  ∀ fn (w : Word) neg m e, FFmt.f32.val w.toNat = .fin neg m e → m ≠ 0 →
    (neg = true → fn ∉ [SfuFn.log2, SfuFn.rsq, SfuFn.sqrt]) →
    let v := Sfu.value fn neg m e
    if fn = .exp2 ∧ Sfu.fixed 150 0 < Sfu.fixed m e ∧ neg = true then Sfu.eval fn w = 0
    else if (fn = .exp2 ∧ Sfu.fixed 128 0 ≤ Sfu.fixed m e ∧ neg = false) ∨ top < v then Sfu.eval fn w = 0x7F800000
    else if v < -top then Sfu.eval fn w = 0xFF800000
    else near fn w (Sfu.fixed m e) v)

/-- SHFL: each participant receives A of the source lane in its band; it keeps its own where there is none, and takes 0, with the absent
predicate, from a member that takes no part (R258, R259). VOTE and BANDRED over the members of each band, in ascending lane order; an
absent member gives false or 0 (R258, R260, R261). Readings and choices of the model that clauses rest on: log 53. -/
def Obligations.ShufflesAndVotes : Prop :=
  (∀ (c : Ctl) (d a : VReg) (b : LB) (lx : LX),
    let amount := fun (y : Ctx) l => match b with
      | .reg r => (y.t.v r l).toNat % 32
      | .imm n => n.toNat
    let out := fun (from_ : Nat → Nat → Option Nat) (y : Ctx) (t' : Team) => ∀ l ∈ y.ls,
      match from_ (l % 32) (amount y l) with
      | some z => let z := 32 * (l / 32) + z
        if (bandOf y lx l).contains z then t'.v d l = gives y a z ∧
          (lx.absent.val ≠ 0 → (t'.p lx.absent.val).getLsbD l = !y.m.getLsbD z)
        else t'.v d l = y.t.v a l ∧ (lx.absent.val ≠ 0 → (t'.p lx.absent.val).getLsbD l = false)
      | none => t'.v d l = y.t.v a l ∧ (lx.absent.val ≠ 0 → (t'.p lx.absent.val).getLsbD l = false)
    ExchangeResult (.shflIdx c d a b lx) c.g lx [d.val] [] (out fun _ n => some n) ∧
    ExchangeResult (.shflUp c d a b lx) c.g lx [d.val] [] (out fun l n => if n ≤ l then some (l - n) else none) ∧
    ExchangeResult (.shflDown c d a b lx) c.g lx [d.val] [] (out fun l n => if l + n ≤ 31 then some (l + n) else none) ∧
    ExchangeResult (.shflXor c d a b lx) c.g lx [d.val] [] (out fun l n => some (l ^^^ n))) ∧
  (let aye := fun (y : Ctx) (a z : Nat) => y.m.getLsbD z && (y.t.p a).getLsbD z
  let fold := fun (f : Word → Word → Word) (y : Ctx) (a : Nat) (b : List Nat) =>
    (b.tail.map (gives y a)).foldl f (gives y a (b.headD 0))
  let quiet := fun (w : Word) => if (FFmt.f32.val w.toNat).isNaN then BitVec.ofNat 32 FFmt.f32.nan else w
  (∀ c d a lx, BandPred (.voteAny c d a lx) c.g lx d fun y b => b.any (aye y a)) ∧
  (∀ c d a lx, BandPred (.voteAll c d a lx) c.g lx d fun y b => b.all (aye y a)) ∧
  (∀ c (d : VReg) a lx, ExchangeResult (.voteBallot c d a lx) c.g lx [d.val] [] fun y t' => ∀ l ∈ y.ls,
    (∀ j, j < 32 → (t'.v d l).getLsbD j = ((bandOf y lx l).contains (32 * (l / 32) + j) && aye y a (32 * (l / 32) + j))) ∧
    Absent y t' lx l) ∧
  (∀ c d a lx, BandPred (.voteUni c d a lx) c.g lx d fun y b => b.all fun z => b.all fun w => gives y a z == gives y a w) ∧
  (∀ c d a lx, BandWord (.bandredIadd c d a lx) c.g lx d fun y b => (b.map (gives y a)).foldr (· + ·) 0) ∧
  (∀ c d a lx, BandWord (.bandredFadd c d a lx) c.g lx d fun y b =>
    quiet (fold (fun p q => BitVec.ofNat 32 (FFmt.f32.add .rne p.toNat q.toNat)) y a b)) ∧
  (∀ c d a lx, BandWord (.bandredMin c .i32 d a lx) c.g lx d fun y b =>
    fold (fun p q => BitVec.ofInt 32 (min p.toInt q.toInt)) y a b) ∧
  (∀ c d a lx, BandWord (.bandredMax c .i32 d a lx) c.g lx d fun y b =>
    fold (fun p q => BitVec.ofInt 32 (max p.toInt q.toInt)) y a b) ∧
  (∀ c d a lx, BandWord (.bandredMin c .n32 d a lx) c.g lx d fun y b =>
    fold (fun p q => BitVec.ofNat 32 (min p.toNat q.toNat)) y a b) ∧
  (∀ c d a lx, BandWord (.bandredMax c .n32 d a lx) c.g lx d fun y b =>
    fold (fun p q => BitVec.ofNat 32 (max p.toNat q.toNat)) y a b) ∧
  (∀ c d a lx, BandWord (.bandredMin c .f32 d a lx) c.g lx d fun y b =>
    quiet (fold (fun p q => BitVec.ofNat 32 (FFmt.f32.minmax false p.toNat q.toNat)) y a b)) ∧
  (∀ c d a lx, BandWord (.bandredMax c .f32 d a lx) c.g lx d fun y b =>
    quiet (fold (fun p q => BitVec.ofNat 32 (FFmt.f32.minmax true p.toNat q.toNat)) y a b)))

/-- SAMPLE: with the weights of the members, a NaN, a negative and a zero counting as 0, and their running sums in lane order, the result is
the first lane whose sum exceeds u times the total, the last lane with a weight where rounding leaves none, the first with an infinite
sum where the total is infinite, and 0xFFFFFFFF where the total is zero (R262). RNG: each participant takes word 0 of Philox-4x32-10 at
its counter and key, and counts one draw (R264). ZIP and UNZIP permute the words of the source registers of each band, all of them read
before any is written (R6, R263). -/
def Obligations.SamplingAndRandomNumbers : Prop :=
  (∀ c (d a : VReg) (u : SReg) lx, BandWord (.sample c d a u lx) c.g lx d fun y b =>
    let bad := fun n => (FFmt.f32.val n).isNaN || (FFmt.f32.val n).lt (FFmt.f32.val 0) || (FFmt.f32.val n).isZero
    let clean := fun n => if bad n then 0 else n
    let w := b.map fun z => clean (gives y a z).toNat
    let sum := fun k => (w.take (k + 1)).foldl (fun p q => FFmt.f32.add .rne p q) 0
    let total := w.foldl (fun p q => FFmt.f32.add .rne p q) 0
    let v := clean ((y.t.s u).toNat % 2 ^ 32)
    let v := if (FFmt.f32.val v).lt (FFmt.f32.val 0x3F800000) then v else 0x3F7FFFFF
    let lane := fun k => BitVec.ofNat 32 (b.getD k 0 % 32)
    let ks := List.range b.length
    if (FFmt.f32.val total).isZero then 0xFFFFFFFF
    else if total = FFmt.f32.inf then lane ((ks.find? fun k => sum k == FFmt.f32.inf).getD 0)
    else match ks.find? fun k => (FFmt.f32.val (FFmt.f32.mul .rne v total)).lt (FFmt.f32.val (sum k)) with
      | some k => lane k
      | none => lane ((ks.reverse.find? fun k => !(FFmt.f32.val (w.getD k 0)).isZero).getD 0)) ∧
  (∀ (c : Ctl) (d : VReg) s x,
    let drawn := fun l => (Philox.rounds 10
      ⟨x.t.draws.getD l 0, BitVec.ofNat 32 (l + 1024 * x.t.num), x.crew.launch.extractLsb' 32 32,
        match s.entryOf x.crew.part x.crew.seq with
        | some e => e.seed
        | none => 0⟩
      (x.crew.launch.extractLsb' 0 32) (BitVec.ofNat 32 x.crew.num)).c0
    let out := fun (i : Instr) (f : Word → Word) => Ready s i x → ∃ s' t',
      exec i s = .next s' ∧ OnlyTeam s s' x.tid ∧ SameBytes s s' ∧ s'.teams.get? x.tid = some t' ∧ GoesOn x t' ∧
      (∀ l ∈ x.ls, t'.v d l = f (drawn l) ∧ t'.draws.getD l 0 = x.t.draws.getD l 0 + 1) ∧
      (∀ l, l ∉ x.ls → t'.draws.getD l 0 = x.t.draws.getD l 0) ∧ SameRegs x t' [d.val] [] []
    out (.rngU32 c d) id ∧
    out (.rngUnif c d) fun y => BitVec.ofNat 32 (FFmt.f32.round .rne (.fin false (y.toNat / 256) (-24)))) ∧
  (∀ (c : Ctl) (d a : VReg),
    let done := fun (i : Instr) n (from_ : Nat → Nat → Nat × Nat) => ∀ s x, Ready s i x → ∃ s' t',
      Completes i s x ((List.range n).map (d.val + ·)) [] [] s' t' ∧ ∀ j, j < n → ∀ l ∈ x.ls,
        t'.v (d + j) l = x.t.v (a + (from_ j (l % 32)).1) (32 * (l / 32) + (from_ j (l % 32)).2)
    let zip := fun n j l => ((32 * j + l) % n, (32 * j + l) / n)
    let unzip := fun n j l => ((l * n + j) / 32, (l * n + j) % 32)
    done (.zipZip2 c d a) 2 (zip 2) ∧ done (.zipZip3 c d a) 3 (zip 3) ∧ done (.zipZip4 c d a) 4 (zip 4) ∧
    done (.zipUnzip2 c d a) 2 (unzip 2) ∧ done (.zipUnzip3 c d a) 3 (unzip 3) ∧ done (.zipUnzip4 c d a) 4 (unzip 4))

/-! ### Control flow -/

/-- Selection: the entry that runs is not held, and no entry that is not held and not put back by a YIELD has a lower PC, or the same PC and
an earlier insertion (R33, R35). Lanes that arrive at slot 0 of a block join an entry waiting there only if the block header has ENTRY
set, and never one of returned lanes; otherwise they form a new entry behind the others (R34). Readings and choices of the model that
clauses rest on: logs 13, 51, 62. -/
def Obligations.LanesRunFromTheLowestPC : Prop :=
  (∀ (t : Team) e, t.choose = some e →
    e ∈ t.entries ∧ e.hold = .none ∧
    (∀ y ∈ t.entries, y.hold = .none → (e.back = true → y.back = true) ∧
      (y.back = e.back → (e.pc.blk.toNat, e.pc.slot) = (y.pc.blk.toNat, y.pc.slot) ∧ e.ins ≤ y.ins ∨
        e.pc.blk.toNat < y.pc.blk.toNat ∨ e.pc.blk = y.pc.blk ∧ e.pc.slot < y.pc.slot))) ∧
  (∀ (t : Team) (flag : VAddr → Bool) pc m back,
    let w := t.entries.find? fun e => e.pc == pc && e.hold != .ret
    (pc.slot = 0 → flag pc.blk = true → ∀ e, w = some e →
      (t.arrive flag pc m back).entries =
        t.entries.map fun y => if y.ins = e.ins then { y with mask := y.mask ||| m, back := y.back || back } else y) ∧
    (pc.slot ≠ 0 ∨ flag pc.blk = false ∨ w = none →
      (t.arrive flag pc m back).entries = t.entries ++ [{ ins := t.nextIns, pc, mask := m, back }]))

/-- NOP, YIELD, BRA, BRX and CALL: the participants go to the target block, those of a false guard and of a form without a target go on;
YIELD puts the entry behind the others; CALL pushes the return PC and the calling mask (R208 to R210, R212, R35, R36). Where BRX and
CALL trap: a base pair with a nonzero bit above 79, or a sum beyond the space, is 0x0304; a target that is not block-aligned is 0x0103
with the address; of the participants of a BRX the lowest that fails is reported, and the callers of an indirect CALL, whose targets are
equal, by the lowest of them. A call with two targets is 0x0102, for which the lane field is 0 (log 25: the spec names no lane there).
With a full stack cache a call traps 0x0306 in a handler, and elsewhere for the fault held of the spill (R210, R212, R349, R38).
Readings and choices of the model that clauses rest on: logs 10, 24, 25, 51. -/
def Obligations.BranchesAndCalls : Prop :=
  ((∀ c s x, Ready s (.nop c) x → ∃ s' t', Becomes (.nop c) s x x.t s' t') ∧
  (∀ c s x, Ready s (.yield c) x → ∃ s' t', Becomes (.yield c) s x x.t s' t' ∧
    (x.m ≠ 0 → ∃ e ∈ t'.entries, e.pc = x.t.nextPC x.e.pc ∧ x.e.mask &&& ~~~e.mask = 0 ∧ e.back = true)) ∧
  (∀ c off s x, Ready s (.bra c off) x →
    ∃ s' t', Splits (.bra c off) s x x.t (x.e.mask &&& ~~~x.m)
      (x.ls.map fun l => (l, ⟨x.e.pc.blk + BitVec.ofInt 80 (64 * off.toInt), 0⟩)) s' t') ∧
  (∀ c (base : SReg) (off : VReg) s x b, Ready s (.brx c base off) x → x.t.pair? base.val = some b →
    (∀ l ∈ x.ls, b + (x.t.v off l).toNat < 2 ^ 80 ∧ (b + (x.t.v off l).toNat) % 64 = 0) →
    ∃ s' t', Splits (.brx c base off) s x x.t (x.e.mask &&& ~~~x.m)
      (x.ls.map fun l => (l, ⟨BitVec.ofNat 80 (b + (x.t.v off l).toNat), 0⟩)) s' t') ∧
  (∀ c off s x, Ready s (.callDirect c off) x → x.m ≠ 0 → x.t.stack.length < 32 →
    ∃ s' t', Splits (.callDirect c off) s x { x.t with stack := ⟨x.t.nextPC x.e.pc, x.m⟩ :: x.t.stack } (x.e.mask &&& ~~~x.m)
      (x.ls.map fun l => (l, ⟨x.e.pc.blk + BitVec.ofInt 80 (64 * off.toInt), 0⟩)) s' t') ∧
  (∀ c (base : SReg) (off : VReg) s x b w, Ready s (.callIndirect c base off) x → x.m ≠ 0 → x.t.stack.length < 32 →
    x.t.pair? base.val = some b → (∀ l ∈ x.ls, x.t.v off l = w) → x.ls ≠ [] → b + w.toNat < 2 ^ 80 → (b + w.toNat) % 64 = 0 →
    ∃ s' t', Splits (.callIndirect c base off) s x { x.t with stack := ⟨x.t.nextPC x.e.pc, x.m⟩ :: x.t.stack }
      (x.e.mask &&& ~~~x.m) (x.ls.map fun l => (l, ⟨BitVec.ofNat 80 (b + w.toNat), 0⟩)) s' t') ∧
  (∀ i s x, ((∃ c off, i = .callDirect c off) ∨ ∃ c base off, i = .callIndirect c base off) → Ready s i x → x.m = 0 →
    ∃ s' t', Becomes i s x x.t s' t')) ∧
  ((∀ c (base : SReg) (off : VReg) s x k l r, Ready s (.brx c base off) x → x.ls = k ++ l :: r →
    (∀ b, x.t.pair? base.val = some b → ∀ j ∈ k, b + (x.t.v off j).toNat < 2 ^ 80 ∧ (b + (x.t.v off j).toNat) % 64 = 0) →
    (x.t.pair? base.val = none → k = [] →
      exec (.brx c base off) s = .next (raise s x (.brx c base off) { code := 0x0304, lane := l })) ∧
    (∀ b, x.t.pair? base.val = some b → 2 ^ 80 ≤ b + (x.t.v off l).toNat →
      exec (.brx c base off) s =
        .next (raise s x (.brx c base off) { code := 0x0304, lane := l, addr := some ((b + (x.t.v off l).toNat) % 2 ^ 80) })) ∧
    (∀ b, x.t.pair? base.val = some b → b + (x.t.v off l).toNat < 2 ^ 80 → (b + (x.t.v off l).toNat) % 64 ≠ 0 →
      exec (.brx c base off) s =
        .next (raise s x (.brx c base off) { code := 0x0103, lane := l, addr := some (b + (x.t.v off l).toNat) }))) ∧
  (∀ c (base : SReg) (off : VReg) s x l r, Ready s (.callIndirect c base off) x → x.ls = l :: r → x.m ≠ 0 →
    let traps := fun (tr : Trap) => exec (.callIndirect c base off) s = .next (raise s x (.callIndirect c base off) tr)
    ((∃ k ∈ r, x.t.v off k ≠ x.t.v off l) → traps { code := 0x0102 }) ∧
    ((∀ k ∈ r, x.t.v off k = x.t.v off l) →
      (x.t.pair? base.val = none → traps { code := 0x0304, lane := l }) ∧
      ∀ b, x.t.pair? base.val = some b →
        let a := b + (x.t.v off l).toNat
        (2 ^ 80 ≤ a → traps { code := 0x0304, lane := l, addr := some (a % 2 ^ 80) }) ∧
        (a < 2 ^ 80 → a % 64 ≠ 0 → traps { code := 0x0103, lane := l, addr := some a }) ∧
        (a < 2 ^ 80 → a % 64 = 0 → 32 ≤ x.t.stack.length →
          (x.t.handler = true → traps { code := 0x0306 }) ∧
          ∀ h, x.t.handler = false → x.t.heldSpill = some h → traps (heldTrap h)))) ∧
  (∀ c off s x, Ready s (.callDirect c off) x → x.m ≠ 0 → 32 ≤ x.t.stack.length →
    (x.t.handler = true → exec (.callDirect c off) s = .next (raise s x (.callDirect c off) { code := 0x0306 })) ∧
    ∀ h, x.t.handler = false → x.t.heldSpill = some h →
      exec (.callDirect c off) s = .next (raise s x (.callDirect c off) (heldTrap h))))

/-- JSET, JARR and JWAIT, and the release of a JWAIT: JSET makes the participants the members, unless an entry waits on the mask; JARR marks
the members that have arrived; JWAIT holds the participants until every member has arrived or exited, waits there, or is in an entry of
a higher PC; the members passed over leave the mask and are counted in JPASS (R215 to R218). Readings and choices of the model that
clauses rest on: logs 61, 62. -/
def Obligations.JoinMasks : Prop :=
  (∀ c (j : JReg) s x, Ready s (.jset c j) x → (x.m = 0 ∨ ∀ e ∈ x.t.entries, e.hold ≠ .join j.val) →
    ∃ s' t', Becomes (.jset c j) s x { x.t with joins := x.t.joins.set j.val { members := x.m, arrived := 0 } } s' t') ∧
  (∀ c (j : JReg) s x, Ready s (.jset c j) x → x.m ≠ 0 → (∃ e ∈ x.t.entries, e.hold = .join j.val) →
    exec (.jset c j) s = .next (raise s x (.jset c j) { code := 0x0502 })) ∧
  (∀ c (j : JReg) s x, Ready s (.jarr c j) x →
    ∃ s' t', Becomes (.jarr c j) s x { x.t with
      joins := x.t.joins.set j.val { (x.t.join j) with arrived := (x.t.join j).arrived ||| (x.m &&& (x.t.join j).members) } } s' t') ∧
  (∀ c (j : JReg) s x, Ready s (.jwait c j) x →
    (x.m = 0 → ∃ s' t', Becomes (.jwait c j) s x x.t s' t') ∧
    (x.m ≠ 0 → ∃ s' t', Splits (.jwait c j) s x x.t (x.e.mask &&& ~~~x.m) [] s' t' ∧
      ∃ e ∈ t'.entries, e.pc = x.e.pc ∧ e.hold = .join j.val ∧ e.mask = x.m)) ∧
  ∀ tid pc (j : JReg) s t cr, s.teams.get? tid = some t → s.crews.get? t.cid = some cr →
    let held := unionOf (t.entries.filter fun e => e.pc == pc && e.hold == .join j.val)
    let later := unionOf (t.entries.filter fun e => pc.lt e.pc)
    let y := t.join j
    (t.run = none → t.halted = false → held ≠ 0 → y.members &&& ~~~(y.arrived ||| t.gone ||| held ||| later) = 0 →
      ∃ s' t', exec (.jwaitRelease tid pc j) s = .next s' ∧ s'.teams.get? tid = some t' ∧
        t' = { t with entries := t'.entries, nextIns := t'.nextIns, joins := t'.joins } ∧
        t'.join j = { members := y.members &&& ~~~(later &&& ~~~held) &&& ~~~t.gone, arrived := 0 } ∧
        (∃ e ∈ t'.entries, e.pc = s.nextPC cr.part t.core t pc ∧ held &&& ~~~e.mask = 0) ∧
        (∀ e ∈ t'.entries, ¬(e.pc = pc ∧ e.hold = .join j.val)) ∧
        (s'.part cr.part).jpass = (s.part cr.part).jpass + (if y.members &&& later &&& ~~~held = 0 then 0 else 1)) ∧
    (t.run ≠ none ∨ t.halted = true ∨ held = 0 ∨ y.members &&& ~~~(y.arrived ||| t.gone ||| held ||| later) ≠ 0 →
      exec (.jwaitRelease tid pc j) s = .next s)

/-- A lane exchange stops or waits: the lowest lane with a bad membership traps 0x0501; while a member is not counted the entry is held
there, and nothing else changes (R257, R258). The same check of the merged entry comes before its effect. The release of a lane
exchange: the entries held there become one selectable entry, which issues next, once every member of their masks is counted (R258).
Readings and choices of the model that clauses rest on: logs 13, 53, 131. -/
def Obligations.LaneExchange : Prop :=
  (∀ (i : Instr) (lx : LX) (g : BitVec 4) (fm : Form) s x, i.lx = some lx → i.form = some fm → fm.ctl.g = g → Ready s i x → x.m ≠ 0 →
    (∀ l, badMember x.t x.e.mask lx x.ls = some l → exec i s = .next (raise s x i { code := 0x0501, lane := l })) ∧
    (badMember x.t x.e.mask lx x.ls = none →
      x.t.exchangeReady lx g x.e.pc (x.t.heldWith lx g x.e) = true →
      ∀ l, badMember (joined x g lx).t (joined x g lx).e.mask lx (joined x g lx).ls = some l →
        exec i s = .next (raise s x i { code := 0x0501, lane := l })) ∧
    (badMember x.t x.e.mask lx x.ls = none →
      x.t.exchangeReady lx g x.e.pc (x.t.heldWith lx g x.e) = false →
      exec i s = .next (s.setTeam x.tid { x.t with
        run := none, sig := .idle
        entries := x.t.entries.map fun e => if e.ins = x.e.ins then { e with hold := .exchange } else e }))) ∧
  (∀ tid pc s t cr, s.teams.get? tid = some t → s.crews.get? t.cid = some cr →
    let held := t.entries.filter fun e => e.pc == pc && e.hold == .exchange
    (t.run = none → t.halted = false → held ≠ [] → exchangeFree s cr t pc held = true →
      ∃ t', exec (.laneExchangeRelease tid pc) s = .next (s.setTeam tid t') ∧ t' = { t with entries := t'.entries } ∧
        (∃ e ∈ t'.entries, e.pc = pc ∧ e.hold = .none ∧ e.mask = unionOf held) ∧
        ∀ e ∈ t.entries, e.ins ∉ held.map (·.ins) → e ∈ t'.entries) ∧
    (t.run ≠ none ∨ t.halted = true ∨ held = [] ∨ exchangeFree s cr t pc held = false → exec (.laneExchangeRelease tid pc) s = .next s))

/-! ### Traps -/

/-- Trap entry, and TRAP as its completion: the frame is stored at %tsave, and every live lane goes to slot 0 of the block at %tvec with an
empty stack cache, no producers and %tcause; the registers stay, and the frame's writes at ports are to be completed. A TRAP with a code
below 0xF000 traps 0x0102 (R220, R345, R346). BRK goes on as a NOP while debugging is off; otherwise the team halts after it, and the
debug registers take the code, the count and where it stands (R221, R222, Table 11.4). Readings and choices of the model that clauses
rest on: logs 48, 52, 78, 119. -/
def Obligations.TrapEntry : Prop :=
  ((∀ c code s x, Ready s (.trap c code) x → x.m = 0 → ∃ s' t', Becomes (.trap c code) s x x.t s' t') ∧
  ∀ c (code : BitVec 16) s x y, Ready s (.trap c code) x → x.m ≠ 0 → x.t.handler = false → x.t.producers = [] →
    let k := if code.toNat < 0xF000 then 0x0102 else code.toNat
    let order := sortEntries x.t.entries
    let pc := if k < 0xF000 then x.e.pc else x.t.nextPC x.e.pc
    let lc := roundLanes x.t.nlanes
    storeImage x.crew.part (x.t.quarter / 4) x.t.tsave.toNat (11776 + 530 * lc)
        (frameOf x.t { code := k } (encode (.trap c code)).toNat ((s.part x.crew.part).haltReq || x.crew.preempt)
          (order.map fun e => if e.ins = x.e.ins then { e with pc } else e)
          ((order.findIdx? fun e => e.ins == x.e.ins).getD 0) x.t.replay) { s } ((11776 + 530 * lc) / 32768 + 2) 0 = .ok y →
    ∃ t', exec (.trap c code) s = .next (y.s.setTeam x.tid t') ∧
      t' = { x.t.addWrites y.writes with
        undo := some ⟨s.clock, y.pages⟩
        stack := [], memFrames := 0, outerFrames := x.t.memFrames, heldSpill := none, heldRefill := none, replay := []
        portFail := none, hostAtomic := none, sig := .idle, once := none, tcause := BitVec.ofNat 16 k, handler := true
        tsaveIn := x.t.tsave, spillIn := false, heldV := (heldBy x.t.replay).1, heldS := (heldBy x.t.replay).2, run := none
        block := none, nextIns := x.t.nextIns + 1
        entries := [{ ins := x.t.nextIns, pc := ⟨x.t.tvec.setWidth 80, 0⟩, mask := x.t.live }] }) ∧
  (∀ c code s x, Ready s (.brk c code) x →
    (x.m = 0 ∨ (s.part x.crew.part).dbg.en = false → ∃ s' t', Becomes (.brk c code) s x x.t s' t') ∧
    (x.m ≠ 0 → (s.part x.crew.part).dbg.en = true → x.t.halted = false → ∃ s' t',
      exec (.brk c code) s = .next s' ∧ SameBytes s s' ∧ s'.teams.get? x.tid = some t' ∧ GoesOn x t' ∧
      t' = { x.t with halted := true, entries := t'.entries, nextIns := t'.nextIns, run := t'.run, sig := .idle, once := t'.once } ∧
      s' = { s with teams := s'.teams, parts := s'.parts } ∧
      (∀ n, n ≠ x.tid → s'.teams.get? n = s.teams.get? n) ∧ (∀ p, p ≠ x.crew.part → s'.part p = s.part p) ∧
      haltedTeams s' x.crew.part = haltedTeams s x.crew.part + 1 ∧
      let p := s.part x.crew.part
      s'.part x.crew.part = { p with
        msix := p.msix + 1
        dbg := { p.dbg with
          code, cause := false, team := BitVec.ofNat 4 x.t.num
          quarter := BitVec.ofNat 2 x.t.quarter, core := BitVec.ofNat 7 (x.t.quarter / 4), pc := t'.here
          crew := BitVec.ofNat 32 x.crew.num } }))

/-- The frame holds every scalar register, predicate and join mask where Table 21.1 puts them, its header says how many entries, replay
entries and frames follow, and each live lane's word of the lane map names its entry (R346, Tables 21.1 to 21.3). TRET after a trap
finds what the trap saved: restoring the frame of a team gives back its scalar registers, predicates, join masks, call stack and the
place and the lanes of every entry (R345, R346, R350). Readings and choices of the model that clauses rest on: logs 2, 52, 117, 118. -/
def Obligations.FrameLayout : Prop :=
  (∀ (t : Team) (tr : Trap) word slice es k rs, es.length ≤ roundLanes t.nlanes → rs.length ≤ 16 → t.stack.length ≤ 32 →
    t.nlanes ≤ 1024 → 1 ≤ t.nlanes → tr.code < 2 ^ 16 → tr.lane < 1024 → k < 2 ^ 64 → word < 2 ^ 96 →
    let f := frameOf t tr word slice es k rs
    (∀ n, n < 64 → f.read (0x40 + 8 * n) 8 = (t.s n).toNat) ∧
    (∀ n, n < 7 → f.read (0x240 + 128 * n) 128 = (t.p (n + 1)).toNat) ∧
    (∀ n, n < 8 → f.read (0x5C0 + 256 * n) 128 = (t.join n).members.toNat ∧ f.read (0x640 + 256 * n) 128 = (t.join n).arrived.toNat) ∧
    f.read 0 2 = tr.code ∧ f.read 0 8 / 2 ^ 16 % 1024 = tr.lane ∧ f.read 0 8 / 2 ^ 37 % 2048 = es.length ∧
    f.read 0 8 / 2 ^ 48 % 32 = rs.length ∧ f.read 0 8 / 2 ^ 53 = t.stack.length ∧ f.read 0x18 8 = k ∧ f.read 0x20 12 = word ∧
    (∀ a, tr.addr = some a → a < 2 ^ 80 → f.read 8 8 + 2 ^ 64 * f.read 0x10 8 = a) ∧
    (∀ n e, es[n]? = some e → e.pc.slot ≤ 4 → e.pc.blk.toNat % 64 = 0 →
      f.read (0x2200 + 16 * n) 8 + 2 ^ 64 * f.read (0x2208 + 16 * n) 2 = e.pc.blk.toNat + e.pc.slot) ∧
    (∀ l n e, l < roundLanes t.nlanes → es[n]? = some e → e.mask.getLsbD l = true →
      (∀ j y, j < n → es[j]? = some y → y.mask.getLsbD l = false) → f.read (0x2200 + 16 * roundLanes t.nlanes + 2 * l) 2 = n)) ∧
  (∀ (t u : Team) (tr : Trap) word slice es k,
    tr.code < 2 ^ 16 → tr.lane < 1024 → word < 2 ^ 96 → k < es.length → t.stack.length ≤ 32 → 1 ≤ t.nlanes → t.nlanes ≤ 1024 →
    u.nlanes = t.nlanes → es ≠ [] → es.length ≤ roundLanes t.nlanes →
    (∀ e ∈ es, e.pc.blk.toNat % 64 = 0 ∧ e.pc.slot ≤ 4 ∧ e.mask ≠ 0 ∧ (∀ j, e.hold = .join j → j < 8)) →
    (∀ f ∈ t.stack, f.ret.blk.toNat % 64 = 0 ∧ f.ret.slot ≤ 4) →
    (∀ l, u.live.getLsbD l = true → l < roundLanes t.nlanes ∧ ∃ e ∈ es, e.mask.getLsbD l = true) →
    (∀ e ∈ es, e.mask &&& ~~~u.live = 0) →
    (es.Pairwise fun a b => a.mask &&& b.mask = 0) →
    (∀ a, tr.addr = some a → a < 2 ^ 80) →
    ∃ r, restore u (frameOf t tr word slice es k []) = some r ∧
      (∀ n, n < 64 → r.s n = t.s n) ∧ (∀ n, n < 8 → r.p n = t.p n) ∧ (∀ n, n < 8 → r.join n = t.join n) ∧
      r.stack = t.stack ∧ r.memFrames = u.outerFrames ∧ r.handler = false ∧ r.replay = [] ∧
      r.entries.map (fun e => (e.pc, e.mask, e.hold)) = es.map fun e => (e.pc, e.mask, e.hold))

/-- TRET: in a handler the frame is read back from the area it was entered with and the state it holds is restored, with the pops of frames
that are then due; outside a handler, or with a guard, it traps 0x0102; a frame that cannot be read is a double fault with its code and
the address, and a malformed one a double fault 0x0102 (R223, R350, R353). A fault inside a handler, or one whose frame cannot be
stored, is a double fault: every live lane leaves, what was to come is discarded, and the LAUNCH faults with 0x0815 and, as its detail,
the first code or the code of the frame's byte, whose address it has (R353, R340, Table 23.1). Readings and choices of the model that
clauses rest on: logs 23, 58, 59, 60, 79. -/
def Obligations.TrapReturn : Prop :=
  (∀ c s x, Ready s (.tret c) x →
    (x.t.handler = true → c.g = 0 → let n := 11776 + 530 * roundLanes x.t.nlanes
      let frame := loadImage s x.crew.part (x.t.quarter / 4) x.t.tsaveIn.toNat n (n / 32768 + 2) 0
      (∀ s1 img, frame = .ok (s1, img) →
        (∀ r, restore x.t img = some r → exec (.tret c) s = .next ((s1.setTeam x.tid r).pop x.tid)) ∧
        (restore x.t img = none → exec (.tret c) s = .next ((doubleFault s1 x.tid 0x0102 none).pop x.tid))) ∧
      ∀ va f s1, frame = .error (va, f, s1) → exec (.tret c) s =
        .next ((doubleFault (xlRecord s1 x.crew.part (x.t.quarter / 4) (x.t.quarter % 4) va f) x.tid f.code (some va)).pop x.tid)) ∧
    (x.t.handler = false ∨ c.g ≠ 0 → exec (.tret c) s = .next (raise s x (.tret c) { code := 0x0102 }))) ∧
  (∀ s tid (e : Entry) pc word (tr : Trap) t cr w, s.teams.get? tid = some t → s.crews.get? t.cid = some cr →
    s.entryOf cr.part cr.seq = some w → w.status.isFaulted = false →
    let ends := fun (s' : State) code addr => ∃ t', s'.teams.get? tid = some t' ∧ t'.entries = [] ∧ t'.producers = [] ∧ t'.replay = [] ∧
      t'.exited = t.exited ||| t.live ∧ ∃ w', s'.entryOf cr.part cr.seq = some w' ∧
        w'.status = .faulted { code := 0x0815, engine := 1, core := t.quarter / 4, addr, detail := code, trap := some (tid, s.clock) }
    (t.handler = true → ends (takeTrap s tid e pc word tr) tr.code none) ∧
    (t.handler = false → t.producers = [] →
      let order := sortEntries t.entries
      let n := 11776 + 530 * roundLanes t.nlanes
      ∀ va f y, storeImage cr.part (t.quarter / 4) t.tsave.toNat n (frameOf t tr word ((s.part cr.part).haltReq || cr.preempt)
          (order.map fun z => if z.ins = e.ins then { z with pc } else z) ((order.findIdx? fun z => z.ins == e.ins).getD 0) t.replay)
          { s } (n / 32768 + 2) 0 = .error (va, f, y) →
        ends (takeTrap s tid e pc word tr) f.code (some va)))

/-- RET: the participants wait at the frame's return PC until every lane of its calling mask has returned or exited; then the frame is
popped and they stand there, selectable; outer frames whose lanes are all gone are popped too. A participant outside the calling mask is
0x0102, and so is a RET without a frame (R36, R213). EXIT: the participants leave for good, results bound for them are discarded, and
every other lane stays (R34, R214). The background spill stores the oldest of more than 28 cached frames at the next place of the stack
region, and its writes at ports are to be completed; the refill reads the frame back when fewer than 4 are cached. A place beyond
%stklim is held as 0x0306. A refill waits for the frame's own writes, and the first of them that failed is held as its fault. A halted
team keeps its stack cache (R37, R38, R138, R222). Readings and choices of the model that clauses rest on: logs 13, 25, 34, 63, 125. -/
def Obligations.ReturnsAndExits : Prop :=
  (∀ c s x, Ready s (.ret c) x →
    (x.m = 0 → ∃ s' t', Becomes (.ret c) s x x.t s' t') ∧
    (∀ f fs, x.m ≠ 0 → x.e.hold = .none → x.t.stack = f :: fs → x.m &&& ~~~f.mask = 0 →
      let back := x.m ||| unionOf (x.t.entries.filter fun e => e.ins != x.e.ins && waitsAt f e)
      (f.mask &&& ~~~(back ||| x.t.gone) ≠ 0 → ∃ s' t', Splits (.ret c) s x x.t (x.e.mask &&& ~~~x.m) [] s' t' ∧
        ∃ e ∈ t'.entries, e.pc = f.ret ∧ e.hold = .ret ∧ x.m &&& ~~~e.mask = 0) ∧
      (f.mask &&& ~~~(back ||| x.t.gone) = 0 → ∃ s' t', Turns (.ret c) s x s' t' ∧
        t' = { x.t with stack := t'.stack, entries := t'.entries, nextIns := t'.nextIns, run := none, sig := .idle, once := t'.once } ∧
        (∃ n, t'.stack = fs.drop n) ∧ (∀ l ∈ x.ls, ∃ e ∈ t'.entries, e.pc = f.ret ∧ e.hold ≠ .ret ∧ e.mask.getLsbD l = true) ∧
        (∀ g gs l, fs = g :: gs → g.mask.getLsbD l = true → x.t.gone.getLsbD l = false →
          (∀ e ∈ x.t.entries, e.hold = .ret → e.mask.getLsbD l = false) → t'.stack = fs))) ∧
    (∀ f fs l, x.m ≠ 0 → x.t.stack = f :: fs → x.ls.find? (fun k => !f.mask.getLsbD k) = some l →
      exec (.ret c) s = .next (raise s x (.ret c) { code := 0x0102, lane := l })) ∧
    (x.m ≠ 0 → x.t.stack = [] → x.t.heldRefill = none → exec (.ret c) s = .next (raise s x (.ret c) { code := 0x0102 }))) ∧
  (∀ c s x, Ready s (.exit c) x →
    (x.m = 0 → ∃ s' t', Becomes (.exit c) s x x.t s' t') ∧
    (x.m ≠ 0 → x.e.hold = .none → (x.t.live &&& ~~~x.m ≠ 0 ∨ x.t.writes.all (fun w => w.2.failed.isNone || w.2.spill) = true) →
      ∃ s' t', Turns (.exit c) s x s' t' ∧
        t'.exited = x.t.exited ||| x.m ∧ t'.vregs = x.t.vregs ∧ t'.sregs = x.t.sregs ∧ t'.preds = x.t.preds ∧ t'.joins = x.t.joins ∧
        (∃ n, t'.stack = x.t.stack.drop n) ∧
        (∀ r l, x.m.getLsbD l = true → (t'.emptyV.getD r 0).getLsbD l = false) ∧
        (∀ p ∈ t'.producers, (∀ a b d e f g h, p.insn ≠ .lds a b d e f g h) → p.lm &&& x.m = 0) ∧
        (∀ l, (x.e.mask &&& ~~~x.m).getLsbD l = true → ∃ e ∈ t'.entries, e.mask.getLsbD l = true) ∧
        ∀ l, x.m.getLsbD l = true → (∀ e ∈ x.t.entries, e.ins ≠ x.e.ins → e.mask.getLsbD l = false) →
          ∀ e ∈ t'.entries, e.mask.getLsbD l = false)) ∧
  (∀ s tid t cr, s.teams.get? tid = some t → s.crews.get? t.cid = some cr →
    let s0 := s.asking (t.stackSince.getD s.clock)
    (∀ fs f y, t.stack = fs ++ [f] → 28 ≤ fs.length → t.handler = false → t.halted = false → t.heldSpill = none →
      let a := (t.stkbase.toNat + 160 * t.memFrames) % 2 ^ 64
      (t.stkbase.toNat + 160 * (t.memFrames + 1) ≤ t.stklim.toNat →
        storeImage cr.part (t.quarter / 4) a 160 (frameImg f) { s := s0 } 3 0 = .ok y →
        exec (.stackSpill tid) s = .next (y.s.setTeam tid { t.addSpill y.writes with
          stack := fs, memFrames := t.memFrames + 1, stackSince := none })) ∧
      (t.stklim.toNat < t.stkbase.toNat + 160 * (t.memFrames + 1) →
        exec (.stackSpill tid) s = .next (s0.setTeam tid { t with heldSpill := some (a, { code := 0x0306 }) }))) ∧
    (∀ n, t.memFrames = n + 1 → t.stack.length < 4 → t.halted = false → t.heldRefill = none →
      let a := (t.stkbase.toNat + 160 * n) % 2 ^ 64
      let own := fun (e : Nat × OutWrite) => e.2.spill = true ∧ e.2.addr < a + 160 ∧ a < e.2.addr + max e.2.len 1
      (∀ s1 f m, (∀ e ∈ t.writes, ¬own e) → loadImage s0 cr.part (t.quarter / 4) a 160 3 0 = .ok (s1, m) →
        m = frameImg f → f.ret.blk.toNat % 64 = 0 → f.ret.slot ≤ 4 →
        exec (.stackRefill tid) s = .next ((s1.setTeam tid { t with stack := t.stack ++ [f], memFrames := n, stackSince := none }).pop tid)) ∧
      ((∃ e ∈ t.writes, own e ∧ e.2.failed = none) → exec (.stackRefill tid) s = .next s0) ∧
      ∀ k w ws us code, t.writes = us ++ (k, w) :: ws → own (k, w) → w.failed = some code → (∀ e ∈ us, ¬own e) →
        (∀ e ∈ ws, own e → e.2.failed ≠ none) →
        exec (.stackRefill tid) s =
          .next (s0.setTeam tid { t with heldRefill := some (w.addr, { code }), writes := t.writes.erase k })) ∧
    (t.stack.length ≤ 28 ∨ t.halted = true → exec (.stackSpill tid) s = .next s) ∧
    (4 ≤ t.stack.length ∨ t.memFrames = 0 ∨ t.halted = true → exec (.stackRefill tid) s = .next s))

/-! ### Memory -/

/-- The checks of a lane's access in the order of R96 and R266: alignment (0x0303), then the bounds of the crew window or of the core's
segment (0x0301); a lane that passes reaches the window's byte. Of several failing lanes the lowest is reported (R95, R96, R266). Where
a global access goes. The buffer window is mapped whatever XLROOT holds: buffer p of class c holds the first 32 KiB × 2^c bytes of its
slot, and nothing there is fetched (R104). Outside it, with EN 0, nothing is present. A walk that ends well ends in a valid leaf at
level 3, 4 or 5 that permits the access, lies in the range of its memory type and is aligned to its size (R97 to R99, R102). An access
leaves A set in its leaf, and a write D; where the leaf had them, no byte of memory changes (R100). A compare-and-swap that the host
refuses fails the access with the code of the refusal, and one whose port carries nothing of the partition with 0x0A02 (R366, R376,
R389; log 85). Readings and choices of the model that clauses rest on: logs 34, 46, 47, 85, 124. -/
def Obligations.AccessChecks : Prop :=
  (∀ (s : State) (x : Ctx) (b : Nat) (acc : Acc) (lane off : Nat), acc.bytes ≠ 0 →
    let chk := fun sp => spot s x sp (some b) acc (fun _ => none) lane off
    let va := (b + off) % 2 ^ 32
    (va % acc.bytes ≠ 0 → chk .w = .error { code := 0x0303, lane, addr := some va } ∧
      chk .l = .error { code := 0x0303, lane, addr := some va }) ∧
    (va % acc.bytes = 0 → x.crew.winBytes < va + acc.bytes → ∃ w, chk .w = .error { code := 0x0301, lane, addr := some va, walk := w }) ∧
    (va % acc.bytes = 0 → va + acc.bytes ≤ x.crew.winBytes → chk .w = .ok ⟨lane, va, { store := .window x.t.cid, addr := va }⟩) ∧
    (va % acc.bytes = 0 → (x.crew.seg x.t.core).2 < va + acc.bytes →
      ∃ w, chk .l = .error { code := 0x0301, lane, addr := some va, walk := w }) ∧
    (va % acc.bytes = 0 → va + acc.bytes ≤ (x.crew.seg x.t.core).2 →
      chk .l = .ok ⟨lane, va, { store := .window x.t.cid, addr := (x.crew.seg x.t.core).1 + va }⟩) ∧
    (∀ sp base extra (pre post : List (Nat × Nat)) l o e,
      (∀ y ∈ pre, ∃ z, spot s x sp base acc extra y.1 y.2 = .ok z) → spot s x sp base acc extra l o = .error e →
      spots s x sp base acc extra (pre ++ (l, o) :: post) = .error e ∧
      accesses s x sp base acc extra (pre ++ (l, o) :: post) = .error (e, s))) ∧
  ((∀ (s : State) p core va (acc : Acc), va / 2 ^ 56 = 0xFFFF00 →
    let off := va % 2 ^ 56
    (acc.fetch = true → ∃ f, resolve s p core va acc = .error f ∧ f.code = 0x0302) ∧
    (acc.fetch = false → (s.part p).bufBytes? (off / 2 ^ 26) = none → ∃ f, resolve s p core va acc = .error f ∧ f.code = 0x0301) ∧
    (∀ n, acc.fetch = false → (s.part p).bufBytes? (off / 2 ^ 26) = some n → n < off % 2 ^ 26 + acc.bytes →
      ∃ f, resolve s p core va acc = .error f ∧ f.code = 0x0301) ∧
    (∀ n, acc.fetch = false → (s.part p).bufBytes? (off / 2 ^ 26) = some n → off % 2 ^ 26 + acc.bytes ≤ n →
      resolve s p core va acc = .ok { store := .buf p, addr := off })) ∧
  (∀ (x : Part) b n, x.bufBytes? b = some n → ∃ c, c < 12 ∧ n = 32768 * 2 ^ c ∧ x.firstBuf c ≤ b ∧ b < x.firstBuf c + x.poolCount c) ∧
  (∀ (s : State) p core va acc, va / 2 ^ 56 ≠ 0xFFFF00 → (s.part p).rootInForce.en = false →
    ∃ f, resolve s p core va acc = .error f ∧ f.code = 0x0301) ∧
  ∀ (s : State) p core va (acc : Acc) o, va / 2 ^ 56 ≠ 0xFFFF00 → resolve s p core va acc = .ok o →
    ∃ l ∈ [3, 4, 5], ∃ lf, o.leaf = some lf ∧ lf.val % 2 = 1 ∧ lf.val / 2 % 2 = 1 ∧ lf.val / 2 ^ 10 % 32 = 0 ∧
      (acc.read = true → lf.val / 4 % 2 = 1) ∧ (acc.write = true → lf.val / 8 % 2 = 1) ∧ (acc.fetch = true → lf.val / 16 % 2 = 1) ∧
      o.mt = lf.val / 32 % 4 ∧ (o.mt = 3 → acc.plain = true ∧ (acc.bytes = 4 ∨ acc.bytes = 8) ∧
        4096 ≤ lf.val / 2 ^ 15 % 2 ^ 43 * 2 ^ 15 + va % 2 ^ levelShift l) ∧
      let pa := lf.val / 2 ^ 15 % 2 ^ 43 * 2 ^ 15
      pa % 2 ^ levelShift l = 0 ∧ ∃ base, physStore s p o.mt pa (2 ^ levelShift l) = some (o.store, base) ∧
        o.addr = base + va % 2 ^ levelShift l) ∧
  (∀ (s : State) p core va (acc : Acc) o lf, resolve s p core va acc = .ok o → o.leaf = some lf →
    let want := lf.val ||| (if acc.write then 0x300 else 0x200)
    (want = lf.val → ∃ s', touch s p core va acc = .ok (s', o) ∧ SameBytes s s') ∧
    (want ≠ lf.val → ∀ code, (stopped s p lf.store lf.addr = true ∧ code = 0x0A02 ∨
        stopped s p lf.store lf.addr = false ∧ lf.store = .host ∧ portAnswer s p (State.casKey lf.addr) = some code) →
      ∃ f s', touch s p core va acc = .error (f, s') ∧ f.code = code ∧ SameBytes s s') ∧
    (want ≠ lf.val → s.load lf.store lf.addr 8 = lf.val → (∀ l, lf.store ≠ .ethes l) → lf.val < 2 ^ 64 →
      stopped s p lf.store lf.addr = false → (lf.store = .host → portAnswer s p (State.casKey lf.addr) = none) →
      ∃ s', touch s p core va acc = .ok (s', o) ∧ (s'.memOf lf.store).read lf.addr 8 = want ∧
        ∀ st a, st ≠ lf.store ∨ a < lf.addr ∨ lf.addr + 8 ≤ a → (s'.memOf st).byte a = (s.memOf st).byte a))

/-- A write to a store and a read of it: the bytes written read back, every other byte of every store reads as before. What the lanes of a
load find: the core's copy of the line where it has one, else memory; no byte of memory changes, and a line that was not there enters
the read cache, which holds 2,048 lines (R11, R110, R269). With room for the lines of the load none leaves it; a line that must leave
makes room for one (log 84). What a peer answers is free (log 12). Readings and choices of the model that clauses rest on: logs 3, 9,
12, 84. -/
def Obligations.LoadsReadTheLine : Prop :=
  (∀ (s : State) st a n v, (∀ l, st ≠ .ethes l) → (∀ c, st = .window c → s.crews.has c = true) →
    (s.store st a n v).load st a n = v % 2 ^ (8 * n) ∧
    ∀ st' b, st' ≠ st ∨ b < a ∨ a + n ≤ b → ((s.store st a n v).memOf st').byte b = (s.memOf st').byte b) ∧
  (∀ (s : State) p core n (xs : List Spot), (xs.map Spot.lane).Nodup →
    (∀ x ∈ xs, ∀ y ∈ xs, State.lineKey core x.ok.store x.ok.addr = State.lineKey core y.ok.store y.ok.addr →
      x.ok.store = y.ok.store ∧ x.ok.addr / 128 = y.ok.addr / 128) →
    let mine := fun (s : State) => s.rcache.filter fun e => e.1 / 2 ^ 84 == core
    SameBytes s (sample s p core n xs).1 ∧
    ((mine s).length ≤ 2048 → (mine (sample s p core n xs).1).length ≤ 2048) ∧
    ((mine s).length + xs.length ≤ 2048 → ∀ x ∈ xs, (∀ l, x.ok.store ≠ .ethes l) → readFailure s p core x.ok.store x.ok.addr = none →
      (sample s p core n xs).2.1.get? x.lane = some (s.cload core x.ok.store x.ok.addr n) ∧
      (x.ok.store.cached = true → (sample s p core n xs).1.rcache.get? (State.lineKey core x.ok.store x.ok.addr) =
        some (s.lineOf core x.ok.store x.ok.addr))) ∧
    ((mine s).length + xs.length ≤ 2048 → ∀ x ∈ xs, ∀ code, readFailure s p core x.ok.store x.ok.addr = some code →
      (sample s p core n xs).2.1.get? x.lane = none ∧ (sample s p core n xs).2.2.get? x.lane = some (code, x.va)) ∧
    (∀ st a, st.cached = true → a % 128 + n ≤ 128 → s.rcache.get? (State.lineKey core st a) = none → (∀ l, st ≠ .ethes l) →
      s.cload core st a n = (s.memOf st).read a n))

/-- LD and LDS issue once every participant's access has passed: the destination registers are empty for the participants, a producer holds
what the lanes found, and an acquire marks the core's read cache stale (R110, R268, R269, R271). The team notes the clock of its last
read, by which a later release at system scope knows what it can have seen (R122, R138; log 9). The answer of a load, an atomic, a tag
query or a special function fills the lane's destinations, sign-extended where the width says so; the producer leaves when it owes no
lane (R268, R269, R271). Readings and choices of the model that clauses rest on: log 9. -/
def Obligations.Loads : Prop :=
  (let after := fun (s : State) (x : Ctx) (o : Order) sc => if o = .acq ∨ o = .ar then
    (if sc = .team ∨ sc = .core then s else { s with rcache := s.rcache.filter fun e => e.1 / 2 ^ 84 != x.t.core }) else s
  (∀ c w (d : VReg) (m : MemOp) s x, Ready s (.ld c w d m) x →
    (x.m = 0 → ∃ s' t', Becomes (.ld c w d m) s x x.t s' t') ∧
    (x.m ≠ 0 → ∀ b s1 xs, x.t.base? m.space m.base = some b →
      let ops := x.ls.map fun l => (l, ({ a := (x.t.v m.off l).toNat } : LaneOps))
      accesses s x m.space (some b) { read := true, plain := true, bytes := w.bytes } (fun _ => none) (ops.map fun e => (e.1, e.2.a)) =
        .ok (s1, xs) →
      let r := sample s1 x.crew.part x.t.core w.bytes xs
      ∃ s' t', Does (.ld c w d m) s x (after r.1 x m.order m.scope)
        { x.t with
          emptyV := t'.emptyV, heldV := t'.heldV, readAt := some s1.clock
          producers := x.t.producers ++ [{ insn := .ld c w d m, pc := x.e.pc, base := b, lm := x.m, ops, vals := r.2.1, bad := r.2.2
                                           handler := x.t.handler, since := s.clock, out := outLanes s1 x.t.core xs }] } s' t' ∧
        (∀ n, t'.emptyV.getD n 0 = x.t.emptyV.getD n 0 ||| (if d.val ≤ n ∧ n < d.val + w.nregs then x.m else 0)) ∧
        (∀ n, t'.heldV.getD n 0 = x.t.heldV.getD n 0 &&& ~~~(if d.val ≤ n ∧ n < d.val + w.nregs then x.m else 0)))) ∧
  (∀ c w (d : SReg) sp o sc (b : SReg) s x, Ready s (.lds c w d sp o sc b) x →
    (x.m = 0 → ∃ s' t', Becomes (.lds c w d sp o sc b) s x x.t s' t') ∧
    (x.m ≠ 0 → ∀ a s1 xs, x.t.base? sp b = some a →
      accesses s x sp (some a) { read := true, plain := true, bytes := w.bytes } (fun _ => none) [(0, 0)] = .ok (s1, xs) →
      let r := sample s1 x.crew.part x.t.core w.bytes xs
      ∃ s' t', Does (.lds c w d sp o sc b) s x (after r.1 x o sc)
        { x.t with
          emptyS := x.t.emptyS.set d.val true, heldS := x.t.heldS.erase d.val, readAt := some s1.clock
          producers := x.t.producers ++ [{ insn := .lds c w d sp o sc b, pc := x.e.pc, base := a, lm := x.m
                                           ops := x.ls.map fun l => (l, {}), vals := r.2.1, bad := r.2.2
                                           handler := x.t.handler, since := s.clock, out := outLanes s1 x.t.core xs }] } s' t'))) ∧
  (∀ (s : State) tid idx lane t cr (p : Producer) v, s.teams.get? tid = some t → s.crews.get? t.cid = some cr →
    t.producers[idx]? = some p → p.lm.getLsbD lane = true → lane < 1024 → (p.out = 0 ∨ ¬pastLimit s cr.part p.since) →
    (∀ d n, p.insn.dsts = (List.range n).map (fun j => Reg.v (d + j)) → p.bad.get? lane = none → p.vals.get? lane = some v →
      ∃ t', exec (.resultArrive tid idx lane) s = .next (s.setTeam tid t') ∧
        let x := match p.insn with
          | .ld _ .i8 _ _ => if v < 128 then v else v + 2 ^ 32 - 256
          | .ld _ .i16 _ _ => if v < 32768 then v else v + 2 ^ 32 - 65536
          | _ => v
        (∀ j, j < n → t'.v (d + j) lane = BitVec.ofNat 32 (x / 2 ^ (32 * j)) ∧ (t'.emptyV.getD (d + j) 0).getLsbD lane = false) ∧
        (∀ r l, l < 1024 → (r < d ∨ d + n ≤ r ∨ l ≠ lane) → t'.v r l = t.v r l) ∧
        t' = { t with vregs := t'.vregs, emptyV := t'.emptyV, heldV := t'.heldV, producers := t'.producers } ∧
        (p.lm &&& ~~~laneBit lane = 0 → t'.producers = t.producers.eraseIdx idx) ∧
        (p.lm &&& ~~~laneBit lane ≠ 0 → t'.producers = t.producers.set idx { p with lm := p.lm &&& ~~~laneBit lane })) ∧
    (∀ c w d sp o sc b, p.insn = .lds c w d sp o sc b → p.bad.get? 0 = none → p.vals.get? 0 = some v →
      ∃ t', exec (.resultArrive tid idx lane) s = .next (s.setTeam tid t') ∧
        t'.s d = BitVec.ofNat 64 (match w with
          | .i8 => if v < 128 then v else v + 2 ^ 64 - 256
          | .i16 => if v < 32768 then v else v + 2 ^ 64 - 65536
          | _ => v) ∧
        (∀ r, r ≠ d.val → t'.s r = t.s r) ∧ t'.emptyS.getD d false = false ∧ t'.producers = t.producers.eraseIdx idx))

/-- An access that fails its checks traps for the lowest failing participant before any effect; FADD in determinism mode is 0x0402 before
them; an atomic that reaches host memory is carried one participant after another (R125, R266, R272, R372). Readings and choices of the
model that clauses rest on: logs 24, 52. -/
def Obligations.MemoryTraps : Prop :=
  (∀ c w d (m : MemOp) s x, Ready s (.ld c w d m) x → x.m ≠ 0 →
    (x.t.base? m.space m.base = none →
      exec (.ld c w d m) s = .next (raise s x (.ld c w d m) { code := 0x0304, lane := x.ls.headD 0 })) ∧
    (∀ b tr s1, x.t.base? m.space m.base = some b →
      accesses s x m.space (some b) { read := true, plain := true, bytes := w.bytes } (fun _ => none)
        (x.ls.map fun l => (l, (x.t.v m.off l).toNat)) = .error (tr, s1) →
      exec (.ld c w d m) s = .next (raise s1 x (.ld c w d m) tr))) ∧
  (∀ c w d sp o sc b s x, Ready s (.lds c w d sp o sc b) x → x.m ≠ 0 →
    (x.t.base? sp b = none → exec (.lds c w d sp o sc b) s = .next (raise s x (.lds c w d sp o sc b) { code := 0x0304 })) ∧
    (∀ a tr s1, x.t.base? sp b = some a →
      accesses s x sp (some a) { read := true, plain := true, bytes := w.bytes } (fun _ => none) [(0, 0)] = .error (tr, s1) →
      exec (.lds c w d sp o sc b) s = .next (raise s1 x (.lds c w d sp o sc b) tr))) ∧
  (∀ c w d (m : MemOp) s x tr s1, Ready s (.st c w d m) x → x.m ≠ 0 →
    accesses s x m.space (x.t.base? m.space m.base) { write := true, plain := true, bytes := w.bytes } (fun _ => none)
      (x.ls.map fun l => (l, (x.t.v m.off l).toNat)) = .error (tr, s1) →
    exec (.st c w d m) s = .next (raise s1 x (.st c w d m) tr)) ∧
  (∀ i f s x, Instr.atomForm i = some f → Ready s i x → x.m ≠ 0 →
    (f.op = .red .fadd → determinism s x = true → exec i s = .next (raise s x i { code := 0x0402 })) ∧
    ((f.op = .red .fadd → determinism s x = false) → ∀ b, x.t.base? f.m.space f.m.base = some b →
      let r := accesses s x f.m.space (some b) { read := true, write := true, bytes := if f.wide then 8 else 4 } (hostCheck f)
        (x.ls.map fun l => (l, (x.t.v f.m.off l).toNat))
      (∀ tr s1, r = .error (tr, s1) → exec i s = .next (raise s1 x i tr)) ∧
      (∀ s1 xs, r = .ok (s1, xs) → (∃ z ∈ xs, z.ok.mt = 2 ∧ z.ok.store = .host) →
        (f.m.order.releases = true → x.t.writes.all (fun y => y.2.failed.isNone || y.2.spill) = true) →
        exec i s = .next (s1.setTeam x.tid { x.t with hostAtomic := some { insn := i, todo := x.m, since := s.clock } }))))

/-- ST writes the low bytes of its data for each participant, in ascending lane order, so that the highest one wins a byte; every other byte
stays as the A and D updates left it (R118, R270). ATOM and RED on one store: each participant in ascending lane order reads its
location and writes the new value; ATOM's producer holds the old values; RED marks nothing empty (R272, R273). A lane of an ATOM whose
read part is to fail beyond its port does nothing; which lane that is stays open (R369). Host memory, an Ethes window and a line that
fails at once are stated elsewhere. FENCE with an acquire at crew scope or wider marks the core's read cache stale; it changes no byte
and no register (R110, R123, R274). Readings and choices of the model that clauses rest on: logs 9, 57, 98. -/
def Obligations.StoresAndAtomics : Prop :=
  (∀ c w (d : VReg) (m : MemOp) s x, Ready s (.st c w d m) x →
    (x.m = 0 → ∃ s' t', Becomes (.st c w d m) s x x.t s' t') ∧
    (x.m ≠ 0 → ∀ s1 xs,
      accesses s x m.space (x.t.base? m.space m.base) { write := true, plain := true, bytes := w.bytes } (fun _ => none)
        (x.ls.map fun l => (l, (x.t.v m.off l).toNat)) = .ok (s1, xs) →
      (m.order = .rel ∨ m.order = .ar → x.t.writes.all (fun y => y.2.failed.isNone || y.2.spill) = true) →
      (∀ z ∈ xs, stopped s x.crew.part z.ok.store z.ok.addr = false) →
      ∃ s' t', exec (.st c w d m) s = .next s' ∧ s'.teams.get? x.tid = some t' ∧ GoesOn x t' ∧
        (∀ n, n ≠ x.tid → s'.teams.get? n = s.teams.get? n) ∧
        t' = { x.t with
          writes := t'.writes, nextWrite := t'.nextWrite, entries := t'.entries, nextIns := t'.nextIns, run := t'.run, sig := .idle
          once := t'.once } ∧
        ∀ st a, (∀ l, st ≠ .ethes l) → (∀ k, st = .window k → s.crews.has k = true) →
          let hit := xs.filter fun y => y.ok.store == st && y.ok.addr ≤ a && a < y.ok.addr + w.bytes
          match hit.getLast? with
          | some y => let j := a - y.ok.addr
            (s'.memOf st).byte a = BitVec.ofNat 8 ((x.t.v (d + j / 4) y.lane).toNat / 2 ^ (8 * (j % 4)))
          | none => (s'.memOf st).byte a = (s1.memOf st).byte a)) ∧
  (∀ (c : Ctl) (wide uns : Bool) (d : VReg) (m : MemOp) (y : VC),
    let bits := if wide then 64 else 32
    let lt := fun (a b : Nat) => if uns then decide (a < b) else decide ((BitVec.ofNat bits a).toInt < (BitVec.ofNat bits b).toInt)
    let add := fun (o a _ : Nat) => some ((o + a) % 2 ^ bits)
    let mn := fun (o a _ : Nat) => some (if lt a o then a else o)
    let mx := fun (o a _ : Nat) => some (if lt o a then a else o)
    let and := fun (o a _ : Nat) => some (o &&& a)
    let or := fun (o a _ : Nat) => some (o ||| a)
    let xor := fun (o a _ : Nat) => some (o ^^^ a)
    let swap := fun (_ a _ : Nat) => some a
    let cas := fun (o a n : Nat) => if o = a then some n else none
    let fadd := fun (o a _ : Nat) => some ((if wide then FFmt.f64 else FFmt.f32).add .rne o a)
    ∀ p ∈ [(Instr.atomAdd c wide uns d m y, add), (.atomMin c wide uns d m y, mn), (.atomMax c wide uns d m y, mx),
        (.atomAnd c wide uns d m y, and), (.atomOr c wide uns d m y, or), (.atomXor c wide uns d m y, xor),
        (.atomSwap c wide uns d m y, swap), (.atomCas c wide uns d m y, cas), (.atomFadd c wide d m y, fadd),
        (.red c .add wide uns m y, add), (.red c .min wide uns m y, mn), (.red c .max wide uns m y, mx), (.red c .and wide uns m y, and),
        (.red c .or wide uns m y, or), (.red c .xor wide uns m y, xor), (.red c .fadd wide uns m y, fadd)],
      ∀ f s x, p.1.atomForm = some f → Ready s p.1 x →
        (x.m = 0 → ∃ s' t', Becomes p.1 s x x.t s' t') ∧
        (x.m ≠ 0 → ∀ b s1 xs st, x.t.base? m.space m.base = some b →
          accesses s x m.space (some b) { read := true, write := true, bytes := bits / 8 } (hostCheck f)
            (x.ls.map fun l => (l, (x.t.v m.off l).toNat)) = .ok (s1, xs) →
          (f.op = .red .fadd → determinism s x = false) →
          (m.order = .rel ∨ m.order = .ar → x.t.writes.all (fun y => y.2.failed.isNone || y.2.spill) = true) →
          (∀ z ∈ xs, z.ok.store = st) → st ≠ .host → (∀ l, st ≠ .ethes l) → (∀ k, st = .window k → s.crews.has k = true) →
          (∀ a, dataFailure s1 x.crew.part st a = none) →
          let opnd := fun l k => match y with
            | .v r => if wide then (x.t.v64 (r.val + 2 * k) l).toNat else (x.t.v (r.val + k) l).toNat
            | .s r => (x.t.s (r.val + k)).toNat % 2 ^ bits
          let run := xs.foldl (fun (a : Memory × List (Nat × Nat)) z => if readFails f s1.fresh z then a else
            let old := a.1.read z.ok.addr (bits / 8)
            (match p.2 old (opnd z.lane 0) (opnd z.lane 1) with
              | some v => a.1.write z.ok.addr (bits / 8) v
              | none => a.1, a.2 ++ [(z.lane, old)])) (s1.memOf st, [])
          ∃ s' t', exec p.1 s = .next s' ∧ s'.teams.get? x.tid = some t' ∧ GoesOn x t' ∧ s'.memOf st = run.1 ∧
            (∀ st', st' ≠ st → s'.memOf st' = s1.memOf st') ∧
            (∀ r l, t'.v r l = x.t.v r l) ∧ (∀ r, t'.s r = x.t.s r) ∧ (∀ r, t'.p r = x.t.p r) ∧
            (f.ret = false → t'.producers = x.t.producers ∧ t'.emptyV = x.t.emptyV) ∧
            (f.ret = true → (∀ n, t'.emptyV.getD n 0 =
                x.t.emptyV.getD n 0 ||| (if d.val ≤ n ∧ n < d.val + bits / 32 then x.m else 0)) ∧
              ∃ q, t'.producers = x.t.producers ++ [q] ∧ q.insn = p.1 ∧ q.lm = x.m ∧ q.bad = [] ∧
                ∀ e ∈ run.2, q.vals.get? e.1 = some e.2))) ∧
  (∀ c mode sc s x, Ready s (.fence c mode sc) x → (mode ≠ .acq → x.t.writes.all (fun y => y.2.failed.isNone || y.2.spill) = true) →
    ∃ s' t', Does (.fence c mode sc) s x
      (if x.m ≠ 0 ∧ mode ≠ .rel ∧ sc ≠ .team ∧ sc ≠ .core then { s with rcache := s.rcache.filter fun e => e.1 / 2 ^ 84 != x.t.core } else s)
      x.t s' t')

/-- The tag table of the core: TAGQ answers the slot of the crew's entry or the miss code; TAGSET replaces the slot and answers the previous
one, else fills the lowest free way and answers the new one, else answers the miss code; TAGCLR removes the entry and answers its slot.
The participants act in ascending lane order, and every slot is checked first. Those of a mirrored team act on the table of its shadow's
core as well, and the leader's result is written (R106, R107, R275, R383; log 45). Readings and choices of the model that clauses rest
on: log 45. -/
def Obligations.TagTable : Prop :=
  let at_ := fun (s : State) core key w => s.tags.get? (4096 * core + 4 * (key / 512 % 1024) + w)
  let mine := fun (s : State) core cid key w => match at_ s core key w with
    | some g => g.tag == key / 512 && g.cid == cid
    | none => false
  let way := fun (s : State) core cid key => (List.range 4).find? (mine s core cid key)
  let slot := fun (s : State) core cid key => match way s core cid key with
    | some w => match at_ s core key w with
      | some g => g.slot
      | none => 0xFFFFFFFF
    | none => 0xFFFFFFFF
  let put := fun (s : State) core cid key slot w =>
    { s with tags := s.tags.set (4096 * core + 4 * (key / 512 % 1024) + w) { tag := key / 512, slot, cid } }
  (∀ c (d a : VReg) s x, Ready s (.tagTagq c d a) x →
    (x.m = 0 → ∃ s' t', Becomes (.tagTagq c d a) s x x.t s' t') ∧
    (x.m ≠ 0 → ∃ s' t', Becomes (.tagTagq c d a) s x { x.t with
        emptyV := x.t.emptyV.set d.val (x.t.emptyV.getD d.val 0 ||| x.m), heldV := t'.heldV
        producers := x.t.producers ++ [{ insn := .tagTagq c d a, pc := x.e.pc, base := 0, lm := x.m, handler := x.t.handler
                                         since := s.clock, ops := x.ls.map fun l => (l, { a := (x.t.v a l).toNat })
                                         vals := x.ls.map fun l => (l, slot s x.t.core x.t.cid (x.t.v a l).toNat) }] } s' t' ∧
      (∀ n, t'.heldV.getD n 0 = x.t.heldV.getD n 0 &&& ~~~(if n = d.val then x.m else 0)))) ∧
  let both := fun (x : Ctx) (act : Nat → State → Nat → State × Nat) (s : State) l =>
    (match x.crew.shadow[x.t.num]? with
      | some q => (act (q / 4) (act x.t.core s l).1 l).1
      | none => (act x.t.core s l).1, (act x.t.core s l).2)
  (∀ c (d a b : VReg) s x, Ready s (.tagTagset c d a b) x →
    let seg := x.crew.seg x.t.core
    let ok := fun l => decide ((x.t.v b l).toNat < x.crew.winBytes / 512 ∧ seg.1 ≤ 512 * (x.t.v b l).toNat ∧
      512 * (x.t.v b l).toNat + 512 ≤ seg.1 + seg.2)
    (∀ l, x.ls.find? (fun l => !ok l) = some l →
      exec (.tagTagset c d a b) s = .next (raise s x (.tagTagset c d a b) { code := 0x0302, lane := l })) ∧
    (x.ls.all ok = true →
      let act := both x fun core s l => let key := (x.t.v a l).toNat
        match way s core x.t.cid key with
        | some w => (put s core x.t.cid key (x.t.v b l).toNat w, slot s core x.t.cid key)
        | none => match (List.range 4).find? fun w => (at_ s core key w).isNone with
          | some w => (put s core x.t.cid key (x.t.v b l).toNat w, (x.t.v b l).toNat)
          | none => (s, 0xFFFFFFFF)
      let run := x.ls.foldl (fun (r : State × List (Nat × Nat)) l => ((act r.1 l).1, r.2 ++ [(l, (act r.1 l).2)])) (s, [])
      ∃ s' t', Does (.tagTagset c d a b) s x run.1 { x.t with vregs := t'.vregs, emptyV := t'.emptyV, heldV := t'.heldV } s' t' ∧
        (∀ e ∈ run.2, t'.v d e.1 = BitVec.ofNat 32 e.2) ∧ SameRegs x t' [d.val] [] [])) ∧
  (∀ c (d a : VReg) s x, Ready s (.tagTagclr c d a) x →
    let act := both x fun core s l => let key := (x.t.v a l).toNat
      match way s core x.t.cid key with
      | some w => ({ s with tags := s.tags.erase (4096 * core + 4 * (key / 512 % 1024) + w) }, slot s core x.t.cid key)
      | none => (s, 0xFFFFFFFF)
    let run := x.ls.foldl (fun (r : State × List (Nat × Nat)) l => ((act r.1 l).1, r.2 ++ [(l, (act r.1 l).2)])) (s, [])
    ∃ s' t', Does (.tagTagclr c d a) s x run.1 { x.t with vregs := t'.vregs, emptyV := t'.emptyV, heldV := t'.heldV } s' t' ∧
      (∀ e ∈ run.2, t'.v d e.1 = BitVec.ofNat 32 e.2) ∧ SameRegs x t' [d.val] [] [])

/-! ### The stream -/

/-- When the front stage reaches SJOIN, it handles nothing more until every older entry has retired. SJOIN then passes with no other effect
(R50). -/
def Obligations.SjoinWaitsForEveryOlderEntry : Prop :=
  ∀ s p, AtFront s .sjoin p →
    ((s.part p).window ≠ [] → exec .sjoin s = .next s) ∧ ((s.part p).window = [] → FrontGoesOn .sjoin s p (s.part p))

/-- What the front stage does at once: SNOP, SBR, SCALL, SRET, KALU, SMODE and AREA (R48, R49, R57, R237, R305, R306, R308, R310). BDECL,
BDROP and SHALT take a window entry. BDECL takes the head of its class's free list, waits for a buffer that an older entry will return,
and faults 0x0805 where none will; BDROP unmaps its buffer, and 0x0806 where none is mapped (R51, R52, R55, R66, R309). Readings and
choices of the model that clauses rest on: log 10. -/
def Obligations.FrontStage : Prop :=
  (∀ (s : State) (p : Nat),
    let x := s.part p
    let k := fun (r : KReg) => x.k.getD r.val 0
    let block := fun (off : BitVec 32) => x.pc.blk + BitVec.ofInt 80 (64 * off.toInt)
    let jumps := fun (i : Instr) (y : Part) (pc : PC) => exec i s = .next (s.setPart p { y with pc, fblock := none })
    (AtFront s .snop p → FrontGoesOn .snop s p x) ∧
    (∀ cc a b off, AtFront s (.sbr cc a b off) p →
      let holds := match cc with
        | .eq => k a = k b
        | .ne => k a ≠ k b
        | .lt => (k a).toInt < (k b).toInt
        | .le => (k a).toInt ≤ (k b).toInt
        | .gt => (k a).toInt > (k b).toInt
        | .ge => (k a).toInt ≥ (k b).toInt
        | .ltn => (k a).toNat < (k b).toNat
        | .len => (k a).toNat ≤ (k b).toNat
        | .gtn => (k a).toNat > (k b).toNat
        | .gen => (k a).toNat ≥ (k b).toNat
      (holds → jumps (.sbr cc a b off) x ⟨block off, 0⟩) ∧ (¬holds → FrontGoesOn (.sbr cc a b off) s p x)) ∧
    (∀ off, AtFront s (.scall off) p →
      (x.calls.length < 16 → jumps (.scall off) { x with calls := x.nextPC x.pc :: x.calls } ⟨block off, 0⟩) ∧
      (16 ≤ x.calls.length → exec (.scall off) s = .next (frontTrap s p x (.scall off) 0x0801))) ∧
    (AtFront s .sret p →
      (∀ c cs, x.calls = c :: cs → jumps .sret { x with calls := cs } c) ∧
      (x.calls = [] → exec .sret s = .next (frontTrap s p x .sret 0x0802))) ∧
    (∀ op d a b, AtFront s (.kalu op d a b) p →
      let v := match b with
        | .reg r => k r
        | .imm w => BitVec.ofInt 64 w.toInt
      FrontGoesOn (.kalu op d a b) s p { x with k := x.k.set d.val (match op with
        | .add => k a + v
        | .sub => k a - v
        | .mul => k a * v
        | .and => k a &&& v
        | .or => k a ||| v
        | .xor => k a ^^^ v
        | .shl => if 64 ≤ v.toNat then 0 else k a <<< v.toNat
        | .shr => if 64 ≤ v.toNat then 0 else k a >>> v.toNat
        | .sar => if 64 ≤ v.toNat then (if (k a).getLsbD 63 then BitVec.allOnes 64 else 0) else (k a).sshiftRight v.toNat
        | .min => BitVec.ofInt 64 (min (k a).toInt v.toInt)
        | .max => BitVec.ofInt 64 (max (k a).toInt v.toInt)) }) ∧
    (∀ b det, AtFront s (.smode b det) p → FrontGoesOn (.smode b det) s p { x with seed := (k b).extractLsb' 0 32, det }) ∧
    (∀ w a b i, i = (if w then Instr.areaWrite a b else .areaRead a b) → AtFront s i p →
      let hi := (x.k.getD (a.val + 1) 0).toNat
      let base := (k a).toNat + 2 ^ 64 * hi
      let len := (k b).toNat
      (len ≤ 2 ^ 40 → hi < 2 ^ 16 →
        (len = 0 ∨ base + len ≤ 0xFFFF00000000_00000000 ∨ 0xFFFF00000000_00000000 + 2 ^ 56 ≤ base) →
        FrontGoesOn i s p { x with areas := x.areas ++ [{ base, len, write := w }] }) ∧
      (2 ^ 40 < len → exec i s = .next (frontTrap s p x i 0x0811)) ∧
      (len ≤ 2 ^ 40 → 2 ^ 16 ≤ hi → exec i s = .next (frontTrap s p x i 0x0304)))) ∧
  (∀ (s : State) (p : Nat),
    let x := s.part p
    let enters := fun (i : Instr) (y : Part) (fresh arch prev : Option Nat) => ∃ e next,
      FrontGoesOn i s p { y with window := x.window ++ [e], nextSeq := x.nextSeq + 1 } ∧
      next = x.nextPC x.pc ∧ e.insn = i ∧ e.seq = x.nextSeq ∧ e.pc = x.pc ∧ e.next = next ∧ e.fresh = fresh ∧ e.arch = arch ∧
      e.prev = prev ∧ e.status = .waiting
    (∀ (d : BufNo) cls, AtFront s (.bdecl d cls) p →
      (256 ≤ x.window.length → exec (.bdecl d cls) s = .next s) ∧
      (x.window.length < 256 →
        (∀ b bs, x.freeOf cls.toNat = b :: bs →
          enters (.bdecl d cls) { x with free := x.free.set cls.toNat bs, rename := x.rename.set d.val b } (some b) (some d.val)
            (x.rename.get? d.val)) ∧
        (x.freeOf cls.toNat = [] →
          let back := ∃ e ∈ x.window, ∃ b, e.prev = some b ∧ x.classOf b = cls.toNat
          (back → exec (.bdecl d cls) s = .next s) ∧
          (¬back → exec (.bdecl d cls) s = .next (frontTrap s p x (.bdecl d cls) 0x0805))))) ∧
    (∀ d : BufNo, AtFront s (.bdrop d) p → x.window.length < 256 →
      (∀ b, x.rename.get? d.val = some b →
        enters (.bdrop d) { x with rename := x.rename.erase d.val } none (some d.val) (some b)) ∧
      (x.rename.get? d.val = none → exec (.bdrop d) s = .next (frontTrap s p x (.bdrop d) 0x0806))) ∧
    (AtFront s .shalt p → x.window.length < 256 → enters .shalt { x with shaltPassed := true } none none none))

/-- Every task passes the front stage when its buffers, its pairs and its descriptor meet their conditions (R307, R311 to R320, Tables 14.4
to 14.9). A LAUNCH takes the next launch id (R159, R312). -/
def Obligations.TasksPassTheFrontStage : Prop :=
  ∀ (s : State) (p : Nat) (cls : BitVec 2) (kd : KReg),
    let x := s.part p
    let f := fun r lo n => (x.k.getD (kd.val + r) 0).toNat / 2 ^ lo % 2 ^ n
    let pair := fun r => (x.k.getD r 0).toNat + 2 ^ 64 * ((x.k.getD (r + 1) 0).toNat % 2 ^ 16)
    let passes := fun (i : Instr) (q : Names) (own : List Area) => TaskReady s i p q → TaskPasses s i p q own
    let size := fun n => n ∈ [8, 16, 32, 64, 128, 256, 512, 1024]
    (∀ d (a : KReg) w, passes (.kread cls d a w) { pairs := [a.val] }
      [{ base := pair a.val, len := if w then 8 else 4, write := false }]) ∧
    (∀ d a b, kd.val % 2 = 0 → kd.val + 8 + f 3 29 4 ≤ 32 → f 0 0 6 = 0 → f 2 32 15 ≤ 16384 → f 2 47 17 = 0 → f 3 14 6 ≤ 47 →
      f 3 20 5 ≤ 16 → f 3 25 4 ≤ 8 → f 3 29 4 ≤ 8 → f 3 34 30 = 0 → f 5 0 32 % 32 = 0 → f 5 32 32 % 64 = 0 → f 6 0 6 = 0 → f 7 0 6 = 0 →
      shapeFits s x (launchShape x.k kd.val) = true → passes (.launch cls d a b kd) { d, a, b, pairs := [kd.val] } []) ∧
    (∀ acc masked d a b,
      let m := f 0 0 32
      let n := f 0 32 32
      let kk := f 1 0 32
      let g := (kk + 15) / 16
      let rb := (m + 15) / 16
      let mask := if masked then f 3 0 32 + 32 * (g * rb) else 0
      let scale := fun off n => if off = 0xFFFFFFFF then 0 else off + 4 * n
      kd.val + 4 ≤ 32 → 1 ≤ m → m ≤ 2 ^ 20 → 1 ≤ n → n ≤ 2 ^ 20 → 1 ≤ kk → kk ≤ 2 ^ 19 → f 1 35 3 ≤ 4 →
      1 ≤ f 1 38 4 → f 1 38 4 ≤ (aFmtOf (f 1 32 3)).planes → f 1 42 4 ≤ 13 → f 1 49 15 = 0 → f 3 32 32 = 0 →
      (acc = true → f 1 42 4 = (if intAcc (aFmtOf (f 1 32 3)) (bFmtOf (f 1 35 3)) then 2 else 10) ∧
        f 2 0 32 = 0xFFFFFFFF ∧ f 2 32 32 = 0xFFFFFFFF) →
      (masked = false → f 3 0 32 = 0) →
      passes (.mmt cls acc masked d a b kd)
        { d := some d, inPlace := acc, a := some a, b := some b
          needD := m * n * ((fmtOfCode (f 1 42 4)).width / 8)
          needA := max (rb * g * (aFmtOf (f 1 32 3)).record) (max (scale (f 2 0 32) m) mask)
          needB := max (kk * n * (bFmtOf (f 1 35 3)).bytes) (scale (f 2 32 32) n) } []) ∧
    (∀ acc masked d a b,
      let m := f 0 0 32
      let n := f 0 32 32
      let kk := f 1 0 32
      let mask := if masked then f 2 0 32 + 32 * ((kk + 15) / 16 * ((m + 15) / 16)) else 0
      kd.val + 3 ≤ 32 → 1 ≤ m → m ≤ 2 ^ 20 → 1 ≤ n → n ≤ 2 ^ 20 → 1 ≤ kk → kk ≤ 2 ^ 19 → 1 ≤ f 1 32 4 → f 1 32 4 ≤ 9 → f 1 36 28 = 0 →
      (masked = false → f 2 0 32 = 0) → f 2 32 32 = 0 →
      passes (.smmt cls acc masked d a b kd)
        { d := some d, inPlace := acc, a := some a, b := some b, needD := 8 * m * n, needA := max (8 * m * kk) mask
          needB := 8 * kk * n } []) ∧
    (∀ acc (d a : Option BufNo),
      let n := (x.k.getD (kd.val + 1) 0).toNat
      let src := pair (kd.val + 2)
      let dst := pair (kd.val + 4)
      let inside := fun (w : Bool) (base len : Nat) => ∃ r ∈ x.areas, r.write = w ∧ r.base ≤ base ∧ base + len ≤ r.base + r.len
      kd.val % 2 = 0 → kd.val + 6 ≤ 32 → f 0 0 32 = 0 → f 0 32 32 = 0 → 1 ≤ n → n ≤ 2 ^ 40 →
      (a.isSome = true → x.k.getD (kd.val + 3) 0 = 0) → (d.isSome = true → x.k.getD (kd.val + 5) 0 = 0) →
      (a = none → inside false src n) → (d = none → inside true dst n) →
      passes (.copyt cls acc d a kd)
        { d, inPlace := acc, a, needD := dst + n, needA := src + n
          pairs := (if a.isSome then [] else [kd.val + 2]) ++ (if d.isSome then [] else [kd.val + 4]) } []) ∧
    (∀ acc (d a : Option BufNo),
      let fmt := aFmtOf (f 0 2 3)
      let row := (f 1 0 32 * fmt.bits + 7) / 8
      let reads := (f 1 32 16 - 1) * f 0 32 32 + row
      let writes := (f 1 32 16 + 15) / 16 * ((f 1 0 32 + 15) / 16) * fmt.record
      let src := pair (kd.val + 2)
      let dst := pair (kd.val + 4)
      let inside := fun (w : Bool) (base len : Nat) => ∃ r ∈ x.areas, r.write = w ∧ r.base ≤ base ∧ base + len ≤ r.base + r.len
      kd.val % 2 = 0 → kd.val + 6 ≤ 32 → f 0 0 2 = 1 → f 0 5 27 = 0 → 1 ≤ f 0 32 32 → row ≤ f 0 32 32 → f 0 32 32 ≤ 262143 →
      1 ≤ f 1 0 32 → f 1 0 32 ≤ 2 ^ 19 → 1 ≤ f 1 32 16 → f 1 48 16 = 0 → f 4 0 5 = 0 →
      (a.isSome = true → x.k.getD (kd.val + 3) 0 = 0) → (d.isSome = true → x.k.getD (kd.val + 5) 0 = 0) →
      (a = none → inside false src reads) → (d = none → inside true dst writes) →
      passes (.copyt cls acc d a kd)
        { d, inPlace := acc, a, needD := dst + writes, needA := src + reads
          pairs := (if a.isSome then [] else [kd.val + 2]) ++ (if d.isSome then [] else [kd.val + 4]) } []) ∧
    (∀ (a : KReg) t, passes (.redt cls a t) { pairs := [a.val] } [{ base := pair a.val, len := 128, write := false }]) ∧
    (∀ d a, 1 ≤ f 0 0 9 → f 0 0 9 ≤ 256 → f 0 9 21 ≤ 2 ^ 20 → f 0 30 34 = 0 →
      passes (.maskgen cls d a kd)
        { d := some d, a := some a, needA := 4 * f 0 0 9
          needD := 32 * ((f 0 9 21 + f 0 0 9 + 15) / 16 * ((f 0 0 9 + 15) / 16)) } []) ∧
    (∀ d a b, 1 ≤ f 0 14 14 → f 0 14 14 ≤ 8192 → f 0 28 36 = 0 →
      passes (.kvcompact cls d a b kd) { d := some d, a := some a, b := some b } []) ∧
    (kd.val + 2 ≤ 32 → size (f 0 14 11) → f 0 30 2 = 0 → f 0 48 16 = 0 → f 1 56 8 = 0 → passes (.sopen cls kd) {} []) ∧
    (∀ img d a b, f 0 14 2 = 0 → f 0 48 11 ≤ 1024 → f 0 59 5 = 0 →
      passes (.srule cls img d a b kd) { d := some d, a := some a, b } []) ∧
    (∀ img d a b, 1 ≤ f 0 14 9 → f 0 14 9 ≤ 256 → f 0 23 41 = 0 →
      passes (.saccept cls img d a b kd) { d := some d, a := some a, b := some b } []) ∧
    (∀ a, kd.val + 3 ≤ 32 → 1 ≤ f 2 14 14 → f 2 14 14 ≤ 8192 → f 2 28 36 = 0 →
      passes (.skv cls a kd) { a := some a, pairs := [kd.val] } []) ∧
    (f 0 14 50 = 0 → passes (.spublish cls kd) {} [] ∧ passes (.sclose cls kd) {} [] ∧ ∀ d, passes (.scount cls d kd) {} []) ∧
    (∀ a off q, passes (.qsend cls a off q) { a := some a, needA := 64 * off.toNat + 64 } []) ∧
    (∀ d h q, passes (.qrecv cls d h q) { d := some d, needD := 64 } []) ∧
    (∀ (a : KReg) b w, passes (.ssignal cls a b w) { pairs := [a.val] }
      [{ base := pair a.val, len := if w then 8 else 4, write := true }]) ∧
    (∀ cmp w (a : KReg), kd.val + 3 ≤ 32 → passes (.swait cls cmp w a kd) { pairs := [a.val] }
      [{ base := pair a.val, len := if w then 8 else 4, write := false }])

/-- The order of the front stage's faults for a task that reads one buffer: an undeclared one is 0x0806, one too small 0x0807; a task that
writes a buffer whose class has none free waits while an older entry will return one and faults 0x0805 otherwise; an AREA before another
instruction than an AREA or a task is 0x0804, and a fifth one 0x0803. A front-stage fault halts the front stage with its code and
changes nothing else (R55, R57, R334, R363). The fetches: a core's block is the 64 bytes at the running entry's block address, and its
word k the 12 bytes at 4 + 12k; the front stage's likewise, at the stream PC. A block that breaks the header or the check is not
executed (R47, R188 to R190), and the word in the trap frame of such a fetch is then a free value (log 2). A halted team fetches
nothing, and an uncorrectable line of a block is reported by the line's address (R222, R380). Readings and choices of the model that
clauses rest on: logs 2, 14, 34, 67. -/
def Obligations.FrontStageFaultsAndFetches : Prop :=
  ((∀ s p x i code,
    let f : FrontFault := { code, pc := x.pc, op := (encode i).toNat % 256, cls := i.taskClass, addr := none, block := false }
    frontTrap s p x i code = s.setPart p { s.part p with ffault := some f }) ∧
  (∀ s p cls (a : BufNo) off q, AtFront s (.qsend cls a off q) p → let x := s.part p
    (x.rename.get? a.val = none → exec (.qsend cls a off q) s = .next (frontTrap s p x (.qsend cls a off q) 0x0806)) ∧
    (∀ b n, x.rename.get? a.val = some b → x.bufBytes? b = some n → n < 64 * off.toNat + 64 →
      exec (.qsend cls a off q) s = .next (frontTrap s p x (.qsend cls a off q) 0x0807))) ∧
  (∀ s p cls (d : BufNo) h q b n, AtFront s (.qrecv cls d h q) p → let x := s.part p
    x.rename.get? d.val = some b → x.bufBytes? b = some n → 64 ≤ n → x.freeOf (x.classOf b) = [] →
    let back := ∃ e ∈ x.window, ∃ y, e.prev = some y ∧ x.classOf y = x.classOf b
    (back → exec (.qrecv cls d h q) s = .next s) ∧
    (¬back → exec (.qrecv cls d h q) s = .next (frontTrap s p x (.qrecv cls d h q) 0x0805))) ∧
  (∀ s p, s.curPart = some p → (s.part p).frontHeld = false →
    ((s.part p).areas ≠ [] → ∀ i, i ∈ [Instr.snop, .shalt, .sret, .sjoin] ∨ (∃ cc a b off, i = .sbr cc a b off) ∨
        (∃ off, i = .scall off) ∨ (∃ op d a b, i = .kalu op d a b) ∨ (∃ b det, i = .smode b det) ∨ (∃ d cls, i = .bdecl d cls) ∨
        (∃ d, i = .bdrop d) →
      exec i s = .next (frontTrap s p (s.part p) i 0x0804)) ∧
    (4 ≤ (s.part p).areas.length → ∀ a b, exec (.areaRead a b) s = .next (frontTrap s p (s.part p) (.areaRead a b) 0x0803) ∧
      exec (.areaWrite a b) s = .next (frontTrap s p (s.part p) (.areaWrite a b) 0x0803)))) ∧
  ((∀ (b : Block) (m : Memory) a k, b.bits = m.read a 64 → k < 5 → b.word k = m.read (a + 4 + 12 * k) 12 ∧ b.count = m.read a 1 % 8) ∧
  (∀ s tid t cr e, s.teams.get? tid = some t → s.crews.get? t.cid = some cr → t.entry? = some e →
    (t.halted = true → exec (.coreFetch tid) s = .next s) ∧ ∀ s1 o, t.halted = false →
    touch (s.asking (t.wantSince.getD s.clock)) cr.part (t.quarter / 4) e.pc.blk.toNat { fetch := true, bytes := 64 } = .ok (s1, o) →
    (dataFailure s1 cr.part o.store o.addr = some 0x0902 → exec (.coreFetch tid) s =
      .next { lineLost s1 tid 1 (t.quarter / 4) (e.pc.blk.toNat / 128 * 128) with fresh := s1.fresh + 1 }) ∧
    (dataFailure s1 cr.part o.store o.addr = none →
    let b : Block := { addr := e.pc.blk, bits := s1.load o.store o.addr 64 }
    (b.coreFault = none → e.pc.slot < b.count → exec (.coreFetch tid) s = .next (s1.setTeam tid { t with block := some b })) ∧
    (∀ code, b.coreFault = some code → code ≠ 0x0902 → exec (.coreFetch tid) s =
      .next { takeTrap s1 tid e e.pc (freeNat s1 96) { code } with fresh := s1.fresh + 1 }))) ∧
  (∀ s p s1 o, (s.part p).frontHeld = false →
    touch (s.asking ((s.part p).fetchSince.getD s.clock)) p (128 + p) (s.part p).pc.blk.toNat { fetch := true, bytes := 64 } = .ok (s1, o) →
    dataFailure s1 p o.store o.addr = none →
    let b : Block := { addr := (s.part p).pc.blk, bits := s1.load o.store o.addr 64 }
    (b.streamFault = none → (s1.part p).pc.slot < b.count →
      exec (.streamFetch p) s = .next (s1.setPart p { s1.part p with fblock := some b, fetchSince := none })) ∧
    (∀ code, b.streamFault = some code → ∃ f, exec (.streamFetch p) s = .next (s1.setPart p { s1.part p with ffault := some f }) ∧
      f.code = code ∧ f.pc = (s.part p).pc ∧ f.addr = some (s.part p).pc.blk.toNat ∧ f.block = true)) ∧
  (∀ b : Block, (b.coreFault = none ↔ 1 ≤ b.count ∧ b.count ≤ 5 ∧ b.bits / 16 % 2 = 0 ∧ b.bits / 32 % 2048 = 0 ∧
      b.bits / 65536 % 65536 = crc16 b.body) ∧
    (b.streamFault = none ↔ 1 ≤ b.count ∧ b.count ≤ 5 ∧ b.bits / 16 % 2 = 1 ∧ b.bits / 32 % 2048 = 0 ∧
      b.bits / 65536 % 65536 = crc16 b.body ∧ ∀ k, k < b.count → b.word k = 0 ∨ b.word k / 64 % 4 = 3)))

/-! ### A step, reset and the memory invariant -/

/-- A step is exec of the instruction it selects. A pipe whose teams have nothing to do first selects the best ready team and issues the
decoded word of the running entry, which holds the pipe for its beats; the front stage issues its decoded word; an event of the agenda
happens as its own instruction. With an empty agenda the agent that acts is free (R28, R33, R46, R190, R217; the agenda is the model's,
log 1). Readings and choices of the model that clauses rest on: logs 1, 34. -/
def Obligations.StepRunsTheInstruction : Prop :=
  (∀ s c q p rest tid t e b i, s.agenda = .pipe c q p :: rest →
    let s0 := { s with agenda := rest }
    let n := 4 * c + q
    firstPrepared s0 (residents s0 n) = none → pipeFree s0 n p = true →
    bestTeam s0 p ((residents s0 n).filter fun y => readyOn s0 n p y.1 y.2) = some (tid, t) →
    t.entry? = some e → t.block = some b → coreDecode (BitVec.ofNat 96 (b.word e.pc.slot)) = .ok i →
    step s = exec i (State.setTeam { s0 with
        pipeBusy := s0.pipeBusy.set (pipeKey n p) (s.clock + clocksOf t i), cur := some tid, asker := t.issueSince s.clock } tid
      { t with lastIssue := t.lastIssue.set (pipeIndex p) (s.clock + 1) })) ∧
  (∀ s p rest b i, s.agenda = .front p :: rest → (s.part p).frontHeld = false → (s.part p).fblock = some b →
    b.addr = (s.part p).pc.blk → (s.part p).pc.slot < b.count → streamDecode (BitVec.ofNat 96 (b.word (s.part p).pc.slot)) = .ok i →
    step s = exec i { s with agenda := rest, curPart := some p }) ∧
  (∀ s i rest, s.agenda = .event i :: rest → i.form = none → i.isStream = false → step s = exec i { s with agenda := rest }) ∧
  (∀ s, s.agenda = [] → step s = step { s with agenda := [Config.freeAgent s.fresh], fresh := s.fresh + 1 })

/-- What the spec's reset column says of the state after reset, read as the host reads it (Tables 03.7, 05.4, 07.4, 08.3, 08.4, 11.4, 20.1,
23.3, 24.2): no partition is formed, no team runs, IOTMO is 0x4000, NREDLIM 0x100, every ring's sequence number 1; and memory lists
nothing (that it reads as zero is the model's choice, log 3). A fresh partition's page reads so too. The reset state keeps every byte
store in canonical form. Readings and choices of the model that clauses rest on: logs 3, 7. -/
def Obligations.ResetState : Prop :=
  (let s := State.reset
  s.teams = [] ∧ s.crews = [] ∧ s.copies = [] ∧ s.spin = [] ∧ s.clock = 0 ∧ s.parts = [] ∧ s.queues = [] ∧
  (∀ st a, (s.memOf st).byte a = 0) ∧
  (∀ p, (s.part p).state = .free ∧ (s.part p).twState = .idle ∧ (s.part p).iotmo = 0x4000 ∧ (s.part p).nredlim = 0x100 ∧
    (s.part p).dbg.en = false ∧ (s.part p).qconsent = 0 ∧ (s.part p).tslice = 0 ∧ (s.part p).jpass = 0) ∧
  (∀ p off, off < 0x1000 → pageRead s p off =
    if off = 0x130 then 0x4000 else if off = 0x138 then 0x100
    else if 0x200 ≤ off ∧ off < 0x400 ∧ off % 0x40 = 0x30 then 1 else 0) ∧
  (∀ p off, regRead s (p + 1) off = 2 ^ 64 - 1) ∧
  (∀ q, q < 16 → regRead s 0 (0x2000 + 8 * q) = 0) ∧ (∀ l, l < 8 → regRead s 0 (0x2100 + 8 * l) = 0) ∧
  regRead s 0 0x3008 = 0 ∧ regRead s 0 0x3010 = 0 ∧ regRead s 0 0x3800 = 0 ∧ regRead s 0 0x3808 = 0 ∧
  (∀ n, n < 21 → regRead s 0 (0x3500 + 8 * n) = 256)) ∧
  (MemWf State.reset)

/-- Every step keeps every byte store in canonical form: addresses strictly rising and no listed zero. So equal memories stay equal data,
whatever instruction, event, fetch, trap or host write the step was. Readings and choices of the model that clauses rest on: log 3. -/
def Obligations.StepKeepsMemory : Prop := ∀ s s', MemWf s → step s = .next s' → MemWf s'

/-! ### Tasks -/

/-- What a task does when it issues: LAUNCH, KREAD, MMT, SMMT, COPYT, QSEND, QRECV, SSIGNAL and SWAIT. MMT and SMMT take the largest m of
R62 that still gives every free core a tile (R61 to R64, R158, R307, R312 to R315, R319, R320); that one with ACC that still has tiles
issues with them unchanged is the model's reading (log 77). A request that fails by a time-out may have been outstanding since the entry
entered the window, which is the model's choice (log 34). Of the model are also the chunks that a COPYT counts as started, those of its
progress with the edges that log 90 gives them, and that the limit of an SWAIT counts from the clock of its issue (log 93). An SSIGNAL
notes the clock of its issue, up to which its release covers what the stream can have seen (R122, R138; log 9). A REDT that issues puts
its tree in force when its descriptor meets R316, and faults 0x0813 otherwise. That the routers of a new tree begin empty is the model's
reading, which R316 and R374 do not say (log 68). Readings and choices of the model that clauses rest on: logs 9, 12, 34, 68, 77, 90,
93. -/
def Obligations.TasksIssue : Prop :=
  (∀ s p seq e, s.entryOf p seq = some e → mayIssue s p e = true →
    let s0 := s.asking e.entered
    let issues := fun (i : Instr) (s1 : State) (f : WinEntry → WinEntry) => e.insn = i →
      exec (.taskIssue p seq) s = .next (s1.updEntry p e.seq fun y => f { y with status := .issued })
    let faults := fun (i : Instr) (f : TaskFault) => e.insn = i → exec (.taskIssue p seq) s = .next (taskFault s0 p e.seq f)
    (∀ c d a b k, issues (.launch c d a b k) s0 id) ∧
    (∀ c d (a : KReg) w, let va := kPair e.k a.val
      let n := if w then 8 else 4
      (va % n ≠ 0 → faults (.kread c d a w) { code := 0x0303, engine := 0, core := 127, addr := some va }) ∧
      (va % n = 0 → ∀ s1 o, touch s0 p (128 + p) va { read := true, plain := true, bytes := n } = .ok (s1, o) →
        rangeFailure s1 p o.store o.addr n = none → issues (.kread c d a w) s1 fun y => { y with result := s1.load o.store o.addr n })) ∧
    (∀ h masked acc, matTask e = some (h, masked, acc) →
      let cores := ((s.part p).cores.filter fun c => corePlaceable s c && spindleFree s c e.cls).length
      let sizes := if h.sliced then [8, 4, 2, 1] else [16, 8, 4, 2, 1]
      (acc = true → e.tiles ≠ [] → ∀ i, issues i s0 id) ∧
      (acc = false ∨ e.tiles = [] → ∃ m ∈ sizes, (m = 1 ∨ cores ≤ h.count m) ∧ (∀ n ∈ sizes, m < n → h.count n < cores) ∧
        ∀ i, issues i s0 fun y => { y with mblocks := m, tiles := [] })) ∧
    (∀ c acc (d a : Option BufNo) (kd : KReg), e.insn = .copyt c acc d a kd → ∃ x : Copy,
      exec (.taskIssue p seq) s = .next
        (let s1 := s0.updEntry p e.seq fun y => { y with status := .issued }
         { s1 with nextAge := s.nextAge + 1, copies := s.copies.set s.nextAge x }) ∧
      let h := copyShape e.k kd.val
      x.owner = .task p e.seq ∧ x.part = p ∧ x.core = none ∧ x.bar = none ∧ x.started = (e.progress + 3) / 4096 ∧ x.flight = [] ∧
      x.fault = none ∧ x.since = s.clock ∧ x.src = (if a.isSome then .buf p (e.a.getD 0) h.src else .g h.src) ∧
      x.dst = (if d.isSome then .buf p (e.d.getD 0) h.dst else .g h.dst) ∧
      x.kind = if h.plane then .plane h.fmt h.stride h.k h.m else .copy h.count) ∧
    (∀ c a o q, (queueHeld s p q.toNat true = true → issues (.qsend c a o q) s0 id) ∧
      (queueHeld s p q.toNat true = false → faults (.qsend c a o q) { code := 0x0830, engine := 5, core := 127, addr := none })) ∧
    (∀ c d h q, (queueHeld s p q.toNat false = true → issues (.qrecv c d h q) s0 id) ∧
      (queueHeld s p q.toNat false = false → faults (.qrecv c d h q) { code := 0x0830, engine := 5, core := 127, addr := none })) ∧
    (∀ c (a : KReg) b w, let va := kPair e.k a.val
      let n := if w then 8 else 4
      (va % n ≠ 0 → faults (.ssignal c a b w) { code := 0x0303, engine := 0, core := 127, addr := some va }) ∧
      (va % n = 0 → ∀ s1 o, touch s0 p (128 + p) va { write := true, plain := true, bytes := n } = .ok (s1, o) →
        issues (.ssignal c a b w) s1 fun y => { y with since := s.clock })) ∧
    (∀ c cmp w (a kd : KReg) s1 o, let va := kPair e.k a.val
      let n := if w then 8 else 4
      let begun := s0.updEntry p e.seq fun y => { y with status := .issued, since := s.clock, result := 0 }
      e.insn = .swait c cmp w a kd → va % n = 0 → touch begun p (128 + p) va { read := true, plain := true, bytes := n } = .ok (s1, o) →
      rangeFailure s1 p o.store o.addr n = none →
      exec (.taskIssue p seq) s = .next (s1.updEntry p e.seq fun y => { y with
        lastPoll := some s1.clock, result := if waitHolds cmp w e.k kd.val (s1.load o.store o.addr n) then 1 else 0 }))) ∧
  (∀ s p seq e c (a : KReg) (t : BitVec 4) s1 o, s.entryOf p seq = some e → mayIssue s p e = true → e.insn = .redt c a t →
    let va := kPair e.k a.val
    va % 128 = 0 → touch (s.asking e.entered) p (128 + p) va { read := true, bytes := 128 } = .ok (s1, o) → rangeFailure s1 p o.store o.addr 128 = none →
    let desc := (List.range 128).map fun j => BitVec.ofNat 8 (s1.load o.store o.addr 128 / 2 ^ (8 * j))
    let at_ := fun (n : Nat) => ((desc[n]?).map BitVec.toNat).getD 0
    let member := fun n => at_ n / 128 = 1
    let root := fun n => member n ∧ at_ n / 16 % 8 = 4
    let ports := [(0, fun n => n % 16 ≠ 0, fun n => n - 1, 2), (1, fun n => 16 ≤ n, fun n => n - 16, 3),
      (2, fun n => n % 16 ≠ 15, fun n => n + 1, 0), (3, fun n => n < 112, fun n => n + 16, 1)]
    let edge := fun n q => ∃ l c, (q = 0 ∧ n % 16 = 0 ∨ q = 2 ∧ n % 16 = 15) ∧ Config.edgeLink n = some l ∧
      s1.linkcfg.get? l = some c ∧ c.en = true ∧ c.part.toNat = p
    let good := (∃ n, n < 128 ∧ root n ∧ ∀ m, m < 128 → root m → m = n) ∧ ∀ n, n < 128 →
      (at_ n = 0 ∨ member n ∧ (s1.part p).hasCore n = true ∧
        (at_ n / 16 % 8 = 4 ∨ ∃ x ∈ ports, at_ n / 16 % 8 = x.1 ∧
          (x.2.1 n ∧ member (x.2.2.1 n) ∧ at_ (x.2.2.1 n) / 2 ^ x.2.2.2 % 2 = 1 ∨ ¬x.2.1 n ∧ edge n x.1)) ∧
        ∀ x ∈ ports, at_ n / 2 ^ x.1 % 2 = 1 →
          (x.2.1 n ∧ member (x.2.2.1 n) ∧ at_ (x.2.2.1 n) / 16 % 8 = x.2.2.2 ∨ ¬x.2.1 n ∧ edge n x.1))
    (good → exec (.taskIssue p seq) s = .next ((s1.updPart p fun x => { x with
        trees := x.trees.set t.toNat desc, routers := x.routers.filter fun r => r.1 / 128 != t.toNat }).updEntry p e.seq
      fun y => { y with status := .issued })) ∧
    (¬good → exec (.taskIssue p seq) s = .next (taskFault s1 p e.seq { code := 0x0813, engine := 0, core := 127, addr := none })))

/-- TILE_DISPATCH hands the lowest tile that is neither done nor handed out to the core that became free first while a tile waited, else to
the lowest free core that the task does not avoid, else to the lowest free core; the operation, its tiles and its queue are the core's
(R39, R62, R115, R329; log 74). A SWAIT reads its word again every 256 cycles, and faults 0x0809 when its limit has passed (R63). When
an issued task completes: KREAD, MASKGEN and the slot tasks at once, LAUNCH with its last crew, MMT and SMMT with their last tile, the
copies with their last chunk, SWAIT when it holds; QSEND appends its 64 bytes to a queue that has room, and QRECV takes the oldest
message or faults 0x0831 where its kind bit differs (R62, R63, R158, R312 to R319). Readings and choices of the model that clauses rest
on: logs 34, 74, 76, 93. -/
def Obligations.TilesAndCompletions : Prop :=
  ((∀ s p seq e h masked acc t core l, s.entryOf p seq = some e → matTask e = some (h, masked, acc) →
    (s.part p).twState = .running → (s.part p).haltReq = false → e.status = .issued → t < h.count e.mblocks →
    e.unhanded t = true → (∀ u, u < t → e.unhanded u = false) →
    let n := if h.sliced then 2 * e.mblocks else e.mblocks
    let can := fun c => (s.part p).hasCore c = true ∧ c < 128 ∧ corePlaceable s c = true ∧ ∀ x ∈ s.spin, x.2.onCore s c = true →
      x.2.live s = true → x.2.cls < e.cls
    can core → (e.firstFree = some core ∨ (∀ c, e.firstFree = some c → ¬can c) ∧
      (core ∉ e.avoid ∧ (∀ c, c < core → ¬can c ∨ c ∈ e.avoid) ∨ (∀ c, can c → c ∈ e.avoid) ∧ ∀ c, c < core → ¬can c)) → chooseTiles s core e.cls n h.sliced true = some l →
    (masked = true → (freeQueue s core).isSome = true) →
    ∃ s', exec (.tileDispatch p seq) s = .next s' ∧ s'.nextAge = s.nextAge + 1 ∧ SameBytes s s' ∧ s'.teams = s.teams ∧
      s'.spin = s.spin.set s.nextAge { core, cls := e.cls, tid := none, cid := none, kind := .tile p seq t
                                       cursor := ((e.tiles.get? t).map TileRun.cursor).getD 0 } ∧
      (∀ u ∈ l, s'.tileOwner.get? (tileKey core e.cls u) = some (2 * s.nextAge + 1)) ∧
      ∃ e' x, s'.entryOf p seq = some e' ∧ e'.tiles.get? t = some x ∧ x.core = core ∧ x.tiles = l ∧ (x.queue.isSome = masked) ∧
        ∀ q, x.queue = some q → s.mqOwner.get? (8 * core + q) = none ∧ s'.mqOwner.get? (8 * core + q) = some (2 * s.nextAge + 1)) ∧
  (∀ s p seq, (∀ e, s.entryOf p seq = some e → matTask e = none ∨ e.status ≠ .issued) → exec (.tileDispatch p seq) s = .next s) ∧
  (∀ s p seq e c cmp w (a kd : KReg), s.entryOf p seq = some e → e.insn = .swait c cmp w a kd → e.status = .issued → e.result = 0 →
    (s.part p).twState = .running → (s.part p).haltReq = false →
    let va := kPair e.k a.val
    let n := if w then 8 else 4
    (∀ last, e.lastPoll = some last → s.clock < last + 256 → exec (.swaitPoll p seq) s = .next s) ∧
    ((∀ last, e.lastPoll = some last → last + 256 ≤ s.clock) → va % n = 0 → ∀ s1 o,
      touch (s.asking (e.lastPoll.getD e.entered + 256)) p (128 + p) va { read := true, plain := true, bytes := n } = .ok (s1, o) →
      rangeFailure s1 p o.store o.addr n = none →
      let m := (e.k.getD kd.val 0).toNat % 2 ^ (8 * n)
      let ref := (e.k.getD (kd.val + 1) 0).toNat % 2 ^ (8 * n)
      let v := Nat.land (s1.load o.store o.addr n) m
      let holds := match cmp with
        | .eq => v = ref
        | .ne => v ≠ ref
        | .ge => ref ≤ v
        | .lt => v < ref
      ∃ r, exec (.swaitPoll p seq) s = .next (s1.updEntry p e.seq fun y => { y with lastPoll := some s1.clock, result := r }) ∧
        (holds → r = 1) ∧ (¬holds → r = 0)) ∧
    let lim := (e.k.getD (kd.val + 2) 0).toNat
    (lim ≠ 0 → e.since + lim ≤ s.clock → exec (.swaitLimitExpiry p seq) s =
      .next (taskFault s p seq { code := 0x0809, engine := 0, core := 127, addr := none })) ∧
    (lim = 0 ∨ s.clock < e.since + lim → exec (.swaitLimitExpiry p seq) s = .next s))) ∧
  (∀ s p seq e, s.entryOf p seq = some e → e.status = .issued → (s.part p).twState = .running →
    let ends := fun (s1 : State) => exec (.taskComplete p seq) s = .next (s1.updEntry p seq fun y => { y with status := .completed })
    let waits := exec (.taskComplete p seq) s = .next s
    let when_ := fun (c : Prop) => (c → ends s) ∧ (¬c → waits)
    ((∃ c d a w, e.insn = .kread c d a w) ∨ (∃ c d a k, e.insn = .maskgen c d a k) ∨ (∃ c k, e.insn = .sopen c k) ∨
      (∃ c g d a b k, e.insn = .srule c g d a b k) ∨ (∃ c g d a b k, e.insn = .saccept c g d a b k) ∨ (∃ c k, e.insn = .sclose c k) ∨
      (∃ c d k, e.insn = .scount c d k) ∨ (∃ c a t, e.insn = .redt c a t) ∨ (∃ c a b w, e.insn = .ssignal c a b w) → ends s) ∧
    (∀ c d a b (kd : KReg), e.insn = .launch c d a b kd → when_ (e.ended = (e.k.getD (kd.val + 2) 0).toNat % 2 ^ 32 + 1)) ∧
    (∀ h masked acc, matTask e = some (h, masked, acc) →
      when_ (∀ t, t < h.count e.mblocks → ∃ x, e.tiles.get? t = some x ∧ x.done = true)) ∧
    ((∃ c acc d a k, e.insn = .copyt c acc d a k) ∨ (∃ c a k, e.insn = .skv c a k) ∨ (∃ c d a b k, e.insn = .kvcompact c d a b k) →
      when_ (∀ y ∈ s.copies, y.2.owner ≠ .task p seq)) ∧
    (∀ c m w a k, e.insn = .swait c m w a k → when_ (e.result = 1)) ∧
    (∀ c a (off : BitVec 16) (q : BitVec 4), e.insn = .qsend c a off q → (s.part p).haltReq = false →
      queueHeld s p q.toNat true = true →
      let l := s.queues.getD q.toNat []
      let src := 2 ^ 26 * e.a.getD 0 + 64 * off.toNat
      (64 ≤ l.length → waits) ∧
      (l.length < 64 → rangeFailure s p (.buf p) src 64 = none → exec (.taskComplete p seq) s = .next
        (State.updEntry { s with queues := s.queues.set q.toNat (l ++ [(s.memOf (.buf p)).read src 64]) } p e.seq
          fun y => { y with status := .completed }))) ∧
    (∀ c d half (q : BitVec 4), e.insn = .qrecv c d half q → (s.part p).haltReq = false → queueHeld s p q.toNat false = true →
      s.queueLost.getD q.toNat 0 = 0 →
      (s.queues.getD q.toNat [] = [] → waits) ∧
      (∀ m l, s.queues.getD q.toNat [] = m :: l →
        (m % 2 = (if half then 1 else 0) → ∃ s', exec (.taskComplete p seq) s = .next s' ∧ s'.queues = s.queues.set q.toNat l ∧
          (∀ st a, (s'.memOf st).byte a = if st = .buf p ∧ 2 ^ 26 * e.d.getD 0 ≤ a ∧ a < 2 ^ 26 * e.d.getD 0 + 64 then
            BitVec.ofNat 8 (m / 2 ^ (8 * (a - 2 ^ 26 * e.d.getD 0))) else (s.memOf st).byte a) ∧
          ∃ e', s'.entryOf p e.seq = some e' ∧ e'.status = .completed) ∧
        (m % 2 ≠ (if half then 1 else 0) → exec (.taskComplete p seq) s =
          .next (taskFault s p e.seq { code := 0x0831, engine := 5, core := 127, addr := none })))))

/-- When a task may issue: no older entry holds it back under Table 03.2, R59, R63, R141 or R316; the stream runs, and no HALT is pending.
SOPEN, SRULE, SACCEPT, SCLOSE and SCOUNT are not outward, whatever areas they declare (R58 to R60, R67, R318). A TASK_ISSUE of any other
entry changes nothing. TASK_RETIRE removes the oldest entry once it has completed without fault, and none else. The buffer it replaced
goes to the tail of its class's list; KREAD and SCOUNT write their k register; SSIGNAL's value is written, once the writes of earlier
ones are complete, and every write of pooled memory or a peer that what precedes it can have seen; SHALT halts the stream behind it with
an MSI-X message (R46, R49, R51, R53, R60, R64, R66, R122, R138). That a Function Level Reset that waits goes on with its pre-emption
behind an SHALT, haltReq taken from flrReq and the acknowledgements kept, is the model's choice, which R163 does not say (log 123).
Readings and choices of the model that clauses rest on: logs 9, 73, 83, 123. -/
def Obligations.IssueAndRetirementOrder : Prop :=
  ((∀ (s : State) (p : Nat) (y : WinEntry),
    let reads := fun (e : WinEntry) (b : Nat) => e.a = some b ∨ e.b = some b ∨ (e.d = some b ∧ e.fresh = none) ∨
      (e.prev = some b ∧ ∃ c d a b' k, e.insn = .kvcompact c d a b' k)
    let shares := fun (f g : Area) => f.len ≠ 0 ∧ g.len ≠ 0 ∧ f.base / 512 * 512 < (g.base + g.len + 511) / 512 * 512 ∧
      g.base / 512 * 512 < (f.base + f.len + 511) / 512 * 512
    let inward := (∃ c k, y.insn = .sopen c k) ∨ (∃ c g d a b k, y.insn = .srule c g d a b k) ∨
      (∃ c g d a b k, y.insn = .saccept c g d a b k) ∨ (∃ c k, y.insn = .sclose c k) ∨ ∃ c d k, y.insn = .scount c d k
    let outward := ((∃ f ∈ y.areas, f.write = true ∧ f.len ≠ 0) ∧ ¬inward) ∨ (∃ c k, y.insn = .spublish c k) ∨
      (∃ c a b w, y.insn = .ssignal c a b w) ∨ (∃ c a k, y.insn = .skv c a k) ∨ (∃ c a o q, y.insn = .qsend c a o q) ∨
      (∃ c d h q, y.insn = .qrecv c d h q) ∨ ∃ c d a b k, y.insn = .kvcompact c d a b k
    mayIssue s p y = true ↔
      (s.part p).twState = .running ∧ (s.part p).haltReq = false ∧ y.status = .waiting ∧ y.insn.isTask = true ∧
      ∀ o ∈ (s.part p).window, o.seq < y.seq →
        let ok := o.status = .completed ∨ o.insn.isTask = false
        let finished := ok ∨ ∃ f, o.status = .faulted f
        (∀ b, o.d = some b → reads y b → ok) ∧
        (∀ b, y.d = some b → y.fresh = none → reads o b → ok) ∧
        (∀ f ∈ y.areas, ∀ g ∈ o.areas, shares f g → f.write = true ∨ g.write = true → ok) ∧
        (y.insn.usesSlots = true → o.insn.decidesSlots = true → finished) ∧
        ((∃ c k, y.insn = .spublish c k) → (∃ c k, o.insn = .spublish c k) → finished) ∧
        (outward → ok) ∧
        ((∃ c m w a k, o.insn = .swait c m w a k) → finished) ∧
        (∀ c d k, y.insn ≠ .scount c d k) ∧
        ((∃ c a t, y.insn = .redt c a t) → finished) ∧
        ((∃ c a t, o.insn = .redt c a t) → (∃ c a t, y.insn = .redt c a t) ∨ (∃ c d a b k, y.insn = .launch c d a b k) → finished)) ∧
  (∀ s p seq, (∀ e, s.entryOf p seq = some e → mayIssue s p e = false) → exec (.taskIssue p seq) s = .next s)) ∧
  ((∀ s p, (s.part p).window = [] ∨ (s.part p).twState ≠ .running ∨
      (∃ e es, (s.part p).window = e :: es ∧ (e.insn.isTask = true ∧ e.status ≠ .completed ∨
        (∃ c a b w, e.insn = .ssignal c a b w) ∧ ((s.part p).ssig ≠ [] ∨
          (∃ t ∈ s.teams, ∃ w ∈ t.2.writes, w.2.failed = none ∧ w.2.spill = false ∧ w.2.since ≤ e.since) ∨
          ∃ q ∈ s.parts, ∃ w ∈ q.2.ssig, w.failed = none ∧ w.spill = false ∧ w.since ≤ e.since))) → exec (.taskRetire p) s = .next s) ∧
  (∀ s p e es, (s.part p).window = e :: es → (s.part p).twState = .running → e.insn.isTask = false ∨ e.status = .completed →
    e.pend = none → e.kvSlots = [] →
    let x := { s.part p with window := es }
    let y := match e.prev with
      | some b => { x with free := x.free.set (x.classOf b) (x.freeOf (x.classOf b) ++ [b]) }
      | none => x
    let leaves := fun (z : Part) => exec (.taskRetire p) s = .next (s.setPart p z)
    ((∃ c d a w, e.insn = .kread c d a w) ∨ (∃ c d k, e.insn = .scount c d k) ∨ (∃ c a b w, e.insn = .ssignal c a b w) ∨
      e.insn = .shalt ∨ leaves y) ∧
    (∀ c d a w, e.insn = .kread c d a w → leaves { y with k := y.k.set d.val (BitVec.ofNat 64 e.result) }) ∧
    (∀ c d k, e.insn = .scount c d k → leaves { y with k := y.k.set d.val (BitVec.ofNat 64 e.result) }) ∧
    (e.insn = .shalt →
      let z : Part := { y with
        twState := .halted, pc := e.next, fblock := none, shaltPassed := false, msix := y.msix + 1
        preempted := y.preempted || y.haltReq, haltReq := y.flrReq, acks := if y.flrReq then y.acks else [] }
      leaves z) ∧
    (∀ c (a b : KReg) w s1 o, e.insn = .ssignal c a b w → let va := kPair e.k a.val
      let n := if w then 8 else 4
      x.ssig = [] → seenWrites s e.since = false → va % n = 0 → touch ((s.setPart p y).asking e.entered) p (128 + p) va { write := true, plain := true, bytes := n } = .ok (s1, o) → o.store = .host →
      stopped s1 p .host o.addr = false →
      ∃ s', exec (.taskRetire p) s = .next s' ∧ (s'.part p).window = es ∧
        ∀ st i, (s'.memOf st).byte i = if st = .host ∧ o.addr ≤ i ∧ i < o.addr + n then
          BitVec.ofNat 8 ((e.k.getD b.val 0).toNat / 2 ^ (8 * (i - o.addr))) else (s1.memOf st).byte i)) ∧
  (∀ s p e es, (s.part p).window = e :: es → (s.part p).twState = .running → e.insn.isTask = true → e.status = .completed →
    (∀ q, e.pend = some q → e.kvSlots = [] → (∃ c k, e.insn = .sopen c k) ∨ (∃ c k, e.insn = .sclose c k) ∨
        (∃ c g d a b k, e.insn = .srule c g d a b k) ∨ (∃ c g d a b k, e.insn = .saccept c g d a b k) →
      ∃ s', exec (.taskRetire p) s = .next s' ∧ (s'.part p).window = es ∧ (s'.part p).blocks.get? q.base = q.block ∧
        (∀ n, n ≠ q.base → (s'.part p).blocks.get? n = (s.part p).blocks.get? n) ∧
        (∀ n y, (n, y) ∈ q.slots → (∀ z ∈ q.slots, z.1 = n → z.2 = y) → (s'.part p).slots.get? n = some y) ∧
        ∀ n, (∀ y ∈ q.slots, y.1 ≠ n) → (s'.part p).slots.get? n = (s.part p).slots.get? n) ∧
    (e.pend = none → (∃ c a k, e.insn = .skv c a k) ∨ (∃ c d a b k, e.insn = .kvcompact c d a b k) →
      ∃ s', exec (.taskRetire p) s = .next s' ∧ (s'.part p).window = es ∧
        (∀ i ∈ e.kvSlots, (s'.part p).slots.getD (blockOf e + i) {} = { (s.part p).slots.getD (blockOf e + i) {} with kv := true }) ∧
        ∀ n, (∀ i ∈ e.kvSlots, n ≠ blockOf e + i) → (s'.part p).slots.get? n = (s.part p).slots.get? n)))

/-! ### The Slot Unit -/

/-- The confidence rule: Table 07.2's outcome of a slot, and what the budget and the progress rule make of the outcomes. With a budget the F
outcomes that remain are the first ones in rank order, and no more than it allows; every other slot keeps its outcome. When no slot has
outcome F, the first in rank order gets it, with its candidate; otherwise nothing changes (R144, R145). -/
def Obligations.ConfidenceRule : Prop :=
  let ge := fun (q th : Nat) => reaches q th = true
  (∀ thF thT c q d, let o := ruleOutcome thF thT none c q d
    (d = some c ∨ ge q thF → o = .f) ∧ (d ≠ some c → ¬ge q thF → ge q thT → o = .t) ∧
    (d ≠ some c → ¬ge q thF → ¬ge q thT → o = .m)) ∧
  (∀ thF thT t c q d, let o := ruleOutcome thF thT (some t) c q d
    (c = t → d = some c ∨ ge q thF → o = .f) ∧ (c = t → d ≠ some c → ¬ge q thF → ge q thT → o = .t) ∧
    (c = t → d ≠ some c → ¬ge q thF → ¬ge q thT → o = .m) ∧ (c ≠ t → o = .m)) ∧
  (∀ fmax thT (l : List Cand), l.Pairwise (fun a b => a.i < b.i) → (∀ x ∈ l, (FFmt.f16.val x.q).isNaN = false) →
    let isF := fun (x : Cand) => x.out == .f
    let r := budget fmax thT l
    r.map Cand.i = l.map Cand.i ∧ (fmax = 0 ∨ (l.filter isF).length ≤ fmax → r = l) ∧
    (fmax ≠ 0 → (r.filter isF).length = min fmax (l.filter isF).length) ∧
    (∀ x ∈ l, ∀ y ∈ r, x.i = y.i → (x.out ≠ .f → y = x) ∧
      (x.out = .f → y.out = .f → ∀ z ∈ l, z.out = .f → z.ranks x = true → ∃ w ∈ r, w.i = z.i ∧ w.out = .f) ∧
      (x.out = .f → y.out ≠ .f → (y.out = .t ↔ ge x.q thT ∧ (x.held = none ∨ x.held = some x.c))))) ∧
  (∀ l : List Cand, l.Pairwise (fun a b => a.i < b.i) → (∀ x ∈ l, (FFmt.f16.val x.q).isNaN = false) →
    ((∃ x ∈ l, x.out = .f) → progress l = l) ∧
    (l ≠ [] → (∀ x ∈ l, x.out ≠ .f) → ∃ x ∈ l, (∀ y ∈ l, y.i ≠ x.i → x.ranks y = true) ∧
      progress l = l.map fun y => if y.i = x.i then { y with out := .f, tok := y.c } else y))

/-- What a slot task does when it issues. It reads the table as of its place in the stream; its block must be open (0x0822), and in the mode
the task needs (0x0823). SOPEN masks its slots and SCLOSE frees them at retirement; SCOUNT counts; SPUBLISH faults 0x0827 on a disabled
ring; SKV copies the rows of the slots that the last pass made final; MASKGEN writes its buffer. KVCOMPACT copies the rows of the slots
whose KV is set from the buffer that its destination had before, then the root's row, when the root is a slot of the block (the model's
reading of when that is), then the rows of the accepted nodes, of which it takes 1,024 at most (the model's choice, log 126), and its
retirement will set KV on their slots, but on none beyond the end of an ENDED block (R60, R140, R141, R146, R147, R149, R151, R156,
R157, R318). Readings and choices of the model that clauses rest on: logs 34, 75, 92, 126. -/
def Obligations.SlotTasksIssue : Prop :=
  ∀ s p seq e, s.entryOf p seq = some e → mayIssue s p e = true →
    let v := slotView s p e.seq
    let base := blockOf e
    let s0 := s.asking e.entered
    let runs := fun (s' : State) => exec (.taskIssue p seq) s = .next s'
    let ent := fun (f : WinEntry → WinEntry) => s0.updEntry p e.seq fun y => f { y with status := .issued }
    let faults := fun (code : Nat) => runs (taskFault s0 p e.seq { code, engine := 4, core := 127, addr := none })
    let field := fun (kd : KReg) r lo n => (e.k.getD (kd.val + r) 0).toNat / 2 ^ lo % 2 ^ n
    let any := (∃ c g d a b k, e.insn = .srule c g d a b k) ∨ ∃ c a k, e.insn = .skv c a k
    let ordered := (∃ c g d a b k, e.insn = .saccept c g d a b k) ∨ ∃ c d a b k, e.insn = .kvcompact c d a b k
    let other := (∃ c k, e.insn = .spublish c k) ∨ (∃ c k, e.insn = .sclose c k) ∨ ∃ c d k, e.insn = .scount c d k
    (any ∨ ordered ∨ other → v.blocks.get? base = none → faults 0x0822) ∧
    (∀ b, v.blocks.get? base = some b → (any ∧ b.ordered = true) ∨ (ordered ∧ b.ordered = false) → faults 0x0823) ∧
    (∀ c (kd : KReg), e.insn = .sopen c kd →
      let first := field kd 0 0 14
      let n := field kd 0 14 11
      let taken := ∃ x ∈ v.blocks, x.1 < first + n ∧ first < x.1 + x.2.size
      (first % n ≠ 0 ∨ 16384 < first + n → faults 0x0820) ∧
      (first % n = 0 → first + n ≤ 16384 → taken → faults 0x0821) ∧
      (first % n = 0 → first + n ≤ 16384 → ¬taken → ∃ b : SlotBlock, ∃ slots,
        runs (ent fun y => { y with pend := some { base := first, block := some b, slots } }) ∧
        b.size = n ∧ (b.ordered = true ↔ field kd 0 25 1 = 1) ∧ (b.positional = true ↔ field kd 0 26 1 = 1) ∧ b.ring = field kd 0 27 3 ∧
        b.reqid.toNat = field kd 0 32 16 ∧ b.pos0.toNat = field kd 1 0 32 ∧ b.endTok.toNat = field kd 1 32 24 ∧ b.passCtr = 0 ∧
        b.published = 0 ∧ b.ended = false ∧ b.endSent = false ∧ slots.map Prod.fst = (List.range n).map (first + ·) ∧
        ∀ x ∈ slots, x.2.state = .masked ∧ x.2.token = 0xFFFFFF ∧ x.2.conf = 0 ∧ x.2.pass = 0 ∧ x.2.kv = false ∧ x.2.pub = false ∧
          x.2.draft = 0xFFFFFF)) ∧
    (∀ b, v.blocks.get? base = some b →
      let count := fun (f : Nat → Bool) => (List.range b.size).countP f
      (∀ c k, e.insn = .sclose c k → runs (ent fun y => { y with pend := some { base, block := none, slots := [] } })) ∧
      (∀ c d k, e.insn = .scount c d k →
        let word := count (fun i => (v.slot (base + i)).state == .masked) + 2 ^ 11 * count (fun i => (v.slot (base + i)).state == .tentative) +
          2 ^ 22 * count (v.isFinal base b) + 2 ^ 33 * b.published + 2 ^ 44 * count (fun i => (v.slot (base + i)).kv) +
          if b.ended then 2 ^ 55 else 0
        runs (ent fun y => { y with result := word })) ∧
      (∀ c k, e.insn = .spublish c k →
        let r := (s.part p).rings.getD b.ring {}
        let off := r.en = false ∨ r.log2n.toNat = 0 ∨ 16 < r.log2n.toNat
        (¬off → runs (ent fun y => { y with since := s.clock, progress := b.published })) ∧
        (off → runs (taskFault (s0.updEntry p e.seq fun y => { y with progress := b.published }) p e.seq
          { code := 0x0827, engine := 4, core := 127, addr := none }))) ∧
      (∀ c a (kd : KReg), e.insn = .skv c a kd → b.ordered = false →
        let w := 128 * field kd 2 14 14
        let cache := kPair e.k kd.val
        let commits := (List.range b.size).filter fun i =>
          v.isFinal base b i && !(v.slot (base + i)).kv && (v.slot (base + i)).pass == b.passCtr
        w ≠ 0 → (∃ f n, e.a = some f ∧ (s.part p).bufBytes? f = some n ∧ b.size * w ≤ n) →
        (∃ r ∈ e.areas, r.write = true ∧ r.base ≤ cache ∧ cache + b.size * w ≤ r.base + r.len) →
        ∃ s', runs s' ∧ s'.nextAge = s.nextAge + commits.length ∧ (∃ e', s'.entryOf p e.seq = some e' ∧ e'.kvSlots = commits) ∧
          ∀ j, (h : j < commits.length) → s'.copies.get? (s.nextAge + j) = some
            { owner := .task p e.seq, core := none, part := p, src := .buf p (e.a.getD 0) (commits[j] * w), dst := .g (cache + commits[j] * w)
              kind := .copy w, since := s.clock }) ∧
      (∀ c d a b' (kd : KReg), e.insn = .kvcompact c d a b' kd → b.ordered = true →
        let w := 128 * field kd 0 14 14
        let n := count fun i => (v.slot (base + i)).kv
        let word := fun o => (s.memOf (.buf p)).read (2 ^ 26 * e.a.getD 0 + o) 4
        let nodes := (List.range (min (word 4096) 1024)).map fun j => word (4100 + 4 * j)
        let rows := (if rootIsSlot s p (e.a.getD 0) v base b then [0] else []) ++ nodes
        let holds := fun (x : Option Nat) l => ∃ f m, x = some f ∧ (s.part p).bufBytes? f = some m ∧ l ≤ m
        holds e.a (4100 + 4 * nodes.length) → (∀ r ∈ rows, holds e.b ((r + 1) * w)) → holds e.d ((n + rows.length) * w) →
        badBuf s p (e.a, 0, 8) = none → badBuf s p (e.a, 4096, 4 + 4 * nodes.length) = none → w ≠ 0 →
        let moves := fun src so at_ l => ({
          owner := .task p e.seq, core := none, part := p, src := .buf p src so, dst := .buf p (e.d.getD 0) at_
          kind := .copy l, since := s.clock } : Copy)
        let all := (if n = 0 then [] else [moves (e.prev.getD 0) 0 0 (n * w)]) ++
          rows.zipIdx.map fun x => moves (e.b.getD 0) (x.1 * w) ((n + x.2) * w) w
        ∃ s', runs s' ∧ s'.nextAge = s.nextAge + all.length ∧ (∀ j, (h : j < all.length) → s'.copies.get? (s.nextAge + j) = some all[j]) ∧
          ∃ e', s'.entryOf p e.seq = some e' ∧ e'.status = .issued ∧
            ∀ i, i ∈ e'.kvSlots ↔ n ≤ i ∧ i < n + rows.length ∧ i < b.size ∧
              ¬(b.ended = true ∧ b.endTok ≠ 0xFFFFFF ∧ ∃ j, j < i ∧ (v.slot (base + j)).token = b.endTok ∧
                ∀ h, h ≤ j → (v.slot (base + h)).state = .final))) ∧
    (∀ c d a (kd : KReg), e.insn = .maskgen c d a kd →
      let t := field kd 0 0 9
      let pk := field kd 0 9 21
      let m := (t + 15) / 16
      let word := fun n => (s.memOf (.buf p)).read (2 ^ 26 * e.a.getD 0 + 4 * n) 4
      let up := fun n => word n / 2 ^ 24
      let shape := ∀ n, 1 ≤ n → n < t → up n < n
      badBuf s p (e.a, 0, 4 * t) = none →
      (¬shape → faults 0x0825) ∧
      (shape → ∃ s', runs s' ∧ (∀ g r, g < (pk + t + 15) / 16 → r < m → ∀ i k, i < 16 → k < 16 →
        let key := 16 * g + k
        let row := 16 * r + i
        ((s'.memOf (.buf p)).read (2 ^ 26 * e.d.getD 0 + 32 * (g * m + r)) 32).testBit (16 * i + k) = true ↔
          row < t ∧ key < pk + t ∧ (key < pk ∨ ∃ n, Nat.repeat up n row = key - pk ∧ ∀ m, m < n → Nat.repeat up m row ≠ 0))))

/-- SRULE: every open slot gets its outcome after budget and progress, in a transition that its retirement applies: state, token, pass,
confidence and draft (R145); the slots behind the end of the block are discarded (R146); no slot that was not open changes otherwise. An
open slot with no candidate is 0x0824. SACCEPT: the accepted path goes from the root to a child whose token is the target's, the lowest
of them, until there is no such child or its token ends the block; its tokens and the bonus token finalise the lowest open slots (R155),
and no other slot changes unless the block ends (R146). A parent that is not lower is 0x0825. Readings and choices of the model that
clauses rest on: log 75. -/
def Obligations.SpeculationEngine : Prop :=
  (∀ s p seq e c img d a od kd b, s.entryOf p seq = some e → mayIssue s p e = true → e.insn = .srule c img d a od kd →
    let v := slotView s p e.seq
    let base := blockOf e
    let thF := (e.k.getD kd.val 0).toNat / 2 ^ 16 % 2 ^ 16
    let thT := (e.k.getD kd.val 0).toNat / 2 ^ 32 % 2 ^ 16
    let fmax := (e.k.getD kd.val 0).toNat / 2 ^ 48 % 2 ^ 11
    v.blocks.get? base = some b → b.ordered = false →
    (∀ x ∈ [(e.a, 8 * b.size), (e.d, if img then 8192 + 16 * b.size else 4 + 4 * b.size)] ++ (if e.b.isSome then [(e.b, 4 * b.size)] else []),
      ∃ f n, x.1 = some f ∧ (s.part p).bufBytes? f = some n ∧ x.2 ≤ n) →
    badBuf s p (e.a, 0, 8 * b.size) = none → badBuf s p (e.b, 0, 4 * b.size) = none →
    let l := candidates s p (e.a.getD 0) e.b v base b thF thT
    ((∃ x ∈ l, x.c = 0xFFFFFF) → exec (.taskIssue p seq) s =
      .next (taskFault (s.asking e.entered) p e.seq { code := 0x0824, engine := 4, core := 127, addr := none })) ∧
    ((∀ x ∈ l, x.c ≠ 0xFFFFFF) → ∃ s' e' q, exec (.taskIssue p seq) s = .next s' ∧ s'.entryOf p e.seq = some e' ∧
      e'.status = .issued ∧ e'.pend = some q ∧ q.base = base ∧ (s'.part p).slots = (s.part p).slots ∧
      q.slots.map Prod.fst = (List.range b.size).map (base + ·) ∧
      (l = [] → q.block = some b ∧ ∀ i, i < b.size → (base + i, v.slot (base + i)) ∈ q.slots) ∧
      (l ≠ [] → ∃ b', q.block = some b' ∧ b'.passCtr = b.passCtr + 1 ∧ b'.published = b.published ∧
        (∀ x ∈ progress (budget fmax thT l), ∃ y, (base + x.i, y) ∈ q.slots ∧ y.conf.toNat = x.q % 2 ^ 16 ∧
          (∀ n, x.d = some n → y.draft.toNat = n % 2 ^ 24) ∧ y.kv = (v.slot (base + x.i)).kv ∧ y.pub = (v.slot (base + x.i)).pub ∧
          (b'.ended = false →
            (x.out = .f → y.state = .final ∧ y.token.toNat = x.tok % 2 ^ 24 ∧ y.pass = b.passCtr + 1) ∧
            (x.out = .t → y.state = .tentative ∧ y.token.toNat = x.tok % 2 ^ 24) ∧
            (x.out = .m → y.state = .masked ∧ y.token = 0xFFFFFF))) ∧
        (b'.ended = false → ∀ i, i < b.size → v.isOpen base b i = false → (base + i, v.slot (base + i)) ∈ q.slots) ∧
        (b'.ended = true → b.ended = false → ∃ n, n < b.size ∧ (∃ y, (base + n, y) ∈ q.slots ∧ y.state = .final ∧ y.token = b.endTok) ∧
          (∀ i, i < n → ∃ y, (base + i, y) ∈ q.slots ∧ y.state = .final ∧ y.token ≠ b.endTok) ∧
          ∀ i, n < i → i < b.size → ∃ y, (base + i, y) ∈ q.slots ∧ y.state = .final ∧ y.token = 0xFFFFFF)))) ∧
  ((∀ s p a b t endTok, let tok := nodeToken s p
    ∀ n path, acceptPath s p a b t endTok t 0 = path → n < path.length →
      let before := if n = 0 then 0 else path.getD (n - 1) 0
      let child := fun x => x < t ∧ x ≠ 0 ∧ nodeParent s p a x = before ∧ tok a x = tok b before
      child (path.getD n 0) ∧ (∀ x, x < path.getD n 0 → ¬child x) ∧
      (endTok ≠ 0xFFFFFF → n + 1 < path.length → tok a (path.getD n 0) ≠ endTok)) ∧
  (∀ s p a b t endTok, let tok := nodeToken s p
    let path := acceptPath s p a b t endTok t 0
    let last := path.getLastD 0
    (∀ n, 1 ≤ n → n < t → nodeParent s p a n < n) → path = [] ∨ endTok = 0xFFFFFF ∨ tok a last ≠ endTok →
    ∀ x, x < t → x ≠ 0 → nodeParent s p a x = last → tok a x ≠ tok b last) ∧
  (∀ s p seq e c img d a tb kd blk, s.entryOf p seq = some e → mayIssue s p e = true → e.insn = .saccept c img d a tb kd →
    let v := slotView s p e.seq
    let base := blockOf e
    let t := (e.k.getD kd.val 0).toNat / 2 ^ 14 % 2 ^ 9
    v.blocks.get? base = some blk → blk.ordered = true →
    (∀ x ∈ [(e.a, 4 * t), (e.b, 4 * t), (e.d, if img then 8192 + 16 * blk.size else 4100 + 4 * t)],
      ∃ f n, x.1 = some f ∧ (s.part p).bufBytes? f = some n ∧ x.2 ≤ n) →
    badBuf s p (e.a, 0, 4 * t) = none → badBuf s p (e.b, 0, 4 * t) = none →
    let shape := ∀ n, 1 ≤ n → n < t → nodeParent s p (e.a.getD 0) n < n
    let path := acceptPath s p (e.a.getD 0) (e.b.getD 0) t blk.endTok.toNat t 0
    let last := path.getLastD 0
    let ends := blk.endTok ≠ 0xFFFFFF ∧ path ≠ [] ∧ nodeToken s p (e.a.getD 0) last = blk.endTok.toNat
    let opens := (List.range blk.size).filter fun i => v.isOpen base blk i
    (¬shape → exec (.taskIssue p seq) s = .next (taskFault (s.asking e.entered) p e.seq { code := 0x0825, engine := 4, core := 127, addr := none })) ∧
    (shape → ∃ s' e' q toks, exec (.taskIssue p seq) s = .next s' ∧ s'.entryOf p e.seq = some e' ∧ e'.status = .issued ∧
      e'.pend = some q ∧ q.base = base ∧ q.slots.map Prod.fst = (List.range blk.size).map (base + ·) ∧
      (ends → toks = path.map (nodeToken s p (e.a.getD 0))) ∧
      (¬ends → toks = path.map (nodeToken s p (e.a.getD 0)) ++ [nodeToken s p (e.b.getD 0) last]) ∧
      (opens = [] → q.block = some blk ∧ ∀ i, i < blk.size → (base + i, v.slot (base + i)) ∈ q.slots) ∧
      (opens ≠ [] → ∃ b', q.block = some b' ∧ b'.passCtr = blk.passCtr + 1 ∧ b'.published = blk.published ∧
        (∀ j, (ho : j < opens.length) → (ht : j < toks.length) → ∃ y, (base + opens[j], y) ∈ q.slots ∧ y.state = .final ∧
          (b'.ended = false → y.token.toNat = toks[j] % 2 ^ 24 ∧ y.pass = blk.passCtr + 1)) ∧
        (b'.ended = false → ∀ i, i < blk.size → i ∉ opens.take toks.length → (base + i, v.slot (base + i)) ∈ q.slots) ∧
        (b'.ended = true → ∃ n, n < blk.size ∧ (∃ y, (base + n, y) ∈ q.slots ∧ y.state = .final ∧ y.token = blk.endTok) ∧
          (∀ i, i < n → ∃ y, (base + i, y) ∈ q.slots ∧ y.state = .final ∧ y.token ≠ blk.endTok) ∧
          ∀ i, n < i → i < blk.size → ∃ y, (base + i, y) ∈ q.slots ∧ y.state = .final ∧ y.token = 0xFFFFFF)))))

/-- SPUBLISH_RECORD_WRITE writes the next record of 64 bytes at its place in the ring, when the ring has room by the device's copy of the
consumer index: words 1 to 15 as Table 07.5 has them and word 0 the sequence number; PROD goes on by 1 and the sequence number skips 0;
its slots are PUB, and their number goes onto the published count, in the table and in what older tasks of the block have still to
apply. A ring that was disabled meanwhile faults 0x0827 (R151). RING_CONS_POLL reads the index again, not before 256 cycles have passed,
and a LIMIT that has passed faults 0x0826 (R150, R152, R153). A position beyond 2^32 - 1 is written modulo 2^32, which is the model's
choice (log 127). Readings and choices of the model that clauses rest on: logs 34, 72, 76, 93, 127. -/
def Obligations.RingRecords : Prop :=
  (∀ x : Word, nextSeqNo x ≠ 0 ∧ (x + 1 ≠ 0 → nextSeqNo x = x + 1)) ∧
  ∀ s p seq e c kd b, s.entryOf p seq = some e → e.insn = .spublish c kd → e.status = .issued → (s.part p).twState = .running →
    (s.part p).haltReq = false →
    let v := slotView s p seq
    let base := blockOf e
    let r := (s.part p).rings.getD b.ring {}
    let full := 2 ^ r.log2n.toNat ≤ (r.prod - r.copy).toNat
    let pub := v.unpublished base b
    let more := pub ≠ [] ∨ (b.ended = true ∧ b.endSent = false)
    let off := r.en = false ∨ r.log2n.toNat = 0 ∨ 16 < r.log2n.toNat
    v.blocks.get? base = some b →
    (¬more ∨ (¬off ∧ full) → exec (.spublishRecordWrite p seq) s = .next s) ∧
    (more → off → exec (.spublishRecordWrite p seq) s = .next (taskFault (s.updEntry p seq fun y => { y with progress := b.published }) p seq
      { code := 0x0827, engine := 4, core := 127, addr := none })) ∧
    (∀ s1 o, more → ¬off → ¬full →
      let l := pub.take (if b.positional then 6 else 13)
      let last := b.ended && !b.endSent && decide (pub.length ≤ if b.positional then 6 else 13)
      let va := r.base.toNat + 2 ^ 64 * r.baseHi.toNat + 64 * (r.prod.toNat % 2 ^ r.log2n.toNat)
      let rec_ := recordNat v base b r.seq l last
      let word := fun j => rec_ / 2 ^ (32 * j) % 2 ^ 32
      va + 64 ≤ 2 ^ 80 → va % 32768 ≤ 32768 - 64 → touch (s.asking e.since) p (128 + p) va { write := true, bytes := 64 } = .ok (s1, o) → o.store = .host →
      word 0 = r.seq.toNat ∧ word 1 % 2 ^ 16 = b.reqid.toNat ∧ word 1 / 2 ^ 16 % 2 ^ 8 = l.length ∧
      (word 1 / 2 ^ 24 % 2 = 1 ↔ last = true) ∧ (word 1 / 2 ^ 25 % 2 = 1 ↔ b.positional = true) ∧ word 1 / 2 ^ 26 = 0 ∧
      (b.positional = false → (∀ j, (h : j < l.length) → word (3 + j) = (v.slot (base + l[j])).token.toNat) ∧
        (∀ j, l.length ≤ j → j < 13 → word (3 + j) = 0) ∧ word 2 = (b.pos0 + BitVec.ofNat 32 (l.headD b.published)).toNat) ∧
      (b.positional = true → (∀ j, (h : j < l.length) → word (3 + 2 * j) = (b.pos0 + BitVec.ofNat 32 l[j]).toNat ∧
        word (4 + 2 * j) = (v.slot (base + l[j])).token.toNat) ∧
        (∀ j, l.length ≤ j → j < 6 → word (3 + 2 * j) = 0 ∧ word (4 + 2 * j) = 0) ∧ word 15 = 0 ∧
        (last = false → ∃ i ∈ l, (∀ j ∈ l, i ≤ j) ∧ word 2 = (b.pos0 + BitVec.ofNat 32 i).toNat) ∧
        (last = true → ∀ n, n < b.size → b.endTok ≠ 0xFFFFFF → (v.slot (base + n)).token = b.endTok →
          (∀ i, i ≤ n → (v.slot (base + i)).state = .final) → (∀ i, i < n → (v.slot (base + i)).token ≠ b.endTok) →
          word 2 = (b.pos0 + BitVec.ofNat 32 n).toNat)) ∧
      ∃ s', exec (.spublishRecordWrite p seq) s = .next s' ∧
        (∀ a, (s'.memOf .host).byte a = if stopped s1 p .host o.addr = false ∧ o.addr ≤ a ∧ a < o.addr + 64 then
          BitVec.ofNat 8 (rec_ / 2 ^ (8 * (a - o.addr))) else (s1.memOf .host).byte a) ∧
        (s'.part p).rings.get? b.ring = some { r with prod := r.prod + 1, seq := nextSeqNo r.seq } ∧
        let counted := fun (x : SlotBlock) => { x with published := x.published + l.length, endSent := x.endSent || last }
        let pubs := fun (f g : FMap Slot) => (∀ i ∈ l, g.getD (base + i) {} = { f.getD (base + i) {} with pub := true }) ∧
          ∀ n, (∀ i ∈ l, n ≠ base + i) → g.get? n = f.get? n
        (∀ x, (s1.part p).blocks.get? base = some x → (s'.part p).blocks.get? base = some (counted x)) ∧
        pubs (s1.part p).slots (s'.part p).slots ∧
        (∀ y ∈ (s1.part p).window, ∀ q, y.seq < seq → y.pend = some q → q.base = base → ∃ q',
          { y with pend := some q' } ∈ (s'.part p).window ∧ q'.base = base ∧ q'.block = q.block.map counted ∧ pubs q.slots q'.slots) ∧
        (∀ y ∈ (s1.part p).window, seq < y.seq → y ∈ (s'.part p).window) ∧
        s'.entryOf p seq = (s1.entryOf p seq).map fun y => { y with since := s.clock, progress := b.published + l.length }) ∧
    (more → ¬off → full →
      (∀ n, r.polled = some n → s.clock < n + 256 → exec (.ringConsPoll p seq) s = .next s) ∧
      (∀ s1 o, (∀ n, r.polled = some n → n + 256 ≤ s.clock) →
        let va := r.cons.toNat + 2 ^ 64 * r.consHi.toNat
        va % 4 = 0 → touch (s.asking ((r.polled.map (· + 256)).getD e.since)) p (128 + p) va { read := true, plain := true, bytes := 4 } = .ok (s1, o) →
        rangeFailure s1 p o.store o.addr 4 = none →
        let r' : Ring := { r with copy := BitVec.ofNat 32 (s1.load o.store o.addr 4), polled := some s.clock }
        exec (.ringConsPoll p seq) s = .next (s1.updPart p fun x => { x with rings := x.rings.set b.ring r' })) ∧
      (r.lim ≠ 0 → e.since + 256 * r.lim.toNat ≤ s.clock → exec (.ringLimitExpiry p seq) s =
        .next (taskFault s p seq { code := 0x0826, engine := 4, core := 127, addr := none })) ∧
      (r.lim = 0 ∨ s.clock < e.since + 256 * r.lim.toNat → exec (.ringLimitExpiry p seq) s = .next s))

/-! ### Stops of the stream -/

/-- The fault record is written when the oldest entry holds a fault and its engines have stopped, or when the front stage holds one and the
window is empty. The younger entries are squashed, their fresh buffers return to the heads of their lists, youngest first, and the
stream state is that just behind the faulted entry (R51, R66, R334 to R337, Table 20.1). A Function Level Reset that waits for the
partition to stop then goes on (R163). A router that can fold its flits completes that first (R41, R335, R336). The three resolutions of
a faulted stream, and that they do nothing otherwise. Re-execution starts the entry again, unless its cursor is lost (0x0814); a skip
retires it without effect, with the buffer it took given back and the mapping of before; Abandon also leaves the stream idle at the
faulting PC (R338 to R341); a block whose slots were lost is closed with the entry (Table 24.1). Readings and choices of the model that
clauses rest on: logs 8, 27, 28, 77, 82, 83. -/
def Obligations.FaultsAndResolutions : Prop :=
  (∀ s p, (s.part p).twState = .running →
    let x := s.part p
    (busyRouters s p ≠ [] → exec (.faultRecordWrite p) s = .next s) ∧ (busyRouters s p = [] →
    (∀ f, x.window = [] → x.ffault = some f → x.flrReq = false → ∃ r, exec (.faultRecordWrite p) s = .next (s.setPart p { x with
        twState := .faulted, rec_ := r, haltReq := false, acks := [], msix := x.msix + 1 }) ∧
      r.code.toNat = f.code % 2 ^ 16 ∧ r.op.toNat = f.op % 256 ∧ r.stage = false ∧ r.restart = false ∧ r.core = 127 ∧ r.engine = 0 ∧
      r.pc = f.pc ∧ r.prog = 0 ∧ r.detail = 0) ∧
    (x.window = [] → x.ffault = none → exec (.faultRecordWrite p) s = .next s) ∧
    (∀ e es, x.window = e :: es → (∀ f, e.status ≠ .faulted f) → exec (.faultRecordWrite p) s = .next s) ∧
    (∀ e es f, x.window = e :: es → e.status = .faulted f → (x.window.map WinEntry.seq).Nodup →
      taskStopped s p e.seq true = true → (∀ y ∈ es, taskStopped s p y.seq false = true) →
      (x.flrReq = true → ∃ s', exec (.faultRecordWrite p) s = .next s' ∧ (s'.part p).twState = .idle ∧ (s'.part p).window = [] ∧
        (s'.part p).rec_ = {} ∧ (s'.part p).flrReq = false) ∧
      (x.flrReq = false → ∃ s' y, exec (.faultRecordWrite p) s = .next s' ∧ let z := s'.part p
        z.twState = .faulted ∧ z.haltReq = false ∧ z.acks = [] ∧ z.msix = x.msix + 1 ∧ z.ffault = none ∧ z.shaltPassed = false ∧
        z.window = [y] ∧ y.seq = e.seq ∧ y.status = e.status ∧ y.insn = e.insn ∧ y.pc = e.pc ∧
        z.k = e.snap.k ∧ z.calls = e.snap.calls ∧ z.seed = e.snap.seed ∧ z.det = e.snap.det ∧ z.rename = e.snap.rename ∧
        z.areas = e.snap.areas ∧ z.pc = e.next ∧ z.free = (es.foldr (fun y z => z.takeBack y) x).free ∧
        z.slots = x.slots ∧ z.blocks = x.blocks ∧
        z.rec_.code.toNat = f.code % 2 ^ 16 ∧ z.rec_.op.toNat = (encode e.insn).toNat % 256 ∧ z.rec_.cls.toNat = e.cls % 4 ∧
        z.rec_.stage = true ∧ z.rec_.pc = e.pc ∧ z.rec_.detail.toNat = f.detail % 2 ^ 16 ∧ (z.rec_.outward = true ↔ e.outward = true) ∧
        (∀ w ∈ x.window, (∀ c ∈ s'.copies, c.2.owner ≠ .task p w.seq) ∧ (∀ o ∈ s'.spin, o.2.kind.ofTask p w.seq = false) ∧
          ∀ n c, s'.crews.get? n = some c → ¬(c.part = p ∧ c.seq = w.seq)))))) ∧
  (∀ s p, let x := s.part p
    let all := fun (i : Instr) (t : State) => exec i s = .next t
    let back := fun (y : Part) (e : WinEntry) => (match e.fresh with
      | some b => { y with free := y.free.set (y.classOf b) (b :: y.freeOf (y.classOf b)) }
      | none => y : Part)
    let names := fun (e : WinEntry) => match e.fresh, e.arch, e.prev with
      | some _, some a, some b => x.rename.set a b
      | some _, some a, none => x.rename.erase a
      | _, _, _ => x.rename
    let blocks := fun (e : WinEntry) => if e.lost = true ∧ e.insn.usesSlots = true then x.blocks.erase (blockOf e) else x.blocks
    (x.state ≠ .formed ∨ x.twState ≠ .faulted →
      all (.resolveReexecute p) s ∧ all (.resolveSkip p) s ∧ all (.resolveAbandon p) s) ∧
    (x.state = .formed → x.twState = .faulted →
      (∀ e es f, x.window = e :: es → e.status = .faulted f →
        (f.code = 0x0814 ∨ e.lost = true → all (.resolveReexecute p) s) ∧
        (f.code ≠ 0x0814 → e.lost = false → ∃ e', all (.resolveReexecute p) (s.setPart p { x with
            twState := .running, rootInForce := x.xlroot, window := e' :: es }) ∧
          e'.status = .waiting ∧ e'.placed = 0 ∧ e'.ended = 0 ∧ e'.pend = none ∧ e'.kvSlots = [] ∧ e'.seq = e.seq ∧ e'.insn = e.insn ∧
          e'.k = e.k ∧ e'.d = e.d ∧ e'.fresh = e.fresh ∧ e'.progress = e.progress ∧
          ((∀ h m, matTask e ≠ some (h, m, true)) → e'.tiles = []) ∧ (∀ h m, matTask e = some (h, m, true) → e'.tiles = e.tiles)) ∧
        all (.resolveSkip p) (s.setPart p { back x e with
          window := es, areas := [], rename := names e, blocks := blocks e, twState := .running, rootInForce := x.xlroot }) ∧
        all (.resolveAbandon p) (s.setPart p { back x e with
          window := es, areas := [], rename := names e, blocks := blocks e, pc := e.pc, fblock := none, twState := .idle, nextLaunch := x.launchTop })) ∧
      (∀ f, x.window = [] → x.ffault = some f →
        all (.resolveReexecute p) (s.setPart p { x with twState := .running, rootInForce := x.xlroot, ffault := none, fblock := none }) ∧
        (f.block = true → all (.resolveSkip p) (s.setPart p { x with
          twState := .running, rootInForce := x.xlroot, ffault := none, areas := [], pc := ⟨x.pc.blk + 64, 0⟩, fblock := none })) ∧
        (f.block = false → ∃ b, all (.resolveSkip p) (s.setPart p { x with
          twState := .running, rootInForce := x.xlroot, ffault := none, areas := [], pc := x.nextPC x.pc, fblock := b })) ∧
        all (.resolveAbandon p) (s.setPart p { x with
          ffault := none, fblock := none, areas := [], twState := .idle, nextLaunch := x.launchTop }))))

/-- GO, HALT and a write of TWPC (R67, R302, R310, Table 03.7): GO from idle clears the k file, the call stack, the seed and the areas; GO
puts the page root in force, and the copies of its tasks reach the Hoists again (R279); HALT while running asks for the pre-emption,
HALT while idle or halted sets PREEMPTED; TWPC is written while idle, or halted with an empty window. A GO does nothing while a Function
Level Reset of a halted partition is under way, which is the model's choice (log 123). A partition that is not formed ignores them
(R162). The pre-emption of a partition: each engine that holds work of it acknowledges at its unit, a team when its writes are performed
and it is out of its handler with nothing left to be injected (R270, R352); an answer past its limit is discarded (R368), and its
producers go to the replay queue and its core's copies of lines are stale (R126). A router completes its reduction first. When all have,
the stream is halted with PREEMPTED set, its crews without places and its window kept. A Function Level Reset of the function first
waits for that, also in a partition that is halted and whose engines hold work (log 123), and then returns the partition to its state at
formation, with its memory kept (R41, R67, R163). Readings and choices of the model that clauses rest on: logs 26, 44, 96, 123. -/
def Obligations.StartHaltAndPreemption : Prop :=
  (∀ s p, let x := s.part p
    let becomes := fun (i : Instr) (y : Part) => exec i s = .next (s.setPart p y)
    (x.state ≠ .formed → exec (.twctlGo p) s = .next s ∧ exec (.twctlHalt p) s = .next s ∧ ∀ h v, exec (.twpcWrite p h v) s = .next s) ∧
    (x.state = .formed →
      (x.twState = .idle → becomes (.twctlGo p) { x with
        twState := .running, rootInForce := x.xlroot, preempted := false, k := [], calls := [], seed := 0, det := false, areas := []
        fblock := none, ffault := none, shaltPassed := false }) ∧
      (x.twState = .halted → x.flrReq = true → exec (.twctlGo p) s = .next s) ∧
      (x.twState = .halted → x.flrReq = false →
        let y : Part := { x with twState := .running, rootInForce := x.xlroot, preempted := false, fblock := none, shaltPassed := false }
        let l := s.copies.filter fun c => COwner.isTask p c.2.owner
        (l = [] → becomes (.twctlGo p) y) ∧ ((∀ c ∈ s.copies, c.1 < s.nextAge) → ∃ s', exec (.twctlGo p) s = .next s' ∧ s'.part p = y ∧
          ∀ j, (h : j < l.length) → s'.copies.get? (s.nextAge + j) = some { l[j].2 with core := none })) ∧
      (x.twState = .running ∨ x.twState = .faulted → exec (.twctlGo p) s = .next s) ∧
      (x.twState = .running → becomes (.twctlHalt p) { x with haltReq := true }) ∧
      (x.twState = .idle ∨ x.twState = .halted → becomes (.twctlHalt p) { x with preempted := true }) ∧
      (x.twState = .faulted → exec (.twctlHalt p) s = .next s) ∧
      ∀ h v, let free := x.twState = .idle ∨ x.twState = .halted ∧ x.window = []
        (¬free → exec (.twpcWrite p h v) s = .next s) ∧
        (free → ∃ pc, becomes (.twpcWrite p h v) { x with pc, fblock := none, ffault := none } ∧
          (h = true → pc.slot = x.pc.slot ∧ pc.blk.toNat = x.pc.blk.toNat % 2 ^ 64 + 2 ^ 64 * (v.toNat % 2 ^ 16)) ∧
          (h = false → pc.slot = (if v.toNat % 8 ≤ 4 then v.toNat % 8 else 0) ∧
            pc.blk.toNat = v.toNat / 64 * 64 + 2 ^ 64 * (x.pc.blk.toNat / 2 ^ 64))))) ∧
  ((∀ s p e, (s.part p).haltReq = true → (∀ c ∈ s.crews, c.2.preempt = false) →
    let acks := fun (s1 : State) => s1.updPart p fun x => { x with acks := x.acks ++ [e] }
    (e = .slotUnit ∨ e = .tokenQueue ∨ (∃ c, e = .spindle c) →
      exec (.enginePreemptAck p e) s = .next (acks s)) ∧
    (∀ c, e = .hoist c → ((∀ y ∈ s.copies, y.2.part = p → c ∉ y.2.flightCore.vals) → exec (.enginePreemptAck p e) s = .next (acks s)) ∧
      ((∃ y ∈ s.copies, y.2.part = p ∧ c ∈ y.2.flightCore.vals) → exec (.enginePreemptAck p e) s = .next s)) ∧
    (∀ tid t c, e = .team tid → s.teams.get? tid = some t → s.crews.get? t.cid = some c → c.part = p → c.placed = true →
      t.stopped = false →
      let done := t.hostAtomic = none ∧ (∀ w ∈ t.writes, w.2.failed.isSome = true) ∧
        (t.halted = true ∨ (t.handler = false ∧ t.portFail = none ∧ t.replay = []))
      (¬done → exec (.enginePreemptAck p e) s = .next s) ∧
      (done → ∃ t', exec (.enginePreemptAck p e) s = .next (acks ((s.setTeam tid t').stale t.core)) ∧ t'.stopped = true ∧ t'.producers = [] ∧
        let u := drainAtoms (t.answered s c.part)
        t'.entries = t.entries ∧ t'.sregs = u.sregs ∧ t'.vregs = u.vregs ∧ t'.replay = replaysOf u))) ∧
  (∀ s p c, (∀ c ∈ s.crews, c.2.preempt = false) → exec (.enginePreemptAck p (.router c)) s = .next s) ∧
  (∀ s p, (s.part p).haltReq = true → (s.part p).twState = .running → (s.part p).flrReq = false →
    ((∃ e ∈ holders s p, acked s p e = false) → exec (.preemptionComplete p) s = .next s) ∧
    ((∀ e ∈ holders s p, acked s p e = true) → ∃ s', exec (.preemptionComplete p) s = .next s' ∧ let y := s'.part p
      y.twState = .halted ∧ y.preempted = true ∧ y.haltReq = false ∧ y.acks = [] ∧ y.msix = (s.part p).msix + 1 ∧
      y.pc = (s.part p).pc ∧ y.k = (s.part p).k ∧ y.free = (s.part p).free ∧ y.rename = (s.part p).rename ∧
      ((∀ e ∈ (s.part p).window, e.reruns = 0) → y.window = (s.part p).window) ∧
      ∀ n c, s'.crews.get? n = some c → c.part = p → c.placed = false)) ∧
  (∀ s p, (s.part p).haltReq = true → (s.part p).flrReq = true → (∀ e ∈ holders s p, acked s p e = true) →
    ∃ s', exec (.preemptionComplete p) s = .next s' ∧ (s'.part p).twState = .idle ∧ (s'.part p).window = [] ∧
      (s'.part p).flrReq = false ∧ (s'.part p).preempted = false) ∧
  (∀ s p, (s.part p).haltReq = false ∨ ((s.part p).twState ≠ .running ∧ (s.part p).flrReq = false) →
    exec (.preemptionComplete p) s = .next s) ∧
  (∀ s p, let x := s.part p
    let works := x.twState = .running ∨ x.twState = .halted ∧ holders s p ≠ []
    (x.state ≠ .formed ∨ x.flrReq = true → exec (.vfFlr p) s = .next s) ∧
    (x.state = .formed → x.flrReq = false → works → exec (.vfFlr p) s = .next (s.setPart p { x with haltReq := true, flrReq := true })) ∧
    (x.state = .formed → x.flrReq = false → ¬works → ∃ s', exec (.vfFlr p) s = .next s' ∧ let y := s'.part p
      y.state = .formed ∧ y.twState = .idle ∧ y.preempted = false ∧ y.window = [] ∧ y.slots = [] ∧ y.blocks = [] ∧ y.rename = [] ∧
      y.mail = [] ∧ y.iotmo = 0x4000 ∧ y.nredlim = 0x100 ∧ y.xlroot = {} ∧ y.rings = [] ∧ y.tslice = 0 ∧ y.jpass = 0 ∧ y.qconsent = 0 ∧
      y.dbg = {} ∧ y.iolog = {} ∧ y.rec_ = {} ∧ y.lode = x.lode ∧ y.bufs = x.bufs ∧ y.windows = x.windows ∧ y.ppool0 = x.ppool0 ∧
      (∀ c, c < 12 → y.freeOf c = (List.range (x.poolCount c)).map (x.firstBuf c + ·)) ∧
      ∀ e ∈ x.window, ∀ n c, s'.crews.get? n = some c → ¬(c.part = p ∧ c.seq = e.seq))))

/-! ### Crews and teams -/

/-- Where a crew can be placed: on cores of its partition that are in service, one per core it needs, with its window segments inside the
scratchpads, its teams within 32 a quarter and within the quarter's 65,536 words, and its tiles free, or held by a lower class where the
free ones do not suffice, and its queues free (R24, R26, R27, R39, R105, R108, R115). CREW_PLACE places the next crew of an issued
LAUNCH where there is room: its teams start at the entry block with their registers, launch scalars, stack, trap area, trap vector and
buffer addresses (R23 to R25, R31, R40, R110, R204, R206, R311, R312, Table 14.4). Readings and choices of the model that clauses rest
on: logs 29, 30, 32, 100. -/
def Obligations.CrewPlacement : Prop :=
  (∀ s n cores quarters, canPlace s n cores quarters [] = true →
    cores.length = n.ncores ∧ quarters.length = n.teams ∧ cores.Pairwise (· < ·) ∧
    (∀ c ∈ cores, (s.part n.part).hasCore c = true ∧ (s.coreStatOf c).state = 0 ∧
      scratchUsed s c + segmentOn cores n.win c ≤ 2 ^ 21 ∧
      (∃ ts, chooseTiles s c n.cls n.tiles false false = some ts ∧ ts.length = n.tiles ∧
        (∀ t ∈ ts, t < 16 ∧ (s.tileOwner.get? (tileKey c n.cls t) = none ∨ ∃ y, tileClass s (tileKey c n.cls t) = some y ∧ y < n.cls)) ∧
        ∀ t ∈ ts, s.tileOwner.get? (tileKey c n.cls t) ≠ none → ∀ u, u < 16 → s.tileOwner.get? (tileKey c n.cls u) = none → u ∈ ts) ∧
      n.queues ≤ ((List.range 8).filter fun q => (s.mqOwner.get? (8 * c + q)).isNone).length) ∧
    (∀ q ∈ quarters, q / 4 ∈ cores ∧ (quarterLoad s q).length + quarters.count q ≤ 32 ∧
      (n.words ≠ 0 → ((quarterLoad s q).map Team.words).sum + quarters.count q * n.words ≤ 65536))) ∧
  (∀ s p seq e cls d a b kd cores quarters, s.entryOf p seq = some e → e.insn = .launch cls d a b kd →
    let h := launchShape e.k kd.val
    let n := needOf p e h
    (canPlace s n cores quarters [] = false ∨ (s.part p).twState ≠ .running ∨ e.status ≠ .issued ∨ h.ncrew ≤ e.placed →
      exec (.crewPlace p seq cores quarters []) s = .next s) ∧
    ((s.part p).twState = .running → (s.part p).haltReq = false → e.status = .issued → e.placed < h.ncrew →
      canPlace s n cores quarters [] = true → (∀ c ∈ cores, c ∉ e.avoid) →
      (∀ c ∈ cores, c ∉ e.apart.getD e.placed []) → s.crews.get? s.nextCid = none →
      ∃ s', exec (.crewPlace p seq cores quarters []) s = .next s' ∧ SameBytes s s' ∧
        s'.nextCid = s.nextCid + 1 ∧ s'.nextTid = s.nextTid + h.teams ∧
        (∃ e', s'.entryOf p seq = some e' ∧ e'.placed = e.placed + 1) ∧
        (∃ c, s'.crews.get? s.nextCid = some c ∧ c.part = p ∧ c.seq = e.seq ∧ c.num = e.placed ∧ c.launch = e.launch ∧ c.cls = e.cls ∧
          c.nteams = h.teams ∧ c.ncrew = h.ncrew ∧ c.cores = cores ∧ c.winBytes = h.win ∧ c.tiles = h.tiles ∧ c.placed = true) ∧
        ∀ j, (hj : j < quarters.length) → ∃ t, s'.teams.get? (s.nextTid + j) = some t ∧ t.cid = s.nextCid ∧ t.num = j ∧
          t.quarter = quarters[j] ∧ t.nlanes = h.lanes ∧ t.nregs = h.regs ∧ t.live = maskBelow h.lanes ∧
          (∃ y, t.entries = [y] ∧ y.pc = ⟨BitVec.ofNat 80 h.entry, 0⟩) ∧
          (∀ i, t.s i = if i < h.scalars then e.k.getD (kd.val + 8 + i) 0 else 0) ∧
          (∀ r l, t.v r l = 0) ∧ (∀ i, i ≠ 0 → t.p i = 0) ∧ t.stack = [] ∧ t.memFrames = 0 ∧ t.handler = false ∧
          t.stkbase = BitVec.ofNat 64 (h.stack + (e.placed * h.teams + j) * h.sstride) ∧
          t.stklim = t.stkbase + BitVec.ofNat 64 h.sstride ∧
          t.tsave = BitVec.ofNat 64 (h.tsave + (e.placed * h.teams + j) * h.tstride) ∧ t.tvec = BitVec.ofNat 64 h.tvec ∧
          (∀ b, e.d = some b → t.bufd = BitVec.ofNat 64 (2 ^ 26 * b)) ∧ (∀ b, e.a = some b → t.bufa = BitVec.ofNat 64 (2 ^ 26 * b)) ∧
          ∀ b, e.b = some b → t.bufb = BitVec.ofNat 64 (2 ^ 26 * b)))

/-- CLASS_PREEMPT marks crews only when the next crew of the LAUNCH finds no room: crews of the lowest class present below its own, as few
as let it fit, or all of that class (R40). A marked crew gives its place up, and keeps its window, at the acknowledgement with which the
last of its teams has stopped, when none of its copies is in flight. CREW_RESUME gives an unplaced crew new cores: its window stays,
each team keeps its registers and its place among the cores, and a team that changed its quarter finds %migr set; until then, or while a
crew of the launch with a lower number waits, or on a core that the crew has to keep off, nothing happens (R40, R43, R107, R354, R385;
log 100). Readings and choices of the model that clauses rest on: logs 31, 32, 33, 100. -/
def Obligations.CrewPreemption : Prop :=
  ((∀ s p seq e cls d a b kd, s.entryOf p seq = some e → e.insn = .launch cls d a b kd → (s.part p).twState = .running →
    (s.part p).haltReq = false → e.status = .issued → (∀ c ∈ s.crews, c.2.preempt = false) →
    let h := launchShape e.k kd.val
    let n := needOf p e h
    let fit := fun (s' : State) => fits s' n (admits s' n e e.placed) = true
    (h.ncrew ≤ e.placed ∨ fit s → exec (.classPreempt p seq) s = .next s) ∧
    (e.placed < h.ncrew → ¬fit s →
      let below := fun (y : Nat × Crew) => y.2.part = p ∧ y.2.placed = true ∧ y.2.cls < e.cls
      let low := (s.crews.filter fun y => decide (below y ∧ ∀ z ∈ s.crews, below z → y.2.cls ≤ z.2.cls)).map Prod.fst
      let room := fun (l : List Nat) => fit (l.foldl unplaceCrew s)
      ∃ l : List Nat, exec (.classPreempt p seq) s = .next (l.foldl (fun s cid => s.updCrew cid fun c => { c with preempt := true }) s) ∧
        l.Sublist low ∧
        ((∃ m, m.Sublist low ∧ room m) → room l ∧ ∀ m, m.Sublist low → room m → l.length ≤ m.length) ∧
        ((∀ m, m.Sublist low → ¬room m) → l = low))) ∧
  (∀ s p tid t cid c, s.teams.get? tid = some t → (s.teams.map Prod.fst).Pairwise (· < ·) → t.cid = cid → s.crews.get? cid = some c →
    c.part = p → c.placed = true → c.preempt = true → (s.part p).haltReq = false → t.stopped = false → t.hostAtomic = none →
    (∀ w ∈ t.writes, w.2.failed.isSome = true) → t.handler = false → t.portFail = none → t.replay = [] →
    let flies := ∃ x ∈ s.copies, x.2.flight ≠ [] ∧ ∃ n b k, x.2.owner = .team n b k ∧ ∃ u, s.teams.get? n = some u ∧ u.cid = cid
    let others := ∀ y ∈ s.teams, y.2.cid = cid → y.1 ≠ tid → y.2.stopped = true
    ∃ s', exec (.enginePreemptAck p (.team tid)) s = .next s' ∧ (∃ t', s'.teams.get? tid = some t' ∧ t'.stopped = true) ∧
      (others → ¬flies → (∃ c', s'.crews.get? cid = some c' ∧ c'.placed = false ∧ c'.preempt = false ∧ c'.window = c.window ∧
        c'.cores = c.cores ∧ c'.tileMap = [] ∧ c'.queueMap = []) ∧ ∀ e ∈ s'.tags, e.2.cid ≠ cid) ∧
      (¬others ∨ flies → s'.crews.get? cid = some c))) ∧
  (∀ s cid c cores quarters, s.crews.get? cid = some c → c.shadow = [] →
    let live := teamsOf s cid
    let q' := fun (t : Team) => (quarters[t.num]?).getD 0
    let n : Need := {
      part := c.part, cls := c.cls, teams := live.length, words := ((live.map fun x => x.2.words).foldl max 1), ncores := c.cores.length
      win := c.winBytes, tiles := c.tiles, queues := c.nqueues s, mirror := false }
    (c.placed = true ∨ earlierWaits s c = true ∨ waitsForRoom s cid c = false ∨ (s.part c.part).twState ≠ .running ∨
        canPlace s n cores (live.map fun x => q' x.2) [] = false ∨
        (∃ e, s.entryOf c.part c.seq = some e ∧ ∃ k ∈ cores, admits s n e c.num k = false) →
      exec (.crewResume cid cores quarters) s = .next s) ∧
    ((s.part c.part).twState = .running → (s.part c.part).haltReq = false → waitsForRoom s cid c = true →
      earlierWaits s c = false → quarters.length = c.nteams → canPlace s n cores (live.map fun x => q' x.2) [] = true →
      (∀ x ∈ live, c.cores.findIdx? (· == x.2.quarter / 4) = cores.findIdx? (· == q' x.2 / 4)) →
      (∀ e, s.entryOf c.part c.seq = some e → ∀ k ∈ cores, k ∉ e.avoid ∧ k ∉ e.apart.getD c.num []) →
      (∀ x ∈ c.savedTags, s.tags.get? (tagHome cores [] x.1) = none) → (s.teams.map Prod.fst).Nodup →
      ∃ s', exec (.crewResume cid cores quarters) s = .next s' ∧ SameBytes s s' ∧
        (∃ c', s'.crews.get? cid = some c' ∧ c'.placed = true ∧ c'.cores = cores ∧ c'.window = c.window) ∧
        ∀ tid t, s.teams.get? tid = some t → t.cid = cid → ∃ t', s'.teams.get? tid = some t' ∧ t'.quarter = q' t ∧ t'.stopped = false ∧
          (t'.migr = true ↔ t.migr = true ∨ q' t ≠ t.quarter) ∧ t'.vregs = t.vregs ∧ t'.sregs = t.sregs ∧ t'.preds = t.preds ∧
          t'.joins = t.joins ∧ t'.entries = t.entries ∧ t'.stack = t.stack ∧ t'.replay = t.replay ∧ t'.handler = t.handler))

/-- TEAM_EXCHANGE: the pending team that has been ready longest takes the place of a blocked active team, or a free place of the active set,
and issues nothing for 4 clocks; that of two ready equally long the one placed earlier does is the model's choice, which R29 and R30
leave open (log 120). A team all of whose entries are held, at a JWAIT, a lane exchange or a frame's return PC, is blocked (R217, R258).
TIME_SLICE_EXPIRY: a team that has held its place for the slice, in units of 256 cycles, that TSLICE gave when its count began (Table
02.5) yields it to a ready pending team of its class or higher; a handler, a TSLICE of 0 or a shorter stay never yields (R29, R30).
TEAM_END: a team without lanes whose copies, writes and Spindle operations have completed leaves; with its last team the crew ends, its
tiles, queues and tags come free, a tile that it had taken going back with its contents to the owner it was taken from, and the LAUNCH
counts it. A fault of a copy that no wait reported faults the LAUNCH (R23, R31, R106, R108, R115, R214, R340). Readings and choices of
the model that clauses rest on: logs 95, 120. -/
def Obligations.TeamsChangeAndEnd : Prop :=
  ((∀ s q l n t, pendingReady s q = l → firstReady s l = some (n, t) → (n, t) ∈ l ∧ ∀ y ∈ l,
    let since := fun (u : Team) => u.readyAt.getD s.clock
    since t < since y.2 ∨ since t = since y.2 ∧ t.order ≤ y.2.order) ∧
  (∀ s q tid, firstReady s (pendingReady s q) = none → exec (.teamExchange q tid) s = .next s) ∧
  (∀ s q tid n u, firstReady s (pendingReady s q) = some (n, u) → s.teams.get? n = some u →
    let enters := fun (y : Team) => { y with
      active := true, enteredAt := s.clock, slice := sliceAt s (partOf s y) true, blockedUntil := s.clock + 4 }
    (s.teams.get? tid = none → activeCount s q < 8 → exec (.teamExchange q tid) s = .next (s.setTeam n (enters u))) ∧
    (s.teams.get? tid = none → 8 ≤ activeCount s q → exec (.teamExchange q tid) s = .next s) ∧
    (∀ t, s.teams.get? tid = some t → tid ≠ n →
      let ok := t.quarter = q ∧ t.active = true ∧ isPlaced s t = true ∧ isBlocked s tid t = true
      (ok → exec (.teamExchange q tid) s = .next ((s.setTeam tid { t with
        active := false, slice := 0, readyAt := t.readyAt.map fun _ => s.clock }).setTeam n (enters u))) ∧
      (¬ok → exec (.teamExchange q tid) s = .next s))) ∧
  (∀ s tid t, t.entries ≠ [] → (∀ e ∈ t.entries, e.hold ≠ .none) → isReady s tid t = false →
    isBlocked s tid t = true) ∧
  (∀ s tid t c, s.teams.get? tid = some t → s.crews.get? t.cid = some c →
    let now := (s.part c.part).tslice
    let lim := t.slice
    (lim = 0 ∨ now = 0 ∨ t.active = false ∨ t.handler = true ∨ t.hostAtomic.isSome = true ∨ s.clock < t.enteredAt + 256 * lim →
      exec (.timeSliceExpiry tid) s = .next s) ∧
    (lim ≠ 0 → now ≠ 0 → t.active = true → c.placed = true → t.handler = false → t.hostAtomic = none → t.enteredAt + 256 * lim ≤ s.clock →
      let l := (pendingReady s t.quarter).filter fun y => c.cls ≤ classOf s y.2
      let top := l.filter fun y => classOf s y.2 == topClass s l
      (firstReady s top = none → exec (.timeSliceExpiry tid) s = .next (s.setTeam tid { t with
        enteredAt := s.clock, slice := now.toNat })) ∧
      (∀ n u, firstReady s top = some (n, u) → s.teams.get? n = some u → n ≠ tid → exec (.timeSliceExpiry tid) s =
        .next ((s.setTeam tid { t with active := false, slice := 0, readyAt := t.readyAt.map fun _ => s.clock }).setTeam n
          { u with active := true, enteredAt := s.clock, slice := sliceAt s (partOf s u) true, blockedUntil := s.clock + 4 }))))) ∧
  (∀ s tid t c, s.teams.get? tid = some t → s.crews.get? t.cid = some c →
    let quiet := t.entries = [] ∧ t.hostAtomic = none ∧ (∀ w ∈ t.writes, w.2.failed.isSome = true) ∧
      (∀ y ∈ s.copies, ∀ b n, y.2.owner = .team tid b n → y.2.fault.isSome = true ∧ y.2.flight = []) ∧
      ∀ y ∈ s.spin, y.2.tid = some tid → y.2.done = true
    (¬quiet → exec (.teamEnd tid) s = .next s) ∧
    (quiet → ∃ s', exec (.teamEnd tid) s = .next s' ∧ s'.teams.get? tid = none ∧
      (unreported s tid = none → ∀ n, n ≠ tid → s'.teams.get? n = s.teams.get? n) ∧
      (∀ y ∈ s'.copies, ∀ b n, y.2.owner ≠ .team tid b n) ∧ (∀ y ∈ s'.spin, y.2.tid ≠ some tid) ∧
      ((∃ y ∈ s.teams, y.1 ≠ tid ∧ y.2.cid = t.cid) → s'.crews = s.crews ∧ s'.tileOwner = s.tileOwner) ∧
      ((∀ y ∈ s.teams, y.2.cid = t.cid → y.1 = tid) → s'.crews.get? t.cid = none ∧ (∀ y ∈ s'.tags, y.2.cid ≠ t.cid) ∧
        (∀ y ∈ c.queueMap, ∀ n ∈ y.2, s'.mqOwner.get? (8 * y.1 + n) = none ∧ s'.mqs.get? (8 * y.1 + n) = none) ∧
        (∀ y ∈ c.tileMap, ∀ n ∈ y.2, let k := tileKey y.1 c.cls n
          (s.spilled.getD k [] = [] → s'.tileOwner.get? k = none) ∧
          (∀ x r, s.spilled.get? k = some (x :: r) → (∀ z ∈ x :: r, z.owner ≠ 2 * t.cid) →
            (c.tileMap.flatMap fun y => y.2.map (tileKey y.1 c.cls)).Nodup → s'.tileOwner.get? k = some x.owner ∧ s'.tile k = x.tile)) ∧
        ∀ e, s.entryOf c.part c.seq = some e → ∃ e', s'.entryOf c.part c.seq = some e' ∧ e'.ended = e.ended + 1) ∧
      ∀ e, s.entryOf c.part c.seq = some e → ∃ e', s'.entryOf c.part c.seq = some e' ∧
        (unreported s tid = none → e'.status = e.status) ∧
        (∀ f, unreported s tid = some f → (∀ g, e.status ≠ .faulted g) → e'.status =
          .faulted { code := f.code, engine := 3, core := f.core, addr := some f.addr, detail := 0 })))

/-! ### Hoist copies and barriers -/

/-- HCOPY in its five forms: with addresses, alignment, ranges and counts as the form asks, the copy joins the open batch and reaches the
Hoist of the team's core; one of no bytes is complete at once; a form without a participant does nothing (R111, R112, R277 to R284).
Readings and choices of the model that clauses rest on: log 55. -/
def Obligations.CopiesIssue : Prop :=
  ∀ (s : State) (x : Ctx) (c : Ctl),
    let idle := fun (i : Instr) => Ready s i x → x.m = 0 → ∃ s' t', Completes i s x [] [] [] s' t'
    let inside := fun (sp : Space) (a n : Nat) => match sp with
      | .g => True
      | .w => n = 0 ∨ a + n ≤ x.crew.winBytes
      | .l => n = 0 ∨ a + n ≤ (x.crew.seg x.core).2
    let place := fun (sp : Space) (a : Nat) => match sp with
      | .g => CAddr.g a
      | .w => .w x.t.cid a
      | .l => .w x.t.cid ((x.crew.seg x.core).1 + a)
    let barrier := fun (b : Option BarRef) (y : Option (Nat × Bool × Bool)) => match b with
      | none => y = none
      | some r => ∃ a, a = (x.t.s r.bar.val).toNat ∧ a < 2 ^ 32 ∧ a % 16 = 0 ∧ a + 16 ≤ x.crew.winBytes ∧ y = some (a, r.inbound, r.outbound)
    let copies := fun (i : Instr) (src dst : CAddr) (kind : CKind) (bytes : Nat) (bar : Option BarRef) =>
      Ready s i x → x.m ≠ 0 → ∀ y, barrier bar y →
      let u : Team := { x.t with copyNo := x.t.copyNo + 1 }
      let z : Copy := {
        owner := .team x.tid (x.t.sealed + 1) (x.t.copyNo + 1), core := some x.core, part := x.part, src, dst, kind, bar := y, pc := x.e.pc
        since := s.clock }
      (bytes = 0 → ∃ s' t', Does i s x s u s' t') ∧
      (bytes ≠ 0 → ∃ s' t', Does i s x { s with nextAge := s.nextAge + 1, copies := s.copies.set s.nextAge z } u s' t')
    let f := fun (r : SReg) lo n => (x.t.s r.val).toNat / 2 ^ lo % 2 ^ n
    (∀ ds ss dst src cnt bar, let i := Instr.hcopyCopy c ds ss dst src cnt bar
      let n := f cnt 0 32
      idle i ∧ ∀ d a, x.t.base? ds dst = some d → x.t.base? ss src = some a → inside ds d n → inside ss a n →
        copies i (place ss a) (place ds d) (.copy n) n bar) ∧
    (∀ ds ss dst src cnt bar fmt (stride : BitVec 18), let i := Instr.hcopyPlane c ds ss dst src cnt bar fmt stride
      let k := f cnt 0 32
      let m := f cnt 32 16
      let row := (k * fmt.bits + 7) / 8
      let bytes := (m + 15) / 16 * ((k + 15) / 16) * fmt.record
      idle i ∧ ∀ d a, x.t.base? ds dst = some d → x.t.base? ss src = some a → 1 ≤ stride.toNat → row ≤ stride.toNat → 1 ≤ k →
        k ≤ 2 ^ 19 → 1 ≤ m → d % 32 = 0 → inside ds d bytes → inside ss a ((m - 1) * stride.toNat + row) →
        copies i (place ss a) (place ds d) (.plane fmt stride.toNat k m) bytes bar) ∧
    (∀ ds ss dst src cnt bar side (sl : BitVec 4) (stride : BitVec 16), ds ≠ .g →
      let i := Instr.hcopySplit c ds ss dst src cnt bar side sl stride
      let k := f cnt 0 32
      let n := f cnt 32 16
      let g := (k + 15) / 16
      let d := f dst 0 32
      let e := f dst 32 32
      let row := if side then n else k
      let digits := if side then sl.toNat * (16 * g) * n else (n + 15) / 16 * sl.toNat * g * 256
      let exps := if side then 2 * n else 2 * (16 * ((n + 15) / 16))
      let at_ := if ds = .l then (x.crew.seg x.core).1 + e else e
      idle i ∧ ∀ a, x.t.base? ss src = some a → 1 ≤ sl.toNat → sl.toNat ≤ 9 → 1 ≤ stride.toNat → row ≤ stride.toNat → 1 ≤ k →
        k ≤ 2 ^ 19 → 1 ≤ n → d % 32 = 0 → e % 2 = 0 → a % 8 = 0 → inside ds d digits → inside ds e exps →
        inside ss a (8 * (((if side then k else n) - 1) * stride.toNat + row)) →
        copies i (place ss a) (place ds d) (.split side sl.toNat stride.toNat k n at_) (digits + exps) bar) ∧
    (∀ ss (q : QReg) src cnt bar, let i := Instr.hcopyMask c ss q src cnt bar
      let n := f cnt 0 32
      idle i ∧ ∀ a, x.t.base? ss src = some a → a % 32 = 0 → inside ss a (32 * n) → (queueOf x q).isSome = true →
        copies i (place ss a) (place ss a) (.mask q.val n) (32 * n) bar) ∧
    (∀ ds ss dst src cnt bar (size : BitVec 2), let i := Instr.hcopyGather c ds ss dst src cnt bar size
      let n := f cnt 0 32
      let index := f cnt 32 32
      let z := 4 * 2 ^ size.toNat
      idle i ∧ ∀ d a, x.t.base? ds dst = some d → x.t.base? ss src = some a → d % z = 0 → a % z = 0 → index % 4 = 0 →
        inside ds d (z * n) → (4 * n = 0 ∨ index + 4 * n ≤ x.crew.winBytes) →
        copies i (place ss a) (place ds d) (.gather z n index) (z * n) bar)

/-- BSEAL closes the open batch and writes its number. BWAIT completes, with an acquire at crew scope, when its batches have, and traps with
the fault of the lowest batch's first faulted operation, which is then complete (R112, R114, R285, R286). A Hoist's chunks: the oldest
startable copy of the core starts its next 4 KiB chunk, reading its source; a chunk that lands writes its bytes at its place, and the
copy with nothing left is complete. A full Hoist, or one with nothing to start, does nothing; the first failed chunk stops the copy and
is kept as its fault (R111, R113, R114, R279, R280). A chunk of a copy to an unaligned destination ends at an aligned word of it, so
that no word lands in two steps (the model's reading). Readings and choices of the model that clauses rest on: logs 9, 34, 54, 66, 90,
114. -/
def Obligations.CopiesComplete : Prop :=
  ((∀ s x c d, Ready s (.bseal c d) x →
    (x.m = 0 → ∃ s' t', Completes (.bseal c d) s x [] [] [] s' t') ∧
    (x.m ≠ 0 → x.t.sealed + 1 < 2 ^ 32 → ∃ s' t',
      Does (.bseal c d) s x s (Team.setS { x.t with sealed := x.t.sealed + 1 } d.val (BitVec.ofNat 64 (x.t.sealed + 1))) s' t') ∧
    (x.m ≠ 0 → 2 ^ 32 ≤ x.t.sealed + 1 → exec (.bseal c d) s = .next (raise s x (.bseal c d) { code := 0x0502 }))) ∧
  (∀ s x c b, let i := Instr.bwait c b
    let n := min (match b with
      | .reg r => (x.t.s r.val).toNat
      | .imm w => w.toNat) x.t.sealed
    Ready s i x →
    (x.m = 0 → ∃ s' t', Completes i s x [] [] [] s' t') ∧
    (x.m ≠ 0 → (∀ y ∈ s.copies, ∀ b n', y.2.owner = .team x.tid b n' → b ≤ n → False) →
      (∀ y ∈ s.spin, y.2.tid = some x.tid → y.2.batch ≤ n → y.2.fault = none) →
      ∃ s' t', Does i s x (s.stale x.core) { x.t with readAt := some s.clock } s' t') ∧
    (∀ f, x.m ≠ 0 → firstFaulty (faultyOf s x.tid n) = some f → f.batch ≤ n ∧
      (∀ g ∈ faultyOf s x.tid n, f.batch < g.batch ∨ f.batch = g.batch ∧ f.no ≤ g.no) ∧
      exec i s = .next (raise (dropFaulty s f) x i { code := f.fault.code, addr := some f.fault.addr }))) ∧
  (∀ s x c b y, Ready s (.bwait c b) x → x.m ≠ 0 → y ∈ s.copies → ∀ k n', y.2.owner = .team x.tid k n' →
    (match b with
      | .reg r => k ≤ (x.t.s r.val).toNat
      | .imm w => k ≤ w.toNat) → k ≤ x.t.sealed → y.2.fault.isSome = true ∧ y.2.flight = [])) ∧
  (let skew := fun (x : Copy) => match x.dst with
    | .g a => a % 4
    | .w _ a => a % 4
    | .buf _ _ a => a % 4
  let lo := fun (x : Copy) (_ j : Nat) => 4096 * j - skew x
  let len := fun (x : Copy) (n j : Nat) => min (lo x n (j + 1)) n - lo x n j
  (∀ s core, 8 ≤ inFlight s core ∨ (∀ e ∈ s.copies, startable s core e.2 = false) → exec (.hoistChunkStart core) s = .next s) ∧
  (∀ s core age x n s1 v, inFlight s core < 8 → s.copies.find? (fun e => startable s core e.2) = some (age, x) → s.copies.get? age = some x →
    x.kind = .copy n → (∃ d a, x.dst = .w d a) ∨ (∃ p b o, x.dst = .buf p b o) →
    readAt (s.asking x.since) x.part core x.src (lo x n x.started) (len x n x.started) = .ok (s1, v) → (∀ a, x.bar ≠ some a) → s1.copies = s.copies →
    ∃ y, exec (.hoistChunkStart core) s = .next { s1 with copies := s.copies.set age y } ∧
      y = { x with started := x.started + 1, since := s.clock, held := [], flight := y.flight, flightCore := x.flightCore.set x.started core
                   flightAt := x.flightAt.set x.started s.clock } ∧
      y.flight = x.flight.set x.started ((List.range (len x n x.started)).map fun j => BitVec.ofNat 8 (v / 2 ^ (8 * j)))) ∧
  (∀ s p core cid a off n, let win := match s.crews.get? cid with
      | some c => c.winBytes
      | none => 0
    let bad := s.poisonWin ≠ [] ∧ rangePoisoned s (.window cid) (a + off) n = true
    (a + off + n ≤ win → ¬bad → readAt s p core (.w cid a) off n = .ok (s, (s.memOf (.window cid)).read (a + off) n)) ∧
    (a + off + n ≤ win → bad → readAt s p core (.w cid a) off n = .error (⟨0x0902, a + off, none⟩, s)) ∧
    (win < a + off + n → readAt s p core (.w cid a) off n = .error (⟨0x0301, a + off, none⟩, s))) ∧
  (∀ s core age x f s1, inFlight s core < 8 → s.copies.find? (fun e => startable s core e.2) = some (age, x) → s.copies.get? age = some x →
    (∃ n, x.kind = .copy n ∧ readAt (s.asking x.since) x.part core x.src (lo x n x.started) (len x n x.started) = .error (f, s1)) →
    x.fault = none → x.flight = [] → f.code ≠ 0x0902 → s1.copies = s.copies → (∃ t b n, x.owner = .team t b n) → f.walk = none →
    let y : Copy := { x with fault := some { code := f.code, addr := f.addr, core } }
    exec (.hoistChunkStart core) s = .next { s1 with copies := s.copies.set age y }) ∧
  (∀ s age j, (∀ x, s.copies.get? age = some x → x.flight.get? j = none) → exec (.hoistChunkLand age j) s = .next s) ∧
  (∀ s age j x bs cid a crew n, s.copies.get? age = some x → x.flight.get? j = some bs → x.kind = .copy n → x.dst = .w cid a →
    s.crews.get? cid = some crew → bs.length = len x n j → x.fault = none →
    ∃ s', exec (.hoistChunkLand age j) s = .next s' ∧
      (x.bar = none → ∀ st i, (s'.memOf st).byte i =
        if st = .window cid ∧ a + lo x n j ≤ i ∧ i < a + lo x n j + bs.length then bs.getD (i - (a + lo x n j)) 0 else (s.memOf st).byte i) ∧
      (x.started = x.chunks → (∀ k, k ≠ j → x.flight.get? k = none) → s'.copies.get? age = none) ∧
      (x.started < x.chunks → ∃ y, s'.copies.get? age = some y ∧ y.flight.get? j = none ∧ y.started = x.started)))

/-- The barrier object is 16 bytes with the fields of Table 06.2. INIT sets it; an arrival takes one from PENDING, and the phase completes
when PENDING and INBOUND are both zero; EXPECT adds to a count, and completes a phase whose both counts it leaves zero. An arrival that
finds both zero, as a plain store can have left them, arrives in the next phase, which is the model's reading (log 91). WAIT, WAITOUT
and TEST acquire at crew scope; a chunk that lands is taken off INBOUND, and an overrun is kept (R113, R131 to R134, R287 to R289). A
form that reads an object in an uncorrectable line stops the team (Table 24.1). Readings and choices of the model that clauses rest on:
logs 9, 55, 91. -/
def Obligations.Barriers : Prop :=
  (∀ v, v < 2 ^ 128 → let b := Bar.ofNat v
    b.toNat = v ∧ b.gen = v % 16 ∧ (b.overrun = true ↔ v / 16 % 2 = 1) ∧ b.pending = v / 2 ^ 8 % 2 ^ 16 ∧ b.expected = v / 2 ^ 24 % 2 ^ 16 ∧
      b.inbound = v / 2 ^ 40 % 2 ^ 32 ∧ b.outbound = v / 2 ^ 72 % 2 ^ 32) ∧
  (∀ (b : Bar) n,
    b.settled = (if b.pending = 0 ∧ b.inbound = 0 then { b with gen := (b.gen + 1) % 16, pending := b.expected } else b) ∧
    b.land n = (if b.inbound < n then { b with inbound := 0, overrun := true } else { b with inbound := b.inbound - n } : Bar).settled ∧
    b.readOut n = (if b.outbound < n then { b with outbound := 0, overrun := true } else { b with outbound := b.outbound - n })) ∧
  ∀ s x c (r : SReg),
    let a := (x.t.s r.val).toNat
    let b := Bar.ofNat (x.crew.window.read a 16)
    let bar := fun (y : Bar) => s.setCrew x.t.cid { x.crew with window := x.crew.window.write a 16 y.toNat }
    let value := fun (n : SB) => match n with
      | .reg k => (x.t.s k.val).toNat
      | .imm w => w.toNat
    let does := fun (i : Instr) (s1 : State) (u : Team) => ∃ s' t', Does i s x s1 u s' t'
    let traps := fun (i : Instr) (code : Nat) => exec i s = .next (raise s x i { code })
    let noFailed := ∀ w ∈ x.t.writes, w.2.failed = none ∨ w.2.spill = true
    (∀ i, i ∈ [Instr.barWaitout c r] ∨ (∃ n, i = .barInit c r n ∨ i = .barExpect c false r n ∨ i = .barExpect c true r n ∨
        i = .barWait c r n) ∨ (∃ d, i = .barArrive c d r) ∨ (∃ d n, i = .barArrivex c d r n) ∨ (∃ d n, i = .barTest c d r n) → Ready s i x →
      (x.m = 0 → ∃ s' t', Completes i s x [] [] [] s' t') ∧
      (x.m ≠ 0 → 2 ^ 32 ≤ a → traps i 0x0102) ∧
      (x.m ≠ 0 → a < 2 ^ 32 → a % 16 ≠ 0 → exec i s = .next (raise s x i { code := 0x0303, addr := some a })) ∧
      (x.m ≠ 0 → a < 2 ^ 32 → a % 16 = 0 → x.crew.winBytes < a + 16 → exec i s = .next (raise s x i { code := 0x0301, addr := some a }))) ∧
    (x.m ≠ 0 → a < 2 ^ 32 → a % 16 = 0 → a + 16 ≤ x.crew.winBytes → barPoisoned s x a = true →
      ∀ i, i = .barWaitout c r ∨ (∃ n, i = .barExpect c false r n ∨ i = .barExpect c true r n ∨ i = .barWait c r n) ∨
        (∃ d, i = .barArrive c d r) ∨ (∃ d n, i = .barArrivex c d r n) ∨ (∃ d n, i = .barTest c d r n) → Ready s i x →
      exec i s = .next (loseTeam s x.tid (lostIn s x.t.cid [(a, 16)]))) ∧
    (x.m ≠ 0 → a < 2 ^ 32 → a % 16 = 0 → a + 16 ≤ x.crew.winBytes → barPoisoned s x a = false →
      (∀ n, Ready s (.barInit c r n) x → (value n = 0 ∨ 65535 < value n → traps (.barInit c r n) 0x0502) ∧
        (1 ≤ value n → value n ≤ 65535 → does (.barInit c r n)
          (bar { gen := 0, overrun := false, pending := value n, expected := value n, inbound := 0, outbound := 0 }) x.t)) ∧
      (∀ d : SReg, noFailed → Ready s (.barArrive c d r) x → b.settled.pending ≠ 0 ∧
        does (.barArrive c d r) (bar ({ b.settled with pending := b.settled.pending - 1 } : Bar).settled)
          (x.t.setS d.val (BitVec.ofNat 64 b.settled.gen))) ∧
      (∀ (d : SReg) n, noFailed → Ready s (.barArrivex c d r n) x → b.settled.pending ≠ 0 ∧
        (2 ^ 32 ≤ b.settled.inbound + value n → traps (.barArrivex c d r n) 0x0502) ∧
        (b.settled.inbound + value n < 2 ^ 32 → does (.barArrivex c d r n)
          (bar ({ b.settled with inbound := b.settled.inbound + value n, pending := b.settled.pending - 1 } : Bar).settled)
          (x.t.setS d.val (BitVec.ofNat 64 b.settled.gen)))) ∧
      (∀ n, Ready s (.barExpect c false r n) x →
        (2 ^ 32 ≤ b.inbound + value n → traps (.barExpect c false r n) 0x0502) ∧
        (b.inbound + value n < 2 ^ 32 → does (.barExpect c false r n) (bar ({ b with inbound := b.inbound + value n } : Bar).settled) x.t)) ∧
      (∀ n, Ready s (.barExpect c true r n) x →
        (2 ^ 32 ≤ b.outbound + value n → traps (.barExpect c true r n) 0x0502) ∧
        (b.outbound + value n < 2 ^ 32 → does (.barExpect c true r n) (bar ({ b with outbound := b.outbound + value n } : Bar).settled) x.t)) ∧
      (∀ n, Ready s (.barWait c r n) x → (b.overrun = true → traps (.barWait c r n) 0x0502) ∧
        (b.overrun = false → barFault s x.tid a = none →
          b.gen ≠ value n % 16 ∧ does (.barWait c r n) (s.stale x.core) { x.t with readAt := some s.clock })) ∧
      (Ready s (.barWaitout c r) x → (b.overrun = true → traps (.barWaitout c r) 0x0502) ∧
        (b.overrun = false → barFault s x.tid a = none → b.outbound = 0 ∧
          does (.barWaitout c r) (s.stale x.core) { x.t with readAt := some s.clock })) ∧
      (∀ (d : PReg) n, Ready s (.barTest c d r n) x → ∃ s' t',
        Does (.barTest c d r n) s x (if b.gen = value n % 16 then s else s.stale x.core) { x.t with
            preds := t'.preds, readAt := if b.gen = value n % 16 then x.t.readAt else some s.clock } s' t' ∧
        (∀ l ∈ x.ls, (t'.p d.val).getLsbD l = (d.val == 0 || b.gen != value n % 16)) ∧
        (∀ l, x.m.getLsbD l = false → (t'.p d.val).getLsbD l = (x.t.p d.val).getLsbD l) ∧ ∀ k, k ≠ d.val → t'.p k = x.t.p k))

/-! ### The Spindle and the routers -/

/-- The forms of pipe C reach the Spindle of the team's core when their tiles, queue, alignment and ranges are in order, at the team's
class; LOAD, OUT and SPILL join the open batch. MQ.STAT and MQ.FLUSH act on the queue at once (R108, R115, R291 to R298). NRED.PUSH
gives the 128 bytes at its window address to the core's router and NRED.WAIT ends the push, writing the result at the root and with
.bcast; a push of an uncorrectable line stops the team (Table 24.1); a push by a core that is no member, or a wait without a push, is
0x0B02 (R299, R301, R316). Readings and choices of the model that clauses rest on: log 22. -/
def Obligations.SpindleOperations : Prop :=
  (∀ (s : State) (x : Ctx) (c : Ctl),
    let f := fun (r : SReg) lo n => (x.t.s r.val).toNat / 2 ^ lo % 2 ^ n
    let win := fun (a n : Nat) => n = 0 ∨ a + n ≤ x.crew.winBytes
    let mine := fun (q : QSel) => q.masked = true → (queueOf x q.q).isSome = true
    let enters := fun (i : Instr) (kind : SKind) (joins : Bool) => Ready s i x → x.m ≠ 0 → ∃ s' t',
      let op : SpinOp := {
        core := x.core, cls := x.crew.cls, tid := some x.tid, cid := some x.t.cid, pc := x.e.pc, since := s.clock, kind
        batch := if joins then x.t.sealed + 1 else 0, no := if joins then x.t.copyNo + 1 else 0 }
      Does i s x { s with nextAge := s.nextAge + 1, spin := s.spin.set s.nextAge op }
        { x.t with copyNo := if joins then x.t.copyNo + 1 else x.t.copyNo } s' t'
    let idle := fun (i : Instr) => Ready s i x → x.m = 0 → ∃ s' t', Completes i s x [] [] [] s' t'
    let size := fun (pair : Bool) => if pair then 2 else 1
    (∀ (d : TileNo) a b (q : QSel) (m1 : BitVec 4) bf (af : AFmt) (planes : BitVec 4), let i := Instr.mmp c d a b q m1 bf af planes
      let m := m1.toNat + 1
      let g := f a 32 32
      let av := f a 0 32
      let bv := f b 0 32
      idle i ∧ (1 ≤ planes.toNat → planes.toNat ≤ af.planes → 1 ≤ g → d.val + m ≤ x.crew.tiles → mine q → av % 32 = 0 →
        bv % 32 = 0 → win av (m * g * af.record) → win bv (16 * g * 256 * bf.bytes) →
        enters i (.mmp av g bv m planes.toNat af bf (if q.masked then some q.q.val else none) ((List.range m).map fun r => d.val + r)) false) ∧
      (Ready s i x → x.m ≠ 0 → g = 0 → exec i s = .next (raise s x i { code := 0x0601 }))) ∧
    (∀ (d : TileNo) a b (groups : BitVec 16) (w sl : BitVec 4), let i := Instr.mms c d a b groups w sl
      let g := groups.toNat
      let n := sl.toNat
      let av := f a 0 32
      let ea := f a 32 32
      let bv := f b 0 32
      let eb := f b 32 32
      idle i ∧ (1 ≤ n → n ≤ 9 → 1 ≤ g → g ≤ 32768 → w.toNat % 2 = 0 → w.toNat ≠ d.val → d.val + 2 ≤ x.crew.tiles →
        w.toNat + 2 ≤ x.crew.tiles → av % 32 = 0 → ea % 2 = 0 → bv % 32 = 0 → eb % 2 = 0 → win av (n * g * 256) → win ea 32 →
        win bv (n * (16 * g) * 256) → win eb 512 → enters i (.mms av ea bv eb g n d.val w.toNat) false)) ∧
    (∀ pair (d : TileNo), idle (.accZero c pair d) ∧ (d.val + size pair ≤ x.crew.tiles →
      enters (.accZero c pair d) (.zero pair d.val) false) ∧
      (Ready s (.accZero c pair d) x → x.m ≠ 0 → x.crew.tiles < d.val + size pair →
        exec (.accZero c pair d) s = .next (raise s x (.accZero c pair d) { code := 0x0202 }))) ∧
    (∀ pair (d : TileNo) a, idle (.accLoad c pair d a) ∧ (d.val + size pair ≤ x.crew.tiles → f a 0 32 % 128 = 0 →
      win (f a 0 32) (16384 * size pair) → enters (.accLoad c pair d a) (.load pair d.val (f a 0 32)) true)) ∧
    (∀ pair (d : TileNo) a b (q : QSel) (fmt : BitVec 4) ovf rm, let i := Instr.accOut c pair d a b q fmt ovf rm
      let rs := f b 0 32
      let cs := f b 32 32
      idle i ∧ (fmt.toNat ≤ 13 → d.val + size pair ≤ x.crew.tiles → mine q → f a 0 32 % 32 = 0 → (rs = 0xFFFFFFFF ∨ rs % 4 = 0 ∧ win rs 64) →
        (cs = 0xFFFFFFFF ∨ cs % 4 = 0 ∧ win cs 1024) → win (f a 0 32) (4096 * fmtBytes (fmtOfCode fmt.toNat)) →
        enters i (.out pair d.val (f a 0 32) rs cs (if q.masked then some q.q.val else none) fmt.toNat ovf rm) true)) ∧
    (∀ pair (d a : TileNo), idle (.accMove c pair d a) ∧ (d.val + size pair ≤ x.crew.tiles → a.val + size pair ≤ x.crew.tiles →
      enters (.accMove c pair d a) (.move pair d.val a.val) false)) ∧
    (∀ pair (d : TileNo) (a : SReg), idle (.accSpill c pair d a) ∧ (d.val + size pair ≤ x.crew.tiles →
      enters (.accSpill c pair d a) (.spill pair d.val ((x.t.s a.val).toNat + 2 ^ 64 * (x.t.s (a.val + 1)).toNat)) true)) ∧
    (∀ (d : SReg) (q : QReg) n, idle (.mqStat c d q) ∧ (Ready s (.mqStat c d q) x → x.m ≠ 0 →
      (queueOf x q = some n → ∃ s' t', Does (.mqStat c d q) s x s
        (x.t.setS d.val (BitVec.ofNat 64 (s.mqs.getD (8 * x.core + n) []).length)) s' t') ∧
      (queueOf x q = none → exec (.mqStat c d q) s = .next (raise s x (.mqStat c d q) { code := 0x0602 })))) ∧
    (∀ (q : QReg) n, idle (.mqFlush c q) ∧ (Ready s (.mqFlush c q) x → x.m ≠ 0 →
      (queueOf x q = some n → ∃ s' t', Does (.mqFlush c q) s x { s with mqs := s.mqs.erase (8 * x.core + n) } x.t s' t') ∧
      (queueOf x q = none → exec (.mqFlush c q) s = .next (raise s x (.mqFlush c q) { code := 0x0602 }))))) ∧
  (∀ (s : State) (x : Ctx) (c : Ctl) (a : SReg) (t : BitVec 4),
    let n := (x.t.s a.val).toNat % 2 ^ 32
    let words := (List.range 32).map fun j => BitVec.ofNat 32 (x.crew.window.read (n + 4 * j) 4)
    let r := routerOf s x.part t.toNat x.core
    let i := Instr.nredPush c a t
    (Ready s i x →
      (x.m = 0 → ∃ s' t', Completes i s x [] [] [] s' t') ∧
      (x.m ≠ 0 → n % 128 = 0 → n + 128 ≤ x.crew.winBytes → isMember s x.part t.toNat x.core = false →
        exec i s = .next (raise s x i { code := 0x0B02 })) ∧
      (x.m ≠ 0 → n % 128 = 0 → n + 128 ≤ x.crew.winBytes → isMember s x.part t.toNat x.core = true →
        (∀ w ∈ x.t.writes, w.2.failed = none ∨ w.2.spill = true) →
        let bad := rangePoisoned s (.window x.t.cid) n 128
        let f : Flit := { cid := x.t.cid, addr := n, vals := words, at_ := s.clock }
        (bad = true → exec i s = .next (loseTeam s x.tid (lostIn s x.t.cid [(n, 128)]))) ∧
        (bad = false → r.flit = none ∧ ∃ s' t', Does i s x (s.setRouter x.part t.toNat x.core { r with flit := some f })
          { x.t with pushes := x.t.pushes.set t.toNat { core := x.core, round := r.count } } s' t'))) ∧
    ∀ bcast, let i := Instr.nredWait c a t bcast
      Ready s i x →
        (x.m = 0 → ∃ s' t', Completes i s x [] [] [] s' t') ∧
        (x.m ≠ 0 → x.t.pushes.get? t.toNat = none → exec i s = .next (raise s x i { code := 0x0B02 })) ∧
        (∀ y, x.m ≠ 0 → x.t.pushes.get? t.toNat = some y → n % 128 = 0 → n + 128 ≤ x.crew.winBytes →
          let home := routerOf s x.part t.toNat y.core
          let s1 := if home.count = y.round then s.setRouter x.part t.toNat y.core
            { home with flit := home.flit.map fun f => { f with frozen := true } } else s
          let u : Team := { x.t with pushes := x.t.pushes.erase t.toNat }
          (bcast = false → isRoot s x.part t.toNat y.core = false → y.told = true ∨ home.own.get? y.round = none →
            (home.flit = none ∨ home.count ≠ y.round) ∧ ∃ s' t', Does i s x (s1.stale x.core) u s' t') ∧
          (bcast = true ∨ isRoot s x.part t.toNat y.core = true → ∃ z, home.results.get? y.round = some z ∧
            (z.report = none → z.vals.length = 32 → ∃ s' t', exec i s = .next s' ∧ s'.teams.get? x.tid = some t' ∧ t'.pushes = u.pushes ∧
              t'.sregs = x.t.sregs ∧ t'.vregs = x.t.vregs ∧ GoesOn x t' ∧ ∀ st b, (s'.memOf st).byte b =
                if st = .window x.t.cid ∧ n ≤ b ∧ b < n + 128 then
                  ((z.vals.getD ((b - n) / 4) 0) >>> (8 * ((b - n) % 4))).setWidth 8 else (s.memOf st).byte b))))

/-- What the Spindle does. SPINDLE_OP_COMPLETE runs the oldest operation of the highest class to its end; an unmasked MMP accumulates its
K-groups in ascending order in every element of its tiles; ACC.ZERO makes a tile +0. SPINDLE_CLASS_PREEMPT puts an operation under way
with some units of it done; one that a higher class has overtaken stops at the end of its unit. With nothing to run, nothing happens
(R39, R83, R84, R92, R291, R294, R296). The plane records hold what they were made of: an element read with all its planes is the
element that the record was built from, of every integer and float format (R79 to R81, R281). A router combines its flit with its
children's partials in the order west, north, east, south, each sum rounded to nearest even, and sends the sum upward; at the root it is
the result of every member. It takes a child's partial of its own round, discards one of an earlier round and leaves a later one (round
numbers count modulo 256; which of two is earlier is the model's reading); when a child is missing past NREDLIM it goes on without it,
and reports it (R300, R316, R374). The router of a root whose core is out of service completes every round without a flit of its own and
reports that (R387); that it waits from the first partial it accepts, and its own report, are the model's choices (log 133). Readings
and choices of the model that clauses rest on: logs 64, 68, 69, 94, 133. -/
def Obligations.SpindleRunsAndReductions : Prop :=
  ((∀ s core, spinOps s core = [] → exec (.spindleOpComplete core) s = .next s ∧ ∀ n, exec (.spindleClassPreempt core n) s = .next s) ∧
  (∀ l age x, bestOp l = some (age, x) → (age, x) ∈ l ∧ ∀ y ∈ l, y.2.cls ≤ x.cls) ∧
  (∀ s core age x cid c d, bestOp (spinOps s core) = some (age, x) → s.spin.get? age = some x → x.cid = some cid →
    s.crews.get? cid = some c → x.cursor = 0 → x.fault = none → x.core = core →
    (x.kind = .zero false d → (s.tile (c.tileAt core d)).kind ≠ .f64 → exec (.spindleOpComplete core) s =
      .next { s with tiles := s.tiles.set (c.tileAt core d) { kind := .f32 }, spin := s.spin.erase age, spinNow := s.spinNow.erase core }) ∧
    (∀ a g b m planes (af : AFmt) (bf : BFmt), s.poisonWin = [] → x.kind = .mmp a g b m planes af bf none ((List.range m).map fun r => d + r) → 1 ≤ g →
      (∀ r, r < m → (s.tile (c.tileAt core (d + r))).kind ≠ .f64) →
      (∀ r q, r < m → q < m → c.tileAt core (d + r) = c.tileAt core (d + q) → r = q) →
      ∃ s', exec (.spindleOpComplete core) s = .next s' ∧ SameBytes s s' ∧ s'.spin = s.spin.erase age ∧ s'.teams = s.teams ∧
        (∀ k, (∀ r, r < m → k ≠ c.tileAt core (d + r)) → s'.tiles.get? k = s.tiles.get? k) ∧
        ∀ r i j, r < m → i < 16 → j < 256 → (s'.tile (c.tileAt core (d + r))).word (256 * i + j) =
          (List.range g).foldl (fun acc q => groupStep af bf planes (c.window.read (a + (r * g + q) * af.record) af.record) (2 ^ 256 - 1) i
            (fun k => c.window.read (b + (256 * (16 * q + k) + j) * bf.bytes) bf.bytes) acc)
            ((s.tile (c.tileAt core (d + r))).word (256 * i + j)))) ∧
  (∀ af bf p rec_ mask i b acc, intAcc af bf = true → mask < 2 ^ 256 → i < 16 →
    groupStep af bf p rec_ mask i b acc = ((signedNat 32 acc +
      ((List.range 16).map fun k => if mask.testBit (16 * i + k) then aInt af p rec_ i k * bInt bf (b k) else 0).sum) % 2 ^ 32).toNat) ∧
  (∀ s core n age x a g b m planes af bf tiles, bestOp (spinOps s core) = some (age, x) → s.spin.get? age = some x →
    x.kind = .mmp a g b m planes af bf none tiles → (∃ cid c, x.cid = some cid ∧ s.crews.get? cid = some c) → n < g - x.cursor → s.poisonWin = [] →
    (∀ low y, underWay s core = some (low, y) → x.cls ≤ y.cls) →
    ∃ s' o, exec (.spindleClassPreempt core n) s = .next s' ∧ SameBytes s s' ∧ s'.spin.get? age = some o ∧ o.cursor = x.cursor + n ∧
      o.kind = x.kind ∧ s'.spinNow.get? core = some age) ∧
  (∀ s core n age x low y a g b m planes af bf tiles, bestOp (spinOps s core) = some (age, x) → underWay s core = some (low, y) → y.cls < x.cls →
    s.spin.get? low = some y → y.kind = .mmp a g b m planes af bf none tiles → (∃ cid c, y.cid = some cid ∧ s.crews.get? cid = some c) →
    y.cursor + 1 < g → s.poisonWin = [] →
    ∃ s' o, exec (.spindleClassPreempt core n) s = .next s' ∧ SameBytes s s' ∧ s'.spin.get? low = some o ∧ o.cursor = y.cursor + min n 1 ∧
      o.kind = y.kind ∧ s'.spinNow.get? core = none)) ∧
  (∀ (f : AFmt) (e : Nat → Nat → Nat) i k, i < 16 → k < 16 → (∀ i k, e i k < 2 ^ f.bits) →
    (∀ j, j < f.side + f.planes → planeBit (planeRecord f e) j i k = elementPlane f (e i k) j) ∧
    (f.float? = none → aInt f f.planes (planeRecord f e) i k =
      if f = .i1 then (if e i k = 0 then 1 else -1)
      else if e i k < 2 ^ (f.bits - 1) then (e i k : Int) else e i k - 2 ^ f.bits) ∧
    (∀ g, f.float? = some g → aFloat g f.planes (planeRecord f e) i k = g.val (e i k))) ∧
  (∀ s p t core,
    let r := routerOf s p t core
    let byte := (treeByte s p t core).getD 0
    let kids := ([Port.west, .north, .east, .south].filterMap fun q => r.parts.get? q.code)
    let due := [Port.west, .north, .east, .south].filter fun q => byte / 2 ^ q.code % 2 == 1 && (r.parts.get? q.code).isNone
    let add := fun (ks : List Partial) (vals : List Word) => ks.foldl (fun acc (k : Partial) => (acc.zip k.vals).map fun y =>
      BitVec.ofNat 32 (FFmt.f32.round .rne ((FFmt.f32.val y.1.toNat).add .rne (FFmt.f32.val y.2.toNat)))) vals
    let sum := add kids
    let lost := isRoot s p t core = true ∧ (s.coreStatOf core).state = 2
    (isMember s p t core = false ∨ r.flit = none ∧ (¬lost ∨ r.parts = []) → exec (.routerFold p t core) s = .next s) ∧
    (due ≠ [] → exec (.routerFold p t core) s = .next s) ∧
    (∀ f c, isMember s p t core = true → r.flit = some f → due = [] → s.crews.get? f.cid = some c → flitWords c.window f.addr = f.vals →
      (isRoot s p t core = false → ∃ x : Partial, x.round = r.round ∧ x.vals = sum f.vals ∧
        ((∀ k ∈ kids, k.report = none) → x.report = none) ∧
        let r' : Router := { r with count := r.count + 1, flit := none, parts := [], since := none, sent := r.sent ++ [x] }
        exec (.routerFold p t core) s = .next { s.setRouter p t core r' with fresh := s.fresh + 1 }) ∧
      (isRoot s p t core = true → ∃ s' x, exec (.routerFold p t core) s = .next s' ∧ x.vals = sum f.vals ∧
        (routerOf s' p t core).results.get? r.count = some x ∧ (routerOf s' p t core).count = r.count + 1 ∧
        ∀ q n, byte / 2 ^ q.code % 2 = 1 → neighbour core q = some n → n ≠ core →
          (routerOf s' p t n).results.get? ((routerOf s' p t n).named r.round) = some x)) ∧
    (∀ q n x xs, isMember s p t core = true → neighbour core q = some n → n ≠ core → byte / 2 ^ q.code % 2 = 1 →
      (routerOf s p t n).sent = x :: xs →
      let popped := s.setRouter p t n { routerOf s p t n with sent := xs }
      (x.round = r.round → overdue s p t core = false → ∃ since, (lost → since = some (r.since.getD s.clock)) ∧ (¬lost → since = r.since) ∧
        exec (.routerPartialArrive p t core q) s =
          .next (popped.setRouter p t core { r with parts := r.parts.set q.code x, since })) ∧
      (x.round ≠ r.round → (r.round - x.round).toNat < 128 → exec (.routerPartialArrive p t core q) s = .next popped) ∧
      (128 ≤ (r.round - x.round).toNat ∨ x.round = r.round ∧ overdue s p t core = true → exec (.routerPartialArrive p t core q) s = .next s)) ∧
    (∀ f, r.flit = some f → due = [] ∨ s.clock < f.at_ + 256 * (s.part p).nredlim.toNat ∨ isMember s p t core = false →
      exec (.nredRouterTimeout p t core) s = .next s) ∧
    (∀ f c, r.flit = some f → due ≠ [] → f.at_ + 256 * (s.part p).nredlim.toNat ≤ s.clock → isMember s p t core = true →
      isRoot s p t core = false → s.crews.get? f.cid = some c → flitWords c.window f.addr = f.vals →
      ∃ s' x, exec (.nredRouterTimeout p t core) s = .next s' ∧ (routerOf s' p t core).sent = r.sent ++ [x] ∧ x.round = r.round ∧
        x.vals = sum f.vals ∧ (routerOf s' p t core).count = r.count + 1 ∧ (routerOf s' p t core).flit = none ∧
        (routerOf s' p t core).own.get? r.count = some { core, missing := (due.map fun q => 2 ^ q.code).sum } ∧
        ∃ y, x.report = some y ∧ y.core ≤ core) ∧
    (∀ k ks, isMember s p t core = true → lost → r.flit = none → kids = k :: ks →
      let ends := fun (i : Instr) (missing : Nat) => ∃ s' x, exec i s = .next s' ∧ x.vals = add ks k.vals ∧
        (∃ y, x.report = some y ∧ y.core ≤ core) ∧ (routerOf s' p t core).results.get? r.count = some x ∧
        (routerOf s' p t core).count = r.count + 1 ∧ (routerOf s' p t core).own.get? r.count = some { core, missing }
      (due = [] → ends (.routerFold p t core) 0) ∧
      ∀ n, due ≠ [] → r.since = some n →
        (s.clock < n + 256 * (s.part p).nredlim.toNat → exec (.nredRouterTimeout p t core) s = .next s) ∧
        (n + 256 * (s.part p).nredlim.toNat ≤ s.clock → ends (.nredRouterTimeout p t core) (due.map fun q => 2 ^ q.code).sum)))

/-! ### Ports, registers and service -/

/-- Requests at the ports. A time-out ends a request that has waited IOTMO × 256 cycles with 0x0A02, and an error completion one that has
not with its own code. The failed write of a team keeps the new or the old value in each aligned 8-byte part (bytes written again since
stay, R119) and waits to be reported; a failed write of a retired SSIGNAL does the same to memory and is only logged; a completion in
time performs a write. A failed read of LD or LDS is kept with its code and address for the trap, poisoned data (0x0A03) only from
pooled memory, whose line then stays poisoned; a failed ATOM leaves memory as it was, and a lane of one that pooled memory has performed
owes no answer (the model's choice, log 98). A failed chunk stops its copy, and with it the later chunks; a task's failed read faults
the task. A host atomic traps at its lane, and an Unsupported Request also sets AU. The reads of a clock that are answered at once fail
by their line (R138, R368 to R373). Readings and choices of the model that clauses rest on: logs 9, 34, 35, 36, 50, 98. -/
def Obligations.PortCompletions : Prop :=
  let code := fun (e : PortErr) => match e with
    | .unsupported | .abort => 0x0A01
    | .poison => 0x0A03
  let parts := fun (s s' : State) (w : OutWrite) => (∀ st, st ≠ .cxl → ∀ a, (s'.memOf st).byte a = (s.memOf st).byte a) ∧
    ∀ q, (∀ a, a / 8 = q → (s'.memOf .cxl).byte a = (s.memOf .cxl).byte a) ∨
      ∃ b, w.pa = some b ∧ ∀ a, a / 8 = q → (s'.memOf .cxl).byte a =
        if b ≤ a ∧ a < b + w.len ∧ ∀ r ∈ s.cxlLog.drop w.mark, ¬(r.1 ≤ a ∧ a < r.1 + r.2) then BitVec.ofNat 8 (w.old / 2 ^ (8 * (a - b)))
        else (s.memOf .cxl).byte a
  (∀ s tid idx t c w, s.teams.get? tid = some t → s.crews.get? t.cid = some c → t.writes.get? idx = some w → w.failed = none →
    let late := w.since + 256 * (s.part c.part).iotmo.toNat ≤ s.clock
    let fails := fun (i : Instr) (n : Nat) => ∃ s', exec i s = .next s' ∧
      s'.teams.get? tid = some { t with writes := t.writes.set idx { w with failed := some n } } ∧
      (∀ m, m ≠ tid → s'.teams.get? m = s.teams.get? m) ∧ parts s s' w
    (late → fails (.ioCompletionTimeout (.write tid idx)) 0x0A02) ∧
    (¬late → exec (.ioCompletionTimeout (.write tid idx)) s = .next s) ∧
    (∀ e, (¬late → fails (.portCompletionError (.write tid idx) e) (code e)) ∧
      (late → exec (.portCompletionError (.write tid idx) e) s = .next s)) ∧
    (s.clock ≤ w.since + 256 * (s.part c.part).iotmo.toNat → exec (.writeCompletionArrive tid idx) s =
      .next (s.setTeam tid { t with writes := t.writes.erase idx })) ∧
    (w.since + 256 * (s.part c.part).iotmo.toNat < s.clock → exec (.writeCompletionArrive tid idx) s = .next s)) ∧
  (∀ s tid idx lane t c x, s.teams.get? tid = some t → s.crews.get? t.cid = some c → t.producers[idx]? = some x → x.lm.getLsbD lane = true →
    let lds := ∃ a b d e f g h, x.insn = .lds a b d e f g h
    ∀ key, (lds → key = 0) → (¬lds → key = lane) → x.out.getLsbD key = true →
    let late := x.since + 256 * (s.part c.part).iotmo.toNat ≤ s.clock
    let va := x.base + (x.ops.getD key {}).a
    let spot := resolve s c.part t.core va { read := true, plain := true, bytes := 1 }
    let keeps := fun (s' : State) (l n : Nat) => ∃ t' y, s'.teams.get? tid = some t' ∧ t'.producers[idx]? = some y ∧
      y.faulted = true ∧ (∃ b, y.bad.get? l = some (n, b) ∧ (l = key → b = va)) ∧ y.vals.get? l = none ∧ y.lm = x.lm ∧
      ((∀ z ∈ t.producers, z.faulted = false) → t'.portFail.isSome = true) ∧ t'.vregs = t.vregs ∧ t'.emptyV = t.emptyV
    let fails := fun (i : Instr) (n : Nat) => ∃ s', exec i s = .next s' ∧ SameBytes s s' ∧ keeps s' key n
    (¬late → exec (.ioCompletionTimeout (.read tid idx lane)) s = .next s ∧
      ((∀ o, spot = .ok o → o.store ≠ .cxl) → exec (.portCompletionError (.read tid idx lane) .poison) s = .next s)) ∧
    ((late → fails (.ioCompletionTimeout (.read tid idx lane)) 0x0A02) ∧
      (¬late → fails (.portCompletionError (.read tid idx lane) .unsupported) 0x0A01 ∧
        fails (.portCompletionError (.read tid idx lane) .abort) 0x0A01 ∧
        ∀ o, spot = .ok o → o.store = .cxl → ∃ s', exec (.portCompletionError (.read tid idx lane) .poison) s = .next s' ∧ SameBytes s s' ∧
          keeps s' key 0x0A03 ∧ o.addr / 128 ∈ s'.poisonCxl))) ∧
  (∀ s p w l, (s.part p).ssig = w :: l →
    let late := w.since + 256 * (s.part p).iotmo.toNat ≤ s.clock
    let logs := fun (i : Instr) (n : BitVec 16) => ∃ s', exec i s = .next s' ∧ (s'.part p).iolog.valid = true ∧ (s'.part p).iolog.code = n ∧
      (s'.part p).iolog.engine = 7 ∧ (s'.part p).iolog.count.toNat = min 0xFFFF ((s.part p).iolog.count.toNat + 1) ∧
      (s'.part p).ssig = l ∧ (s'.part p).window = (s.part p).window ∧ parts s s' w ∧ s'.teams = s.teams
    (late → logs (.ioCompletionTimeout (.ssignal p)) 0x0A02) ∧
    (¬late → logs (.portCompletionError (.ssignal p) .unsupported) 0x0A01 ∧ logs (.portCompletionError (.ssignal p) .abort) 0x0A01)) ∧
  (∀ s age x j since rest bs n t b k va, s.copies.get? age = some x → x.flightAt = (j, since) :: rest → x.flight.get? j = some bs →
    x.kind = .copy n → x.owner = .team t b k → x.src = .g va → x.fault = none → chunkPorts s x j ≠ [] → chunkOuts s x j = [] →
    let late := since + 256 * (s.part x.part).iotmo.toNat ≤ s.clock
    let stops := fun (i : Instr) (e : Nat) => ∃ s' y f, exec i s = .next s' ∧ SameBytes s s' ∧ s'.copies.get? age = some y ∧
      y.started = j ∧ (∀ m, j ≤ m → y.flight.get? m = none) ∧ (∀ m, m < j → y.flight.get? m = x.flight.get? m) ∧
      y.fault = some f ∧ f.code = e ∧ f.addr = va + x.chunkAt j
    (late → stops (.ioCompletionTimeout (.chunk age)) 0x0A02) ∧
    (¬late → exec (.ioCompletionTimeout (.chunk age)) s = .next s ∧ stops (.portCompletionError (.chunk age) .unsupported) 0x0A01 ∧
      stops (.portCompletionError (.chunk age) .abort) 0x0A01)) ∧
  (∀ s age x j since rest bs n t b k va, s.copies.get? age = some x → x.flightAt = (j, since) :: rest → x.flight.get? j = some bs →
    x.kind = .copy n → x.owner = .team t b k → x.dst = .g va → x.fault = none → chunkPorts s x j = [] → chunkOuts s x j ≠ [] →
    let late := since + 256 * (s.part x.part).iotmo.toNat ≤ s.clock
    let stops := fun (i : Instr) (e : Nat) => ∃ s' y f, exec i s = .next s' ∧ s'.teams = s.teams ∧ s'.copies.get? age = some y ∧
      y.started = j ∧ (∀ m, j ≤ m → y.flight.get? m = none) ∧ (∀ m, m < j → y.flight.get? m = x.flight.get? m) ∧
      y.fault = some f ∧ f.code = e ∧ f.addr = va + x.chunkAt j
    (late → stops (.ioCompletionTimeout (.chunk age)) 0x0A02) ∧ (¬late → exec (.ioCompletionTimeout (.chunk age)) s = .next s) ∧
    stops (.portCompletionError (.chunk age) .unsupported) 0x0A01 ∧ stops (.portCompletionError (.chunk age) .abort) 0x0A01 ∧
    exec (.portCompletionError (.chunk age) .poison) s = .next s) ∧
  (∀ s p seq e va n o, s.entryOf p seq = some e → taskReads s p e = some (va, n) →
    resolve s p (128 + p) va { read := true, plain := decide (n ≤ 8), bytes := n } = .ok o → o.store.outside = true →
    (∀ f, e.status ≠ .faulted f) →
    let late := readSent s p e + 256 * (s.part p).iotmo.toNat ≤ s.clock
    let faults := fun (i : Instr) (k : Nat) => ∃ s' e' f, exec i s = .next s' ∧ SameBytes s s' ∧ s'.entryOf p seq = some e' ∧
      e'.status = .faulted f ∧ f.code = k ∧ f.addr = some va
    (late → faults (.ioCompletionTimeout (.task p seq)) 0x0A02) ∧ (¬late → exec (.ioCompletionTimeout (.task p seq)) s = .next s) ∧
    faults (.portCompletionError (.task p seq) .unsupported) 0x0A01 ∧ faults (.portCompletionError (.task p seq) .abort) 0x0A01 ∧
    (o.store = .cxl → faults (.portCompletionError (.task p seq) .poison) 0x0A03) ∧
    (o.store ≠ .cxl → exec (.portCompletionError (.task p seq) .poison) s = .next s)) ∧
  (∀ s tid lane t c h cx f x, s.teams.get? tid = some t → s.crews.get? t.cid = some c → t.hostAtomic = some h → t.haltAsked = false →
    (lanesOf 1024 h.todo).head? = some lane → hostCtx t c tid = some (cx, h, f) →
    let s0 := s.asking h.since
    let s1 := s0.setTeam tid { t with hostAtomic := none }
    (hostAsks s0 tid = false → exec (.ioCompletionTimeout (.atomic tid lane)) s = .next s ∧
      ∀ e, exec (.portCompletionError (.atomic tid lane) e) s = .next s) ∧
    (hostAsks s0 tid = true → hostSpot s1 cx f lane = .ok x →
    let late := h.since + 256 * (s.part c.part).iotmo.toNat ≤ s.clock
    let traps := fun (i : Instr) (n : Nat) (s2 : State) =>
      exec i s = .next (logAer (cutIfUnwanted (raise s2 cx h.insn { code := n, lane, addr := some x.va }) tid) (some 12) n)
    (late → traps (.ioCompletionTimeout (.atomic tid lane)) 0x0A02 s1) ∧
    (¬late → exec (.ioCompletionTimeout (.atomic tid lane)) s = .next s ∧ traps (.portCompletionError (.atomic tid lane) .abort) 0x0A01 s1 ∧
      traps (.portCompletionError (.atomic tid lane) .unsupported) 0x0401 (setAU s1 cx.part cx.core x.ok)))) ∧
  (∀ s store n, (linePort s store n = none → exec (.ioCompletionTimeout (.line store n)) s = .next s) ∧
    (∀ k, linePort s store n = some k → ∃ s', exec (.ioCompletionTimeout (.line store n)) s = .next s' ∧ SameBytes s s' ∧
      s'.portLine.get? (2 ^ 64 * store + n) = some 0x0A02 ∧ s'.teams = s.teams ∧ s'.parts = s.parts))

/-- Registers that the host writes: of a partition's page (R101, R151, R153, R162, R167, R222, Tables 02.5, 03.7, 05.4, 07.4, 11.4, 23.3,
24.2) and of function 0 (R164, R171, R390, Tables 08.1, 08.3, 08.4, 24.2), where a partition's description is written only while it is
free. A team whose slice runs keeps it when TSLICE is written; clearing EN of DBGCTL stops halts that are still to come. XLINV drops the
partition's cached translations at its completion; HALTREQ halts every team of the partition when debug is enabled and RESUME lets them
go on; RINGCFG sets PROD and the copy of the consumer index to 0; a write to a partition that is not formed, or by an access that is not
aligned, changes nothing. Readings and choices of the model that clauses rest on: logs 20, 81, 88, 95. -/
def Obligations.HostRegisters : Prop :=
  (∀ s p, let x := s.part p
    (x.state ≠ .formed → ∀ i, i ∈ [Instr.xlinvAll p, .dbgHaltreq p, .dbgResume p] ∨ (∃ r v, i = .ringcfgWrite p r v) ∨
      (∃ v, i = .qconsentWrite p v) ∨ (∃ off v, i = .registerWrite (p + 1) off v) → exec i s = .next s) ∧
    (∀ off v, exec (.unformedVfAccess p off v) s = .next s) ∧
    (x.state = .formed →
      exec (.xlinvAll p) s = .next (s.setPart p { x with xlinvBusy := true }) ∧
      (∀ v, exec (.qconsentWrite p v) s = .next (s.setPart p { x with qconsent := v.setWidth 16 })) ∧
      (∀ r v, r < 8 → x.twState ≠ .running →
        let y := x.rings.getD r {}
        let z : Ring := { y with en := v.getLsbD 8, log2n := v.setWidth 5, prod := 0, copy := 0, polled := none }
        exec (.ringcfgWrite p r v) s = .next (s.setPart p { x with rings := x.rings.set r z })) ∧
      (∀ r v, 8 ≤ r ∨ x.twState = .running → exec (.ringcfgWrite p r v) s = .next s) ∧
      (x.dbg.en = false → exec (.dbgHaltreq p) s = .next s) ∧
      (x.dbg.en = true → ∃ s', exec (.dbgHaltreq p) s = .next s' ∧ SameBytes s s' ∧ ∀ tid t, s.teams.get? tid = some t →
        (∃ c, s.crews.get? t.cid = some c ∧ c.part = p) → t.entries ≠ [] → t.hostAtomic = none → ∃ t', s'.teams.get? tid = some t' ∧
          t'.halted = true ∧ t'.entries = t.entries ∧ t'.vregs = t.vregs ∧ t'.sregs = t.sregs) ∧
      ∃ s', exec (.dbgResume p) s = .next s' ∧ SameBytes s s' ∧ s'.parts = s.parts ∧
        ∀ tid t, s.teams.get? tid = some t → (∃ c, s.crews.get? t.cid = some c ∧ c.part = p) → t.entries ≠ [] →
          s'.teams.get? tid = some { t with halted := false, haltAsked := false })) ∧
  (∀ s p, (s.part p).xlinvBusy = false → exec (.invalidationComplete p) s = .next s) ∧
  (∀ s p, (s.part p).xlinvBusy = true → ∃ s', exec (.invalidationComplete p) s = .next s' ∧ (s'.part p).xlinvBusy = false ∧ SameBytes s s' ∧
    ∀ e ∈ s'.ptes, e.1 / 2 ^ 84 ≠ 128 + p ∧ (s.part p).hasCore (e.1 / 2 ^ 84) = false) ∧
  (∀ s fn off v, off % 8 ≠ 0 → exec (.registerWrite fn off v) s = .next s) ∧
  (∀ s p off (v : DWord), (s.part p).state = .formed → p < 8 →
    let x := s.part p
    let becomes := fun (y : Part) => exec (.registerWrite (p + 1) off v) s = .next (s.setPart p y)
    (off = 0x130 → x.twState ≠ .running → becomes { x with iotmo := if v.setWidth 32 = 0 then 1 else v.setWidth 32 }) ∧
    (off = 0x138 → x.twState ≠ .running → becomes { x with nredlim := if v.setWidth 32 = 0 then 1 else v.setWidth 32 }) ∧
    (off = 0x130 ∨ off = 0x138 ∨ off = 0x100 → x.twState = .running → becomes x) ∧
    (off = 0x100 → x.twState ≠ .running →
      becomes { x with xlroot := { pa := v.extractLsb' 15 43, mt := v.extractLsb' 5 2, en := v.getLsbD 0 } }) ∧
    (off = 0x158 → becomes { x with jpass := v }) ∧
    (off = 0x140 → becomes { x with iolog := { x.iolog with valid := x.iolog.valid && !v.getLsbD 63, count := v.extractLsb' 32 16 } }) ∧
    (off = 0x148 → becomes { x with eccCorr := v.extractLsb' 32 32, eccUncorr := v.extractLsb' 16 16 }) ∧
    (off = 0x150 → becomes { x with mismatch := v.extractLsb' 32 32, reruns := v.setWidth 32 }) ∧
    (off = 0x108 → exec (.registerWrite (p + 1) off v) s = if v.getLsbD 0 then exec (.xlinvAll p) s else .next s) ∧
    (off = 0x188 → ∃ s', exec (.registerWrite (p + 1) off v) s = .next s' ∧ s'.part p = { x with tslice := v.setWidth 32 } ∧ SameBytes s s' ∧
      ∀ tid t, s.teams.get? tid = some t → s'.teams.get? tid =
        if t.active = true ∧ t.slice = 0 ∧ tid ∈ partTeams s p then some { t with slice := v.toNat % 2 ^ 32, enteredAt := s.clock } else some t) ∧
    (off = 0x160 → let en := s.setPart p { x with dbg := { x.dbg with en := true } }
      (v = 1 → exec (.registerWrite (p + 1) off v) s = .next en) ∧
      (v = 3 → exec (.registerWrite (p + 1) off v) s = exec (.dbgHaltreq p) en) ∧
      (v = 5 → exec (.registerWrite (p + 1) off v) s = exec (.dbgResume p) en) ∧
      (v = 0 → ∃ s', exec (.registerWrite (p + 1) off v) s = .next s' ∧ s'.part p = { x with dbg := { x.dbg with en := false } } ∧
        SameBytes s s' ∧ ∀ tid t, s.teams.get? tid = some t → s'.teams.get? tid =
          if tid ∈ partTeams s p then some { t with haltAsked := false } else some t)) ∧
    (∀ r, r < 8 → let y := x.rings.getD r {}
      let ring := fun (n : Nat) (z : Ring) => off = 0x200 + 0x40 * r + n → becomes (if x.twState = .running then x else { x with
        rings := x.rings.set r z })
      ring 0x00 { y with base := (v >>> 6) <<< 6 } ∧ ring 0x08 { y with baseHi := v.setWidth 16 } ∧
      ring 0x10 { y with cons := (v >>> 2) <<< 2 } ∧ ring 0x18 { y with consHi := v.setWidth 16 } ∧
      ring 0x30 { y with seq := if v.setWidth 32 = 0 then 1 else v.setWidth 32 } ∧ ring 0x38 { y with lim := v.setWidth 32 } ∧
      (off = 0x220 + 0x40 * r → x.twState ≠ .running → exec (.registerWrite (p + 1) off v) s = exec (.ringcfgWrite p r v) s) ∧
      (off = 0x220 + 0x40 * r → x.twState = .running → becomes x) ∧ (off = 0x228 + 0x40 * r → becomes x)) ∧
    (off = 0x400 → becomes { x with qconsent := v.setWidth 16 }) ∧
    (off = 0x110 → becomes { x with xlf := { x.xlf with valid := x.xlf.valid && !v.getLsbD 31, more := x.xlf.more && !v.getLsbD 30 } }) ∧
    (off = 0x010 → exec (.registerWrite (p + 1) off v) s = exec (.twpcWrite p false v) s) ∧
    (off = 0x018 → exec (.registerWrite (p + 1) off v) s = exec (.twpcWrite p true v) s) ∧
    (off = 0x000 → x.twState ≠ .faulted → v = 1 → exec (.registerWrite (p + 1) off v) s = exec (.twctlGo p) s) ∧
    (off = 0x000 → x.twState ≠ .faulted → v = 2 → exec (.registerWrite (p + 1) off v) s = exec (.twctlHalt p) s) ∧
    (off = 0x000 → x.twState = .faulted → v = 5 → exec (.registerWrite (p + 1) off v) s = exec (.resolveReexecute p) s) ∧
    (off = 0x000 → x.twState = .faulted → v = 9 → exec (.registerWrite (p + 1) off v) s = exec (.resolveSkip p) s) ∧
    (off = 0x000 → x.twState = .faulted → v = 13 → exec (.registerWrite (p + 1) off v) s = exec (.resolveAbandon p) s) ∧
    (0x1000 ≤ off → off + 8 ≤ 0x10000 → off % 8 = 0 → ∃ s', exec (.registerWrite (p + 1) off v) s = .next s' ∧
      ∀ st a, (s'.memOf st).byte a = if st = .mail p ∧ off ≤ a ∧ a < off + 8 then (v >>> (8 * (a - off))).setWidth 8
        else (s.memOf st).byte a)) ∧
  (∀ s off (v : DWord), let writes := fun (o : Nat) (t : State) => off = o → exec (.registerWrite 0 off v) s = .next t
    (∀ p, p < 8 → let x := s.part p
      let base := 0x1000 + 0x100 * p
      let gets := fun (o : Nat) (y : Part) => writes (base + o) (if s.boot = 1 ∧ x.state = .free then s.setPart p y else s)
      (off = base → v.toNat % 4 = 1 → exec (.registerWrite 0 off v) s = exec (.partitionForm p) s) ∧
      (off = base → v.toNat % 4 = 2 → exec (.registerWrite 0 off v) s = exec (.partitionDissolve p) s) ∧
      (v.toNat % 4 = 0 ∨ v.toNat % 4 = 3 → writes base s) ∧
      gets 0x10 { x with pcore0 := v } ∧ gets 0x18 { x with pcore1 := v } ∧ gets 0x20 { x with pcore2 := v } ∧
      gets 0x28 { x with pcore3 := v } ∧
      gets 0x30 { x with base := v.setWidth 16, size := v.extractLsb' 16 16, direct := v.extractLsb' 32 32 } ∧
      gets 0x38 { x with ppool0 := v } ∧ gets 0x40 { x with ppool1 := v } ∧ gets 0x48 { x with ppool2 := v } ∧
      gets 0x50 { x with meshShare := v.setWidth 8, cxlShare := v.extractLsb' 8 8 } ∧ gets 0x58 { x with pcxl := v }) ∧
    (∀ n, n < 16 → writes (0x2000 + 8 * n) { s with
      qdef := s.qdef.set n { send := v.setWidth 3, recv := v.extractLsb' 4 3, en := v.getLsbD 8 } }) ∧
    (∀ n, n < 8 → let c := s.linkcfg.getD n {}
      writes (0x2100 + 8 * n) (if c.en = true ∧ (s.part c.part.toNat).state ≠ .free then s else { s with
        linkcfg := s.linkcfg.set n { glen := v.extractLsb' 44 20, gbase := v.extractLsb' 24 20, en := v.getLsbD 8, part := v.setWidth 3 } })) ∧
    writes 0x3000 { s with iso := s.iso && !v.getLsbD 4 } ∧
    (off = 0x3008 → exec (.registerWrite 0 off v) s = exec (.fwLoadStart v) s) ∧ writes 0x3010 { s with fwAddr := v } ∧
    (∀ n, n < 128 → writes (0x3100 + 8 * n) { s with
      coreStat := s.coreStat.set n { s.coreStatOf n with strikes := v.extractLsb' 16 4 } }) ∧
    (∀ n, n < 21 → writes (0x3500 + 8 * n) { s with
      ports := s.ports.set n { s.portStat n with retrain := v.extractLsb' 16 8 } }) ∧
    (off = 0x3800 → exec (.registerWrite 0 off v) s = exec (.attestationStart v) s) ∧
    writes 0x3808 (if s.attStatus = 1 then s else { s with attAddr := (v >>> 12) <<< 12 }))

/-- Service. The patrol reads a line of a store every 65,536 clocks: a corrected error counts in CORR of the line's partition and against
its row, as one at an access does, and an uncorrectable one in UNCORR, with the line poisoned; a row with four corrected errors or an
uncorrectable one moves to a spare row while one is left. A signature equal to the leader's lets a mirrored leader go on, and its chunk
land; after another one MISMATCH counts, what was held is never sent, the LAUNCH is run again, apart from the cores that ran it, or
faults 0x0901 where no re-run is allowed, and both cores take a strike; a core whose strike is its second has its work moved off, which
is one more re-run (Table 24.3; log 40). The second strike retires a core: STATE is 01, or 10 when no spare is left; a spare takes its
number when its work has left, and with the last spare gone the other retired cores are lost (R377 to R381, R384 to R387). Links and the
inbound traffic of a peer. The first failed lane waits for the spare at the next retrain and a second one halves the width; a port that
goes down carries nothing, and ends the writes outstanding on it with a time-out or an error, which one is open; a peer's write or
atomic is admitted only over a link that is up, inside the link's grant and the direct memory of its partition; an IDE failure stops the
partition's traffic on its port (R168, R171, R376, R388, R389). Readings and choices of the model that clauses rest on: logs 12, 19, 37,
38, 40, 45, 99, 100, 101. -/
def Obligations.ServiceEvents : Prop :=
  (let corr := fun (s s' : State) (p : Nat) => (s'.part p).eccCorr.toNat = min (2 ^ 32 - 1) ((s.part p).eccCorr.toNat + 1)
  let uncorr := fun (s s' : State) (p : Nat) => (s'.part p).eccUncorr.toNat = min 65535 ((s.part p).eccUncorr.toNat + 1)
  let struck := fun (s s' : State) (k : Nat) => let x := s.coreStatOf k
    let y := s'.coreStatOf k
    y.strikes.toNat = min 2 (x.strikes.toNat + 1) ∧ (x.strikes = 0 ∨ x.state ≠ 0 → y.state = x.state) ∧
      (x.strikes ≠ 0 → x.state = 0 → y.state = if s.spareUsed.length < 8 then 1 else 2)
  (∀ s place found, let n := s.patrol.getD (SramPlaceKey place) 0
    let line := n % placeLines place
    let row := rowKey place (line / 8)
    let owner := match place with
      | .lodeSlice _ => sliceOwner s line
      | .scratch c => coreOwner s c
    (s.clock < 65536 * (n + 1) → exec (.patrolRead place found) s = .next s) ∧
    (placeOk place = true → 65536 * (n + 1) ≤ s.clock →
      exec (.patrolRead place .clean) s = .next { s with patrol := s.patrol.set (SramPlaceKey place) (n + 1) } ∧
      (∃ s', exec (.patrolRead place .corrected) s = .next s' ∧ s'.patrol = s.patrol.set (SramPlaceKey place) (n + 1) ∧ SameBytes s s' ∧
        s'.rowErr = s.rowErr.set row (s.rowErr.getD row 0 + 1) ∧ s'.poisonLode = s.poisonLode ∧ s'.poisonWin = s.poisonWin ∧
        ∀ p, owner = some p → corr s s' p) ∧
      ∃ s', exec (.patrolRead place .uncorrectable) s = .next s' ∧ s'.patrol = s.patrol.set (SramPlaceKey place) (n + 1) ∧ SameBytes s s' ∧
        s'.rowErr = s.rowErr.set row (max 4 (s.rowErr.getD row 0)) ∧ (∀ p, owner = some p → uncorr s s' p) ∧
        (∀ k, place = .lodeSlice k → (∀ p q, owner = some p → sliceKey s p k line = some q → q ∈ s'.poisonLode) ∧
          (owner = none → looseKey k line ∈ s'.poisonLode)) ∧
        ∀ c q, place = .scratch c → scratchPlace c s.crews (128 * line) = some q → q ∈ s'.poisonWin)) ∧
  (∀ s p place row rest, s.agenda = .corrected p (some (place, row)) :: rest → p < 8 → (s.part p).state ≠ .free →
    let mine := placeOk place = true ∧ row < placeLines place / 8 ∧ rowOwner s place row = some p
    (mine → ∃ s', step s = .next s' ∧ s'.agenda = rest ∧ corr s s' p ∧ SameBytes s s' ∧ let k := rowKey place row
      s'.rowErr = s.rowErr.set k (s.rowErr.getD k 0 + 1)) ∧
    (¬mine → step s = .next { s with agenda := rest })) ∧
  (∀ s place row, let key := rowKey place row
    (s.rowErr.getD key 0 < 4 ∨ spareRows s place = 0 ∨ placeOk place = false → exec (.rowSpareReplace place row) s = .next s) ∧
    (4 ≤ s.rowErr.getD key 0 → spareRows s place ≠ 0 → placeOk place = true → ∃ s', exec (.rowSpareReplace place row) s = .next s' ∧
      s'.rowErr = s.rowErr.erase key ∧ spareRows s' place + 1 = spareRows s place ∧ s'.poisonLode = s.poisonLode ∧ SameBytes s s')) ∧
  (∀ s p line, let k := 2 ^ 51 * p + line
    ∃ s', exec (.uncorrectableError (.lodeLine p line)) s = .next s' ∧ k ∈ s'.poisonLode ∧ (∀ j ∈ s.poisonLode, j ∈ s'.poisonLode) ∧
      uncorr s s' p ∧ SameBytes s s' ∧ s'.teams = s.teams) ∧
  (∀ s tid t c row, s.teams.get? tid = some t → s.crews.get? t.cid = some c →
    ∃ s', exec (.uncorrectableError (.teamStore tid row)) s = .next s' ∧ uncorr s s' c.part ∧ struck s s' t.core) ∧
  (∀ s tid t c, s.teams.get? tid = some t → s.crews.get? t.cid = some c →
    (t.sig ≠ .waiting → ∀ n, exec (.signatureCompare (.team tid) n) s = .next s) ∧
    (t.sig = .waiting → exec (.signatureCompare (.team tid) (leaderSig s (.team tid))) s = .next (s.setTeam tid { t with sig := .matched })) ∧
    let second := fun (k : Nat) => (s.coreStatOf k).strikes ≠ 0 ∧ (s.coreStatOf k).state = 0
    (∀ far n, t.sig = .waiting → n ≠ leaderSig s (.team tid) → c.shadow[t.num]? = some far → far / 4 ≠ t.core →
      ∃ s', exec (.signatureCompare (.team tid) n) s = .next s' ∧
        (s'.part c.part).mismatch.toNat = min (2 ^ 32 - 1) ((s.part c.part).mismatch.toNat + 1) ∧
        struck s s' t.core ∧ struck s s' (far / 4) ∧
        ∀ e, s.entryOf c.part c.seq = some e → (∃ g d a b k, e.insn = .launch g d a b k) → (∀ f, e.status ≠ .faulted f) →
          ((s.part c.part).window.map WinEntry.seq).Nodup → ∃ e', s'.entryOf c.part c.seq = some e' ∧ e'.apart = e.ran ∧
            (mayRerun s c.part e = true → (¬second t.core → ¬second (far / 4) →
                e'.status = .waiting ∧ e'.placed = 0 ∧ e'.reruns = e.reruns + 1 ∧ e'.avoid = [t.core, far / 4] ∧
                (s'.part c.part).reruns.toNat = min (2 ^ 32 - 1) ((s.part c.part).reruns.toNat + 1)) ∧
              (e.reruns ≤ 1 → second t.core ∧ ¬second (far / 4) ∨ ¬second t.core ∧ second (far / 4) →
                e'.status = .waiting ∧ e'.placed = 0 ∧ e'.reruns = e.reruns + 2 ∧ e'.avoid = [t.core, far / 4])) ∧
            (mayRerun s c.part e = false → e'.status = .faulted { code := 0x0901, engine := 1, core := t.core, addr := none }))) ∧
  (∀ s age k x bs, s.copies.get? age = some x → x.flight.get? k = some bs → chunkSigned s x k = true →
    exec (.hoistChunkLand age k) s = .next s ∧ exec (.signatureCompare (.chunk age k) (leaderSig s (.chunk age k))) s =
      .next { s with copies := s.copies.set age { x with matched := k :: x.matched } } ∧
    ∀ n tid b m, n ≠ leaderSig s (.chunk age k) → x.owner = .team tid b m → ∃ s', exec (.signatureCompare (.chunk age k) n) s = .next s' ∧
      s'.copies.get? age = none) ∧
  (∀ s core die, (s.coreStatOf core).state ≠ 1 ∨ die ∈ s.spareUsed ∨ 8 ≤ die ∨ 128 ≤ core ∨ coreIdle s core = false →
    exec (.spareCoreSwap core die) s = .next s) ∧
  (∀ s core die, (s.coreStatOf core).state = 1 → die ∉ s.spareUsed → die < 8 → core < 128 → coreIdle s core = true →
    ∃ s', exec (.spareCoreSwap core die) s = .next s' ∧ SameBytes s s' ∧ s'.spareUsed = die :: s.spareUsed ∧
      (s'.coreStatOf core).phys.toNat = (17 * die + 16) % 256 ∧ (s'.coreStatOf core).state = 0 ∧ (s'.coreStatOf core).strikes = 0 ∧
      (∀ k, k ≠ core → (s.coreStatOf k).state = 1 → (s'.coreStatOf k).state = if s.spareUsed.length < 7 then 1 else 2) ∧
      ∀ e ∈ s'.tags, e.1 / 4096 ≠ core)) ∧
  ((∀ s n, 21 ≤ n → exec (.linkLaneFail n) s = .next s ∧ exec (.linkRetrain n) s = .next s ∧ exec (.linkDown n) s = .next s) ∧
  (∀ s n, n < 21 → let x := s.portStat n
    let becomes := fun (i : Instr) (y : PortStat) => exec i s = .next { s with ports := s.ports.set n y }
    (x.lost = 0 → becomes (.linkLaneFail n) { x with lost := 1 }) ∧
    (x.lost ≠ 0 → x.state = 0 → becomes (.linkLaneFail n) { x with lost := x.lost + 1, state := 1 }) ∧
    (∃ r, becomes (.linkRetrain n) { x with
        retrain := r, spare := decide (x.lost ≠ 0), width := if x.lost ≤ 1 then 16 else 8, state := 0 } ∧
      r.toNat = min 255 (x.retrain.toNat + 1)) ∧
    ∃ s', exec (.linkDown n) s = .next s' ∧ s'.ports = s.ports.set n { x with state := 2, width := 0 } ∧
      (∀ p st a, portOf s' p st a = some n → stopped s' p st a = true) ∧
      ∀ tid t c idx w a, s.teams.get? tid = some t → s.crews.get? t.cid = some c → t.producers = [] → t.writes.get? idx = some w →
        w.failed = none → w.pa = some a → (s.part c.part).cxlPort a = some n → n < 12 → ∃ t' w', s'.teams.get? tid = some t' ∧
          t'.writes.get? idx = some w' ∧ (w'.failed = some 0x0A01 ∨ w'.failed = some 0x0A02)) ∧
  (∀ s link off len, exec (.ethesInboundAccess link off len .read) s = .next s) ∧
  (∀ s link off len c, s.linkcfg.get? link = some c →
    let p := c.part.toNat
    let ok := link < 8 ∧ c.en = true ∧ (s.portStat (13 + link)).state ≠ 2 ∧ (s.part p).state = .formed ∧ c.gbase.toNat * 4096 ≤ off ∧
      off + len ≤ (c.gbase.toNat + c.glen.toNat) * 4096 ∧ off + len ≤ (s.part p).direct.toNat * 4096
    let stores := fun (what : Inbound) (v : Nat) => ∃ s', exec (.ethesInboundAccess link off len what) s = .next s' ∧ s'.teams = s.teams ∧
      ∀ st a, (s'.memOf st).byte a = if st = .lode p ∧ off ≤ a ∧ a < off + len then BitVec.ofNat 8 (v / 2 ^ (8 * (a - off)))
        else (s.memOf st).byte a
    (∀ what, ¬ok → exec (.ethesInboundAccess link off len what) s = .next s) ∧
    (∀ v, ok → stores (.write v) v) ∧
    (∀ op wide uns x y, ok → let i := Inbound.atomic op wide uns x y
      let good := len = (if wide then 8 else 4) ∧ off % len = 0 ∧ rangePoisoned s (.lode p) off len = false
      let new := atomValue op wide uns (s.load (.lode p) off len) x y
      (¬good ∨ new = none → exec (.ethesInboundAccess link off len i) s = .next s) ∧ (∀ v, good → new = some v → stores i v))) ∧
  (∀ s p port, (s.part p).state ≠ .formed ∨ 12 ≤ port → exec (.ideIntegrityFailure ⟨p, port⟩) s = .next s) ∧
  (∀ s p port, (s.part p).state = .formed → port < 12 → ∃ s', exec (.ideIntegrityFailure ⟨p, port⟩) s = .next s' ∧ s'.iso = true ∧
    (∀ n, n < 12 → (s'.part p).ideFail.getLsbD n = ((s.part p).ideFail.getLsbD n || n == port)) ∧
    (∀ a, (s.part p).cxlPort a = some port → stopped s' p .cxl a = true) ∧ ∀ st, st ≠ .cxl → ∀ a, (s'.memOf st).byte a = (s.memOf st).byte a))

/-! ### Partitions, boot and attestation -/

/-- Forming and dissolving (R162 to R165, R171, R172, R389, R390, Table 08.1). A form command is checked when it is written, and ERR names
the first condition that fails: 4 when the shares of a port or a mesh exceed 100, 5 when the partition is not free, 6 when the window
list cannot be read or breaks R171; its completion forms the partition with its free lists in ascending order and the windows read at
the command, and the firmware's key endorses it, up to the 1,024 signatures that a key has. Storage that reads as zero then is the
model's choice, but after a dissolve. Only a formed partition whose stream is idle or halted is dissolved: its queues are granted no
longer; its storage then reads as zero, no line and no translation of it is cached, and a line that does not read as zero moves to a
spare row or is withheld with its core or unit. The resets of the whole device. A device reset is the state after reset but for what
lies outside the device and the stored image; BOOT tells what the ROM found, and only an accepted image runs. The ROM passes on CDI(1),
the HMAC of the image's hash (R169). A Function Level Reset of function 0 dissolves every partition, and with the last of them its
registers take their reset values, with the service status kept; what ran of them has stopped (R45, R163, R165, R169, R170, R172, Table
24.2; that nothing is formed meanwhile is the model's reading, log 105). Readings and choices of the model that clauses rest on: logs 3,
4, 39, 41, 42, 43, 103, 105, 106, 107, 108. -/
def Obligations.PartitionsAndResets : Prop :=
  ((∀ s p, let x := s.part p
    let n := formError s p (decide (x.state = .free))
    (s.boot ≠ 1 ∨ s.pf0Reset = true ∨ 8 ≤ p → exec (.partitionForm p) s = .next s) ∧
    (s.boot = 1 → s.pf0Reset = false → p < 8 → n = 0 → ∃ l, windowList s p = some l ∧
      exec (.partitionForm p) s = .next (s.setPart p { x with state := .forming, err := 0, windows := l })) ∧
    (s.boot = 1 → s.pf0Reset = false → p < 8 → n ≠ 0 → exec (.partitionForm p) s = .next (s.setPart p { x with err := BitVec.ofNat 6 n })) ∧
    (x.state ≠ .forming → exec (.partitionFormComplete p) s = .next s) ∧
    (x.state = .forming → ∃ s', exec (.partitionFormComplete p) s = .next s' ∧ let y := s'.part p
      y.state = .formed ∧ y.err = 0 ∧ y.twState = .idle ∧ y.window = [] ∧ y.lode = [] ∧ y.bufs = [] ∧ y.iotmo = 0x4000 ∧ y.ideKey = true ∧
      y.registers = x.registers ∧ y.windows = x.windows ∧ s'.sigCount.getD 1 0 = min 1024 (s.sigCount.getD 1 0 + 1) ∧
      y.endorsed = (if s.sigCount.getD 1 0 < 1024 then some (s.sigCount.getD 1 0) else none) ∧
      ∀ c, c < 12 → y.freeOf c = (List.range (x.poolCount c)).map (x.firstBuf c + ·))) ∧
  (∀ s p, let x := s.part p
    let lives := fun (q : Nat) => q < 8 ∧ q ≠ p ∧ (s.part q).state ≠ .free
    let e := formError s p (decide (x.state = .free))
    let carve := x.size.toNat * 2 ^ 18
    let pool := ((List.range 12).map fun c => x.poolCount c * (32768 * 2 ^ c)).sum
    let joins := (List.range 8).filter fun q => q != p && ((s.part q).state == .formed || (s.part q).state == .forming)
    let ok1 := x.pcore2 = 0 ∧ x.pcore3 = 0 ∧ (∃ c, x.hasCore c = true) ∧ ∀ c, x.hasCore c = true →
      c ∉ s.withheldCores ∧ (s.coreStatOf c).state ≠ 2 ∧ ∀ q, lives q → (s.part q).hasCore c = false
    let ok2 := x.base.toNat + x.size.toNat ≤ 1280 ∧ (∀ u ∈ s.withheldLode, u < x.base.toNat ∨ x.base.toNat + x.size.toNat ≤ u) ∧
      ∀ q, lives q → x.size = 0 ∨ (s.part q).size = 0 ∨ x.base.toNat + x.size.toNat ≤ (s.part q).base.toNat ∨
        (s.part q).base.toNat + (s.part q).size.toNat ≤ x.base.toNat
    let ok3 := x.direct.toNat * 4096 ≤ carve ∧ pool ≤ carve - x.direct.toNat * 4096
    let ok4 := x.meshShare.toNat + (joins.map fun q => (s.part q).meshShare.toNat).sum ≤ 100 ∧
      x.cxlShare.toNat + (joins.map fun q => (s.part q).cxlShare.toNat).sum ≤ 100
    (¬ok1 → e = 1) ∧ (ok1 → ¬ok2 → e = 2) ∧ (ok1 → ok2 → ¬ok3 → e = 3) ∧ (ok1 → ok2 → ok3 → ¬ok4 → e = 4) ∧
      (ok1 → ok2 → ok3 → ok4 → (x.state ≠ .free → e = 5) ∧
        (x.state = .free → (windowList s p = none → e = 6) ∧ (windowList s p ≠ none → e = 0)))) ∧
  (∀ s p, let a := (s.part p).pcxl.toNat
    let n := s.host.read a 4
    (a = 0 → windowList s p = some []) ∧
    (a ≠ 0 → a % 64 ≠ 0 ∨ 64 < n ∨ 2 ^ 58 < a + 64 + 32 * n ∨ hostFails s a (64 + 32 * n) = true → windowList s p = none) ∧
    ∀ l, a ≠ 0 → windowList s p = some l → l.length = n ∧ l.Pairwise (fun v w => v.base + v.len ≤ w.base ∨ w.base + w.len ≤ v.base) ∧
      ∀ j, (h : j < l.length) → let q := a + 64 + 32 * j
        let w := l[j]
        w.base = s.host.read q 8 ∧ w.len = s.host.read (q + 8) 8 ∧ w.base % 2 ^ 28 = 0 ∧ w.len % 2 ^ 28 = 0 ∧ w.len ≠ 0 ∧
          w.base + w.len ≤ 2 ^ 58 ∧ (w.ethes = true ↔ s.host.read (q + 16) 8 % 4 = 1) ∧
          (w.ethes = false → w.ports = s.host.read (q + 16) 8 / 2 ^ 16 % 2 ^ 12 ∧ w.ports ≠ 0) ∧
          (w.ethes = true → w.link = s.host.read (q + 16) 8 / 2 ^ 8 % 8 ∧ w.target = s.host.read (q + 24) 8 ∧
            ∃ c, s.linkcfg.get? w.link = some c ∧ c.en = true ∧ c.part.toNat = p)) ∧
  (∀ s p, let x := s.part p
    (s.boot ≠ 1 ∨ x.state ≠ .formed ∨ x.twState = .running ∨ x.twState = .faulted → exec (.partitionDissolve p) s = .next s) ∧
    (s.boot = 1 → x.state = .formed → x.twState = .idle ∨ x.twState = .halted → ∃ s', exec (.partitionDissolve p) s = .next s' ∧
      (s'.part p).state = .dissolving ∧ (s'.part p).ideKey = false ∧ (s'.part p).qconsent = 0 ∧ (s'.part p).twState = .idle ∧
      (s'.part p).window = [] ∧ (s'.part p).haltReq = false ∧ (s'.part p).flrReq = false ∧
      (∀ q d, s.qdef.get? q = some d → let mine := d.send.toNat = p ∨ d.recv.toNat = p
        (mine → s'.queues.get? q = none ∧ s'.qdef.get? q = some { d with en := false }) ∧
        (¬mine → s'.qdef.get? q = some d)) ∧
      ∀ e ∈ x.window, ∀ n c, s'.crews.get? n = some c → ¬(c.part = p ∧ c.seq = e.seq)) ∧
    (x.state ≠ .dissolving → ∀ a b, exec (.partitionDissolveComplete p a b) s = .next s) ∧
    (x.state = .dissolving → s.pf0Reset = true → ∀ a b, ∃ s', exec (.partitionDissolveComplete p a b) s = .next s' ∧
      (s'.part p).state = .free ∧ (s'.part p).lode = [] ∧
      let last := p < 8 ∧ ∀ q, q < 8 → q ≠ p → (s.part q).state = .free
      (last → s'.pf0Reset = false ∧ (∀ q, q < 8 → (s'.part q).registers = List.replicate 10 0) ∧ s'.qdef = [] ∧ s'.linkcfg = [] ∧
        s'.attStatus = 0 ∧ s'.attAddr = 0 ∧ s'.fwLen = 0 ∧ s'.fwAddr = 0) ∧
      ((∃ q, q < 8 ∧ q ≠ p ∧ (s.part q).state ≠ .free) → s'.pf0Reset = true ∧ (s'.part p).registers = x.registers)) ∧
    (x.state = .dissolving → s.pf0Reset = false → ∀ a b, ∃ s', exec (.partitionDissolveComplete p a b) s = .next s' ∧ let y := s'.part p
      y.state = .free ∧ y.lode = [] ∧ y.bufs = [] ∧ y.mail = [] ∧ y.window = [] ∧ y.slots = [] ∧ y.k = [] ∧ y.registers = x.registers ∧
      (∀ z ∈ a, let c := z / 32768
        x.hasCore c = true → 2048 ≤ z % 32768 / 8 ∨ (s.coreStatOf c).srows = 0 → c ∈ s'.withheldCores ∧ s'.iso = true) ∧
      (∀ z ∈ b, let u := z % 40960 / 32
        z / 40960 < 64 → x.base.toNat ≤ u → u < x.base.toNat + x.size.toNat → s.lodeSpare.getD (z / 40960) 32 = 0 →
          u ∈ s'.withheldLode ∧ s'.iso = true) ∧
      (∀ z, a = [z] → b = [] → let c := z / 32768
        x.hasCore c = true → z % 32768 / 8 < 2048 → (s.coreStatOf c).srows ≠ 0 →
          s'.withheldCores = s.withheldCores ∧ (s'.coreStatOf c).srows = (s.coreStatOf c).srows - 1) ∧
      (∀ e, e ∈ s'.rcache ∨ e ∈ s'.ptes → x.hasCore (e.1 / 2 ^ 84) = false ∧ e.1 / 2 ^ 84 ≠ 128 + p) ∧ ∀ k ∈ s'.poisonLode, k / 2 ^ 51 ≠ p))) ∧
  ((∀ s, let b := Config.verdict s.fwImage
    let code : BitVec 4 := match b with
      | .accepted => 1
      | .badSignature => 2
      | .badVersion => 3
      | .noImage => 4
    exec .deviceReset s = .next { State.reset with
      epoch := s.epoch + 1, agenda := s.agenda, fresh := s.fresh, host := s.host, cxl := s.cxl, poisonCxl := s.poisonCxl
      fwImage := s.fwImage, fwRun := if b = .accepted then s.fwImage else [], boot := code
      sigCount := if b = .accepted then [(0, 1)] else []
      cdi := if b = .accepted then hmacSha256 Config.rootCdi (hashBytes (sha256 (s.fwImage.map (BitVec.ofNat 8)))) else 0 }) ∧
  (∀ s, let lives := fun p => p < 8 ∧ (s.part p).state ≠ .free
    ∃ s', exec .pf0Flr s = .next s' ∧ (∀ p, lives p → (s'.part p).state = .dissolving ∧ (s'.part p).twState = .idle ∧ (s'.part p).window = [] ∧
      (s'.part p).haltReq = false ∧ (s'.part p).flrReq = false ∧ ∀ e ∈ (s.part p).window, ∀ n c, s'.crews.get? n = some c →
        ¬(c.part = p ∧ c.seq = e.seq)) ∧
    ((∀ p, ¬lives p) → s'.pf0Reset = false ∧ (∀ p, p < 8 → (s'.part p).registers = List.replicate 10 0) ∧ s'.qdef = [] ∧ s'.linkcfg = [] ∧
      s'.attStatus = 0 ∧ s'.attAddr = 0 ∧ s'.fwLen = 0 ∧ s'.fwAddr = 0) ∧
    ((∃ p, lives p) → s'.pf0Reset = true) ∧ s'.coreStat = s.coreStat ∧ s'.ports = s.ports ∧ s'.boot = s.boot ∧ s'.fwImage = s.fwImage ∧ s'.host = s.host ∧
    s'.cxl = s.cxl))

/-- Attestation and firmware through the registers of function 0 (R169, R170, R172, R390, Table 08.4). A request is served when firmware
runs, the layer exists, its key has signatures left and its buffer can be read, the nonce being read first, and refused with the status
of Table 08.4 otherwise; the response is written at the request's address, whole or not at all, unless the key has signed its last
meanwhile; it holds, of each layer, its measurement and its public key, and after them the quote, of the number that the key's count
then gives; that an exhausted key is told before a buffer that cannot be read is the model's choice (log 128). A partition's key and its
measurement follow from its Table 08.1 registers; an image that the ROM's check accepts is stored, and any other rejected. The LMS keys
and signatures are free (log 4). Readings and choices of the model that clauses rest on: logs 4, 21, 103, 104, 128. -/
def Obligations.AttestationAndFirmware : Prop :=
  (∀ s (v : DWord), s.attStatus = 1 → exec (.attestationStart v) s = .next s) ∧
  (∀ s (v : DWord), s.attStatus ≠ 1 →
    let l := v.toNat / 2 ^ 16 % 16
    let key := layerKey s l
    let lost := 2 ^ 58 < s.attAddr.toNat + 16384 ∨ hostFails s s.attAddr.toNat 32 = true
    let starts := fun (n : BitVec 8) => exec (.attestationStart v) s = .next { s with
      attLayer := BitVec.ofNat 4 l, attStatus := n, attNonce := s.host.read s.attAddr.toNat 32 }
    (v.getLsbD 0 = false → exec (.attestationStart v) s = .next { s with attLayer := BitVec.ofNat 4 l }) ∧
    (v.getLsbD 0 = true → (s.boot ≠ 1 → starts 4) ∧
      (s.boot = 1 → 9 < l ∨ (2 ≤ l ∧ (s.part (l - 2)).state ≠ .formed) → starts 5) ∧
      (s.boot = 1 → l ≤ 9 → (l < 2 ∨ (s.part (l - 2)).state = .formed) →
        (1024 ≤ s.sigCount.getD key 0 → starts 3) ∧ (s.sigCount.getD key 0 < 1024 → (lost → starts 6) ∧ (¬lost → starts 1))))) ∧
  (∀ s s' p, (s.part p).registers = (s'.part p).registers → layerKey s (p + 2) = layerKey s' (p + 2) ∧
    ∀ b b', layerHash b s (p + 2) = layerHash b' s' (p + 2)) ∧
  (∀ s, s.attStatus ≠ 1 → exec .attestationResponse s = .next s) ∧
  (∀ s, s.attStatus = 1 → let a := s.attAddr.toNat
    let l := s.attLayer.toNat
    let key := layerKey s l
    let lost := hostFails s (a + 64) (64 + 2624 * (min l 2 + 1) + 2508) = true
    let n := 64 + 2624 * (min l 2 + 1)
    (1024 ≤ s.sigCount.getD key 0 → exec .attestationResponse s = .next { s with attStatus := 3 }) ∧
    (s.sigCount.getD key 0 < 1024 → lost → exec .attestationResponse s = .next { s with attStatus := 6 }) ∧
    (s.sigCount.getD key 0 < 1024 → ¬lost → ∃ s', exec .attestationResponse s = .next s' ∧ s'.attStatus = 2 ∧
      s'.sigCount.getD key 0 = s.sigCount.getD key 0 + 1 ∧ s'.parts = s.parts ∧ s'.cxl = s.cxl ∧
      (∀ b, b < a + 64 ∨ a + 128 + 2624 * (min l 2 + 1) + 2508 ≤ b → (s'.memOf .host).byte b = (s.memOf .host).byte b) ∧
      (s'.memOf .host).read (a + 64) 4 = min l 2 + 1 ∧
      (∀ j m, (layersOf l)[j]? = some m → (s'.memOf .host).read (a + 128 + 2624 * j) 32 = ofBytes (hashBytes (layerHash s.fwRun s m)) ∧
        (s'.memOf .host).read (a + 160 + 2624 * j) 56 = Config.lmsPublic (layerCdi s m) % 2 ^ 448) ∧
      (s'.memOf .host).read (a + 64 + n) 2508 = Config.lmsSign (layerCdi s l) (s.sigCount.getD key 0)
        ((List.range 32).map (fun i => BitVec.ofNat 8 (s.attNonce / 2 ^ (8 * i))) ++
          (List.range n).map fun i => (s'.memOf .host).byte (a + 64 + i)) % 2 ^ (8 * 2508))) ∧
  (∀ s (v : DWord), ∃ s', exec (.fwLoadStart v) s = .next s' ∧ s'.fwLen.toNat = v.toNat / 2 ^ 32 ∧
    (s'.fwBusy = true ↔ s.fwBusy = true ∨ v.getLsbD 0 = true) ∧ (s'.fwDone = true ↔ s.fwDone = true ∧ v.getLsbD 1 = false) ∧
    (s'.fwReject = true ↔ s.fwReject = true ∧ v.getLsbD 2 = false) ∧ s'.fwImage = s.fwImage ∧ s'.host = s.host) ∧
  (∀ s, s.fwBusy = false → exec .fwImageCheck s = .next s) ∧
  (∀ s, s.fwBusy = true →
    let image := (List.range s.fwLen.toNat).map fun j => (s.host.byte (s.fwAddr.toNat + j)).toNat
    let good := s.fwAddr.toNat + s.fwLen.toNat ≤ 2 ^ 58 ∧ hostFails s s.fwAddr.toNat s.fwLen.toNat = false ∧ Config.verdict image = .accepted
    (good → exec .fwImageCheck s = .next { s with fwBusy := false, fwImage := image, fwDone := true }) ∧
    (¬good → exec .fwImageCheck s = .next { s with fwBusy := false, fwReject := true }))
end

