-- ==== Sys2Proof/Laws/State.lean ====
section
/-! SUPPORT. Tables by number, and reading each part of the state and of a team after each update. -/

namespace Sys2Proof.Machine

set_option Elab.async false

/-! ### Tables -/

namespace FMap
variable {α : Type}

@[simp] theorem get?_nil (n : Nat) : get? ([] : FMap α) n = none := rfl

theorem get?_set (m : FMap α) (n k : Nat) (v : α) : (m.set n v).get? k = if k = n then some v else m.get? k := by
  induction m with
  | nil =>
    simp only [set, get?]
    by_cases h : k = n
    · simp [h]
    · simp [h, Ne.symm h]
  | cons e m ih =>
    obtain ⟨j, w⟩ := e
    simp only [set]
    split
    · by_cases h : k = n
      · simp [get?, h]
      · simp [get?, h, Ne.symm h]
    · split
      · rename_i h1 h2
        subst h2
        by_cases h : k = n
        · simp [get?, h]
        · simp [get?, h, Ne.symm h]
      · simp only [get?, ih]
        by_cases h : k = n
        · subst h
          rename_i h1 h2
          simp [Ne.symm h2]
        · simp [h]

@[simp] theorem get?_set_self (m : FMap α) (n : Nat) (v : α) : (m.set n v).get? n = some v := by simp [get?_set]
theorem get?_set_ne (m : FMap α) {n k : Nat} (v : α) (h : k ≠ n) : (m.set n v).get? k = m.get? k := by simp [get?_set, h]
theorem getD_set (m : FMap α) (n k : Nat) (v d : α) : (m.set n v).getD k d = if k = n then v else m.getD k d := by
  simp only [getD, get?_set]; split <;> rfl

theorem get?_erase_ne (m : FMap α) {n k : Nat} (h : k ≠ n) : (m.erase n).get? k = m.get? k := by
  induction m with
  | nil => rfl
  | cons e m ih =>
    obtain ⟨j, w⟩ := e
    simp only [erase]
    split
    · rename_i hj; subst hj; simp [get?, Ne.symm h, ih]
    · simp [get?, ih]

@[simp] theorem get?_erase_self (m : FMap α) (n : Nat) : (m.erase n).get? n = none := by
  induction m with
  | nil => rfl
  | cons e m ih =>
    obtain ⟨j, w⟩ := e
    simp only [erase]
    split
    · exact ih
    · rename_i h; simp [get?, ih, Ne.symm h]

/-- A list of writes read back: the last write of a key counts. -/
theorem get?_foldl_set (l : List (Nat × α)) (g : Nat → Nat) (m : FMap α) (k : Nat) (h : ∀ e ∈ l, g e.1 ≠ k) :
    (l.foldl (fun (m : FMap α) e => m.set (g e.1) e.2) m).get? k = m.get? k := by
  induction l generalizing m with
  | nil => rfl
  | cons e l ih =>
    simp only [List.foldl_cons]
    rw [ih _ fun e' h' => h e' (List.mem_cons_of_mem _ h')]
    exact get?_set_ne _ _ (Ne.symm (h e List.mem_cons_self))

/-- One value per key: the value of a key listed. -/
theorem get?_foldl_set_mem (ls : List Nat) (f : Nat → α) (g : Nat → Nat) (hg : ∀ a b, g a = g b → a = b) (m : FMap α) (l : Nat)
    (h : l ∈ ls) :
    ((ls.map fun l => (l, f l)).foldl (fun (m : FMap α) e => m.set (g e.1) e.2) m).get? (g l) = some (f l) := by
  induction ls generalizing m with
  | nil => cases h
  | cons a ls ih =>
    simp only [List.map_cons, List.foldl_cons]
    by_cases hl : l ∈ ls
    · exact ih _ hl
    · have : l = a := by simpa [hl] using h
      subst this
      rw [get?_foldl_set]
      · simp
      · intro e he hge
        simp only [List.mem_map] at he
        obtain ⟨b, hb, rfl⟩ := he
        exact hl (hg _ _ hge ▸ hb)

end FMap

/-! ### The state -/

namespace State
variable (s : State) (n k : Nat)

@[simp] theorem setTeam_get (x : Team) : (s.setTeam n x).teams.get? n = some x := by simp [setTeam]
theorem setTeam_get_ne (x : Team) (h : k ≠ n) : (s.setTeam n x).teams.get? k = s.teams.get? k := FMap.get?_set_ne _ _ h
@[simp] theorem setTeam_crews (x : Team) : (s.setTeam n x).crews = s.crews := rfl
@[simp] theorem setTeam_parts (x : Team) : (s.setTeam n x).parts = s.parts := rfl
@[simp] theorem setTeam_part (x : Team) : (s.setTeam n x).part k = s.part k := rfl
@[simp] theorem setTeam_host (x : Team) : (s.setTeam n x).host = s.host := rfl
@[simp] theorem setTeam_cxl (x : Team) : (s.setTeam n x).cxl = s.cxl := rfl
@[simp] theorem setTeam_memOf (x : Team) (st : Store) : (s.setTeam n x).memOf st = s.memOf st := by cases st <;> rfl
@[simp] theorem setTeam_cur (x : Team) : (s.setTeam n x).cur = s.cur := rfl
@[simp] theorem setTeam_clock (x : Team) : (s.setTeam n x).clock = s.clock := rfl
@[simp] theorem setTeam_copies (x : Team) : (s.setTeam n x).copies = s.copies := rfl
@[simp] theorem setTeam_spin (x : Team) : (s.setTeam n x).spin = s.spin := rfl
@[simp] theorem setTeam_rcache (x : Team) : (s.setTeam n x).rcache = s.rcache := rfl
@[simp] theorem setTeam_portLine (x : Team) : (s.setTeam n x).portLine = s.portLine := rfl
@[simp] theorem setTeam_cxlLog (x : Team) : (s.setTeam n x).cxlLog = s.cxlLog := rfl
@[simp] theorem setTeam_poisoned (x : Team) (st : Store) (a : Nat) : (s.setTeam n x).poisoned st a = s.poisoned st a := by cases st <;> rfl

@[simp] theorem setCrew_teams (x : Crew) : (s.setCrew n x).teams = s.teams := rfl
@[simp] theorem setCrew_parts (x : Crew) : (s.setCrew n x).parts = s.parts := rfl
@[simp] theorem setCrew_get (x : Crew) : (s.setCrew n x).crews.get? n = some x := by simp [setCrew]
theorem setCrew_get_ne (x : Crew) (h : k ≠ n) : (s.setCrew n x).crews.get? k = s.crews.get? k := FMap.get?_set_ne _ _ h

@[simp] theorem setPart_teams (x : Part) : (s.setPart n x).teams = s.teams := rfl
@[simp] theorem setPart_crews (x : Part) : (s.setPart n x).crews = s.crews := rfl
@[simp] theorem setPart_host (x : Part) : (s.setPart n x).host = s.host := rfl
@[simp] theorem setPart_cxl (x : Part) : (s.setPart n x).cxl = s.cxl := rfl
@[simp] theorem setPart_part (x : Part) : (s.setPart n x).part n = x := by simp [setPart, part, FMap.getD_set]
theorem setPart_part_ne (x : Part) (h : k ≠ n) : (s.setPart n x).part k = s.part k := by simp [setPart, part, FMap.getD_set, h]
@[simp] theorem updPart_part (f : Part → Part) : (s.updPart n f).part n = f (s.part n) := by simp [updPart]
theorem updPart_part_ne (f : Part → Part) (h : k ≠ n) : (s.updPart n f).part k = s.part k := by
  simp [updPart, setPart_part_ne s n k _ h]
@[simp] theorem updPart_teams (f : Part → Part) : (s.updPart n f).teams = s.teams := rfl
@[simp] theorem updPart_crews (f : Part → Part) : (s.updPart n f).crews = s.crews := rfl

@[simp] theorem setMem_host (m : Memory) : (s.setMem .host m).memOf .host = m := rfl
@[simp] theorem setMem_cxl (m : Memory) : (s.setMem .cxl m).memOf .cxl = m := rfl
@[simp] theorem setMem_lode (m : Memory) : (s.setMem (.lode n) m).memOf (.lode n) = m := by simp [setMem, memOf]
@[simp] theorem setMem_buf (m : Memory) : (s.setMem (.buf n) m).memOf (.buf n) = m := by simp [setMem, memOf]
@[simp] theorem setMem_mail (m : Memory) : (s.setMem (.mail n) m).memOf (.mail n) = m := by simp [setMem, memOf]
theorem setMem_window (m : Memory) (x : Crew) (h : s.crews.get? n = some x) :
    (s.setMem (.window n) m).memOf (.window n) = m := by simp [setMem, memOf, updCrew, h]

/-! The read cache changes no store, team or partition (R110). -/

/-- The list of writes alone changes, and only with one of pooled memory (R370). -/
theorem logCxl_rest (st : Store) (a m : Nat) : s.logCxl st a m = { s with cxlLog := (s.logCxl st a m).cxlLog } := by cases st <;> rfl
@[simp] theorem logCxl_teams (st : Store) (a m : Nat) : (s.logCxl st a m).teams = s.teams := by rw [logCxl_rest]
@[simp] theorem logCxl_crews (st : Store) (a m : Nat) : (s.logCxl st a m).crews = s.crews := by rw [logCxl_rest]
@[simp] theorem logCxl_parts (st : Store) (a m : Nat) : (s.logCxl st a m).parts = s.parts := by rw [logCxl_rest]
@[simp] theorem logCxl_part (st : Store) (a m : Nat) : (s.logCxl st a m).part k = s.part k := by rw [logCxl_rest]; rfl
@[simp] theorem logCxl_clock (st : Store) (a m : Nat) : (s.logCxl st a m).clock = s.clock := by rw [logCxl_rest]
@[simp] theorem logCxl_memOf (st st' : Store) (a m : Nat) : (s.logCxl st a m).memOf st' = s.memOf st' := by
  rw [logCxl_rest]; cases st' <;> rfl
theorem logCxl_cxlLog (st : Store) (a m : Nat) :
    (s.logCxl st a m).cxlLog = if st = .cxl then s.cxlLog ++ [(a, m)] else s.cxlLog := by cases st <;> simp [logCxl]
/-- A store to memory is a change of that memory and of the list of writes. -/
@[simp] theorem store_memOf (st st' : Store) (a m v : Nat) :
    (s.store st a m v).memOf st' = (s.setMem st ((s.memOf st).write a m v)).memOf st' := by rw [store, logCxl_memOf]

@[simp] theorem stale_teams : (s.stale n).teams = s.teams := rfl
@[simp] theorem stale_crews : (s.stale n).crews = s.crews := rfl
@[simp] theorem stale_part : (s.stale n).part k = s.part k := rfl
@[simp] theorem stale_memOf (st : Store) : (s.stale n).memOf st = s.memOf st := by cases st <;> rfl
theorem stale_coreLines : (s.stale n).coreLines n = [] := by
  simp only [coreLines, stale, FMap.keys]
  rw [List.filter_eq_nil_iff]
  intro k hk
  obtain ⟨e, he, rfl⟩ := List.mem_map.mp hk
  simpa using (List.mem_filter.mp he).2

/-- Room is made in the read cache and nowhere else: it is the state with another cache and another free-value counter. -/
theorem makeRoom_rest : s.makeRoom n = { s with rcache := (s.makeRoom n).rcache, fresh := (s.makeRoom n).fresh } := by
  unfold makeRoom
  dsimp only
  split <;> rfl

/-- A line enters the read cache and nothing else changes. -/
theorem fill_rest (st : Store) (a : Nat) : s.fill n st a = { s with rcache := (s.fill n st a).rcache, fresh := (s.fill n st a).fresh } := by
  unfold fill
  dsimp only
  split
  · split
    · rfl
    · rw [makeRoom_rest]
  · split <;> rfl

@[simp] theorem fill_teams (st : Store) (a : Nat) : (s.fill n st a).teams = s.teams := by rw [fill_rest]
@[simp] theorem fill_crews (st : Store) (a : Nat) : (s.fill n st a).crews = s.crews := by rw [fill_rest]
@[simp] theorem fill_part (st : Store) (a : Nat) : (s.fill n st a).part k = s.part k := by rw [fill_rest]; rfl
@[simp] theorem fill_memOf (st st' : Store) (a : Nat) : (s.fill n st a).memOf st' = s.memOf st' := by rw [fill_rest]; cases st' <;> rfl

/-- A core's own copy of a line takes a store and nothing else changes. -/
theorem refresh_rest (st : Store) (a m v : Nat) : s.refresh n st a m v = { s with rcache := (s.refresh n st a m v).rcache } := by
  unfold refresh
  dsimp only
  split <;> rfl

@[simp] theorem refresh_memOf (st st' : Store) (a m v : Nat) : (s.refresh n st a m v).memOf st' = s.memOf st' := by
  rw [refresh_rest]; cases st' <;> rfl
@[simp] theorem cstore_memOf (st st' : Store) (a m v : Nat) : (s.cstore n st a m v).memOf st' = (s.store st a m v).memOf st' := by
  simp [cstore]

/-! The clock since which a request stands changes nothing that is read (R368). -/

@[simp] theorem asking_teams : (s.asking n).teams = s.teams := rfl
@[simp] theorem asking_crews : (s.asking n).crews = s.crews := rfl
@[simp] theorem asking_part : (s.asking n).part k = s.part k := rfl
@[simp] theorem asking_clock : (s.asking n).clock = s.clock := rfl
@[simp] theorem asking_asker : (s.asking n).asker = n := rfl
@[simp] theorem asking_memOf (st : Store) : (s.asking n).memOf st = s.memOf st := by cases st <;> rfl

end State

/-! ### Lanes -/

@[simp] theorem mem_lanesOf {n : Nat} {m : LaneMask} {l : Nat} : l ∈ lanesOf n m ↔ l < n ∧ m.getLsbD l = true := by
  simp [lanesOf]

theorem lane_lt {n : Nat} {m : LaneMask} {l : Nat} (h : l ∈ lanesOf n m) : l < 1024 := by
  have := (mem_lanesOf.mp h).2
  exact BitVec.lt_of_getLsbD this

@[simp] theorem getLsbD_laneBit (l k : Nat) : (laneBit l).getLsbD k = (decide (k < 1024) && decide (l = k)) := by
  unfold laneBit
  rw [BitVec.getLsbD_ofNat, Nat.testBit_two_pow]

theorem getLsbD_maskOf_acc (ls : List Nat) (m : LaneMask) (k : Nat) :
    (ls.foldl (fun m l => m ||| laneBit l) m).getLsbD k = (m.getLsbD k || (decide (k < 1024) && decide (k ∈ ls))) := by
  induction ls generalizing m with
  | nil => simp
  | cons a ls ih =>
    rw [List.foldl_cons, ih, BitVec.getLsbD_or, getLsbD_laneBit, Bool.or_assoc]
    by_cases ha : a = k
    · subst ha; cases h : decide (a < 1024) <;> simp
    · simp [ha, Ne.symm ha]

@[simp] theorem getLsbD_maskOf (ls : List Nat) (k : Nat) : (maskOf ls).getLsbD k = (decide (k < 1024) && decide (k ∈ ls)) := by
  simp [maskOf, getLsbD_maskOf_acc]

/-! ### A team's registers -/

namespace Team
variable (t : Team)

@[simp] theorem fillV_v (r : Nat) (m : LaneMask) (k l : Nat) : (t.fillV r m).v k l = t.v k l := rfl
@[simp] theorem fillV_s (r : Nat) (m : LaneMask) (k : Nat) : (t.fillV r m).s k = t.s k := rfl
@[simp] theorem fillV_p (r : Nat) (m : LaneMask) (k : Nat) : (t.fillV r m).p k = t.p k := rfl
@[simp] theorem fillS_v (r k l : Nat) : (t.fillS r).v k l = t.v k l := rfl
@[simp] theorem fillS_s (r k : Nat) : (t.fillS r).s k = t.s k := rfl
@[simp] theorem fillS_p (r k : Nat) : (t.fillS r).p k = t.p k := rfl

theorem sees_rest (c : Nat) : t.sees c = { t with readAt := some c } := rfl
@[simp] theorem sees_readAt (c : Nat) : (t.sees c).readAt = some c := rfl
@[simp] theorem sees_v (c r l : Nat) : (t.sees c).v r l = t.v r l := rfl
@[simp] theorem sees_s (c r : Nat) : (t.sees c).s r = t.s r := rfl
@[simp] theorem sees_p (c n : Nat) : (t.sees c).p n = t.p n := rfl
@[simp] theorem sees_entries (c : Nat) : (t.sees c).entries = t.entries := rfl

@[simp] theorem setV_s (r : Nat) (vs : List (Nat × Word)) (k : Nat) : (t.setV r vs).s k = t.s k := rfl
@[simp] theorem setV_p (r : Nat) (vs : List (Nat × Word)) (k : Nat) : (t.setV r vs).p k = t.p k := rfl
@[simp] theorem setS_v (r : Nat) (x : DWord) (k l : Nat) : (t.setS r x).v k l = t.v k l := rfl
@[simp] theorem setS_p (r : Nat) (x : DWord) (k : Nat) : (t.setS r x).p k = t.p k := rfl
@[simp] theorem setP_v (n : Nat) (m vals : LaneMask) (k l : Nat) : (t.setP n m vals).v k l = t.v k l := by
  unfold setP; split <;> rfl
@[simp] theorem setP_s (n : Nat) (m vals : LaneMask) (k : Nat) : (t.setP n m vals).s k = t.s k := by unfold setP; split <;> rfl

/-- A write of one value per lane read back at a lane it writes. -/
theorem setV_v_mem (r : Nat) (ls : List Nat) (f : Nat → Word) (l : Nat) (h : l ∈ ls) :
    (t.setV r (ls.map fun l => (l, f l))).v r l = f l := by
  simp only [v, setV, fillV, FMap.getD]
  rw [FMap.get?_foldl_set_mem ls f (fun l => 1024 * r + l) (by intro a b; simp) _ l h]
  rfl

/-- Other registers, and other lanes, keep their values. -/
theorem setV_v_ne (r : Nat) (vs : List (Nat × Word)) (k l : Nat) (hl : l < 1024) (hv : ∀ e ∈ vs, e.1 < 1024)
    (h : k ≠ r ∨ ∀ e ∈ vs, e.1 ≠ l) : (t.setV r vs).v k l = t.v k l := by
  simp only [v, setV, fillV, FMap.getD]
  rw [FMap.get?_foldl_set vs fun l => 1024 * r + l]
  intro e he hk
  have := hv e he
  rcases h with h | h
  · omega
  · have := h e he; omega

@[simp] theorem setS_s_self (r : Nat) (x : DWord) : (t.setS r x).s r = x := by simp [s, setS, fillS, FMap.getD]
theorem setS_s_ne (r k : Nat) (x : DWord) (h : k ≠ r) : (t.setS r x).s k = t.s k := by
  simp [s, setS, fillS, FMap.getD, FMap.get?_set_ne _ _ h]

@[simp] theorem p_zero : t.p 0 = BitVec.allOnes 1024 := rfl
@[simp] theorem setP_zero (m vals : LaneMask) : t.setP 0 m vals = t := rfl
theorem setP_p_self (n : Nat) (h : n ≠ 0) (m vals : LaneMask) : (t.setP n m vals).p n = (t.p n &&& ~~~m) ||| (vals &&& m) := by
  simp [setP, h, p, FMap.getD]
theorem setP_p_ne (n k : Nat) (m vals : LaneMask) (h : k ≠ n) : (t.setP n m vals).p k = t.p k := by
  unfold setP
  split
  · rfl
  · simp [p, FMap.getD, FMap.get?_set_ne _ _ h]

theorem fillV_emptyV_ne (r k : Nat) (m : LaneMask) (h : k ≠ r) : (t.fillV r m).emptyV.get? k = t.emptyV.get? k := by
  simp only [fillV]
  split
  · split
    · exact FMap.get?_erase_ne _ h
    · exact FMap.get?_set_ne _ _ h
  · rfl
theorem fillV_heldV_ne (r k : Nat) (m : LaneMask) (h : k ≠ r) : (t.fillV r m).heldV.get? k = t.heldV.get? k := by
  simp only [fillV]
  split
  · split
    · exact FMap.get?_erase_ne _ h
    · exact FMap.get?_set_ne _ _ h
  · rfl
theorem setV_emptyV_ne (r k : Nat) (vs : List (Nat × Word)) (h : k ≠ r) : (t.setV r vs).emptyV.get? k = t.emptyV.get? k :=
  fillV_emptyV_ne _ r k _ h
theorem setV_heldV_ne (r k : Nat) (vs : List (Nat × Word)) (h : k ≠ r) : (t.setV r vs).heldV.get? k = t.heldV.get? k :=
  fillV_heldV_ne _ r k _ h
theorem setS_emptyS_ne (r k : Nat) (x : DWord) (h : k ≠ r) : (t.setS r x).emptyS.get? k = t.emptyS.get? k :=
  FMap.get?_erase_ne _ h
theorem setS_heldS_ne (r k : Nat) (x : DWord) (h : k ≠ r) : (t.setS r x).heldS.get? k = t.heldS.get? k := FMap.get?_erase_ne _ h

/-- A team after register writes alone. -/
def regsFrom (t u : Team) : Team :=
  { t with vregs := u.vregs, sregs := u.sregs, preds := u.preds, emptyV := u.emptyV, emptyS := u.emptyS, heldV := u.heldV, heldS := u.heldS }

theorem setV_regs (r : Nat) (vs : List (Nat × Word)) : t.setV r vs = t.regsFrom (t.setV r vs) := rfl
theorem setS_regs (r : Nat) (x : DWord) : t.setS r x = t.regsFrom (t.setS r x) := rfl
theorem setP_regs (n : Nat) (m vals : LaneMask) : t.setP n m vals = t.regsFrom (t.setP n m vals) := by unfold setP; split <;> rfl

end Team

end Sys2Proof.Machine
end

