-- ==== Sys2Proof/Laws/Core.lean ====
section
/-! SUPPORT. What a core instruction that is ready does, once for every instruction that only writes registers. -/

namespace Sys2Proof.Machine
open Claims

set_option Elab.async false

/-- The gate of a ready instruction. -/
theorem gate_of_ready {s : State} {i : Instr} {x : Ctx} (h : Ready s i x) : gate s i = .go x := by
  obtain ⟨f, hf, hm, hs, hb, hw, he⟩ := h.form
  obtain ⟨tid, t, crew, e, spin, m, ls⟩ := x
  have hl := h.lanes; have h1 := h.cur; have h2 := h.team; have h3 := h.crew; have h4 := h.entry
  have h5 := h.atomic; have h6 := h.port; have h7 := h.sign; have h8 := h.own; have h9 := h.mirror
  simp only at hl h1 h2 h3 h4 h5 h6 h7 h8 h9 hm hs hb hw he
  subst hs hl hm
  have h10 : (t.sig == .waiting) = false := by simpa using h7
  have hown : (e.mask &&& t.guard f.ctl.g != 0 && ownWait s ⟨tid, t, crew, e, f.ctl.h.getLsbD 7, e.mask &&& t.guard f.ctl.g,
      lanesOf t.nlanes (e.mask &&& t.guard f.ctl.g)⟩ i) = false := by
    by_cases hz : e.mask &&& t.guard f.ctl.g = 0
    · simp [hz]
    · rw [h8 hz, Bool.and_false]
  have hsig : (e.mask &&& t.guard f.ctl.g != 0 && i.signed && !crew.shadow.isEmpty && t.sig == .idle) = false := by
    by_cases hz : e.mask &&& t.guard f.ctl.g = 0
    · simp [hz]
    · cases hi : i.signed
      · simp
      · rcases h9 hz hi with h | h
        · simp [h]
        · have : (t.sig == .idle) = false := by simpa using h
          simp [this]
  unfold gate
  simp only [h1, h2, h4, h3, hf, h5, h6, hb, hw, he, h10, Option.isSome_none]
  rw [hown, hsig]
  simp

/-- The gate lets through a ready instruction, or one whose team has a failed access to report (R357). -/
theorem ready_of_gate {s : State} {i : Instr} {x : Ctx} (h : gate s i = .go x) (hp : x.t.portFail = none) : Ready s i x := by
  unfold gate at h
  split at h
  · simp at h
  rename_i tid hcur
  split at h
  · simp at h
  rename_i t ht
  split at h
  · rename_i e crew f he hc hf
    dsimp only at h
    split at h
    · simp at h
    rename_i hat
    split at h
    · simp at h
    rename_i hb
    split at h
    · split at h <;> simp at h
    rename_i hw
    split at h
    · simp at h
    rename_i hempty
    split at h
    · simp at h
    rename_i hsig
    cases h
    simp only at hp
    simp only [Bool.or_eq_true, not_or, Bool.and_eq_true, not_and, Bool.not_eq_true, beq_iff_eq, bne_iff_ne, ne_eq, hp, Option.isNone_none,
      not_true_eq_false] at hw hb hempty hsig hat
    constructor
    · exact hcur
    · exact ht
    · exact hc
    · exact he
    · rfl
    · exact ⟨f, hf, rfl, rfl, hb, hw.1.2, hempty⟩
    · simpa using hat
    · exact hp
    · exact hw.1.1
    · intro hm; exact hw.2 hm
    · intro hm hi
      by_cases hs : crew.shadow = []
      · exact .inl hs
      · exact .inr fun hidle => hsig ⟨⟨⟨hm, hi⟩, by simpa using hs⟩, hidle⟩
  · simp at h
/-- A ready instruction has its own effect. -/
theorem core_of_ready {s : State} {i : Instr} {x : Ctx} (h : Ready s i x) (k : Ctx → State) : core s i k = .next (k x) := by
  simp [core, gate_of_ready h, h.port]

/-! ### Going on at the next PC -/

/-- The entries after lanes arrive: the old ones stay and may grow, and one at the PC holds the lanes (R34). -/
theorem arrive_entries (t : Team) (flag : VAddr → Bool) (pc : PC) (m : LaneMask) (back : Bool) :
    (∃ e ∈ (t.arrive flag pc m back).entries, e.pc = pc ∧ m &&& ~~~e.mask = 0) ∧
    ∀ e ∈ t.entries, ∃ e' ∈ (t.arrive flag pc m back).entries,
      e'.ins = e.ins ∧ e'.pc = e.pc ∧ e'.hold = e.hold ∧ e.mask &&& ~~~e'.mask = 0 := by
  have key : ∀ a b : LaneMask, a &&& ~~~(b ||| a) = 0 ∧ a &&& ~~~(a ||| b) = 0 ∧ a &&& ~~~a = 0 := by
    intro a b
    refine ⟨?_, ?_, ?_⟩ <;> ext i hi <;> simp <;> cases a[i] <;> simp
  have ins : (∃ e ∈ (t.insert pc m back).entries, e.pc = pc ∧ m &&& ~~~e.mask = 0) ∧
      ∀ e ∈ t.entries, ∃ e' ∈ (t.insert pc m back).entries,
        e'.ins = e.ins ∧ e'.pc = e.pc ∧ e'.hold = e.hold ∧ e.mask &&& ~~~e'.mask = 0 := by
    refine ⟨⟨{ ins := t.nextIns, pc, mask := m, back }, by simp [Team.insert], rfl, (key m m).2.2⟩, ?_⟩
    intro e he
    exact ⟨e, by simp [Team.insert, he], rfl, rfl, rfl, (key e.mask m).2.2⟩
  unfold Team.arrive
  split
  · rename_i w hw
    split
    · have hm := List.mem_of_find?_eq_some hw
      have hp := List.find?_some hw
      simp only [Bool.and_eq_true, beq_iff_eq] at hp
      refine ⟨⟨{ w with mask := w.mask ||| m, back := w.back || back }, ?_, hp.1, (key m w.mask).1⟩, ?_⟩
      · exact List.mem_map.mpr ⟨w, hm, by simp⟩
      · intro e he
        by_cases hi : e.ins = w.ins
        · exact ⟨{ e with mask := e.mask ||| m, back := e.back || back }, List.mem_map.mpr ⟨e, he, by simp [hi]⟩, rfl, rfl, rfl,
            (key e.mask m).2.1⟩
        · exact ⟨e, List.mem_map.mpr ⟨e, he, by simp [hi]⟩, rfl, rfl, rfl, (key e.mask m).2.2⟩
    · exact ins
  · exact ins

/-- Arrival touches the entries alone. -/
theorem arrive_rest (t : Team) (flag : VAddr → Bool) (pc : PC) (m : LaneMask) (back : Bool) :
    t.arrive flag pc m back =
      { t with entries := (t.arrive flag pc m back).entries, nextIns := (t.arrive flag pc m back).nextIns } := by
  unfold Team.arrive
  split
  · split <;> rfl
  · rfl

/-- The team after an instruction whose lanes all go on. -/
def doneTeam (flag : VAddr → Bool) (x : Ctx) (t : Team) : Team :=
  let n := t.nextPC x.e.pc
  let t0 : Team := { t with
    entries := t.entries.filter fun e => e.ins != x.e.ins
    run := none, sig := .idle
    once := if t.once == some x.e.ins then none else t.once }
  if x.e.mask = 0 then t0
  else if n.slot = 0 then t0.arrive flag n x.e.mask x.spin
  else { t0 with
    entries := t0.entries ++ [{ x.e with pc := n, mask := x.e.mask, back := x.spin }]
    run := if !x.spin then some x.e.ins else none }

theorem done_eq (s : State) (x : Ctx) (t : Team) :
    done s x t = s.setTeam x.tid (doneTeam (s.entryBit x.part x.core) x t) := by
  simp only [done, settle, doneTeam, List.foldl_nil, List.isEmpty_nil, Bool.not_false, Bool.and_true, Bool.true_and]

theorem doneTeam_rest (flag : VAddr → Bool) (x : Ctx) (t : Team) :
    doneTeam flag x t = { t with
      entries := (doneTeam flag x t).entries, nextIns := (doneTeam flag x t).nextIns, run := (doneTeam flag x t).run, sig := .idle
      once := (doneTeam flag x t).once } := by
  unfold doneTeam
  simp only
  split
  · rfl
  · split
    · rw [arrive_rest]
    · rfl

theorem doneTeam_goes (flag : VAddr → Bool) (x : Ctx) (t : Team) (he : t.entries = x.t.entries)
    (hn : t.nextPC x.e.pc = x.t.nextPC x.e.pc) : GoesOn x (doneTeam flag x t) := by
  have self : ∀ a : LaneMask, a &&& ~~~a = 0 := by intro a; ext i hi; simp
  constructor
  · intro hz
    unfold doneTeam
    simp only [hz, if_false, hn]
    split
    · exact (arrive_entries _ _ _ _ _).1
    · exact ⟨{ x.e with pc := x.t.nextPC x.e.pc, mask := x.e.mask, back := x.spin }, by simp, rfl, self _⟩
  · intro e hmem hi
    have hm : e ∈ t.entries.filter fun e => e.ins != x.e.ins := by simp [he, hmem, hi]
    unfold doneTeam
    simp only [hn]
    split
    · exact ⟨e, hm, rfl, rfl, rfl, self _⟩
    · split
      · exact (arrive_entries _ _ _ _ _).2 e hm
      · exact ⟨e, by simp [he, hmem, hi], rfl, rfl, rfl, self _⟩

/-- An instruction that only changes registers of its team completes. -/
theorem completes_of_done {s : State} {i : Instr} {x : Ctx} (h : Ready s i x) (k : Ctx → State) (t : Team) {vr sr pr : List Nat}
    (hi : exec i s = core s i k) (hk : k x = done s x t) (hr : t = x.t.regsFrom t) (regs : SameRegs x t vr sr pr) :
    ∃ s' t', Completes i s x vr sr pr s' t' ∧ t'.vregs = t.vregs ∧ t'.sregs = t.sregs ∧ t'.preds = t.preds := by
  have hd := doneTeam_rest (s.entryBit x.part x.core) x t
  refine ⟨done s x t, doneTeam (s.entryBit x.part x.core) x t, ?_, ?_, ?_, ?_⟩
  · constructor
    · rw [hi, core_of_ready h, hk]
    · constructor
      · rw [done_eq]; rfl
      · intro n hn; rw [done_eq]; exact State.setTeam_get_ne _ _ _ _ hn
    · intro st a; rw [done_eq, State.setTeam_memOf]
    · rw [done_eq, State.setTeam_get]
    · rw [hd, hr]; rfl
    · constructor
      · intro r l hl hh; rw [hd]; exact regs.v r l hl hh
      · intro r hh; rw [hd]; exact regs.s r hh
      · intro n hh; rw [hd]; exact regs.p n hh
      · intro n l hl hh; rw [hd]; exact regs.lanes n l hl hh
      · intro r hh; rw [hd]; exact regs.emptyV r hh
      · intro r hh; rw [hd]; exact regs.emptyS r hh
    · apply doneTeam_goes
      · rw [hr]; rfl
      · rw [hr]; rfl
  · rw [hd]
  · rw [hd]
  · rw [hd]

theorem sameRegs_refl (x : Ctx) (vr sr pr : List Nat) : SameRegs x x.t vr sr pr := by
  constructor <;> intros <;> first | rfl | exact ⟨rfl, rfl⟩

/-- Registers of a vector write (R202). -/
theorem sameRegs_setV (x : Ctx) (hl : x.ls = lanesOf x.t.nlanes x.m) (d : Nat) (f : Nat → Word) :
    SameRegs x (x.t.setV d (x.ls.map fun l => (l, f l))) [d] [] [] := by
  have lt : ∀ e ∈ x.ls.map fun l => (l, f l), e.1 < 1024 := by
    intro e he
    obtain ⟨l, h, rfl⟩ := List.mem_map.mp he
    exact lane_lt (hl ▸ h)
  constructor
  · intro r l h1 h2
    refine Team.setV_v_ne _ _ _ _ _ h1 lt ?_
    rcases h2 with h2 | h2
    · exact .inl (by simpa using h2)
    · refine .inr fun e he hn => h2 ?_
      obtain ⟨k, hk, rfl⟩ := List.mem_map.mp he
      exact hn ▸ hk
  · intros; rfl
  · intros; rfl
  · intros; rfl
  · intro r hr
    exact ⟨Team.setV_emptyV_ne _ _ _ _ (by simpa using hr), Team.setV_heldV_ne _ _ _ _ (by simpa using hr)⟩
  · intros; exact ⟨rfl, rfl⟩

/-- A form with one word per participant. -/
theorem laneResult_vec {i : Instr} {d : Nat} {f : State → Ctx → Nat → Word} (k : State → Ctx → State)
    (hi : ∀ s, exec i s = core s i (k s)) (hk : ∀ s x, k s x = vec s x d (f s x)) : LaneResult i d f := by
  intro s x h
  obtain ⟨s', t', hc, hv, -, -⟩ := completes_of_done h (k s) (x.t.setV d (x.ls.map fun l => (l, f s x l))) (hi s) (hk s x) rfl
    (sameRegs_setV x h.lanes d _)
  refine ⟨s', t', hc, fun l hl => ?_⟩
  have := Team.setV_v_mem x.t d x.ls (f s x) l hl
  simpa only [Team.v, hv] using this

/-- A form with one pair per participant. -/
theorem pairResult_vec64 {i : Instr} {d : Nat} {f : State → Ctx → Nat → DWord} (k : State → Ctx → State)
    (hi : ∀ s, exec i s = core s i (k s)) (hk : ∀ s x, k s x = vec64 s x d (f s x)) : PairResult i d f := by
  intro s x h
  let t1 := x.t.setV d (x.ls.map fun l => (l, (f s x l).extractLsb' 0 32))
  let t2 := t1.setV (d + 1) (x.ls.map fun l => (l, (f s x l).extractLsb' 32 32))
  have ht : x.t.setV64 d (x.ls.map fun l => (l, f s x l)) = t2 := by
    simp only [Team.setV64, List.map_map, t2, t1]; rfl
  have lt : ∀ (g : Nat → Word), ∀ e ∈ x.ls.map fun l => (l, g l), e.1 < 1024 := by
    intro g e he
    obtain ⟨l, hl, rfl⟩ := List.mem_map.mp he
    exact lane_lt (h.lanes ▸ hl)
  have hr : t2 = x.t.regsFrom t2 := rfl
  have regs : SameRegs x t2 [d, d + 1] [] [] := by
    have a := sameRegs_setV x h.lanes d fun l => (f s x l).extractLsb' 0 32
    constructor
    · intro r l h1 h2
      have : t2.v r l = t1.v r l := by
        refine Team.setV_v_ne _ _ _ _ _ h1 (lt _) ?_
        rcases h2 with h2 | h2
        · exact .inl fun he => h2 (by simp [he])
        · refine .inr fun e he hn => h2 ?_
          obtain ⟨k, hk, rfl⟩ := List.mem_map.mp he
          exact hn ▸ hk
      rw [this]
      refine a.v r l h1 ?_
      rcases h2 with h2 | h2
      · exact .inl fun he => h2 (by simp at he; simp [he])
      · exact .inr h2
    · intros; rfl
    · intros; rfl
    · intros; rfl
    · intro r hr
      have h1 : r ≠ d + 1 := fun he => hr (by simp [he])
      have h2 := a.emptyV r fun he => hr (by simp at he; simp [he])
      exact ⟨(Team.setV_emptyV_ne _ _ _ _ h1).trans h2.1, (Team.setV_heldV_ne _ _ _ _ h1).trans h2.2⟩
    · intros; exact ⟨rfl, rfl⟩
  obtain ⟨s', t', hc, hv, -, -⟩ := completes_of_done h (k s) t2 (hi s) (by rw [hk, vec64, ht]) hr regs
  refine ⟨s', t', hc, fun l hl => ?_⟩
  have h1 : t2.v (d + 1) l = (f s x l).extractLsb' 32 32 := Team.setV_v_mem t1 (d + 1) x.ls (fun l => (f s x l).extractLsb' 32 32) l hl
  have h2 : t2.v d l = (f s x l).extractLsb' 0 32 := by
    rw [show t2.v d l = t1.v d l from Team.setV_v_ne _ _ _ _ _ (lane_lt (h.lanes ▸ hl)) (lt _) (.inl (by omega))]
    exact Team.setV_v_mem x.t d x.ls (fun l => (f s x l).extractLsb' 0 32) l hl
  have : t'.v64 d l = t2.v64 d l := by simp only [Team.v64, Team.v, hv]
  rw [this, Team.v64, h1, h2]
  ext i hi
  simp only [BitVec.getElem_append, BitVec.getElem_extractLsb']
  split
  · simp [← BitVec.getLsbD_eq_getElem]
  · rw [show 32 + (i - 32) = i by omega, BitVec.getLsbD_eq_getElem]

/-- A form of either float type. -/
theorem floatResult_vecf {i : Instr} {ty : FTy} {d : Nat} {f : State → Ctx → Nat → Nat} (k : State → Ctx → State)
    (hi : ∀ s, exec i s = core s i (k s)) (hk : ∀ s x, k s x = vecf s x ty d (f s x)) : FloatResult i ty d f := by
  cases ty
  · exact laneResult_vec k hi hk
  · exact pairResult_vec64 k hi hk

/-- A form with one predicate per participant; a write to p0 is discarded (R219). -/
theorem predResult_setP {i : Instr} {d : Nat} {f : State → Ctx → Nat → Bool} (k : State → Ctx → State)
    (g : State → Ctx → LaneMask) (hi : ∀ s, exec i s = core s i (k s)) (hk : ∀ s x, k s x = done s x (x.t.setP d x.m (g s x)))
    (hg : ∀ s x l, l ∈ x.ls → l < 1024 → (g s x).getLsbD l = f s x l) : PredResult i d f := by
  intro s x h
  have regs : SameRegs x (x.t.setP d x.m (g s x)) [] [] [d] := by
    constructor
    · intros; simp
    · intros; simp
    · intro n hn; exact Team.setP_p_ne _ _ _ _ _ (by simpa using hn)
    · intro n l hl hm
      by_cases hn : n = d
      · subst hn
        by_cases h0 : n = 0
        · subst h0; rfl
        · rw [Team.setP_p_self _ _ h0]
          simp only [BitVec.getLsbD_or, BitVec.getLsbD_and, BitVec.getLsbD_not, hm, hl, decide_true, Bool.not_false, Bool.and_true,
            Bool.and_false, Bool.or_false]
      · rw [Team.setP_p_ne _ _ _ _ _ hn]
    · intro r _; rw [Team.setP_regs]; exact ⟨by unfold Team.setP; split <;> rfl, by unfold Team.setP; split <;> rfl⟩
    · intro r _; rw [Team.setP_regs]; exact ⟨by unfold Team.setP; split <;> rfl, by unfold Team.setP; split <;> rfl⟩
  obtain ⟨s', t', hc, -, -, hp⟩ := completes_of_done h (k s) _ (hi s) (hk s x) (Team.setP_regs _ _ _ _) regs
  refine ⟨s', t', hc, fun l hl => ?_⟩
  have hl' : l < 1024 := lane_lt (h.lanes ▸ hl)
  have hm : x.m.getLsbD l = true := (mem_lanesOf.mp (h.lanes ▸ hl)).2
  have e : t'.p d = (x.t.setP d x.m (g s x)).p d := by unfold Team.p; rw [hp]
  rw [e]
  by_cases h0 : d = 0
  · subst h0; rw [Team.setP_zero, Team.p_zero, BitVec.getLsbD_allOnes]; simp [hl']
  · rw [Team.setP_p_self _ _ h0]
    have := hg s x l hl hl'
    have hd : (d == 0) = false := by simpa using h0
    simp only [BitVec.getLsbD_or, BitVec.getLsbD_and, BitVec.getLsbD_not, hm, hl', this, hd, decide_true, Bool.not_true, Bool.and_true,
      Bool.and_false, Bool.false_or]

theorem getLsbD_predMask (ls : List Nat) (f : Nat → Bool) (l : Nat) (hl : l ∈ ls) (h : l < 1024) :
    (predMask ls f).getLsbD l = f l := by
  simp only [predMask, getLsbD_maskOf, h, decide_true, Bool.true_and, List.mem_filter, hl, true_and]
  cases f l <;> simp

theorem predResult_predv {i : Instr} {d : Nat} {f : State → Ctx → Nat → Bool} (k : State → Ctx → State)
    (hi : ∀ s, exec i s = core s i (k s)) (hk : ∀ s x, k s x = predv s x d (f s x)) : PredResult i d f :=
  predResult_setP k (fun s x => predMask x.ls (f s x)) hi (fun s x => by rw [hk]; rfl) fun s x l hl h => getLsbD_predMask _ _ _ hl h

/-- A form with one result for the team. -/
theorem scalarResult_scal {i : Instr} {d : Nat} {f : State → Ctx → DWord} (k : State → Ctx → State)
    (hi : ∀ s, exec i s = core s i (k s)) (hk : ∀ s x, k s x = scal s x d (f s x)) : ScalarResult i d f := by
  intro s x h
  have regs : SameRegs x (if x.m = 0 then x.t else x.t.setS d (f s x)) [] [d] [] := by
    split
    · exact sameRegs_refl _ _ _ _
    · constructor
      · intros; rfl
      · intro r hr; exact Team.setS_s_ne _ _ _ _ (by simpa using hr)
      · intros; rfl
      · intros; rfl
      · intros; exact ⟨rfl, rfl⟩
      · intro r hr; exact ⟨Team.setS_emptyS_ne _ _ _ _ (by simpa using hr), Team.setS_heldS_ne _ _ _ _ (by simpa using hr)⟩
  obtain ⟨s', t', hc, -, hs, -⟩ := completes_of_done h (k s) _ (hi s) (hk s x) (by split <;> rfl) regs
  refine ⟨s', t', hc, ?_⟩
  have e : t'.s d = (if x.m = 0 then x.t else x.t.setS d (f s x)).s d := by unfold Team.s; rw [hs]
  rw [e]
  split <;> simp

/-! ### Cores and Spindles -/

/-- The first crew of a core is noted and nothing else changes (R45). -/
theorem startCores_rest (s : State) (l : List Nat) : s.startCores l = { s with firstWork := (s.startCores l).firstWork } := rfl

/-- The end of a clock may put an operation under way on a Spindle, and changes nothing else (R39). -/
theorem spinStart_rest (s : State) (core : Nat) : spinStart s core = { s with spinNow := (spinStart s core).spinNow } := by
  unfold spinStart
  split <;> rfl

/-- An operation that is under way on a Spindle and that none has overtaken stays the one under way (R39). -/
theorem spinStart_underWay (s : State) (core : Nat) (e : Nat × SpinOp) (h : underWay s core = some e) : spinStart s core = s := by
  simp [spinStart, h]

end Sys2Proof.Machine
end

