-- ==== Sys2Proof/Laws/Encoding.lean ====
section
/-! SUPPORT. The field codes of the encoding and their inverses (Tables 10.2 to 10.13): bounds, and reading back. -/

namespace Sys2Proof

set_option Elab.async false

@[simp] theorem fin?_val {k : Nat} (x : Fin k) : fin? k x.val = some x := by simp [fin?]
@[simp] theorem sreg?_code (r : SReg) : sreg? (384 + r.val) = some r := by simp [sreg?]
@[simp] theorem bool?_toNat (b : Bool) : bool? b.toNat = some b := by cases b <;> rfl
@[simp] theorem wide?_code (b : Bool) : wide? (wideCode b) = some b := by cases b <;> rfl
@[simp] theorem RM.ofCode_code (x : RM) : RM.ofCode x.code = some x := by cases x <;> rfl
@[simp] theorem CC.ofCode_code (x : CC) : CC.ofCode x.code = some x := by cases x <;> rfl
@[simp] theorem AluOp.ofCode_code (x : AluOp) : AluOp.ofCode x.code = some x := by cases x <;> rfl
@[simp] theorem Fmt.ofCode_code (x : Fmt) : Fmt.ofCode x.code = some x := by cases x <;> rfl
@[simp] theorem AFmt.ofCode_code (x : AFmt) : AFmt.ofCode x.code = some x := by cases x <;> rfl
@[simp] theorem BFmt.ofCode_code (x : BFmt) : BFmt.ofCode x.code = some x := by cases x <;> rfl
@[simp] theorem Space.ofCode_code (x : Space) : Space.ofCode x.code = some x := by cases x <;> rfl
@[simp] theorem Scope.ofCode_code (x : Scope) : Scope.ofCode x.code = some x := by cases x <;> rfl
@[simp] theorem Order.ofCode_code (x : Order) : Order.ofCode x.code = some x := by cases x <;> rfl
@[simp] theorem FenceMode.ofCode_code (x : FenceMode) : FenceMode.ofCode x.code = some x := by cases x <;> rfl
@[simp] theorem Width.ofCode_code (x : Width) : Width.ofCode x.code = some x := by cases x <;> rfl
@[simp] theorem FTy.ofCode_code (x : FTy) : FTy.ofCode x.code = some x := by cases x <;> rfl
@[simp] theorem HTy.ofCode_code (x : HTy) : HTy.ofCode x.code = some x := by cases x <;> rfl
@[simp] theorem KTy.ofCode_code (x : KTy) : KTy.ofCode x.code = some x := by cases x <;> rfl
@[simp] theorem BTy.ofCode_code (x : BTy) : BTy.ofCode x.code = some x := by cases x <;> rfl
@[simp] theorem RedOp.ofCode_code (x : RedOp) : RedOp.ofCode x.code = some x := by cases x <;> rfl
@[simp] theorem WaitCmp.ofCode_code (x : WaitCmp) : WaitCmp.ofCode x.code = some x := by cases x <;> rfl
@[simp] theorem Spec.ofCode_code (x : Spec) : Spec.ofCode x.code = some x := by cases x <;> rfl

@[simp] theorem VC.ofCode_code (x : VC) : VC.ofCode x.code = some x := by
  cases x with
  | v r => simp [VC.code, VC.ofCode, r.isLt]
  | s r => simp [VC.code, VC.ofCode]
@[simp] theorem VB.ofFields_code (b : VB) : VB.ofFields b.num b.flag b.val = some b := by
  cases b <;> simp [VB.ofFields, VB.num, VB.flag, VB.val]
@[simp] theorem SB.ofFields_code (b : SB) : SB.ofFields b.num b.flag b.val = some b := by
  cases b <;> simp [SB.ofFields, SB.num, SB.flag, SB.val]
@[simp] theorem KB.ofFields_code (b : KB) : KB.ofFields b.num b.flag b.val = some b := by
  cases b <;> simp [KB.ofFields, KB.num, KB.flag, KB.val]
@[simp] theorem LB.ofFields_code (b : LB) : LB.ofFields b.num b.flag b.val = some b := by
  cases b <;> simp [LB.ofFields, LB.num, LB.flag, LB.val]
@[simp] theorem buf?_code (b : Option BufNo) : buf? b.isSome.toNat (optBuf b) = some b := by
  cases b <;> simp [buf?, optBuf]
@[simp] theorem masked?_code (x : QSel) : masked? (maskedCode x) = some x := by
  obtain ⟨m, q⟩ := x
  have h : (m.toNat + 2 * q.val) / 2 = q.val := by have := m.toNat_lt; omega
  cases m <;> simp [masked?, maskedCode, Nat.add_mod] at * <;> simp [h]
@[simp] theorem redUns?_code (op : RedOp) (uns : Bool) (h : op = .fadd → uns = false) : redUns? (redTy op uns) = some uns := by
  by_cases e : op = .fadd
  · simp [redTy, e, redUns?, h e]
  · cases uns <;> simp [redTy, e, redUns?]

theorem RM.code_lt (x : RM) : x.code < 4 := by cases x <;> decide
theorem CC.code_lt (x : CC) : x.code < 10 := by cases x <;> decide
theorem AluOp.code_lt (x : AluOp) : x.code < 11 := by cases x <;> decide
theorem Fmt.code_lt (x : Fmt) : x.code < 14 := by cases x <;> decide
theorem AFmt.code_lt (x : AFmt) : x.code < 8 := by cases x <;> decide
theorem BFmt.code_lt (x : BFmt) : x.code < 8 := by cases x <;> decide
theorem Space.code_lt (x : Space) : x.code < 4 := by cases x <;> decide
theorem Scope.code_lt (x : Scope) : x.code < 8 := by cases x <;> decide
theorem Order.code_lt (x : Order) : x.code < 4 := by cases x <;> decide
theorem FenceMode.code_lt (x : FenceMode) : x.code < 4 := by cases x <;> decide
theorem Width.code_lt (x : Width) : x.code < 8 := by cases x <;> decide
@[simp] theorem Width.code_mod (x : Width) : x.code % 8 = x.code := by cases x <;> rfl
theorem FTy.code_lt (x : FTy) : x.code < 2 := by cases x <;> decide
theorem HTy.code_lt (x : HTy) : x.code < 2 := by cases x <;> decide
theorem KTy.code_lt (x : KTy) : x.code < 3 := by cases x <;> decide
theorem BTy.code_lt (x : BTy) : x.code < 3 := by cases x <;> decide
theorem RedOp.code_lt (x : RedOp) : x.code < 9 := by cases x <;> decide
theorem WaitCmp.code_lt (x : WaitCmp) : x.code < 4 := by cases x <;> decide
theorem Spec.code_lt (x : Spec) : x.code < 512 := by cases x <;> decide
theorem wideCode_lt (b : Bool) : wideCode b < 8 := by cases b <;> decide
theorem redTy_lt (op : RedOp) (uns : Bool) : redTy op uns < 4 := by cases uns <;> cases op <;> decide
theorem VC.code_lt (x : VC) : x.code < 512 := by cases x <;> simp only [VC.code] <;> omega
theorem VB.num_lt (b : VB) : b.num < 512 := by cases b <;> simp only [VB.num] <;> omega
theorem VB.flag_lt (b : VB) : b.flag < 2 := by cases b <;> simp [flag]
theorem VB.val_lt (b : VB) : b.val < 4294967296 := by cases b <;> simp only [VB.val] <;> omega
theorem SB.num_lt (b : SB) : b.num < 512 := by cases b <;> simp only [SB.num] <;> omega
theorem SB.flag_lt (b : SB) : b.flag < 2 := by cases b <;> simp [flag]
theorem SB.val_lt (b : SB) : b.val < 4294967296 := by cases b <;> simp only [SB.val] <;> omega
theorem KB.num_lt (b : KB) : b.num < 512 := by cases b <;> simp only [KB.num] <;> omega
theorem KB.flag_lt (b : KB) : b.flag < 2 := by cases b <;> simp [flag]
theorem KB.val_lt (b : KB) : b.val < 4294967296 := by cases b <;> simp only [KB.val] <;> omega
theorem LB.num_lt (b : LB) : b.num < 512 := by cases b <;> simp only [LB.num] <;> omega
theorem LB.flag_lt (b : LB) : b.flag < 2 := by cases b <;> simp [flag]
theorem LB.val_lt (b : LB) : b.val < 32 := by cases b <;> simp only [LB.val] <;> omega
theorem maskedCode_lt (x : QSel) : maskedCode x < 16 := by have := x.masked.toNat_lt; simp only [maskedCode]; omega
theorem optBuf_lt (b : Option BufNo) : optBuf b < 256 := by cases b <;> simp only [optBuf] <;> omega
theorem barCode_lt (b : Option BarRef) : barCode b < 2048 := by
  rcases b with _ | ⟨r, _ | _, _ | _⟩ <;> simp only [barCode] <;> omega
theorem MemOp.code_lt (m : MemOp) : m.code < 256 := by
  have := m.space.code_lt; have := m.order.code_lt; have := m.scope.code_lt; simp only [MemOp.code]; omega
theorem LX.code_lt (lx : LX) : lx.code < 2 ^ 27 := by
  have := lx.lead.toNat_lt; have := lx.absent.isLt
  rcases lx with ⟨_ | x, l, p⟩
  · simp only [LX.code] at *; omega
  · have := x.code_lt; simp only [LX.code] at *; omega

@[simp] theorem MemOp.ofFields_code (m : MemOp) : MemOp.ofFields (384 + m.base.val) m.off.val m.code = some m := by
  have h1 := m.space.code_lt; have h2 := m.order.code_lt; have h3 := m.scope.code_lt
  have e1 : m.code % 4 = m.space.code := by simp only [MemOp.code]; omega
  have e2 : m.code / 4 % 4 = m.order.code := by simp only [MemOp.code]; omega
  have e3 : m.code / 16 % 8 = m.scope.code := by simp only [MemOp.code]; omega
  simp [MemOp.ofFields, e1, e2, e3]

@[simp] theorem bar?_code (b : Option BarRef) (h : barOk b = true) : bar? b.isSome.toNat (barCode b) = some b := by
  rcases b with _ | ⟨r, i, o⟩
  · simp [bar?]
  · have := r.isLt
    cases i <;> cases o <;> simp [barOk] at h <;> simp only [bar?, barCode, Option.isSome_some, Bool.toNat_true] <;>
      (first
        | (rw [show (384 + r.val + 512 * 0) % 512 = 384 + r.val by omega, show (384 + r.val + 512 * 0) / 512 = 0 by omega])
        | (rw [show (384 + r.val + 512 * 1) % 512 = 384 + r.val by omega, show (384 + r.val + 512 * 1) / 512 = 1 by omega])
        | (rw [show (384 + r.val + 512 * 2) % 512 = 384 + r.val by omega, show (384 + r.val + 512 * 2) / 512 = 2 by omega])) <;>
      simp

/-- X of Table 10.9, with a lane of SHFL above it or none. -/
theorem LX.ofCode_code (lx : LX) (n : Nat) (hn : n < 32) : LX.ofCode (65536 * n + lx.code) = some lx := by
  have hl := lx.lead.toNat_lt; have hp := lx.absent.isLt
  rcases lx with ⟨_ | x, l, p⟩
  · simp only [LX.code] at *
    have e1 : (65536 * n + (4096 + 8192 * l.toNat + 16777216 * p.val)) / 16777216 % 8 = p.val := by omega
    have e2 : (65536 * n + (4096 + 8192 * l.toNat + 16777216 * p.val)) / 8192 % 2 = l.toNat := by omega
    have e3 : (65536 * n + (4096 + 8192 * l.toNat + 16777216 * p.val)) / 4096 % 2 = 1 := by omega
    simp [LX.ofCode, e1, e2, e3]
  · have hx := x.code_lt
    simp only [LX.code] at *
    have e1 : (65536 * n + (x.code + 8192 * l.toNat + 16777216 * p.val)) / 16777216 % 8 = p.val := by omega
    have e2 : (65536 * n + (x.code + 8192 * l.toNat + 16777216 * p.val)) / 8192 % 2 = l.toNat := by omega
    have e3 : (65536 * n + (x.code + 8192 * l.toNat + 16777216 * p.val)) / 4096 % 2 = 0 := by omega
    have e4 : (65536 * n + (x.code + 8192 * l.toNat + 16777216 * p.val)) % 512 = x.code := by omega
    simp [LX.ofCode, e1, e2, e3, e4]
@[simp] theorem LX.ofCode_code' (lx : LX) : LX.ofCode lx.code = some lx := by
  simpa using LX.ofCode_code lx 0 (by omega)

@[simp] theorem LX.ofCode_lb (lx : LX) (b : LB) : LX.ofCode (65536 * b.val + lx.code) = some lx := LX.ofCode_code lx _ b.val_lt
theorem LX.code_mid (lx : LX) : lx.code / 65536 % 32 = 0 := by
  have := lx.lead.toNat_lt; have := lx.absent.isLt
  rcases lx with ⟨_ | x, l, p⟩
  · simp only [LX.code] at *; omega
  · have := x.code_lt; simp only [LX.code] at *; omega

@[simp] theorem Fields.ctl_fields (c : Ctl) (o n d a b t m x : Nat) :
    Fields.ctl ⟨o, n, d, a, b, c.g.toNat, c.fe.toNat, t, m, c.h.toNat, x⟩ = c := by
  simp [Fields.ctl]

/-- Table 10.2's fields come back from the word. -/
theorem Fields.ofNumber_number (f : Fields) (h : f.InRange) : Fields.ofNumber f.number = f := by
  obtain ⟨op, fn, d, a, b, g, fe, ty, m, hh, x⟩ := f
  simp only [Fields.InRange] at h
  simp only [Fields.ofNumber, Fields.number, Fields.mk.injEq]
  refine ⟨?_, ?_, ?_, ?_, ?_, ?_, ?_, ?_, ?_, ?_, ?_⟩ <;> omega

theorem Fields.number_lt (f : Fields) (h : f.InRange) : f.number < 2 ^ 96 := by
  obtain ⟨op, fn, d, a, b, g, fe, ty, m, hh, x⟩ := f
  simp only [Fields.InRange, Fields.number] at *
  omega

theorem Fields.unpack_pack (f : Fields) (h : f.InRange) : Fields.unpack f.pack = f := by
  have := f.number_lt h
  rw [Fields.unpack, Fields.pack, BitVec.toNat_ofNat, Nat.mod_eq_of_lt this, Fields.ofNumber_number f h]


/-! ### The reading of an OP -/

theorem ofFields_00 (f : Fields) (h : f.op = 0x00) : ofFields f = of00 f := by
  obtain ⟨op, _⟩ := f; cases h; rfl
theorem ofFields_01 (f : Fields) (h : f.op = 0x01) : ofFields f = of01 f := by
  obtain ⟨op, _⟩ := f; cases h; rfl
theorem ofFields_02 (f : Fields) (h : f.op = 0x02) : ofFields f = of02 f := by
  obtain ⟨op, _⟩ := f; cases h; rfl
theorem ofFields_03 (f : Fields) (h : f.op = 0x03) : ofFields f = of03 f := by
  obtain ⟨op, _⟩ := f; cases h; rfl
theorem ofFields_04 (f : Fields) (h : f.op = 0x04) : ofFields f = of04 f := by
  obtain ⟨op, _⟩ := f; cases h; rfl
theorem ofFields_05 (f : Fields) (h : f.op = 0x05) : ofFields f = of05 f := by
  obtain ⟨op, _⟩ := f; cases h; rfl
theorem ofFields_06 (f : Fields) (h : f.op = 0x06) : ofFields f = of06 f := by
  obtain ⟨op, _⟩ := f; cases h; rfl
theorem ofFields_07 (f : Fields) (h : f.op = 0x07) : ofFields f = of07 f := by
  obtain ⟨op, _⟩ := f; cases h; rfl
theorem ofFields_08 (f : Fields) (h : f.op = 0x08) : ofFields f = of08 f := by
  obtain ⟨op, _⟩ := f; cases h; rfl
theorem ofFields_09 (f : Fields) (h : f.op = 0x09) : ofFields f = of09 f := by
  obtain ⟨op, _⟩ := f; cases h; rfl
theorem ofFields_0A (f : Fields) (h : f.op = 0x0A) : ofFields f = of0A f := by
  obtain ⟨op, _⟩ := f; cases h; rfl
theorem ofFields_0B (f : Fields) (h : f.op = 0x0B) : ofFields f = of0B f := by
  obtain ⟨op, _⟩ := f; cases h; rfl
theorem ofFields_0C (f : Fields) (h : f.op = 0x0C) : ofFields f = of0C f := by
  obtain ⟨op, _⟩ := f; cases h; rfl
theorem ofFields_10 (f : Fields) (h : f.op = 0x10) : ofFields f = of10 f := by
  obtain ⟨op, _⟩ := f; cases h; rfl
theorem ofFields_11 (f : Fields) (h : f.op = 0x11) : ofFields f = of11 f := by
  obtain ⟨op, _⟩ := f; cases h; rfl
theorem ofFields_12 (f : Fields) (h : f.op = 0x12) : ofFields f = of12 f := by
  obtain ⟨op, _⟩ := f; cases h; rfl
theorem ofFields_13 (f : Fields) (h : f.op = 0x13) : ofFields f = of13 f := by
  obtain ⟨op, _⟩ := f; cases h; rfl
theorem ofFields_14 (f : Fields) (h : f.op = 0x14) : ofFields f = of14 f := by
  obtain ⟨op, _⟩ := f; cases h; rfl
theorem ofFields_15 (f : Fields) (h : f.op = 0x15) : ofFields f = of15 f := by
  obtain ⟨op, _⟩ := f; cases h; rfl
theorem ofFields_16 (f : Fields) (h : f.op = 0x16) : ofFields f = of16 f := by
  obtain ⟨op, _⟩ := f; cases h; rfl
theorem ofFields_17 (f : Fields) (h : f.op = 0x17) : ofFields f = of17 f := by
  obtain ⟨op, _⟩ := f; cases h; rfl
theorem ofFields_18 (f : Fields) (h : f.op = 0x18) : ofFields f = of18 f := by
  obtain ⟨op, _⟩ := f; cases h; rfl
theorem ofFields_20 (f : Fields) (h : f.op = 0x20) : ofFields f = of20 f := by
  obtain ⟨op, _⟩ := f; cases h; rfl
theorem ofFields_21 (f : Fields) (h : f.op = 0x21) : ofFields f = of21 f := by
  obtain ⟨op, _⟩ := f; cases h; rfl
theorem ofFields_22 (f : Fields) (h : f.op = 0x22) : ofFields f = of22 f := by
  obtain ⟨op, _⟩ := f; cases h; rfl
theorem ofFields_23 (f : Fields) (h : f.op = 0x23) : ofFields f = of23 f := by
  obtain ⟨op, _⟩ := f; cases h; rfl
theorem ofFields_40 (f : Fields) (h : f.op = 0x40) : ofFields f = of40 f := by
  obtain ⟨op, _⟩ := f; cases h; rfl
theorem ofFields_41 (f : Fields) (h : f.op = 0x41) : ofFields f = of41 f := by
  obtain ⟨op, _⟩ := f; cases h; rfl
theorem ofFields_42 (f : Fields) (h : f.op = 0x42) : ofFields f = of42 f := by
  obtain ⟨op, _⟩ := f; cases h; rfl
theorem ofFields_43 (f : Fields) (h : f.op = 0x43) : ofFields f = of43 f := by
  obtain ⟨op, _⟩ := f; cases h; rfl
theorem ofFields_44 (f : Fields) (h : f.op = 0x44) : ofFields f = of44 f := by
  obtain ⟨op, _⟩ := f; cases h; rfl
theorem ofFields_45 (f : Fields) (h : f.op = 0x45) : ofFields f = of45 f := by
  obtain ⟨op, _⟩ := f; cases h; rfl
theorem ofFields_46 (f : Fields) (h : f.op = 0x46) : ofFields f = of46 f := by
  obtain ⟨op, _⟩ := f; cases h; rfl
theorem ofFields_47 (f : Fields) (h : f.op = 0x47) : ofFields f = of47 f := by
  obtain ⟨op, _⟩ := f; cases h; rfl
theorem ofFields_48 (f : Fields) (h : f.op = 0x48) : ofFields f = of48 f := by
  obtain ⟨op, _⟩ := f; cases h; rfl
theorem ofFields_49 (f : Fields) (h : f.op = 0x49) : ofFields f = of49 f := by
  obtain ⟨op, _⟩ := f; cases h; rfl
theorem ofFields_4A (f : Fields) (h : f.op = 0x4A) : ofFields f = of4A f := by
  obtain ⟨op, _⟩ := f; cases h; rfl
theorem ofFields_4B (f : Fields) (h : f.op = 0x4B) : ofFields f = of4B f := by
  obtain ⟨op, _⟩ := f; cases h; rfl
theorem ofFields_50 (f : Fields) (h : f.op = 0x50) : ofFields f = of50 f := by
  obtain ⟨op, _⟩ := f; cases h; rfl
theorem ofFields_51 (f : Fields) (h : f.op = 0x51) : ofFields f = of51 f := by
  obtain ⟨op, _⟩ := f; cases h; rfl
theorem ofFields_52 (f : Fields) (h : f.op = 0x52) : ofFields f = of52 f := by
  obtain ⟨op, _⟩ := f; cases h; rfl
theorem ofFields_53 (f : Fields) (h : f.op = 0x53) : ofFields f = of53 f := by
  obtain ⟨op, _⟩ := f; cases h; rfl
theorem ofFields_54 (f : Fields) (h : f.op = 0x54) : ofFields f = of54 f := by
  obtain ⟨op, _⟩ := f; cases h; rfl
theorem ofFields_55 (f : Fields) (h : f.op = 0x55) : ofFields f = of55 f := by
  obtain ⟨op, _⟩ := f; cases h; rfl
theorem ofFields_80 (f : Fields) (h : f.op = 0x80) : ofFields f = of80 f := by
  obtain ⟨op, _⟩ := f; cases h; rfl
theorem ofFields_81 (f : Fields) (h : f.op = 0x81) : ofFields f = of81 f := by
  obtain ⟨op, _⟩ := f; cases h; rfl
theorem ofFields_82 (f : Fields) (h : f.op = 0x82) : ofFields f = of82 f := by
  obtain ⟨op, _⟩ := f; cases h; rfl
theorem ofFields_84 (f : Fields) (h : f.op = 0x84) : ofFields f = of84 f := by
  obtain ⟨op, _⟩ := f; cases h; rfl
theorem ofFields_85 (f : Fields) (h : f.op = 0x85) : ofFields f = of85 f := by
  obtain ⟨op, _⟩ := f; cases h; rfl
theorem ofFields_86 (f : Fields) (h : f.op = 0x86) : ofFields f = of86 f := by
  obtain ⟨op, _⟩ := f; cases h; rfl
theorem ofFields_88 (f : Fields) (h : f.op = 0x88) : ofFields f = of88 f := by
  obtain ⟨op, _⟩ := f; cases h; rfl
theorem ofFields_89 (f : Fields) (h : f.op = 0x89) : ofFields f = of89 f := by
  obtain ⟨op, _⟩ := f; cases h; rfl
theorem ofFields_8A (f : Fields) (h : f.op = 0x8A) : ofFields f = of8A f := by
  obtain ⟨op, _⟩ := f; cases h; rfl
theorem ofFields_8B (f : Fields) (h : f.op = 0x8B) : ofFields f = of8B f := by
  obtain ⟨op, _⟩ := f; cases h; rfl
theorem ofFields_90 (f : Fields) (h : f.op = 0x90) : ofFields f = of90 f := by
  obtain ⟨op, _⟩ := f; cases h; rfl
theorem ofFields_91 (f : Fields) (h : f.op = 0x91) : ofFields f = of91 f := by
  obtain ⟨op, _⟩ := f; cases h; rfl
theorem ofFields_92 (f : Fields) (h : f.op = 0x92) : ofFields f = of92 f := by
  obtain ⟨op, _⟩ := f; cases h; rfl
theorem ofFields_93 (f : Fields) (h : f.op = 0x93) : ofFields f = of93 f := by
  obtain ⟨op, _⟩ := f; cases h; rfl
theorem ofFields_98 (f : Fields) (h : f.op = 0x98) : ofFields f = of98 f := by
  obtain ⟨op, _⟩ := f; cases h; rfl
theorem ofFields_C0 (f : Fields) (h : f.op = 0xC0) : ofFields f = ofC0 f := by
  obtain ⟨op, _⟩ := f; cases h; rfl
theorem ofFields_C1 (f : Fields) (h : f.op = 0xC1) : ofFields f = ofC1 f := by
  obtain ⟨op, _⟩ := f; cases h; rfl
theorem ofFields_C2 (f : Fields) (h : f.op = 0xC2) : ofFields f = ofC2 f := by
  obtain ⟨op, _⟩ := f; cases h; rfl
theorem ofFields_C3 (f : Fields) (h : f.op = 0xC3) : ofFields f = ofC3 f := by
  obtain ⟨op, _⟩ := f; cases h; rfl
theorem ofFields_C4 (f : Fields) (h : f.op = 0xC4) : ofFields f = ofC4 f := by
  obtain ⟨op, _⟩ := f; cases h; rfl
theorem ofFields_C5 (f : Fields) (h : f.op = 0xC5) : ofFields f = ofC5 f := by
  obtain ⟨op, _⟩ := f; cases h; rfl
theorem ofFields_C6 (f : Fields) (h : f.op = 0xC6) : ofFields f = ofC6 f := by
  obtain ⟨op, _⟩ := f; cases h; rfl
theorem ofFields_C7 (f : Fields) (h : f.op = 0xC7) : ofFields f = ofC7 f := by
  obtain ⟨op, _⟩ := f; cases h; rfl
theorem ofFields_C8 (f : Fields) (h : f.op = 0xC8) : ofFields f = ofC8 f := by
  obtain ⟨op, _⟩ := f; cases h; rfl
theorem ofFields_C9 (f : Fields) (h : f.op = 0xC9) : ofFields f = ofC9 f := by
  obtain ⟨op, _⟩ := f; cases h; rfl
theorem ofFields_D0 (f : Fields) (h : f.op = 0xD0) : ofFields f = ofD0 f := by
  obtain ⟨op, _⟩ := f; cases h; rfl
theorem ofFields_D1 (f : Fields) (h : f.op = 0xD1) : ofFields f = ofD1 f := by
  obtain ⟨op, _⟩ := f; cases h; rfl
theorem ofFields_D2 (f : Fields) (h : f.op = 0xD2) : ofFields f = ofD2 f := by
  obtain ⟨op, _⟩ := f; cases h; rfl
theorem ofFields_D3 (f : Fields) (h : f.op = 0xD3) : ofFields f = ofD3 f := by
  obtain ⟨op, _⟩ := f; cases h; rfl
theorem ofFields_D4 (f : Fields) (h : f.op = 0xD4) : ofFields f = ofD4 f := by
  obtain ⟨op, _⟩ := f; cases h; rfl
theorem ofFields_D5 (f : Fields) (h : f.op = 0xD5) : ofFields f = ofD5 f := by
  obtain ⟨op, _⟩ := f; cases h; rfl
theorem ofFields_D6 (f : Fields) (h : f.op = 0xD6) : ofFields f = ofD6 f := by
  obtain ⟨op, _⟩ := f; cases h; rfl
theorem ofFields_E0 (f : Fields) (h : f.op = 0xE0) : ofFields f = ofE0 f := by
  obtain ⟨op, _⟩ := f; cases h; rfl
theorem ofFields_E1 (f : Fields) (h : f.op = 0xE1) : ofFields f = ofE1 f := by
  obtain ⟨op, _⟩ := f; cases h; rfl
theorem ofFields_E2 (f : Fields) (h : f.op = 0xE2) : ofFields f = ofE2 f := by
  obtain ⟨op, _⟩ := f; cases h; rfl
theorem ofFields_E3 (f : Fields) (h : f.op = 0xE3) : ofFields f = ofE3 f := by
  obtain ⟨op, _⟩ := f; cases h; rfl
theorem ofFields_E4 (f : Fields) (h : f.op = 0xE4) : ofFields f = ofE4 f := by
  obtain ⟨op, _⟩ := f; cases h; rfl
theorem ofFields_E5 (f : Fields) (h : f.op = 0xE5) : ofFields f = ofE5 f := by
  obtain ⟨op, _⟩ := f; cases h; rfl
theorem ofFields_E6 (f : Fields) (h : f.op = 0xE6) : ofFields f = ofE6 f := by
  obtain ⟨op, _⟩ := f; cases h; rfl
theorem ofFields_E8 (f : Fields) (h : f.op = 0xE8) : ofFields f = ofE8 f := by
  obtain ⟨op, _⟩ := f; cases h; rfl
theorem ofFields_E9 (f : Fields) (h : f.op = 0xE9) : ofFields f = ofE9 f := by
  obtain ⟨op, _⟩ := f; cases h; rfl
theorem ofFields_F0 (f : Fields) (h : f.op = 0xF0) : ofFields f = ofF0 f := by
  obtain ⟨op, _⟩ := f; cases h; rfl
theorem ofFields_F1 (f : Fields) (h : f.op = 0xF1) : ofFields f = ofF1 f := by
  obtain ⟨op, _⟩ := f; cases h; rfl
theorem ofFields_F2 (f : Fields) (h : f.op = 0xF2) : ofFields f = ofF2 f := by
  obtain ⟨op, _⟩ := f; cases h; rfl

end Sys2Proof
end

