-- ==== Sys2Proof/Laws/Memory.lean ====
section
/-! SUPPORT. Laws of the byte stores: every operation keeps the canonical form, a read after a write gives what was written, and a
write leaves every other byte alone. -/

set_option Elab.async false

namespace Sys2Proof.Machine.Memory

/-! ### The canonical form -/

theorem wfFrom_le {m : Memory} {j k : Nat} (h : j ≤ k) (w : wfFrom k m = true) : wfFrom j m = true := by
  cases m with
  | nil => rfl
  | cons c m =>
    simp only [wfFrom, Bool.and_eq_true, decide_eq_true_eq] at w ⊢
    exact ⟨⟨by omega, w.1.2⟩, w.2⟩

/-- The cells from n on of a canonical store stand from n on. -/
theorem wfFrom_filter_ge {m : Memory} {k : Nat} (n : Nat) (w : wfFrom k m = true) :
    wfFrom n (m.filter fun c => decide (n ≤ c.1)) = true := by
  induction m generalizing k with
  | nil => rfl
  | cons c m ih =>
    simp only [wfFrom, Bool.and_eq_true, decide_eq_true_eq] at w
    by_cases h : n ≤ c.1
    · rw [List.filter_cons_of_pos (by simpa using h)]
      simp only [wfFrom, Bool.and_eq_true, decide_eq_true_eq]
      refine ⟨⟨h, w.1.2⟩, ?_⟩
      have e : (m.filter fun c => decide (n ≤ c.1)) = m.filter fun c => decide (n ≤ c.1) := rfl
      have all : ∀ (l : Memory) (j : Nat), n ≤ j → wfFrom j l = true → wfFrom j (l.filter fun c => decide (n ≤ c.1)) = true := by
        intro l
        induction l with
        | nil => intros; rfl
        | cons d l ihl =>
          intro j hj hw
          simp only [wfFrom, Bool.and_eq_true, decide_eq_true_eq] at hw
          rw [List.filter_cons_of_pos (by simp; omega)]
          simp only [wfFrom, Bool.and_eq_true, decide_eq_true_eq]
          exact ⟨hw.1, ihl _ (by omega) hw.2⟩
      exact all m _ (by omega) w.2
    · rw [List.filter_cons_of_neg (by simpa using h)]
      exact ih w.2

/-- A canonical store whose cells stand below n goes on canonically with one whose cells stand from n on. -/
theorem wfFrom_append {l m : Memory} {k n : Nat} (h : k ≤ n) (w : wfFrom k l = true) (b : ∀ c ∈ l, c.1 < n) (w' : wfFrom n m = true) :
    wfFrom k (l ++ m) = true := by
  induction l generalizing k with
  | nil => exact wfFrom_le h w'
  | cons c l ih =>
    simp only [wfFrom, Bool.and_eq_true, decide_eq_true_eq, List.cons_append] at w ⊢
    exact ⟨w.1, ih (b c (by simp)) w.2 fun d hd => b d (by simp [hd])⟩

theorem wfFrom_filter {m : Memory} {k : Nat} (p : Host.Cell → Bool) (w : wfFrom k m = true) : wfFrom k (m.filter p) = true := by
  induction m generalizing k with
  | nil => rfl
  | cons c m ih =>
    simp only [wfFrom, Bool.and_eq_true, decide_eq_true_eq] at w
    cases hp : p c
    · rw [List.filter_cons_of_neg (by simp [hp])]
      exact wfFrom_le (by omega) (ih w.2)
    · rw [List.filter_cons_of_pos hp]
      simp only [wfFrom, Bool.and_eq_true, decide_eq_true_eq]
      exact ⟨w.1, ih w.2⟩

theorem mem_cells {a n v : Nat} : ∀ c ∈ cells a n v, a ≤ c.1 ∧ c.1 < a + n := by
  induction n generalizing a v with
  | zero => intro c h; simp [cells] at h
  | succ n ih =>
    intro c h
    simp only [cells] at h
    split at h
    · have := ih c h; omega
    · rcases List.mem_cons.mp h with rfl | h
      · simp
      · have := ih c h; omega

theorem wfFrom_cells (a n v : Nat) : wfFrom a (cells a n v) = true := by
  induction n generalizing a v with
  | zero => rfl
  | succ n ih =>
    simp only [cells]
    split
    · exact wfFrom_le (Nat.le_succ a) (ih _ _)
    · rename_i h
      simp only [wfFrom, Bool.and_eq_true, decide_eq_true_eq, bne_iff_ne]
      exact ⟨⟨Nat.le_refl a, h⟩, ih _ _⟩

/-- The three parts of a store around the bytes from a to a + n - 1, the middle one new. -/
theorem wf_splice {m l : Memory} (a n : Nat) (w : m.wf = true) (wl : wfFrom a l = true) (b : ∀ c ∈ l, c.1 < a + n) :
    wf (m.filter (fun c => c.1 < a) ++ l ++ m.filter (fun c => a + n ≤ c.1)) = true := by
  rw [List.append_assoc]
  refine wfFrom_append (n := a) (by omega) (wfFrom_filter _ w) (by simp) ?_
  exact wfFrom_append (n := a + n) (by omega) wl b (wfFrom_filter_ge _ w)

/-- A write keeps the canonical form. -/
theorem wf_write {m : Memory} (w : m.wf = true) (a n v : Nat) : (m.write a n v).wf = true :=
  wf_splice a n w (wfFrom_cells a n v) fun c h => (mem_cells c h).2

theorem wfFrom_put {m : Memory} {k a : Nat} (w : wfFrom k m = true) (h : k ≤ a) (b : Byte) : wfFrom k (m.put a b) = true := by
  induction m generalizing k with
  | nil =>
    simp only [put]
    split
    · rfl
    · rename_i hb
      simp only [wfFrom, Bool.and_eq_true, decide_eq_true_eq, bne_iff_ne]
      exact ⟨⟨h, hb⟩, trivial⟩
  | cons c m ih =>
    obtain ⟨j, d⟩ := c
    have w0 := w
    simp only [wfFrom, Bool.and_eq_true, decide_eq_true_eq] at w
    simp only [put]
    split
    · split
      · exact w0
      · rename_i hb
        simp only [wfFrom, Bool.and_eq_true, decide_eq_true_eq]
        exact ⟨⟨h, by simpa using hb⟩, ⟨by omega, w.1.2⟩, w.2⟩
    · split
      · rename_i hj
        split
        · exact wfFrom_le (by omega) w.2
        · rename_i hb
          simp only [wfFrom, Bool.and_eq_true, decide_eq_true_eq]
          exact ⟨⟨h, by simpa using hb⟩, hj ▸ w.2⟩
      · simp only [wfFrom, Bool.and_eq_true, decide_eq_true_eq]
        exact ⟨w.1, ih w.2 (by omega)⟩

/-- Writing one byte keeps the canonical form. -/
theorem wf_put {m : Memory} (w : m.wf = true) (a : Nat) (b : Byte) : (m.put a b).wf = true := wfFrom_put w (Nat.zero_le a) b

theorem wf_canon (l : List Host.Cell) : (canon l).wf = true := by
  induction l with
  | nil => rfl
  | cons c l ih => exact wf_put ih c.1 c.2

theorem mem_put {m : Memory} {a : Nat} {b : Byte} : ∀ c ∈ m.put a b, c.1 = a ∨ c ∈ m := by
  induction m with
  | nil =>
    intro c h
    simp only [put] at h
    split at h
    · exact .inr h
    · exact .inl (by simp at h; simp [h])
  | cons d m ih =>
    intro c h
    simp only [put] at h
    split at h
    · split at h
      · exact .inr h
      · rcases List.mem_cons.mp h with rfl | h
        · exact .inl rfl
        · exact .inr h
    · split at h
      · split at h
        · exact .inr (List.mem_cons_of_mem _ h)
        · rcases List.mem_cons.mp h with rfl | h
          · exact .inl rfl
          · exact .inr (List.mem_cons_of_mem _ h)
      · rcases List.mem_cons.mp h with rfl | h
        · exact .inr (List.mem_cons_self ..)
        · rcases ih c h with h | h
          · exact .inl h
          · exact .inr (List.mem_cons_of_mem _ h)

theorem mem_canon {l : List Host.Cell} : ∀ c ∈ canon l, ∃ d ∈ l, d.1 = c.1 := by
  induction l with
  | nil => intro c h; simp [canon] at h
  | cons d l ih =>
    intro c h
    rcases mem_put c h with h | h
    · exact ⟨d, by simp, h.symm⟩
    · obtain ⟨e, he, hc⟩ := ih c h
      exact ⟨e, by simp [he], hc⟩

theorem wfFrom_of_wf {m : Memory} {a : Nat} (w : m.wf = true) (h : ∀ c ∈ m, a ≤ c.1) : wfFrom a m = true := by
  cases m with
  | nil => rfl
  | cons c m =>
    simp only [wf, wfFrom, Bool.and_eq_true, decide_eq_true_eq] at w ⊢
    exact ⟨⟨h c (by simp), w.1.2⟩, w.2⟩

/-- Replacing the bytes of a range keeps the canonical form. -/
theorem wf_replace {m : Memory} (w : m.wf = true) (a n : Nat) (l : List Host.Cell) : (m.replace a n l).wf = true := by
  refine wf_splice a n w (wfFrom_of_wf (wf_canon _) ?_) ?_ <;> intro c h <;> obtain ⟨d, hd, e⟩ := mem_canon c h <;>
    simp only [List.mem_filter, Bool.and_eq_true, decide_eq_true_eq] at hd <;> omega

theorem wf_nil : wf ([] : Memory) = true := rfl

/-! ### Reading and writing -/

theorem byte_append (l m : Memory) (b : Nat) : byte (l ++ m) b = if l.any (·.1 == b) then byte l b else byte m b := by
  induction l with
  | nil => simp
  | cons c l ih =>
    by_cases h : c.1 = b
    · simp [byte, h]
    · simp [byte, h, ih]

theorem byte_filter (m : Memory) (p : Host.Cell → Bool) (b : Nat) (h : ∀ c ∈ m, c.1 = b → p c = true) :
    byte (m.filter p) b = byte m b := by
  induction m with
  | nil => rfl
  | cons c m ih =>
    have ih := ih fun d hd => h d (by simp [hd])
    cases hp : p c
    · have : c.1 ≠ b := fun e => by simp [h c (by simp) e] at hp
      rw [List.filter_cons_of_neg (by simp [hp])]
      simp [byte, this, ih]
    · rw [List.filter_cons_of_pos hp]
      simp [byte, ih]

theorem byte_of_not_listed {m : Memory} {b : Nat} (h : ∀ c ∈ m, c.1 ≠ b) : byte m b = 0 := by
  induction m with
  | nil => rfl
  | cons c m ih => simp [byte, h c (by simp), ih fun d hd => h d (by simp [hd])]

theorem byte_cells (a n v b : Nat) : byte (cells a n v) b = if a ≤ b ∧ b < a + n then BitVec.ofNat 8 (v / 256 ^ (b - a)) else 0 := by
  induction n generalizing a v with
  | zero => rw [if_neg (by omega)]; rfl
  | succ n ih =>
    by_cases hb : a = b
    · subst hb
      simp only [cells]
      split
      · rename_i h0
        rw [ih, if_neg (by omega), if_pos (by omega)]; simp [h0]
      · simp [byte]
    · have key : byte (cells a (n + 1) v) b = byte (cells (a + 1) n (v / 256)) b := by
        simp only [cells]; split <;> simp [byte, hb]
      rw [key, ih]
      by_cases h : a + 1 ≤ b ∧ b < a + 1 + n
      · rw [if_pos h, if_pos (by omega), Nat.div_div_eq_div_mul]
        congr 2
        rw [show b - a = (b - (a + 1)) + 1 by omega, Nat.pow_succ, Nat.mul_comm]
      · rw [if_neg h, if_neg (by omega)]

theorem byte_append_left {l m : Memory} {b : Nat} (h : ∀ c ∈ m, c.1 ≠ b) : byte (l ++ m) b = byte l b := by
  rw [byte_append]
  split
  · rfl
  · rename_i hl
    rw [byte_of_not_listed h]
    exact (byte_of_not_listed fun c hc e => hl (List.any_eq_true.mpr ⟨c, hc, by simp [e]⟩)).symm

theorem byte_append_right {l m : Memory} {b : Nat} (h : ∀ c ∈ l, c.1 ≠ b) : byte (l ++ m) b = byte m b := by
  rw [byte_append, if_neg]
  intro hl
  obtain ⟨c, hc, e⟩ := List.any_eq_true.mp hl
  exact h c hc (by simpa using e)

/-- What a write leaves at each address. -/
theorem byte_write (m : Memory) (a n v b : Nat) :
    (m.write a n v).byte b = if a ≤ b ∧ b < a + n then BitVec.ofNat 8 (v / 256 ^ (b - a)) else m.byte b := by
  have low : ∀ c ∈ m.filter (fun c => decide (c.1 < a)), c.1 < a := fun c hc => by simpa using (List.mem_filter.mp hc).2
  have high : ∀ c ∈ m.filter (fun c => decide (a + n ≤ c.1)), a + n ≤ c.1 := fun c hc => by
    simpa using (List.mem_filter.mp hc).2
  unfold write
  rw [List.append_assoc]
  by_cases h1 : b < a
  · have far : ∀ c ∈ cells a n v ++ m.filter (fun c => decide (a + n ≤ c.1)), c.1 ≠ b := fun c hc => by
      rcases List.mem_append.mp hc with hc | hc
      · have := (mem_cells c hc).1; omega
      · have := high c hc; omega
    rw [byte_append_left far, byte_filter _ _ _ (fun c _ e => by simp; omega), if_neg (by omega)]
  · rw [byte_append_right fun c hc => by have := low c hc; omega]
    by_cases h2 : b < a + n
    · rw [byte_append_left (fun c hc => by have := high c hc; omega), byte_cells]
      split
      · rfl
      · omega
    · rw [byte_append_right (fun c hc => by have := (mem_cells c hc).2; omega),
        byte_filter _ _ _ (fun c _ e => by simp; omega), if_neg (by omega)]

/-- Two stores with the same bytes in a range read the same there. -/
theorem read_congr {m m' : Memory} {a n : Nat} (h : ∀ b, a ≤ b → b < a + n → m'.byte b = m.byte b) : m'.read a n = m.read a n := by
  induction n generalizing a with
  | zero => rfl
  | succ n ih =>
    have tail : m'.read (a + 1) n = m.read (a + 1) n := ih fun b h1 h2 => h b (by omega) (by omega)
    simp only [read, h a (Nat.le_refl a) (by omega), tail]

theorem read_lt (m : Memory) (a n : Nat) : m.read a n < 256 ^ n := by
  induction n generalizing a with
  | zero => simp [read]
  | succ n ih =>
    simp only [read, Nat.pow_succ]
    have := (m.byte a).isLt
    have := ih (a + 1)
    omega

theorem read_of_bytes {m : Memory} {a n v : Nat} (h : ∀ j, j < n → m.byte (a + j) = BitVec.ofNat 8 (v / 256 ^ j)) :
    m.read a n = v % 256 ^ n := by
  induction n generalizing a v with
  | zero => simp [read, Nat.mod_one]
  | succ n ih =>
    have h0 := h 0 (by omega)
    have ih := ih (a := a + 1) (v := v / 256) fun j hj => by
      have := h (j + 1) (by omega)
      rw [show a + 1 + j = a + (j + 1) by omega, this, Nat.div_div_eq_div_mul, Nat.pow_succ, Nat.mul_comm]
    simp only [read, ih]
    simp only [Nat.add_zero, Nat.pow_zero, Nat.div_one] at h0
    rw [h0, BitVec.toNat_ofNat, Nat.pow_succ (n := 256), Nat.mul_comm (256 ^ n) 256, Nat.mod_mul]

/-- A read after a write to the same place gives what was written. -/
theorem read_write_same (m : Memory) (a n v : Nat) : (m.write a n v).read a n = v % 256 ^ n :=
  read_of_bytes fun j hj => by rw [byte_write, if_pos (by omega), Nat.add_sub_cancel_left]

/-- A write leaves a read of other bytes alone. -/
theorem read_write_apart (m : Memory) (a n v b k : Nat) (h : b + k ≤ a ∨ a + n ≤ b) : (m.write a n v).read b k = m.read b k :=
  read_congr fun c h1 h2 => by rw [byte_write, if_neg (by omega)]

end Sys2Proof.Machine.Memory
end

