-- ==== Sys2Proof/Laws/MemWf.lean ====
section
/-! SUPPORT. The stores of a state: what an update of one leaves of the others, and that every way to change a state keeps their
canonical form. -/

set_option Elab.async false

namespace Sys2Proof.Machine
open Claims

/-- The memories of a partition are canonical. -/
def PartWf (x : Part) : Prop := x.lode.wf = true ∧ x.bufs.wf = true ∧ x.mail.wf = true

theorem mem_set {α : Type} {m : FMap α} {n : Nat} {v : α} {e : Nat × α} (h : e ∈ m.set n v) : e = (n, v) ∨ e ∈ m := by
  induction m with
  | nil => simp only [FMap.set, List.mem_singleton] at h; exact .inl h
  | cons d m ih =>
    obtain ⟨k, w⟩ := d
    simp only [FMap.set] at h
    split at h
    · rcases List.mem_cons.mp h with h | h
      · exact .inl h
      · exact .inr h
    · split at h
      · rcases List.mem_cons.mp h with h | h
        · exact .inl h
        · exact .inr (List.mem_cons_of_mem _ h)
      · rcases List.mem_cons.mp h with h | h
        · exact .inr (h ▸ List.mem_cons_self ..)
        · rcases ih h with h | h
          · exact .inl h
          · exact .inr (List.mem_cons_of_mem _ h)

theorem mem_erase {α : Type} {m : FMap α} {n : Nat} {e : Nat × α} (h : e ∈ m.erase n) : e ∈ m := by
  induction m with
  | nil => exact h
  | cons d m ih =>
    obtain ⟨k, w⟩ := d
    simp only [FMap.erase] at h
    split at h
    · exact List.mem_cons_of_mem _ (ih h)
    · rcases List.mem_cons.mp h with h | h
      · exact h ▸ List.mem_cons_self ..
      · exact List.mem_cons_of_mem _ (ih h)

theorem mem_of_get? {α : Type} {m : FMap α} {n : Nat} {v : α} (h : m.get? n = some v) : (n, v) ∈ m := by
  induction m with
  | nil => simp [FMap.get?] at h
  | cons d m ih =>
    obtain ⟨k, w⟩ := d
    simp only [FMap.get?] at h
    split at h
    · rename_i hk; cases h; subst hk; exact List.mem_cons_self ..
    · exact List.mem_cons_of_mem _ (ih h)

/-- A partition of a canonical state is canonical, the unlisted ones too. -/
theorem memWf_part {s : State} (w : MemWf s) (p : Nat) : PartWf (s.part p) := by
  unfold State.part FMap.getD
  cases h : s.parts.get? p with
  | none => exact ⟨rfl, rfl, rfl⟩
  | some x => exact w.2.2.1 _ (mem_of_get? h)

theorem memWf_crew {s : State} (w : MemWf s) {cid : Nat} {c : Crew} (h : s.crews.get? cid = some c) : c.window.wf = true :=
  w.2.2.2 _ (mem_of_get? h)

theorem memWf_memOf {s : State} (w : MemWf s) (st : Store) : (s.memOf st).wf = true := by
  cases st with
  | lode p => exact (memWf_part w p).1
  | cxl => exact w.2.1
  | host => exact w.1
  | buf p => exact (memWf_part w p).2.1
  | mail p => exact (memWf_part w p).2.2
  | ethes l => rfl
  | window c =>
    cases h : s.crews.get? c with
    | none => simp [State.memOf, h]; rfl
    | some x => simp [State.memOf, h]; exact memWf_crew w h

/-- A state with the same stores is canonical too. -/
theorem memWf_keep {s s' : State} (w : MemWf s) (h : s'.host = s.host) (x : s'.cxl = s.cxl) (p : s'.parts = s.parts)
    (c : s'.crews = s.crews) : MemWf s' := by
  unfold MemWf; rw [h, x, p, c]; exact w

theorem memWf_setPart {s : State} (w : MemWf s) (p : Nat) {x : Part} (h : PartWf x) : MemWf (s.setPart p x) := by
  refine ⟨w.1, w.2.1, ?_, w.2.2.2⟩
  intro e he
  rcases mem_set he with rfl | he
  · exact h
  · exact w.2.2.1 e he

theorem memWf_updPart {s : State} (w : MemWf s) (p : Nat) {f : Part → Part} (h : ∀ x, PartWf x → PartWf (f x)) :
    MemWf (s.updPart p f) := memWf_setPart w p (h _ (memWf_part w p))

theorem memWf_setCrew {s : State} (w : MemWf s) (cid : Nat) {c : Crew} (h : c.window.wf = true) : MemWf (s.setCrew cid c) := by
  refine ⟨w.1, w.2.1, w.2.2.1, ?_⟩
  intro e he
  rcases mem_set he with rfl | he
  · exact h
  · exact w.2.2.2 e he

theorem memWf_updCrew {s : State} (w : MemWf s) (cid : Nat) {f : Crew → Crew} (h : ∀ c, c.window.wf = true → (f c).window.wf = true) :
    MemWf (s.updCrew cid f) := by
  unfold State.updCrew
  split
  · rename_i x hx; exact memWf_setCrew w cid (h x (memWf_crew w hx))
  · exact w

theorem memWf_eraseCrew {s : State} (w : MemWf s) (cid : Nat) : MemWf { s with crews := s.crews.erase cid } :=
  ⟨w.1, w.2.1, w.2.2.1, fun e he => w.2.2.2 e (mem_erase he)⟩

theorem memWf_setTeam {s : State} (w : MemWf s) (tid : Nat) (t : Team) : MemWf (s.setTeam tid t) := w

theorem memWf_updTeam {s : State} (w : MemWf s) (tid : Nat) (f : Team → Team) : MemWf (s.updTeam tid f) := by
  unfold State.updTeam; split <;> exact w

theorem memWf_setMem {s : State} (w : MemWf s) (st : Store) {m : Memory} (h : m.wf = true) : MemWf (s.setMem st m) := by
  cases st with
  | lode p => exact memWf_updPart w p fun x hx => ⟨h, hx.2⟩
  | cxl => exact ⟨w.1, h, w.2.2⟩
  | host => exact ⟨h, w.2⟩
  | buf p => exact memWf_updPart w p fun x hx => ⟨hx.1, h, hx.2.2⟩
  | mail p => exact memWf_updPart w p fun x hx => ⟨hx.1, hx.2.1, h⟩
  | ethes l => exact w
  | window c => exact memWf_updCrew w c fun _ _ => h

theorem memWf_logCxl {s : State} (w : MemWf s) (st : Store) (a n : Nat) : MemWf (s.logCxl st a n) := by
  cases st <;> exact w

/-- A store to memory keeps the canonical form. -/
theorem memWf_store {s : State} (w : MemWf s) (st : Store) (a n v : Nat) : MemWf (s.store st a n v) :=
  memWf_logCxl (memWf_setMem w st (Memory.wf_write (memWf_memOf w st) a n v)) st a n

/-- What the read cache alone changes keeps the form. -/
theorem memWf_makeRoom {s : State} (w : MemWf s) (core : Nat) : MemWf (s.makeRoom core) := by
  unfold State.makeRoom; dsimp only; split <;> exact w

theorem memWf_fill {s : State} (w : MemWf s) (core : Nat) (st : Store) (a : Nat) : MemWf (s.fill core st a) := by
  unfold State.fill
  dsimp only
  split
  · split
    · exact w
    · exact memWf_makeRoom w core
  · split <;> exact w

theorem memWf_refresh {s : State} (w : MemWf s) (core : Nat) (st : Store) (a n v : Nat) : MemWf (s.refresh core st a n v) := by
  unfold State.refresh
  dsimp only
  split <;> exact w

theorem memWf_cstore {s : State} (w : MemWf s) (core : Nat) (st : Store) (a n v : Nat) : MemWf (s.cstore core st a n v) := by
  unfold State.cstore
  exact memWf_refresh (memWf_store w st a n v) core st a n v

theorem memWf_stale {s : State} (w : MemWf s) (core : Nat) : MemWf (s.stale core) := w

theorem memWf_clearPoison {s : State} (w : MemWf s) (st : Store) (a n : Nat) : MemWf (s.clearPoison st a n) := by
  cases st <;> exact w

/-- A fold of steps that keep the form keeps it. -/
theorem memWf_foldl {α : Type} {f : State → α → State} (h : ∀ s x, MemWf s → MemWf (f s x)) (l : List α) {s : State} (w : MemWf s) :
    MemWf (l.foldl f s) := by
  induction l generalizing s with
  | nil => exact w
  | cons x l ih => exact ih (h s x w)

/-! ### One store among the others -/

theorem part_setMem (s : State) (st : Store) (m : Memory) (p : Nat) :
    ((s.setMem st m).part p).lode = (if st = .lode p then m else (s.part p).lode) ∧
    ((s.setMem st m).part p).bufs = (if st = .buf p then m else (s.part p).bufs) ∧
    ((s.setMem st m).part p).mail = (if st = .mail p then m else (s.part p).mail) := by
  have other : ∀ q (x : Part), (s.setPart q x).part p = if p = q then x else s.part p := fun q x => FMap.getD_set ..
  cases st with
  | lode q => simp only [State.setMem, State.updPart, other]; by_cases h : p = q <;> simp [h, Ne.symm]
  | buf q => simp only [State.setMem, State.updPart, other]; by_cases h : p = q <;> simp [h, Ne.symm]
  | mail q => simp only [State.setMem, State.updPart, other]; by_cases h : p = q <;> simp [h, Ne.symm]
  | cxl => simp [State.setMem, State.part]
  | host => simp [State.setMem, State.part]
  | ethes l => simp [State.setMem]
  | window c => simp only [State.setMem, State.updCrew]; split <;> simp [State.setCrew, State.part]

end Sys2Proof.Machine
end

