-- ==== Sys2Proof/Laws/PerInstr.lean ====
section
/-! SUPPORT. The encoding of every instruction, one lemma per constructor: its fields fit Table 10.2, its form is listed, and the decoder reads the same instruction back. -/

namespace Sys2Proof.Laws.Encoding

set_option Elab.async false

/-- The fields of a well-formed instruction fit, name a listed form, and read back as the instruction. An event has no fields. -/
def Statement (i : Instr) : Prop :=
  ∀ f, i.toFields = some f → i.wellFormed = true → f.InRange ∧ f.fn < forms f.op ∧ ofFields f = some i

theorem nop (c : Ctl) : Statement (.nop c) := by
  rintro f ⟨⟩ hw
  have b0 := c.g.isLt
  have b1 := c.fe.isLt
  have b2 := c.h.isLt
  refine ⟨by simp only [Fields.InRange, Ctl.fields]; omega, by show 0 < 2; omega, ?_⟩
  rw [ofFields_00 _ rfl]
  simp [of00, Ctl.fields]

theorem yield (c : Ctl) : Statement (.yield c) := by
  rintro f ⟨⟩ hw
  have b0 := c.g.isLt
  have b1 := c.fe.isLt
  have b2 := c.h.isLt
  refine ⟨by simp only [Fields.InRange, Ctl.fields]; omega, by show 1 < 2; omega, ?_⟩
  rw [ofFields_00 _ rfl]
  simp [of00, Ctl.fields]

theorem bra (c : Ctl) (off : BitVec 32) : Statement (.bra c off) := by
  rintro f ⟨⟩ hw
  have b0 := c.g.isLt
  have b1 := c.fe.isLt
  have b2 := c.h.isLt
  have b3 := off.isLt
  refine ⟨by simp only [Fields.InRange, Ctl.fields]; omega, by show 0 < 1; omega, ?_⟩
  rw [ofFields_01 _ rfl]
  simp [of01, Ctl.fields]

theorem brx (c : Ctl) (base : SReg) (off : VReg) : Statement (.brx c base off) := by
  rintro f ⟨⟩ hw
  have b0 := c.g.isLt
  have b1 := c.fe.isLt
  have b2 := c.h.isLt
  have b3 := base.isLt
  have b4 := off.isLt
  refine ⟨by simp only [Fields.InRange, Ctl.fields]; omega, by show 0 < 1; omega, ?_⟩
  rw [ofFields_02 _ rfl]
  simp [of02, Ctl.fields]

theorem callDirect (c : Ctl) (off : BitVec 32) : Statement (.callDirect c off) := by
  rintro f ⟨⟩ hw
  have b0 := c.g.isLt
  have b1 := c.fe.isLt
  have b2 := c.h.isLt
  have b3 := off.isLt
  refine ⟨by simp only [Fields.InRange, Ctl.fields]; omega, by show 0 < 2; omega, ?_⟩
  rw [ofFields_03 _ rfl]
  simp [of03, Ctl.fields]

theorem callIndirect (c : Ctl) (base : SReg) (off : VReg) : Statement (.callIndirect c base off) := by
  rintro f ⟨⟩ hw
  have b0 := c.g.isLt
  have b1 := c.fe.isLt
  have b2 := c.h.isLt
  have b3 := base.isLt
  have b4 := off.isLt
  refine ⟨by simp only [Fields.InRange, Ctl.fields]; omega, by show 1 < 2; omega, ?_⟩
  rw [ofFields_03 _ rfl]
  simp [of03, Ctl.fields]

theorem ret (c : Ctl) : Statement (.ret c) := by
  rintro f ⟨⟩ hw
  have b0 := c.g.isLt
  have b1 := c.fe.isLt
  have b2 := c.h.isLt
  refine ⟨by simp only [Fields.InRange, Ctl.fields]; omega, by show 0 < 1; omega, ?_⟩
  rw [ofFields_04 _ rfl]
  simp [of04, Ctl.fields]

theorem jset (c : Ctl) (j : JReg) : Statement (.jset c j) := by
  rintro f ⟨⟩ hw
  have b0 := c.g.isLt
  have b1 := c.fe.isLt
  have b2 := c.h.isLt
  have b3 := j.isLt
  refine ⟨by simp only [Fields.InRange, Ctl.fields]; omega, by show 0 < 4; omega, ?_⟩
  rw [ofFields_05 _ rfl]
  simp [of05, Ctl.fields]

theorem jarr (c : Ctl) (j : JReg) : Statement (.jarr c j) := by
  rintro f ⟨⟩ hw
  have b0 := c.g.isLt
  have b1 := c.fe.isLt
  have b2 := c.h.isLt
  have b3 := j.isLt
  refine ⟨by simp only [Fields.InRange, Ctl.fields]; omega, by show 1 < 4; omega, ?_⟩
  rw [ofFields_05 _ rfl]
  simp [of05, Ctl.fields]

theorem jwait (c : Ctl) (j : JReg) : Statement (.jwait c j) := by
  rintro f ⟨⟩ hw
  have b0 := c.g.isLt
  have b1 := c.fe.isLt
  have b2 := c.h.isLt
  have b3 := j.isLt
  refine ⟨by simp only [Fields.InRange, Ctl.fields]; omega, by show 2 < 4; omega, ?_⟩
  rw [ofFields_05 _ rfl]
  simp [of05, Ctl.fields]

theorem jread (c : Ctl) (d : PReg) (j : JReg) : Statement (.jread c d j) := by
  rintro f ⟨⟩ hw
  have b0 := c.g.isLt
  have b1 := c.fe.isLt
  have b2 := c.h.isLt
  have b3 := d.isLt
  have b4 := j.isLt
  refine ⟨by simp only [Fields.InRange, Ctl.fields]; omega, by show 3 < 4; omega, ?_⟩
  rw [ofFields_05 _ rfl]
  simp [of05, Ctl.fields]

theorem exit (c : Ctl) : Statement (.exit c) := by
  rintro f ⟨⟩ hw
  have b0 := c.g.isLt
  have b1 := c.fe.isLt
  have b2 := c.h.isLt
  refine ⟨by simp only [Fields.InRange, Ctl.fields]; omega, by show 0 < 1; omega, ?_⟩
  rw [ofFields_06 _ rfl]
  simp [of06, Ctl.fields]

theorem trap (c : Ctl) (code : BitVec 16) : Statement (.trap c code) := by
  rintro f ⟨⟩ hw
  have b0 := c.g.isLt
  have b1 := c.fe.isLt
  have b2 := c.h.isLt
  have b3 := code.isLt
  refine ⟨by simp only [Fields.InRange, Ctl.fields]; omega, by show 0 < 3; omega, ?_⟩
  have e1 : (code.toNat) % 65536 = code.toNat := by omega
  rw [ofFields_07 _ rfl]
  simp [of07, Ctl.fields, e1]

theorem brk (c : Ctl) (code : BitVec 16) : Statement (.brk c code) := by
  rintro f ⟨⟩ hw
  have b0 := c.g.isLt
  have b1 := c.fe.isLt
  have b2 := c.h.isLt
  have b3 := code.isLt
  refine ⟨by simp only [Fields.InRange, Ctl.fields]; omega, by show 1 < 3; omega, ?_⟩
  have e1 : (code.toNat) % 65536 = code.toNat := by omega
  rw [ofFields_07 _ rfl]
  simp [of07, Ctl.fields, e1]

theorem tret (c : Ctl) : Statement (.tret c) := by
  rintro f ⟨⟩ hw
  have b0 := c.g.isLt
  have b1 := c.fe.isLt
  have b2 := c.h.isLt
  refine ⟨by simp only [Fields.InRange, Ctl.fields]; omega, by show 2 < 3; omega, ?_⟩
  rw [ofFields_07 _ rfl]
  simp [of07, Ctl.fields]

theorem icmpEq (c : Ctl) (d : PReg) (a : VReg) (b : VB) : Statement (.icmpEq c d a b) := by
  rintro f ⟨⟩ hw
  have b0 := c.g.isLt
  have b1 := c.fe.isLt
  have b2 := c.h.isLt
  have b3 := d.isLt
  have b4 := a.isLt
  have b5 := b.num_lt
  have b6 := b.flag_lt
  have b7 := b.val_lt
  refine ⟨by simp only [Fields.InRange, Ctl.fields]; omega, by show 0 < 10; omega, ?_⟩
  have e1 : (128 * b.flag) / 128 = b.flag := by omega
  rw [ofFields_08 _ rfl]
  simp [of08, Ctl.fields, e1]

theorem icmpNe (c : Ctl) (d : PReg) (a : VReg) (b : VB) : Statement (.icmpNe c d a b) := by
  rintro f ⟨⟩ hw
  have b0 := c.g.isLt
  have b1 := c.fe.isLt
  have b2 := c.h.isLt
  have b3 := d.isLt
  have b4 := a.isLt
  have b5 := b.num_lt
  have b6 := b.flag_lt
  have b7 := b.val_lt
  refine ⟨by simp only [Fields.InRange, Ctl.fields]; omega, by show 1 < 10; omega, ?_⟩
  have e1 : (128 * b.flag) / 128 = b.flag := by omega
  rw [ofFields_08 _ rfl]
  simp [of08, Ctl.fields, e1]

theorem icmpLt (c : Ctl) (d : PReg) (a : VReg) (b : VB) : Statement (.icmpLt c d a b) := by
  rintro f ⟨⟩ hw
  have b0 := c.g.isLt
  have b1 := c.fe.isLt
  have b2 := c.h.isLt
  have b3 := d.isLt
  have b4 := a.isLt
  have b5 := b.num_lt
  have b6 := b.flag_lt
  have b7 := b.val_lt
  refine ⟨by simp only [Fields.InRange, Ctl.fields]; omega, by show 2 < 10; omega, ?_⟩
  have e1 : (128 * b.flag) / 128 = b.flag := by omega
  rw [ofFields_08 _ rfl]
  simp [of08, Ctl.fields, e1]

theorem icmpLe (c : Ctl) (d : PReg) (a : VReg) (b : VB) : Statement (.icmpLe c d a b) := by
  rintro f ⟨⟩ hw
  have b0 := c.g.isLt
  have b1 := c.fe.isLt
  have b2 := c.h.isLt
  have b3 := d.isLt
  have b4 := a.isLt
  have b5 := b.num_lt
  have b6 := b.flag_lt
  have b7 := b.val_lt
  refine ⟨by simp only [Fields.InRange, Ctl.fields]; omega, by show 3 < 10; omega, ?_⟩
  have e1 : (128 * b.flag) / 128 = b.flag := by omega
  rw [ofFields_08 _ rfl]
  simp [of08, Ctl.fields, e1]

theorem icmpGt (c : Ctl) (d : PReg) (a : VReg) (b : VB) : Statement (.icmpGt c d a b) := by
  rintro f ⟨⟩ hw
  have b0 := c.g.isLt
  have b1 := c.fe.isLt
  have b2 := c.h.isLt
  have b3 := d.isLt
  have b4 := a.isLt
  have b5 := b.num_lt
  have b6 := b.flag_lt
  have b7 := b.val_lt
  refine ⟨by simp only [Fields.InRange, Ctl.fields]; omega, by show 4 < 10; omega, ?_⟩
  have e1 : (128 * b.flag) / 128 = b.flag := by omega
  rw [ofFields_08 _ rfl]
  simp [of08, Ctl.fields, e1]

theorem icmpGe (c : Ctl) (d : PReg) (a : VReg) (b : VB) : Statement (.icmpGe c d a b) := by
  rintro f ⟨⟩ hw
  have b0 := c.g.isLt
  have b1 := c.fe.isLt
  have b2 := c.h.isLt
  have b3 := d.isLt
  have b4 := a.isLt
  have b5 := b.num_lt
  have b6 := b.flag_lt
  have b7 := b.val_lt
  refine ⟨by simp only [Fields.InRange, Ctl.fields]; omega, by show 5 < 10; omega, ?_⟩
  have e1 : (128 * b.flag) / 128 = b.flag := by omega
  rw [ofFields_08 _ rfl]
  simp [of08, Ctl.fields, e1]

theorem icmpLtn (c : Ctl) (d : PReg) (a : VReg) (b : VB) : Statement (.icmpLtn c d a b) := by
  rintro f ⟨⟩ hw
  have b0 := c.g.isLt
  have b1 := c.fe.isLt
  have b2 := c.h.isLt
  have b3 := d.isLt
  have b4 := a.isLt
  have b5 := b.num_lt
  have b6 := b.flag_lt
  have b7 := b.val_lt
  refine ⟨by simp only [Fields.InRange, Ctl.fields]; omega, by show 6 < 10; omega, ?_⟩
  have e1 : (128 * b.flag) / 128 = b.flag := by omega
  rw [ofFields_08 _ rfl]
  simp [of08, Ctl.fields, e1]

theorem icmpLen (c : Ctl) (d : PReg) (a : VReg) (b : VB) : Statement (.icmpLen c d a b) := by
  rintro f ⟨⟩ hw
  have b0 := c.g.isLt
  have b1 := c.fe.isLt
  have b2 := c.h.isLt
  have b3 := d.isLt
  have b4 := a.isLt
  have b5 := b.num_lt
  have b6 := b.flag_lt
  have b7 := b.val_lt
  refine ⟨by simp only [Fields.InRange, Ctl.fields]; omega, by show 7 < 10; omega, ?_⟩
  have e1 : (128 * b.flag) / 128 = b.flag := by omega
  rw [ofFields_08 _ rfl]
  simp [of08, Ctl.fields, e1]

theorem icmpGtn (c : Ctl) (d : PReg) (a : VReg) (b : VB) : Statement (.icmpGtn c d a b) := by
  rintro f ⟨⟩ hw
  have b0 := c.g.isLt
  have b1 := c.fe.isLt
  have b2 := c.h.isLt
  have b3 := d.isLt
  have b4 := a.isLt
  have b5 := b.num_lt
  have b6 := b.flag_lt
  have b7 := b.val_lt
  refine ⟨by simp only [Fields.InRange, Ctl.fields]; omega, by show 8 < 10; omega, ?_⟩
  have e1 : (128 * b.flag) / 128 = b.flag := by omega
  rw [ofFields_08 _ rfl]
  simp [of08, Ctl.fields, e1]

theorem icmpGen (c : Ctl) (d : PReg) (a : VReg) (b : VB) : Statement (.icmpGen c d a b) := by
  rintro f ⟨⟩ hw
  have b0 := c.g.isLt
  have b1 := c.fe.isLt
  have b2 := c.h.isLt
  have b3 := d.isLt
  have b4 := a.isLt
  have b5 := b.num_lt
  have b6 := b.flag_lt
  have b7 := b.val_lt
  refine ⟨by simp only [Fields.InRange, Ctl.fields]; omega, by show 9 < 10; omega, ?_⟩
  have e1 : (128 * b.flag) / 128 = b.flag := by omega
  rw [ofFields_08 _ rfl]
  simp [of08, Ctl.fields, e1]

theorem plopAnd (c : Ctl) (d : PReg) (a : PReg) (b : PReg) : Statement (.plopAnd c d a b) := by
  rintro f ⟨⟩ hw
  have b0 := c.g.isLt
  have b1 := c.fe.isLt
  have b2 := c.h.isLt
  have b3 := d.isLt
  have b4 := a.isLt
  have b5 := b.isLt
  refine ⟨by simp only [Fields.InRange, Ctl.fields]; omega, by show 0 < 6; omega, ?_⟩
  rw [ofFields_09 _ rfl]
  simp [of09, Ctl.fields]

theorem plopOr (c : Ctl) (d : PReg) (a : PReg) (b : PReg) : Statement (.plopOr c d a b) := by
  rintro f ⟨⟩ hw
  have b0 := c.g.isLt
  have b1 := c.fe.isLt
  have b2 := c.h.isLt
  have b3 := d.isLt
  have b4 := a.isLt
  have b5 := b.isLt
  refine ⟨by simp only [Fields.InRange, Ctl.fields]; omega, by show 1 < 6; omega, ?_⟩
  rw [ofFields_09 _ rfl]
  simp [of09, Ctl.fields]

theorem plopXor (c : Ctl) (d : PReg) (a : PReg) (b : PReg) : Statement (.plopXor c d a b) := by
  rintro f ⟨⟩ hw
  have b0 := c.g.isLt
  have b1 := c.fe.isLt
  have b2 := c.h.isLt
  have b3 := d.isLt
  have b4 := a.isLt
  have b5 := b.isLt
  refine ⟨by simp only [Fields.InRange, Ctl.fields]; omega, by show 2 < 6; omega, ?_⟩
  rw [ofFields_09 _ rfl]
  simp [of09, Ctl.fields]

theorem plopAndn (c : Ctl) (d : PReg) (a : PReg) (b : PReg) : Statement (.plopAndn c d a b) := by
  rintro f ⟨⟩ hw
  have b0 := c.g.isLt
  have b1 := c.fe.isLt
  have b2 := c.h.isLt
  have b3 := d.isLt
  have b4 := a.isLt
  have b5 := b.isLt
  refine ⟨by simp only [Fields.InRange, Ctl.fields]; omega, by show 3 < 6; omega, ?_⟩
  rw [ofFields_09 _ rfl]
  simp [of09, Ctl.fields]

theorem plopNot (c : Ctl) (d : PReg) (a : PReg) : Statement (.plopNot c d a) := by
  rintro f ⟨⟩ hw
  have b0 := c.g.isLt
  have b1 := c.fe.isLt
  have b2 := c.h.isLt
  have b3 := d.isLt
  have b4 := a.isLt
  refine ⟨by simp only [Fields.InRange, Ctl.fields]; omega, by show 4 < 6; omega, ?_⟩
  rw [ofFields_09 _ rfl]
  simp [of09, Ctl.fields]

theorem plopMov (c : Ctl) (d : PReg) (a : PReg) : Statement (.plopMov c d a) := by
  rintro f ⟨⟩ hw
  have b0 := c.g.isLt
  have b1 := c.fe.isLt
  have b2 := c.h.isLt
  have b3 := d.isLt
  have b4 := a.isLt
  refine ⟨by simp only [Fields.InRange, Ctl.fields]; omega, by show 5 < 6; omega, ?_⟩
  rw [ofFields_09 _ rfl]
  simp [of09, Ctl.fields]

theorem sel (c : Ctl) (d : VReg) (a : VReg) (b : VReg) (p : PReg) (inv : Bool) : Statement (.sel c d a b p inv) := by
  rintro f ⟨⟩ hw
  have b0 := c.g.isLt
  have b1 := c.fe.isLt
  have b2 := c.h.isLt
  have b3 := d.isLt
  have b4 := a.isLt
  have b5 := b.isLt
  have b6 := p.isLt
  have b7 := inv.toNat_lt
  refine ⟨by simp only [Fields.InRange, Ctl.fields]; omega, by show 0 < 1; omega, ?_⟩
  have e1 : (p.val + 8 * inv.toNat) % 8 = p.val := by omega
  have e2 : (p.val + 8 * inv.toNat) / 8 % 2 = inv.toNat := by omega
  rw [ofFields_0A _ rfl]
  simp [of0A, Ctl.fields, e1, e2]

theorem movReg (c : Ctl) (d : VReg) (a : VReg) : Statement (.movReg c d a) := by
  rintro f ⟨⟩ hw
  have b0 := c.g.isLt
  have b1 := c.fe.isLt
  have b2 := c.h.isLt
  have b3 := d.isLt
  have b4 := a.isLt
  refine ⟨by simp only [Fields.InRange, Ctl.fields]; omega, by show 0 < 4; omega, ?_⟩
  rw [ofFields_0B _ rfl]
  simp [of0B, Ctl.fields]

theorem movImm (c : Ctl) (d : VReg) (x : Word) : Statement (.movImm c d x) := by
  rintro f ⟨⟩ hw
  have b0 := c.g.isLt
  have b1 := c.fe.isLt
  have b2 := c.h.isLt
  have b3 := d.isLt
  have b4 := x.isLt
  refine ⟨by simp only [Fields.InRange, Ctl.fields]; omega, by show 1 < 4; omega, ?_⟩
  rw [ofFields_0B _ rfl]
  simp [of0B, Ctl.fields]

theorem movS2V (c : Ctl) (d : VReg) (a : SReg) (hi : Bool) : Statement (.movS2V c d a hi) := by
  rintro f ⟨⟩ hw
  have b0 := c.g.isLt
  have b1 := c.fe.isLt
  have b2 := c.h.isLt
  have b3 := d.isLt
  have b4 := a.isLt
  have b5 := hi.toNat_lt
  refine ⟨by simp only [Fields.InRange, Ctl.fields]; omega, by show 2 < 4; omega, ?_⟩
  have e1 : (hi.toNat) % 2 = hi.toNat := by omega
  rw [ofFields_0B _ rfl]
  simp [of0B, Ctl.fields, e1]

theorem movV2S (c : Ctl) (d : SReg) (a : VReg) (hi : Bool) : Statement (.movV2S c d a hi) := by
  rintro f ⟨⟩ hw
  have b0 := c.g.isLt
  have b1 := c.fe.isLt
  have b2 := c.h.isLt
  have b3 := d.isLt
  have b4 := a.isLt
  have b5 := hi.toNat_lt
  refine ⟨by simp only [Fields.InRange, Ctl.fields]; omega, by show 3 < 4; omega, ?_⟩
  have e1 : (hi.toNat) % 2 = hi.toNat := by omega
  rw [ofFields_0B _ rfl]
  simp [of0B, Ctl.fields, e1]

theorem sregRead (c : Ctl) (d : VC) (a : Spec) : Statement (.sregRead c d a) := by
  rintro f ⟨⟩ hw
  have b0 := c.g.isLt
  have b1 := c.fe.isLt
  have b2 := c.h.isLt
  have b3 := d.code_lt
  have b4 := a.code_lt
  refine ⟨by simp only [Fields.InRange, Ctl.fields]; omega, by show 0 < 2; omega, ?_⟩
  rw [ofFields_0C _ rfl]
  simp [of0C, Ctl.fields]

theorem sregWrite (c : Ctl) (d : Spec) (a : VC) : Statement (.sregWrite c d a) := by
  rintro f ⟨⟩ hw
  have b0 := c.g.isLt
  have b1 := c.fe.isLt
  have b2 := c.h.isLt
  have b3 := d.code_lt
  have b4 := a.code_lt
  refine ⟨by simp only [Fields.InRange, Ctl.fields]; omega, by show 1 < 2; omega, ?_⟩
  rw [ofFields_0C _ rfl]
  simp [of0C, Ctl.fields]

theorem iaddAdd (c : Ctl) (d : VReg) (a : VReg) (b : VB) : Statement (.iaddAdd c d a b) := by
  rintro f ⟨⟩ hw
  have b0 := c.g.isLt
  have b1 := c.fe.isLt
  have b2 := c.h.isLt
  have b3 := d.isLt
  have b4 := a.isLt
  have b5 := b.num_lt
  have b6 := b.flag_lt
  have b7 := b.val_lt
  refine ⟨by simp only [Fields.InRange, Ctl.fields]; omega, by show 0 < 5; omega, ?_⟩
  have e1 : (128 * b.flag) / 128 = b.flag := by omega
  rw [ofFields_10 _ rfl]
  simp [of10, Ctl.fields, e1]

theorem iaddSub (c : Ctl) (d : VReg) (a : VReg) (b : VB) : Statement (.iaddSub c d a b) := by
  rintro f ⟨⟩ hw
  have b0 := c.g.isLt
  have b1 := c.fe.isLt
  have b2 := c.h.isLt
  have b3 := d.isLt
  have b4 := a.isLt
  have b5 := b.num_lt
  have b6 := b.flag_lt
  have b7 := b.val_lt
  refine ⟨by simp only [Fields.InRange, Ctl.fields]; omega, by show 1 < 5; omega, ?_⟩
  have e1 : (128 * b.flag) / 128 = b.flag := by omega
  rw [ofFields_10 _ rfl]
  simp [of10, Ctl.fields, e1]

theorem iaddAddsat (c : Ctl) (d : VReg) (a : VReg) (b : VB) (uns : Bool) : Statement (.iaddAddsat c d a b uns) := by
  rintro f ⟨⟩ hw
  have b0 := c.g.isLt
  have b1 := c.fe.isLt
  have b2 := c.h.isLt
  have b3 := d.isLt
  have b4 := a.isLt
  have b5 := uns.toNat_lt
  have b6 := b.num_lt
  have b7 := b.flag_lt
  have b8 := b.val_lt
  refine ⟨by simp only [Fields.InRange, Ctl.fields]; omega, by show 2 < 5; omega, ?_⟩
  have e1 : (128 * b.flag) / 128 = b.flag := by omega
  rw [ofFields_10 _ rfl]
  simp [of10, Ctl.fields, e1]

theorem iaddSubsat (c : Ctl) (d : VReg) (a : VReg) (b : VB) (uns : Bool) : Statement (.iaddSubsat c d a b uns) := by
  rintro f ⟨⟩ hw
  have b0 := c.g.isLt
  have b1 := c.fe.isLt
  have b2 := c.h.isLt
  have b3 := d.isLt
  have b4 := a.isLt
  have b5 := uns.toNat_lt
  have b6 := b.num_lt
  have b7 := b.flag_lt
  have b8 := b.val_lt
  refine ⟨by simp only [Fields.InRange, Ctl.fields]; omega, by show 3 < 5; omega, ?_⟩
  have e1 : (128 * b.flag) / 128 = b.flag := by omega
  rw [ofFields_10 _ rfl]
  simp [of10, Ctl.fields, e1]

theorem iaddNeg (c : Ctl) (d : VReg) (a : VReg) : Statement (.iaddNeg c d a) := by
  rintro f ⟨⟩ hw
  have b0 := c.g.isLt
  have b1 := c.fe.isLt
  have b2 := c.h.isLt
  have b3 := d.isLt
  have b4 := a.isLt
  refine ⟨by simp only [Fields.InRange, Ctl.fields]; omega, by show 4 < 5; omega, ?_⟩
  rw [ofFields_10 _ rfl]
  simp [of10, Ctl.fields]

theorem imulLo (c : Ctl) (d : VReg) (a : VReg) (b : VB) : Statement (.imulLo c d a b) := by
  rintro f ⟨⟩ hw
  have b0 := c.g.isLt
  have b1 := c.fe.isLt
  have b2 := c.h.isLt
  have b3 := d.isLt
  have b4 := a.isLt
  have b5 := b.num_lt
  have b6 := b.flag_lt
  have b7 := b.val_lt
  refine ⟨by simp only [Fields.InRange, Ctl.fields]; omega, by show 0 < 4; omega, ?_⟩
  have e1 : (128 * b.flag) / 128 = b.flag := by omega
  rw [ofFields_11 _ rfl]
  simp [of11, Ctl.fields, e1]

theorem imulHis (c : Ctl) (d : VReg) (a : VReg) (b : VB) : Statement (.imulHis c d a b) := by
  rintro f ⟨⟩ hw
  have b0 := c.g.isLt
  have b1 := c.fe.isLt
  have b2 := c.h.isLt
  have b3 := d.isLt
  have b4 := a.isLt
  have b5 := b.num_lt
  have b6 := b.flag_lt
  have b7 := b.val_lt
  refine ⟨by simp only [Fields.InRange, Ctl.fields]; omega, by show 1 < 4; omega, ?_⟩
  have e1 : (128 * b.flag) / 128 = b.flag := by omega
  rw [ofFields_11 _ rfl]
  simp [of11, Ctl.fields, e1]

theorem imulHin (c : Ctl) (d : VReg) (a : VReg) (b : VB) : Statement (.imulHin c d a b) := by
  rintro f ⟨⟩ hw
  have b0 := c.g.isLt
  have b1 := c.fe.isLt
  have b2 := c.h.isLt
  have b3 := d.isLt
  have b4 := a.isLt
  have b5 := b.num_lt
  have b6 := b.flag_lt
  have b7 := b.val_lt
  refine ⟨by simp only [Fields.InRange, Ctl.fields]; omega, by show 2 < 4; omega, ?_⟩
  have e1 : (128 * b.flag) / 128 = b.flag := by omega
  rw [ofFields_11 _ rfl]
  simp [of11, Ctl.fields, e1]

theorem imulMad (c : Ctl) (d : VReg) (a : VReg) (b : VReg) (x : VC) : Statement (.imulMad c d a b x) := by
  rintro f ⟨⟩ hw
  have b0 := c.g.isLt
  have b1 := c.fe.isLt
  have b2 := c.h.isLt
  have b3 := d.isLt
  have b4 := a.isLt
  have b5 := b.isLt
  have b6 := x.code_lt
  refine ⟨by simp only [Fields.InRange, Ctl.fields]; omega, by show 3 < 4; omega, ?_⟩
  have e1 : (x.code) % 512 = x.code := by omega
  rw [ofFields_11 _ rfl]
  simp [of11, Ctl.fields, e1]

theorem logicAnd (c : Ctl) (d : VReg) (a : VReg) (b : VB) : Statement (.logicAnd c d a b) := by
  rintro f ⟨⟩ hw
  have b0 := c.g.isLt
  have b1 := c.fe.isLt
  have b2 := c.h.isLt
  have b3 := d.isLt
  have b4 := a.isLt
  have b5 := b.num_lt
  have b6 := b.flag_lt
  have b7 := b.val_lt
  refine ⟨by simp only [Fields.InRange, Ctl.fields]; omega, by show 0 < 5; omega, ?_⟩
  have e1 : (128 * b.flag) / 128 = b.flag := by omega
  rw [ofFields_12 _ rfl]
  simp [of12, Ctl.fields, e1]

theorem logicOr (c : Ctl) (d : VReg) (a : VReg) (b : VB) : Statement (.logicOr c d a b) := by
  rintro f ⟨⟩ hw
  have b0 := c.g.isLt
  have b1 := c.fe.isLt
  have b2 := c.h.isLt
  have b3 := d.isLt
  have b4 := a.isLt
  have b5 := b.num_lt
  have b6 := b.flag_lt
  have b7 := b.val_lt
  refine ⟨by simp only [Fields.InRange, Ctl.fields]; omega, by show 1 < 5; omega, ?_⟩
  have e1 : (128 * b.flag) / 128 = b.flag := by omega
  rw [ofFields_12 _ rfl]
  simp [of12, Ctl.fields, e1]

theorem logicXor (c : Ctl) (d : VReg) (a : VReg) (b : VB) : Statement (.logicXor c d a b) := by
  rintro f ⟨⟩ hw
  have b0 := c.g.isLt
  have b1 := c.fe.isLt
  have b2 := c.h.isLt
  have b3 := d.isLt
  have b4 := a.isLt
  have b5 := b.num_lt
  have b6 := b.flag_lt
  have b7 := b.val_lt
  refine ⟨by simp only [Fields.InRange, Ctl.fields]; omega, by show 2 < 5; omega, ?_⟩
  have e1 : (128 * b.flag) / 128 = b.flag := by omega
  rw [ofFields_12 _ rfl]
  simp [of12, Ctl.fields, e1]

theorem logicAndn (c : Ctl) (d : VReg) (a : VReg) (b : VB) : Statement (.logicAndn c d a b) := by
  rintro f ⟨⟩ hw
  have b0 := c.g.isLt
  have b1 := c.fe.isLt
  have b2 := c.h.isLt
  have b3 := d.isLt
  have b4 := a.isLt
  have b5 := b.num_lt
  have b6 := b.flag_lt
  have b7 := b.val_lt
  refine ⟨by simp only [Fields.InRange, Ctl.fields]; omega, by show 3 < 5; omega, ?_⟩
  have e1 : (128 * b.flag) / 128 = b.flag := by omega
  rw [ofFields_12 _ rfl]
  simp [of12, Ctl.fields, e1]

theorem logicNot (c : Ctl) (d : VReg) (a : VReg) : Statement (.logicNot c d a) := by
  rintro f ⟨⟩ hw
  have b0 := c.g.isLt
  have b1 := c.fe.isLt
  have b2 := c.h.isLt
  have b3 := d.isLt
  have b4 := a.isLt
  refine ⟨by simp only [Fields.InRange, Ctl.fields]; omega, by show 4 < 5; omega, ?_⟩
  rw [ofFields_12 _ rfl]
  simp [of12, Ctl.fields]

theorem shiftShl (c : Ctl) (d : VReg) (a : VReg) (b : VB) : Statement (.shiftShl c d a b) := by
  rintro f ⟨⟩ hw
  have b0 := c.g.isLt
  have b1 := c.fe.isLt
  have b2 := c.h.isLt
  have b3 := d.isLt
  have b4 := a.isLt
  have b5 := b.num_lt
  have b6 := b.flag_lt
  have b7 := b.val_lt
  refine ⟨by simp only [Fields.InRange, Ctl.fields]; omega, by show 0 < 4; omega, ?_⟩
  have e1 : (128 * b.flag) / 128 = b.flag := by omega
  rw [ofFields_13 _ rfl]
  simp [of13, Ctl.fields, e1]

theorem shiftShr (c : Ctl) (d : VReg) (a : VReg) (b : VB) : Statement (.shiftShr c d a b) := by
  rintro f ⟨⟩ hw
  have b0 := c.g.isLt
  have b1 := c.fe.isLt
  have b2 := c.h.isLt
  have b3 := d.isLt
  have b4 := a.isLt
  have b5 := b.num_lt
  have b6 := b.flag_lt
  have b7 := b.val_lt
  refine ⟨by simp only [Fields.InRange, Ctl.fields]; omega, by show 1 < 4; omega, ?_⟩
  have e1 : (128 * b.flag) / 128 = b.flag := by omega
  rw [ofFields_13 _ rfl]
  simp [of13, Ctl.fields, e1]

theorem shiftSar (c : Ctl) (d : VReg) (a : VReg) (b : VB) : Statement (.shiftSar c d a b) := by
  rintro f ⟨⟩ hw
  have b0 := c.g.isLt
  have b1 := c.fe.isLt
  have b2 := c.h.isLt
  have b3 := d.isLt
  have b4 := a.isLt
  have b5 := b.num_lt
  have b6 := b.flag_lt
  have b7 := b.val_lt
  refine ⟨by simp only [Fields.InRange, Ctl.fields]; omega, by show 2 < 4; omega, ?_⟩
  have e1 : (128 * b.flag) / 128 = b.flag := by omega
  rw [ofFields_13 _ rfl]
  simp [of13, Ctl.fields, e1]

theorem shiftRol (c : Ctl) (d : VReg) (a : VReg) (b : VB) : Statement (.shiftRol c d a b) := by
  rintro f ⟨⟩ hw
  have b0 := c.g.isLt
  have b1 := c.fe.isLt
  have b2 := c.h.isLt
  have b3 := d.isLt
  have b4 := a.isLt
  have b5 := b.num_lt
  have b6 := b.flag_lt
  have b7 := b.val_lt
  refine ⟨by simp only [Fields.InRange, Ctl.fields]; omega, by show 3 < 4; omega, ?_⟩
  have e1 : (128 * b.flag) / 128 = b.flag := by omega
  rw [ofFields_13 _ rfl]
  simp [of13, Ctl.fields, e1]

theorem bitfBfe (c : Ctl) (d : VReg) (a : VReg) (b : VB) : Statement (.bitfBfe c d a b) := by
  rintro f ⟨⟩ hw
  have b0 := c.g.isLt
  have b1 := c.fe.isLt
  have b2 := c.h.isLt
  have b3 := d.isLt
  have b4 := a.isLt
  have b5 := b.num_lt
  have b6 := b.flag_lt
  have b7 := b.val_lt
  refine ⟨by simp only [Fields.InRange, Ctl.fields]; omega, by show 0 < 3; omega, ?_⟩
  have e1 : (128 * b.flag) / 128 = b.flag := by omega
  rw [ofFields_14 _ rfl]
  simp [of14, Ctl.fields, e1]

theorem bitfBfen (c : Ctl) (d : VReg) (a : VReg) (b : VB) : Statement (.bitfBfen c d a b) := by
  rintro f ⟨⟩ hw
  have b0 := c.g.isLt
  have b1 := c.fe.isLt
  have b2 := c.h.isLt
  have b3 := d.isLt
  have b4 := a.isLt
  have b5 := b.num_lt
  have b6 := b.flag_lt
  have b7 := b.val_lt
  refine ⟨by simp only [Fields.InRange, Ctl.fields]; omega, by show 1 < 3; omega, ?_⟩
  have e1 : (128 * b.flag) / 128 = b.flag := by omega
  rw [ofFields_14 _ rfl]
  simp [of14, Ctl.fields, e1]

theorem bitfBfi (c : Ctl) (d : VReg) (a : VReg) (b : VReg) (x : VC) : Statement (.bitfBfi c d a b x) := by
  rintro f ⟨⟩ hw
  have b0 := c.g.isLt
  have b1 := c.fe.isLt
  have b2 := c.h.isLt
  have b3 := d.isLt
  have b4 := a.isLt
  have b5 := b.isLt
  have b6 := x.code_lt
  refine ⟨by simp only [Fields.InRange, Ctl.fields]; omega, by show 2 < 3; omega, ?_⟩
  have e1 : (x.code) % 512 = x.code := by omega
  rw [ofFields_14 _ rfl]
  simp [of14, Ctl.fields, e1]

theorem bitcPopc (c : Ctl) (d : VReg) (a : VReg) : Statement (.bitcPopc c d a) := by
  rintro f ⟨⟩ hw
  have b0 := c.g.isLt
  have b1 := c.fe.isLt
  have b2 := c.h.isLt
  have b3 := d.isLt
  have b4 := a.isLt
  refine ⟨by simp only [Fields.InRange, Ctl.fields]; omega, by show 0 < 4; omega, ?_⟩
  rw [ofFields_15 _ rfl]
  simp [of15, Ctl.fields]

theorem bitcClz (c : Ctl) (d : VReg) (a : VReg) : Statement (.bitcClz c d a) := by
  rintro f ⟨⟩ hw
  have b0 := c.g.isLt
  have b1 := c.fe.isLt
  have b2 := c.h.isLt
  have b3 := d.isLt
  have b4 := a.isLt
  refine ⟨by simp only [Fields.InRange, Ctl.fields]; omega, by show 1 < 4; omega, ?_⟩
  rw [ofFields_15 _ rfl]
  simp [of15, Ctl.fields]

theorem bitcCtz (c : Ctl) (d : VReg) (a : VReg) : Statement (.bitcCtz c d a) := by
  rintro f ⟨⟩ hw
  have b0 := c.g.isLt
  have b1 := c.fe.isLt
  have b2 := c.h.isLt
  have b3 := d.isLt
  have b4 := a.isLt
  refine ⟨by simp only [Fields.InRange, Ctl.fields]; omega, by show 2 < 4; omega, ?_⟩
  rw [ofFields_15 _ rfl]
  simp [of15, Ctl.fields]

theorem bitcBrev (c : Ctl) (d : VReg) (a : VReg) : Statement (.bitcBrev c d a) := by
  rintro f ⟨⟩ hw
  have b0 := c.g.isLt
  have b1 := c.fe.isLt
  have b2 := c.h.isLt
  have b3 := d.isLt
  have b4 := a.isLt
  refine ⟨by simp only [Fields.InRange, Ctl.fields]; omega, by show 3 < 4; omega, ?_⟩
  rw [ofFields_15 _ rfl]
  simp [of15, Ctl.fields]

theorem iminmaxMin (c : Ctl) (d : VReg) (a : VReg) (b : VB) : Statement (.iminmaxMin c d a b) := by
  rintro f ⟨⟩ hw
  have b0 := c.g.isLt
  have b1 := c.fe.isLt
  have b2 := c.h.isLt
  have b3 := d.isLt
  have b4 := a.isLt
  have b5 := b.num_lt
  have b6 := b.flag_lt
  have b7 := b.val_lt
  refine ⟨by simp only [Fields.InRange, Ctl.fields]; omega, by show 0 < 4; omega, ?_⟩
  have e1 : (128 * b.flag) / 128 = b.flag := by omega
  rw [ofFields_16 _ rfl]
  simp [of16, Ctl.fields, e1]

theorem iminmaxMax (c : Ctl) (d : VReg) (a : VReg) (b : VB) : Statement (.iminmaxMax c d a b) := by
  rintro f ⟨⟩ hw
  have b0 := c.g.isLt
  have b1 := c.fe.isLt
  have b2 := c.h.isLt
  have b3 := d.isLt
  have b4 := a.isLt
  have b5 := b.num_lt
  have b6 := b.flag_lt
  have b7 := b.val_lt
  refine ⟨by simp only [Fields.InRange, Ctl.fields]; omega, by show 1 < 4; omega, ?_⟩
  have e1 : (128 * b.flag) / 128 = b.flag := by omega
  rw [ofFields_16 _ rfl]
  simp [of16, Ctl.fields, e1]

theorem iminmaxMinn (c : Ctl) (d : VReg) (a : VReg) (b : VB) : Statement (.iminmaxMinn c d a b) := by
  rintro f ⟨⟩ hw
  have b0 := c.g.isLt
  have b1 := c.fe.isLt
  have b2 := c.h.isLt
  have b3 := d.isLt
  have b4 := a.isLt
  have b5 := b.num_lt
  have b6 := b.flag_lt
  have b7 := b.val_lt
  refine ⟨by simp only [Fields.InRange, Ctl.fields]; omega, by show 2 < 4; omega, ?_⟩
  have e1 : (128 * b.flag) / 128 = b.flag := by omega
  rw [ofFields_16 _ rfl]
  simp [of16, Ctl.fields, e1]

theorem iminmaxMaxn (c : Ctl) (d : VReg) (a : VReg) (b : VB) : Statement (.iminmaxMaxn c d a b) := by
  rintro f ⟨⟩ hw
  have b0 := c.g.isLt
  have b1 := c.fe.isLt
  have b2 := c.h.isLt
  have b3 := d.isLt
  have b4 := a.isLt
  have b5 := b.num_lt
  have b6 := b.flag_lt
  have b7 := b.val_lt
  refine ⟨by simp only [Fields.InRange, Ctl.fields]; omega, by show 3 < 4; omega, ?_⟩
  have e1 : (128 * b.flag) / 128 = b.flag := by omega
  rw [ofFields_16 _ rfl]
  simp [of16, Ctl.fields, e1]

theorem idivDivn (c : Ctl) (d : VReg) (a : VReg) (b : VB) : Statement (.idivDivn c d a b) := by
  rintro f ⟨⟩ hw
  have b0 := c.g.isLt
  have b1 := c.fe.isLt
  have b2 := c.h.isLt
  have b3 := d.isLt
  have b4 := a.isLt
  have b5 := b.num_lt
  have b6 := b.flag_lt
  have b7 := b.val_lt
  refine ⟨by simp only [Fields.InRange, Ctl.fields]; omega, by show 0 < 4; omega, ?_⟩
  have e1 : (128 * b.flag) / 128 = b.flag := by omega
  rw [ofFields_17 _ rfl]
  simp [of17, Ctl.fields, e1]

theorem idivRemn (c : Ctl) (d : VReg) (a : VReg) (b : VB) : Statement (.idivRemn c d a b) := by
  rintro f ⟨⟩ hw
  have b0 := c.g.isLt
  have b1 := c.fe.isLt
  have b2 := c.h.isLt
  have b3 := d.isLt
  have b4 := a.isLt
  have b5 := b.num_lt
  have b6 := b.flag_lt
  have b7 := b.val_lt
  refine ⟨by simp only [Fields.InRange, Ctl.fields]; omega, by show 1 < 4; omega, ?_⟩
  have e1 : (128 * b.flag) / 128 = b.flag := by omega
  rw [ofFields_17 _ rfl]
  simp [of17, Ctl.fields, e1]

theorem idivDivs (c : Ctl) (d : VReg) (a : VReg) (b : VB) : Statement (.idivDivs c d a b) := by
  rintro f ⟨⟩ hw
  have b0 := c.g.isLt
  have b1 := c.fe.isLt
  have b2 := c.h.isLt
  have b3 := d.isLt
  have b4 := a.isLt
  have b5 := b.num_lt
  have b6 := b.flag_lt
  have b7 := b.val_lt
  refine ⟨by simp only [Fields.InRange, Ctl.fields]; omega, by show 2 < 4; omega, ?_⟩
  have e1 : (128 * b.flag) / 128 = b.flag := by omega
  rw [ofFields_17 _ rfl]
  simp [of17, Ctl.fields, e1]

theorem idivRems (c : Ctl) (d : VReg) (a : VReg) (b : VB) : Statement (.idivRems c d a b) := by
  rintro f ⟨⟩ hw
  have b0 := c.g.isLt
  have b1 := c.fe.isLt
  have b2 := c.h.isLt
  have b3 := d.isLt
  have b4 := a.isLt
  have b5 := b.num_lt
  have b6 := b.flag_lt
  have b7 := b.val_lt
  refine ⟨by simp only [Fields.InRange, Ctl.fields]; omega, by show 3 < 4; omega, ?_⟩
  have e1 : (128 * b.flag) / 128 = b.flag := by omega
  rw [ofFields_17 _ rfl]
  simp [of17, Ctl.fields, e1]

theorem lea (c : Ctl) (d : VReg) (a : VReg) (b : VReg) (sh : BitVec 5) : Statement (.lea c d a b sh) := by
  rintro f ⟨⟩ hw
  have b0 := c.g.isLt
  have b1 := c.fe.isLt
  have b2 := c.h.isLt
  have b3 := d.isLt
  have b4 := a.isLt
  have b5 := b.isLt
  have b6 := sh.isLt
  refine ⟨by simp only [Fields.InRange, Ctl.fields]; omega, by show 0 < 1; omega, ?_⟩
  have e1 : (sh.toNat) % 32 = sh.toNat := by omega
  rw [ofFields_18 _ rfl]
  simp [of18, Ctl.fields, e1]

theorem saluAdd (c : Ctl) (d : SReg) (a : SReg) (b : SB) : Statement (.saluAdd c d a b) := by
  rintro f ⟨⟩ hw
  have b0 := c.g.isLt
  have b1 := c.fe.isLt
  have b2 := c.h.isLt
  have b3 := d.isLt
  have b4 := a.isLt
  have b5 := b.num_lt
  have b6 := b.flag_lt
  have b7 := b.val_lt
  refine ⟨by simp only [Fields.InRange, Ctl.fields]; omega, by show 0 < 11; omega, ?_⟩
  have e1 : (128 * b.flag) / 128 = b.flag := by omega
  rw [ofFields_20 _ rfl]
  simp [of20, Ctl.fields, e1]

theorem saluSub (c : Ctl) (d : SReg) (a : SReg) (b : SB) : Statement (.saluSub c d a b) := by
  rintro f ⟨⟩ hw
  have b0 := c.g.isLt
  have b1 := c.fe.isLt
  have b2 := c.h.isLt
  have b3 := d.isLt
  have b4 := a.isLt
  have b5 := b.num_lt
  have b6 := b.flag_lt
  have b7 := b.val_lt
  refine ⟨by simp only [Fields.InRange, Ctl.fields]; omega, by show 1 < 11; omega, ?_⟩
  have e1 : (128 * b.flag) / 128 = b.flag := by omega
  rw [ofFields_20 _ rfl]
  simp [of20, Ctl.fields, e1]

theorem saluMul (c : Ctl) (d : SReg) (a : SReg) (b : SB) : Statement (.saluMul c d a b) := by
  rintro f ⟨⟩ hw
  have b0 := c.g.isLt
  have b1 := c.fe.isLt
  have b2 := c.h.isLt
  have b3 := d.isLt
  have b4 := a.isLt
  have b5 := b.num_lt
  have b6 := b.flag_lt
  have b7 := b.val_lt
  refine ⟨by simp only [Fields.InRange, Ctl.fields]; omega, by show 2 < 11; omega, ?_⟩
  have e1 : (128 * b.flag) / 128 = b.flag := by omega
  rw [ofFields_20 _ rfl]
  simp [of20, Ctl.fields, e1]

theorem saluAnd (c : Ctl) (d : SReg) (a : SReg) (b : SB) : Statement (.saluAnd c d a b) := by
  rintro f ⟨⟩ hw
  have b0 := c.g.isLt
  have b1 := c.fe.isLt
  have b2 := c.h.isLt
  have b3 := d.isLt
  have b4 := a.isLt
  have b5 := b.num_lt
  have b6 := b.flag_lt
  have b7 := b.val_lt
  refine ⟨by simp only [Fields.InRange, Ctl.fields]; omega, by show 3 < 11; omega, ?_⟩
  have e1 : (128 * b.flag) / 128 = b.flag := by omega
  rw [ofFields_20 _ rfl]
  simp [of20, Ctl.fields, e1]

theorem saluOr (c : Ctl) (d : SReg) (a : SReg) (b : SB) : Statement (.saluOr c d a b) := by
  rintro f ⟨⟩ hw
  have b0 := c.g.isLt
  have b1 := c.fe.isLt
  have b2 := c.h.isLt
  have b3 := d.isLt
  have b4 := a.isLt
  have b5 := b.num_lt
  have b6 := b.flag_lt
  have b7 := b.val_lt
  refine ⟨by simp only [Fields.InRange, Ctl.fields]; omega, by show 4 < 11; omega, ?_⟩
  have e1 : (128 * b.flag) / 128 = b.flag := by omega
  rw [ofFields_20 _ rfl]
  simp [of20, Ctl.fields, e1]

theorem saluXor (c : Ctl) (d : SReg) (a : SReg) (b : SB) : Statement (.saluXor c d a b) := by
  rintro f ⟨⟩ hw
  have b0 := c.g.isLt
  have b1 := c.fe.isLt
  have b2 := c.h.isLt
  have b3 := d.isLt
  have b4 := a.isLt
  have b5 := b.num_lt
  have b6 := b.flag_lt
  have b7 := b.val_lt
  refine ⟨by simp only [Fields.InRange, Ctl.fields]; omega, by show 5 < 11; omega, ?_⟩
  have e1 : (128 * b.flag) / 128 = b.flag := by omega
  rw [ofFields_20 _ rfl]
  simp [of20, Ctl.fields, e1]

theorem saluShl (c : Ctl) (d : SReg) (a : SReg) (b : SB) : Statement (.saluShl c d a b) := by
  rintro f ⟨⟩ hw
  have b0 := c.g.isLt
  have b1 := c.fe.isLt
  have b2 := c.h.isLt
  have b3 := d.isLt
  have b4 := a.isLt
  have b5 := b.num_lt
  have b6 := b.flag_lt
  have b7 := b.val_lt
  refine ⟨by simp only [Fields.InRange, Ctl.fields]; omega, by show 6 < 11; omega, ?_⟩
  have e1 : (128 * b.flag) / 128 = b.flag := by omega
  rw [ofFields_20 _ rfl]
  simp [of20, Ctl.fields, e1]

theorem saluShr (c : Ctl) (d : SReg) (a : SReg) (b : SB) : Statement (.saluShr c d a b) := by
  rintro f ⟨⟩ hw
  have b0 := c.g.isLt
  have b1 := c.fe.isLt
  have b2 := c.h.isLt
  have b3 := d.isLt
  have b4 := a.isLt
  have b5 := b.num_lt
  have b6 := b.flag_lt
  have b7 := b.val_lt
  refine ⟨by simp only [Fields.InRange, Ctl.fields]; omega, by show 7 < 11; omega, ?_⟩
  have e1 : (128 * b.flag) / 128 = b.flag := by omega
  rw [ofFields_20 _ rfl]
  simp [of20, Ctl.fields, e1]

theorem saluSar (c : Ctl) (d : SReg) (a : SReg) (b : SB) : Statement (.saluSar c d a b) := by
  rintro f ⟨⟩ hw
  have b0 := c.g.isLt
  have b1 := c.fe.isLt
  have b2 := c.h.isLt
  have b3 := d.isLt
  have b4 := a.isLt
  have b5 := b.num_lt
  have b6 := b.flag_lt
  have b7 := b.val_lt
  refine ⟨by simp only [Fields.InRange, Ctl.fields]; omega, by show 8 < 11; omega, ?_⟩
  have e1 : (128 * b.flag) / 128 = b.flag := by omega
  rw [ofFields_20 _ rfl]
  simp [of20, Ctl.fields, e1]

theorem saluMin (c : Ctl) (d : SReg) (a : SReg) (b : SB) (uns : Bool) : Statement (.saluMin c d a b uns) := by
  rintro f ⟨⟩ hw
  have b0 := c.g.isLt
  have b1 := c.fe.isLt
  have b2 := c.h.isLt
  have b3 := d.isLt
  have b4 := a.isLt
  have b5 := uns.toNat_lt
  have b6 := b.num_lt
  have b7 := b.flag_lt
  have b8 := b.val_lt
  refine ⟨by simp only [Fields.InRange, Ctl.fields]; omega, by show 9 < 11; omega, ?_⟩
  have e1 : (128 * b.flag) / 128 = b.flag := by omega
  rw [ofFields_20 _ rfl]
  simp [of20, Ctl.fields, e1]

theorem saluMax (c : Ctl) (d : SReg) (a : SReg) (b : SB) (uns : Bool) : Statement (.saluMax c d a b uns) := by
  rintro f ⟨⟩ hw
  have b0 := c.g.isLt
  have b1 := c.fe.isLt
  have b2 := c.h.isLt
  have b3 := d.isLt
  have b4 := a.isLt
  have b5 := uns.toNat_lt
  have b6 := b.num_lt
  have b7 := b.flag_lt
  have b8 := b.val_lt
  refine ⟨by simp only [Fields.InRange, Ctl.fields]; omega, by show 10 < 11; omega, ?_⟩
  have e1 : (128 * b.flag) / 128 = b.flag := by omega
  rw [ofFields_20 _ rfl]
  simp [of20, Ctl.fields, e1]

theorem scmp (c : Ctl) (cc : CC) (d : PReg) (a : SReg) (b : SB) : Statement (.scmp c cc d a b) := by
  rintro f ⟨⟩ hw
  have b0 := c.g.isLt
  have b1 := c.fe.isLt
  have b2 := c.h.isLt
  have b3 := d.isLt
  have b4 := a.isLt
  have b5 := b.num_lt
  have b6 := cc.code_lt
  have b7 := b.flag_lt
  have b8 := b.val_lt
  refine ⟨by simp only [Fields.InRange, Ctl.fields]; omega, by show 0 < 1; omega, ?_⟩
  have e1 : (cc.code + 128 * b.flag) % 16 = cc.code := by omega
  have e2 : (cc.code + 128 * b.flag) / 128 = b.flag := by omega
  rw [ofFields_21 _ rfl]
  simp [of21, Ctl.fields, e1, e2]

theorem addr (c : Ctl) (d : SReg) (a : SReg) (b : SB) : Statement (.addr c d a b) := by
  rintro f ⟨⟩ hw
  have b0 := c.g.isLt
  have b1 := c.fe.isLt
  have b2 := c.h.isLt
  have b3 := d.isLt
  have b4 := a.isLt
  have b5 := b.num_lt
  have b6 := b.flag_lt
  have b7 := b.val_lt
  refine ⟨by simp only [Fields.InRange, Ctl.fields]; omega, by show 0 < 1; omega, ?_⟩
  have e1 : (128 * b.flag) / 128 = b.flag := by omega
  rw [ofFields_22 _ rfl]
  simp [of22, Ctl.fields, e1]

theorem smoviLo (c : Ctl) (d : SReg) (x : Word) : Statement (.smoviLo c d x) := by
  rintro f ⟨⟩ hw
  have b0 := c.g.isLt
  have b1 := c.fe.isLt
  have b2 := c.h.isLt
  have b3 := d.isLt
  have b4 := x.isLt
  refine ⟨by simp only [Fields.InRange, Ctl.fields]; omega, by show 0 < 2; omega, ?_⟩
  rw [ofFields_23 _ rfl]
  simp [of23, Ctl.fields]

theorem smoviHi (c : Ctl) (d : SReg) (x : Word) : Statement (.smoviHi c d x) := by
  rintro f ⟨⟩ hw
  have b0 := c.g.isLt
  have b1 := c.fe.isLt
  have b2 := c.h.isLt
  have b3 := d.isLt
  have b4 := x.isLt
  refine ⟨by simp only [Fields.InRange, Ctl.fields]; omega, by show 1 < 2; omega, ?_⟩
  rw [ofFields_23 _ rfl]
  simp [of23, Ctl.fields]

theorem farithAdd (c : Ctl) (rm : RM) (d : VReg) (a : VReg) (b : VB) : Statement (.farithAdd c rm d a b) := by
  rintro f ⟨⟩ hw
  have b0 := c.g.isLt
  have b1 := c.fe.isLt
  have b2 := c.h.isLt
  have b3 := d.isLt
  have b4 := a.isLt
  have b5 := b.num_lt
  have b6 := rm.code_lt
  have b7 := b.flag_lt
  have b8 := b.val_lt
  refine ⟨by simp only [Fields.InRange, Ctl.fields]; omega, by show 0 < 3; omega, ?_⟩
  have e1 : (rm.code + 128 * b.flag) % 4 = rm.code := by omega
  have e2 : (rm.code + 128 * b.flag) / 128 = b.flag := by omega
  rw [ofFields_40 _ rfl]
  simp [of40, Ctl.fields, e1, e2]

theorem farithSub (c : Ctl) (rm : RM) (d : VReg) (a : VReg) (b : VB) : Statement (.farithSub c rm d a b) := by
  rintro f ⟨⟩ hw
  have b0 := c.g.isLt
  have b1 := c.fe.isLt
  have b2 := c.h.isLt
  have b3 := d.isLt
  have b4 := a.isLt
  have b5 := b.num_lt
  have b6 := rm.code_lt
  have b7 := b.flag_lt
  have b8 := b.val_lt
  refine ⟨by simp only [Fields.InRange, Ctl.fields]; omega, by show 1 < 3; omega, ?_⟩
  have e1 : (rm.code + 128 * b.flag) % 4 = rm.code := by omega
  have e2 : (rm.code + 128 * b.flag) / 128 = b.flag := by omega
  rw [ofFields_40 _ rfl]
  simp [of40, Ctl.fields, e1, e2]

theorem farithMul (c : Ctl) (rm : RM) (d : VReg) (a : VReg) (b : VB) : Statement (.farithMul c rm d a b) := by
  rintro f ⟨⟩ hw
  have b0 := c.g.isLt
  have b1 := c.fe.isLt
  have b2 := c.h.isLt
  have b3 := d.isLt
  have b4 := a.isLt
  have b5 := b.num_lt
  have b6 := rm.code_lt
  have b7 := b.flag_lt
  have b8 := b.val_lt
  refine ⟨by simp only [Fields.InRange, Ctl.fields]; omega, by show 2 < 3; omega, ?_⟩
  have e1 : (rm.code + 128 * b.flag) % 4 = rm.code := by omega
  have e2 : (rm.code + 128 * b.flag) / 128 = b.flag := by omega
  rw [ofFields_40 _ rfl]
  simp [of40, Ctl.fields, e1, e2]

theorem ffmaFma (c : Ctl) (rm : RM) (d : VReg) (a : VReg) (b : VReg) (x : VC) : Statement (.ffmaFma c rm d a b x) := by
  rintro f ⟨⟩ hw
  have b0 := c.g.isLt
  have b1 := c.fe.isLt
  have b2 := c.h.isLt
  have b3 := d.isLt
  have b4 := a.isLt
  have b5 := b.isLt
  have b6 := rm.code_lt
  have b7 := x.code_lt
  refine ⟨by simp only [Fields.InRange, Ctl.fields]; omega, by show 0 < 4; omega, ?_⟩
  have e1 : (rm.code) % 4 = rm.code := by omega
  have e2 : (x.code) % 512 = x.code := by omega
  rw [ofFields_41 _ rfl]
  simp [of41, Ctl.fields, e1, e2]

theorem ffmaFms (c : Ctl) (rm : RM) (d : VReg) (a : VReg) (b : VReg) (x : VC) : Statement (.ffmaFms c rm d a b x) := by
  rintro f ⟨⟩ hw
  have b0 := c.g.isLt
  have b1 := c.fe.isLt
  have b2 := c.h.isLt
  have b3 := d.isLt
  have b4 := a.isLt
  have b5 := b.isLt
  have b6 := rm.code_lt
  have b7 := x.code_lt
  refine ⟨by simp only [Fields.InRange, Ctl.fields]; omega, by show 1 < 4; omega, ?_⟩
  have e1 : (rm.code) % 4 = rm.code := by omega
  have e2 : (x.code) % 512 = x.code := by omega
  rw [ofFields_41 _ rfl]
  simp [of41, Ctl.fields, e1, e2]

theorem ffmaFnma (c : Ctl) (rm : RM) (d : VReg) (a : VReg) (b : VReg) (x : VC) : Statement (.ffmaFnma c rm d a b x) := by
  rintro f ⟨⟩ hw
  have b0 := c.g.isLt
  have b1 := c.fe.isLt
  have b2 := c.h.isLt
  have b3 := d.isLt
  have b4 := a.isLt
  have b5 := b.isLt
  have b6 := rm.code_lt
  have b7 := x.code_lt
  refine ⟨by simp only [Fields.InRange, Ctl.fields]; omega, by show 2 < 4; omega, ?_⟩
  have e1 : (rm.code) % 4 = rm.code := by omega
  have e2 : (x.code) % 512 = x.code := by omega
  rw [ofFields_41 _ rfl]
  simp [of41, Ctl.fields, e1, e2]

theorem ffmaFnms (c : Ctl) (rm : RM) (d : VReg) (a : VReg) (b : VReg) (x : VC) : Statement (.ffmaFnms c rm d a b x) := by
  rintro f ⟨⟩ hw
  have b0 := c.g.isLt
  have b1 := c.fe.isLt
  have b2 := c.h.isLt
  have b3 := d.isLt
  have b4 := a.isLt
  have b5 := b.isLt
  have b6 := rm.code_lt
  have b7 := x.code_lt
  refine ⟨by simp only [Fields.InRange, Ctl.fields]; omega, by show 3 < 4; omega, ?_⟩
  have e1 : (rm.code) % 4 = rm.code := by omega
  have e2 : (x.code) % 512 = x.code := by omega
  rw [ofFields_41 _ rfl]
  simp [of41, Ctl.fields, e1, e2]

theorem fminmaxMin (c : Ctl) (ty : FTy) (d : VReg) (a : VReg) (b : VB) : Statement (.fminmaxMin c ty d a b) := by
  rintro f ⟨⟩ hw
  have b0 := c.g.isLt
  have b1 := c.fe.isLt
  have b2 := c.h.isLt
  have b3 := d.isLt
  have b4 := a.isLt
  have b5 := b.num_lt
  have b6 := ty.code_lt
  have b7 := b.flag_lt
  have b8 := b.val_lt
  refine ⟨by simp only [Fields.InRange, Ctl.fields]; omega, by show 0 < 1; omega, ?_⟩
  have e1 : (128 * b.flag) % 2 = 0 := by omega
  have e2 : (128 * b.flag) / 128 = b.flag := by omega
  rw [ofFields_42 _ rfl]
  simp [of42, Ctl.fields, e1, e2]

theorem fminmaxMax (c : Ctl) (ty : FTy) (d : VReg) (a : VReg) (b : VB) : Statement (.fminmaxMax c ty d a b) := by
  rintro f ⟨⟩ hw
  have b0 := c.g.isLt
  have b1 := c.fe.isLt
  have b2 := c.h.isLt
  have b3 := d.isLt
  have b4 := a.isLt
  have b5 := b.num_lt
  have b6 := ty.code_lt
  have b7 := b.flag_lt
  have b8 := b.val_lt
  refine ⟨by simp only [Fields.InRange, Ctl.fields]; omega, by show 0 < 1; omega, ?_⟩
  have e1 : (1 + 128 * b.flag) % 2 = 1 := by omega
  have e2 : (1 + 128 * b.flag) / 128 = b.flag := by omega
  rw [ofFields_42 _ rfl]
  simp [of42, Ctl.fields, e1, e2]

theorem fcmpEq (c : Ctl) (ty : FTy) (d : PReg) (a : VReg) (b : VB) : Statement (.fcmpEq c ty d a b) := by
  rintro f ⟨⟩ hw
  have b0 := c.g.isLt
  have b1 := c.fe.isLt
  have b2 := c.h.isLt
  have b3 := d.isLt
  have b4 := a.isLt
  have b5 := b.num_lt
  have b6 := ty.code_lt
  have b7 := b.flag_lt
  have b8 := b.val_lt
  refine ⟨by simp only [Fields.InRange, Ctl.fields]; omega, by show 0 < 8; omega, ?_⟩
  have e1 : (128 * b.flag) / 128 = b.flag := by omega
  rw [ofFields_43 _ rfl]
  simp [of43, Ctl.fields, e1]

theorem fcmpNe (c : Ctl) (ty : FTy) (d : PReg) (a : VReg) (b : VB) : Statement (.fcmpNe c ty d a b) := by
  rintro f ⟨⟩ hw
  have b0 := c.g.isLt
  have b1 := c.fe.isLt
  have b2 := c.h.isLt
  have b3 := d.isLt
  have b4 := a.isLt
  have b5 := b.num_lt
  have b6 := ty.code_lt
  have b7 := b.flag_lt
  have b8 := b.val_lt
  refine ⟨by simp only [Fields.InRange, Ctl.fields]; omega, by show 1 < 8; omega, ?_⟩
  have e1 : (128 * b.flag) / 128 = b.flag := by omega
  rw [ofFields_43 _ rfl]
  simp [of43, Ctl.fields, e1]

theorem fcmpLt (c : Ctl) (ty : FTy) (d : PReg) (a : VReg) (b : VB) : Statement (.fcmpLt c ty d a b) := by
  rintro f ⟨⟩ hw
  have b0 := c.g.isLt
  have b1 := c.fe.isLt
  have b2 := c.h.isLt
  have b3 := d.isLt
  have b4 := a.isLt
  have b5 := b.num_lt
  have b6 := ty.code_lt
  have b7 := b.flag_lt
  have b8 := b.val_lt
  refine ⟨by simp only [Fields.InRange, Ctl.fields]; omega, by show 2 < 8; omega, ?_⟩
  have e1 : (128 * b.flag) / 128 = b.flag := by omega
  rw [ofFields_43 _ rfl]
  simp [of43, Ctl.fields, e1]

theorem fcmpLe (c : Ctl) (ty : FTy) (d : PReg) (a : VReg) (b : VB) : Statement (.fcmpLe c ty d a b) := by
  rintro f ⟨⟩ hw
  have b0 := c.g.isLt
  have b1 := c.fe.isLt
  have b2 := c.h.isLt
  have b3 := d.isLt
  have b4 := a.isLt
  have b5 := b.num_lt
  have b6 := ty.code_lt
  have b7 := b.flag_lt
  have b8 := b.val_lt
  refine ⟨by simp only [Fields.InRange, Ctl.fields]; omega, by show 3 < 8; omega, ?_⟩
  have e1 : (128 * b.flag) / 128 = b.flag := by omega
  rw [ofFields_43 _ rfl]
  simp [of43, Ctl.fields, e1]

theorem fcmpGt (c : Ctl) (ty : FTy) (d : PReg) (a : VReg) (b : VB) : Statement (.fcmpGt c ty d a b) := by
  rintro f ⟨⟩ hw
  have b0 := c.g.isLt
  have b1 := c.fe.isLt
  have b2 := c.h.isLt
  have b3 := d.isLt
  have b4 := a.isLt
  have b5 := b.num_lt
  have b6 := ty.code_lt
  have b7 := b.flag_lt
  have b8 := b.val_lt
  refine ⟨by simp only [Fields.InRange, Ctl.fields]; omega, by show 4 < 8; omega, ?_⟩
  have e1 : (128 * b.flag) / 128 = b.flag := by omega
  rw [ofFields_43 _ rfl]
  simp [of43, Ctl.fields, e1]

theorem fcmpGe (c : Ctl) (ty : FTy) (d : PReg) (a : VReg) (b : VB) : Statement (.fcmpGe c ty d a b) := by
  rintro f ⟨⟩ hw
  have b0 := c.g.isLt
  have b1 := c.fe.isLt
  have b2 := c.h.isLt
  have b3 := d.isLt
  have b4 := a.isLt
  have b5 := b.num_lt
  have b6 := ty.code_lt
  have b7 := b.flag_lt
  have b8 := b.val_lt
  refine ⟨by simp only [Fields.InRange, Ctl.fields]; omega, by show 5 < 8; omega, ?_⟩
  have e1 : (128 * b.flag) / 128 = b.flag := by omega
  rw [ofFields_43 _ rfl]
  simp [of43, Ctl.fields, e1]

theorem fcmpUnord (c : Ctl) (ty : FTy) (d : PReg) (a : VReg) (b : VB) : Statement (.fcmpUnord c ty d a b) := by
  rintro f ⟨⟩ hw
  have b0 := c.g.isLt
  have b1 := c.fe.isLt
  have b2 := c.h.isLt
  have b3 := d.isLt
  have b4 := a.isLt
  have b5 := b.num_lt
  have b6 := ty.code_lt
  have b7 := b.flag_lt
  have b8 := b.val_lt
  refine ⟨by simp only [Fields.InRange, Ctl.fields]; omega, by show 6 < 8; omega, ?_⟩
  have e1 : (128 * b.flag) / 128 = b.flag := by omega
  rw [ofFields_43 _ rfl]
  simp [of43, Ctl.fields, e1]

theorem fcmpOrd (c : Ctl) (ty : FTy) (d : PReg) (a : VReg) (b : VB) : Statement (.fcmpOrd c ty d a b) := by
  rintro f ⟨⟩ hw
  have b0 := c.g.isLt
  have b1 := c.fe.isLt
  have b2 := c.h.isLt
  have b3 := d.isLt
  have b4 := a.isLt
  have b5 := b.num_lt
  have b6 := ty.code_lt
  have b7 := b.flag_lt
  have b8 := b.val_lt
  refine ⟨by simp only [Fields.InRange, Ctl.fields]; omega, by show 7 < 8; omega, ?_⟩
  have e1 : (128 * b.flag) / 128 = b.flag := by omega
  rw [ofFields_43 _ rfl]
  simp [of43, Ctl.fields, e1]

theorem fsignAbs (c : Ctl) (ty : FTy) (d : VReg) (a : VReg) : Statement (.fsignAbs c ty d a) := by
  rintro f ⟨⟩ hw
  have b0 := c.g.isLt
  have b1 := c.fe.isLt
  have b2 := c.h.isLt
  have b3 := d.isLt
  have b4 := a.isLt
  have b5 := ty.code_lt
  refine ⟨by simp only [Fields.InRange, Ctl.fields]; omega, by show 0 < 3; omega, ?_⟩
  rw [ofFields_44 _ rfl]
  simp [of44, Ctl.fields]

theorem fsignNeg (c : Ctl) (ty : FTy) (d : VReg) (a : VReg) : Statement (.fsignNeg c ty d a) := by
  rintro f ⟨⟩ hw
  have b0 := c.g.isLt
  have b1 := c.fe.isLt
  have b2 := c.h.isLt
  have b3 := d.isLt
  have b4 := a.isLt
  have b5 := ty.code_lt
  refine ⟨by simp only [Fields.InRange, Ctl.fields]; omega, by show 1 < 3; omega, ?_⟩
  rw [ofFields_44 _ rfl]
  simp [of44, Ctl.fields]

theorem fsignCopysign (c : Ctl) (ty : FTy) (d : VReg) (a : VReg) (b : VReg) : Statement (.fsignCopysign c ty d a b) := by
  rintro f ⟨⟩ hw
  have b0 := c.g.isLt
  have b1 := c.fe.isLt
  have b2 := c.h.isLt
  have b3 := d.isLt
  have b4 := a.isLt
  have b5 := b.isLt
  have b6 := ty.code_lt
  refine ⟨by simp only [Fields.InRange, Ctl.fields]; omega, by show 2 < 3; omega, ?_⟩
  rw [ofFields_44 _ rfl]
  simp [of44, Ctl.fields]

theorem darithDadd (c : Ctl) (rm : RM) (d : VReg) (a : VReg) (b : VReg) : Statement (.darithDadd c rm d a b) := by
  rintro f ⟨⟩ hw
  have b0 := c.g.isLt
  have b1 := c.fe.isLt
  have b2 := c.h.isLt
  have b3 := d.isLt
  have b4 := a.isLt
  have b5 := b.isLt
  have b6 := rm.code_lt
  refine ⟨by simp only [Fields.InRange, Ctl.fields]; omega, by show 0 < 4; omega, ?_⟩
  have e1 : (rm.code) % 4 = rm.code := by omega
  rw [ofFields_45 _ rfl]
  simp [of45, Ctl.fields, e1]

theorem darithDsub (c : Ctl) (rm : RM) (d : VReg) (a : VReg) (b : VReg) : Statement (.darithDsub c rm d a b) := by
  rintro f ⟨⟩ hw
  have b0 := c.g.isLt
  have b1 := c.fe.isLt
  have b2 := c.h.isLt
  have b3 := d.isLt
  have b4 := a.isLt
  have b5 := b.isLt
  have b6 := rm.code_lt
  refine ⟨by simp only [Fields.InRange, Ctl.fields]; omega, by show 1 < 4; omega, ?_⟩
  have e1 : (rm.code) % 4 = rm.code := by omega
  rw [ofFields_45 _ rfl]
  simp [of45, Ctl.fields, e1]

theorem darithDmul (c : Ctl) (rm : RM) (d : VReg) (a : VReg) (b : VReg) : Statement (.darithDmul c rm d a b) := by
  rintro f ⟨⟩ hw
  have b0 := c.g.isLt
  have b1 := c.fe.isLt
  have b2 := c.h.isLt
  have b3 := d.isLt
  have b4 := a.isLt
  have b5 := b.isLt
  have b6 := rm.code_lt
  refine ⟨by simp only [Fields.InRange, Ctl.fields]; omega, by show 2 < 4; omega, ?_⟩
  have e1 : (rm.code) % 4 = rm.code := by omega
  rw [ofFields_45 _ rfl]
  simp [of45, Ctl.fields, e1]

theorem darithDfma (c : Ctl) (rm : RM) (d : VReg) (a : VReg) (b : VReg) (x : VC) : Statement (.darithDfma c rm d a b x) := by
  rintro f ⟨⟩ hw
  have b0 := c.g.isLt
  have b1 := c.fe.isLt
  have b2 := c.h.isLt
  have b3 := d.isLt
  have b4 := a.isLt
  have b5 := b.isLt
  have b6 := rm.code_lt
  have b7 := x.code_lt
  refine ⟨by simp only [Fields.InRange, Ctl.fields]; omega, by show 3 < 4; omega, ?_⟩
  have e1 : (rm.code) % 4 = rm.code := by omega
  have e2 : (x.code) % 512 = x.code := by omega
  rw [ofFields_45 _ rfl]
  simp [of45, Ctl.fields, e1, e2]

theorem harith2Hadd2 (c : Ctl) (rm : RM) (ty : HTy) (d : VReg) (a : VReg) (b : VReg) : Statement (.harith2Hadd2 c rm ty d a b) := by
  rintro f ⟨⟩ hw
  have b0 := c.g.isLt
  have b1 := c.fe.isLt
  have b2 := c.h.isLt
  have b3 := d.isLt
  have b4 := a.isLt
  have b5 := b.isLt
  have b6 := ty.code_lt
  have b7 := rm.code_lt
  refine ⟨by simp only [Fields.InRange, Ctl.fields]; omega, by show 0 < 3; omega, ?_⟩
  have e1 : (rm.code) % 4 = rm.code := by omega
  rw [ofFields_46 _ rfl]
  simp [of46, Ctl.fields, e1]

theorem harith2Hmul2 (c : Ctl) (rm : RM) (ty : HTy) (d : VReg) (a : VReg) (b : VReg) : Statement (.harith2Hmul2 c rm ty d a b) := by
  rintro f ⟨⟩ hw
  have b0 := c.g.isLt
  have b1 := c.fe.isLt
  have b2 := c.h.isLt
  have b3 := d.isLt
  have b4 := a.isLt
  have b5 := b.isLt
  have b6 := ty.code_lt
  have b7 := rm.code_lt
  refine ⟨by simp only [Fields.InRange, Ctl.fields]; omega, by show 1 < 3; omega, ?_⟩
  have e1 : (rm.code) % 4 = rm.code := by omega
  rw [ofFields_46 _ rfl]
  simp [of46, Ctl.fields, e1]

theorem harith2Hfma2 (c : Ctl) (rm : RM) (ty : HTy) (d : VReg) (a : VReg) (b : VReg) (x : VC) : Statement (.harith2Hfma2 c rm ty d a b x) := by
  rintro f ⟨⟩ hw
  have b0 := c.g.isLt
  have b1 := c.fe.isLt
  have b2 := c.h.isLt
  have b3 := d.isLt
  have b4 := a.isLt
  have b5 := b.isLt
  have b6 := ty.code_lt
  have b7 := rm.code_lt
  have b8 := x.code_lt
  refine ⟨by simp only [Fields.InRange, Ctl.fields]; omega, by show 2 < 3; omega, ?_⟩
  have e1 : (rm.code) % 4 = rm.code := by omega
  have e2 : (x.code) % 512 = x.code := by omega
  rw [ofFields_46 _ rfl]
  simp [of46, Ctl.fields, e1, e2]

theorem cvt (c : Ctl) (dst : Fmt) (src : Fmt) (ovf : Bool) (rm : RM) (part : BitVec 2) (d : VReg) (a : VReg) : Statement (.cvt c dst src ovf rm part d a) := by
  rintro f ⟨⟩ hw
  have b0 := c.g.isLt
  have b1 := c.fe.isLt
  have b2 := c.h.isLt
  have b3 := ovf.toNat_lt
  have b4 := part.isLt
  have b5 := d.isLt
  have b6 := a.isLt
  have b7 := dst.code_lt
  have b8 := src.code_lt
  have b9 := rm.code_lt
  refine ⟨by simp only [Fields.InRange, Ctl.fields]; omega, by show dst.code < 14; omega, ?_⟩
  have e1 : (16 * src.code + 4 * ovf.toNat + rm.code) / 16 = src.code := by omega
  have e2 : (16 * src.code + 4 * ovf.toNat + rm.code) / 4 % 2 = ovf.toNat := by omega
  have e3 : (16 * src.code + 4 * ovf.toNat + rm.code) % 4 = rm.code := by omega
  rw [ofFields_47 _ rfl]
  simp [of47, Ctl.fields, e1, e2, e3]

theorem frnd (c : Ctl) (ty : FTy) (rm : RM) (d : VReg) (a : VReg) : Statement (.frnd c ty rm d a) := by
  rintro f ⟨⟩ hw
  have b0 := c.g.isLt
  have b1 := c.fe.isLt
  have b2 := c.h.isLt
  have b3 := d.isLt
  have b4 := a.isLt
  have b5 := ty.code_lt
  have b6 := rm.code_lt
  refine ⟨by simp only [Fields.InRange, Ctl.fields]; omega, by show 0 < 1; omega, ?_⟩
  have e1 : (rm.code) % 4 = rm.code := by omega
  rw [ofFields_4B _ rfl]
  simp [of4B, Ctl.fields, e1]

theorem fkey (c : Ctl) (ty : KTy) (d : VReg) (a : VReg) : Statement (.fkey c ty d a) := by
  rintro f ⟨⟩ hw
  have b0 := c.g.isLt
  have b1 := c.fe.isLt
  have b2 := c.h.isLt
  have b3 := d.isLt
  have b4 := a.isLt
  have b5 := ty.code_lt
  refine ⟨by simp only [Fields.InRange, Ctl.fields]; omega, by show 0 < 2; omega, ?_⟩
  rw [ofFields_48 _ rfl]
  simp [of48, Ctl.fields]

theorem fkeyInv (c : Ctl) (ty : KTy) (d : VReg) (a : VReg) : Statement (.fkeyInv c ty d a) := by
  rintro f ⟨⟩ hw
  have b0 := c.g.isLt
  have b1 := c.fe.isLt
  have b2 := c.h.isLt
  have b3 := d.isLt
  have b4 := a.isLt
  have b5 := ty.code_lt
  refine ⟨by simp only [Fields.InRange, Ctl.fields]; omega, by show 1 < 2; omega, ?_⟩
  rw [ofFields_48 _ rfl]
  simp [of48, Ctl.fields]

theorem dotDot4i8 (c : Ctl) (d : VReg) (a : VReg) (b : VReg) (x : VC) : Statement (.dotDot4i8 c d a b x) := by
  rintro f ⟨⟩ hw
  have b0 := c.g.isLt
  have b1 := c.fe.isLt
  have b2 := c.h.isLt
  have b3 := d.isLt
  have b4 := a.isLt
  have b5 := b.isLt
  have b6 := x.code_lt
  refine ⟨by simp only [Fields.InRange, Ctl.fields]; omega, by show 0 < 3; omega, ?_⟩
  have e1 : (x.code) % 512 = x.code := by omega
  rw [ofFields_49 _ rfl]
  simp [of49, Ctl.fields, e1]

theorem dotDot4e4m3 (c : Ctl) (rm : RM) (d : VReg) (a : VReg) (b : VReg) (x : VC) : Statement (.dotDot4e4m3 c rm d a b x) := by
  rintro f ⟨⟩ hw
  have b0 := c.g.isLt
  have b1 := c.fe.isLt
  have b2 := c.h.isLt
  have b3 := d.isLt
  have b4 := a.isLt
  have b5 := b.isLt
  have b6 := rm.code_lt
  have b7 := x.code_lt
  refine ⟨by simp only [Fields.InRange, Ctl.fields]; omega, by show 1 < 3; omega, ?_⟩
  have e1 : (rm.code) % 4 = rm.code := by omega
  have e2 : (x.code) % 512 = x.code := by omega
  rw [ofFields_49 _ rfl]
  simp [of49, Ctl.fields, e1, e2]

theorem dotDot8i4 (c : Ctl) (d : VReg) (a : VReg) (b : VReg) (x : VC) : Statement (.dotDot8i4 c d a b x) := by
  rintro f ⟨⟩ hw
  have b0 := c.g.isLt
  have b1 := c.fe.isLt
  have b2 := c.h.isLt
  have b3 := d.isLt
  have b4 := a.isLt
  have b5 := b.isLt
  have b6 := x.code_lt
  refine ⟨by simp only [Fields.InRange, Ctl.fields]; omega, by show 2 < 3; omega, ?_⟩
  have e1 : (x.code) % 512 = x.code := by omega
  rw [ofFields_49 _ rfl]
  simp [of49, Ctl.fields, e1]

theorem sfuExp2 (c : Ctl) (d : VReg) (a : VReg) : Statement (.sfuExp2 c d a) := by
  rintro f ⟨⟩ hw
  have b0 := c.g.isLt
  have b1 := c.fe.isLt
  have b2 := c.h.isLt
  have b3 := d.isLt
  have b4 := a.isLt
  refine ⟨by simp only [Fields.InRange, Ctl.fields]; omega, by show 0 < 8; omega, ?_⟩
  rw [ofFields_4A _ rfl]
  simp [of4A, Ctl.fields]

theorem sfuLog2 (c : Ctl) (d : VReg) (a : VReg) : Statement (.sfuLog2 c d a) := by
  rintro f ⟨⟩ hw
  have b0 := c.g.isLt
  have b1 := c.fe.isLt
  have b2 := c.h.isLt
  have b3 := d.isLt
  have b4 := a.isLt
  refine ⟨by simp only [Fields.InRange, Ctl.fields]; omega, by show 1 < 8; omega, ?_⟩
  rw [ofFields_4A _ rfl]
  simp [of4A, Ctl.fields]

theorem sfuRcp (c : Ctl) (d : VReg) (a : VReg) : Statement (.sfuRcp c d a) := by
  rintro f ⟨⟩ hw
  have b0 := c.g.isLt
  have b1 := c.fe.isLt
  have b2 := c.h.isLt
  have b3 := d.isLt
  have b4 := a.isLt
  refine ⟨by simp only [Fields.InRange, Ctl.fields]; omega, by show 2 < 8; omega, ?_⟩
  rw [ofFields_4A _ rfl]
  simp [of4A, Ctl.fields]

theorem sfuRsq (c : Ctl) (d : VReg) (a : VReg) : Statement (.sfuRsq c d a) := by
  rintro f ⟨⟩ hw
  have b0 := c.g.isLt
  have b1 := c.fe.isLt
  have b2 := c.h.isLt
  have b3 := d.isLt
  have b4 := a.isLt
  refine ⟨by simp only [Fields.InRange, Ctl.fields]; omega, by show 3 < 8; omega, ?_⟩
  rw [ofFields_4A _ rfl]
  simp [of4A, Ctl.fields]

theorem sfuSqrt (c : Ctl) (d : VReg) (a : VReg) : Statement (.sfuSqrt c d a) := by
  rintro f ⟨⟩ hw
  have b0 := c.g.isLt
  have b1 := c.fe.isLt
  have b2 := c.h.isLt
  have b3 := d.isLt
  have b4 := a.isLt
  refine ⟨by simp only [Fields.InRange, Ctl.fields]; omega, by show 4 < 8; omega, ?_⟩
  rw [ofFields_4A _ rfl]
  simp [of4A, Ctl.fields]

theorem sfuSin (c : Ctl) (d : VReg) (a : VReg) : Statement (.sfuSin c d a) := by
  rintro f ⟨⟩ hw
  have b0 := c.g.isLt
  have b1 := c.fe.isLt
  have b2 := c.h.isLt
  have b3 := d.isLt
  have b4 := a.isLt
  refine ⟨by simp only [Fields.InRange, Ctl.fields]; omega, by show 5 < 8; omega, ?_⟩
  rw [ofFields_4A _ rfl]
  simp [of4A, Ctl.fields]

theorem sfuCos (c : Ctl) (d : VReg) (a : VReg) : Statement (.sfuCos c d a) := by
  rintro f ⟨⟩ hw
  have b0 := c.g.isLt
  have b1 := c.fe.isLt
  have b2 := c.h.isLt
  have b3 := d.isLt
  have b4 := a.isLt
  refine ⟨by simp only [Fields.InRange, Ctl.fields]; omega, by show 6 < 8; omega, ?_⟩
  rw [ofFields_4A _ rfl]
  simp [of4A, Ctl.fields]

theorem sfuTanh (c : Ctl) (d : VReg) (a : VReg) : Statement (.sfuTanh c d a) := by
  rintro f ⟨⟩ hw
  have b0 := c.g.isLt
  have b1 := c.fe.isLt
  have b2 := c.h.isLt
  have b3 := d.isLt
  have b4 := a.isLt
  refine ⟨by simp only [Fields.InRange, Ctl.fields]; omega, by show 7 < 8; omega, ?_⟩
  rw [ofFields_4A _ rfl]
  simp [of4A, Ctl.fields]

theorem shflIdx (c : Ctl) (d : VReg) (a : VReg) (b : LB) (lx : LX) : Statement (.shflIdx c d a b lx) := by
  rintro f ⟨⟩ hw
  have b0 := c.g.isLt
  have b1 := c.fe.isLt
  have b2 := c.h.isLt
  have b3 := d.isLt
  have b4 := a.isLt
  have b5 := b.num_lt
  have b6 := b.flag_lt
  have b7 := b.val_lt
  have b8 := lx.code_lt
  have b9 := lx.code_mid
  refine ⟨by simp only [Fields.InRange, Ctl.fields]; omega, by show 0 < 4; omega, ?_⟩
  have e1 : (128 * b.flag) / 128 = b.flag := by omega
  have e2 : (65536 * b.val + lx.code) / 65536 % 32 = b.val := by omega
  rw [ofFields_50 _ rfl]
  simp [of50, Ctl.fields, e1, e2]

theorem shflUp (c : Ctl) (d : VReg) (a : VReg) (b : LB) (lx : LX) : Statement (.shflUp c d a b lx) := by
  rintro f ⟨⟩ hw
  have b0 := c.g.isLt
  have b1 := c.fe.isLt
  have b2 := c.h.isLt
  have b3 := d.isLt
  have b4 := a.isLt
  have b5 := b.num_lt
  have b6 := b.flag_lt
  have b7 := b.val_lt
  have b8 := lx.code_lt
  have b9 := lx.code_mid
  refine ⟨by simp only [Fields.InRange, Ctl.fields]; omega, by show 1 < 4; omega, ?_⟩
  have e1 : (128 * b.flag) / 128 = b.flag := by omega
  have e2 : (65536 * b.val + lx.code) / 65536 % 32 = b.val := by omega
  rw [ofFields_50 _ rfl]
  simp [of50, Ctl.fields, e1, e2]

theorem shflDown (c : Ctl) (d : VReg) (a : VReg) (b : LB) (lx : LX) : Statement (.shflDown c d a b lx) := by
  rintro f ⟨⟩ hw
  have b0 := c.g.isLt
  have b1 := c.fe.isLt
  have b2 := c.h.isLt
  have b3 := d.isLt
  have b4 := a.isLt
  have b5 := b.num_lt
  have b6 := b.flag_lt
  have b7 := b.val_lt
  have b8 := lx.code_lt
  have b9 := lx.code_mid
  refine ⟨by simp only [Fields.InRange, Ctl.fields]; omega, by show 2 < 4; omega, ?_⟩
  have e1 : (128 * b.flag) / 128 = b.flag := by omega
  have e2 : (65536 * b.val + lx.code) / 65536 % 32 = b.val := by omega
  rw [ofFields_50 _ rfl]
  simp [of50, Ctl.fields, e1, e2]

theorem shflXor (c : Ctl) (d : VReg) (a : VReg) (b : LB) (lx : LX) : Statement (.shflXor c d a b lx) := by
  rintro f ⟨⟩ hw
  have b0 := c.g.isLt
  have b1 := c.fe.isLt
  have b2 := c.h.isLt
  have b3 := d.isLt
  have b4 := a.isLt
  have b5 := b.num_lt
  have b6 := b.flag_lt
  have b7 := b.val_lt
  have b8 := lx.code_lt
  have b9 := lx.code_mid
  refine ⟨by simp only [Fields.InRange, Ctl.fields]; omega, by show 3 < 4; omega, ?_⟩
  have e1 : (128 * b.flag) / 128 = b.flag := by omega
  have e2 : (65536 * b.val + lx.code) / 65536 % 32 = b.val := by omega
  rw [ofFields_50 _ rfl]
  simp [of50, Ctl.fields, e1, e2]

theorem voteAny (c : Ctl) (d : PReg) (a : PReg) (lx : LX) : Statement (.voteAny c d a lx) := by
  rintro f ⟨⟩ hw
  have b0 := c.g.isLt
  have b1 := c.fe.isLt
  have b2 := c.h.isLt
  have b3 := d.isLt
  have b4 := a.isLt
  have b5 := lx.code_lt
  refine ⟨by simp only [Fields.InRange, Ctl.fields]; omega, by show 0 < 4; omega, ?_⟩
  rw [ofFields_51 _ rfl]
  simp [of51, Ctl.fields]

theorem voteAll (c : Ctl) (d : PReg) (a : PReg) (lx : LX) : Statement (.voteAll c d a lx) := by
  rintro f ⟨⟩ hw
  have b0 := c.g.isLt
  have b1 := c.fe.isLt
  have b2 := c.h.isLt
  have b3 := d.isLt
  have b4 := a.isLt
  have b5 := lx.code_lt
  refine ⟨by simp only [Fields.InRange, Ctl.fields]; omega, by show 1 < 4; omega, ?_⟩
  rw [ofFields_51 _ rfl]
  simp [of51, Ctl.fields]

theorem voteBallot (c : Ctl) (d : VReg) (a : PReg) (lx : LX) : Statement (.voteBallot c d a lx) := by
  rintro f ⟨⟩ hw
  have b0 := c.g.isLt
  have b1 := c.fe.isLt
  have b2 := c.h.isLt
  have b3 := d.isLt
  have b4 := a.isLt
  have b5 := lx.code_lt
  refine ⟨by simp only [Fields.InRange, Ctl.fields]; omega, by show 2 < 4; omega, ?_⟩
  rw [ofFields_51 _ rfl]
  simp [of51, Ctl.fields]

theorem voteUni (c : Ctl) (d : PReg) (a : VReg) (lx : LX) : Statement (.voteUni c d a lx) := by
  rintro f ⟨⟩ hw
  have b0 := c.g.isLt
  have b1 := c.fe.isLt
  have b2 := c.h.isLt
  have b3 := d.isLt
  have b4 := a.isLt
  have b5 := lx.code_lt
  refine ⟨by simp only [Fields.InRange, Ctl.fields]; omega, by show 3 < 4; omega, ?_⟩
  rw [ofFields_51 _ rfl]
  simp [of51, Ctl.fields]

theorem zipZip2 (c : Ctl) (d : VReg) (a : VReg) : Statement (.zipZip2 c d a) := by
  rintro f ⟨⟩ hw
  have b0 := c.g.isLt
  have b1 := c.fe.isLt
  have b2 := c.h.isLt
  have b3 := d.isLt
  have b4 := a.isLt
  refine ⟨by simp only [Fields.InRange, Ctl.fields]; omega, by show 0 < 6; omega, ?_⟩
  rw [ofFields_52 _ rfl]
  simp [of52, Ctl.fields]

theorem zipZip3 (c : Ctl) (d : VReg) (a : VReg) : Statement (.zipZip3 c d a) := by
  rintro f ⟨⟩ hw
  have b0 := c.g.isLt
  have b1 := c.fe.isLt
  have b2 := c.h.isLt
  have b3 := d.isLt
  have b4 := a.isLt
  refine ⟨by simp only [Fields.InRange, Ctl.fields]; omega, by show 1 < 6; omega, ?_⟩
  rw [ofFields_52 _ rfl]
  simp [of52, Ctl.fields]

theorem zipZip4 (c : Ctl) (d : VReg) (a : VReg) : Statement (.zipZip4 c d a) := by
  rintro f ⟨⟩ hw
  have b0 := c.g.isLt
  have b1 := c.fe.isLt
  have b2 := c.h.isLt
  have b3 := d.isLt
  have b4 := a.isLt
  refine ⟨by simp only [Fields.InRange, Ctl.fields]; omega, by show 2 < 6; omega, ?_⟩
  rw [ofFields_52 _ rfl]
  simp [of52, Ctl.fields]

theorem zipUnzip2 (c : Ctl) (d : VReg) (a : VReg) : Statement (.zipUnzip2 c d a) := by
  rintro f ⟨⟩ hw
  have b0 := c.g.isLt
  have b1 := c.fe.isLt
  have b2 := c.h.isLt
  have b3 := d.isLt
  have b4 := a.isLt
  refine ⟨by simp only [Fields.InRange, Ctl.fields]; omega, by show 3 < 6; omega, ?_⟩
  rw [ofFields_52 _ rfl]
  simp [of52, Ctl.fields]

theorem zipUnzip3 (c : Ctl) (d : VReg) (a : VReg) : Statement (.zipUnzip3 c d a) := by
  rintro f ⟨⟩ hw
  have b0 := c.g.isLt
  have b1 := c.fe.isLt
  have b2 := c.h.isLt
  have b3 := d.isLt
  have b4 := a.isLt
  refine ⟨by simp only [Fields.InRange, Ctl.fields]; omega, by show 4 < 6; omega, ?_⟩
  rw [ofFields_52 _ rfl]
  simp [of52, Ctl.fields]

theorem zipUnzip4 (c : Ctl) (d : VReg) (a : VReg) : Statement (.zipUnzip4 c d a) := by
  rintro f ⟨⟩ hw
  have b0 := c.g.isLt
  have b1 := c.fe.isLt
  have b2 := c.h.isLt
  have b3 := d.isLt
  have b4 := a.isLt
  refine ⟨by simp only [Fields.InRange, Ctl.fields]; omega, by show 5 < 6; omega, ?_⟩
  rw [ofFields_52 _ rfl]
  simp [of52, Ctl.fields]

theorem sample (c : Ctl) (d : VReg) (a : VReg) (u : SReg) (lx : LX) : Statement (.sample c d a u lx) := by
  rintro f ⟨⟩ hw
  have b0 := c.g.isLt
  have b1 := c.fe.isLt
  have b2 := c.h.isLt
  have b3 := d.isLt
  have b4 := a.isLt
  have b5 := u.isLt
  have b6 := lx.code_lt
  refine ⟨by simp only [Fields.InRange, Ctl.fields]; omega, by show 0 < 1; omega, ?_⟩
  rw [ofFields_53 _ rfl]
  simp [of53, Ctl.fields]

theorem rngU32 (c : Ctl) (d : VReg) : Statement (.rngU32 c d) := by
  rintro f ⟨⟩ hw
  have b0 := c.g.isLt
  have b1 := c.fe.isLt
  have b2 := c.h.isLt
  have b3 := d.isLt
  refine ⟨by simp only [Fields.InRange, Ctl.fields]; omega, by show 0 < 2; omega, ?_⟩
  rw [ofFields_54 _ rfl]
  simp [of54, Ctl.fields]

theorem rngUnif (c : Ctl) (d : VReg) : Statement (.rngUnif c d) := by
  rintro f ⟨⟩ hw
  have b0 := c.g.isLt
  have b1 := c.fe.isLt
  have b2 := c.h.isLt
  have b3 := d.isLt
  refine ⟨by simp only [Fields.InRange, Ctl.fields]; omega, by show 1 < 2; omega, ?_⟩
  rw [ofFields_54 _ rfl]
  simp [of54, Ctl.fields]

theorem bandredIadd (c : Ctl) (d : VReg) (a : VReg) (lx : LX) : Statement (.bandredIadd c d a lx) := by
  rintro f ⟨⟩ hw
  have b0 := c.g.isLt
  have b1 := c.fe.isLt
  have b2 := c.h.isLt
  have b3 := d.isLt
  have b4 := a.isLt
  have b5 := lx.code_lt
  refine ⟨by simp only [Fields.InRange, Ctl.fields]; omega, by show 0 < 4; omega, ?_⟩
  rw [ofFields_55 _ rfl]
  simp [of55, Ctl.fields]

theorem bandredFadd (c : Ctl) (d : VReg) (a : VReg) (lx : LX) : Statement (.bandredFadd c d a lx) := by
  rintro f ⟨⟩ hw
  have b0 := c.g.isLt
  have b1 := c.fe.isLt
  have b2 := c.h.isLt
  have b3 := d.isLt
  have b4 := a.isLt
  have b5 := lx.code_lt
  refine ⟨by simp only [Fields.InRange, Ctl.fields]; omega, by show 1 < 4; omega, ?_⟩
  rw [ofFields_55 _ rfl]
  simp [of55, Ctl.fields]

theorem bandredMin (c : Ctl) (ty : BTy) (d : VReg) (a : VReg) (lx : LX) : Statement (.bandredMin c ty d a lx) := by
  rintro f ⟨⟩ hw
  have b0 := c.g.isLt
  have b1 := c.fe.isLt
  have b2 := c.h.isLt
  have b3 := d.isLt
  have b4 := a.isLt
  have b5 := ty.code_lt
  have b6 := lx.code_lt
  refine ⟨by simp only [Fields.InRange, Ctl.fields]; omega, by show 2 < 4; omega, ?_⟩
  rw [ofFields_55 _ rfl]
  simp [of55, Ctl.fields]

theorem bandredMax (c : Ctl) (ty : BTy) (d : VReg) (a : VReg) (lx : LX) : Statement (.bandredMax c ty d a lx) := by
  rintro f ⟨⟩ hw
  have b0 := c.g.isLt
  have b1 := c.fe.isLt
  have b2 := c.h.isLt
  have b3 := d.isLt
  have b4 := a.isLt
  have b5 := ty.code_lt
  have b6 := lx.code_lt
  refine ⟨by simp only [Fields.InRange, Ctl.fields]; omega, by show 3 < 4; omega, ?_⟩
  rw [ofFields_55 _ rfl]
  simp [of55, Ctl.fields]

theorem laneExchangeRelease (tid : Nat) (pc : PC) : Statement (.laneExchangeRelease tid pc) := by
  rintro f ⟨⟩

theorem ld (c : Ctl) (w : Width) (d : VReg) (m : MemOp) : Statement (.ld c w d m) := by
  rintro f ⟨⟩ hw
  have b0 := c.g.isLt
  have b1 := c.fe.isLt
  have b2 := c.h.isLt
  have b3 := d.isLt
  have b4 := m.base.isLt
  have b5 := m.off.isLt
  have b6 := m.code_lt
  have b7 := w.code_lt
  refine ⟨by simp only [Fields.InRange, Ctl.fields]; omega, by show 0 < 1; omega, ?_⟩
  rw [ofFields_80 _ rfl]
  simp [of80, Ctl.fields]

theorem st (c : Ctl) (w : Width) (d : VReg) (m : MemOp) : Statement (.st c w d m) := by
  rintro f ⟨⟩ hw
  have b0 := c.g.isLt
  have b1 := c.fe.isLt
  have b2 := c.h.isLt
  have b3 := d.isLt
  have b4 := m.base.isLt
  have b5 := m.off.isLt
  have b6 := m.code_lt
  have b7 := w.code_lt
  refine ⟨by simp only [Fields.InRange, Ctl.fields]; omega, by show 0 < 1; omega, ?_⟩
  rw [ofFields_81 _ rfl]
  simp [of81, Ctl.fields]

theorem lds (c : Ctl) (w : Width) (d : SReg) (space : Space) (order : Order) (scope : Scope) (base : SReg) : Statement (.lds c w d space order scope base) := by
  rintro f ⟨⟩ hw
  have b0 := c.g.isLt
  have b1 := c.fe.isLt
  have b2 := c.h.isLt
  have b3 := d.isLt
  have b4 := base.isLt
  have b5 := space.code_lt
  have b6 := order.code_lt
  have b7 := scope.code_lt
  have b8 := w.code_lt
  refine ⟨by simp only [Fields.InRange, Ctl.fields]; omega, by show 0 < 1; omega, ?_⟩
  have e2 : (space.code + 4 * order.code + 16 * scope.code) % 4 = space.code := by omega
  have e3 : (space.code + 4 * order.code + 16 * scope.code) / 4 % 4 = order.code := by omega
  have e4 : (space.code + 4 * order.code + 16 * scope.code) / 16 % 8 = scope.code := by omega
  rw [ofFields_82 _ rfl]
  simp [of82, Ctl.fields, e2, e3, e4]

theorem atomAdd (c : Ctl) (wide : Bool) (uns : Bool) (d : VReg) (m : MemOp) (x : VC) : Statement (.atomAdd c wide uns d m x) := by
  rintro f ⟨⟩ hw
  have b0 := c.g.isLt
  have b1 := c.fe.isLt
  have b2 := c.h.isLt
  have b3 := wide.toNat_lt
  have b4 := uns.toNat_lt
  have b5 := d.isLt
  have b6 := m.base.isLt
  have b7 := m.off.isLt
  have b8 := m.code_lt
  have b9 := x.code_lt
  have b10 := wideCode_lt wide
  refine ⟨by simp only [Fields.InRange, Ctl.fields]; omega, by show 0 < 9; omega, ?_⟩
  have e1 : (512 * (wideCode wide) + x.code) / 512 % 8 = (wideCode wide) := by omega
  have e2 : (512 * (wideCode wide) + x.code) % 512 = x.code := by omega
  rw [ofFields_84 _ rfl]
  simp [of84, Ctl.fields, e1, e2]

theorem atomMin (c : Ctl) (wide : Bool) (uns : Bool) (d : VReg) (m : MemOp) (x : VC) : Statement (.atomMin c wide uns d m x) := by
  rintro f ⟨⟩ hw
  have b0 := c.g.isLt
  have b1 := c.fe.isLt
  have b2 := c.h.isLt
  have b3 := wide.toNat_lt
  have b4 := uns.toNat_lt
  have b5 := d.isLt
  have b6 := m.base.isLt
  have b7 := m.off.isLt
  have b8 := m.code_lt
  have b9 := x.code_lt
  have b10 := wideCode_lt wide
  refine ⟨by simp only [Fields.InRange, Ctl.fields]; omega, by show 1 < 9; omega, ?_⟩
  have e1 : (512 * (wideCode wide) + x.code) / 512 % 8 = (wideCode wide) := by omega
  have e2 : (512 * (wideCode wide) + x.code) % 512 = x.code := by omega
  rw [ofFields_84 _ rfl]
  simp [of84, Ctl.fields, e1, e2]

theorem atomMax (c : Ctl) (wide : Bool) (uns : Bool) (d : VReg) (m : MemOp) (x : VC) : Statement (.atomMax c wide uns d m x) := by
  rintro f ⟨⟩ hw
  have b0 := c.g.isLt
  have b1 := c.fe.isLt
  have b2 := c.h.isLt
  have b3 := wide.toNat_lt
  have b4 := uns.toNat_lt
  have b5 := d.isLt
  have b6 := m.base.isLt
  have b7 := m.off.isLt
  have b8 := m.code_lt
  have b9 := x.code_lt
  have b10 := wideCode_lt wide
  refine ⟨by simp only [Fields.InRange, Ctl.fields]; omega, by show 2 < 9; omega, ?_⟩
  have e1 : (512 * (wideCode wide) + x.code) / 512 % 8 = (wideCode wide) := by omega
  have e2 : (512 * (wideCode wide) + x.code) % 512 = x.code := by omega
  rw [ofFields_84 _ rfl]
  simp [of84, Ctl.fields, e1, e2]

theorem atomAnd (c : Ctl) (wide : Bool) (uns : Bool) (d : VReg) (m : MemOp) (x : VC) : Statement (.atomAnd c wide uns d m x) := by
  rintro f ⟨⟩ hw
  have b0 := c.g.isLt
  have b1 := c.fe.isLt
  have b2 := c.h.isLt
  have b3 := wide.toNat_lt
  have b4 := uns.toNat_lt
  have b5 := d.isLt
  have b6 := m.base.isLt
  have b7 := m.off.isLt
  have b8 := m.code_lt
  have b9 := x.code_lt
  have b10 := wideCode_lt wide
  refine ⟨by simp only [Fields.InRange, Ctl.fields]; omega, by show 3 < 9; omega, ?_⟩
  have e1 : (512 * (wideCode wide) + x.code) / 512 % 8 = (wideCode wide) := by omega
  have e2 : (512 * (wideCode wide) + x.code) % 512 = x.code := by omega
  rw [ofFields_84 _ rfl]
  simp [of84, Ctl.fields, e1, e2]

theorem atomOr (c : Ctl) (wide : Bool) (uns : Bool) (d : VReg) (m : MemOp) (x : VC) : Statement (.atomOr c wide uns d m x) := by
  rintro f ⟨⟩ hw
  have b0 := c.g.isLt
  have b1 := c.fe.isLt
  have b2 := c.h.isLt
  have b3 := wide.toNat_lt
  have b4 := uns.toNat_lt
  have b5 := d.isLt
  have b6 := m.base.isLt
  have b7 := m.off.isLt
  have b8 := m.code_lt
  have b9 := x.code_lt
  have b10 := wideCode_lt wide
  refine ⟨by simp only [Fields.InRange, Ctl.fields]; omega, by show 4 < 9; omega, ?_⟩
  have e1 : (512 * (wideCode wide) + x.code) / 512 % 8 = (wideCode wide) := by omega
  have e2 : (512 * (wideCode wide) + x.code) % 512 = x.code := by omega
  rw [ofFields_84 _ rfl]
  simp [of84, Ctl.fields, e1, e2]

theorem atomXor (c : Ctl) (wide : Bool) (uns : Bool) (d : VReg) (m : MemOp) (x : VC) : Statement (.atomXor c wide uns d m x) := by
  rintro f ⟨⟩ hw
  have b0 := c.g.isLt
  have b1 := c.fe.isLt
  have b2 := c.h.isLt
  have b3 := wide.toNat_lt
  have b4 := uns.toNat_lt
  have b5 := d.isLt
  have b6 := m.base.isLt
  have b7 := m.off.isLt
  have b8 := m.code_lt
  have b9 := x.code_lt
  have b10 := wideCode_lt wide
  refine ⟨by simp only [Fields.InRange, Ctl.fields]; omega, by show 5 < 9; omega, ?_⟩
  have e1 : (512 * (wideCode wide) + x.code) / 512 % 8 = (wideCode wide) := by omega
  have e2 : (512 * (wideCode wide) + x.code) % 512 = x.code := by omega
  rw [ofFields_84 _ rfl]
  simp [of84, Ctl.fields, e1, e2]

theorem atomSwap (c : Ctl) (wide : Bool) (uns : Bool) (d : VReg) (m : MemOp) (x : VC) : Statement (.atomSwap c wide uns d m x) := by
  rintro f ⟨⟩ hw
  have b0 := c.g.isLt
  have b1 := c.fe.isLt
  have b2 := c.h.isLt
  have b3 := wide.toNat_lt
  have b4 := uns.toNat_lt
  have b5 := d.isLt
  have b6 := m.base.isLt
  have b7 := m.off.isLt
  have b8 := m.code_lt
  have b9 := x.code_lt
  have b10 := wideCode_lt wide
  refine ⟨by simp only [Fields.InRange, Ctl.fields]; omega, by show 6 < 9; omega, ?_⟩
  have e1 : (512 * (wideCode wide) + x.code) / 512 % 8 = (wideCode wide) := by omega
  have e2 : (512 * (wideCode wide) + x.code) % 512 = x.code := by omega
  rw [ofFields_84 _ rfl]
  simp [of84, Ctl.fields, e1, e2]

theorem atomCas (c : Ctl) (wide : Bool) (uns : Bool) (d : VReg) (m : MemOp) (x : VC) : Statement (.atomCas c wide uns d m x) := by
  rintro f ⟨⟩ hw
  have b0 := c.g.isLt
  have b1 := c.fe.isLt
  have b2 := c.h.isLt
  have b3 := wide.toNat_lt
  have b4 := uns.toNat_lt
  have b5 := d.isLt
  have b6 := m.base.isLt
  have b7 := m.off.isLt
  have b8 := m.code_lt
  have b9 := x.code_lt
  have b10 := wideCode_lt wide
  refine ⟨by simp only [Fields.InRange, Ctl.fields]; omega, by show 7 < 9; omega, ?_⟩
  have e1 : (512 * (wideCode wide) + x.code) / 512 % 8 = (wideCode wide) := by omega
  have e2 : (512 * (wideCode wide) + x.code) % 512 = x.code := by omega
  rw [ofFields_84 _ rfl]
  simp [of84, Ctl.fields, e1, e2]

theorem atomFadd (c : Ctl) (wide : Bool) (d : VReg) (m : MemOp) (x : VC) : Statement (.atomFadd c wide d m x) := by
  rintro f ⟨⟩ hw
  have b0 := c.g.isLt
  have b1 := c.fe.isLt
  have b2 := c.h.isLt
  have b3 := wide.toNat_lt
  have b4 := d.isLt
  have b5 := m.base.isLt
  have b6 := m.off.isLt
  have b7 := m.code_lt
  have b8 := x.code_lt
  have b9 := wideCode_lt wide
  refine ⟨by simp only [Fields.InRange, Ctl.fields]; omega, by show 8 < 9; omega, ?_⟩
  have e1 : (512 * (wideCode wide) + x.code) / 512 % 8 = (wideCode wide) := by omega
  have e2 : (512 * (wideCode wide) + x.code) % 512 = x.code := by omega
  rw [ofFields_84 _ rfl]
  simp [of84, Ctl.fields, e1, e2]

theorem red (c : Ctl) (op : RedOp) (wide : Bool) (uns : Bool) (m : MemOp) (x : VC) : Statement (.red c op wide uns m x) := by
  rintro f ⟨⟩ hw
  have b0 := c.g.isLt
  have b1 := c.fe.isLt
  have b2 := c.h.isLt
  have b3 := wide.toNat_lt
  have b4 := uns.toNat_lt
  have b5 := m.base.isLt
  have b6 := m.off.isLt
  have b7 := m.code_lt
  have b8 := op.code_lt
  have b9 := x.code_lt
  have b10 := wideCode_lt wide
  have b11 := redTy_lt op uns
  refine ⟨by simp only [Fields.InRange, Ctl.fields]; omega, by show 0 < 1; omega, ?_⟩
  have e1 : (4096 * op.code + 512 * (wideCode wide) + x.code) / 4096 % 16 = op.code := by omega
  have e2 : (4096 * op.code + 512 * (wideCode wide) + x.code) / 512 % 8 = (wideCode wide) := by omega
  have e3 : (4096 * op.code + 512 * (wideCode wide) + x.code) % 512 = x.code := by omega
  have hr : op = .fadd → uns = false := by
    rintro rfl
    simp only [Instr.wellFormed, Instr.operandsOk, Bool.and_eq_true] at hw
    simpa using hw.1.2
  rw [ofFields_85 _ rfl]
  simp [of85, Ctl.fields, e1, e2, e3, redUns?_code op uns hr]

theorem fence (c : Ctl) (mode : FenceMode) (scope : Scope) : Statement (.fence c mode scope) := by
  rintro f ⟨⟩ hw
  have b0 := c.g.isLt
  have b1 := c.fe.isLt
  have b2 := c.h.isLt
  have b3 := mode.code_lt
  have b4 := scope.code_lt
  refine ⟨by simp only [Fields.InRange, Ctl.fields]; omega, by show 0 < 1; omega, ?_⟩
  have e1 : (4 * mode.code + 16 * scope.code) / 4 % 4 = mode.code := by omega
  have e2 : (4 * mode.code + 16 * scope.code) / 16 % 8 = scope.code := by omega
  rw [ofFields_86 _ rfl]
  simp [of86, Ctl.fields, e1, e2]

theorem tagTagq (c : Ctl) (d : VReg) (a : VReg) : Statement (.tagTagq c d a) := by
  rintro f ⟨⟩ hw
  have b0 := c.g.isLt
  have b1 := c.fe.isLt
  have b2 := c.h.isLt
  have b3 := d.isLt
  have b4 := a.isLt
  refine ⟨by simp only [Fields.InRange, Ctl.fields]; omega, by show 0 < 3; omega, ?_⟩
  rw [ofFields_88 _ rfl]
  simp [of88, Ctl.fields]

theorem tagTagset (c : Ctl) (d : VReg) (a : VReg) (b : VReg) : Statement (.tagTagset c d a b) := by
  rintro f ⟨⟩ hw
  have b0 := c.g.isLt
  have b1 := c.fe.isLt
  have b2 := c.h.isLt
  have b3 := d.isLt
  have b4 := a.isLt
  have b5 := b.isLt
  refine ⟨by simp only [Fields.InRange, Ctl.fields]; omega, by show 1 < 3; omega, ?_⟩
  rw [ofFields_88 _ rfl]
  simp [of88, Ctl.fields]

theorem tagTagclr (c : Ctl) (d : VReg) (a : VReg) : Statement (.tagTagclr c d a) := by
  rintro f ⟨⟩ hw
  have b0 := c.g.isLt
  have b1 := c.fe.isLt
  have b2 := c.h.isLt
  have b3 := d.isLt
  have b4 := a.isLt
  refine ⟨by simp only [Fields.InRange, Ctl.fields]; omega, by show 2 < 3; omega, ?_⟩
  rw [ofFields_88 _ rfl]
  simp [of88, Ctl.fields]

theorem hcopyCopy (c : Ctl) (ds : Space) (ss : Space) (dst : SReg) (src : SReg) (cnt : SReg) (bar : Option BarRef) : Statement (.hcopyCopy c ds ss dst src cnt bar) := by
  rintro f ⟨⟩ hw
  have b0 := c.g.isLt
  have b1 := c.fe.isLt
  have b2 := c.h.isLt
  have b3 := dst.isLt
  have b4 := src.isLt
  have b5 := cnt.isLt
  have b6 := ds.code_lt
  have b7 := ss.code_lt
  have b8 := bar.isSome.toNat_lt
  have b9 := barCode_lt bar
  refine ⟨by simp only [Fields.InRange, Ctl.fields]; omega, by show 0 < 5; omega, ?_⟩
  have e1 : (ds.code + 4 * ss.code + 16 * bar.isSome.toNat) % 4 = ds.code := by omega
  have e2 : (ds.code + 4 * ss.code + 16 * bar.isSome.toNat) / 4 % 4 = ss.code := by omega
  have e3 : (ds.code + 4 * ss.code + 16 * bar.isSome.toNat) / 16 % 2 = bar.isSome.toNat := by omega
  have e4 : ((barCode bar)) % 2048 = (barCode bar) := by omega
  have hb : barOk bar = true := by
    simp only [Instr.wellFormed, Instr.operandsOk, Bool.and_eq_true] at hw
    exact hw.1.2
  rw [ofFields_89 _ rfl]
  simp [of89, Ctl.fields, e1, e2, e3, e4, hb]

theorem hcopyPlane (c : Ctl) (ds : Space) (ss : Space) (dst : SReg) (src : SReg) (cnt : SReg) (bar : Option BarRef) (fmt : AFmt) (stride : BitVec 18) : Statement (.hcopyPlane c ds ss dst src cnt bar fmt stride) := by
  rintro f ⟨⟩ hw
  have b0 := c.g.isLt
  have b1 := c.fe.isLt
  have b2 := c.h.isLt
  have b3 := dst.isLt
  have b4 := src.isLt
  have b5 := cnt.isLt
  have b6 := stride.isLt
  have b7 := ds.code_lt
  have b8 := ss.code_lt
  have b9 := bar.isSome.toNat_lt
  have b10 := fmt.code_lt
  have b11 := barCode_lt bar
  refine ⟨by simp only [Fields.InRange, Ctl.fields]; omega, by show 1 < 5; omega, ?_⟩
  have e1 : (ds.code + 4 * ss.code + 16 * bar.isSome.toNat) % 4 = ds.code := by omega
  have e2 : (ds.code + 4 * ss.code + 16 * bar.isSome.toNat) / 4 % 4 = ss.code := by omega
  have e3 : (ds.code + 4 * ss.code + 16 * bar.isSome.toNat) / 16 % 2 = bar.isSome.toNat := by omega
  have e4 : ((barCode bar) + 2048 * fmt.code + 16384 * stride.toNat) % 2048 = (barCode bar) := by omega
  have e5 : ((barCode bar) + 2048 * fmt.code + 16384 * stride.toNat) / 2048 % 8 = fmt.code := by omega
  have e6 : ((barCode bar) + 2048 * fmt.code + 16384 * stride.toNat) / 16384 = stride.toNat := by omega
  have hb : barOk bar = true := by
    simp only [Instr.wellFormed, Instr.operandsOk, Bool.and_eq_true] at hw
    exact hw.1.2
  rw [ofFields_89 _ rfl]
  simp [of89, Ctl.fields, e1, e2, e3, e4, e5, e6, hb]

theorem hcopySplit (c : Ctl) (ds : Space) (ss : Space) (dst : SReg) (src : SReg) (cnt : SReg) (bar : Option BarRef) (side : Bool) (slices : BitVec 4) (stride : BitVec 16) : Statement (.hcopySplit c ds ss dst src cnt bar side slices stride) := by
  rintro f ⟨⟩ hw
  have b0 := c.g.isLt
  have b1 := c.fe.isLt
  have b2 := c.h.isLt
  have b3 := dst.isLt
  have b4 := src.isLt
  have b5 := cnt.isLt
  have b6 := side.toNat_lt
  have b7 := slices.isLt
  have b8 := stride.isLt
  have b9 := ds.code_lt
  have b10 := ss.code_lt
  have b11 := bar.isSome.toNat_lt
  have b12 := barCode_lt bar
  refine ⟨by simp only [Fields.InRange, Ctl.fields]; omega, by show 2 < 5; omega, ?_⟩
  have e1 : (ds.code + 4 * ss.code + 16 * bar.isSome.toNat) % 4 = ds.code := by omega
  have e2 : (ds.code + 4 * ss.code + 16 * bar.isSome.toNat) / 4 % 4 = ss.code := by omega
  have e3 : (ds.code + 4 * ss.code + 16 * bar.isSome.toNat) / 16 % 2 = bar.isSome.toNat := by omega
  have e4 : ((barCode bar) + 2048 * side.toNat + 4096 * slices.toNat + 65536 * stride.toNat) % 2048 = (barCode bar) := by omega
  have e5 : ((barCode bar) + 2048 * side.toNat + 4096 * slices.toNat + 65536 * stride.toNat) / 2048 % 2 = side.toNat := by omega
  have e6 : ((barCode bar) + 2048 * side.toNat + 4096 * slices.toNat + 65536 * stride.toNat) / 4096 % 16 = slices.toNat := by omega
  have e7 : ((barCode bar) + 2048 * side.toNat + 4096 * slices.toNat + 65536 * stride.toNat) / 65536 = stride.toNat := by omega
  have hb : barOk bar = true := by
    simp only [Instr.wellFormed, Instr.operandsOk, Bool.and_eq_true] at hw
    exact hw.1.2
  rw [ofFields_89 _ rfl]
  simp [of89, Ctl.fields, e1, e2, e3, e4, e5, e6, e7, hb]

theorem hcopyMask (c : Ctl) (ss : Space) (q : QReg) (src : SReg) (cnt : SReg) (bar : Option BarRef) : Statement (.hcopyMask c ss q src cnt bar) := by
  rintro f ⟨⟩ hw
  have b0 := c.g.isLt
  have b1 := c.fe.isLt
  have b2 := c.h.isLt
  have b3 := q.isLt
  have b4 := src.isLt
  have b5 := cnt.isLt
  have b6 := ss.code_lt
  have b7 := bar.isSome.toNat_lt
  have b8 := barCode_lt bar
  refine ⟨by simp only [Fields.InRange, Ctl.fields]; omega, by show 3 < 5; omega, ?_⟩
  have e1 : (4 * ss.code + 16 * bar.isSome.toNat) / 4 % 4 = ss.code := by omega
  have e2 : (4 * ss.code + 16 * bar.isSome.toNat) / 16 % 2 = bar.isSome.toNat := by omega
  have e3 : ((barCode bar)) % 2048 = (barCode bar) := by omega
  have hb : barOk bar = true := by
    simp only [Instr.wellFormed, Instr.operandsOk, Bool.and_eq_true] at hw
    exact hw.1.2
  rw [ofFields_89 _ rfl]
  simp [of89, Ctl.fields, e1, e2, e3, hb]

theorem hcopyGather (c : Ctl) (ds : Space) (ss : Space) (dst : SReg) (src : SReg) (cnt : SReg) (bar : Option BarRef) (size : BitVec 2) : Statement (.hcopyGather c ds ss dst src cnt bar size) := by
  rintro f ⟨⟩ hw
  have b0 := c.g.isLt
  have b1 := c.fe.isLt
  have b2 := c.h.isLt
  have b3 := dst.isLt
  have b4 := src.isLt
  have b5 := cnt.isLt
  have b6 := size.isLt
  have b7 := ds.code_lt
  have b8 := ss.code_lt
  have b9 := bar.isSome.toNat_lt
  have b10 := barCode_lt bar
  refine ⟨by simp only [Fields.InRange, Ctl.fields]; omega, by show 4 < 5; omega, ?_⟩
  have e1 : (ds.code + 4 * ss.code + 16 * bar.isSome.toNat) % 4 = ds.code := by omega
  have e2 : (ds.code + 4 * ss.code + 16 * bar.isSome.toNat) / 4 % 4 = ss.code := by omega
  have e3 : (ds.code + 4 * ss.code + 16 * bar.isSome.toNat) / 16 % 2 = bar.isSome.toNat := by omega
  have e4 : ((barCode bar) + 2048 * size.toNat) % 2048 = (barCode bar) := by omega
  have e5 : ((barCode bar) + 2048 * size.toNat) / 2048 % 4 = size.toNat := by omega
  have hb : barOk bar = true := by
    simp only [Instr.wellFormed, Instr.operandsOk, Bool.and_eq_true] at hw
    exact hw.1.2
  rw [ofFields_89 _ rfl]
  simp [of89, Ctl.fields, e1, e2, e3, e4, e5, hb]

theorem bseal (c : Ctl) (d : SReg) : Statement (.bseal c d) := by
  rintro f ⟨⟩ hw
  have b0 := c.g.isLt
  have b1 := c.fe.isLt
  have b2 := c.h.isLt
  have b3 := d.isLt
  refine ⟨by simp only [Fields.InRange, Ctl.fields]; omega, by show 0 < 2; omega, ?_⟩
  rw [ofFields_8A _ rfl]
  simp [of8A, Ctl.fields]

theorem bwait (c : Ctl) (b : SB) : Statement (.bwait c b) := by
  rintro f ⟨⟩ hw
  have b0 := c.g.isLt
  have b1 := c.fe.isLt
  have b2 := c.h.isLt
  have b3 := b.num_lt
  have b4 := b.flag_lt
  have b5 := b.val_lt
  refine ⟨by simp only [Fields.InRange, Ctl.fields]; omega, by show 1 < 2; omega, ?_⟩
  have e1 : (128 * b.flag) / 128 = b.flag := by omega
  rw [ofFields_8A _ rfl]
  simp [of8A, Ctl.fields, e1]

theorem barInit (c : Ctl) (bar : SReg) (n : SB) : Statement (.barInit c bar n) := by
  rintro f ⟨⟩ hw
  have b0 := c.g.isLt
  have b1 := c.fe.isLt
  have b2 := c.h.isLt
  have b3 := bar.isLt
  have b4 := n.num_lt
  have b5 := n.flag_lt
  have b6 := n.val_lt
  refine ⟨by simp only [Fields.InRange, Ctl.fields]; omega, by show 0 < 7; omega, ?_⟩
  have e1 : (128 * n.flag) / 128 = n.flag := by omega
  rw [ofFields_8B _ rfl]
  simp [of8B, Ctl.fields, e1]

theorem barArrive (c : Ctl) (d : SReg) (bar : SReg) : Statement (.barArrive c d bar) := by
  rintro f ⟨⟩ hw
  have b0 := c.g.isLt
  have b1 := c.fe.isLt
  have b2 := c.h.isLt
  have b3 := d.isLt
  have b4 := bar.isLt
  refine ⟨by simp only [Fields.InRange, Ctl.fields]; omega, by show 1 < 7; omega, ?_⟩
  rw [ofFields_8B _ rfl]
  simp [of8B, Ctl.fields]

theorem barArrivex (c : Ctl) (d : SReg) (bar : SReg) (n : SB) : Statement (.barArrivex c d bar n) := by
  rintro f ⟨⟩ hw
  have b0 := c.g.isLt
  have b1 := c.fe.isLt
  have b2 := c.h.isLt
  have b3 := d.isLt
  have b4 := bar.isLt
  have b5 := n.num_lt
  have b6 := n.flag_lt
  have b7 := n.val_lt
  refine ⟨by simp only [Fields.InRange, Ctl.fields]; omega, by show 2 < 7; omega, ?_⟩
  have e1 : (128 * n.flag) / 128 = n.flag := by omega
  rw [ofFields_8B _ rfl]
  simp [of8B, Ctl.fields, e1]

theorem barExpect (c : Ctl) (out : Bool) (bar : SReg) (n : SB) : Statement (.barExpect c out bar n) := by
  rintro f ⟨⟩ hw
  have b0 := c.g.isLt
  have b1 := c.fe.isLt
  have b2 := c.h.isLt
  have b3 := out.toNat_lt
  have b4 := bar.isLt
  have b5 := n.num_lt
  have b6 := n.flag_lt
  have b7 := n.val_lt
  refine ⟨by simp only [Fields.InRange, Ctl.fields]; omega, by show 3 < 7; omega, ?_⟩
  have e1 : (out.toNat + 128 * n.flag) % 2 = out.toNat := by omega
  have e2 : (out.toNat + 128 * n.flag) / 128 = n.flag := by omega
  rw [ofFields_8B _ rfl]
  simp [of8B, Ctl.fields, e1, e2]

theorem barWait (c : Ctl) (bar : SReg) (g : SB) : Statement (.barWait c bar g) := by
  rintro f ⟨⟩ hw
  have b0 := c.g.isLt
  have b1 := c.fe.isLt
  have b2 := c.h.isLt
  have b3 := bar.isLt
  have b4 := g.num_lt
  have b5 := g.flag_lt
  have b6 := g.val_lt
  refine ⟨by simp only [Fields.InRange, Ctl.fields]; omega, by show 4 < 7; omega, ?_⟩
  have e1 : (128 * g.flag) / 128 = g.flag := by omega
  rw [ofFields_8B _ rfl]
  simp [of8B, Ctl.fields, e1]

theorem barWaitout (c : Ctl) (bar : SReg) : Statement (.barWaitout c bar) := by
  rintro f ⟨⟩ hw
  have b0 := c.g.isLt
  have b1 := c.fe.isLt
  have b2 := c.h.isLt
  have b3 := bar.isLt
  refine ⟨by simp only [Fields.InRange, Ctl.fields]; omega, by show 5 < 7; omega, ?_⟩
  rw [ofFields_8B _ rfl]
  simp [of8B, Ctl.fields]

theorem barTest (c : Ctl) (d : PReg) (bar : SReg) (g : SB) : Statement (.barTest c d bar g) := by
  rintro f ⟨⟩ hw
  have b0 := c.g.isLt
  have b1 := c.fe.isLt
  have b2 := c.h.isLt
  have b3 := d.isLt
  have b4 := bar.isLt
  have b5 := g.num_lt
  have b6 := g.flag_lt
  have b7 := g.val_lt
  refine ⟨by simp only [Fields.InRange, Ctl.fields]; omega, by show 6 < 7; omega, ?_⟩
  have e1 : (128 * g.flag) / 128 = g.flag := by omega
  rw [ofFields_8B _ rfl]
  simp [of8B, Ctl.fields, e1]

theorem mmp (c : Ctl) (d : TileNo) (a : SReg) (b : SReg) (q : QSel) (m1 : BitVec 4) (bf : BFmt) (af : AFmt) (planes : BitVec 4) : Statement (.mmp c d a b q m1 bf af planes) := by
  rintro f ⟨⟩ hw
  have b0 := c.g.isLt
  have b1 := c.fe.isLt
  have b2 := c.h.isLt
  have b3 := d.isLt
  have b4 := a.isLt
  have b5 := b.isLt
  have b6 := m1.isLt
  have b7 := planes.isLt
  have b8 := bf.code_lt
  have b9 := af.code_lt
  have b10 := maskedCode_lt q
  refine ⟨by simp only [Fields.InRange, Ctl.fields]; omega, by show 0 < 1; omega, ?_⟩
  have e1 : (16384 * (maskedCode q) + 1024 * m1.toNat + 128 * bf.code + 16 * af.code + planes.toNat) / 16384 % 16 = (maskedCode q) := by omega
  have e2 : (16384 * (maskedCode q) + 1024 * m1.toNat + 128 * bf.code + 16 * af.code + planes.toNat) / 128 % 8 = bf.code := by omega
  have e3 : (16384 * (maskedCode q) + 1024 * m1.toNat + 128 * bf.code + 16 * af.code + planes.toNat) / 16 % 8 = af.code := by omega
  have e4 : (16384 * (maskedCode q) + 1024 * m1.toNat + 128 * bf.code + 16 * af.code + planes.toNat) / 1024 % 16 = m1.toNat := by omega
  have e5 : (16384 * (maskedCode q) + 1024 * m1.toNat + 128 * bf.code + 16 * af.code + planes.toNat) % 16 = planes.toNat := by omega
  rw [ofFields_90 _ rfl]
  simp [of90, Ctl.fields, e1, e2, e3, e4, e5]

theorem mms (c : Ctl) (d : TileNo) (a : SReg) (b : SReg) (groups : BitVec 16) (w : BitVec 4) (slices : BitVec 4) : Statement (.mms c d a b groups w slices) := by
  rintro f ⟨⟩ hw
  have b0 := c.g.isLt
  have b1 := c.fe.isLt
  have b2 := c.h.isLt
  have b3 := d.isLt
  have b4 := a.isLt
  have b5 := b.isLt
  have b6 := groups.isLt
  have b7 := w.isLt
  have b8 := slices.isLt
  refine ⟨by simp only [Fields.InRange, Ctl.fields]; omega, by show 0 < 1; omega, ?_⟩
  have e1 : (256 * groups.toNat + 16 * w.toNat + slices.toNat) / 256 % 65536 = groups.toNat := by omega
  have e2 : (256 * groups.toNat + 16 * w.toNat + slices.toNat) / 16 % 16 = w.toNat := by omega
  have e3 : (256 * groups.toNat + 16 * w.toNat + slices.toNat) % 16 = slices.toNat := by omega
  rw [ofFields_91 _ rfl]
  simp [of91, Ctl.fields, e1, e2, e3]

theorem accZero (c : Ctl) (pair : Bool) (d : TileNo) : Statement (.accZero c pair d) := by
  rintro f ⟨⟩ hw
  have b0 := c.g.isLt
  have b1 := c.fe.isLt
  have b2 := c.h.isLt
  have b3 := pair.toNat_lt
  have b4 := d.isLt
  refine ⟨by simp only [Fields.InRange, Ctl.fields]; omega, by show 0 < 5; omega, ?_⟩
  rw [ofFields_92 _ rfl]
  simp [of92, Ctl.fields]

theorem accLoad (c : Ctl) (pair : Bool) (d : TileNo) (a : SReg) : Statement (.accLoad c pair d a) := by
  rintro f ⟨⟩ hw
  have b0 := c.g.isLt
  have b1 := c.fe.isLt
  have b2 := c.h.isLt
  have b3 := pair.toNat_lt
  have b4 := d.isLt
  have b5 := a.isLt
  refine ⟨by simp only [Fields.InRange, Ctl.fields]; omega, by show 1 < 5; omega, ?_⟩
  rw [ofFields_92 _ rfl]
  simp [of92, Ctl.fields]

theorem accOut (c : Ctl) (pair : Bool) (d : TileNo) (a : SReg) (b : SReg) (q : QSel) (fmt : BitVec 4) (ovf : Bool) (rm : RM) : Statement (.accOut c pair d a b q fmt ovf rm) := by
  rintro f ⟨⟩ hw
  have b0 := c.g.isLt
  have b1 := c.fe.isLt
  have b2 := c.h.isLt
  have b3 := pair.toNat_lt
  have b4 := d.isLt
  have b5 := a.isLt
  have b6 := b.isLt
  have b7 := fmt.isLt
  have b8 := ovf.toNat_lt
  have b9 := rm.code_lt
  have b10 := maskedCode_lt q
  refine ⟨by simp only [Fields.InRange, Ctl.fields]; omega, by show 2 < 5; omega, ?_⟩
  have e1 : (16 * (maskedCode q) + fmt.toNat) / 16 % 16 = (maskedCode q) := by omega
  have e2 : (4 * ovf.toNat + rm.code) / 4 % 2 = ovf.toNat := by omega
  have e3 : (4 * ovf.toNat + rm.code) % 4 = rm.code := by omega
  have e4 : (16 * (maskedCode q) + fmt.toNat) % 16 = fmt.toNat := by omega
  rw [ofFields_92 _ rfl]
  simp [of92, Ctl.fields, e1, e2, e3, e4]

theorem accMove (c : Ctl) (pair : Bool) (d : TileNo) (a : TileNo) : Statement (.accMove c pair d a) := by
  rintro f ⟨⟩ hw
  have b0 := c.g.isLt
  have b1 := c.fe.isLt
  have b2 := c.h.isLt
  have b3 := pair.toNat_lt
  have b4 := d.isLt
  have b5 := a.isLt
  refine ⟨by simp only [Fields.InRange, Ctl.fields]; omega, by show 3 < 5; omega, ?_⟩
  rw [ofFields_92 _ rfl]
  simp [of92, Ctl.fields]

theorem accSpill (c : Ctl) (pair : Bool) (d : TileNo) (a : SReg) : Statement (.accSpill c pair d a) := by
  rintro f ⟨⟩ hw
  have b0 := c.g.isLt
  have b1 := c.fe.isLt
  have b2 := c.h.isLt
  have b3 := pair.toNat_lt
  have b4 := d.isLt
  have b5 := a.isLt
  refine ⟨by simp only [Fields.InRange, Ctl.fields]; omega, by show 4 < 5; omega, ?_⟩
  rw [ofFields_92 _ rfl]
  simp [of92, Ctl.fields]

theorem mqStat (c : Ctl) (d : SReg) (q : QReg) : Statement (.mqStat c d q) := by
  rintro f ⟨⟩ hw
  have b0 := c.g.isLt
  have b1 := c.fe.isLt
  have b2 := c.h.isLt
  have b3 := d.isLt
  have b4 := q.isLt
  refine ⟨by simp only [Fields.InRange, Ctl.fields]; omega, by show 0 < 2; omega, ?_⟩
  rw [ofFields_93 _ rfl]
  simp [of93, Ctl.fields]

theorem mqFlush (c : Ctl) (q : QReg) : Statement (.mqFlush c q) := by
  rintro f ⟨⟩ hw
  have b0 := c.g.isLt
  have b1 := c.fe.isLt
  have b2 := c.h.isLt
  have b3 := q.isLt
  refine ⟨by simp only [Fields.InRange, Ctl.fields]; omega, by show 1 < 2; omega, ?_⟩
  rw [ofFields_93 _ rfl]
  simp [of93, Ctl.fields]

theorem nredPush (c : Ctl) (a : SReg) (t : BitVec 4) : Statement (.nredPush c a t) := by
  rintro f ⟨⟩ hw
  have b0 := c.g.isLt
  have b1 := c.fe.isLt
  have b2 := c.h.isLt
  have b3 := a.isLt
  have b4 := t.isLt
  refine ⟨by simp only [Fields.InRange, Ctl.fields]; omega, by show 0 < 2; omega, ?_⟩
  have e1 : (t.toNat) % 16 = t.toNat := by omega
  rw [ofFields_98 _ rfl]
  simp [of98, Ctl.fields, e1]

theorem nredWait (c : Ctl) (a : SReg) (t : BitVec 4) (bcast : Bool) : Statement (.nredWait c a t bcast) := by
  rintro f ⟨⟩ hw
  have b0 := c.g.isLt
  have b1 := c.fe.isLt
  have b2 := c.h.isLt
  have b3 := a.isLt
  have b4 := t.isLt
  have b5 := bcast.toNat_lt
  refine ⟨by simp only [Fields.InRange, Ctl.fields]; omega, by show 1 < 2; omega, ?_⟩
  have e1 : (bcast.toNat) % 2 = bcast.toNat := by omega
  have e2 : (t.toNat) % 16 = t.toNat := by omega
  rw [ofFields_98 _ rfl]
  simp [of98, Ctl.fields, e1, e2]

theorem snop : Statement (.snop) := by
  rintro f ⟨⟩ hw
  refine ⟨by simp only [Fields.InRange]; omega, by show 0 < 2; omega, ?_⟩
  rw [ofFields_C0 _ rfl]
  simp [ofC0]

theorem shalt : Statement (.shalt) := by
  rintro f ⟨⟩ hw
  refine ⟨by simp only [Fields.InRange]; omega, by show 1 < 2; omega, ?_⟩
  rw [ofFields_C0 _ rfl]
  simp [ofC0]

theorem sbr (cc : CC) (a : KReg) (b : KReg) (off : BitVec 32) : Statement (.sbr cc a b off) := by
  rintro f ⟨⟩ hw
  have b0 := a.isLt
  have b1 := b.isLt
  have b2 := off.isLt
  have b3 := cc.code_lt
  refine ⟨by simp only [Fields.InRange]; omega, by show 0 < 1; omega, ?_⟩
  have e1 : (cc.code) % 16 = cc.code := by omega
  rw [ofFields_C1 _ rfl]
  simp [ofC1, e1]

theorem scall (off : BitVec 32) : Statement (.scall off) := by
  rintro f ⟨⟩ hw
  have b0 := off.isLt
  refine ⟨by simp only [Fields.InRange]; omega, by show 0 < 1; omega, ?_⟩
  rw [ofFields_C2 _ rfl]
  simp [ofC2]

theorem sret : Statement (.sret) := by
  rintro f ⟨⟩ hw
  refine ⟨by simp only [Fields.InRange]; omega, by show 0 < 1; omega, ?_⟩
  rw [ofFields_C3 _ rfl]
  simp [ofC3]

theorem sjoin : Statement (.sjoin) := by
  rintro f ⟨⟩ hw
  refine ⟨by simp only [Fields.InRange]; omega, by show 0 < 1; omega, ?_⟩
  rw [ofFields_C4 _ rfl]
  simp [ofC4]

theorem kalu (op : AluOp) (d : KReg) (a : KReg) (b : KB) : Statement (.kalu op d a b) := by
  rintro f ⟨⟩ hw
  have b0 := d.isLt
  have b1 := a.isLt
  have b2 := b.num_lt
  have b3 := op.code_lt
  have b4 := b.flag_lt
  have b5 := b.val_lt
  refine ⟨by simp only [Fields.InRange]; omega, by show 0 < 1; omega, ?_⟩
  have e1 : (op.code + 128 * b.flag) % 16 = op.code := by omega
  have e2 : (op.code + 128 * b.flag) / 128 = b.flag := by omega
  rw [ofFields_C5 _ rfl]
  simp [ofC5, e1, e2]

theorem kread (cls : BitVec 2) (d : KReg) (a : KReg) (wide : Bool) : Statement (.kread cls d a wide) := by
  rintro f ⟨⟩ hw
  have b0 := cls.isLt
  have b1 := d.isLt
  have b2 := a.isLt
  have b3 := wide.toNat_lt
  refine ⟨by simp only [Fields.InRange]; omega, by show 0 < 1; omega, ?_⟩
  have e1 : (cls.toNat + 4 * wide.toNat) / 4 % 2 = wide.toNat := by omega
  have e2 : (cls.toNat + 4 * wide.toNat) % 4 = cls.toNat := by omega
  rw [ofFields_C6 _ rfl]
  simp [ofC6, e1, e2]

theorem areaRead (a : KReg) (b : KReg) : Statement (.areaRead a b) := by
  rintro f ⟨⟩ hw
  have b0 := a.isLt
  have b1 := b.isLt
  refine ⟨by simp only [Fields.InRange]; omega, by show 0 < 2; omega, ?_⟩
  rw [ofFields_C7 _ rfl]
  simp [ofC7]

theorem areaWrite (a : KReg) (b : KReg) : Statement (.areaWrite a b) := by
  rintro f ⟨⟩ hw
  have b0 := a.isLt
  have b1 := b.isLt
  refine ⟨by simp only [Fields.InRange]; omega, by show 1 < 2; omega, ?_⟩
  rw [ofFields_C7 _ rfl]
  simp [ofC7]

theorem bdecl (d : BufNo) (cls : BitVec 4) : Statement (.bdecl d cls) := by
  rintro f ⟨⟩ hw
  have b0 := d.isLt
  have b1 := cls.isLt
  refine ⟨by simp only [Fields.InRange]; omega, by show 0 < 1; omega, ?_⟩
  have e1 : (cls.toNat) % 16 = cls.toNat := by omega
  rw [ofFields_C8 _ rfl]
  simp [ofC8, e1]

theorem bdrop (d : BufNo) : Statement (.bdrop d) := by
  rintro f ⟨⟩ hw
  have b0 := d.isLt
  refine ⟨by simp only [Fields.InRange]; omega, by show 0 < 1; omega, ?_⟩
  rw [ofFields_C9 _ rfl]
  simp [ofC9]

theorem launch (cls : BitVec 2) (bd : Option BufNo) (ba : Option BufNo) (bb : Option BufNo) (kd : KReg) : Statement (.launch cls bd ba bb kd) := by
  rintro f ⟨⟩ hw
  have b0 := cls.isLt
  have b1 := kd.isLt
  have b2 := bd.isSome.toNat_lt
  have b3 := ba.isSome.toNat_lt
  have b4 := bb.isSome.toNat_lt
  have b5 := optBuf_lt bd
  have b6 := optBuf_lt ba
  have b7 := optBuf_lt bb
  refine ⟨by simp only [Fields.InRange]; omega, by show 0 < 1; omega, ?_⟩
  have e1 : (cls.toNat + 4 * bd.isSome.toNat + 8 * ba.isSome.toNat + 16 * bb.isSome.toNat) / 4 % 2 = bd.isSome.toNat := by omega
  have e2 : (cls.toNat + 4 * bd.isSome.toNat + 8 * ba.isSome.toNat + 16 * bb.isSome.toNat) / 8 % 2 = ba.isSome.toNat := by omega
  have e3 : (cls.toNat + 4 * bd.isSome.toNat + 8 * ba.isSome.toNat + 16 * bb.isSome.toNat) / 16 % 2 = bb.isSome.toNat := by omega
  have e4 : (kd.val) % 32 = kd.val := by omega
  have e5 : (cls.toNat + 4 * bd.isSome.toNat + 8 * ba.isSome.toNat + 16 * bb.isSome.toNat) % 4 = cls.toNat := by omega
  rw [ofFields_D0 _ rfl]
  simp [ofD0, e1, e2, e3, e4, e5]

theorem mmt (cls : BitVec 2) (acc : Bool) (masked : Bool) (d : BufNo) (a : BufNo) (b : BufNo) (kd : KReg) : Statement (.mmt cls acc masked d a b kd) := by
  rintro f ⟨⟩ hw
  have b0 := cls.isLt
  have b1 := acc.toNat_lt
  have b2 := masked.toNat_lt
  have b3 := d.isLt
  have b4 := a.isLt
  have b5 := b.isLt
  have b6 := kd.isLt
  refine ⟨by simp only [Fields.InRange]; omega, by show 0 < 1; omega, ?_⟩
  have e1 : (cls.toNat + 4 * acc.toNat + 8 * masked.toNat) / 4 % 2 = acc.toNat := by omega
  have e2 : (cls.toNat + 4 * acc.toNat + 8 * masked.toNat) / 8 % 2 = masked.toNat := by omega
  have e3 : (kd.val) % 32 = kd.val := by omega
  have e4 : (cls.toNat + 4 * acc.toNat + 8 * masked.toNat) % 4 = cls.toNat := by omega
  rw [ofFields_D1 _ rfl]
  simp [ofD1, e1, e2, e3, e4]

theorem smmt (cls : BitVec 2) (acc : Bool) (masked : Bool) (d : BufNo) (a : BufNo) (b : BufNo) (kd : KReg) : Statement (.smmt cls acc masked d a b kd) := by
  rintro f ⟨⟩ hw
  have b0 := cls.isLt
  have b1 := acc.toNat_lt
  have b2 := masked.toNat_lt
  have b3 := d.isLt
  have b4 := a.isLt
  have b5 := b.isLt
  have b6 := kd.isLt
  refine ⟨by simp only [Fields.InRange]; omega, by show 0 < 1; omega, ?_⟩
  have e1 : (cls.toNat + 4 * acc.toNat + 8 * masked.toNat) / 4 % 2 = acc.toNat := by omega
  have e2 : (cls.toNat + 4 * acc.toNat + 8 * masked.toNat) / 8 % 2 = masked.toNat := by omega
  have e3 : (kd.val) % 32 = kd.val := by omega
  have e4 : (cls.toNat + 4 * acc.toNat + 8 * masked.toNat) % 4 = cls.toNat := by omega
  rw [ofFields_D2 _ rfl]
  simp [ofD2, e1, e2, e3, e4]

theorem copyt (cls : BitVec 2) (acc : Bool) (d : Option BufNo) (a : Option BufNo) (kd : KReg) : Statement (.copyt cls acc d a kd) := by
  rintro f ⟨⟩ hw
  have b0 := cls.isLt
  have b1 := acc.toNat_lt
  have b2 := kd.isLt
  have b3 := d.isSome.toNat_lt
  have b4 := a.isSome.toNat_lt
  have b5 := optBuf_lt d
  have b6 := optBuf_lt a
  refine ⟨by simp only [Fields.InRange]; omega, by show 0 < 1; omega, ?_⟩
  have e1 : (cls.toNat + 4 * acc.toNat + 8 * d.isSome.toNat + 16 * a.isSome.toNat) / 4 % 2 = acc.toNat := by omega
  have e2 : (cls.toNat + 4 * acc.toNat + 8 * d.isSome.toNat + 16 * a.isSome.toNat) / 8 % 2 = d.isSome.toNat := by omega
  have e3 : (cls.toNat + 4 * acc.toNat + 8 * d.isSome.toNat + 16 * a.isSome.toNat) / 16 % 2 = a.isSome.toNat := by omega
  have e4 : (kd.val) % 32 = kd.val := by omega
  have e5 : (cls.toNat + 4 * acc.toNat + 8 * d.isSome.toNat + 16 * a.isSome.toNat) % 4 = cls.toNat := by omega
  rw [ofFields_D3 _ rfl]
  simp [ofD3, e1, e2, e3, e4, e5]

theorem redt (cls : BitVec 2) (a : KReg) (t : BitVec 4) : Statement (.redt cls a t) := by
  rintro f ⟨⟩ hw
  have b0 := cls.isLt
  have b1 := a.isLt
  have b2 := t.isLt
  refine ⟨by simp only [Fields.InRange]; omega, by show 0 < 1; omega, ?_⟩
  have e1 : (cls.toNat) % 4 = cls.toNat := by omega
  have e2 : (t.toNat) % 16 = t.toNat := by omega
  rw [ofFields_D4 _ rfl]
  simp [ofD4, e1, e2]

theorem maskgen (cls : BitVec 2) (d : BufNo) (a : BufNo) (kd : KReg) : Statement (.maskgen cls d a kd) := by
  rintro f ⟨⟩ hw
  have b0 := cls.isLt
  have b1 := d.isLt
  have b2 := a.isLt
  have b3 := kd.isLt
  refine ⟨by simp only [Fields.InRange]; omega, by show 0 < 1; omega, ?_⟩
  have e1 : (kd.val) % 32 = kd.val := by omega
  have e2 : (cls.toNat) % 4 = cls.toNat := by omega
  rw [ofFields_D5 _ rfl]
  simp [ofD5, e1, e2]

theorem kvcompact (cls : BitVec 2) (d : BufNo) (a : BufNo) (b : BufNo) (kd : KReg) : Statement (.kvcompact cls d a b kd) := by
  rintro f ⟨⟩ hw
  have b0 := cls.isLt
  have b1 := d.isLt
  have b2 := a.isLt
  have b3 := b.isLt
  have b4 := kd.isLt
  refine ⟨by simp only [Fields.InRange]; omega, by show 0 < 1; omega, ?_⟩
  have e1 : (kd.val) % 32 = kd.val := by omega
  have e2 : (cls.toNat) % 4 = cls.toNat := by omega
  rw [ofFields_D6 _ rfl]
  simp [ofD6, e1, e2]

theorem sopen (cls : BitVec 2) (kd : KReg) : Statement (.sopen cls kd) := by
  rintro f ⟨⟩ hw
  have b0 := cls.isLt
  have b1 := kd.isLt
  refine ⟨by simp only [Fields.InRange]; omega, by show 0 < 1; omega, ?_⟩
  have e1 : (kd.val) % 32 = kd.val := by omega
  have e2 : (cls.toNat) % 4 = cls.toNat := by omega
  rw [ofFields_E0 _ rfl]
  simp [ofE0, e1, e2]

theorem srule (cls : BitVec 2) (img : Bool) (d : BufNo) (a : BufNo) (b : Option BufNo) (kd : KReg) : Statement (.srule cls img d a b kd) := by
  rintro f ⟨⟩ hw
  have b0 := cls.isLt
  have b1 := img.toNat_lt
  have b2 := d.isLt
  have b3 := a.isLt
  have b4 := kd.isLt
  have b5 := b.isSome.toNat_lt
  have b6 := optBuf_lt b
  refine ⟨by simp only [Fields.InRange]; omega, by show 0 < 1; omega, ?_⟩
  have e1 : (cls.toNat + 8 * img.toNat + 4 * b.isSome.toNat) / 8 % 2 = img.toNat := by omega
  have e2 : (cls.toNat + 8 * img.toNat + 4 * b.isSome.toNat) / 4 % 2 = b.isSome.toNat := by omega
  have e3 : (kd.val) % 32 = kd.val := by omega
  have e4 : (cls.toNat + 8 * img.toNat + 4 * b.isSome.toNat) % 4 = cls.toNat := by omega
  rw [ofFields_E1 _ rfl]
  simp [ofE1, e1, e2, e3, e4]

theorem saccept (cls : BitVec 2) (img : Bool) (d : BufNo) (a : BufNo) (b : BufNo) (kd : KReg) : Statement (.saccept cls img d a b kd) := by
  rintro f ⟨⟩ hw
  have b0 := cls.isLt
  have b1 := img.toNat_lt
  have b2 := d.isLt
  have b3 := a.isLt
  have b4 := b.isLt
  have b5 := kd.isLt
  refine ⟨by simp only [Fields.InRange]; omega, by show 0 < 1; omega, ?_⟩
  have e1 : (cls.toNat + 8 * img.toNat) / 8 % 2 = img.toNat := by omega
  have e2 : (kd.val) % 32 = kd.val := by omega
  have e3 : (cls.toNat + 8 * img.toNat) % 4 = cls.toNat := by omega
  rw [ofFields_E2 _ rfl]
  simp [ofE2, e1, e2, e3]

theorem skv (cls : BitVec 2) (a : BufNo) (kd : KReg) : Statement (.skv cls a kd) := by
  rintro f ⟨⟩ hw
  have b0 := cls.isLt
  have b1 := a.isLt
  have b2 := kd.isLt
  refine ⟨by simp only [Fields.InRange]; omega, by show 0 < 1; omega, ?_⟩
  have e1 : (kd.val) % 32 = kd.val := by omega
  have e2 : (cls.toNat) % 4 = cls.toNat := by omega
  rw [ofFields_E3 _ rfl]
  simp [ofE3, e1, e2]

theorem spublish (cls : BitVec 2) (kd : KReg) : Statement (.spublish cls kd) := by
  rintro f ⟨⟩ hw
  have b0 := cls.isLt
  have b1 := kd.isLt
  refine ⟨by simp only [Fields.InRange]; omega, by show 0 < 1; omega, ?_⟩
  have e1 : (kd.val) % 32 = kd.val := by omega
  have e2 : (cls.toNat) % 4 = cls.toNat := by omega
  rw [ofFields_E4 _ rfl]
  simp [ofE4, e1, e2]

theorem sclose (cls : BitVec 2) (kd : KReg) : Statement (.sclose cls kd) := by
  rintro f ⟨⟩ hw
  have b0 := cls.isLt
  have b1 := kd.isLt
  refine ⟨by simp only [Fields.InRange]; omega, by show 0 < 1; omega, ?_⟩
  have e1 : (kd.val) % 32 = kd.val := by omega
  have e2 : (cls.toNat) % 4 = cls.toNat := by omega
  rw [ofFields_E5 _ rfl]
  simp [ofE5, e1, e2]

theorem scount (cls : BitVec 2) (d : KReg) (kd : KReg) : Statement (.scount cls d kd) := by
  rintro f ⟨⟩ hw
  have b0 := cls.isLt
  have b1 := d.isLt
  have b2 := kd.isLt
  refine ⟨by simp only [Fields.InRange]; omega, by show 0 < 1; omega, ?_⟩
  have e1 : (kd.val) % 32 = kd.val := by omega
  have e2 : (cls.toNat) % 4 = cls.toNat := by omega
  rw [ofFields_E6 _ rfl]
  simp [ofE6, e1, e2]

theorem qsend (cls : BitVec 2) (a : BufNo) (off : BitVec 16) (q : BitVec 4) : Statement (.qsend cls a off q) := by
  rintro f ⟨⟩ hw
  have b0 := cls.isLt
  have b1 := a.isLt
  have b2 := off.isLt
  have b3 := q.isLt
  refine ⟨by simp only [Fields.InRange]; omega, by show 0 < 1; omega, ?_⟩
  have e1 : (cls.toNat) % 4 = cls.toNat := by omega
  have e2 : (16 * off.toNat + q.toNat) / 16 % 65536 = off.toNat := by omega
  have e3 : (16 * off.toNat + q.toNat) % 16 = q.toNat := by omega
  rw [ofFields_E8 _ rfl]
  simp [ofE8, e1, e2, e3]

theorem qrecv (cls : BitVec 2) (d : BufNo) (half : Bool) (q : BitVec 4) : Statement (.qrecv cls d half q) := by
  rintro f ⟨⟩ hw
  have b0 := cls.isLt
  have b1 := d.isLt
  have b2 := half.toNat_lt
  have b3 := q.isLt
  refine ⟨by simp only [Fields.InRange]; omega, by show 0 < 1; omega, ?_⟩
  have e1 : (16 * half.toNat + q.toNat) / 16 % 2 = half.toNat := by omega
  have e2 : (cls.toNat) % 4 = cls.toNat := by omega
  have e3 : (16 * half.toNat + q.toNat) % 16 = q.toNat := by omega
  rw [ofFields_E9 _ rfl]
  simp [ofE9, e1, e2, e3]

theorem ssignal (cls : BitVec 2) (a : KReg) (b : KReg) (wide : Bool) : Statement (.ssignal cls a b wide) := by
  rintro f ⟨⟩ hw
  have b0 := cls.isLt
  have b1 := a.isLt
  have b2 := b.isLt
  have b3 := wide.toNat_lt
  refine ⟨by simp only [Fields.InRange]; omega, by show 0 < 1; omega, ?_⟩
  have e1 : (cls.toNat + 4 * wide.toNat) / 4 % 2 = wide.toNat := by omega
  have e2 : (cls.toNat + 4 * wide.toNat) % 4 = cls.toNat := by omega
  rw [ofFields_F0 _ rfl]
  simp [ofF0, e1, e2]

theorem swait (cls : BitVec 2) (cmp : WaitCmp) (wide : Bool) (a : KReg) (kd : KReg) : Statement (.swait cls cmp wide a kd) := by
  rintro f ⟨⟩ hw
  have b0 := cls.isLt
  have b1 := wide.toNat_lt
  have b2 := a.isLt
  have b3 := kd.isLt
  have b4 := cmp.code_lt
  refine ⟨by simp only [Fields.InRange]; omega, by show 0 < 1; omega, ?_⟩
  have e1 : (cls.toNat + 8 * cmp.code + 4 * wide.toNat) / 8 % 4 = cmp.code := by omega
  have e2 : (cls.toNat + 8 * cmp.code + 4 * wide.toNat) / 4 % 2 = wide.toNat := by omega
  have e3 : (kd.val) % 32 = kd.val := by omega
  have e4 : (cls.toNat + 8 * cmp.code + 4 * wide.toNat) % 4 = cls.toNat := by omega
  rw [ofFields_F1 _ rfl]
  simp [ofF1, e1, e2, e3, e4]

theorem smode (b : KReg) (det : Bool) : Statement (.smode b det) := by
  rintro f ⟨⟩ hw
  have b0 := b.isLt
  have b1 := det.toNat_lt
  refine ⟨by simp only [Fields.InRange]; omega, by show 0 < 1; omega, ?_⟩
  have e1 : (det.toNat) % 2 = det.toNat := by omega
  rw [ofFields_F2 _ rfl]
  simp [ofF2, e1]

theorem streamFetch (p : Nat) : Statement (.streamFetch p) := by
  rintro f ⟨⟩

theorem coreFetch (tid : Nat) : Statement (.coreFetch tid) := by
  rintro f ⟨⟩

theorem taskIssue (p : Nat) (seq : Nat) : Statement (.taskIssue p seq) := by
  rintro f ⟨⟩

theorem tileDispatch (p : Nat) (seq : Nat) : Statement (.tileDispatch p seq) := by
  rintro f ⟨⟩

theorem taskComplete (p : Nat) (seq : Nat) : Statement (.taskComplete p seq) := by
  rintro f ⟨⟩

theorem taskRetire (p : Nat) : Statement (.taskRetire p) := by
  rintro f ⟨⟩

theorem faultRecordWrite (p : Nat) : Statement (.faultRecordWrite p) := by
  rintro f ⟨⟩

theorem crewPlace (p : Nat) (seq : Nat) (cores : List Nat) (quarters : List Nat) (shadowQuarters : List Nat) : Statement (.crewPlace p seq cores quarters shadowQuarters) := by
  rintro f ⟨⟩

theorem classPreempt (p : Nat) (seq : Nat) : Statement (.classPreempt p seq) := by
  rintro f ⟨⟩

theorem crewResume (cid : Nat) (cores : List Nat) (quarters : List Nat) : Statement (.crewResume cid cores quarters) := by
  rintro f ⟨⟩

theorem teamExchange (quarter : Nat) (tid : Nat) : Statement (.teamExchange quarter tid) := by
  rintro f ⟨⟩

theorem timeSliceExpiry (tid : Nat) : Statement (.timeSliceExpiry tid) := by
  rintro f ⟨⟩

theorem resultArrive (tid : Nat) (idx : Nat) (lane : Nat) : Statement (.resultArrive tid idx lane) := by
  rintro f ⟨⟩

theorem stackSpill (tid : Nat) : Statement (.stackSpill tid) := by
  rintro f ⟨⟩

theorem stackRefill (tid : Nat) : Statement (.stackRefill tid) := by
  rintro f ⟨⟩

theorem teamEnd (tid : Nat) : Statement (.teamEnd tid) := by
  rintro f ⟨⟩

theorem jwaitRelease (tid : Nat) (pc : PC) (j : JReg) : Statement (.jwaitRelease tid pc j) := by
  rintro f ⟨⟩

theorem spindleClassPreempt (core : Nat) (units : Nat) : Statement (.spindleClassPreempt core units) := by
  rintro f ⟨⟩

theorem spindleOpComplete (core : Nat) : Statement (.spindleOpComplete core) := by
  rintro f ⟨⟩

theorem hoistChunkStart (core : Nat) : Statement (.hoistChunkStart core) := by
  rintro f ⟨⟩

theorem hoistChunkLand (age : Nat) (chunk : Nat) : Statement (.hoistChunkLand age chunk) := by
  rintro f ⟨⟩

theorem enginePreemptAck (p : Nat) (e : Engine) : Statement (.enginePreemptAck p e) := by
  rintro f ⟨⟩

theorem preemptionComplete (p : Nat) : Statement (.preemptionComplete p) := by
  rintro f ⟨⟩

theorem routerFold (p : Nat) (t : Nat) (core : Nat) : Statement (.routerFold p t core) := by
  rintro f ⟨⟩

theorem routerPartialArrive (p : Nat) (t : Nat) (core : Nat) (port : Port) : Statement (.routerPartialArrive p t core port) := by
  rintro f ⟨⟩

theorem nredRouterTimeout (p : Nat) (t : Nat) (core : Nat) : Statement (.nredRouterTimeout p t core) := by
  rintro f ⟨⟩

theorem swaitPoll (p : Nat) (seq : Nat) : Statement (.swaitPoll p seq) := by
  rintro f ⟨⟩

theorem swaitLimitExpiry (p : Nat) (seq : Nat) : Statement (.swaitLimitExpiry p seq) := by
  rintro f ⟨⟩

theorem ringConsPoll (p : Nat) (seq : Nat) : Statement (.ringConsPoll p seq) := by
  rintro f ⟨⟩

theorem ringLimitExpiry (p : Nat) (seq : Nat) : Statement (.ringLimitExpiry p seq) := by
  rintro f ⟨⟩

theorem spublishRecordWrite (p : Nat) (seq : Nat) : Statement (.spublishRecordWrite p seq) := by
  rintro f ⟨⟩

theorem ioCompletionTimeout (req : IoReq) : Statement (.ioCompletionTimeout req) := by
  rintro f ⟨⟩

theorem portCompletionError (req : IoReq) (err : PortErr) : Statement (.portCompletionError req err) := by
  rintro f ⟨⟩

theorem patrolRead (place : SramPlace) (found : EccFinding) : Statement (.patrolRead place found) := by
  rintro f ⟨⟩

theorem rowSpareReplace (place : SramPlace) (row : Nat) : Statement (.rowSpareReplace place row) := by
  rintro f ⟨⟩

theorem uncorrectableError (place : ErrPlace) : Statement (.uncorrectableError place) := by
  rintro f ⟨⟩

theorem signatureCompare (what : SigOf) (sig : Nat) : Statement (.signatureCompare what sig) := by
  rintro f ⟨⟩

theorem spareCoreSwap (core : Nat) (die : Nat) : Statement (.spareCoreSwap core die) := by
  rintro f ⟨⟩

theorem linkLaneFail (port : Nat) : Statement (.linkLaneFail port) := by
  rintro f ⟨⟩

theorem linkDown (port : Nat) : Statement (.linkDown port) := by
  rintro f ⟨⟩

theorem ethesInboundAccess (link : Nat) (off : Nat) (len : Nat) (what : Inbound) : Statement (.ethesInboundAccess link off len what) := by
  rintro f ⟨⟩

theorem ideIntegrityFailure (p : IdePlace) : Statement (.ideIntegrityFailure p) := by
  rintro f ⟨⟩

theorem deviceReset : Statement (.deviceReset) := by
  rintro f ⟨⟩

theorem vfFlr (p : Nat) : Statement (.vfFlr p) := by
  rintro f ⟨⟩

theorem pf0Flr : Statement (.pf0Flr) := by
  rintro f ⟨⟩

theorem unformedVfAccess (p : Nat) (off : Nat) (value : Option DWord) : Statement (.unformedVfAccess p off value) := by
  rintro f ⟨⟩

theorem twctlGo (p : Nat) : Statement (.twctlGo p) := by
  rintro f ⟨⟩

theorem twctlHalt (p : Nat) : Statement (.twctlHalt p) := by
  rintro f ⟨⟩

theorem resolveReexecute (p : Nat) : Statement (.resolveReexecute p) := by
  rintro f ⟨⟩

theorem resolveSkip (p : Nat) : Statement (.resolveSkip p) := by
  rintro f ⟨⟩

theorem resolveAbandon (p : Nat) : Statement (.resolveAbandon p) := by
  rintro f ⟨⟩

theorem twpcWrite (p : Nat) (high : Bool) (value : DWord) : Statement (.twpcWrite p high value) := by
  rintro f ⟨⟩

theorem xlinvAll (p : Nat) : Statement (.xlinvAll p) := by
  rintro f ⟨⟩

theorem dbgHaltreq (p : Nat) : Statement (.dbgHaltreq p) := by
  rintro f ⟨⟩

theorem dbgResume (p : Nat) : Statement (.dbgResume p) := by
  rintro f ⟨⟩

theorem ringcfgWrite (p : Nat) (r : Nat) (value : DWord) : Statement (.ringcfgWrite p r value) := by
  rintro f ⟨⟩

theorem qconsentWrite (p : Nat) (value : DWord) : Statement (.qconsentWrite p value) := by
  rintro f ⟨⟩

theorem partitionForm (p : Nat) : Statement (.partitionForm p) := by
  rintro f ⟨⟩

theorem partitionDissolve (p : Nat) : Statement (.partitionDissolve p) := by
  rintro f ⟨⟩

theorem attestationStart (value : DWord) : Statement (.attestationStart value) := by
  rintro f ⟨⟩

theorem attestationResponse : Statement (.attestationResponse) := by
  rintro f ⟨⟩

theorem fwLoadStart (value : DWord) : Statement (.fwLoadStart value) := by
  rintro f ⟨⟩

theorem fwImageCheck : Statement (.fwImageCheck) := by
  rintro f ⟨⟩

theorem registerWrite (fn : Nat) (off : Nat) (value : DWord) : Statement (.registerWrite fn off value) := by
  rintro f ⟨⟩

theorem linkRetrain (port : Nat) : Statement (.linkRetrain port) := by
  rintro f ⟨⟩

theorem writeCompletionArrive (tid : Nat) (idx : Nat) : Statement (.writeCompletionArrive tid idx) := by
  rintro f ⟨⟩

theorem invalidationComplete (p : Nat) : Statement (.invalidationComplete p) := by
  rintro f ⟨⟩

theorem partitionFormComplete (p : Nat) : Statement (.partitionFormComplete p) := by
  rintro f ⟨⟩

theorem partitionDissolveComplete (p : Nat) (badCores : List Nat) (badLines : List Nat) : Statement (.partitionDissolveComplete p badCores badLines) := by
  rintro f ⟨⟩

end Sys2Proof.Laws.Encoding
end

