-- ==== Sys2Proof/Tests/Slice0.lean ====
section
/-! SUPPORT. Checks of this model: ill-formed terms, words of the encoding tables, single steps against the spec's own numbers, and for
each statement states that meet its hypotheses. -/

set_option Elab.async false

namespace Sys2Proof.Tests
open Sys2Proof Sys2Proof.Machine Sys2Proof.Claims

/-! ### Words written out from Table 10.2 -/

/-- A word by its fields, at the bits Table 10.2 gives them. -/
def w (op : Nat) (fn d a b x m ty g fe h : Nat := 0) : InsnWord := BitVec.ofNat 96
  (op + fn * 2 ^ 8 + d * 2 ^ 12 + a * 2 ^ 21 + b * 2 ^ 30 + g * 2 ^ 39 + fe * 2 ^ 43 + ty * 2 ^ 46 + m * 2 ^ 48 + h * 2 ^ 56 + x * 2 ^ 64)

def z : Ctl := ⟨0, 0, 0⟩

/-- Every word of the list decodes to the instruction beside it. -/
def decodes (l : List (InsnWord × Instr)) : Bool := l.all fun p => decide (decode p.1 = .insn p.2)

/-- Table 10.6, the words as the spec writes them. -/
theorem test_decode_table_10_6 :
    decode 0x000000C00000000000188023 = .insn (.smoviLo z 8 0xC0) ∧
    decode 0x000008000000000071002080 = .insn (.ld z .w32 2 ⟨.g, .none, .team, 8, 1⟩) ∧
    decode 0x000000010080000000402010 = .insn (.iaddAdd z 2 2 (.imm 1)) ∧
    decode 0x000000010080058000402010 = .insn (.iaddAdd ⟨11, 0, 0⟩ 2 2 (.imm 1)) ∧
    decode 0x000008000000000071002081 = .insn (.st z .w32 2 ⟨.g, .none, .team, 8, 1⟩) := by decide +kernel

/-- Table 10.7: control and predicates. s5 is number 389. -/
theorem test_decode_control : decodes [
    (w 0x00, .nop z), (w 0x00 (fn := 1), .yield z), (w 0x01 (x := 0xFFFFFFFE), .bra z 0xFFFFFFFE),
    (w 0x02 (a := 388) (b := 9), .brx z 4 9), (w 0x03 (x := 3), .callDirect z 3),
    (w 0x03 (fn := 1) (a := 390) (b := 7), .callIndirect z 6 7), (w 0x04, .ret z),
    (w 0x05 (d := 3), .jset z 3), (w 0x05 (fn := 1) (a := 4), .jarr z 4), (w 0x05 (fn := 2) (a := 5), .jwait z 5),
    (w 0x05 (fn := 3) (d := 2) (a := 7), .jread z 2 7), (w 0x06, .exit z), (w 0x07 (x := 0xF001), .trap z 0xF001),
    (w 0x07 (fn := 1) (x := 77), .brk z 77), (w 0x07 (fn := 2), .tret z),
    (w 0x08 (d := 1) (a := 2) (b := 3), .icmpEq z 1 2 (.reg 3)), (w 0x08 (fn := 1) (d := 1) (a := 2) (b := 3), .icmpNe z 1 2 (.reg 3)),
    (w 0x08 (fn := 2) (d := 1) (a := 2) (x := 9) (m := 128), .icmpLt z 1 2 (.imm 9)),
    (w 0x08 (fn := 3) (d := 1) (a := 2) (b := 3), .icmpLe z 1 2 (.reg 3)), (w 0x08 (fn := 4) (d := 1) (a := 2) (b := 3), .icmpGt z 1 2 (.reg 3)),
    (w 0x08 (fn := 5) (d := 1) (a := 2) (b := 3), .icmpGe z 1 2 (.reg 3)), (w 0x08 (fn := 6) (d := 1) (a := 2) (b := 3), .icmpLtn z 1 2 (.reg 3)),
    (w 0x08 (fn := 7) (d := 1) (a := 2) (b := 3), .icmpLen z 1 2 (.reg 3)), (w 0x08 (fn := 8) (d := 1) (a := 2) (b := 3), .icmpGtn z 1 2 (.reg 3)),
    (w 0x08 (fn := 9) (d := 1) (a := 2) (b := 3), .icmpGen z 1 2 (.reg 3)),
    (w 0x09 (d := 1) (a := 2) (b := 3), .plopAnd z 1 2 3), (w 0x09 (fn := 1) (d := 1) (a := 2) (b := 3), .plopOr z 1 2 3),
    (w 0x09 (fn := 2) (d := 1) (a := 2) (b := 3), .plopXor z 1 2 3), (w 0x09 (fn := 3) (d := 1) (a := 2) (b := 3), .plopAndn z 1 2 3),
    (w 0x09 (fn := 4) (d := 1) (a := 2), .plopNot z 1 2), (w 0x09 (fn := 5) (d := 1) (a := 2), .plopMov z 1 2)] = true := by decide +kernel

/-- Table 10.7: moves and integers. -/
theorem test_decode_integer : decodes [
    (w 0x0A (d := 1) (a := 2) (b := 3) (x := 12), .sel z 1 2 3 4 true), (w 0x0B (d := 1) (a := 383), .movReg z 1 383),
    (w 0x0B (fn := 1) (d := 1) (x := 0x80000000), .movImm z 1 0x80000000), (w 0x0B (fn := 2) (d := 1) (a := 389) (m := 1), .movS2V z 1 5 true),
    (w 0x0B (fn := 3) (d := 389) (a := 1), .movV2S z 5 1 false), (w 0x0C (d := 7) (a := 448), .sregRead z (.v 7) .lane),
    (w 0x0C (fn := 1) (d := 454) (a := 389), .sregWrite z .migr (.s 5)),
    (w 0x10 (d := 1) (a := 2) (b := 3), .iaddAdd z 1 2 (.reg 3)), (w 0x10 (fn := 1) (d := 1) (a := 2) (b := 3), .iaddSub z 1 2 (.reg 3)),
    (w 0x10 (fn := 2) (d := 1) (a := 2) (b := 3) (ty := 1), .iaddAddsat z 1 2 (.reg 3) true),
    (w 0x10 (fn := 3) (d := 1) (a := 2) (b := 3), .iaddSubsat z 1 2 (.reg 3) false), (w 0x10 (fn := 4) (d := 1) (a := 2), .iaddNeg z 1 2),
    (w 0x11 (d := 1) (a := 2) (b := 3), .imulLo z 1 2 (.reg 3)), (w 0x11 (fn := 1) (d := 1) (a := 2) (b := 3), .imulHis z 1 2 (.reg 3)),
    (w 0x11 (fn := 2) (d := 1) (a := 2) (b := 3), .imulHin z 1 2 (.reg 3)),
    (w 0x11 (fn := 3) (d := 1) (a := 2) (b := 3) (x := 389), .imulMad z 1 2 3 (.s 5)),
    (w 0x12 (d := 1) (a := 2) (b := 3), .logicAnd z 1 2 (.reg 3)), (w 0x12 (fn := 1) (d := 1) (a := 2) (b := 3), .logicOr z 1 2 (.reg 3)),
    (w 0x12 (fn := 2) (d := 1) (a := 2) (b := 3), .logicXor z 1 2 (.reg 3)), (w 0x12 (fn := 3) (d := 1) (a := 2) (b := 3), .logicAndn z 1 2 (.reg 3)),
    (w 0x12 (fn := 4) (d := 1) (a := 2), .logicNot z 1 2),
    (w 0x13 (d := 1) (a := 2) (b := 3), .shiftShl z 1 2 (.reg 3)), (w 0x13 (fn := 1) (d := 1) (a := 2) (b := 3), .shiftShr z 1 2 (.reg 3)),
    (w 0x13 (fn := 2) (d := 1) (a := 2) (b := 3), .shiftSar z 1 2 (.reg 3)), (w 0x13 (fn := 3) (d := 1) (a := 2) (b := 3), .shiftRol z 1 2 (.reg 3)),
    (w 0x14 (d := 1) (a := 2) (b := 3), .bitfBfe z 1 2 (.reg 3)), (w 0x14 (fn := 1) (d := 1) (a := 2) (x := 0x804) (m := 128), .bitfBfen z 1 2 (.imm 0x804)),
    (w 0x14 (fn := 2) (d := 1) (a := 2) (b := 3) (x := 4), .bitfBfi z 1 2 3 (.v 4)),
    (w 0x15 (d := 1) (a := 2), .bitcPopc z 1 2), (w 0x15 (fn := 1) (d := 1) (a := 2), .bitcClz z 1 2),
    (w 0x15 (fn := 2) (d := 1) (a := 2), .bitcCtz z 1 2), (w 0x15 (fn := 3) (d := 1) (a := 2), .bitcBrev z 1 2),
    (w 0x16 (d := 1) (a := 2) (b := 3), .iminmaxMin z 1 2 (.reg 3)), (w 0x16 (fn := 1) (d := 1) (a := 2) (b := 3), .iminmaxMax z 1 2 (.reg 3)),
    (w 0x16 (fn := 2) (d := 1) (a := 2) (b := 3), .iminmaxMinn z 1 2 (.reg 3)), (w 0x16 (fn := 3) (d := 1) (a := 2) (b := 3), .iminmaxMaxn z 1 2 (.reg 3)),
    (w 0x17 (d := 1) (a := 2) (b := 3), .idivDivn z 1 2 (.reg 3)), (w 0x17 (fn := 1) (d := 1) (a := 2) (b := 3), .idivRemn z 1 2 (.reg 3)),
    (w 0x17 (fn := 2) (d := 1) (a := 2) (b := 3), .idivDivs z 1 2 (.reg 3)), (w 0x17 (fn := 3) (d := 1) (a := 2) (b := 3), .idivRems z 1 2 (.reg 3)),
    (w 0x18 (d := 1) (a := 2) (b := 3) (x := 31), .lea z 1 2 3 31)] = true := by decide +kernel

/-- Table 10.7: scalars. -/
theorem test_decode_scalar : decodes ((([
    (0, Instr.saluAdd z 0 1 (.reg 2)), (1, .saluSub z 0 1 (.reg 2)), (2, .saluMul z 0 1 (.reg 2)), (3, .saluAnd z 0 1 (.reg 2)),
    (4, .saluOr z 0 1 (.reg 2)), (5, .saluXor z 0 1 (.reg 2)), (6, .saluShl z 0 1 (.reg 2)), (7, .saluShr z 0 1 (.reg 2)),
    (8, .saluSar z 0 1 (.reg 2)), (9, .saluMin z 0 1 (.reg 2) false), (10, .saluMax z 0 1 (.reg 2) false)] : List (Nat × Instr)).map
      fun p => (w 0x20 (fn := p.1) (d := 384) (a := 385) (b := 386), p.2)) ++ [
    (w 0x20 (fn := 9) (d := 384) (a := 385) (b := 386) (ty := 1), .saluMin z 0 1 (.reg 2) true),
    (w 0x21 (d := 3) (a := 385) (x := 5) (m := 0x86), .scmp z .ltn 3 1 (.imm 5)),
    (w 0x22 (d := 386) (a := 388) (b := 390), .addr z 2 4 (.reg 6)),
    (w 0x23 (fn := 1) (d := 447) (x := 0xDEAD), .smoviHi z 63 0xDEAD)]) = true := by decide +kernel

/-- Table 10.8. -/
theorem test_decode_float : decodes [
    (w 0x40 (d := 1) (a := 2) (b := 3) (m := 1), .farithAdd z .rtz 1 2 (.reg 3)), (w 0x40 (fn := 1) (d := 1) (a := 2) (b := 3), .farithSub z .rne 1 2 (.reg 3)),
    (w 0x40 (fn := 2) (d := 1) (a := 2) (x := 0x3F800000) (m := 0x82), .farithMul z .rdn 1 2 (.imm 0x3F800000)),
    (w 0x41 (d := 1) (a := 2) (b := 3) (x := 4) (m := 3), .ffmaFma z .rup 1 2 3 (.v 4)), (w 0x41 (fn := 1) (d := 1) (a := 2) (b := 3) (x := 4), .ffmaFms z .rne 1 2 3 (.v 4)),
    (w 0x41 (fn := 2) (d := 1) (a := 2) (b := 3) (x := 384), .ffmaFnma z .rne 1 2 3 (.s 0)), (w 0x41 (fn := 3) (d := 1) (a := 2) (b := 3) (x := 4), .ffmaFnms z .rne 1 2 3 (.v 4)),
    (w 0x42 (d := 1) (a := 2) (b := 3), .fminmaxMin z .f32 1 2 (.reg 3)), (w 0x42 (d := 2) (a := 4) (b := 6) (ty := 1) (m := 1), .fminmaxMax z .f64 2 4 (.reg 6)),
    (w 0x43 (d := 1) (a := 2) (b := 3), .fcmpEq z .f32 1 2 (.reg 3)), (w 0x43 (fn := 1) (d := 1) (a := 2) (b := 3), .fcmpNe z .f32 1 2 (.reg 3)),
    (w 0x43 (fn := 2) (d := 1) (a := 2) (b := 4) (ty := 1), .fcmpLt z .f64 1 2 (.reg 4)), (w 0x43 (fn := 3) (d := 1) (a := 2) (b := 3), .fcmpLe z .f32 1 2 (.reg 3)),
    (w 0x43 (fn := 4) (d := 1) (a := 2) (b := 3), .fcmpGt z .f32 1 2 (.reg 3)), (w 0x43 (fn := 5) (d := 1) (a := 2) (b := 3), .fcmpGe z .f32 1 2 (.reg 3)),
    (w 0x43 (fn := 6) (d := 1) (a := 2) (b := 3), .fcmpUnord z .f32 1 2 (.reg 3)), (w 0x43 (fn := 7) (d := 1) (a := 2) (b := 3), .fcmpOrd z .f32 1 2 (.reg 3)),
    (w 0x44 (d := 1) (a := 2), .fsignAbs z .f32 1 2), (w 0x44 (fn := 1) (d := 2) (a := 4) (ty := 1), .fsignNeg z .f64 2 4),
    (w 0x44 (fn := 2) (d := 1) (a := 2) (b := 3), .fsignCopysign z .f32 1 2 3),
    (w 0x45 (d := 2) (a := 4) (b := 6), .darithDadd z .rne 2 4 6), (w 0x45 (fn := 1) (d := 2) (a := 4) (b := 6), .darithDsub z .rne 2 4 6),
    (w 0x45 (fn := 2) (d := 2) (a := 4) (b := 6), .darithDmul z .rne 2 4 6), (w 0x45 (fn := 3) (d := 2) (a := 4) (b := 6) (x := 8), .darithDfma z .rne 2 4 6 (.v 8)),
    (w 0x46 (d := 1) (a := 2) (b := 3) (ty := 1), .harith2Hadd2 z .rne .bf16 1 2 3), (w 0x46 (fn := 1) (d := 1) (a := 2) (b := 3), .harith2Hmul2 z .rne .f16 1 2 3),
    (w 0x46 (fn := 2) (d := 1) (a := 2) (b := 3) (x := 4), .harith2Hfma2 z .rne .f16 1 2 3 (.v 4)),
    (w 0x47 (fn := 12) (d := 1) (a := 2) (m := 0xA4) (ty := 3), .cvt z .e4m3 .f32 true .rne 3 1 2),
    (w 0x48 (d := 1) (a := 2) (ty := 1), .fkey z .f16 1 2), (w 0x48 (fn := 1) (d := 2) (a := 4) (ty := 2), .fkeyInv z .f64 2 4),
    (w 0x49 (d := 1) (a := 2) (b := 3) (x := 4), .dotDot4i8 z 1 2 3 (.v 4)), (w 0x49 (fn := 1) (d := 1) (a := 2) (b := 3) (x := 4) (m := 1), .dotDot4e4m3 z .rtz 1 2 3 (.v 4)),
    (w 0x49 (fn := 2) (d := 1) (a := 2) (b := 3) (x := 4), .dotDot8i4 z 1 2 3 (.v 4)),
    (w 0x4B (d := 2) (a := 4) (ty := 1) (m := 2), .frnd z .f64 .rdn 2 4)] = true := by decide +kernel

/-- Tables 10.8 and 10.9: special functions and lane exchange. -/
theorem test_decode_lanes : decodes ((([
    (0, Instr.sfuExp2 z 1 2), (1, .sfuLog2 z 1 2), (2, .sfuRcp z 1 2), (3, .sfuRsq z 1 2), (4, .sfuSqrt z 1 2), (5, .sfuSin z 1 2),
    (6, .sfuCos z 1 2), (7, .sfuTanh z 1 2)] : List (Nat × Instr)).map fun p => (w 0x4A (fn := p.1) (d := 1) (a := 2), p.2)) ++ (([
    (0, Instr.zipZip2 z 4 8), (1, .zipZip3 z 4 8), (2, .zipZip4 z 4 8), (3, .zipUnzip2 z 4 8), (4, .zipUnzip3 z 4 8),
    (5, .zipUnzip4 z 4 8)] : List (Nat × Instr)).map fun p => (w 0x52 (fn := p.1) (d := 4) (a := 8), p.2)) ++ [
    (w 0x50 (d := 1) (a := 2) (b := 3) (x := 0x1000), .shflIdx z 1 2 (.reg 3) ⟨none, false, 0⟩),
    (w 0x50 (fn := 1) (d := 1) (a := 2) (x := 0x3052005) (m := 128), .shflUp z 1 2 (.imm 5) ⟨some (.v 5), true, 3⟩),
    (w 0x50 (fn := 2) (d := 1) (a := 2) (b := 3) (x := 389), .shflDown z 1 2 (.reg 3) ⟨some (.s 5), false, 0⟩),
    (w 0x50 (fn := 3) (d := 1) (a := 2) (b := 3) (x := 0x1000), .shflXor z 1 2 (.reg 3) ⟨none, false, 0⟩),
    (w 0x51 (d := 1) (a := 2) (x := 0x1000), .voteAny z 1 2 ⟨none, false, 0⟩), (w 0x51 (fn := 1) (d := 1) (a := 2) (x := 0x1000), .voteAll z 1 2 ⟨none, false, 0⟩),
    (w 0x51 (fn := 2) (d := 9) (a := 2) (x := 0x1000), .voteBallot z 9 2 ⟨none, false, 0⟩),
    (w 0x51 (fn := 3) (d := 1) (a := 9) (x := 0x1000), .voteUni z 1 9 ⟨none, false, 0⟩),
    (w 0x53 (d := 1) (a := 2) (b := 389) (x := 0x1000), .sample z 1 2 5 ⟨none, false, 0⟩), (w 0x54 (d := 1), .rngU32 z 1),
    (w 0x54 (fn := 1) (d := 1), .rngUnif z 1), (w 0x55 (d := 1) (a := 2) (x := 0x1000), .bandredIadd z 1 2 ⟨none, false, 0⟩),
    (w 0x55 (fn := 1) (d := 1) (a := 2) (x := 0x1000), .bandredFadd z 1 2 ⟨none, false, 0⟩),
    (w 0x55 (fn := 2) (d := 1) (a := 2) (x := 0x1000) (ty := 1), .bandredMin z .n32 1 2 ⟨none, false, 0⟩),
    (w 0x55 (fn := 3) (d := 1) (a := 2) (x := 0x1000) (ty := 2), .bandredMax z .f32 1 2 ⟨none, false, 0⟩)]) = true := by decide +kernel

/-- Tables 10.11 and 10.12: memory. -/
theorem test_decode_memory : decodes ((([
    (0, Instr.atomAdd z false false 2 ⟨.w, .ar, .sys, 4, 1⟩ (.v 6)), (1, .atomMin z false false 2 ⟨.w, .ar, .sys, 4, 1⟩ (.v 6)),
    (2, .atomMax z false false 2 ⟨.w, .ar, .sys, 4, 1⟩ (.v 6)), (3, .atomAnd z false false 2 ⟨.w, .ar, .sys, 4, 1⟩ (.v 6)),
    (4, .atomOr z false false 2 ⟨.w, .ar, .sys, 4, 1⟩ (.v 6)), (5, .atomXor z false false 2 ⟨.w, .ar, .sys, 4, 1⟩ (.v 6)),
    (6, .atomSwap z false false 2 ⟨.w, .ar, .sys, 4, 1⟩ (.v 6)),
    (7, .atomCas z false false 2 ⟨.w, .ar, .sys, 4, 1⟩ (.v 6))] : List (Nat × Instr)).map
      fun p => (w 0x84 (fn := p.1) (d := 2) (a := 388) (b := 1) (m := 0x4D) (x := 0x806), p.2)) ++ [
    (w 0x80 (d := 8) (a := 388) (b := 1) (m := 0x36) (x := 0xC00), .ld z .b128 8 ⟨.l, .acq, .part, 4, 1⟩),
    (w 0x81 (d := 2) (a := 388) (b := 1) (m := 0x1A) (x := 0x600), .st z .i16 2 ⟨.l, .rel, .crew, 4, 1⟩),
    (w 0x82 (d := 390) (a := 388) (m := 1) (x := 0xA00), .lds z .w64 6 .w .none .team 4),
    (w 0x84 (fn := 8) (d := 2) (a := 388) (b := 1) (ty := 2) (m := 1) (x := 0xA08), .atomFadd z true 2 ⟨.w, .none, .team, 4, 1⟩ (.v 8)),
    (w 0x85 (a := 388) (b := 1) (ty := 1) (m := 1) (x := 0x2806), .red z .max false true ⟨.w, .none, .team, 4, 1⟩ (.v 6)),
    (w 0x86 (m := 0x18), .fence z .rel .crew), (w 0x88 (d := 1) (a := 2), .tagTagq z 1 2), (w 0x88 (fn := 1) (d := 1) (a := 2) (b := 3), .tagTagset z 1 2 3),
    (w 0x88 (fn := 2) (d := 1) (a := 2), .tagTagclr z 1 2)]) = true := by decide +kernel

/-- Tables 10.11 and 13.2: copies, batches, barriers, the Spindle and the mesh. -/
theorem test_decode_engines : decodes [
    (w 0x89 (d := 388) (a := 390) (b := 392), .hcopyCopy z .g .g 4 6 8 none),
    (w 0x89 (d := 389) (a := 391) (b := 393) (x := 0x185 + 0x400) (m := 0x15), .hcopyCopy z .w .w 5 7 9 (some ⟨5, true, true⟩)),
    (w 0x89 (fn := 1) (d := 389) (a := 390) (b := 393) (x := 3 * 2 ^ 11 + 100 * 2 ^ 14) (m := 0x1), .hcopyPlane z .w .g 5 6 9 none .i8 100),
    (w 0x89 (fn := 2) (d := 389) (a := 390) (b := 393) (x := 1 * 2 ^ 11 + 9 * 2 ^ 12 + 7 * 2 ^ 16) (m := 0x1),
      .hcopySplit z .w .g 5 6 9 none true 9 7),
    (w 0x89 (fn := 3) (d := 6) (a := 391) (b := 393) (x := 0x185 + 0x200) (m := 0x14), .hcopyMask z .w 6 7 9 (some ⟨5, false, true⟩)),
    (w 0x89 (fn := 4) (d := 389) (a := 391) (b := 393) (x := 2 * 2 ^ 11) (m := 0x9), .hcopyGather z .w .l 5 7 9 none 2),
    (w 0x8A (d := 389), .bseal z 5), (w 0x8A (fn := 1) (b := 389), .bwait z (.reg 5)), (w 0x8A (fn := 1) (x := 9) (m := 128), .bwait z (.imm 9)),
    (w 0x8B (a := 389) (x := 3) (m := 128), .barInit z 5 (.imm 3)), (w 0x8B (fn := 1) (d := 390) (a := 389), .barArrive z 6 5),
    (w 0x8B (fn := 2) (d := 390) (a := 389) (b := 391), .barArrivex z 6 5 (.reg 7)),
    (w 0x8B (fn := 3) (a := 389) (b := 391) (m := 1), .barExpect z true 5 (.reg 7)), (w 0x8B (fn := 4) (a := 389) (b := 391), .barWait z 5 (.reg 7)),
    (w 0x8B (fn := 5) (a := 389), .barWaitout z 5), (w 0x8B (fn := 6) (d := 3) (a := 389) (b := 391), .barTest z 3 5 (.reg 7)),
    (w 0x90 (d := 4) (a := 389) (b := 390) (x := 5 + 4 * 2 ^ 4 + 2 * 2 ^ 7 + 3 * 2 ^ 10 + 1 * 2 ^ 14 + 6 * 2 ^ 15),
      .mmp z 4 5 6 ⟨true, 6⟩ 3 .e4m3 .e4m3 5),
    (w 0x91 (d := 4) (a := 389) (b := 390) (x := 3 + 6 * 2 ^ 4 + 300 * 2 ^ 8), .mms z 4 5 6 300 6 3),
    (w 0x92 (d := 4) (ty := 1), .accZero z true 4), (w 0x92 (fn := 1) (d := 5) (a := 389), .accLoad z false 5 5),
    (w 0x92 (fn := 2) (d := 5) (a := 389) (b := 390) (x := 10) (m := 5), .accOut z false 5 5 6 ⟨false, 0⟩ 10 true .rtz),
    (w 0x92 (fn := 3) (d := 4) (a := 6) (ty := 1), .accMove z true 4 6), (w 0x92 (fn := 4) (d := 5) (a := 390), .accSpill z false 5 6),
    (w 0x93 (d := 389) (a := 3), .mqStat z 5 3), (w 0x93 (fn := 1) (a := 3), .mqFlush z 3), (w 0x98 (a := 389) (x := 15), .nredPush z 5 15),
    (w 0x98 (fn := 1) (a := 389) (x := 2) (m := 1), .nredWait z 5 2 true)] = true := by decide +kernel

/-- Table 10.13. -/
theorem test_decode_stream : decodes [
    (w 0xC0, .snop), (w 0xC0 (fn := 1), .shalt), (w 0xC1 (a := 3) (b := 4) (x := 0xFFFFFFFF) (m := 7), .sbr .len 3 4 0xFFFFFFFF),
    (w 0xC2 (x := 5), .scall 5), (w 0xC3, .sret), (w 0xC4, .sjoin), (w 0xC5 (d := 1) (a := 2) (b := 3) (m := 8), .kalu .sar 1 2 (.reg 3)),
    (w 0xC5 (d := 1) (a := 2) (x := 9) (m := 0x80), .kalu .add 1 2 (.imm 9)), (w 0xC6 (d := 1) (a := 2) (m := 5), .kread 1 1 2 true),
    (w 0xC7 (a := 2) (b := 3), .areaRead 2 3), (w 0xC7 (fn := 1) (a := 2) (b := 3), .areaWrite 2 3), (w 0xC8 (d := 255) (x := 11), .bdecl 255 11),
    (w 0xC9 (d := 255), .bdrop 255), (w 0xD0 (d := 1) (b := 3) (x := 8) (m := 0x17), .launch 3 (some 1) none (some 3) 8),
    (w 0xD1 (d := 1) (a := 2) (b := 3) (x := 8) (m := 8), .mmt 0 false true 1 2 3 8), (w 0xD2 (d := 1) (a := 2) (b := 3) (x := 8) (m := 4), .smmt 0 true false 1 2 3 8),
    (w 0xD3 (d := 1) (x := 8) (m := 0xE), .copyt 2 true (some 1) none 8), (w 0xD4 (a := 2) (x := 15), .redt 0 2 15),
    (w 0xD5 (d := 1) (a := 2) (x := 8), .maskgen 0 1 2 8), (w 0xD6 (d := 1) (a := 2) (b := 3) (x := 8), .kvcompact 0 1 2 3 8),
    (w 0xE0 (x := 8), .sopen 0 8), (w 0xE1 (d := 1) (a := 2) (b := 3) (x := 8) (m := 0xC), .srule 0 true 1 2 (some 3) 8),
    (w 0xE2 (d := 1) (a := 2) (b := 3) (x := 8), .saccept 0 false 1 2 3 8), (w 0xE3 (a := 2) (x := 8), .skv 0 2 8), (w 0xE4 (x := 8), .spublish 0 8),
    (w 0xE5 (x := 8) (m := 1), .sclose 1 8), (w 0xE6 (d := 3) (x := 8), .scount 0 3 8), (w 0xE8 (a := 2) (x := 4 * 2 ^ 4 + 15), .qsend 0 2 4 15),
    (w 0xE9 (d := 2) (x := 0x1F), .qrecv 0 2 true 15), (w 0xF0 (a := 2) (b := 3) (m := 4), .ssignal 0 2 3 true),
    (w 0xF1 (a := 2) (x := 8) (m := 0x10), .swait 0 .ge false 2 8), (w 0xF2 (b := 3) (x := 1), .smode 3 true)] = true := by decide +kernel

def stops (x : Except Nat Instr) (code : Nat) : Bool :=
  match x with
  | .error n => n == code
  | .ok _ => false

def reads (x : Except Nat Instr) (i : Instr) : Bool :=
  match x with
  | .error _ => false
  | .ok j => j == i

/-- What is no instruction: an OP or FN that is not listed (0x0101), a reserved bit or value (0x0102), a stream opcode on a core (0x0105), a core
opcode that the front stage decodes, and the word of all zeros there (R201, R47). -/
theorem test_decode_faults :
    decode (w 0x0F) = .illegalOpcode ∧ decode (w 0x00 (fn := 2)) = .illegalOpcode ∧ decode (w 0x47 (fn := 14)) = .illegalOpcode ∧
    decode (w 0x00 (x := 1)) = .reservedField ∧ decode (w 0x00 (g := 8)) = .reservedField ∧ decode (w 0x00 (h := 0x40)) = .reservedField ∧
    decode (w 0x10 (d := 384) (a := 1) (b := 2)) = .reservedField ∧ decode (w 0x85 (a := 388) (b := 1) (m := 1) (x := 0x6806)) = .reservedField ∧
    stops (coreDecode (w 0xC4)) 0x0105 = true ∧ stops (coreDecode (w 0x0F)) 0x0101 = true ∧ stops (coreDecode (w 0x00 (x := 1))) 0x0102 = true ∧
    reads (streamDecode 0) .snop = true ∧ stops (streamDecode (w 0xC4 (h := 1))) 0x0102 = true := by decide +kernel

/-! ### Ill-formed terms: one for each check -/

def lx0 : LX := ⟨none, false, 0⟩

theorem test_ill_formed : ([
    .nop ⟨8, 0, 0⟩, .nop ⟨0, 1, 0⟩, .nop ⟨0, 0, 1⟩, .nop ⟨0, 0, 0x40⟩, .iaddAdd ⟨0, 2, 0⟩ 1 2 (.imm 3), .iaddNeg ⟨0, 4, 0⟩ 1 2,
    .brx z 5 1, .callIndirect z 5 1, .sregRead z (.v 1) .cycles, .sregRead z (.s 1) .lane, .sregWrite z .lane (.v 1),
    .addr z 3 4 (.reg 6), .addr z 4 3 (.reg 6), .fminmaxMin z .f64 2 4 (.imm 1), .fminmaxMax z .f64 3 4 (.reg 6), .fcmpEq z .f64 1 3 (.reg 4),
    .fcmpOrd z .f64 1 2 (.imm 4), .fsignAbs z .f64 1 2, .frnd z .f64 .rne 2 3, .fsignCopysign z .f64 2 4 5, .darithDadd z .rne 1 2 4,
    .darithDfma z .rne 2 4 6 (.v 7), .cvt z .f32 .f32 false .rne 0 1 2, .cvt z .i32 .f32 true .rne 0 1 2, .cvt z .f32 .i32 false .rne 1 1 2,
    .cvt z .f32 .f16 false .rne 2 1 2, .cvt z .f64 .f32 false .rne 0 1 2, .fkey z .f64 1 2, .shflIdx z 1 2 (.reg 3) ⟨none, true, 0⟩,
    .voteAll z 1 2 ⟨none, true, 0⟩, .sample z 1 2 3 ⟨none, true, 0⟩, .bandredMin z .i32 1 2 ⟨none, true, 0⟩,
    .ld z .b128 2 ⟨.w, .none, .team, 4, 1⟩, .ld z .w32 2 ⟨.g, .none, .team, 5, 1⟩, .ld z .w32 2 ⟨.w, .rel, .team, 4, 1⟩,
    .ld z .w32 2 ⟨.w, .none, .crew, 4, 1⟩, .st z .w32 2 ⟨.w, .acq, .team, 4, 1⟩, .lds z .b128 4 .w .none .team 4, .lds z .w32 4 .g .none .team 5,
    .atomAdd z true false 3 ⟨.w, .none, .team, 4, 1⟩ (.v 6), .atomAdd z true false 2 ⟨.w, .none, .team, 4, 1⟩ (.v 7),
    .atomCas z false false 2 ⟨.w, .none, .team, 4, 1⟩ (.v 383), .atomCas z true false 2 ⟨.w, .none, .team, 4, 1⟩ (.s 63),
    .red z .fadd false true ⟨.w, .none, .team, 4, 1⟩ (.v 6), .hcopyCopy z .g .w 5 6 8 none, .hcopyCopy z .w .w 5 6 8 (some ⟨1, false, false⟩),
    .hcopyPlane z .g .w 4 6 8 none .i8 100, .hcopySplit z .w .g 4 7 8 none false 1 1, .hcopyMask z .g 1 7 8 none,
    .hcopyGather z .g .w 4 6 8 none 0, .mms z 3 4 5 1 2 1, .accZero z true 3, .accMove z true 2 3, .accSpill z false 2 5, .kread 0 1 3 false,
    .areaWrite 3 4, .redt 0 3 0, .ssignal 0 3 4 false, .swait 0 .eq false 3 4, .bdecl 0 12] : List Instr).all (fun i => !i.wellFormed) = true := by
  decide +kernel

/-- The same forms with their fields in order. -/
theorem test_well_formed : ([
    .nop ⟨9, 0, 0xB0⟩, .bra ⟨0, 0, 0x40⟩ 1, .iaddAdd ⟨0, 3, 0⟩ 1 2 (.reg 3), .brx z 4 1, .sregRead z (.s 1) .cycles, .sregWrite z .tvec (.v 1),
    .addr z 2 4 (.imm 6), .fminmaxMin z .f64 2 4 (.reg 6), .cvt z .e4m3 .f32 true .rne 3 1 2, .cvt z .f64 .f32 false .rne 0 2 1,
    .shflIdx z 1 2 (.reg 3) ⟨some (.v 4), true, 7⟩, .ld z .b256 8 ⟨.g, .acq, .sys, 4, 1⟩, .atomCas z true false 2 ⟨.w, .ar, .team, 4, 1⟩ (.v 380),
    .hcopyCopy z .g .w 4 5 8 (some ⟨1, true, false⟩), .mms z 2 4 5 1 4 1, .kread 0 1 2 true, .bdecl 0 11] : List Instr).all Instr.wellFormed = true := by
  decide +kernel

/-! ### One step of one instruction, against the spec's own numbers -/

/-- The placed team of 32 lanes about to issue i, with the changes f to the team, g to the crew and h to the rest. -/
def at_ (i : Instr) (f : Team → Team := id) (g : Crew → Crew := id) (h : State → State := id) : State :=
  let s := State.reset.withFetchWord 96 (encode i).toNat
  h { s with
    teams := [(0, f (placedTeam (encode i).toNat))], crews := [(0, g placedCrew)], cur := some 0, agenda := [] }

/-- The state after i, and its team. -/
def next (i : Instr) (s : State) : State :=
  match exec i s with
  | .next s' => s'
  | _ => State.reset

def team (s : State) : Team := (s.teams.get? 0).getD (placedTeam 0)

/-- A team whose lane 0 holds a in v2 and b in v3, and its lane 1 the other way round. -/
def ab (a b : Word) (t : Team) : Team := { t with vregs := [(2048, a), (2049, b), (3072, b), (3073, a)] }

/-- v1 of lane 0 after a form on v2 and v3. -/
def v1 (i : Instr) (a b : Word) : Word := (team (next i (at_ i (ab a b)))).v 1 0

/-- p1 of lane 0. -/
def p1 (i : Instr) (a b : Word) : Bool := ((team (next i (at_ i (ab a b)))).p 1).getLsbD 0

/-- The code of the trap that i takes, 0 where it takes none: in a handler the double fault keeps it as its detail (R353). -/
def trapOf (i : Instr) (s : State) : Nat :=
  match gate s i with
  | .trap _ tr => tr.code
  | _ => match ((next i s).entryOf 0 0).map WinEntry.status with
    | some (.faulted f) => f.detail
    | _ => 0

/-- R228 to R230: the sum wraps, saturation clamps, the high word of the two products. -/
theorem test_integer_arithmetic :
    v1 (.iaddAdd z 1 2 (.reg 3)) 0xFFFFFFFF 2 = 1 ∧ v1 (.iaddSub z 1 2 (.imm 5)) 3 0 = 0xFFFFFFFE ∧
    v1 (.iaddAddsat z 1 2 (.reg 3) false) 0x7FFFFFFF 1 = 0x7FFFFFFF ∧ v1 (.iaddSubsat z 1 2 (.reg 3) true) 1 2 = 0 ∧
    v1 (.imulHis z 1 2 (.reg 3)) 0xFFFFFFFF 0xFFFFFFFF = 0 ∧ v1 (.imulHin z 1 2 (.reg 3)) 0xFFFFFFFF 0xFFFFFFFF = 0xFFFFFFFE ∧
    v1 (.logicAndn z 1 2 (.reg 3)) 0xFF 0x0F = 0xF0 ∧ v1 (.lea z 1 2 3 31) 1 3 = 0x80000001 := by decide +kernel

/-- R231 and R232, with the example of R232. -/
theorem test_shifts_and_fields :
    v1 (.shiftShl z 1 2 (.reg 3)) 1 32 = 0 ∧ v1 (.shiftSar z 1 2 (.reg 3)) 0x80000000 33 = 0xFFFFFFFF ∧
    v1 (.shiftRol z 1 2 (.reg 3)) 0x80000001 33 = 3 ∧
    v1 (.bitfBfe z 1 2 (.imm 0x804)) 0xF70 0 = 0xFFFFFFF7 ∧ v1 (.bitfBfen z 1 2 (.imm 0x804)) 0xF70 0 = 0xF7 ∧
    (let i := Instr.bitfBfi z 1 2 3 (.v 4)
     (team (next i (at_ i fun t => { t with vregs := [(2048, 3), (3072, 0x804), (4096, 0xFFFFFFFF)] }))).v 1 0) = 0xFFFFF03F := by
  decide +kernel

/-- R235: division by zero, and the quotient that does not fit. -/
theorem test_division :
    v1 (.idivDivs z 1 2 (.reg 3)) 0x80000000 0xFFFFFFFF = 0x80000000 ∧ v1 (.idivRems z 1 2 (.reg 3)) 0x80000000 0xFFFFFFFF = 0 ∧
    v1 (.idivDivn z 1 2 (.reg 3)) 7 0 = 0xFFFFFFFF ∧ v1 (.idivRemn z 1 2 (.reg 3)) 7 0 = 7 ∧
    v1 (.idivRems z 1 2 (.reg 3)) 0xFFFFFFF9 2 = 0xFFFFFFFF := by decide +kernel

/-- R224: the same bits, signed and not. -/
theorem test_compares :
    p1 (.icmpLt z 1 2 (.reg 3)) 0xFFFFFFFF 1 = true ∧ p1 (.icmpLtn z 1 2 (.reg 3)) 0xFFFFFFFF 1 = false ∧
    p1 (.icmpGe z 1 2 (.imm 0xFFFFFFFF)) 0 0 = true ∧ p1 (.icmpGen z 1 2 (.imm 0xFFFFFFFF)) 0 0 = false ∧
    p1 (.fcmpNe z .f32 1 2 (.reg 3)) 0x7FC00000 0x7FC00000 = true ∧ p1 (.fcmpEq z .f32 1 2 (.reg 3)) 0x80000000 0 = true := by decide +kernel

/-- R192 and R6: lanes without a true guard keep their registers, and a source that is the destination is read first. -/
theorem test_guard :
    (let i := Instr.iaddAdd ⟨1, 0, 0⟩ 2 2 (.reg 3)
     let t := team (next i (at_ i fun t => { ab 5 7 t with preds := [(1, 1)] }))
     t.v 2 0 = 12 ∧ t.v 2 1 = 7) ∧
    (let i := Instr.iaddAdd ⟨9, 0, 0⟩ 2 2 (.reg 3)
     let t := team (next i (at_ i fun t => { ab 5 7 t with preds := [(1, 1)] }))
     t.v 2 0 = 5 ∧ t.v 2 1 = 12) := by decide +kernel

/-- R237 to R240: a shift of 64, the sign-extended immediate, the address modulo 2^80. -/
theorem test_scalars :
    (let i := Instr.saluShl z 1 2 (.imm 64)
     (team (next i (at_ i fun t => { t with sregs := [(2, 1)] }))).s 1 = 0) ∧
    (let i := Instr.saluAdd z 1 2 (.imm 0xFFFFFFFF)
     (team (next i (at_ i fun t => { t with sregs := [(2, 1)] }))).s 1 = 0) ∧
    (let i := Instr.addr z 2 4 (.imm 0xFFFFFFFF)
     let t := team (next i (at_ i))
     t.s 2 = 0xFFFFFFFFFFFFFFFF ∧ t.s 3 = 0xFFFF) ∧
    (let i := Instr.smoviHi z 1 7
     (team (next i (at_ i fun t => { t with sregs := [(1, 9)] }))).s 1 = 0x700000009) := by decide +kernel

/-- R73, R77 and R243: 1 + 2^−24 in the four modes; signed zeros; a NaN operand. -/
theorem test_float :
    v1 (.farithAdd z .rne 1 2 (.reg 3)) 0x3F800000 0x33800000 = 0x3F800000 ∧
    v1 (.farithAdd z .rup 1 2 (.reg 3)) 0x3F800000 0x33800000 = 0x3F800001 ∧
    v1 (.farithSub z .rdn 1 2 (.reg 3)) 0x3F800000 0x3F800000 = 0x80000000 ∧
    v1 (.farithMul z .rtz 1 2 (.reg 3)) 0x7F7FFFFF 0x40000000 = 0x7F7FFFFF ∧
    v1 (.farithAdd z .rne 1 2 (.reg 3)) 0x7F800000 0xFF800000 = 0x7FC00000 ∧
    v1 (.fminmaxMin z .f32 1 2 (.reg 3)) 0 0x80000000 = 0x80000000 ∧ v1 (.fminmaxMax z .f32 1 2 (.reg 3)) 0x7FC00001 3 = 3 := by decide +kernel

/-- R76, R252 and Table 12.2. -/
theorem test_conversions :
    v1 (.cvt z .i8 .f32 false .rne 0 1 2) 0x43960000 0 = 127 ∧ v1 (.cvt z .i32 .f32 false .rne 0 1 2) 0x7FC00000 0 = 0 ∧
    v1 (.cvt z .i32 .f32 false .rdn 0 1 2) 0xBF000000 0 = 0xFFFFFFFF ∧ v1 (.cvt z .f16 .f32 false .rne 1 1 2) 0x3F800000 0 = 0x3C000000 ∧
    v1 (.fkey z .f16 1 2) 0xBC00 0 = 0x43FF := by decide +kernel

/-- R259, R260 and R261 over the 32 lanes of a band; lane l holds 2l. -/
theorem test_lane_exchange :
    (let two := fun (t : Team) => { t with vregs := (List.range 32).map fun l => (2048 + l, BitVec.ofNat 32 (2 * l)) }
     let run := fun i => team (next i (at_ i two))
     (run (.shflUp z 1 2 (.imm 3) lx0)).v 1 5 = 4 ∧ (run (.shflUp z 1 2 (.imm 3) lx0)).v 1 2 = 4 ∧
     (run (.shflXor z 1 2 (.imm 1) lx0)).v 1 6 = 14 ∧ (run (.shflIdx z 1 2 (.imm 31) lx0)).v 1 0 = 62 ∧
     (run (.bandredIadd z 1 2 lx0)).v 1 9 = 992 ∧ (run (.bandredMax z .n32 1 2 lx0)).v 1 0 = 62 ∧
     (run (.voteBallot ⟨0, 0, 0⟩ 1 0 lx0)).v 1 0 = 0xFFFFFFFF ∧ ((run (.voteUni z 1 2 lx0)).p 1).getLsbD 3 = false) := by decide +kernel

/-- R264 at counter and key zero: the first word that the published vectors of this function give. -/
theorem test_philox : (Philox.rounds 10 ⟨0, 0, 0, 0⟩ 0 0).c0 = 0x6627E8D5 := by decide +kernel

/-- A crew with a window of 4 KiB. -/
def windowed (m : Memory := []) (c : Crew) : Crew := { c with winBytes := 4096, window := m }

/-- R2, R269 and R270: a store is little-endian, of its width, and the highest lane wins. -/
theorem test_store :
    (let i := Instr.st z .n16 2 ⟨.w, .none, .team, 0, 4⟩
     let s := next i (at_ i (fun t => { t with vregs := (List.range 32).map fun l => (2048 + l, BitVec.ofNat 32 (0xAB0000 + 256 * l + 7)) })
       (windowed [(2, 9)]))
     (s.memOf (.window 0)).read 0 4 = 0x91F07) := by decide +kernel

/-- R269: a load answers at once into its producer, and sign-extends when it arrives. -/
theorem test_load :
    (let i := Instr.ld z .i8 1 ⟨.w, .none, .team, 0, 4⟩
     let s := next i (at_ i id (windowed [(0, 0x80)]))
     let t := team s
     (t.emptyV.getD 1 0).getLsbD 0 = true ∧ (team (next (.resultArrive 0 0 0) s)).v 1 0 = 0xFFFFFF80) := by decide +kernel

/-- R272: 32 lanes add 1 to one word; the lanes read the sums in ascending order. -/
theorem test_atomic :
    (let i := Instr.red z .add false false ⟨.w, .none, .team, 0, 4⟩ (.v 2)
     ((next i (at_ i (fun t => { t with vregs := (List.range 32).map fun l => (2048 + l, 1) }) (windowed [(0, 10)]))).memOf (.window 0)).read 0 4
      = 42) := by decide +kernel

/-- R96: a misaligned access is 0x0303, and one past the window 0x0301; R26: a register beyond the allocation is 0x0202. -/
theorem test_memory_traps :
    (let i := Instr.ld z .w32 1 ⟨.w, .none, .team, 0, 4⟩
     trapOf i (at_ i (fun t => { t with sregs := [(0, 2)], handler := true }) (windowed [])) = 0x0303 ∧
     trapOf i (at_ i (fun t => { t with sregs := [(0, 4096)], handler := true }) (windowed [])) = 0x0301 ∧
     trapOf i (at_ i (fun t => { t with nregs := 4 }) (windowed [])) = 0x0202) := by decide +kernel

/-- R209, R212 and R213: a branch of −2 blocks, a call and its return. -/
theorem test_control :
    (let i := Instr.bra z 0xFFFFFFFE
     (team (next i (at_ i))).entries.map (fun e => (e.pc, e.mask)) = [(⟨0xF80, 0⟩, maskBelow 32)]) ∧
    (let i := Instr.callDirect z 4
     (team (next i (at_ i))).stack = [⟨⟨0x1000, 1⟩, maskBelow 32⟩]) ∧
    (let i := Instr.ret z
     let t := team (next i (at_ i fun t => { t with stack := [⟨⟨0x2000, 3⟩, maskBelow 32⟩] }))
     t.stack = [] ∧ t.entries.map (fun e => (e.pc, e.hold)) = [(⟨0x2000, 3⟩, .none)]) ∧
    (let i := Instr.exit z
     (team (next i (at_ i))).entries = []) := by decide +kernel

/-- R131 and R132: INIT of 2, then one arrival leaves 1 pending in phase 0, and the next completes it. -/
theorem test_barrier :
    (let i := Instr.barArrive z 1 0
     let s := at_ i id (windowed (Memory.write [] 0 16 ((2 : Nat) * 2 ^ 8 + 2 * 2 ^ 24)))
     let one := (next i s).crews.get? 0
     (one.map fun c => c.window.read 0 16) = some (1 * 2 ^ 8 + 2 * 2 ^ 24)) ∧
    (let i := Instr.barArrive z 1 0
     let s := at_ i id (windowed (Memory.write [] 0 16 ((1 : Nat) * 2 ^ 8 + 2 * 2 ^ 24)))
     ((next i s).crews.get? 0).map (fun c => c.window.read 0 16) = some (1 + 2 * 2 ^ 8 + 2 * 2 ^ 24)) := by decide +kernel

/-- Partition 0 with its front stage at i, and the changes f. -/
def front (i : Instr) (f : Part → Part := id) : State :=
  let s := State.reset.withFetchWord 96 (encode i).toNat
  { s.setPart 0 (f (s.part 0)) with curPart := some 0, agenda := [] }

def frontCode (i : Instr) (s : State) : Nat :=
  match ((next i s).part 0).ffault with
  | some f => f.code
  | none => 0

/-- R48, R49, R306, R309: the front stage's own instructions and their faults. -/
theorem test_front_stage :
    ((next (.kalu .sub 1 2 (.imm 0xFFFFFFFF)) (front (.kalu .sub 1 2 (.imm 0xFFFFFFFF)))).part 0).k.getD 1 0 = 1 ∧
    ((next (.sbr .lt 1 2 3) (front (.sbr .lt 1 2 3) fun x => { x with k := [(1, 0xFFFFFFFFFFFFFFFF)] })).part 0).pc = ⟨0x10C0, 0⟩ ∧
    frontCode .sret (front .sret) = 0x0802 ∧ frontCode (.scall 1) (front (.scall 1) fun x => { x with calls := List.replicate 16 ⟨0, 0⟩ }) = 0x0801 ∧
    frontCode (.bdrop 4) (front (.bdrop 4)) = 0x0806 ∧ frontCode (.bdecl 4 2) (front (.bdecl 4 2)) = 0x0805 ∧
    ((next (.bdecl 4 2) (front (.bdecl 4 2) fun x => { x with free := [(2, [7, 8])] })).part 0).rename = [(4, 7)] ∧
    ((next .sjoin (front .sjoin fun x => { x with window := [placedLaunch] })).part 0).pc = ⟨0x1000, 0⟩ := by decide +kernel

/-- R67 and R338: GO starts an idle stream that is formed, and nothing else. -/
theorem test_go :
    ((next (.twctlGo 0) (State.reset.setPart 0 { state := .formed })).part 0).twState = .running ∧
    ((next (.twctlGo 0) State.reset).part 0).twState = .idle ∧
    ((next (.twctlHalt 0) (State.reset.setPart 0 { state := .formed })).part 0).preempted = true := by decide +kernel

/-- R131, R388 and R172: registers and ports after reset, and a lane that fails twice. -/
theorem test_service :
    regRead State.reset 0 0x3500 = 256 ∧
    ((next (.linkLaneFail 0) (next (.linkLaneFail 0) State.reset)).portStat 0).state = 1 ∧
    (next (.attestationStart 1) State.reset).attStatus = 4 := by decide +kernel

/-! ### States that meet the hypotheses of the statements -/

/-- Every instruction of the list is ready at its placed state, and P holds there. -/
def ready (l : List Instr) (f : Team → Team := id) (g : Crew → Crew := id) (h : State → State := id)
    (P : Instr → State → Ctx → Bool := fun _ _ x => x.m != 0) : Bool :=
  l.all fun i => match gate (at_ i f g h) i with
    | .go x => x.t.portFail.isNone && P i (at_ i f g h) x
    | _ => false

theorem witness {l : List Instr} {f : Team → Team} {g : Crew → Crew} {h : State → State} {P : Instr → State → Ctx → Bool}
    (ok : ready l f g h P = true) : ∀ i ∈ l, ∃ s x, Ready s i x ∧ P i s x = true := by
  intro i hi
  have h1 := List.all_eq_true.mp ok i hi
  split at h1
  · rename_i x hx
    simp only [Bool.and_eq_true, Option.isNone_iff_eq_none] at h1
    exact ⟨_, x, ready_of_gate hx h1.1, h1.2⟩
  · simp at h1

/-- No lane takes part: p1 is false everywhere. -/
def off : Ctl := ⟨1, 0, 0⟩

def nobody : Instr → State → Ctx → Bool := fun _ _ x => x.m == 0
def somebody : Instr → State → Ctx → Bool := fun _ _ x => x.m != 0

theorem test_wit_DecodeEncode : (Instr.saluMin z 1 2 (.imm 3) true).toFields.isSome = true ∧
    (Instr.saluMin z 1 2 (.imm 3) true).wellFormed = true := by decide +kernel

theorem test_wit_EncodeDecode :
    (decode 0 = .insn (.nop z)) ∧ forms (Fields.unpack (w 0x0F)).op ≤ (Fields.unpack (w 0x0F)).fn ∧
    (Fields.unpack (w 0x00 (x := 1))).fn < forms (Fields.unpack (w 0x00 (x := 1))).op ∧ decode (w 0x00 (x := 1)) = .reservedField ∧
    Instr.sjoin.isStream = true ∧ Instr.sjoin.toFields.isSome = true ∧ Instr.sjoin.wellFormed = true := by decide +kernel

def integers (c : Ctl) : List Instr := [
  .iaddAdd c 1 2 (.reg 3), .iaddSub c 1 2 (.imm 3), .iaddAddsat c 1 2 (.reg 3) true, .iaddSubsat c 1 2 (.reg 3) false, .iaddNeg c 1 2,
  .imulLo c 1 2 (.reg 3), .imulHis c 1 2 (.reg 3), .imulHin c 1 2 (.reg 3), .imulMad c 1 2 3 (.s 4), .logicAnd c 1 2 (.reg 3),
  .logicOr c 1 2 (.reg 3), .logicXor c 1 2 (.reg 3), .logicAndn c 1 2 (.reg 3), .logicNot c 1 2, .lea c 1 2 3 31, .shiftShl c 1 2 (.reg 3),
  .shiftShr c 1 2 (.reg 3), .shiftSar c 1 2 (.reg 3), .shiftRol c 1 2 (.reg 3), .bitfBfe c 1 2 (.reg 3), .bitfBfen c 1 2 (.reg 3),
  .bitfBfi c 1 2 3 (.v 4), .bitcPopc c 1 2, .bitcClz c 1 2, .bitcCtz c 1 2, .bitcBrev c 1 2, .iminmaxMin c 1 2 (.reg 3),
  .iminmaxMax c 1 2 (.reg 3), .iminmaxMinn c 1 2 (.reg 3), .iminmaxMaxn c 1 2 (.reg 3), .idivDivn c 1 2 (.reg 3), .idivRemn c 1 2 (.reg 3),
  .idivDivs c 1 2 (.reg 3), .idivRems c 1 2 (.reg 3)]

theorem test_wit_IntegerArithmetic : ∀ i ∈ integers z ++ integers off, ∃ s x, Ready s i x ∧ true = true :=
  witness (P := fun _ _ _ => true) (f := id) (g := id) (h := id) (by decide +kernel)

theorem test_wit_IntegerCompares : ∀ i ∈ ([.icmpEq z 1 2 (.reg 3), .icmpNe z 1 2 (.reg 3), .icmpLt z 1 2 (.reg 3), .icmpLe z 1 2 (.reg 3),
    .icmpGt z 0 2 (.imm 3), .icmpGe z 1 2 (.reg 3), .icmpLtn z 1 2 (.reg 3), .icmpLen z 1 2 (.reg 3), .icmpGtn z 1 2 (.reg 3),
    .icmpGen z 1 2 (.reg 3), .scmp z .eq 1 2 (.reg 3), .scmp z .gen 0 2 (.imm 3), .plopAnd z 1 2 3, .plopOr z 1 2 3, .plopXor z 1 2 3,
    .plopAndn z 1 2 3, .plopNot z 1 2, .plopMov z 1 2, .jread z 1 2, .sel z 1 2 3 4 true, .movReg z 1 2, .movImm z 1 2, .movS2V z 1 2 true,
    .movV2S z 1 2 false, .movV2S off 1 2 true] : List Instr), ∃ s x, Ready s i x ∧ true = true :=
  witness (P := fun _ _ _ => true) (f := id) (g := id) (h := id) (by decide +kernel)

theorem test_wit_ScalarArithmetic : ∀ i ∈ ([.saluAdd z 1 2 (.reg 3), .saluSub z 1 2 (.reg 3), .saluMul z 1 2 (.reg 3), .saluAnd z 1 2 (.reg 3),
    .saluOr z 1 2 (.reg 3), .saluXor z 1 2 (.reg 3), .saluShl z 1 2 (.reg 3), .saluShr z 1 2 (.reg 3), .saluSar z 1 2 (.reg 3),
    .saluMin z 1 2 (.reg 3) true, .saluMax z 1 2 (.imm 3) false, .smoviLo z 1 2, .smoviHi off 1 2] : List Instr),
    ∃ s x, Ready s i x ∧ true = true :=
  witness (P := fun _ _ _ => true) (f := id) (g := id) (h := id) (by decide +kernel)

theorem test_wit_ScalarArithmetic_addr : ∀ i ∈ ([.addr z 2 4 (.imm 0xFFFFFFFF)] : List Instr),
    ∃ s x, Ready s i x ∧ (x.m != 0 && decide ((x.t.s 5).toNat < 2 ^ 16)) = true :=
  witness (P := fun _ _ x => x.m != 0 && decide ((x.t.s 5).toNat < 2 ^ 16)) (f := id) (g := id) (h := id) (by decide +kernel)

theorem test_wit_SpecialRegisters : ∀ i ∈ ([.sregRead z (.v 1) .lane, .sregRead z (.s 1) .cycles, .sregRead z (.s 1) .ncrew,
    .sregWrite z .migr (.v 1), .sregWrite z .tsave (.s 1), .sregWrite z .tvec (.v 1), .sregWrite z .stkbase (.s 1),
    .sregWrite z .stklim (.s 1)] : List Instr), ∃ s x, Ready s i x ∧
      (x.m != 0 && decide ((x.t.s 1).toNat = 64 ∧ (x.t.v 1 (x.ls.headD 0)).toNat = 64 ∧ x.t.memFrames = 0 ∧ x.t.outerFrames = 0)) = true :=
  witness (f := fun t => { t with sregs := [(1, 64)], vregs := [(1024, 64)] }) (g := id) (h := id) (by decide +kernel)

theorem test_wit_FloatArithmetic : ∀ i ∈ ([.farithAdd z .rne 1 2 (.reg 3), .farithSub z .rtz 1 2 (.reg 3), .farithMul z .rup 1 2 (.imm 3),
    .ffmaFma z .rne 1 2 3 (.v 4), .ffmaFms z .rne 1 2 3 (.v 4), .ffmaFnma z .rne 1 2 3 (.v 4), .ffmaFnms z .rne 1 2 3 (.v 4),
    .darithDadd z .rne 2 4 6, .darithDsub z .rne 2 4 6, .darithDmul z .rne 2 4 6, .darithDfma z .rne 2 4 6 (.v 8),
    .harith2Hadd2 z .rne .f16 1 2 3, .harith2Hmul2 z .rne .bf16 1 2 3, .harith2Hfma2 z .rne .f16 1 2 3 (.v 4)] : List Instr),
    ∃ s x, Ready s i x ∧ true = true :=
  witness (P := fun _ _ _ => true) (f := id) (g := id) (h := id) (by decide +kernel)

theorem test_wit_FloatSelectionAndCompares : ∀ i ∈ ([.fminmaxMin z .f64 2 4 (.reg 6), .fminmaxMax z .f32 1 2 (.reg 3), .fsignAbs z .f32 1 2,
    .fsignNeg z .f64 2 4, .fsignCopysign z .f32 1 2 3, .fcmpEq z .f32 1 2 (.reg 3), .fcmpNe z .f64 1 2 (.reg 4), .fcmpLt z .f32 1 2 (.reg 3),
    .fcmpLe z .f32 1 2 (.reg 3), .fcmpGt z .f32 1 2 (.reg 3), .fcmpGe z .f32 1 2 (.reg 3), .fcmpUnord z .f32 1 2 (.reg 3),
    .fcmpOrd z .f32 1 2 (.reg 3)] : List Instr), ∃ s x, Ready s i x ∧ true = true :=
  witness (P := fun _ _ _ => true) (f := id) (g := id) (h := id) (by decide +kernel)

theorem test_wit_Conversions : ∀ i ∈ ([.cvt z .i8 .f32 false .rne 2 1 2, .cvt z .f64 .f32 false .rne 0 2 1, .cvt z .f32 .e4m3 false .rne 3 1 2,
    .frnd z .f64 .rne 2 4, .fkey z .f16 1 2, .fkeyInv z .f64 2 4] : List Instr), ∃ s x, Ready s i x ∧ true = true :=
  witness (P := fun _ _ _ => true) (f := id) (g := id) (h := id) (by decide +kernel)

theorem test_wit_DotProducts : ∀ i ∈ ([.dotDot4i8 z 1 2 3 (.v 4), .dotDot4e4m3 z .rne 1 2 3 (.v 4), .dotDot8i4 z 1 2 3 (.s 4)] : List Instr),
    ∃ s x, Ready s i x ∧ true = true :=
  witness (P := fun _ _ _ => true) (f := id) (g := id) (h := id) (by decide +kernel)

/-- 1.5·2^−1 in f32 in every mode, 464 in e4m3 and the largest sum that overflows. -/
theorem test_wit_RoundingIsCorrect :
    (∀ rm ∈ [RM.rne, .rtz, .rdn, .rup], FFmt.f32.roundMag rm false 3 (-2) = some 0x3F400000) ∧
    FFmt.e4m3.roundMag .rne true 464 0 = some 0x7E ∧ FFmt.f16.roundMag .rne false 65520 0 = none ∧ FFmt.f16.hasInf = true := by
  decide +kernel

theorem test_wit_MinMaxOfFloats : (FFmt.f32.val 0x7F800001).isNaN = true ∧ (FFmt.f32.val 1).isNaN = false ∧
    (FFmt.f64.val 0).lt (FFmt.f64.val 1) = true ∧ (FFmt.f16.val 0x8001).lt (FFmt.f16.val 0) = true := by decide +kernel

theorem test_wit_ConversionsToIntegers : Fmt.n8.isFloat = false ∧ ffmtOf .e5m2 = some FFmt.e5m2 ∧ ffmtOf .i64 = none ∧
    FFmt.e4m3.widens FFmt.f16 = true ∧ FFmt.f32.widens FFmt.f64 = true ∧ Fmt.e4m3.width < 32 ∧ Fmt.f64.width = 64 := by decide +kernel

theorem test_wit_SpecialFunctions : ∀ i ∈ ([.sfuExp2 z 1 2, .sfuLog2 z 1 2, .sfuRcp z 1 2, .sfuRsq z 1 2, .sfuSqrt z 1 2, .sfuSin z 1 2,
    .sfuCos z 1 2, .sfuTanh z 1 2] : List Instr), ∃ s x, Ready s i x ∧ somebody i s x = true :=
  witness (f := id) (g := id) (h := id) (by decide +kernel)

theorem test_wit_NoParticipants : ∀ i ∈ ([.sfuTanh off 1 2, .ld off .w32 2 ⟨.w, .none, .team, 4, 1⟩, .lds off .w32 2 .w .none .team 4,
    .st off .w32 2 ⟨.w, .none, .team, 4, 1⟩, .atomAdd off false false 2 ⟨.w, .none, .team, 4, 1⟩ (.v 6),
    .red off .add false false ⟨.w, .none, .team, 4, 1⟩ (.v 6), .tagTagq off 1 2, .exit off, .ret off, .trap off 0, .brk off 0, .jset off 1,
    .jwait off 1, .callDirect off 1, .callIndirect off 2 1, .addr off 2 4 (.imm 1), .hcopyCopy off .w .w 1 2 3 none, .bseal off 1,
    .bwait off (.imm 1), .barInit off 1 (.imm 1), .barWaitout off 1, .accZero off false 1, .mqFlush off 1, .nredPush off 1 1,
    .nredWait off 1 1 true, .shflIdx off 1 2 (.imm 3) lx0] : List Instr), ∃ s x, Ready s i x ∧ nobody i s x = true :=
  witness (f := id) (g := id) (h := id) (by decide +kernel)

/-- The conditions of ExchangeResult. -/
def exchanges (lx : LX) (g : BitVec 4) (x : Ctx) : Bool :=
  x.m != 0 && (badMember x.t x.e.mask lx x.ls).isNone &&
  x.t.exchangeReady lx g x.e.pc (x.t.heldWith lx g x.e) &&
  (badMember (joined x g lx).t (joined x g lx).e.mask lx (joined x g lx).ls).isNone

theorem test_wit_ShufflesAndVotes : ∀ i ∈ ([.shflIdx z 1 2 (.imm 3) lx0, .shflUp z 1 2 (.reg 3) lx0, .shflDown z 1 2 (.imm 31) lx0,
    .shflXor z 1 2 (.imm 1) lx0, .voteAny z 1 2 lx0, .voteAll z 1 2 lx0, .voteBallot z 1 2 lx0, .voteUni z 1 2 lx0, .bandredIadd z 1 2 lx0,
    .bandredFadd z 1 2 lx0, .bandredMin z .i32 1 2 lx0, .bandredMax z .f32 1 2 lx0, .sample z 1 2 3 lx0] : List Instr),
    ∃ s x, Ready s i x ∧ exchanges lx0 0 x = true :=
  witness (P := fun _ _ x => exchanges lx0 0 x) (f := id) (g := id) (h := id) (by decide +kernel)

theorem test_wit_SamplingAndRandomNumbers : ∀ i ∈ ([.zipZip2 z 4 8, .zipZip3 z 4 8, .zipZip4 z 4 8, .zipUnzip2 z 4 8, .zipUnzip3 z 4 8,
    .zipUnzip4 z 4 8, .rngU32 z 1, .rngUnif z 1] : List Instr), ∃ s x, Ready s i x ∧ somebody i s x = true :=
  witness (f := id) (g := id) (h := id) (by decide +kernel)

/-- Membership in v5. -/
def lx5 : LX := ⟨some (.v 5), false, 0⟩

/-- Lanes 0 to 15 run, lanes 16 to 31 are held at the same instruction; v5 is m in the first and n in the second. -/
def halves (hold : Hold) (m n : Word) (t : Team) : Team := { t with
  entries := [{ ins := 0, pc := ⟨0x1000, 0⟩, mask := maskBelow 16 },
    { ins := 1, pc := ⟨0x1000, 0⟩, mask := maskBelow 32 ^^^ maskBelow 16, hold }]
  nextIns := 2
  vregs := (List.range 32).map fun l => (5120 + l, if l < 16 then m else n) }

/-- The three ways in which a lane exchange does not complete: a lane that is not in its own mask, one of the merged entry, and a member
that is elsewhere. -/
theorem test_wit_LaneExchange :
    (∀ i ∈ ([.shflIdx z 1 2 (.imm 3) lx5] : List Instr), ∃ s x, Ready s i x ∧ (x.m != 0 && badMember x.t x.e.mask lx5 x.ls == some 0) = true) ∧
    (∀ i ∈ ([.shflIdx z 1 2 (.imm 3) lx5] : List Instr), ∃ s x, Ready s i x ∧ (x.m != 0 && (badMember x.t x.e.mask lx5 x.ls).isNone &&
      x.t.exchangeReady lx5 0 x.e.pc (x.t.heldWith lx5 0 x.e) &&
      badMember (joined x 0 lx5).t (joined x 0 lx5).e.mask lx5 (joined x 0 lx5).ls == some 16) = true) ∧
    (∀ i ∈ ([.shflIdx z 1 2 (.imm 3) lx5] : List Instr), ∃ s x, Ready s i x ∧ (x.m != 0 && (badMember x.t x.e.mask lx5 x.ls).isNone &&
      !x.t.exchangeReady lx5 0 x.e.pc (x.t.heldWith lx5 0 x.e)) = true) :=
  ⟨witness (f := id) (g := id) (h := id) (by decide +kernel),
   witness (f := halves .exchange 0xFFFFFFFF 0) (g := id) (h := id) (by decide +kernel),
   witness (f := halves .none 0xFFFFFFFF 0xFFFFFFFF) (g := id) (h := id) (by decide +kernel)⟩

/-- Page tables in host memory that map the first 2^39 bytes of the address space onto host memory: entry 0 of each of four tables
(R97 to R99, Tables 05.2 and 05.3). -/
def tables : Memory :=
  (((Memory.write [] 0x10000 8 (0x18000 + 0x41)).write 0x18000 8 (0x20000 + 0x41)).write 0x20000 8 (0x28000 + 0x41)).write 0x28000 8 0x35F

/-- The state with those tables in force for partition 0, and m on top of them. -/
def mapped (m : Memory → Memory) (s : State) : State :=
  { s.updPart 0 fun x => { x with rootInForce := { en := true, mt := 2, pa := 2 } } with host := m tables }

/-- Whether the entries held at a SHFL of v5's members may go on, v5 being m in every lane; lanes 16 to 31 stand at pc (one that is higher counts). -/
def released (pc : PC) (m : Word) : Bool :=
  let i := Instr.shflIdx z 1 2 (.imm 3) lx5
  let s := at_ i (fun t => { halves .none m m t with
    run := none
    entries := [{ ins := 0, pc := ⟨0x1000, 0⟩, mask := maskBelow 16, hold := .exchange },
      { ins := 1, pc, mask := maskBelow 32 ^^^ maskBelow 16, hold := .exchange }] }) id
    (mapped fun m => m.write 0x1000 64 (placedBlock false (encode i).toNat).bits)
  match s.teams.get? 0, s.crews.get? 0 with
  | some t, some c => exchangeFree s c t ⟨0x1000, 0⟩ (t.entries.filter fun e => e.pc == ⟨0x1000, 0⟩ && e.hold == .exchange)
  | _, _ => false

/-- A release that finds what it waits for, and one that does not. -/
theorem test_wit_LaneExchange_release : released ⟨0x1000, 0⟩ 0xFFFFFFFF = true ∧ released ⟨0x800, 0⟩ 0xFFFFFFFF = false := by decide +kernel

/-! Control flow and traps. -/

theorem test_wit_LanesRunFromTheLowestPC :
    (placedTeam 0).choose.isSome = true ∧
    (let t := halves .none 0 0 (placedTeam 0)
     t.entries.find? (fun e => e.pc == ⟨0x1000, 0⟩ && e.hold != .ret) = t.entries.head? ∧ t.entries.head?.isSome = true) ∧
    (placedTeam 0).entries.find? (fun e => e.pc == ⟨0x2000, 0⟩ && e.hold != .ret) = none := by decide +kernel

/-- s4:s5 is b, v9 is a in every lane but the first, which has a0. -/
def based (b : Nat) (a0 a : Word) (t : Team) : Team := { t with
  sregs := [(4, BitVec.ofNat 64 b), (5, BitVec.ofNat 64 (b / 2 ^ 64))]
  vregs := (List.range 32).map fun l => (9216 + l, if l = 0 then a0 else a) }

/-- The sum of the base pair and v9 in every participant. -/
def sums (x : Ctx) : Option (List Nat) := (x.t.pair? 4).map fun b => x.ls.map fun l => b + (x.t.v 9 l).toNat

theorem test_wit_BranchesAndCalls :
    (∀ i ∈ ([.nop z, .yield z, .bra z 5, .callDirect z 5] : List Instr), ∃ s x, Ready s i x ∧ (x.m != 0 && decide (x.t.stack.length < 32)) = true) ∧
    (∀ i ∈ ([.brx z 4 9] : List Instr), ∃ s x, Ready s i x ∧ (match sums x with
      | some l => l.all fun n => decide (n < 2 ^ 80 ∧ n % 64 = 0)
      | none => false) = true) ∧
    (∀ i ∈ ([.callIndirect z 4 9] : List Instr), ∃ s x, Ready s i x ∧ (x.m != 0 && (match sums x with
      | some l => l.all fun n => decide (n = 2 ^ 80 - 64)
      | none => false) && x.ls.all fun l => x.t.v 9 l == 64) = true) :=
  ⟨witness (f := id) (g := id) (h := id) (by decide +kernel), witness (f := based (2 ^ 80 - 128) 0 64) (g := id) (h := id) (by decide +kernel),
   witness (f := based (2 ^ 80 - 128) 64 64) (g := id) (h := id) (by decide +kernel)⟩

theorem test_wit_BranchesAndCalls_traps :
    (∀ i ∈ ([.brx z 4 9] : List Instr), ∃ s x, Ready s i x ∧ ((x.t.pair? 4).isNone && !x.ls.isEmpty) = true) ∧
    (∀ i ∈ ([.brx z 4 9] : List Instr), ∃ s x, Ready s i x ∧ (match sums x with
      | some (n :: _) => decide (n = 2 ^ 80)
      | _ => false) = true) ∧
    (∀ i ∈ ([.brx z 4 9] : List Instr), ∃ s x, Ready s i x ∧ (match sums x with
      | some (m :: n :: _) => decide (m % 64 = 0 ∧ n = 2 ^ 80 - 1)
      | _ => false) = true) ∧
    (∀ i ∈ ([.callIndirect z 4 9] : List Instr), ∃ s x, Ready s i x ∧ (x.m != 0 && x.ls.any fun k => x.t.v 9 k != x.t.v 9 (x.ls.headD 0)) = true) ∧
    (∀ i ∈ ([.callDirect z 5] : List Instr), ∃ s x, Ready s i x ∧ (x.m != 0 && decide (32 ≤ x.t.stack.length) && x.t.handler) = true) :=
  ⟨witness (f := based (2 ^ 80) 0 0) (g := id) (h := id) (by decide +kernel),
   witness (f := based (2 ^ 80 - 64) 64 0) (g := id) (h := id) (by decide +kernel),
   witness (f := based (2 ^ 80 - 64) 0 63) (g := id) (h := id) (by decide +kernel), witness (f := based 0 0 64) (g := id) (h := id) (by decide +kernel),
   witness (f := fun t => { t with handler := true, stack := List.replicate 32 ⟨⟨0, 0⟩, 0⟩ }) (g := id) (h := id) (by decide +kernel)⟩

def frame0 (m : LaneMask) : Frame := ⟨⟨0x2000, 3⟩, m⟩

theorem test_wit_ReturnsAndExits_ret :
    (∀ i ∈ ([.ret z] : List Instr), ∃ s x, Ready s i x ∧ (match x.t.stack with
      | f :: _ => x.m != 0 && x.e.hold == .none && x.m &&& ~~~f.mask == 0 && f.mask &&& ~~~(x.m ||| unionOf (x.t.entries.filter fun e =>
          e.ins != x.e.ins && waitsAt f e) ||| x.t.exited) != 0
      | [] => false) = true) ∧
    (∀ i ∈ ([.ret z] : List Instr), ∃ s x, Ready s i x ∧ (match x.t.stack with
      | f :: g :: _ => x.m != 0 && x.e.hold == .none && x.m &&& ~~~f.mask == 0 && f.mask &&& ~~~(x.m ||| unionOf (x.t.entries.filter fun e =>
          e.ins != x.e.ins && waitsAt f e) ||| x.t.exited) == 0 && g.mask.getLsbD 3
      | _ => false) = true) ∧
    (∀ i ∈ ([.ret z] : List Instr), ∃ s x, Ready s i x ∧ (match x.t.stack with
      | f :: _ => x.m != 0 && x.ls.find? (fun k => !f.mask.getLsbD k) == some 8
      | [] => false) = true) ∧
    (∀ i ∈ ([.ret z] : List Instr), ∃ s x, Ready s i x ∧ (x.m != 0 && x.t.stack.isEmpty && x.t.heldRefill.isNone) = true) :=
  ⟨witness (f := fun t => { halves .none 0 0 t with stack := [frame0 (maskBelow 32)] }) (g := id) (h := id) (by decide +kernel),
   witness (f := fun t => { halves .none 0 0 t with stack := [frame0 (maskBelow 16), frame0 (maskBelow 32)] }) (g := id) (h := id) (by decide +kernel),
   witness (f := fun t => { t with stack := [frame0 (maskBelow 8)] }) (g := id) (h := id) (by decide +kernel),
   witness (f := id) (g := id) (h := id) (by decide +kernel)⟩

theorem test_wit_ReturnsAndExits_exit : ∀ i ∈ ([.exit z] : List Instr), ∃ s x, Ready s i x ∧ (x.m != 0 && x.e.hold == .none &&
    x.t.writes.all (fun y => y.2.failed.isNone || y.2.spill) && x.t.live &&& ~~~x.m == 0) = true :=
  witness (f := id) (g := id) (h := id) (by decide +kernel)

/-- A stack region at 0x40000 of n frames' room, mapped. -/
def stacked (cached mem room : Nat) : State := at_ (.nop z) (fun t => { t with
  stack := List.replicate cached (frame0 (maskBelow 32)), memFrames := mem, stkbase := 0x40000, stklim := BitVec.ofNat 64 (0x40000 + 160 * room) })
  id (mapped fun m => (frameImg (frame0 (maskBelow 32))).map (fun c => (c.1 + 0x40000, c.2)) |> fun l => m.filter (fun c => c.1 < 0x40000) ++ l)

theorem test_wit_ReturnsAndExits_stack :
    (storeImage 0 0 0x40000 160 (frameImg (frame0 (maskBelow 32))) { s := stacked 29 0 1 } 3 0).isOk = true ∧
    (stacked 29 0 0).teams.all (fun e => decide (e.2.stklim.toNat < e.2.stkbase.toNat + 160 * (e.2.memFrames + 1))) = true ∧
    (match loadImage (stacked 3 1 1) 0 0 0x40000 160 3 0 with
      | .ok (_, m) => m == frameImg (frame0 (maskBelow 32))
      | .error _ => false) = true := by decide +kernel

theorem test_wit_JoinMasks :
    (∀ i ∈ ([.jset z 2, .jarr z 2, .jwait z 2] : List Instr), ∃ s x, Ready s i x ∧ (x.m != 0 && x.t.entries.all fun e => e.hold != .join 2) = true) ∧
    (∀ i ∈ ([.jset z 2] : List Instr), ∃ s x, Ready s i x ∧ (x.m != 0 && x.t.entries.any fun e => e.hold == .join 2) = true) ∧
    (let t := halves (.join 2) 0 0 { placedTeam 0 with run := none, joins := [(2, { members := maskBelow 32, arrived := maskBelow 16 })] }
     let held := unionOf (t.entries.filter fun e => e.pc == ⟨0x1000, 0⟩ && e.hold == .join 2)
     let later := unionOf (t.entries.filter fun e => PC.lt ⟨0x1000, 0⟩ e.pc)
     t.run.isNone = true ∧ held ≠ 0 ∧ (t.join 2).members &&& ~~~((t.join 2).arrived ||| t.exited ||| held ||| later) = 0) ∧
    (let t := halves (.join 2) 0 0 { placedTeam 0 with run := none, joins := [(2, { members := maskBelow 32, arrived := 0 })] }
     let held := unionOf (t.entries.filter fun e => e.pc == ⟨0x1000, 0⟩ && e.hold == .join 2)
     let later := unionOf (t.entries.filter fun e => PC.lt ⟨0x1000, 0⟩ e.pc)
     (t.join 2).members &&& ~~~((t.join 2).arrived ||| t.exited ||| held ||| later) ≠ 0) :=
  ⟨witness (f := id) (g := id) (h := id) (by decide +kernel), witness (f := halves (.join 2) 0 0) (g := id) (h := id) (by decide +kernel),
   by decide +kernel, by decide +kernel⟩

theorem test_wit_TrapEntry_brk : ∀ i ∈ ([.brk z 5] : List Instr), ∃ s x, Ready s i x ∧
    (x.m != 0 && (s.part x.crew.part).dbg.en && !x.t.halted) = true :=
  witness (P := fun _ s x => x.m != 0 && (s.part x.crew.part).dbg.en && !x.t.halted) (f := id) (g := id)
    (h := fun s => s.updPart 0 fun x => { x with dbg := { en := true } }) (by decide +kernel)

/-- The frame of a TRAP stored at 0x80000. -/
def framed (i : Instr) (x : Ctx) (k : Nat) : Memory :=
  frameOf x.t { code := k } (encode i).toNat false ((sortEntries x.t.entries).map fun e =>
    if e.ins = x.e.ins then { e with pc := x.t.nextPC x.e.pc } else e)
    (((sortEntries x.t.entries).findIdx? fun e => e.ins == x.e.ins).getD 0) x.t.replay
theorem test_wit_TrapEntry : ∀ i ∈ ([.trap z 0xF001] : List Instr), ∃ s x, Ready s i x ∧
    (x.m != 0 && !x.t.handler && x.t.producers.isEmpty && (storeImage 0 0 x.t.tsave.toNat (11776 + 530 * roundLanes x.t.nlanes)
      (framed i x 0xF001) { s } ((11776 + 530 * roundLanes x.t.nlanes) / 32768 + 2) 0).isOk) = true :=
  witness (P := fun i s x => x.m != 0 && !x.t.handler && x.t.producers.isEmpty && (storeImage 0 0 x.t.tsave.toNat
      (11776 + 530 * roundLanes x.t.nlanes) (framed i x 0xF001) { s } ((11776 + 530 * roundLanes x.t.nlanes) / 32768 + 2) 0).isOk)
    (f := fun t => { t with tsave := 0x80000 }) (g := id) (h := mapped id) (by decide +kernel)

/-- Two entries of a team of 32 lanes, one held at a join, with a frame on its stack. -/
def trapped : Team := { halves (.join 3) 0 0 (placedTeam 0) with stack := [frame0 (maskBelow 16)], sregs := [(5, 77)], handler := true }

theorem test_wit_FrameLayout :
    trapped.entries.length ≤ roundLanes trapped.nlanes ∧ trapped.stack.length ≤ 32 ∧ trapped.nlanes ≤ 1024 ∧ 1 ≤ trapped.nlanes ∧
    (∀ e ∈ trapped.entries, e.pc.blk.toNat % 64 = 0 ∧ e.pc.slot ≤ 4 ∧ e.mask ≠ 0) ∧
    (∀ f ∈ trapped.stack, f.ret.blk.toNat % 64 = 0 ∧ f.ret.slot ≤ 4) ∧ trapped.live = maskBelow 32 ∧
    (trapped.entries.map fun e => e.mask &&& ~~~trapped.live) = [0, 0] ∧ trapped.entries.Pairwise (fun a b => a.mask &&& b.mask = 0) := by
  decide +kernel

/-- The frame of a trap of that team, at 0x80000, and what TRET finds of it (R350). -/
def returning (m : Memory → Memory) (s : State) : State := mapped (fun t => m ((t.filter fun c => c.1 < 0x80000) ++
  (frameOf trapped { code := 0x0102 } 0 false (sortEntries trapped.entries) 0 []).map fun c => (c.1 + 0x80000, c.2))) s

/-- Whether the frame is read, and restores a team. -/
def restores (s : State) (x : Ctx) : Option Bool :=
  match loadImage s 0 0 x.t.tsaveIn.toNat (11776 + 530 * 32) (((11776 + 530 * 32)) / 32768 + 2) 0 with
  | .ok (_, img) => some (restore x.t img).isSome
  | .error _ => none

theorem test_wit_TrapReturn :
    (∀ i ∈ ([.tret z] : List Instr), ∃ s x, Ready s i x ∧ (x.t.handler && restores s x == some true) = true) ∧
    (∀ i ∈ ([.tret z] : List Instr), ∃ s x, Ready s i x ∧ (x.t.handler && restores s x == some false) = true) ∧
    (∀ i ∈ ([.tret z] : List Instr), ∃ s x, Ready s i x ∧ (!x.t.handler) = true) ∧
    (∀ i ∈ ([.tret ⟨1, 0, 0⟩] : List Instr), ∃ s x, Ready s i x ∧ x.t.handler = true) :=
  ⟨witness (P := fun _ s x => x.t.handler && restores s x == some true) (f := fun t => { t with handler := true, tsaveIn := 0x80000 })
    (g := id) (h := returning id) (by decide +kernel),
   witness (P := fun _ s x => x.t.handler && restores s x == some false) (f := fun t => { t with handler := true, tsaveIn := 0x80000 })
    (g := id) (h := returning fun m => m.write 0x82200 8 0x2007) (by decide +kernel),
   witness (P := fun _ _ x => !x.t.handler) (f := id) (g := id) (h := id) (by decide +kernel),
   witness (P := fun _ _ x => x.t.handler) (f := fun t => { t with handler := true }) (g := id) (h := id) (by decide +kernel)⟩

theorem test_wit_TrapReturn_doubleFault : let s := at_ (.nop z) fun t => { t with handler := true }
    (s.teams.get? 0).isSome = true ∧ (s.crews.get? 0).isSome = true ∧ ((s.entryOf 0 0).map fun w => w.status.isFaulted) = some false ∧
    ((s.teams.get? 0).map Team.handler) = some true := by decide +kernel

/-! Memory. -/

def acc4 : Acc := { read := true, plain := true, bytes := 4 }

/-- Offsets at the edges of a window and segment of 128 bytes, and lanes of which the second fails. -/
theorem test_wit_AccessChecks_window :
    let c := { placedCrew with winBytes := 128 }
    let x : Ctx := { tid := 0, t := placedTeam 0, crew := c, e := { ins := 0, pc := ⟨0, 0⟩, mask := 3 }, spin := false, m := 3, ls := [0, 1] }
    (c.seg x.t.core).2 = 128 ∧ (124 + 0) % 2 ^ 32 % 4 = 0 ∧ 124 + 4 ≤ 128 ∧ 128 < 128 + 4 ∧ (128 + 0) % 2 ^ 32 % 4 = 0 ∧
    (126 + 0) % 2 ^ 32 % 4 ≠ 0 ∧
    (match spot State.reset x .w (some 0) acc4 (fun _ => none) 0 124, spot State.reset x .w (some 0) acc4 (fun _ => none) 1 128 with
      | .ok _, .error _ => true
      | _, _ => false) = true := by decide +kernel

/-- Partition 0 with one buffer of class 0, and tables that map the first 2^39 bytes; in the second state the leaf lacks A and D. -/
def oneBuffer (s : State) : State := s.updPart 0 fun x => { x with ppool0 := 1 }
def fresh_ (m : Memory) : Memory := m.write 0x28000 8 0x5F

theorem test_wit_AccessChecks_translation :
    (2 ^ 56 * 0xFFFF00) / 2 ^ 56 = 0xFFFF00 ∧ ((oneBuffer State.reset).part 0).bufBytes? 0 = some 32768 ∧
    ((oneBuffer State.reset).part 0).bufBytes? 1 = none ∧ 32764 + acc4.bytes ≤ 32768 ∧ 32768 < 32765 + acc4.bytes ∧
    (State.reset.part 0).rootInForce.en = false ∧
    (match resolve (mapped id State.reset) 0 0 0x1000 acc4 with
      | .ok o => o.leaf.isSome
      | .error _ => false) = true := by decide +kernel

theorem test_wit_AccessChecks_dirty :
    (match resolve (mapped id State.reset) 0 0 0x1000 { acc4 with write := true } with
      | .ok o => o.leaf.any fun lf => lf.val ||| 0x300 == lf.val
      | .error _ => false) = true ∧
    (match resolve (mapped fresh_ State.reset) 0 0 0x1000 acc4 with
      | .ok o => o.leaf.any fun lf => (lf.val ||| 0x200 != lf.val) && (mapped fresh_ State.reset).load lf.store lf.addr 8 == lf.val &&
          lf.store == .host && decide (lf.val < 2 ^ 64)
      | .error _ => false) = true := by decide +kernel

theorem test_wit_LoadsReadTheLine :
    let xs : List Spot := [⟨0, 0, { store := .cxl, addr := 0 }⟩, ⟨1, 132, { store := .cxl, addr := 132 }⟩]
    let s := { State.reset with poisonCxl := [1] }
    (xs.map Spot.lane).Nodup ∧ readFailure s 0 0 .cxl 0 = none ∧ readFailure s 0 0 .cxl 132 = some 0x0A03 ∧ Store.cxl.cached = true ∧
    State.lineKey 0 .cxl 0 ≠ State.lineKey 0 .cxl 132 ∧ s.rcache.get? (State.lineKey 0 .cxl 0) = none ∧ 124 % 128 + 4 ≤ 128 := by decide +kernel

/-- The accesses of every participant of a form at v1's offsets pass, or the lowest that does not traps. -/
def passes (s : State) (x : Ctx) (sp : Space) (b : Option Nat) (acc : Acc) (l : List (Nat × Nat)) : Bool :=
  match accesses s x sp b acc (fun _ => none) l with
  | .ok _ => true
  | .error _ => false
def offsets1 (x : Ctx) : List (Nat × Nat) := x.ls.map fun l => (l, (x.t.v 1 l).toNat)

theorem test_wit_Loads :
    (∀ i ∈ ([.ld z .w64 2 ⟨.w, .acq, .crew, 4, 1⟩] : List Instr), ∃ s x, Ready s i x ∧ (x.m != 0 && x.t.base? .w 4 == some 4088 &&
      passes s x .w (some 4088) { read := true, plain := true, bytes := 8 } (offsets1 x)) = true) ∧
    (∀ i ∈ ([.lds z .i16 2 .w .none .team 4] : List Instr), ∃ s x, Ready s i x ∧ (x.m != 0 && x.t.base? .w 4 == some 4094 &&
      passes s x .w (some 4094) { read := true, plain := true, bytes := 2 } [(0, 0)]) = true) :=
  ⟨witness (P := fun _ s x => x.m != 0 && x.t.base? .w 4 == some 4088 &&
      passes s x .w (some 4088) { read := true, plain := true, bytes := 8 } (offsets1 x))
    (f := fun t => { t with sregs := [(4, 4088)] }) (g := windowed []) (h := id) (by decide +kernel),
   witness (P := fun _ s x => x.m != 0 && x.t.base? .w 4 == some 4094 &&
      passes s x .w (some 4094) { read := true, plain := true, bytes := 2 } [(0, 0)])
    (f := fun t => { t with sregs := [(4, 4094)] }) (g := windowed []) (h := id) (by decide +kernel)⟩

/-- ST, ATOM and RED on the window: every access passes, and no write has failed. -/
def storing (s : State) (x : Ctx) (b : Nat) (acc : Acc) : Bool :=
  x.m != 0 && x.t.base? .w 4 == some b && passes s x .w (some b) acc (offsets1 x) && x.t.writes.all (fun y => y.2.failed.isNone || y.2.spill) &&
  !determinism s x && (s.part x.crew.part).ideFail == 0 && s.crews.has x.t.cid

def op4 (o : Order) : MemOp := ⟨.w, o, .crew, 4, 1⟩

theorem test_wit_StoresAndAtomics :
    (∀ i ∈ ([.st z .n8 2 (op4 .rel)] : List Instr), ∃ s x, Ready s i x ∧ storing s x 4095 { write := true, plain := true, bytes := 1 } = true) ∧
    (∀ i ∈ ([.atomAdd z false false 2 (op4 .none) (.v 6), .atomMin z false true 2 (op4 .none) (.v 6), .atomMax z false false 2 (op4 .none) (.v 6),
        .atomAnd z false false 2 (op4 .none) (.v 6), .atomOr z false false 2 (op4 .none) (.v 6), .atomXor z false false 2 (op4 .none) (.v 6),
        .atomSwap z false false 2 (op4 .none) (.v 6), .atomCas z false false 2 (op4 .none) (.v 6), .atomFadd z false 2 (op4 .none) (.v 6),
        .red z .add false false (op4 .ar) (.s 6), .red z .fadd false false (op4 .ar) (.s 6)] : List Instr), ∃ s x, Ready s i x ∧
        (storing s x 4092 { read := true, write := true, bytes := 4 } && i.atomForm.isSome) = true) ∧
    (∀ i ∈ ([.atomAdd z true false 2 (op4 .none) (.v 6)] : List Instr), ∃ s x, Ready s i x ∧
        (storing s x 4088 { read := true, write := true, bytes := 8 } && i.atomForm.isSome) = true) ∧
    (∀ a, dataFailure State.reset 0 (.window 0) a = none) ∧
    (∀ i ∈ ([.fence z .ar .sys] : List Instr), ∃ s x, Ready s i x ∧ (x.m != 0 && x.t.writes.all fun y => y.2.failed.isNone || y.2.spill) = true) :=
  ⟨witness (f := fun t => { t with sregs := [(4, 4095)] }) (g := windowed []) (h := id) (by decide +kernel),
   witness (P := fun i s x => storing s x 4092 { read := true, write := true, bytes := 4 } && i.atomForm.isSome)
     (f := fun t => { t with sregs := [(4, 4092)] }) (g := windowed []) (h := id) (by decide +kernel),
   witness (P := fun i s x => storing s x 4088 { read := true, write := true, bytes := 8 } && i.atomForm.isSome)
     (f := fun t => { t with sregs := [(4, 4088)] }) (g := windowed []) (h := id) (by decide +kernel),
   fun _ => rfl,
   witness (f := id) (g := id) (h := id) (by decide +kernel)⟩

/-- An SFU result, a load and a scalar load on their way in lane 0. -/
def arriving (i : Instr) (v : Nat) : Bool :=
  let s := next i (at_ i (fun t => { t with sregs := [(4, 64)] }) (windowed []))
  match (team s).producers with
  | [p] => p.insn == i && p.lm.getLsbD 0 && p.out == 0 && (p.bad.get? 0).isNone && p.vals.get? 0 == some v
  | _ => false
theorem test_wit_Loads_arrive : arriving (.ld z .w64 2 ⟨.w, .acq, .crew, 4, 1⟩) 0 = true ∧ arriving (.lds z .i16 2 .w .none .team 4) 0 = true ∧
    arriving (.tagTagq z 2 1) 0xFFFFFFFF = true := by decide +kernel

/-- The gate's context at a placed state, and a condition on it. -/
def here (i : Instr) (f : Team → Team := id) (g : Crew → Crew := id) (h : State → State := id) (P : State → Ctx → Bool) : Bool :=
  ready [i] f g h fun _ s x => P s x

theorem test_wit_MemoryTraps :
    here (.ld z .w32 2 ⟨.g, .none, .team, 4, 1⟩) (based (2 ^ 80) 0 0) id id (fun _ x => x.m != 0 && (x.t.base? .g 4).isNone) = true ∧
    here (.ld z .w32 2 (op4 .none)) id id id (fun s x => x.m != 0 && !passes s x .w (some 0) acc4 (offsets1 x)) = true ∧
    here (.lds z .w32 2 .w .none .team 4) id id id (fun s x => x.m != 0 && !passes s x .w (some 0) acc4 [(0, 0)]) = true ∧
    here (.lds z .w32 2 .g .none .team 4) (based (2 ^ 80) 0 0) id id (fun _ x => x.m != 0 && (x.t.base? .g 4).isNone) = true ∧
    here (.st z .w32 2 (op4 .none)) id id id (fun s x => x.m != 0 && !passes s x .w (some 0) { write := true, plain := true, bytes := 4 } (offsets1 x)) = true ∧
    here (.red z .fadd false false (op4 .none) (.v 6)) id id (fun s => s.updPart 0 fun x => { x with
        window := x.window.map fun e => { e with det := true } }) (fun s x => x.m != 0 && determinism s x) = true ∧
    here (.red z .add false false ⟨.g, .none, .team, 4, 1⟩ (.v 6)) (based 0x40000 0 0) id (mapped id) (fun s x => x.m != 0 &&
      match accesses s x .g (some 0x40000) { read := true, write := true, bytes := 4 } (fun _ => none) (offsets1 x) with
      | .ok r => r.2.any fun y => y.ok.mt == 2 && y.ok.store == .host
      | .error _ => false) = true := by decide +kernel

theorem test_wit_TagTable :
    here (.tagTagq z 1 2) id id id (fun _ x => x.m != 0) = true ∧
    here (.tagTagset z 1 2 3) id (windowed []) id (fun _ x => x.ls.all fun l => decide ((x.t.v 3 l).toNat < x.crew.winBytes / 512 ∧
      (x.crew.seg x.t.core).1 ≤ 512 * (x.t.v 3 l).toNat ∧ 512 * (x.t.v 3 l).toNat + 512 ≤ (x.crew.seg x.t.core).1 + (x.crew.seg x.t.core).2)) = true ∧
    here (.tagTagset z 1 2 3) (ab 0 8) (windowed []) id (fun _ x => x.ls.find? (fun l => decide (x.crew.winBytes / 512 ≤ (x.t.v 3 l).toNat)) == some 0) = true ∧
    here (.tagTagclr z 1 2) id id id (fun _ x => x.m != 0) = true := by decide +kernel

/-! The stream. -/

/-- AtFront as a computation. -/
def atFront (s : State) (i : Instr) (p : Nat) : Bool :=
  s.curPart == some p && (s.part p).twState == .running && !(s.part p).haltReq && (s.part p).ffault.isNone && !(s.part p).shaltPassed &&
  ((s.part p).window.all fun e => match e.insn with
    | .kread _ _ _ _ | .scount _ _ _ => false
    | _ => true) &&
  (i.isArea && decide ((s.part p).areas.length < 4) || i.isTask || !i.isArea && (s.part p).areas.isEmpty)

theorem atFront_of {s : State} {i : Instr} {p : Nat} (h : atFront s i p = true) : AtFront s i p := by
  simp only [atFront, Bool.and_eq_true, Bool.or_eq_true, beq_iff_eq, Bool.not_eq_true', Option.isNone_iff_eq_none, List.all_eq_true,
    decide_eq_true_eq, List.isEmpty_iff] at h
  obtain ⟨⟨⟨⟨⟨⟨hc, hr⟩, hh⟩, hf⟩, hs⟩, hj⟩, ha⟩ := h
  refine ⟨hc, hr, hh, hf, hs, fun e he => ⟨fun c d a w hi => ?_, fun c d k hi => ?_⟩, ?_⟩
  · have := hj e he; rw [hi] at this; simp at this
  · have := hj e he; rw [hi] at this; simp at this
  · rcases ha with (h | h) | h
    · exact .inl h
    · exact .inr (.inl h)
    · exact .inr (.inr h)

/-- Four buffers of class 0, of which b1, b2 and b3 are declared and one is free. -/
def buffers (x : Part) : Part := { x with ppool0 := 4, rename := [(1, 0), (2, 1), (3, 2)], free := [(0, [3])] }

theorem test_wit_SjoinWaitsForEveryOlderEntry : AtFront (front .sjoin) .sjoin 0 ∧ ((front .sjoin).part 0).window = [] ∧
    AtFront (front .sjoin fun x => { x with window := [placedLaunch] }) .sjoin 0 :=
  ⟨atFront_of (by decide +kernel), by decide +kernel, atFront_of (by decide +kernel)⟩

theorem test_wit_FrontStage : (∀ i ∈ ([.snop, .sbr .ltn 1 2 3, .scall 1, .kalu .sar 1 2 (.imm 64), .smode 1 true, .areaRead 2 4, .areaWrite 2 4,
      .bdecl 4 0, .bdrop 1, .shalt] : List Instr), AtFront (front i buffers) i 0) ∧
    (∀ i ∈ ([.scall 1, .sret] : List Instr), AtFront (front i fun x => { x with calls := List.replicate 16 ⟨0, 0⟩ }) i 0) ∧
    AtFront (front .sret) .sret 0 ∧
    AtFront (front (.areaRead 2 4) fun x => { x with k := [(3, 0x10000)] }) (.areaRead 2 4) 0 ∧
    AtFront (front (.areaRead 2 4) fun x => { x with k := [(4, 0x20000000000)] }) (.areaRead 2 4) 0 ∧
    (let x := (front (.bdecl 4 0) fun x => { buffers x with free := [] }).part 0
     x.freeOf 0 = [] ∧ x.window = []) ∧
    (let x := (front (.bdecl 4 0) fun x => { buffers x with free := [], window := [{ placedLaunch with prev := some 3 }] }).part 0
     x.freeOf 0 = [] ∧ ∃ e ∈ x.window, e.prev = some 3 ∧ x.classOf 3 = 0) ∧
    256 ≤ (List.replicate 256 placedLaunch).length ∧ ((front (.bdrop 4) buffers).part 0).rename.get? 4 = none := by
  refine ⟨fun i hi => ?_, fun i hi => ?_, atFront_of (by decide +kernel), atFront_of (by decide +kernel), atFront_of (by decide +kernel),
    by decide +kernel, by decide +kernel, by decide +kernel, by decide +kernel⟩
  · refine atFront_of ?_; revert i; decide +kernel
  · refine atFront_of ?_; revert i; decide +kernel

/-- A declared buffer that is large enough. -/
def bufReady (x : Part) (b : Option BufNo) (need : Nat) : Bool :=
  match b with
  | none => true
  | some n => match x.rename.get? n.val with
    | none => false
    | some f => match x.bufBytes? f with
      | none => false
      | some size => decide (need ≤ size)

theorem bufReady_of {x : Part} {b : Option BufNo} {need : Nat} (h : bufReady x b need = true) : BufReady x b need := by
  intro n hn
  subst hn
  simp only [bufReady] at h
  split at h
  · simp at h
  · rename_i f hf
    split at h
    · simp at h
    · rename_i size hs
      exact ⟨f, size, hf, hs, by simpa using h⟩

/-- TaskReady as a computation. -/
def taskReady (s : State) (i : Instr) (p : Nat) (q : Names) : Bool :=
  atFront s i p && (q.pairs.all fun r => decide (((s.part p).k.getD (r + 1) 0).toNat < 2 ^ 16)) && bufReady (s.part p) q.d q.needD &&
  bufReady (s.part p) q.a q.needA && bufReady (s.part p) q.b q.needB && decide ((s.part p).window.length < 256) &&
  (match q.d with
    | none => true
    | some n => match (s.part p).rename.get? n.val with
      | none => true
      | some f => q.inPlace || !((s.part p).freeOf ((s.part p).classOf f)).isEmpty)

theorem taskReady_of {s : State} {i : Instr} {p : Nat} {q : Names} (h : taskReady s i p q = true) : TaskReady s i p q := by
  simp only [taskReady, Bool.and_eq_true, List.all_eq_true, decide_eq_true_eq] at h
  obtain ⟨⟨⟨⟨⟨⟨hf, hp⟩, hd⟩, ha⟩, hb⟩, hr⟩, hl⟩ := h
  refine ⟨atFront_of hf, hp, bufReady_of hd, bufReady_of ha, bufReady_of hb, hr, fun n f hn hi hm => ?_⟩
  rw [hn] at hl
  simp only [hm, hi, Bool.false_or, Bool.not_eq_true', List.isEmpty_eq_false_iff] at hl
  exact hl

/-- A bit field of k[r]. -/
def kf (k : FMap DWord) (r lo n : Nat) : Nat := (k.getD r 0).toNat / 2 ^ lo % 2 ^ n

/-- Front stage at task i with the buffers, k and areas. -/
def taskState (i : Instr) (k : FMap DWord) (areas : List Area := []) : State :=
  front i fun x => { buffers x with k, areas, pcore0 := 1 }

/-- A task, its k file, what it names and the conditions of its descriptor at k4 (k16 for LAUNCH). -/
def aTask (i : Instr) (k : FMap DWord) (q : Names) (c : Bool) (areas : List Area := []) : Bool := taskReady (taskState i k areas) i 0 q && c

def size8 (n : Nat) : Bool := [8, 16, 32, 64, 128, 256, 512, 1024].contains n

/-- MMT of 16 by 16 by 16: i1 against i8 with one plane, an i32 result in place. -/
def mmtK (acc : Bool) : FMap DWord :=
  [(4, 16 + 16 * 2 ^ 32), (5, BitVec.ofNat 64 (16 + 2 ^ 38 + 2 * 2 ^ 42)), (6, if acc then 0xFFFFFFFFFFFFFFFF else 0), (7, 0)]

theorem test_wit_TasksPassTheFrontStage :
    aTask (.kread 0 1 2 true) [] { pairs := [2] } true = true ∧
    (let k : FMap DWord := [(16, 0x1000)]
     aTask (.launch 0 (some 1) (some 2) none 16) k { d := some 1, a := some 2, pairs := [16] } (decide (kf k 16 0 6 = 0 ∧ kf k 18 32 15 ≤ 16384 ∧
       kf k 18 47 17 = 0 ∧ kf k 19 14 6 ≤ 47 ∧ 16 + 8 + kf k 19 29 4 ≤ 32 ∧ kf k 21 0 32 % 32 = 0) &&
       shapeFits (taskState (.launch 0 (some 1) (some 2) none 16) k) ((taskState (.launch 0 (some 1) (some 2) none 16) k).part 0) (launchShape k 16)) = true) ∧
    (∀ acc ∈ [true, false], let k := mmtK acc
     aTask (.mmt 0 acc false 1 2 3 4) k { d := some 1, inPlace := acc, a := some 2, b := some 3, needD := 16 * 16 * 4, needA := 4096, needB := 4096 }
       (decide ((AFmt.record (aFmtOf (kf k 5 32 3))) ≤ 4096 ∧ 256 * (bFmtOf (kf k 5 35 3)).bytes ≤ 4096 ∧ 1 ≤ kf k 5 38 4 ∧
         kf k 5 38 4 ≤ (aFmtOf (kf k 5 32 3)).planes ∧ kf k 5 35 3 ≤ 4 ∧ kf k 5 42 4 ≤ 13 ∧ kf k 5 49 15 = 0 ∧
         (acc = true → kf k 5 42 4 = (if intAcc (aFmtOf (kf k 5 32 3)) (bFmtOf (kf k 5 35 3)) then 2 else 10)) ∧
         (fmtOfCode (kf k 5 42 4)).width = 32)) = true) ∧
    (let k : FMap DWord := [(4, 1 + 2 ^ 32), (5, BitVec.ofNat 64 (1 + 9 * 2 ^ 32)), (6, 0)]
     aTask (.smmt 0 true true 1 2 3 4) k { d := some 1, inPlace := true, a := some 2, b := some 3, needD := 8, needA := 32, needB := 8 }
       (decide (kf k 5 32 4 = 9 ∧ kf k 5 36 28 = 0 ∧ kf k 6 32 32 = 0)) = true) ∧
    (let k : FMap DWord := [(5, 64), (6, 0x100), (8, 0x200)]
     aTask (.copyt 0 false none none 4) k { needD := 0x240, needA := 0x140, pairs := [6, 8] } true
       [{ base := 0x100, len := 64, write := false }, { base := 0x200, len := 64, write := true }] = true) ∧
    (let k : FMap DWord := [(4, 1 + 8 * 2 ^ 32), (5, BitVec.ofNat 64 (1 + 2 ^ 32))]
     aTask (.copyt 0 false (some 1) (some 2) 4) k { d := some 1, a := some 2, needD := (aFmtOf 0).record, needA := 1 }
       (decide (kf k 4 0 2 = 1 ∧ kf k 4 5 27 = 0 ∧ (kf k 5 0 32 * (aFmtOf (kf k 4 2 3)).bits + 7) / 8 ≤ kf k 4 32 32 ∧ 1 ≤ kf k 5 32 16 ∧
         kf k 5 48 16 = 0 ∧ kf k 8 0 5 = 0)) = true) ∧
    aTask (.redt 0 2 3) [] { pairs := [2] } true = true ∧
    (let k : FMap DWord := [(4, 16)]
     aTask (.maskgen 0 1 2 4) k { d := some 1, a := some 2, needA := 64, needD := 32 } (decide (kf k 4 0 9 = 16 ∧ kf k 4 30 34 = 0)) = true) ∧
    (let k : FMap DWord := [(4, 2 ^ 14)]
     aTask (.kvcompact 0 1 2 3 4) k { d := some 1, a := some 2, b := some 3 } (decide (kf k 4 14 14 = 1 ∧ kf k 4 28 36 = 0)) = true) ∧
    (let k : FMap DWord := [(4, BitVec.ofNat 64 (8 * 2 ^ 14))]
     aTask (.sopen 0 4) k {} (size8 (kf k 4 14 11) && decide (kf k 4 30 2 = 0 ∧ kf k 4 48 16 = 0 ∧ kf k 5 56 8 = 0)) = true) ∧
    aTask (.srule 0 false 1 2 none 4) [] { d := some 1, a := some 2 } true = true ∧
    (let k : FMap DWord := [(4, 2 ^ 14)]
     aTask (.saccept 0 true 1 2 3 4) k { d := some 1, a := some 2, b := some 3 } (decide (kf k 4 14 9 = 1 ∧ kf k 4 23 41 = 0)) = true) ∧
    (let k : FMap DWord := [(6, 2 ^ 14)]
     aTask (.skv 0 1 4) k { a := some 1, pairs := [4] } (decide (kf k 6 14 14 = 1 ∧ kf k 6 28 36 = 0)) = true) ∧
    aTask (.spublish 0 4) [] {} true = true ∧ aTask (.sclose 0 4) [] {} true = true ∧ aTask (.scount 0 1 4) [] {} true = true ∧
    aTask (.qsend 0 1 511 3) [] { a := some 1, needA := 64 * 511 + 64 } true = true ∧ aTask (.qrecv 0 1 true 3) [] { d := some 1, needD := 64 } true = true ∧
    aTask (.ssignal 0 2 1 true) [] { pairs := [2] } true = true ∧ aTask (.swait 0 .ge false 2 4) [] { pairs := [2] } true = true ∧
    (∀ i ∈ ([.kread 0 1 2 true] : List Instr), TaskReady (taskState i []) i 0 { pairs := [2] }) := by
  refine ⟨?_, ?_, ?_, ?_, ?_, ?_, ?_, ?_, ?_, ?_, ?_, ?_, ?_, ?_, ?_, ?_, ?_, ?_, ?_, ?_, fun i hi => taskReady_of ?_⟩
  all_goals first | decide +kernel | (revert i; decide +kernel)

/-- A buffer that is undeclared, one that is too small, a class without a free buffer, and areas before other instructions. -/
theorem test_wit_FrontStageFaultsAndFetches_faults :
    AtFront (front (.qsend 0 4 0 1) buffers) (.qsend 0 4 0 1) 0 ∧ ((front (.qsend 0 4 0 1) buffers).part 0).rename.get? 4 = none ∧
    ((front (.qsend 0 1 512 1) buffers).part 0).bufBytes? 0 = some 32768 ∧ 32768 < 64 * 512 + 64 ∧
    ((front (.qrecv 0 1 true 3) fun x => { buffers x with free := [] }).part 0).freeOf 0 = [] ∧ ((front .snop).part 0).frontHeld = false := by
  exact ⟨atFront_of (by decide +kernel), by decide +kernel, by decide +kernel, by decide +kernel, by decide +kernel, by decide +kernel⟩

/-- A core block and a stream block in mapped memory, good and with a nonzero check. -/
def fetching (b : Nat) (s : State) : State := mapped (fun m => m.write 0x1000 64 b) s
theorem test_wit_FrontStageFaultsAndFetches_fetch :
    (let s := at_ (.nop z) id id (fetching ((placedBlock false 0).bits + 65536))
     (match touch s 0 0 0x1000 { fetch := true, bytes := 64 } with
       | .ok (s1, o) => dataFailure s1 0 o.store o.addr == none && (Block.mk 0x1000 (s1.load o.store o.addr 64)).coreFault == some 0x0903
       | .error _ => false) = true) ∧
    (let b := placedBlock false 0
     let s := at_ (.nop z) id id (fetching (b.bits + 65536 * crc16 b.body))
     (match touch s 0 0 0x1000 { fetch := true, bytes := 64 } with
       | .ok (s1, o) => (Block.mk 0x1000 (s1.load o.store o.addr 64)).coreFault.isNone && (team s).entry?.isSome
       | .error _ => false) = true) ∧
    (let b := placedBlock true 0
     let s := fetching (b.bits + 65536 * crc16 b.body) (front .snop)
     (match touch s 0 128 0x1000 { fetch := true, bytes := 64 } with
       | .ok (s1, o) => (Block.mk 0x1000 (s1.load o.store o.addr 64)).streamFault.isNone && !(s.part 0).frontHeld
       | .error _ => false) = true) := by decide +kernel

/-! Steps, reset and tasks. -/

/-- A pipe, a front stage and an event about to act. -/
theorem test_wit_StepRunsTheInstruction :
    (let s := { State.reset.withFetchWord 96 (encode (.iaddAdd z 1 2 (.reg 3))).toNat with agenda := [] }
     (firstPrepared s (residents s 0)).isNone = true ∧ pipeFree s 0 .a = true ∧
     (match bestTeam s .a ((residents s 0).filter fun y => readyOn s 0 .a y.1 y.2) with
       | some (_, t) => (match t.entry?, t.block with
         | some e, some b => reads (coreDecode (BitVec.ofNat 96 (b.word e.pc.slot))) (.iaddAdd z 1 2 (.reg 3))
         | _, _ => false)
       | none => false) = true) ∧
    (let x := (State.reset.withFetchWord 96 (encode .sjoin).toNat).part 0
     x.frontHeld = false ∧ (match x.fblock with
       | some b => b.addr == x.pc.blk && decide (x.pc.slot < b.count) && reads (streamDecode (BitVec.ofNat 96 (b.word x.pc.slot))) .sjoin
       | none => false) = true) ∧
    (Instr.form (.twctlGo 0) = none ∧ Instr.isStream (.twctlGo 0) = false) ∧ State.reset.agenda = [] := by decide +kernel

theorem test_wit_StepKeepsMemory : MemWf (State.reset.withFetchWord 96 0) ∧
    (match step (State.reset.withFetchWord 96 0) with
      | .next _ => true
      | _ => false) = true := by unfold MemWf; decide +kernel

/-- Partition 0 with task i the oldest of its window, its descriptor in k and its buffers 0, 1 and 2, and mapped memory. -/
def tasked (i : Instr) (k : FMap DWord := []) (f : WinEntry → WinEntry := id) (g : Part → Part := id) (m : Memory → Memory := id) : State :=
  mapped m (front i fun x => g { buffers x with
    pcore0 := 1
    window := [f { placedLaunch with insn := i, status := .waiting, k, placed := 0, a := some 1, b := some 2, d := some 0 }] })

def mayGo (s : State) : Bool := match s.entryOf 0 0 with
  | some e => mayIssue s 0 e
  | none => false

def entry (s : State) : WinEntry := (s.entryOf 0 0).getD placedLaunch

/-- A read of n bytes at va by the window succeeds. -/
def canRead (s : State) (va n : Nat) (acc : Acc) : Bool := match touch s 0 128 va { acc with bytes := n } with
  | .ok (s1, o) => (rangeFailure s1 0 o.store o.addr n).isNone
  | .error _ => false

/-- Queue 3 from partition 0 to partition 1, or the other way, with both consents. -/
def queue3 (send : Bool) (s : State) : State :=
  { (s.updPart 0 fun x => { x with state := .formed, qconsent := 8 }).updPart 1 fun x => { x with state := .formed, qconsent := 8 } with
    qdef := [(3, if send then { send := 0, recv := 1, en := true } else { send := 1, recv := 0, en := true })] }

theorem test_wit_TasksIssue :
    mayGo (tasked (.launch 0 none none none 16)) = true ∧
    (let s := tasked (.kread 0 1 2 true) [(2, 0x2004)]
     mayGo s = true ∧ kPair (entry s).k 2 % 8 ≠ 0) ∧
    (let s := tasked (.kread 0 1 2 true) [(2, 0x2008)]
     mayGo s = true ∧ kPair (entry s).k 2 % 8 = 0 ∧ canRead s 0x2008 8 { read := true } = true) ∧
    (let s := tasked (.mmt 0 true false 1 2 3 4) (mmtK true)
     mayGo s = true ∧ (matTask (entry s)).isSome = true ∧ (entry s).tiles = []) ∧
    (let s := tasked (.mmt 0 true false 1 2 3 4) (mmtK true) fun e => { e with tiles := [(0, { core := 0, tiles := [0], queue := none, done := true })] }
     mayGo s = true ∧ (entry s).tiles ≠ []) ∧
    mayGo (tasked (.copyt 0 false none none 4) [(5, 64), (6, 0x100), (8, 0x200)]) = true ∧
    (let s := queue3 true (tasked (.qsend 0 1 0 3))
     mayGo s = true ∧ queueHeld s 0 3 true = true ∧ queueHeld s 0 3 false = false ∧ queueHeld s 0 4 true = false) ∧
    (let s := tasked (.ssignal 0 2 1 false) [(2, 0x2004)]
     mayGo s = true ∧ canRead s 0x2004 4 { write := true } = true) ∧
    (let s := tasked (.swait 0 .ge true 2 4) [(2, 0x2008)]
     mayGo s = true ∧ canRead s 0x2008 8 { read := true } = true) := by decide +kernel

/-- A tree whose only member is its root, and none. -/
theorem test_wit_TasksIssue_trees :
    (let s := tasked (.redt 0 2 3) [(2, 0x2000)] id id fun m => m.write 0x2000 1 0xC0
     mayGo s = true ∧ canRead s 0x2000 128 { read := true } = true ∧ ((next (.taskIssue 0 0) s).part 0).trees.keys = [3]) ∧
    (let s := tasked (.redt 0 2 3) [(2, 0x2000)]
     mayGo s = true ∧ canRead s 0x2000 128 { read := true } = true ∧
     (entry (next (.taskIssue 0 0) s)).status = .faulted { code := 0x0813, engine := 0, core := 127, addr := none }) := by decide +kernel

theorem test_wit_TilesAndCompletions_tiles :
    (let s := next (.taskIssue 0 0) (tasked (.mmt 0 false false 1 2 3 4) (mmtK false))
     let e := entry s
     e.status = .issued ∧ e.unhanded 0 = true ∧ 0 ∉ e.avoid ∧ (s.part 0).hasCore 0 = true ∧ canTile s 0 e.cls = true ∧
     (chooseTiles s 0 e.cls e.mblocks false true).isSome = true ∧ ((matTask e).map fun h => decide (0 < h.1.count e.mblocks)) = some true ∧ e.firstFree = none ∧
     (entry (s.updEntry 0 0 fun e => { e with firstFree := some 0 })).firstFree = some 0) ∧
    (let s := tasked (.swait 0 .ge true 2 4) [(2, 0x2008)] fun e => { e with status := .issued, lastPoll := some 0 }
     (entry s).result = 0 ∧ s.clock < 0 + 256) ∧
    (let s := { tasked (.swait 0 .ge true 2 4) [(2, 0x2008), (6, 256)] fun e => { e with status := .issued, lastPoll := some 0 } with clock := 256 }
     0 + 256 ≤ s.clock ∧ canRead s 0x2008 8 { read := true } = true ∧ ((entry s).k.getD 6 0).toNat ≠ 0 ∧ (entry s).since + 256 ≤ s.clock) := by
  decide +kernel

def issued (e : WinEntry) : WinEntry := { e with status := .issued }

theorem test_wit_TilesAndCompletions_complete :
    (∀ i ∈ ([.kread 0 1 2 true, .maskgen 0 1 2 4, .sopen 0 4, .ssignal 0 2 1 true, .copyt 0 false none none 4, .skv 0 1 4] : List Instr),
      (entry (tasked i [] issued)).status = .issued ∧ (tasked i [] issued).copies = []) ∧
    (entry (tasked (.launch 0 none none none 16) [] fun e => { issued e with ended := 1 })).ended = ((0 : Nat) % 2 ^ 32) + 1 ∧
    (let s := next (.taskIssue 0 0) (tasked (.mmt 0 false false 1 2 3 4) (mmtK false))
     ((matTask (entry s)).map fun h => h.1.count (entry s).mblocks) = some 1) ∧
    (let s := queue3 true (tasked (.qsend 0 1 0 3) [] issued)
     queueHeld s 0 3 true = true ∧ (s.queues.getD 3 []).length < 64 ∧ rangeFailure s 0 (.buf 0) (2 ^ 26) 64 = none) ∧
    (∀ half ∈ [true, false],
      let s := { queue3 false (tasked (.qrecv 0 1 half 3) [] issued) with queues := [(3, [1, 2])] }
      queueHeld s 0 3 false = true ∧ s.queueLost.getD 3 0 = 0 ∧ s.queues.getD 3 [] = 1 :: [2]) := by decide +kernel

theorem test_wit_IssueAndRetirementOrder :
    (let s := tasked (.kread 0 1 2 true) [(2, 0x2008)] fun e => { e with seq := 1 }
     let s := s.updPart 0 fun x => { x with window := placedLaunch :: x.window }
     mayGo (tasked (.kread 0 1 2 true)) = true ∧ (∃ o ∈ (s.part 0).window, o.seq < 1)) ∧
    (∀ i ∈ ([.kread 0 1 2 true, .scount 0 1 4, .bdrop 1] : List Instr),
      let e := entry (tasked i [] fun e => { e with status := .completed })
      e.status = .completed ∧ e.pend = none ∧ e.kvSlots = []) ∧
    Instr.isTask .shalt = false ∧
    (let s := tasked (.ssignal 0 2 1 false) [(2, 0x2004)] fun e => { e with status := .completed }
     (s.part 0).ssig = [] ∧ ((s.updPart 0 fun x => { x with ssig := [{ addr := 0, len := 4 }] }).part 0).ssig ≠ [] ∧
     (match touch ((s.updPart 0 fun x => { x with window := [] }).asking (entry s).entered) 0 128 0x2004 { write := true, bytes := 4 } with
       | .ok (_, o) => o.store == .host
       | .error _ => false) = true) ∧
    (let s := tasked (.sopen 0 4) [(4, BitVec.ofNat 64 (8 * 2 ^ 14))]
     let e := entry (next (.taskIssue 0 0) s)
     mayGo s = true ∧ (e.pend.bind Pend.block).isSome = true ∧ e.prev = none ∧ e.kvSlots = []) := by decide +kernel

/-! The Slot Unit and the stops of the stream. -/

/-- A block of eight slots at 0, of which slot 0 is final and the rest masked. -/
def block8 (ordered : Bool) : SlotBlock := { size := 8, ordered, positional := false, ring := 2, reqid := 5, pos0 := 0, endTok := 7 }
def slots8 (ordered : Bool) (x : Part) : Part := { x with
  blocks := [(0, block8 ordered)]
  slots := (0, { state := .final, token := 3 }) :: (List.range 7).map fun n => (n + 1, { state := .masked }) }

def c0 (i : Nat) (q : Nat) (d : Option Nat) (o : Outcome) : Cand := { i, held := none, c := 1, q, d, out := o, tok := 1 }

theorem test_wit_ConfidenceRule :
    (let l := [c0 0 0x3C00 none .f, c0 1 0x3800 none .f, c0 2 0 none .m]
     l.Pairwise (fun a b => a.i < b.i) ∧ (∀ x ∈ l, (FFmt.f16.val x.q).isNaN = false) ∧ ∃ x ∈ l, x.out = .f) ∧
    (let l := [c0 0 0x3C00 none .t, c0 2 0 none .m]
     l.Pairwise (fun a b => a.i < b.i) ∧ l ≠ [] ∧ ∀ x ∈ l, x.out ≠ .f) := by decide +kernel

def viewBlock (s : State) : Option SlotBlock := (slotView s 0 0).blocks.get? (blockOf (entry s))

theorem test_wit_SlotTasksIssue :
    (∀ i ∈ ([.srule 0 false 1 2 none 4, .saccept 0 false 1 2 3 4, .skv 0 1 4, .kvcompact 0 1 2 3 4, .spublish 0 4, .sclose 0 4, .scount 0 1 4] :
      List Instr), mayGo (tasked i) = true ∧ viewBlock (tasked i) = none) ∧
    (∀ i ∈ ([.srule 0 false 1 2 none 4, .skv 0 1 4] : List Instr), mayGo (tasked i [] id (slots8 true)) = true ∧
      (viewBlock (tasked i [] id (slots8 true))).map SlotBlock.ordered = some true) ∧
    (∀ i ∈ ([.saccept 0 false 1 2 3 4, .kvcompact 0 1 2 3 4] : List Instr), mayGo (tasked i [] id (slots8 false)) = true ∧
      (viewBlock (tasked i [] id (slots8 false))).map SlotBlock.ordered = some false) ∧
    (let k : FMap DWord := [(4, BitVec.ofNat 64 (8 + 8 * 2 ^ 14))]
     mayGo (tasked (.sopen 0 4) k id (slots8 false)) = true ∧ kf k 4 0 14 % kf k 4 14 11 = 0 ∧
     ¬((0 : Nat) < kf k 4 0 14 + kf k 4 14 11 ∧ kf k 4 0 14 < 0 + 8)) ∧
    (∀ i ∈ ([.spublish 0 4, .sclose 0 4, .scount 0 1 4] : List Instr), mayGo (tasked i [] id (slots8 false)) = true ∧
      (viewBlock (tasked i [] id (slots8 false))).isSome = true) ∧
    (let s := tasked (.skv 0 1 4) [(6, 2 ^ 14)] (fun e => { e with areas := [{ base := 0, len := 1024, write := true }] }) (slots8 false)
     mayGo s = true ∧ 128 * kf (entry s).k 6 14 14 ≠ 0 ∧ (s.part 0).bufBytes? 1 = some 32768 ∧ kPair (entry s).k 4 + 8 * 128 ≤ 1024) ∧
    (let s := tasked (.maskgen 0 1 2 4) [(4, 2)]
     mayGo s = true ∧ badBuf s 0 ((entry s).a, 0, 8) = none ∧ (s.memOf (.buf 0)).read (2 ^ 26 * 1 + 4) 4 / 2 ^ 24 < 1) := by decide +kernel

theorem test_wit_SpeculationEngine :
    (let s := tasked (.srule 0 false 1 2 none 4) [] (fun e => { e with b := none }) (slots8 false)
     mayGo s = true ∧ 8 * 8 ≤ 32768 ∧ badBuf s 0 ((entry s).a, 0, 8) = none ∧
     (let l := candidates s 0 1 none (slotView s 0 0) 0 (block8 false) 0 0
      l ≠ [] ∧ ∀ x ∈ l, x.c ≠ 0xFFFFFF)) ∧
    (let s := tasked (.srule 0 false 1 2 none 4) [] (fun e => { e with b := none }) fun x =>
       { slots8 false x with bufs := Memory.write [] (2 ^ 26 + 8) 3 0xFFFFFF }
     ∃ x ∈ candidates s 0 1 none (slotView s 0 0) 0 (block8 false) 0 0, x.c = 0xFFFFFF) ∧
    (let s := tasked (.saccept 0 false 1 2 3 4) [(4, 2 * 2 ^ 14)] id (slots8 true)
     mayGo s = true ∧ badBuf s 0 ((entry s).a, 0, 8) = none ∧ badBuf s 0 ((entry s).b, 0, 8) = none ∧ nodeParent s 0 1 1 < 1 ∧
     (acceptPath s 0 1 2 2 7 2 0).length = 1) ∧
    (let s := tasked (.saccept 0 false 1 2 3 4) [(4, 2 * 2 ^ 14)] id fun x => { slots8 true x with bufs := Memory.write [] (2 ^ 26 + 7) 1 1 }
     ¬nodeParent s 0 1 1 < 1) := by decide +kernel

/-- A ring of two records at 0x3000 with room, or full, whose consumer index stands at 0x3800. -/
def ringed (full : Bool) (x : Part) : Part := { slots8 false x with
  rings := [(2, { base := 0x3000, cons := 0x3800, en := true, log2n := 1, prod := if full then 2 else 0, lim := 1 })] }

theorem test_wit_RingRecords :
    (let s := tasked (.spublish 0 4) [] issued (ringed false)
     (slotView s 0 0).unpublished 0 (block8 false) ≠ [] ∧ ((s.part 0).rings.getD 2 {}).isFull = false ∧ 0x3000 % 32768 ≤ 32768 - 64 ∧
     (match touch s 0 128 0x3000 { write := true, bytes := 64 } with
       | .ok (_, o) => o.store == .host
       | .error _ => false) = true) ∧
    (let s := { tasked (.spublish 0 4) [] issued (ringed true) with clock := 256 }
     ((s.part 0).rings.getD 2 {}).isFull = true ∧ canRead s 0x3800 4 { read := true } = true ∧ (entry s).since + 256 * 1 ≤ s.clock) ∧
    (let s := tasked (.spublish 0 4) [] issued fun x => { ringed true x with rings := (ringed true x).rings.map fun r => (r.1, { r.2 with polled := some 0 }) }
     ((s.part 0).rings.getD 2 {}).polled = some 0 ∧ s.clock < 0 + 256) := by decide +kernel

def aFault : TaskFault := { code := 0x0303, engine := 0, core := 127, addr := none }
/-- The stream stopped, with entry 0 faulted. -/
def stopped (lost : Bool) : State := tasked (.kread 0 1 2 true) [] (fun e => { e with status := .faulted aFault, lost })
  fun x => { x with twState := .faulted }

theorem test_wit_FaultsAndResolutions :
    (let s := front .snop fun x => { x with ffault := some { code := 0x0801, pc := ⟨0, 0⟩, op := 0, cls := 0, addr := none, block := false } }
     (s.part 0).twState = .running ∧ (s.part 0).window = []) ∧
    (let s := (tasked (.kread 0 1 2 true) [] fun e => { e with status := .faulted aFault }).updPart 0 fun x =>
       { x with window := x.window ++ [{ placedLaunch with seq := 1, status := .waiting, placed := 0 }] }
     ((s.part 0).window.map WinEntry.seq).Nodup ∧ taskStopped s 0 0 true = true ∧ taskStopped s 0 1 false = true) ∧
    (∀ lost ∈ [true, false], ((stopped lost).part 0).state = .formed ∧ ((stopped lost).part 0).twState = .faulted ∧ (entry (stopped lost)).lost = lost) ∧
    (∀ block ∈ [true, false], let s := front .snop fun x => { x with
        twState := .faulted, ffault := some { code := 0x0801, pc := ⟨0, 0⟩, op := 0, cls := 0, addr := none, block } }
      (s.part 0).state = .formed ∧ (s.part 0).window = [] ∧ (s.part 0).ffault.map FrontFault.block = some block) := by decide +kernel

/-- Partition 0 running, a HALT pending, with the placed team. -/
def halting (f : Part → Part := id) (t : Team → Team := id) : State :=
  at_ (.nop z) t id fun s => s.updPart 0 fun x => f { x with haltReq := true }

theorem test_wit_StartHaltAndPreemption :
    (∀ st ∈ [TwState.idle, .running, .halted, .faulted], ((State.reset.setPart 0 { state := .formed, twState := st }).part 0).state = .formed) ∧
    ((halting).part 0).haltReq = true ∧ (∀ c ∈ (halting).crews, c.2.preempt = false) ∧
    (∃ y ∈ ({ halting with copies := [(0, { owner := .task 0 0, core := none, part := 0, src := .g 0, dst := .g 0, kind := .copy 8, flightCore := [(0, 3)] })] } :
      State).copies, y.2.part = 0 ∧ 3 ∈ y.2.flightCore.vals) ∧
    ((halting).teams.all fun t => !t.2.stopped && t.2.hostAtomic.isNone && t.2.portFail.isNone && !t.2.handler) = true ∧
    (∃ e ∈ holders (halting) 0, acked (halting) 0 e = false) ∧
    (∀ e ∈ holders (halting id fun t => { t with stopped := true }) 0, acked (halting id fun t => { t with stopped := true }) 0 e = true) ∧
    (State.reset.part 0).state ≠ .formed := by decide +kernel

/-! Crews, copies, barriers, the Spindle and reductions. -/

/-- The LAUNCH of k16 in the window, issued, of class cls. -/
def launching (cls : Nat) (k : FMap DWord := []) (f : State → State := id) : State :=
  f (tasked (.launch 0 none none none 16) k fun e => { issued e with cls })

/-- A placed crew of class 0 that fills the scratchpad of core 0. -/
def filled (s : State) : State := { s with crews := [(7, { placedCrew with seq := 9, winBytes := 2 ^ 21 })], nextCid := 8 }

/-- A window of 512 bytes. -/
def win512 : FMap DWord := [(18, 2 ^ 32)]

theorem test_wit_CrewPlacement :
    (let s := launching 0
     let e := entry s
     let h := launchShape e.k 16
     canPlace s (needOf 0 e h) [0] [0] [] = true ∧ e.placed < h.ncrew ∧ e.status = .issued ∧ e.avoid = [] ∧ e.apart = [] ∧ s.crews.get? s.nextCid = none) ∧
    (let s := launching 0 win512 filled
     let e := entry s
     canPlace s (needOf 0 e (launchShape e.k 16)) [0] [0] [] = false) := by decide +kernel

/-- The placed crew, pre-empted and waiting. -/
def waitingCrew (placed : Bool) : State := at_ (.nop z) (fun t => { t with stopped := true }) fun c => { c with placed }

theorem test_wit_CrewPreemption :
    (let s := launching 1 win512 filled
     let e := entry s
     let h := launchShape e.k 16
     fits s (needOf 0 e h) (admits s (needOf 0 e h) e e.placed) = false ∧ e.placed < h.ncrew ∧ (∀ c ∈ s.crews, c.2.preempt = false) ∧ (s.part 0).twState = .running) ∧
    (let s := launching 1 win512
     let n := needOf 0 (entry s) (launchShape (entry s).k 16)
     fits s n (admits s n (entry s) (entry s).placed) = true) ∧
    (let s := waitingCrew false
     let c := { placedCrew with placed := false }
     let live := teamsOf s 0
     let n : Need := { part := 0, cls := 0, teams := live.length, words := ((live.map fun x => x.2.words).foldl max 1), ncores := 1, win := 0
                       tiles := 0, queues := c.nqueues s, mirror := false }
     s.crews.get? 0 = some c ∧ waitsForRoom s 0 c = true ∧ earlierWaits s c = false ∧ canPlace s n [0] [2] [] = true ∧
     (s.teams.map Prod.fst).Nodup ∧ ∀ x ∈ live, x.2.quarter / 4 = 0) ∧
    ((waitingCrew true).crews.get? 0).map Crew.placed = some true := by decide +kernel

/-- Team 0 as f makes it beside team 1, which waits for a place. -/
def two (f : Team → Team) (g : Crew → Crew := id) (h : Part → Part := id) : State := at_ (.nop z) f g fun s =>
  { s.updPart 0 h with teams := s.teams.set 1 { placedTeam 0 with num := 1, order := 1, active := false }, clock := 256 }

theorem test_wit_TeamsChangeAndEnd :
    (let s := two fun t => { t with run := none, entries := t.entries.map fun e => { e with hold := .join 1 } }
     (firstReady s (pendingReady s 0)).map Prod.fst = some 1 ∧ activeCount s 0 < 8 ∧ s.teams.get? 5 = none ∧
     ((s.teams.get? 0).map fun t => t.active && isPlaced s t && isBlocked s 0 t) = some true) ∧
    (let s := two id
     ((s.teams.get? 0).map fun t => isBlocked s 0 t) = some false ∧ firstReady s (pendingReady s 1) = none) ∧
    (let s := two id id fun x => { x with tslice := 1 }
     let l := (pendingReady s 0).filter fun y => 0 ≤ classOf s y.2
     (firstReady s (l.filter fun y => classOf s y.2 == topClass s l)).map Prod.fst = some 1 ∧
     (s.teams.get? 0).map (fun t => (t.active, t.enteredAt, t.handler)) = some (true, 0, false)) ∧
    (let s := at_ (.nop z) id id fun s => { s.updPart 0 fun x => { x with tslice := 1 } with clock := 256 }
     firstReady s (pendingReady s 0) = none) ∧
    (∀ l ∈ [true, false], let s := two (fun t => { t with entries := [] }) id
     let s := if l then { s with teams := s.teams.erase 1 } else s
     (s.teams.get? 0).map (fun t => t.entries.isEmpty && t.hostAtomic.isNone && t.writes.isEmpty) = some true ∧ s.copies = [] ∧ s.spin = []) := by
  decide +kernel

def f_ (x : Ctx) (r lo n : Nat) : Nat := (x.t.s r).toNat / 2 ^ lo % 2 ^ n
def scalars (l : FMap DWord) (t : Team) : Team := { t with sregs := l }
/-- A crew with a window, four tiles and a mask queue. -/
def equipped (m : Memory := []) (c : Crew) : Crew := { windowed m c with tiles := 4, tileMap := [(0, [0, 1, 2, 3])], queueMap := [(0, [0])] }

theorem test_wit_CopiesIssue :
    here (.hcopyCopy z .w .l 2 3 4 none) (scalars [(2, 4000), (3, 0), (4, 96)]) (equipped []) id (fun _ x =>
      x.m != 0 && decide (x.t.base? .w 2 = some 4000 ∧ x.t.base? .l 3 = some 0 ∧ 4000 + f_ x 4 0 32 ≤ x.crew.winBytes ∧
        f_ x 4 0 32 ≤ (x.crew.seg x.core).2)) = true ∧
    here (.hcopyCopy z .w .l 2 3 4 (some ⟨5, true, false⟩)) (scalars [(5, 4080)]) (equipped []) id (fun _ x =>
      x.m != 0 && decide ((x.t.s 5).toNat + 16 ≤ x.crew.winBytes ∧ f_ x 4 0 32 = 0)) = true ∧
    here (.hcopyPlane z .w .w 2 3 4 none .i1 2) (scalars [(2, 32), (4, 16 + 2 ^ 32)]) (equipped []) id (fun _ x =>
      x.m != 0 && decide (f_ x 4 0 32 = 16 ∧ f_ x 4 32 16 = 1 ∧ f_ x 2 0 32 % 32 = 0)) = true ∧
    here (.hcopySplit z .w .w 2 3 4 none true 9 1) (scalars [(2, 32 + 2 ^ 43), (3, 8), (4, 1 + 2 ^ 32)]) (equipped []) id (fun _ x =>
      x.m != 0 && decide (f_ x 4 0 32 = 1 ∧ f_ x 4 32 16 = 1 ∧ f_ x 2 0 32 % 32 = 0 ∧ f_ x 2 32 32 % 2 = 0 ∧ f_ x 3 0 32 % 8 = 0)) = true ∧
    here (.hcopyMask z .w 0 3 4 none) (scalars [(3, 32), (4, 127)]) (equipped []) id (fun _ x =>
      x.m != 0 && decide (32 + 32 * f_ x 4 0 32 ≤ x.crew.winBytes) && (queueOf x 0).isSome) = true ∧
    here (.hcopyGather z .w .w 2 3 4 none 0) (scalars [(2, 4), (3, 4), (4, 2 + 4088 * 2 ^ 32)]) (equipped []) id (fun _ x =>
      x.m != 0 && decide (f_ x 4 32 32 + 4 * f_ x 4 0 32 ≤ x.crew.winBytes)) = true ∧
    ready [.hcopyCopy off .w .l 2 3 4 none, .hcopyPlane off .w .w 2 3 4 none .i1 2, .hcopySplit off .w .w 2 3 4 none true 9 1,
      .hcopyMask off .w 0 3 4 none, .hcopyGather off .w .w 2 3 4 none 0] id id id nobody = true := by decide +kernel

/-- A copy of team 0 in batch 1, of 4100 bytes from its window to offset 4096. -/
def copy1 : Copy := { owner := .team 0 1 1, core := some 0, part := 0, src := .w 0 0, dst := .w 0 4096, kind := .copy 4100 }
def copying (x : Copy) (i : Instr := .nop z) (win : Nat := 16384) : State :=
  at_ i (fun t => { t with sealed := 1 }) (fun c => { c with winBytes := win }) fun s => { s with copies := [(0, x)], nextAge := 1 }
def cfault : CFault := { code := 0x0301, addr := 4096, core := 0 }

theorem test_wit_CopiesComplete :
    here (.bseal z 1) id id id (fun _ x => x.m != 0 && decide (x.t.sealed + 1 < 2 ^ 32)) = true ∧
    here (.bseal z 1) (fun t => { t with sealed := 2 ^ 32 - 1 }) id id (fun _ x => x.m != 0 && decide (2 ^ 32 ≤ x.t.sealed + 1)) = true ∧
    here (.bwait z (.imm 5)) (fun t => { t with sealed := 1 }) id id (fun s x => x.m != 0 && s.copies.isEmpty && s.spin.isEmpty) = true ∧
    here (.bwait z (.reg 2)) (fun t => { t with sealed := 1, sregs := [(2, 1)] }) id (fun s => { s with copies := [(0, { copy1 with fault := some cfault })] })
      (fun s x => x.m != 0 && (firstFaulty (faultyOf s 0 1)).isSome) = true ∧
    ready [.bseal off 1, .bwait off (.imm 1)] id id id nobody = true ∧
    (let s := copying copy1
     inFlight s 0 < 8 ∧ (s.copies.find? fun e => startable s 0 e.2) = some (0, copy1) ∧
     (match readAt s 0 0 copy1.src 0 4096 with
       | .ok (s1, _) => s1.copies == s.copies
       | .error _ => false) = true) ∧
    (let s := copying { copy1 with started := 1 } (.nop z) 4096
     (s.copies.find? fun e => startable s 0 e.2).map Prod.fst = some 0 ∧
     (match readAt s 0 0 copy1.src 4096 4 with
       | .ok _ => false
       | .error (f, s1) => f.walk.isNone && s1.copies == s.copies) = true) ∧
    (let x := { copy1 with started := 2, flight := [(0, List.replicate 4096 1), (1, [1, 2, 3, 4])] }
     ∀ j ∈ [0, 1], (x.flight.get? j).map List.length = some (min 4096 (4100 - 4096 * j)) ∧ x.started = x.chunks) ∧
    ({ copy1 with started := 2, flight := [(1, [1, 2, 3, 4])] } : Copy).flight.get? 0 = none := by decide +kernel

/-- A barrier at 4080 of the window, the last place for one: its phase, PENDING and byte counts. -/
def withBar (b : Bar) (c : Crew) : Crew := windowed (Memory.write [] 4080 16 b.toNat) c
def bar0 : Bar := { gen := 15, overrun := false, pending := 1, expected := 1, inbound := 0, outbound := 0 }
def at4080 : Team → Team := scalars [(4, 4080)]

theorem test_wit_Barriers :
    (∀ b ∈ [bar0, { bar0 with inbound := 5 }], b.land 5 = ((if b.inbound < 5 then { b with inbound := 0, overrun := true } else { b with inbound := b.inbound - 5 } : Bar)).settled) ∧
    ready [.barWaitout z 4, .barInit z 4 (.imm 1), .barExpect z false 4 (.imm 1), .barExpect z true 4 (.imm 1), .barArrive z 1 4,
      .barArrivex z 1 4 (.imm 1), .barTest z 1 4 (.imm 15), .barWait z 4 (.imm 14)] at4080 (withBar bar0) id
      (fun _ _ x => x.m != 0 && decide ((x.t.s 4).toNat + 16 ≤ x.crew.winBytes) && x.t.writes.isEmpty) = true ∧
    ready [.barExpect z false 4 (.imm 1), .barExpect z true 4 (.imm 1), .barArrivex z 1 4 (.imm 1)] at4080
      (withBar { bar0 with inbound := 2 ^ 32 - 1, outbound := 2 ^ 32 - 1 }) id (fun _ _ x => x.m != 0) = true ∧
    ready [.barWait z 4 (.imm 14), .barWaitout z 4] at4080 (withBar { bar0 with overrun := true }) id = true ∧
    (([1, 4084, 4096, 0x100000000] : List DWord).all fun v => ready [.barInit z 4 (.imm 1)] (scalars [(4, v)]) (windowed []) id) = true ∧
    ready [.barWaitout off 4, .barInit off 4 (.imm 0)] id id id nobody = true := by decide +kernel

/-- Queue 0 with masks ready. -/
def masksReady (s : State) : State := { s with mqs := [(0, [1, 2])] }
def tree3 (bytes : List Byte) (s : State) : State := s.updPart 0 fun x => { x with trees := [(3, bytes)] }
/-- Core 0 the root of a tree with a child in the east, core 1. -/
def pairTree : List Byte := 0xC4 :: 0x80 :: List.replicate 126 0
def ones : Partial := { round := 0, vals := List.replicate 32 0x3F800000, report := none }
def routers (a b : Router) (s : State) : State := (s.setRouter 0 3 0 a).setRouter 0 3 1 b

theorem test_wit_SpindleOperations :
    here (.mmp z 0 2 4 ⟨true, 0⟩ 3 .i8 .i1 1) (scalars [(2, 2 ^ 32), (4, 2 ^ 32)]) (equipped []) masksReady
      (fun _ x => x.m != 0 && decide (f_ x 2 32 32 = 1 ∧ 0 + 4 ≤ x.crew.tiles ∧ 4096 ≤ x.crew.winBytes) && (queueOf x 0).isSome) = true ∧
    here (.mmp z 0 2 4 ⟨false, 0⟩ 3 .i8 .i1 1) id (equipped []) id (fun _ x => x.m != 0 && f_ x 2 32 32 == 0) = true ∧
    here (.mms z 0 2 4 1 2 1) (scalars [(2, 2 ^ 42), (4, 2 ^ 42)]) (fun c => { equipped [] c with winBytes := 8192 }) id (fun _ x => x.m != 0 &&
      decide (f_ x 2 32 32 + 32 ≤ x.crew.winBytes)) = true ∧
    ready [.accZero z true 2, .accLoad z false 3 2, .accOut z false 3 2 4 ⟨false, 0⟩ 10 false .rne, .accMove z true 2 0, .accSpill z true 2 2, .mqStat z 1 0,
      .mqFlush z 0] (scalars [(4, 0xFFFFFFFFFFFFFFFF)]) (fun c => { equipped [] c with winBytes := 16384 }) id = true ∧
    ready [.accZero z true 3, .mqStat z 1 1, .mqFlush z 1] id (equipped []) id = true ∧
    ready [.mmp off 0 2 4 ⟨false, 0⟩ 3 .i8 .i1 1, .mms off 0 2 4 1 2 1, .accZero off true 2, .accLoad off false 3 2,
      .accOut off false 3 2 4 ⟨false, 0⟩ 10 false .rne, .accMove off true 2 0, .accSpill off true 2 2, .mqStat off 1 0, .mqFlush off 0, .nredPush off 2 3, .nredWait off 2 3 true]
      id id id nobody = true ∧
    here (.nredPush z 2 3) (scalars [(2, 3968)]) (windowed []) (tree3 []) (fun s x => x.m != 0 && !isMember s 0 3 0) = true ∧
    here (.nredPush z 2 3) (scalars [(2, 3968)]) (windowed []) (tree3 pairTree) (fun s x => x.m != 0 && isMember s 0 3 0 && x.t.writes.isEmpty) = true ∧
    here (.nredWait z 2 3 false) id (windowed []) (tree3 pairTree) (fun _ x => x.m != 0 && (x.t.pushes.get? 3).isNone) = true ∧
    here (.nredWait z 2 3 true) (fun t => { scalars [(2, 3968)] t with pushes := [(3, { core := 0, round := 0 })] }) (windowed [])
      (fun s => routers { count := 1, results := [(0, ones)] } {} (tree3 pairTree s)) (fun s x => x.m != 0 && isRoot s 0 3 0) = true ∧
    here (.nredWait z 2 3 false) (fun t => { scalars [(2, 3968)] t with pushes := [(3, { core := 1, round := 0 })] }) (windowed [])
      (fun s => routers {} { count := 1 } (tree3 pairTree s)) (fun s x => x.m != 0 && !isRoot s 0 3 1) = true := by decide +kernel

/-- The placed team's operation on the Spindle of core 0. -/
def spinning (kind : SKind) (more : FMap SpinOp := []) : State :=
  at_ (.nop z) id (equipped []) fun s => { s with spin := (0, { core := 0, cls := 0, tid := some 0, cid := some 0, kind }) :: more, nextAge := 2 }
def mmp1 (g : Nat) : SKind := .mmp 0 g 0 2 1 .i1 .i8 none [0, 1]
def flit0 : Flit := { cid := 0, addr := 128, vals := List.replicate 32 0, at_ := 0 }
/-- The routers of the pair tree. -/
def folding (a b : Router) (clock : Nat := 0) : State :=
  at_ (.nop z) id (windowed []) fun s => { routers a b (tree3 pairTree s) with clock }

theorem test_wit_SpindleRunsAndReductions :
    spinOps (at_ (.nop z)) 0 = [] ∧
    (bestOp (spinOps (spinning (.zero false 3)) 0)).map Prod.fst = some 0 ∧
    (let s := spinning (mmp1 1)
     (bestOp (spinOps s 0)).map Prod.fst = some 0 ∧ ∀ r ∈ [0, 1], (s.tile ((equipped [] placedCrew).tileAt 0 r)).kind ≠ .f64 ∧
       (equipped [] placedCrew).tileAt 0 r = r) ∧
    (intAcc .i1 .i8 = true ∧ intAcc .e4m3 .i8 = false) ∧
    (bestOp (spinOps (spinning (mmp1 9)) 0)).map Prod.fst = some 0 ∧ underWay (spinning (mmp1 9)) 0 = none ∧
    (let s := { spinning (mmp1 9) [(1, { core := 0, cls := 1, tid := some 0, cid := some 0, kind := .zero false 3 })] with spinNow := [(0, 0)] }
     (bestOp (spinOps s 0)).map (fun e => (e.1, e.2.cls)) = some (1, 1) ∧ (underWay s 0).map (fun e => (e.1, e.2.cls, e.2.cursor)) = some (0, 0, 0)) ∧
    (let s := folding { flit := some flit0 } { flit := some flit0 }
     isMember s 0 3 1 = true ∧ isRoot s 0 3 1 = false ∧ missingMask s 0 3 1 = 0 ∧ missingMask s 0 3 0 ≠ 0) ∧
    (let s := folding { flit := some flit0, parts := [(2, ones)] } {}
     isRoot s 0 3 0 = true ∧ missingMask s 0 3 0 = 0) ∧
    (let s := folding { flit := some flit0 } {} 65536
     overdue s 0 3 0 = true ∧ overdue (folding { flit := some flit0 } {} 65535) 0 3 0 = false) ∧
    (∀ n ∈ [0, 1, 2], let s := folding { count := 1 } { sent := [{ ones with round := n }] }
     isMember s 0 3 0 = true ∧ overdue s 0 3 0 = false ∧ neighbour 0 .east = some 1 ∧ ((routerOf s 0 3 1).sent.map Partial.round) = [n]) ∧
    (let s := folding {} { flit := some flit0 } 65536
     (s.part 0).nredlim = 0x100 ∧ missingMask s 0 3 1 = 0) ∧
    (let s := { (folding {} { flit := some flit0 } 65536) with parts := (folding {} { flit := some flit0 } 65536).parts } |> tree3 (0xC4 :: 0x84 :: 0x80 :: List.replicate 125 0)
     missingMask s 0 3 1 = 4 ∧ flit0.at_ + 256 * (s.part 0).nredlim.toNat ≤ s.clock ∧ isRoot s 0 3 1 = false) := by decide +kernel

/-! Ports, host registers, service, partitions and resets. -/

/-- The placed team with an outstanding write, read or host atomic, at a clock before or after the limit of 0x4000 × 256. -/
def porting (f : Team → Team) (clock : Nat) (m : State → State := id) : State := at_ (.nop z) f id fun s => { m s with clock }
def limit : Nat := 256 * 0x4000
def write0 : OutWrite := { addr := 0x1000, len := 4, pa := some 0x40, old := 1, val := 2 }
/-- A load of lane 0 that left through a port. -/
def read0 : Producer := { insn := .ld z .w32 2 ⟨.g, .none, .team, 4, 1⟩, pc := ⟨0x1000, 0⟩, base := 0x40000, lm := 1, ops := [], vals := [(0, 5)], handler := false, out := 1 }
def host0 : HostAtomic := { insn := .atomAdd z false false 2 ⟨.g, .none, .team, 4, 1⟩ (.v 6), todo := 1 }

theorem test_wit_PortCompletions :
    (∀ c ∈ [0, limit - 1, limit, limit + 1], (porting id c).clock = c ∧ ((porting id c).part 0).iotmo.toNat * 256 = limit) ∧
    (let s := porting (fun t => { t with writes := [(3, write0)] }) 0
     ((s.teams.get? 0).bind fun t => t.writes.get? 3) = some write0 ∧ write0.failed = none) ∧
    (let s := porting (fun t => { t with producers := [read0] }) 0
     ((s.teams.get? 0).bind fun t => t.producers[0]?) = some read0 ∧ read0.lm.getLsbD 0 = true ∧ read0.out.getLsbD 0 = true) ∧
    (let s := porting (fun t => { t with hostAtomic := some host0, sregs := [(4, 0x40000)] }) 0 (mapped id)
     (match s.teams.get? 0 with
       | some t => (match hostCtx t placedCrew 0 with
         | some (cx, _, f) => (match hostSpot (s.setTeam 0 { t with hostAtomic := none }) cx f 0 with
           | .ok _ => decide ((lanesOf 1024 host0.todo).head? = some 0) && hostAsks (s.asking 0) 0
           | .error _ => false)
         | none => false)
       | none => false) = true) ∧
    hostAsks (porting (fun t => { t with hostAtomic := some host0, sregs := [(4, 0x40000)] }) 0) 0 = false ∧
    (let s := porting id limit fun s => s.updPart 0 fun x => { x with ssig := [{ write0 with pa := none }] }
     (s.part 0).ssig.map OutWrite.pa = [none]) := by decide +kernel

/-- Partition 0 formed, in the state tw. -/
def formed (tw : TwState) (f : Part → Part := id) : State := at_ (.nop z) id id fun s => s.updPart 0 fun x => f { x with twState := tw }

theorem test_wit_HostRegisters :
    (State.reset.part 0).state ≠ .formed ∧ (∀ tw ∈ [TwState.idle, .running, .halted, .faulted], ((formed tw).part 0).state = .formed) ∧
    (∀ en ∈ [true, false], ((formed .running fun x => { x with dbg := { x.dbg with en } }).part 0).dbg.en = en) ∧
    (∀ b ∈ [true, false], ((formed .idle fun x => { x with xlinvBusy := b }).part 0).xlinvBusy = b) ∧
    (let s := formed .idle
     ∃ e ∈ s.teams, e.2.entries ≠ [] ∧ e.2.hostAtomic = none ∧ (s.crews.get? e.2.cid).map Crew.part = some 0) ∧
    (∀ off ∈ [0x1000, 0xFFF8], 0x1000 ≤ off ∧ off + 8 ≤ 0x10000 ∧ off % 8 = 0) ∧ 0x1004 % 8 ≠ 0 := by decide +kernel

theorem test_wit_ServiceEvents :
    (let s := { State.reset with clock := 65536 }
     s.patrol.getD (SramPlaceKey (.scratch 127)) 0 = 0 ∧ placeOk (.scratch 127) = true ∧ placeOk (.lodeSlice 63) = true) ∧
    (let s := { State.reset with rowErr := [(rowKey (.scratch 3) 5, 4)] }
     4 ≤ s.rowErr.getD (rowKey (.scratch 3) 5) 0 ∧ spareRows s (.scratch 3) ≠ 0 ∧ s.rowErr.getD (rowKey (.scratch 3) 6) 0 < 4) ∧
    (∀ q ∈ [Sig.idle, .waiting, .matched], ((at_ (.nop z) fun t => { t with sig := q }).teams.get? 0).map Team.sig = some q) ∧
    (let s := at_ (.nop z) (fun t => { t with sig := .waiting }) fun c => { c with shadow := [4] }
     (s.crews.get? 0).map Crew.shadow = some [4] ∧ (s.teams.get? 0).map Team.core = some 0) ∧
    (let s := { State.reset with coreStat := [(5, { phys := 0, state := 1, strikes := 2 })] }
     (s.coreStatOf 5).state = 1 ∧ 7 ∉ s.spareUsed ∧ coreIdle s 5 = true ∧ (s.coreStatOf 6).state ≠ 1) ∧
    (∀ n ∈ [0, 1, 2], ({ State.reset with ports := [(20, { lost := n })] }.portStat 20).lost = n) ∧
    (∀ n ∈ [0, 1], let g := BitVec.ofNat 20 n
     let s := { formed .idle (fun x => { x with direct := 1 }) with linkcfg := [(7, { glen := g, gbase := 0, en := true, part := 0 })] }
     (s.linkcfg.get? 7).map LinkCfg.en = some true ∧ (s.part 0).state = .formed ∧
     ((4088 + 8 ≤ ((0 : BitVec 20).toNat + g.toNat) * 4096) ↔ g = 1) ∧ 4088 + 8 ≤ (s.part 0).direct.toNat * 4096) ∧
    (State.reset.part 0).state ≠ .formed ∧ ((formed .idle).part 0).state = .formed := by decide +kernel

/-- Boot is complete, and partition 0 is described with core 0 and f. -/
def described (st : PState) (f : Part → Part := id) : State :=
  { State.reset.updPart 0 fun x => f { x with state := st, pcore0 := 1 } with boot := 1 }

theorem test_wit_PartitionsAndResets :
    (∀ st ∈ [PState.free, .forming, .formed, .dissolving], (described st).boot = 1 ∧ ((described st).part 0).state = st) ∧
    formError (described .forming fun x => { x with size := 1 }) 0 true = 0 ∧
    formError (described .forming fun x => { x with pcore0 := 0 }) 0 true = 1 ∧
    formError (described .forming fun x => { x with size := 1281 }) 0 true = 2 ∧
    formError (described .forming fun x => { x with direct := 1 }) 0 true = 3 ∧
    (∀ tw ∈ [TwState.idle, .halted, .running, .faulted], ((described .formed fun x => { x with twState := tw }).part 0).twState = tw) ∧
    State.reset.boot ≠ 1 := by decide +kernel

theorem test_wit_AttestationAndFirmware :
    (∀ n ∈ [0, 1], { State.reset with attStatus := BitVec.ofNat 8 n }.attStatus = BitVec.ofNat 8 n) ∧
    (let s := { formed .idle with sigCount := [(9, 1023), (2, 1024)] }
     s.boot = 1 ∧ s.sigCount.getD 9 0 < 1024 ∧ 1024 ≤ s.sigCount.getD 2 0 ∧ (s.part (2 - 2)).state = .formed ∧ (s.part (9 - 2)).state ≠ .formed) ∧
    (∀ a ∈ [0x3FFFFFFFFFFC000, 0x3FFFFFFFFFFC040], let s := { State.reset with attStatus := 1, attAddr := BitVec.ofNat _ a }
     (2 ^ 58 < s.attAddr.toNat + 16384 ↔ a = 0x3FFFFFFFFFFC040)) ∧
    (∀ b ∈ [true, false], { State.reset with fwBusy := b }.fwBusy = b) := by decide +kernel

/-! States that meet the further clauses of the statements. -/

/-- What a narrowing or integer conversion and the special functions ask of their operands. -/
theorem test_wit_Conversions_narrowing : ffmtOf .f16 = some .f16 ∧ ffmtOf .f32 = some .f32 ∧ ffmtOf .i32 = none ∧ 2 ^ 32 - 1 < 2 ^ Fmt.i32.width ∧
    isSigned .i32 = true ∧ FFmt.f32.widens .f16 = false ∧ FFmt.f16.widens .f32 = true := by decide +kernel

theorem test_wit_SpecialFunctions_bound :
    FFmt.f32.val 0x3F800000 = .fin false (2 ^ 23) (-23) ∧ FFmt.f32.val 0xC3160001 = .fin true (0x960001) (-16) ∧
    Sfu.fixed 150 0 < Sfu.fixed 0x960001 (-16) ∧ ¬Sfu.fixed 150 0 < Sfu.fixed (2 ^ 23) (-23) := by decide +kernel

/-- A team in its handler whose frame, at 0x8000000000, has no mapping, and one that is to enter it there. -/
theorem test_wit_TrapReturn_lost :
    (∀ i ∈ ([.tret z] : List Instr), ∃ s x, Ready s i x ∧ (x.m != 0 && x.t.handler && (match loadImage s 0 0 x.t.tsaveIn.toNat
      (11776 + 530 * roundLanes x.t.nlanes) ((11776 + 530 * roundLanes x.t.nlanes) / 32768 + 2) 0 with
      | .ok _ => false
      | .error _ => true)) = true) ∧
    (let s := mapped id (at_ (.nop z) fun t => { t with tsave := 0x8000000000 })
     let t := team s
     t.handler = false ∧ t.producers = [] ∧ (match storeImage 0 0 t.tsave.toNat 160 (frameOf t { code := 0xF001 } 0 false t.entries 0 []) { s } 3 0 with
      | .ok _ => false
      | .error _ => true) = true ∧ (s.entryOf 0 0).map (fun w => w.status.isFaulted) = some false) :=
  ⟨witness (f := fun t => { t with handler := true, tsaveIn := 0x8000000000 }) (g := id) (h := mapped id) (by decide +kernel), by decide +kernel⟩

/-- A leaf whose compare-and-swap the host refuses. -/
theorem test_wit_AccessChecks_refused :
    (let s := mapped fresh_ State.reset
     match resolve s 0 0 0x1000 acc4 with
      | .ok o => o.leaf.any fun lf => (lf.val ||| 0x200 != lf.val) && lf.store == .host &&
          (portAnswer { s with portLine := [(State.casKey lf.addr, 0x0A01)] } 0 (State.casKey lf.addr)).isSome &&
          (portAnswer { s with portLine := [(State.casKey lf.addr, 0x0A02)] } 0 (State.casKey lf.addr)).isNone
      | .error _ => false) = true := by decide +kernel

/-- An area before an instruction that takes none. -/
theorem test_wit_FrontStageFaultsAndFetches_areas : ∀ i ∈ ([.snop, .shalt, .sret, .sjoin, .sbr .ltn 1 2 3, .scall 1, .kalu .sar 1 2 (.imm 64),
    .smode 1 true, .bdecl 4 0, .bdrop 1] : List Instr), let s := front i fun x => { x with areas := [{ base := 0, len := 64, write := false }] }
    s.curPart = some 0 ∧ (s.part 0).areas ≠ [] ∧ (s.part 0).frontHeld = false := by decide +kernel

/-- Slot tasks that have completed: each has a transition to apply, or rows whose slots get KV. -/
theorem test_wit_IssueAndRetirementOrder_slots :
    (∀ i ∈ ([.sopen 0 4, .sclose 0 4, .srule 0 false 1 2 none 4, .saccept 0 false 1 2 3 4] : List Instr),
      let s := tasked i [] fun e => { e with status := .completed, pend := some { base := 0, block := some (block8 false), slots := [(0, {}), (1, {})] } }
      (s.part 0).twState = .running ∧ i.isTask = true ∧ (entry s).kvSlots = [] ∧
      ∀ q ∈ (entry s).pend, ∀ e ∈ q.slots, ∀ f ∈ q.slots, f.1 = e.1 → f.2 = e.2) ∧
    (∀ i ∈ ([.skv 0 1 4, .kvcompact 0 1 2 3 4] : List Instr), let s := tasked i [] fun e => { e with status := .completed, kvSlots := [0, 2] }
      (s.part 0).twState = .running ∧ i.isTask = true ∧ (entry s).pend = none) ∧
    (∀ b ∈ [true, false], ((tasked .shalt [] id fun x => { x with flrReq := b }).part 0).flrReq = b) := by decide +kernel

/-- A path of one node, accepted by an ordered block of which slot 0 has its row. -/
theorem test_wit_SlotTasksIssue_kvcompact :
    let s := tasked (.kvcompact 0 1 2 3 4) [(4, 2 ^ 14)] (fun e => { e with a := some 1, b := some 2, d := some 3, prev := some 0 }) fun x => { slots8 true x with
      bufs := Memory.write [] (2 ^ 26 + 4096) 8 (1 + 5 * 2 ^ 32)
      slots := (slots8 true x).slots.map fun e => if e.1 = 0 then (0, { e.2 with kv := true }) else e }
    mayGo s = true ∧ (viewBlock s).map SlotBlock.ordered = some true ∧ badBuf s 0 (some 1, 0, 8) = none ∧ badBuf s 0 (some 1, 4096, 8) = none ∧
    (s.memOf (.buf 0)).read (2 ^ 26 + 4096) 4 = 1 ∧ (s.part 0).bufBytes? 3 = some 32768 ∧ 128 * kf (entry s).k 4 14 14 = 128 ∧
    ((slotView s 0 0).slot 0).kv = true := by decide +kernel

/-- A ring that was disabled behind the SPUBLISH, and an older entry of the block that has still to retire. -/
theorem test_wit_RingRecords_off :
    (let s := tasked (.spublish 0 4) [] issued fun x => { ringed false x with rings := (ringed false x).rings.map fun r => (r.1, { r.2 with en := false }) }
     (slotView s 0 0).unpublished 0 (block8 false) ≠ [] ∧ ((s.part 0).rings.getD 2 {}).en = false) ∧
    (let s := tasked (.spublish 0 4) [] (fun e => issued { e with seq := 1 }) fun x => { ringed false x with window :=
       [{ placedLaunch with insn := .srule 0 false 1 2 none 4, pend := some { base := 0, block := some (block8 false), slots := (slots8 false {}).slots } }] }
     ∃ y ∈ (s.part 0).window, y.seq < 1 ∨ ¬y.seq < 1) := by decide +kernel

/-- A Function Level Reset waits for a stream that stops on a fault. -/
theorem test_wit_FaultsAndResolutions_reset :
    (∀ flr ∈ [true, false], let s := (tasked (.kread 0 1 2 true) [] fun e => { e with status := .faulted aFault }).updPart 0 fun x => { x with flrReq := flr }
     (s.part 0).flrReq = flr ∧ taskStopped s 0 0 true = true ∧ ((s.part 0).window.map WinEntry.seq).Nodup) ∧
    (let e := entry (tasked (.srule 0 false 1 2 none 4) [] fun e => { e with lost := true, status := .faulted aFault })
     e.lost = true ∧ e.insn.usesSlots = true) := by decide +kernel

/-- A halted stream with a copy of its task. -/
def haltedCopy : State := (tasked (.copyt 0 false none none 4) [] issued fun x => { x with twState := .halted }) |> fun s =>
  { s with copies := [(0, { owner := .task 0 0, core := some 3, part := 0, src := .g 0, dst := .g 0, kind := .copy 8 })], nextAge := 1 }

theorem test_wit_StartHaltAndPreemption_more :
    (∃ c ∈ haltedCopy.copies, COwner.isTask 0 c.2.owner = true ∧ c.1 < haltedCopy.nextAge) ∧ (haltedCopy.part 0).state = .formed ∧
    holders haltedCopy 0 ≠ [] ∧ (haltedCopy.part 0).flrReq = false ∧ holders (formed .halted) 1 = [] ∧
    ((haltedCopy.updPart 0 fun x => { x with flrReq := true }).part 0).flrReq = true ∧
    (let s := halting
     ∃ c, s.crews.get? (team s).cid = some c ∧ c.part = 0 ∧ c.placed = true ∧ (team s).stopped = false ∧ (team s).replay = []) ∧
    (team (halting id fun t => { t with writes := [(0, { addr := 0, len := 4 })] })).writes ≠ [] ∧
    (∃ e ∈ holders (halting fun x => { x with flrReq := true }) 0, acked (halting fun x => { x with flrReq := true }) 0 e = false) ∧
    (∀ flr ∈ [true, false], ((halting fun x => { x with flrReq := flr }).part 0).flrReq = flr) := by decide +kernel

/-- The last team of a crew that is to give up its place, with and without a copy in flight and another team. -/
def yielding (others fly : Bool) : State := at_ (.nop z) id (fun c => { c with preempt := true }) fun s => { s with
  teams := if others then s.teams.set 1 { placedTeam 0 with num := 1, order := 1 } else s.teams
  copies := if fly then [(0, { owner := .team 0 1 1, core := some 0, part := 0, src := .w 0 0, dst := .w 0 0, kind := .copy 8, flight := [(0, [])] })]
    else [] }

theorem test_wit_CrewPreemption_yields :
    (∀ o ∈ [true, false], ∀ f ∈ [true, false], let s := yielding o f
      (s.teams.map Prod.fst).Pairwise (· < ·) ∧ (s.crews.get? 0).map (fun c => c.placed && c.preempt) = some true ∧ (s.part 0).haltReq = false ∧
      (team s).stopped = false ∧ (team s).hostAtomic = none ∧ (team s).writes = [] ∧ (team s).handler = false ∧ (team s).replay = [] ∧
      ((∃ y ∈ s.teams, y.1 ≠ 0 ∧ y.2.stopped = false) ↔ o = true)) ∧
    (let s := launching 1 win512 filled
     let n := needOf 0 (entry s) (launchShape (entry s).k 16)
     (let s' := [7].foldl unplaceCrew s
      fits s' n (admits s' n (entry s) (entry s).placed) = true) ∧ ¬fits s n (admits s n (entry s) (entry s).placed) = true) ∧
    (let s := launching 1 [(18, 2 ^ 46)] filled
     let n := needOf 0 (entry s) (launchShape (entry s).k 16)
     let s' := [7].foldl unplaceCrew s
     ¬fits s' n (admits s' n (entry s) (entry s).placed) = true) := by decide +kernel

/-- Teams held at a lane exchange, and a last team whose tiles were taken from another owner or from none. -/
theorem test_wit_TeamsChangeAndEnd_more :
    (let s := at_ (.nop z) fun t => { t with run := none, entries := t.entries.map fun e => { e with hold := .exchange } }
     (team s).entries ≠ [] ∧ isReady s 0 (team s) = false) ∧
    (let s := at_ (.nop z) (fun t => { t with entries := [] }) (equipped []) fun s => { s with
       spilled := [(tileKey 0 0 2, [{ owner := 9, tile := {} }])] }
     s.spilled.getD (tileKey 0 0 1) [] = [] ∧ (s.spilled.get? (tileKey 0 0 2)).map List.length = some 1 ∧
     (((equipped [] placedCrew).tileMap.flatMap fun y => y.2.map (tileKey y.1 0)).Nodup) ∧ unreported s 0 = none) ∧
    (∃ f, unreported (at_ (.nop z) (fun t => { t with entries := [] }) id fun s => { s with copies := [(0, { copy1 with fault := some cfault })] }) 0 = some f) ∧
    (let s := two id id fun x => { x with tslice := 1 }
     s.clock = 256 ∧ ((s.part 0).tslice ≠ 0)) :=
  ⟨by decide +kernel, by decide +kernel, ⟨_, by rfl⟩, by decide +kernel⟩

/-- A copy to an unaligned place, and one whose source lies in a poisoned line. -/
theorem test_wit_CopiesComplete_more :
    (let x := { copy1 with dst := .w 0 4097 }
     let s := copying x
     (s.copies.find? fun e => startable s 0 e.2) = some (0, x) ∧ (match readAt s 0 0 x.src 0 4095 with
       | .ok (s1, _) => s1.copies == s.copies
       | .error _ => false) = true) ∧
    (let s := { copying copy1 with poisonWin := [1] }
     rangePoisoned s (.window 0) 128 4 = true ∧ rangePoisoned s (.window 0) 0 128 = false) := by decide +kernel

theorem test_wit_Barriers_lost :
    ready [.barWaitout z 4, .barExpect z false 4 (.imm 1), .barExpect z true 4 (.imm 1), .barArrive z 1 4, .barArrivex z 1 4 (.imm 1),
      .barTest z 1 4 (.imm 15), .barWait z 4 (.imm 14)] at4080 (withBar bar0) (fun s => { s with poisonWin := [31] })
      (fun _ s x => x.m != 0 && barPoisoned s x 4080) = true := by decide +kernel

theorem test_wit_SpindleOperations_lost :
    here (.nredPush z 2 3) (scalars [(2, 3968)]) (windowed []) (fun s => { tree3 pairTree s with poisonWin := [31] }) (fun s x => x.m != 0 &&
      isMember s 0 3 0 && rangePoisoned s (.window 0) 3968 128) = true := by decide +kernel

theorem test_wit_SpindleRunsAndReductions_rounds :
    ∀ n ∈ [(0 : Nat), 1, 128, 129], let d := (1 - BitVec.ofNat 8 n).toNat
      (d = 0 ↔ n = 1) ∧ (d < 128 ↔ n ≤ 1) ∨ n = 129 ∧ d = 128 ∨ n = 128 ∧ d = 129 := by decide +kernel

/-! Ports, host registers, service, partitions and resets: further clauses. -/

/-- Partition 0 with a window of pooled memory, reached over port 3, at [0, 2^39). -/
def pooled (s : State) : State := s.updPart 0 fun x => { x with windows := [{ base := 0, len := 2 ^ 39, ethes := false, ports := 8, link := 0, target := 0 }] }

/-- The tables with a leaf that maps to pooled memory instead. -/
def poolLeaf (m : Memory) : Memory := m.write 0x28000 8 0x33F

/-- A read of lane 0 of pooled memory by i. -/
def poolRead (i : Instr) : Producer := { read0 with insn := i, base := 0x10000, ops := [(0, { a := 0, c := 2 })] }

theorem test_wit_PortCompletions_reads :
    (let s := porting (fun t => { t with producers := [poolRead read0.insn] }) 0 fun s => pooled (mapped poolLeaf s)
     (match resolve s 0 (team s).core 0x10000 { read := true, plain := true, bytes := 1 } with
       | .ok o => decide (o.store = .cxl)
       | .error _ => false) = true) ∧
    (let i := Instr.lds z .w32 2 .g .none .team 4
     let s := porting (fun t => { t with producers := [{ read0 with insn := i, lm := 6 }] }) limit
     (s.teams.get? 0).bind (fun t => (t.producers[0]?).map fun x => (x.lm.getLsbD 2, x.out.getLsbD 0)) = some (true, true)) ∧
    (let i := Instr.atomSwap z false false 2 ⟨.g, .none, .team, 4, 1⟩ (.v 6)
     let x := poolRead i
     let s := porting (fun t => { t with producers := [x] }) limit fun s => pooled (mapped poolLeaf s)
     i.atomForm.isSome = true ∧
      (s.teams.get? 0).bind (fun t => (t.producers[0]?).map fun x => (x.lm.getLsbD 0, x.out.getLsbD 0)) = some (true, true)) := by
  decide +kernel

/-- A chunk of a copy from pooled memory, in flight, and a KREAD of it that waits. -/
theorem test_wit_PortCompletions_chunks :
    (let x : Copy := { copy1 with src := .g 0x10000, started := 1, flight := [(0, [1])], flightAt := [(0, 0)] }
     let s := pooled (mapped poolLeaf (copying x))
     (s.copies.get? 0) = some x ∧ chunkPorts s x 0 ≠ [] ∧ chunkOuts s x 0 = []) ∧
    (let x : Copy := { copy1 with dst := .g 0x10000, started := 1, flight := [(0, [1])], flightAt := [(0, 0)] }
     let s := pooled (mapped poolLeaf (copying x))
     (s.copies.get? 0) = some x ∧ chunkPorts s x 0 = [] ∧ chunkOuts s x 0 ≠ []) ∧
    (∀ c ∈ [0, limit - 1, limit], let s := { pooled (tasked (.kread 0 1 2 true) [(2, 0x10008)] id id poolLeaf) with clock := c }
     taskReads s 0 (entry s) = some (0x10008, 8) ∧ (readSent s 0 (entry s) + limit ≤ s.clock ↔ c = limit) ∧
     (match resolve s 0 128 0x10008 { read := true, plain := true, bytes := 8 } with
       | .ok o => o.store.outside
       | .error _ => false) = true) ∧
    (linePort (pooled State.reset) 48 0).isSome = true ∧ linePort State.reset 0 0 = none ∧
    (∀ pa ∈ [none, some 64], ((porting id limit fun s => s.updPart 0 fun x => { x with ssig := [{ write0 with pa }] }).part 0).ssig.map OutWrite.pa = [pa]) := by
  decide +kernel

theorem test_wit_HostRegisters_pages :
    (∀ a ∈ [true, false], ∀ n ∈ [(0 : Nat), 3], let s := at_ (.nop z) fun t => { t with active := a, slice := n }
      (team s).active = a ∧ (team s).slice = n ∧ partTeams s 0 = [0] ∧ (s.part 0).state = .formed) ∧
    (∀ tw ∈ [TwState.idle, .running, .halted, .faulted], ((formed tw).part 0).twState = tw) ∧
    (∀ st ∈ [PState.free, .forming, .formed, .dissolving], (described st).boot = 1 ∧ ((described st).part 0).state = st) ∧
    (∀ en ∈ [true, false], ((({ State.reset with linkcfg := [(7, { glen := 0, gbase := 0, en, part := 0 })] }).linkcfg.getD 7 {}).en) = en) ∧
    (∀ n ∈ [1, 3, 5, 0], (BitVec.ofNat 64 n).toNat = n) ∧ (0x1000 + 0x100 * 7 + 0x58 = 0x1758) ∧ 0x2000 + 8 * 15 = 0x2078 := by decide +kernel

/-- A waiting leader of a mirrored LAUNCH that may be run again, and one that may not. -/
def mirrored (again : Bool) : State := at_ (.nop z) (fun t => { t with sig := .waiting, didAtomic := !again }) (fun c => { c with shadow := [4] })
  fun s => s.updPart 0 fun x => { x with window := [issued { placedLaunch with ended := 0 }] }

theorem test_wit_ServiceEvents_mirror :
    (∀ again ∈ [true, false], let s := mirrored again
      (s.crews.get? 0).map (fun c => c.shadow[0]?) = some (some 4) ∧ (team s).sig = .waiting ∧
      (match s.entryOf 0 0, s.crews.get? 0 with
        | some e, some c => !e.status.isFaulted && (mayRerun s 0 e == again) && decide (c.seq = e.seq)
        | _, _ => false) = true ∧ ((s.part 0).window.map WinEntry.seq).Nodup) ∧
    (let x : Copy := { copy1 with dst := .g 0, started := 1, flight := [(0, [1])] }
     let s := { mirrored true with copies := [(0, x)] }
     chunkSigned s x 0 = true) ∧
    (let s : State := { State.reset with agenda := [.corrected 0 (some (.scratch 3, 5))], parts := (described .formed).parts }
     (s.part 0).state ≠ .free ∧ placeOk (.scratch 3) = true ∧ 5 < placeLines (.scratch 3) / 8 ∧ rowOwner s (.scratch 3) 5 ≠ some 0 ∧
     rowOwner s (.scratch 0) 5 = some 0) ∧
    (∀ n ∈ [0, 1, 2], ∀ st ∈ [0, 1, 2], let x := { State.reset with coreStat := [(5, { phys := 0, state := st, strikes := n })] }.coreStatOf 5
      x.strikes = n ∧ x.state = st) ∧
    (∀ used ∈ [[], List.range 7], let s := { State.reset with spareUsed := used, coreStat := [(5, { phys := 0, state := 1, strikes := 2 }), (6, { phys := 1, state := 1, strikes := 2 })] }
     (s.coreStatOf 5).state = 1 ∧ (s.coreStatOf 6).state = 1 ∧ 7 ∉ s.spareUsed ∧ coreIdle s 5 = true) := by decide +kernel

theorem test_wit_ServiceEvents_places :
    (sliceOwner (described .formed) 0 = none) ∧
    (let s := at_ (.nop z) id (windowed []) id
     scratchPlace 0 s.crews 0 = some 0) ∧ coreOwner (described .formed) 0 = some 0 ∧
    (let s := (described .formed) |> fun s => s.updPart 0 fun x => { x with size := 1, direct := 1 }
     (sliceOwner s 0) = some 0 ∧ (sliceKey s 0 0 0).isSome = true) := by decide +kernel

theorem test_wit_ServiceEvents_links :
    (let s := porting (fun t => { t with writes := [(3, { write0 with pa := some 0 })] }) 0 pooled
     (team s).producers = [] ∧ ((team s).writes.get? 3).isSome = true ∧ (s.part 0).cxlPort 0 = some 3) ∧
    (∀ wide ∈ [true, false], let n := if wide then 8 else 4
      let s := { formed .idle (fun x => { x with direct := 1 }) with linkcfg := [(7, { glen := 1, gbase := 0, en := true, part := 0 })] }
      (s.portStat 20).state ≠ 2 ∧ 0 + n ≤ (0 + 1) * 4096 ∧ rangePoisoned s (.lode 0) 0 n = false ∧ (atomValue (.red .add) wide false 5 1 0).isSome = true ∧
      atomValue .cas wide false 5 1 0 = none) ∧
    ((pooled (formed .idle)).part 0).cxlPort 0 = some 3 ∧ ((formed .idle).part 0).state = .formed := by decide +kernel

/-- The description of partition 0 with a list of n windows at 64 in host memory, all zero. -/
def listed (n : Nat) (st : PState := .free) : State := { described st with host := Memory.write [] 64 4 n }.updPart 0 fun x => { x with pcxl := 64 }

theorem test_wit_PartitionsAndResets_form :
    (∀ b ∈ [true, false], ({ listed 0 with pf0Reset := b } : State).pf0Reset = b) ∧
    (let s := listed 0
     s.boot = 1 ∧ s.pf0Reset = false ∧ formError s 0 true = 0 ∧ windowList s 0 = some []) ∧
    (formError (listed 1) 0 true = 6 ∧ windowList (listed 65) 0 = none ∧
      windowList { listed 0 with portLine := [(State.portKey .host 64, 0x0A02)] } 0 = none) ∧
    formError (listed 0 .formed) 0 false = 5 ∧
    formError (described .free fun x => { x with meshShare := 100 }) 0 true = 0 ∧
    formError (described .free fun x => { x with meshShare := 101 }) 0 true = 4 ∧
    formError ((described .free fun x => { x with cxlShare := 1 }).updPart 1 fun x => { x with state := .forming, cxlShare := 100 }) 0 true = 4 ∧
    (let s := { listed 1 with host := (Memory.write [] 64 4 1).write (128 + 8) 16 (2 ^ 28 + 2 ^ 80) }
     (windowList s 0).map List.length = some 1) := by decide +kernel

theorem test_wit_PartitionsAndResets_dissolve :
    (∀ d ∈ [({ send := 0, recv := 1, en := true } : QDef), { send := 2, recv := 1, en := true }],
      ({ described .formed with qdef := [(3, d)] }.qdef.get? 3) = some d) ∧
    (∀ n ∈ [(0 : Nat), 32], let s := { described .dissolving with lodeSpare := [(63, n)] }
      s.lodeSpare.getD 63 32 = n ∧ (s.part 0).hasCore 0 = true ∧ 16383 / 8 < 2048 ∧ 2048 ≤ 16384 / 8) ∧
    (let s := described .dissolving fun x => { x with base := 1279, size := 1 }
     (s.part 0).base.toNat ≤ 40959 / 32 ∧ 40959 / 32 < (s.part 0).base.toNat + (s.part 0).size.toNat) ∧
    (∀ n ∈ [0, 16], ({ State.reset with coreStat := [(0, { phys := 0, srows := n })] }.coreStatOf 0).srows = n) := by decide +kernel

theorem test_wit_AttestationAndFirmware_lost :
    (∀ l ∈ [(0 : Nat), 1, 2, 9], let s := { described .formed with attAddr := 4096, portLine := [(State.portKey .host 4096, 0x0A02)] }
      hostFails s 4096 32 = true ∧ hostFails s (4096 + 128) (64 + 2624 * (min l 2 + 1)) = false ∧ l ≤ 9) ∧
    (let s := { State.reset with attStatus := 1, attAddr := 4096, portLine := [(State.portKey .host (4096 + 8192), 0x0A01)] }
     s.attStatus = 1 ∧ hostFails s (4096 + 64) (64 + 2624 * 3 + 2508) = true) ∧
    (∀ n ∈ [1023, 1024], let s := { described .formed with attStatus := 1, attAddr := 4096, attLayer := 1, sigCount := [(1, n)] }
     s.attStatus = 1 ∧ layersOf 1 = [0, 1] ∧ layerKey s 1 = 1 ∧ (1024 ≤ s.sigCount.getD 1 0 ↔ n = 1024) ∧
     hostFails s (4096 + 64) (64 + 2624 * 2 + 2508) = false) ∧
    (let s := { State.reset with fwBusy := true, fwLen := 8 }
     s.fwBusy = true ∧ s.fwAddr.toNat + s.fwLen.toNat ≤ 2 ^ 58 ∧ hostFails s s.fwAddr.toNat s.fwLen.toNat = false) := by decide +kernel

/-- The hash of "abc" (FIPS 180-4), and an HMAC of a zero hash, worked out by another implementation (R169). -/
theorem test_sha256_abc : sha256 [0x61, 0x62, 0x63] = 0xba7816bf8f01cfea414140de5dae2223b00361a396177a9cb410ff61f20015ad := by decide +kernel
theorem test_hmacSha256_hiThere : hmacSha256 0x0b0b0b0b0b0b0b0b0b0b0b0b0b0b0b0b0b0b0b0b0b0b0b0b0b0b0b0b0b0b0b0b [72, 105, 32, 84, 104, 101, 114, 101] =
    0x198a607eb44bfbc69903a0f1cf2bbdc5ba0aa3f3d9ae3c1c7a3b1696a0b68cf7 := by decide +kernel

/-- A SPLIT of 240 rows of 16 has 3,840 digit bytes and 480 exponent bytes: with the exponents 2 bytes behind a word, the first chunk ends
at a word of them (R124, R279). -/
theorem test_split_chunk_ends_at_a_word :
    (let x : Copy := { copy1 with dst := .w 0 0, kind := .split false 1 16 16 240 0x1002 }
     x.chunkAt 1 = 3840 + 254 ∧ (0x1002 + (x.chunkAt 1 - 3840)) % 4 = 0 ∧ x.chunks = 2 ∧ x.chunkAt 1 + x.chunkBytes 1 = 3840 + 480) := by
  decide +kernel

/-- A reset of a function whose invalidation is under way drops what it had cached (R101). -/
theorem test_vfFlr_invalidates :
    (let s := { formed .idle fun x => { x with xlinvBusy := true } with ptes := [(5, 7)] }
     (next (.vfFlr 0) s).ptes = [] ∧ ((next (.vfFlr 0) s).part 0).xlinvBusy = false) := by decide +kernel

/-- An SSIGNAL waits behind an uncompleted one (R138). -/
theorem test_ssignal_waits :
    (let s := tasked (.ssignal 0 2 1 false) [(2, 0x2004)] (fun e => { e with status := .completed }) fun x => { x with
       ssig := [{ addr := 0, len := 4 }] }
     ((next (.taskRetire 0) s).part 0).window.length = 1 ∧ (((next (.taskRetire 0) (signalDone s 0))).part 0).window = []) := by decide +kernel

/-! States for the clauses on traps of CALL, on spills, on mirrored crews and on lost members. -/

/-- An indirect CALL of one target: a pair that no address fits, a sum beyond the space, an unaligned one, a full stack. -/
def sameTarget (x : Ctx) : Bool := x.m != 0 && x.ls.all fun k => x.t.v 9 k == x.t.v 9 (x.ls.headD 0)
def target0 (x : Ctx) (n : Nat) : Bool := (sums x).any fun l => l.headD 0 == n
def fullStack (t : Team) : Team := { based 0 64 64 t with stack := List.replicate 32 ⟨⟨0, 0⟩, 0⟩ }

theorem test_wit_BranchesAndCalls_calls :
    here (.callIndirect z 4 9) (based (2 ^ 80) 0 0) id id (fun _ x => sameTarget x && (x.t.pair? 4).isNone) = true ∧
    here (.callIndirect z 4 9) (based (2 ^ 80 - 64) 64 64) id id (fun _ x => sameTarget x && target0 x (2 ^ 80)) = true ∧
    here (.callIndirect z 4 9) (based (2 ^ 80 - 64) 63 63) id id (fun _ x => sameTarget x && target0 x (2 ^ 80 - 1)) = true ∧
    here (.callIndirect z 4 9) (fun t => { fullStack t with handler := true }) id id (fun _ x => sameTarget x && target0 x 64 &&
      decide (32 ≤ x.t.stack.length) && x.t.handler) = true ∧
    ready [.callIndirect z 4 9, .callDirect z 5] (fun t => { fullStack t with heldSpill := some (0x40000, { code := 0x0306 }) }) id id (fun _ _ x =>
      sameTarget x && target0 x 64 && decide (32 ≤ x.t.stack.length) && !x.t.handler && x.t.heldSpill.isSome) = true := by decide +kernel

/-- A frame that was spilled and whose write is under way, or has failed; and a halted team. -/
theorem test_wit_ReturnsAndExits_spills :
    let w : OutWrite := { addr := 0x40098, len := 8, spill := true }
    let own := fun (w : OutWrite) => w.spill && decide (w.addr < 0x40000 + 160) && decide (0x40000 < w.addr + max w.len 1)
    own w = true ∧ own { w with addr := 0x400A0 } = false ∧ own { w with spill := false } = false ∧
    (∀ f ∈ [none, some 0x0A02], let t := { team (stacked 3 1 1) with writes := [(0, { w with failed := f })] }
      t.memFrames = 0 + 1 ∧ t.stack.length < 4 ∧ t.halted = false ∧ t.heldRefill = none ∧ t.writes.map (fun e => e.2.failed) = [f]) ∧
    ({ placedTeam 0 with halted := true } : Team).halted = true ∧
    here (.exit z) (fun t => { t with writes := [(0, { w with failed := some 0x0A02 })] }) id id (fun _ x => x.m != 0 &&
      x.t.writes.all (fun y => y.2.failed.isNone || y.2.spill)) = true := by decide +kernel

/-- Tables that map one page of 32 KiB, with the leaf v at 0x38000. -/
def onePage (v : Nat) (m : Memory) : Memory := ((m.write 0x28000 8 (0x30000 + 0x41)).write 0x30000 8 (0x38000 + 0x41)).write 0x38000 8 v

/-- A block in a line of Lode that is poisoned. -/
theorem test_wit_FrontStageFaultsAndFetches_poisoned :
    (let s := at_ (.nop z) id id fun s => { (mapped (onePage 0x31F) s).updPart 0 fun x => { x with size := 1, direct := 8 } with poisonLode := [0x1180 / 128] }
     match touch s 0 0 0x11C0 { fetch := true, bytes := 64 } with
       | .ok (s1, o) => dataFailure s1 0 o.store o.addr == some 0x0902
       | .error _ => false) = true := by decide +kernel

/-- A leaf that has been read, and whose port carries nothing when a write is to set its D. -/
theorem test_wit_AccessChecks_stopped :
    (match touch (mapped fresh_ State.reset) 0 0 0x1000 acc4 with
      | .ok (s1, _) => let s := { s1 with ports := [(12, { state := 2 })] }
        (match resolve s 0 0 0x1000 { acc4 with read := false, write := true } with
          | .ok o => o.leaf.any fun lf => (lf.val ||| 0x300 != lf.val) && Machine.stopped s 0 lf.store lf.addr
          | .error _ => false)
      | .error _ => false) = true := by decide +kernel

/-- A crew with a shadow, at a TAGSET. -/
theorem test_wit_TagTable_mirrored : here (.tagTagset z 1 2 3) id (fun c => { windowed [] c with shadow := [20] }) id (fun _ x =>
    x.crew.shadow[x.t.num]? == some 20 && x.m != 0) = true := by decide +kernel

/-- Writes that an SSIGNAL has seen, and ones that came after it. -/
theorem test_wit_IssueAndRetirementOrder_seen :
    (∀ n ∈ [0, 5, 6], let s := { tasked (.ssignal 0 2 1 false) [(2, 0x2004)] (fun e => { e with status := .completed, since := 5 }) with
        teams := [(0, { placedTeam 0 with writes := [(0, { addr := 0, len := 4, since := n })] })] }
      (seenWrites s 5 = true ↔ n ≠ 6)) ∧
    seenWrites (tasked (.ssignal 0 2 1 false)) 5 = false := by decide +kernel

/-- A KVCOMPACT into a block that has ended: the rows up to the end get KV, the discarded slot does not. -/
theorem test_wit_SlotTasksIssue_ended :
    let b : SlotBlock := { block8 true with ended := true, endTok := 7 }
    let slots : FMap Slot := [(0, { state := .final, token := 3 }), (1, { state := .final, token := 7 }), (2, { state := .final, token := 9 })]
    (∀ i ∈ [0, 1, 2], ((∃ j, j < i ∧ (slots.getD j {}).token = b.endTok ∧ ∀ h, h ≤ j → (slots.getD h {}).state = .final) ↔ i = 2)) := by
  decide +kernel

/-- A router that still holds a flit of the stream's LAUNCH. -/
theorem test_wit_FaultsAndResolutions_routers :
    (let s := { folding { flit := some flit0 } {} with crews := [(0, windowed [] placedCrew)] }
     busyRouters s 0 ≠ []) ∧ busyRouters (stopped false) 0 = [] := by decide +kernel

/-- A pre-empted crew that a re-run keeps off a core it could otherwise take. -/
theorem test_wit_CrewPreemption_keptOff :
    (∀ avoid ∈ [[], [2]], let s := (waitingCrew false).updPart 0 fun x => { x with window := [issued { placedLaunch with avoid }] }
      let n : Need := { part := 0, cls := 0, teams := 1, words := 1, ncores := 1, win := 0, tiles := 0, queues := 0, mirror := false }
      s.entryOf 0 0 = some (entry s) ∧ (admits s n (entry s) 0 2 = true ↔ avoid = []) ∧ (entry s).apart = []) ∧
    tagHome [2] [] 5 = 2 * 4096 + 5 := by decide +kernel

/-- A team all of whose entries are held, one of them at a frame's return PC. -/
theorem test_wit_TeamsChangeAndEnd_ret :
    (let s := at_ (.nop z) fun t => let u := halves (.join 1) 0 0 t
       { u with run := none, stack := [frame0 (maskBelow 32)], entries := u.entries.map fun e => if e.ins = 0 then { e with hold := .ret } else e }
     (team s).entries ≠ [] ∧ (∀ e ∈ (team s).entries, e.hold ≠ .none) ∧ (∃ e ∈ (team s).entries, e.hold = .ret) ∧ isReady s 0 (team s) = false) := by
  decide +kernel

/-- A barrier that plain stores have left with nothing pending and nothing inbound: EXPECT of 0 bytes completes its phase. -/
theorem test_wit_Barriers_zero :
    ready [.barExpect z false 4 (.imm 0), .barExpect z true 4 (.imm 0), .barArrive z 1 4, .barTest z 1 4 (.imm 14)] at4080 (withBar { bar0 with pending := 0 }) id
      (fun _ _ x => x.m != 0 && Bar.ofNat (x.crew.window.read 4080 16) == { bar0 with pending := 0 }) = true ∧
    ({ bar0 with pending := 0 } : Bar).settled = { bar0 with gen := 0 } := by decide +kernel

/-- A root whose core is lost, with the partial of its child, in time and late; and a tree whose other child is missing. -/
theorem test_wit_SpindleRunsAndReductions_lost :
    (∀ c ∈ [65541, 65540], let s := { folding { parts := [(2, ones)], since := some 5 } {} c with coreStat := [(0, { phys := 0, state := 2 })] }
      isMember s 0 3 0 = true ∧ isRoot s 0 3 0 = true ∧ (s.coreStatOf 0).state = 2 ∧ missingMask s 0 3 0 = 0 ∧ (routerOf s 0 3 0).flit = none ∧
      (5 + 256 * (s.part 0).nredlim.toNat ≤ s.clock ↔ c = 65541) ∧
      missingMask (tree3 (0xCC :: 0x80 :: List.replicate 126 0) s) 0 3 0 ≠ 0) ∧
    (let s := { folding {} { sent := [ones] } with coreStat := [(0, { phys := 0, state := 2 })] }
     isMember s 0 3 0 = true ∧ overdue s 0 3 0 = false ∧ (routerOf s 0 3 0).since = none) := by decide +kernel

/-- A second strike for one of the two cores of a mirrored LAUNCH, and a chunk of such a LAUNCH. -/
theorem test_wit_ServiceEvents_second :
    (∀ k ∈ [0, 1], let s := { mirrored true with coreStat := [(k, { phys := 0, strikes := 1 })] }
      (s.coreStatOf k).strikes ≠ 0 ∧ (s.coreStatOf k).state = 0 ∧ (s.coreStatOf (1 - k)).strikes = 0 ∧ (entry s).reruns ≤ 1) ∧
    (let x : Copy := { copy1 with dst := .g 0, started := 1, flight := [(0, [1])] }
     chunkSigned { mirrored true with copies := [(0, x)] } x 0 = true ∧ x.owner = .team 0 1 1) := by decide +kernel

end Sys2Proof.Tests
end

section
/-! The stores of every state that an operation of the machine answers are canonical when those of the state it began with are: one lemma
per operation, in the order of the model's files. -/

set_option Elab.async false

namespace Sys2Proof.Machine
open Claims

/-! ### Shapes of control -/

/-- The state that a result leaves is canonical: f finds it in an error, g in a value. -/
def ResultWf {ε α : Type} (f : ε → State) (g : α → State) : Except ε α → Prop
  | .error e => MemWf (f e)
  | .ok a => MemWf (g a)

theorem ResultWf.error {ε α : Type} {f : ε → State} {g : α → State} {r : Except ε α} {e : ε} (h : ResultWf f g r) (q : r = .error e) :
    MemWf (f e) := by subst q; exact h

theorem ResultWf.ok {ε α : Type} {f : ε → State} {g : α → State} {r : Except ε α} {a : α} (h : ResultWf f g r) (q : r = .ok a) :
    MemWf (g a) := by subst q; exact h

/-- A value mapped keeps the state where it is found again. -/
theorem ResultWf.map {ε α β : Type} {f : ε → State} {g : α → State} {g' : β → State} {k : α → β} {r : Except ε α}
    (h : ResultWf f g r) (q : ∀ a, g' (k a) = g a) : ResultWf f g' (r.map k) := by
  cases r with
  | error e => exact h
  | ok a => simpa only [Except.map, ResultWf, q] using h

/-- The state of a step that may not be taken, where it is, is canonical. -/
def OptionWf : Option State → Prop
  | none => True
  | some s => MemWf s

theorem OptionWf.some {o : Option State} {s : State} (h : OptionWf o) (q : o = .some s) : MemWf s := by subst q; exact h

variable {s : State} {tid p core seq : Nat}

theorem memWf_ite {c : Prop} [Decidable c] {a b : State} (ha : MemWf a) (hb : MemWf b) : MemWf (if c then a else b) := by
  split
  · exact ha
  · exact hb

theorem optionWf_ite {c : Prop} [Decidable c] {a b : Option State} (ha : OptionWf a) (hb : OptionWf b) : OptionWf (if c then a else b) := by
  split
  · exact ha
  · exact hb

theorem memWf_onTeam (w : MemWf s) {k : Team → Crew → State} (h : ∀ t c, MemWf (k t c)) : MemWf (s.onTeam tid k) := by
  unfold State.onTeam
  split
  · exact w
  · split
    · exact w
    · exact h _ _

/-- A change of a partition's window or of what else is no store of it. -/
theorem memWf_updEntry (w : MemWf s) {f : WinEntry → WinEntry} : MemWf (s.updEntry p seq f) := memWf_updPart w _ fun _ h => h

theorem memWf_asking (w : MemWf s) {n : Nat} : MemWf (s.asking n) := w

/-! ### Translation (R95 to R105) -/

theorem memWf_xlRecord (w : MemWf s) {unit va : Nat} {f : XFail} : MemWf (xlRecord s p core unit va f) := by
  unfold xlRecord
  refine memWf_ite w (memWf_updPart w _ fun x h => ?_)
  split <;> exact h

theorem optionWf_adTry (w : MemWf s) {acc : Acc} {o : XOk} : OptionWf (adTry s acc core o) := by
  unfold adTry
  split
  · exact w
  · dsimp only
    split
    · exact w
    · split
      · exact memWf_store (s := cachePtes s o.seen) w _ _ _ _
      · trivial

theorem resultWf_granted (w : MemWf s) {acc : Acc} {o : XOk} :
    ResultWf Prod.snd (fun r => (r.getD (s, o)).1) (granted s p core acc o) := by
  unfold granted
  split
  · exact w
  · cases h : adTry s acc core o with
    | none => exact w
    | some s' => exact (optionWf_adTry w).some h

theorem resultWf_touch (w : MemWf s) {va : Nat} {acc : Acc} : ResultWf Prod.snd Prod.fst (touch s p core va acc) := by
  unfold touch
  split
  · exact w
  · split
    next h => exact (resultWf_granted w).error h
    next h => exact (resultWf_granted w).ok h
    next =>
      have w' : MemWf (dropPtes s core) := w
      dsimp only
      split
      · exact w'
      · split
        next h => exact (resultWf_granted w').error h
        next h => exact (resultWf_granted w').ok h

theorem memWf_invalidate (w : MemWf s) : MemWf (invalidate s p) := w

/-! ### Accesses and producers (R110, R256 to R274) -/

theorem resultWf_commit (w : MemWf s) {c : Ctx} {sp : Space} {acc : Acc} {extra : XOk → Option Nat} {l : List Spot} :
    ResultWf Prod.snd Prod.fst (commit s c sp acc extra l) := by
  induction l generalizing s with
  | nil => exact w
  | cons x l ih =>
    unfold commit
    split
    · split
      next h => exact (resultWf_touch w).error h
      next h =>
        have w' := (resultWf_touch w).ok h
        split
        · exact w'
        · split
          next h => exact (ih w').error h
          next h => have w2 := (ih w').ok h; exact w2
    · split
      next h => exact (ih w).error h
      next h => have w2 := (ih w).ok h; exact w2

theorem resultWf_accesses (w : MemWf s) {c : Ctx} {sp : Space} {base : Option Nat} {acc : Acc} {extra : XOk → Option Nat}
    {offs : List (Nat × Nat)} : ResultWf Prod.snd Prod.fst (accesses s c sp base acc extra offs) := by
  unfold accesses
  split
  · exact w
  · exact resultWf_commit w

theorem memWf_acquire (w : MemWf s) {sc : Scope} : MemWf (acquire s core sc) := by
  cases sc <;> exact w

theorem memWf_sample (w : MemWf s) {n : Nat} {l : List Spot} : MemWf (sample s p core n l).1 := by
  induction l generalizing s with
  | nil => exact w
  | cons x l ih =>
    unfold sample
    split
    · exact ih w
    · exact ih (memWf_fill w _ _ _)

theorem memWf_storeSpot (w : MemWf s) {n v : Nat} {x : Spot} : MemWf (storeSpot s p core tid n x v) := by
  unfold storeSpot
  split
  · exact memWf_ite w (memWf_updTeam w _ _)
  · exact memWf_updTeam (memWf_clearPoison (memWf_cstore w _ _ _ _ _) _ _ _) _ _

theorem memWf_loseTeam (w : MemWf s) {why : Lost} : MemWf (loseTeam s tid why) := memWf_updTeam w _ _

theorem memWf_atomRead {r : AtomRun} (w : MemWf r.s) {o : XOk} {n : Nat} : MemWf (r.read o n).2.s := by
  unfold AtomRun.read
  split
  · exact w
  · split <;> exact w

theorem memWf_atomSpot {r : AtomRun} (w : MemWf r.s) {f : AtomForm} {x : Spot} {c n : Nat} : MemWf (atomSpot r p core tid f x c n).s := by
  have w' := memWf_refresh (memWf_atomRead w (o := x.ok) (n := atomBytes f)) core x.ok.store (x.ok.addr / 8 * 8) 8
    ((r.read x.ok (atomBytes f)).2.s.load x.ok.store (x.ok.addr / 8 * 8) 8)
  unfold atomSpot
  dsimp only
  split
  · exact memWf_storeSpot w'
  · exact w'

theorem memWf_atomLane {r : AtomRun} (w : MemWf r.s) {k : Nat} {c : Ctx} {f : AtomForm} {x : Spot} {o : LaneOps} :
    MemWf (atomLane k r c f x o).s := by
  unfold atomLane
  split
  · split
    · exact w
    · exact memWf_atomSpot w
  · split
    · exact w
    · exact memWf_ite (memWf_updTeam w _ _) (memWf_loseTeam w)

theorem memWf_atomLanes {r : AtomRun} (w : MemWf r.s) {k : Nat} {c : Ctx} {f : AtomForm} {o : Spot → LaneOps} {l : List Spot} :
    MemWf (l.foldl (fun r x => atomLane k r c f x (o x)) r).s := by
  induction l generalizing r with
  | nil => exact w
  | cons x l ih => exact ih (memWf_atomLane w)

theorem resultWf_perform (w : MemWf s) {c : Ctx} {i : Instr} {pc : PC} {base : Nat} {lm : LaneMask} {ops : FMap LaneOps} {handler : Bool} :
    ResultWf Prod.snd id (perform s c i pc base lm ops handler) := by
  unfold perform
  split
  · split
    next h => exact (resultWf_accesses w).error h
    next h =>
      have w' := (resultWf_accesses w).ok h
      exact memWf_updTeam (memWf_ite (memWf_acquire (memWf_sample w')) (memWf_sample w')) _ _
  · split
    next h => exact (resultWf_accesses w).error h
    next h =>
      have w' := (resultWf_accesses w).ok h
      exact memWf_updTeam (memWf_ite (memWf_acquire (memWf_sample w')) (memWf_sample w')) _ _
  · exact memWf_updTeam w _ _
  · split
    · exact memWf_updTeam w _ _
    · split
      · exact w
      · split
        next h => exact (resultWf_accesses w).error h
        next s' xs h =>
          have w1 := (resultWf_accesses w).ok h
          extract_lets x k s1 r s2 far s3
          have w1 : MemWf s1 := memWf_ite w1 w1
          have w2 : MemWf r.s := memWf_atomLanes w1
          have w2 : MemWf s2 := memWf_ite (memWf_acquire w2) w2
          exact memWf_ite (memWf_updTeam (memWf_updTeam w2 _ _) _ _) (memWf_updTeam w2 _ _)

end Sys2Proof.Machine
end

section
/-! PROOFS. Canonical stores: the state's own operations and control flow (R2, R33 to R38). -/

set_option Elab.async false

namespace Sys2Proof.Machine
open Claims

variable {s : State} {tid p core seq : Nat}

/-! ### Task faults, images in memory, traps (R334 to R357) -/

theorem memWf_taskFault (w : MemWf s) {f : TaskFault} : MemWf (taskFault s p seq f) :=
  memWf_ite (memWf_updEntry w) (memWf_updEntry w)

theorem memWf_splice (w : MemWf s) {st : Store} {a n : Nat} {l : List Host.Cell} : MemWf (s.splice core st a n l) :=
  memWf_clearPoison (memWf_logCxl (memWf_setMem w st (Memory.wf_replace (memWf_memOf w st) a n l)) st a n) st a n

theorem memWf_storePiece {x : Stored} (w : MemWf x.s) {st : Store} {va : Int} {l : List Host.Cell} {u : Nat × Nat} :
    MemWf (storePiece p core st va l x u).s := by
  unfold storePiece
  dsimp only
  split
  · split <;> exact w
  · exact memWf_splice w

theorem memWf_storePieces {x : Stored} (w : MemWf x.s) {st : Store} {va : Int} {l : List Host.Cell} {us : List (Nat × Nat)} :
    MemWf (us.foldl (storePiece p core st va l) x).s := by
  induction us generalizing x with
  | nil => exact w
  | cons u us ih => exact ih (memWf_storePiece w)

theorem resultWf_storeImage {x : Stored} (w : MemWf x.s) {va size f off : Nat} {img : Memory} :
    ResultWf (fun e => e.2.2.s) Stored.s (storeImage p core va size img x f off) := by
  induction f generalizing x off with
  | zero => exact w
  | succ f ih =>
    unfold storeImage
    split
    · exact w
    · dsimp only
      split
      next h => have w' := (resultWf_touch w).error h; exact w'
      next h => exact ih (memWf_storePieces ((resultWf_touch w).ok h))

theorem resultWf_loadImage (w : MemWf s) {va size f off : Nat} :
    ResultWf (fun e => e.2.2) Prod.fst (loadImage s p core va size f off) := by
  induction f generalizing s off with
  | zero => exact w
  | succ f ih =>
    unfold loadImage
    split
    · exact w
    · dsimp only
      split
      next h => have w' := (resultWf_touch w).error h; exact w'
      next h =>
        have w' := (resultWf_touch w).ok h
        split
        · exact w'
        · split
          next h => exact (ih w').error h
          next h => have w2 := (ih w').ok h; exact w2

theorem memWf_launchFault (w : MemWf s) {c : Crew} {code engine detail : Nat} {addr : Option Nat} :
    MemWf (launchFault s c core code addr engine detail) := memWf_taskFault w

theorem memWf_doubleFault (w : MemWf s) {code : Nat} {addr : Option Nat} : MemWf (doubleFault s tid code addr) :=
  memWf_onTeam w fun _ _ => memWf_setTeam (memWf_taskFault w) _ _

theorem memWf_recordWalk (w : MemWf s) {unit : Nat} {tr : Trap} : MemWf (recordWalk s p core unit tr) := by
  unfold recordWalk
  split
  · exact memWf_xlRecord w
  · exact w

theorem memWf_takeTrap (w : MemWf s) {e : Entry} {pc : PC} {word : Nat} {tr : Trap} : MemWf (takeTrap s tid e pc word tr) := by
  unfold takeTrap
  split
  · exact w
  · split
    · exact w
    · split
      · exact memWf_doubleFault w
      · dsimp only
        split
        next h => exact memWf_doubleFault (memWf_xlRecord (memWf_setTeam ((resultWf_storeImage (x := ⟨s, [], []⟩) w).error h) _ _))
        next h => exact memWf_setTeam ((resultWf_storeImage (x := ⟨s, [], []⟩) w).ok h) _ _

theorem memWf_lineLost (w : MemWf s) {engine va : Nat} : MemWf (lineLost s tid engine core va) :=
  memWf_onTeam w fun _ _ => memWf_ite (memWf_loseTeam w) (memWf_launchFault w)

theorem memWf_teamFault (w : MemWf s) {e : Entry} {pc : PC} {word : Nat} {tr : Trap} : MemWf (teamFault s tid e pc word tr) := by
  refine memWf_onTeam w fun t c => memWf_ite (memWf_takeTrap (memWf_recordWalk w)) ?_
  split
  · exact memWf_lineLost (memWf_recordWalk w)
  · exact memWf_launchFault (memWf_recordWalk w)

theorem memWf_raise (w : MemWf s) {c : Ctx} {i : Instr} {tr : Trap} : MemWf (raise s c i tr) := memWf_teamFault w

theorem memWf_leaveHandler (w : MemWf s) : MemWf (leaveHandler s tid) := by
  unfold leaveHandler
  split
  · exact w
  · split
    · exact w
    · dsimp only
      split
      next h => exact memWf_doubleFault (memWf_xlRecord ((resultWf_loadImage w).error h))
      next h =>
        have w' := (resultWf_loadImage w).ok h
        split
        · exact memWf_doubleFault w'
        · exact w'

theorem optionWf_reinject (w : MemWf s) : OptionWf (reinject s tid) := by
  unfold reinject
  split
  · trivial
  · split
    · dsimp only
      split
      · refine optionWf_ite w (optionWf_ite trivial (optionWf_ite w ?_))
        split
        next h => exact memWf_updTeam ((resultWf_perform w).ok h) _ _
        next h => exact memWf_teamFault ((resultWf_perform w).error h)
      · exact w
    · trivial

theorem memWf_portTrap (w : MemWf s) {c : Ctx} {i : Instr} {x : PortFail} : MemWf (portTrap s c i x) := memWf_raise (memWf_updTeam w _ _)

/-! ### What an instruction leaves (R28, R192, R202, R369) -/

theorem memWf_settle (w : MemWf s) {c : Ctx} {t : Team} {stay : LaneMask} {goes : List (PC × LaneMask)} {cut : Bool} :
    MemWf (settle s c t stay goes cut) := w

theorem memWf_done (w : MemWf s) {c : Ctx} {t : Team} : MemWf (done s c t) := w

theorem memWf_after (w : MemWf s) {c : Ctx} : MemWf (after s c) := by
  unfold after
  split <;> exact w

theorem memWf_onceFor (w : MemWf s) {c : Ctx} {k : State} (h : MemWf k) : MemWf (onceFor s c k) := memWf_ite w h

theorem memWf_reporting (w : MemWf s) {c : Ctx} {i : Instr} {k : State} (h : MemWf k) : MemWf (reporting s c i k) := by
  unfold reporting
  split
  · exact memWf_raise (memWf_updTeam w _ _)
  · exact h

theorem memWf_produceOp (w : MemWf s) {c : Ctx} {i : Instr} {base : Nat} {ops : Nat → LaneOps} : MemWf (produceOp s c i base ops) := by
  refine memWf_ite w ?_
  split
  next h => exact memWf_raise ((resultWf_perform w).error h)
  next h => exact memWf_reporting w (memWf_after ((resultWf_perform w).ok h))

/-- An outcome that goes on leaves canonical stores. -/
def OutWf (o : Out) : Prop := ∀ s', o = .next s' → MemWf s'

theorem outWf_next (w : MemWf s) : OutWf (.next s) := fun _ h => Host.Outcome.next.inj h ▸ w

/-- What comes before an instruction's own effect, and that effect. -/
theorem outWf_core (w : MemWf s) {i : Instr} {k : Ctx → State} (h : ∀ c, MemWf (k c)) : OutWf (Machine.core s i k) := by
  unfold Machine.core
  split
  · intro s' h; cases h
  · exact outWf_next w
  · exact outWf_next (memWf_updTeam w _ _)
  · exact outWf_next (memWf_raise w)
  · exact outWf_next (memWf_portTrap w)
  · refine outWf_next ?_
    split
    · exact h _
    · exact memWf_ite (h _) (memWf_portTrap w)

/-! ### Control (R33 to R38, R208 to R222) -/

theorem memWf_call (w : MemWf s) {x : Ctx} {i : Instr} {dst : VAddr} : MemWf (call s x i dst) := by
  refine memWf_ite (memWf_ite (memWf_raise w) ?_) w
  split
  · exact memWf_raise w
  · exact w

theorem memWf_pop (w : MemWf s) : MemWf (s.pop tid) := by
  unfold State.pop
  repeat' split
  all_goals exact w

theorem memWf_halt (w : MemWf s) {code : BitVec 16} {req : Bool} : MemWf (halt s tid code req) := by
  unfold halt
  split
  · exact w
  · split
    · exact w
    · exact memWf_ite w (memWf_updPart (memWf_setTeam w _ _) _ fun _ h => h)

theorem memWf_haltIfAsked (w : MemWf s) : MemWf (haltIfAsked s tid) := by
  unfold haltIfAsked
  split
  · refine memWf_ite ?_ w
    split
    · exact memWf_ite (memWf_halt (memWf_setTeam w _ _)) w
    · exact w
  · exact w

theorem memWf_fetchFault (w : MemWf s) {e : Entry} {tr : Trap} : MemWf (fetchFault s tid e tr) :=
  show MemWf (teamFault s tid e e.pc (freeNat s 96) tr) from memWf_teamFault w

theorem memWf_coreFetch (w : MemWf s) : MemWf (coreFetch s tid) := by
  unfold coreFetch
  split
  · exact w
  · split
    · refine memWf_ite w ?_
      dsimp only
      split
      next h => exact memWf_fetchFault ((resultWf_touch (memWf_asking w)).error h)
      next h =>
        have w' := (resultWf_touch (memWf_asking w)).ok h
        split
        · exact memWf_fetchFault w'
        · split
          · exact memWf_fetchFault w'
          · exact memWf_ite w' w'
    · exact w

theorem memWf_joinRelease (w : MemWf s) {pc : PC} {j : Nat} : MemWf (joinRelease s tid pc j) := by
  unfold joinRelease
  split
  · exact w
  · split
    · exact w
    · exact memWf_ite (memWf_ite w (memWf_updPart (memWf_setTeam w _ _) _ fun _ h => h)) w

theorem memWf_stackSpill (w : MemWf s) : MemWf (stackSpill s tid) := by
  unfold stackSpill
  split
  · exact w
  · split
    · exact w
    · refine memWf_ite (memWf_ite w ?_) w
      split
      next h => exact memWf_setTeam ((resultWf_storeImage (x := ⟨_, [], []⟩) (memWf_asking w)).error h) _ _
      next h => exact memWf_setTeam ((resultWf_storeImage (x := ⟨_, [], []⟩) (memWf_asking w)).ok h) _ _

theorem memWf_refillRead (w : MemWf s) {t : Team} {c : Crew} {a : Nat} : MemWf (refillRead s tid t c a) := by
  unfold refillRead
  split
  next h => exact memWf_setTeam ((resultWf_loadImage w).error h) _ _
  next h => exact memWf_pop (memWf_setTeam ((resultWf_loadImage w).ok h) _ _)

theorem memWf_stackRefill (w : MemWf s) : MemWf (stackRefill s tid) := by
  unfold stackRefill
  split
  · exact w
  · split
    · exact w
    · refine memWf_ite (memWf_ite (memWf_asking w) ?_) w
      split
      · exact memWf_setTeam (memWf_asking w) _ _
      · exact memWf_refillRead (memWf_asking w)

end Sys2Proof.Machine
end

section
/-! PROOFS. Canonical stores: lane exchange, memory instructions, issue and the front stage (R2, R47, R57, R95 to R114). -/

set_option Elab.async false

namespace Sys2Proof.Machine
open Claims

variable {s : State} {tid p core seq : Nat}

/-! ### Lanes and memory instructions (R257 to R275) -/

theorem memWf_vecf (w : MemWf s) {c : Ctx} {ty : FTy} {d : Nat} {f : Nat → Nat} : MemWf (vecf s c ty d f) := by
  cases ty <;> exact w

theorem memWf_keyVec (w : MemWf s) {c : Ctx} {ty : KTy} {d : Nat} {f : Nat → Nat} : MemWf (keyVec s c ty d f) := by
  cases ty <;> exact w

theorem memWf_exchange (w : MemWf s) {c : Ctx} {i : Instr} {g : BitVec 4} {lx : LX} {k : Ctx → (Nat → List Member) → Team}
    {absent : Ctx → (Nat → List Member) → Nat → Bool} : MemWf (exchange s c i g lx k absent) := by
  refine memWf_ite w ?_
  split
  · exact memWf_raise w
  · refine memWf_ite ?_ w
    dsimp only
    split
    · exact memWf_raise w
    · exact w

theorem memWf_exchangeRelease (w : MemWf s) {pc : PC} : MemWf (exchangeRelease s tid pc) :=
  memWf_onTeam w fun _ _ => memWf_ite w w

theorem memWf_based (w : MemWf s) {c : Ctx} {i : Instr} {m : MemOp} {k : Nat → State} (h : ∀ b, MemWf (k b)) : MemWf (based s c i m k) := by
  refine memWf_onceFor w ?_
  split
  · exact memWf_raise w
  · exact h _

theorem memWf_clearCovered (w : MemWf s) {xs : List Spot} {n : Nat} : MemWf (clearCovered s xs n) :=
  memWf_foldl (fun _ _ w => memWf_ite w (memWf_clearPoison w _ _ _)) _ w

theorem memWf_storeAll (w : MemWf s) {c : Ctx} {wd : Width} {d : Nat} {xs : List Spot} : MemWf (storeAll s c wd d xs) :=
  memWf_clearCovered (memWf_foldl (fun _ _ w => memWf_storeSpot w) _ w)

theorem memWf_atomOp (w : MemWf s) {c : Ctx} {i : Instr} {f : AtomForm} : MemWf (atomOp s c i f) := by
  refine memWf_onceFor w (memWf_ite (memWf_raise w) (memWf_based w fun b => ?_))
  dsimp only
  split
  next h => exact memWf_raise ((resultWf_accesses w).error h)
  next h => exact memWf_ite (memWf_reporting w (memWf_updTeam ((resultWf_accesses w).ok h) _ _)) (memWf_produceOp w)

theorem memWf_hostStep (w : MemWf s) : MemWf (hostStep s tid) := by
  refine memWf_onTeam w fun t crew => ?_
  split
  · exact w
  · split
    · exact w
    · split
      · exact memWf_raise (memWf_updTeam w _ _)
      · split
        · exact memWf_ite (memWf_loseTeam (memWf_updTeam w _ _)) (memWf_raise (memWf_updTeam w _ _))
        · extract_lets o r s'
          have w' : MemWf s' := memWf_updTeam (memWf_atomSpot (r := ⟨s, [], [], []⟩) w) _ _
          exact memWf_ite (memWf_after (memWf_ite (memWf_acquire w') w')) w'

theorem memWf_setAU (w : MemWf s) {o : XOk} : MemWf (setAU s p core o) := by
  unfold setAU
  split
  · exact w
  · next lf _ => exact memWf_ite (memWf_store w lf.store lf.addr 8 (orBits lf.val 0x80)) w

theorem memWf_hostFail (w : MemWf s) {code : Nat} {au : Bool} : MemWf (hostFail s tid code au) := by
  refine memWf_onTeam w fun t crew => ?_
  split
  · exact w
  · split
    · exact w
    · have w' := memWf_updTeam w tid fun t => { t with hostAtomic := none }
      dsimp only
      split
      · exact memWf_raise w'
      · exact memWf_raise (memWf_ite (memWf_setAU w') w')

theorem memWf_tagSet (w : MemWf s) {cid key slot : Nat} : MemWf (tagSet s core cid key slot).1 := by
  unfold tagSet
  split
  · exact w
  · split <;> exact w

theorem memWf_tagClear (w : MemWf s) {cid key : Nat} : MemWf (tagClear s core cid key).1 := by
  unfold tagClear
  split <;> exact w

theorem memWf_onTags (w : MemWf s) {c : Ctx} {f : State → Nat → State × Nat} (h : ∀ s k, MemWf s → MemWf (f s k).1) :
    MemWf (onTags s c f).1 := by
  unfold onTags
  dsimp only
  split
  · exact h _ _ (h _ _ w)
  · exact h _ _ w

theorem memWf_tagLanes (w : MemWf s) {c : Ctx} {d : VReg} {f : State → Nat → State × Nat} (h : ∀ s l, MemWf s → MemWf (f s l).1) :
    MemWf (tagLanes s c d f) := by
  have fold : ∀ (ls : List Nat) (r : State × List (Nat × Word)), MemWf r.1 →
      MemWf (ls.foldl (fun (r : State × List (Nat × Word)) l => ((f r.1 l).1, r.2 ++ [(l, word (f r.1 l).2)])) r).1 := by
    intro ls
    induction ls with
    | nil => exact fun _ w => w
    | cons l ls ih => exact fun r w => ih _ (h r.1 l w)
  exact memWf_done (fold _ _ w)

/-! ### Who acts on a core (R28) -/

theorem memWf_cutIfUnwanted (w : MemWf s) : MemWf (cutIfUnwanted s tid) := memWf_onTeam w fun _ _ => memWf_ite w w

theorem optionWf_dueRelease (w : MemWf s) {t : Team} {c : Crew} {es : List Entry} : OptionWf (dueRelease s tid t c es) := by
  induction es with
  | nil => trivial
  | cons e es ih =>
    unfold dueRelease
    split
    · exact optionWf_ite (memWf_joinRelease w) ih
    · exact optionWf_ite (memWf_exchangeRelease w) ih
    · exact ih

theorem optionWf_prepare (w : MemWf s) {t : Team} : OptionWf (prepare s tid t) := by
  refine optionWf_ite trivial (optionWf_ite (optionWf_reinject (memWf_asking w)) ?_)
  split
  · split
    next h => exact (optionWf_dueRelease w).some h
    next => exact optionWf_ite w trivial
  · exact optionWf_ite (memWf_coreFetch w) trivial
  · trivial

theorem optionWf_firstPrepared (w : MemWf s) {l : List (Nat × Team)} : OptionWf (firstPrepared s l) := by
  induction l with
  | nil => trivial
  | cons e l ih =>
    unfold firstPrepared
    split
    next h => exact (optionWf_prepare w).some h
    next => exact ih

theorem memWf_decodeTrap (w : MemWf s) {t : Team} {n code : Nat} : MemWf (decodeTrap s tid t n code) := by
  unfold decodeTrap
  split
  · exact w
  · exact memWf_teamFault w

/-- The state in which an agent acts or issues is canonical. -/
def ChoiceWf : Choice → Prop
  | .idle => True
  | .act s => MemWf s
  | .issue s _ => MemWf s

theorem choiceWf_pipeChoice (w : MemWf s) {q : Nat} {pipe : Pipe} : ChoiceWf (pipeChoice s core q pipe) := by
  unfold pipeChoice
  dsimp only
  split
  next h => exact (optionWf_firstPrepared w).some h
  next =>
    split
    · trivial
    · split
      · trivial
      · split
        · trivial
        · split
          · refine memWf_decodeTrap ?_
            exact w
          · exact w

/-! ### The front stage (R46 to R57) -/

theorem partWf_enter {x : Part} (h : PartWf x) {e : WinEntry} : PartWf (x.enter e) := h

theorem memWf_frontFault (w : MemWf s) {f : FrontFault} : MemWf (frontFault s p f) := memWf_updPart w _ fun _ h => h

theorem memWf_frontTrap (w : MemWf s) {x : Part} {i : Instr} {code : Nat} {addr : Option Nat} : MemWf (frontTrap s p x i code addr) :=
  memWf_frontFault w

/-- What comes before the handling of a stream instruction, and that handling. -/
theorem outWf_front (w : MemWf s) {i : Instr} {k : Nat → Part → State} (h : ∀ p x, PartWf x → MemWf (k p x)) :
    OutWf (Machine.front s i k) := by
  unfold Machine.front
  split
  · intro s' h; cases h
  · exact outWf_next w
  · exact outWf_next (memWf_frontTrap w)
  · exact outWf_next (h _ _ (memWf_part w _))

theorem memWf_area (w : MemWf s) {x : Part} (h : PartWf x) {i : Instr} {a b : KReg} {write : Bool} : MemWf (area s p x i a b write) := by
  refine memWf_ite (memWf_frontTrap w) ?_
  split
  · exact memWf_frontTrap w
  · exact memWf_ite (memWf_frontTrap w) (memWf_setPart w _ h)

theorem memWf_passTask (w : MemWf s) {x : Part} (h : PartWf x) {i : Instr} {q : Plan} {f : WinEntry → WinEntry} {g : Part → Part}
    (hg : ∀ x, PartWf x → PartWf (g x)) : MemWf (passTask s p x i q f g) := by
  unfold passTask
  split
  · exact memWf_frontTrap w
  · dsimp only
    split
    · exact memWf_ite (memWf_frontTrap w) (memWf_ite w (memWf_setPart w _ (partWf_enter (hg { x with areas := [] } h))))
    · split
      · exact memWf_ite w (memWf_frontTrap w)
      · next n _ _ b bs _ =>
        exact memWf_ite (memWf_frontTrap w) (memWf_ite w (memWf_setPart w _ (partWf_enter
          (hg { x with areas := [], free := x.free.set (x.classOf ((x.rename.get? n.val).getD 0)) bs, rename := x.rename.set n.val b } h))))

theorem memWf_passPlain (w : MemWf s) {x : Part} (h : PartWf x) {i : Instr} {q : Plan} : MemWf (passPlain s p x i q) :=
  memWf_passTask w h fun _ h => h

theorem memWf_streamFetch (w : MemWf s) : MemWf (streamFetch s p) := by
  refine memWf_ite w ?_
  dsimp only
  split
  next h => exact memWf_frontFault (p := p) (memWf_xlRecord ((resultWf_touch (memWf_asking w)).error h))
  next h =>
    have w' := (resultWf_touch (memWf_asking w)).ok h
    split
    · exact memWf_frontFault (p := p) w'
    · split
      · exact memWf_frontFault w'
      · exact memWf_updPart w' _ fun x h => by split <;> exact h

theorem choiceWf_frontChoice (w : MemWf s) : ChoiceWf (frontChoice s p) := by
  unfold frontChoice
  dsimp only
  split
  · trivial
  · split
    · exact memWf_streamFetch w
    · split
      · exact memWf_streamFetch w
      · split
        · exact memWf_setPart w _ (memWf_part w p)
        · split
          · exact memWf_frontFault w
          · exact w

end Sys2Proof.Machine
end

section
/-! PROOFS. Canonical stores: the Hoist and NRED (R2, R277 to R301). -/

set_option Elab.async false

namespace Sys2Proof.Machine
open Claims

variable {s : State} {tid p core seq : Nat}

/-! ### Copies (R111 to R114, R277 to R286) -/

theorem resultWf_globalRead (w : MemWf s) {plain : Bool} {f va n : Nat} :
    ResultWf Prod.snd Prod.fst (globalRead s p core plain f va n) := by
  induction f generalizing s va n with
  | zero => exact w
  | succ f ih =>
    unfold globalRead
    split
    · exact w
    · split
      · exact w
      · dsimp only
        split
        next h => have w' := (resultWf_touch w).error h; exact w'
        next h =>
          have w' := (resultWf_touch w).ok h
          split
          · exact w'
          · split
            next h => exact (ih w').error h
            next h => have w2 := (ih w').ok h; exact w2

theorem resultWf_globalCheck (w : MemWf s) {plain : Bool} {f va n : Nat} : ResultWf Prod.snd id (globalCheck s p core plain f va n) := by
  induction f generalizing s va n with
  | zero => exact w
  | succ f ih =>
    unfold globalCheck
    split
    · exact w
    · split
      · exact w
      · dsimp only
        split
        next h => have w' := (resultWf_touch w).error h; exact w'
        next h =>
          have w' := (resultWf_touch w).ok h
          split
          · exact w'
          · exact ih w'

theorem resultWf_globalWrite (w : MemWf s) {plain : Bool} {f va n v : Nat} : ResultWf Prod.snd id (globalWrite s p core plain f va n v) := by
  induction f generalizing s va n v with
  | zero => exact w
  | succ f ih =>
    unfold globalWrite
    split
    · exact w
    · split
      · exact w
      · dsimp only
        split
        next h => have w' := (resultWf_touch w).error h; exact w'
        next h =>
          have w' := (resultWf_touch w).ok h
          split
          · exact w'
          · exact ih (memWf_ite w' (memWf_splice w'))

theorem resultWf_readAt (w : MemWf s) {a : CAddr} {off n : Nat} : ResultWf Prod.snd Prod.fst (readAt s p core a off n) := by
  unfold readAt
  split
  · exact resultWf_globalRead w
  · split
    · exact w
    · split <;> exact w
  · split <;> exact w

theorem resultWf_checkAt (w : MemWf s) {a : CAddr} {off n : Nat} : ResultWf Prod.snd id (checkAt s p core a off n) := by
  unfold checkAt
  split
  · exact resultWf_globalCheck w
  · exact w

theorem resultWf_writeAt (w : MemWf s) {a : CAddr} {off n v : Nat} : ResultWf Prod.snd id (writeAt s p core a off n v) := by
  unfold writeAt
  split
  · exact resultWf_globalWrite w
  · exact memWf_clearPoison (memWf_store w _ _ _ _) _ _ _
  · exact memWf_splice w

theorem resultWf_takePieces (w : MemWf s) {a : CAddr} {l : List (Nat × Nat)} : ResultWf Prod.snd Prod.fst (takePieces s p core a l) := by
  induction l generalizing s with
  | nil => exact w
  | cons x l ih =>
    unfold takePieces
    split
    next h => exact (resultWf_readAt w).error h
    next h =>
      have w' := (resultWf_readAt w).ok h
      split
      next h => exact (ih w').error h
      next h => have w2 := (ih w').ok h; exact w2

theorem resultWf_readPieces (w : MemWf s) {a : CAddr} {l : List (Nat × Nat)} : ResultWf Prod.snd Prod.fst (readPieces s p core a l) := by
  unfold readPieces
  split
  next h => have w' := (resultWf_takePieces w).error h; exact w'
  next h => exact (resultWf_takePieces w).ok h

theorem resultWf_readChunk (w : MemWf s) {x : Copy} {j : Nat} : ResultWf Prod.snd Prod.fst (readChunk s x core j) := by
  unfold readChunk
  dsimp only
  split
  · exact (resultWf_readAt w).map fun _ => rfl
  · exact (resultWf_readAt w).map fun _ => rfl
  · exact (resultWf_readPieces w).map fun _ => rfl
  · exact (resultWf_readPieces w).map fun _ => rfl
  · split
    · exact w
    · exact (resultWf_readPieces w).map fun _ => rfl

theorem resultWf_checkSpans (w : MemWf s) {l : List (CAddr × Nat × Nat × Nat)} : ResultWf Prod.snd id (checkSpans s p core l) := by
  induction l generalizing s with
  | nil => exact w
  | cons x l ih =>
    unfold checkSpans
    split
    next h => exact (resultWf_checkAt w).error h
    next h => exact ih ((resultWf_checkAt w).ok h)

theorem resultWf_writeSpans (w : MemWf s) {v : Nat} {l : List (CAddr × Nat × Nat × Nat)} : ResultWf Prod.snd id (writeSpans s p core v l) := by
  induction l generalizing s with
  | nil => exact w
  | cons x l ih =>
    unfold writeSpans
    split
    next h => exact (resultWf_writeAt w).error h
    next h => exact ih ((resultWf_writeAt w).ok h)

theorem memWf_setBar (w : MemWf s) {cid a : Nat} {b : Bar} : MemWf (setBar s cid a b) :=
  memWf_updCrew w cid fun _ h => Memory.wf_write h a 16 b.toNat

theorem memWf_updBar (w : MemWf s) {cid a : Nat} {f : Bar → Bar} : MemWf (updBar s cid a f) := by
  unfold updBar
  split
  · exact memWf_setBar w
  · exact w

theorem memWf_updCopy (w : MemWf s) {age : Nat} {f : Copy → Copy} : MemWf (s.updCopy age f) := by
  unfold State.updCopy
  split <;> exact w

theorem memWf_settleCopy (w : MemWf s) {age : Nat} : MemWf (settleCopy s age) := by
  unfold settleCopy
  split
  · exact w
  · refine memWf_ite w ?_
    split
    · exact memWf_taskFault (memWf_updEntry (s := { s with copies := s.copies.erase age }) w)
    · exact w
    · exact memWf_ite w w

theorem memWf_chunkLost (w : MemWf s) {x : Copy} {f : CFail} : MemWf (chunkLost s tid core x f) := by
  unfold chunkLost
  dsimp only
  split
  · exact memWf_loseTeam w
  · split
    · split
      · exact memWf_ite (memWf_loseTeam w) (memWf_lineLost w)
      · exact memWf_lineLost w
    · exact memWf_onTeam w fun _ _ => memWf_launchFault w

/-- What a failed walk leaves in the record of its partition, where there was one (R103). -/
theorem memWf_walked (w : MemWf s) {unit : Nat} {f : CFail} : MemWf (match f.walk with
    | some x => xlRecord s p core unit f.addr x
    | none => s) := by
  split
  · exact memWf_xlRecord w
  · exact w

theorem memWf_failChunk (w : MemWf s) {age : Nat} {f : CFail} : MemWf (failChunk s age core f) := by
  unfold failChunk
  split
  · exact w
  · extract_lets s'
    have w' : MemWf s' := memWf_walked w
    split
    · exact memWf_ite (memWf_chunkLost w') (memWf_settleCopy (memWf_updCopy w'))
    · exact memWf_settleCopy (memWf_updCopy w')

theorem memWf_chunkStart (w : MemWf s) : MemWf (chunkStart s core) := by
  refine memWf_ite w ?_
  split
  · exact w
  · dsimp only
    split
    next h => exact memWf_failChunk ((resultWf_readChunk (memWf_asking w)).error h)
    next h =>
      have w1 := (resultWf_readChunk (memWf_asking w)).ok h
      split
      next h => exact memWf_failChunk ((resultWf_checkSpans w1).error h)
      next h =>
        have w2 := (resultWf_checkSpans w1).ok h
        split
        · exact memWf_updBar (memWf_updCopy w2)
        · exact memWf_updCopy w2

theorem memWf_chunkDone (w : MemWf s) {age j n : Nat} {x : Copy} : MemWf (chunkDone s age j x n) := by
  refine memWf_settleCopy ?_
  split
  · exact memWf_updBar (memWf_updCopy w)
  · exact memWf_updCopy w

theorem memWf_maskLand (w : MemWf s) {age j key : Nat} {x : Copy} {bs : List Byte} : MemWf (maskLand s age j key x bs) := by
  refine memWf_ite w ?_
  extract_lets queue room all n new s'
  have w' : MemWf s' := w
  exact memWf_ite (memWf_chunkDone w') (memWf_updCopy w')

theorem memWf_chunkLand (w : MemWf s) {age j : Nat} : MemWf (chunkLand s age j) := by
  unfold chunkLand
  split
  · exact w
  · split
    · exact w
    · refine memWf_ite w ?_
      dsimp only
      split
      · exact memWf_maskLand (memWf_asking w)
      · split
        next h => exact memWf_failChunk (memWf_updCopy ((resultWf_writeSpans (memWf_asking w)).error h))
        next h => exact memWf_chunkDone ((resultWf_writeSpans (memWf_asking w)).ok h)

theorem memWf_partWritten (w : MemWf s) {va n v : Nat} : MemWf (partWritten s p core va n v) := by
  refine memWf_foldl (fun s' j w => memWf_ite w ?_) _ w
  split
  next h => exact (resultWf_globalWrite w).error h
  next h => exact (resultWf_globalWrite w).ok h

theorem memWf_chunkWriteFail (w : MemWf s) {age j code : Nat} : MemWf (chunkWriteFail s age j code) := by
  unfold chunkWriteFail
  split
  · exact w
  · split
    · exact memWf_failChunk (memWf_updCopy (memWf_partWritten w))
    · exact w

theorem memWf_chunkPortFail (w : MemWf s) {age j code : Nat} : MemWf (chunkPortFail s age j code) := by
  unfold chunkPortFail
  split
  · exact w
  · exact memWf_ite w (memWf_failChunk (memWf_updCopy w))

theorem memWf_issueCopy (w : MemWf s) {x : Ctx} {src dst : CAddr} {kind : CKind} {bar : Option (Nat × Bool × Bool)} :
    MemWf (issueCopy s x src dst kind bar) := by
  have w' := memWf_updTeam w x.tid fun t => { t with copyNo := t.copyNo + 1 }
  exact memWf_ite w' w'

theorem memWf_hcopy (w : MemWf s) {x : Ctx} {i : Instr} {checks : List (Bool × Trap)} {src dst : CAddr} {kind : CKind}
    {bar : Option BarRef} : MemWf (hcopy s x i checks src dst kind bar) := by
  refine memWf_onceFor w ?_
  split
  · exact memWf_raise w
  · split
    · exact memWf_raise w
    · exact memWf_after (memWf_issueCopy w)

theorem memWf_dropFaulty (w : MemWf s) {f : Faulty} : MemWf (dropFaulty s f) := memWf_ite w w

/-! ### Routers (R299 to R301) -/

theorem memWf_setRouter (w : MemWf s) {t : Nat} {r : Router} : MemWf (s.setRouter p t core r) := memWf_updPart w _ fun _ h => h

theorem memWf_sampleFlits (w : MemWf s) : MemWf (sampleFlits s) := by
  refine memWf_foldl (fun s e w => memWf_foldl (fun s x w => ?_) _ w) _ w
  split
  · exact w
  · next f _ =>
    exact memWf_setRouter (p := e.1) (t := x.1 / 128) (core := x.1 % 128) (r := { x.2 with flit := some { f with vals := readFlit s f } }) w

theorem memWf_sendDown {t : Nat} {x : Partial} {n : Nat} (w : MemWf s) : MemWf (sendDown p t x n core s) := by
  induction n generalizing s core with
  | zero => exact w
  | succ n ih =>
    refine memWf_foldl (fun s port w => memWf_ite ?_ w) _ (memWf_setRouter w)
    split
    · exact ih w
    · exact w

theorem memWf_foldRouter (w : MemWf s) {t : Nat} {own : Option Report} : MemWf (foldRouter s p t core own) := by
  unfold foldRouter
  extract_lets r kids report root
  split
  · exact w
  · extract_lets x r' s1 s2
    have w' : MemWf s2 := memWf_setRouter (p := p) (t := t) (core := core) (r := r') w
    exact memWf_ite (memWf_sendDown w') w'

theorem memWf_takePartial (w : MemWf s) {t : Nat} {port : Port} {x : Partial} {pop : State → State} (h : ∀ s, MemWf s → MemWf (pop s)) :
    MemWf (takePartial s p t core port x pop) :=
  memWf_ite (memWf_ite w (memWf_updPart (h _ w) _ fun _ h => h)) (memWf_ite (h _ w) w)

theorem memWf_partialArrive (w : MemWf s) {t : Nat} {port : Port} : MemWf (partialArrive s p t core port) := by
  refine memWf_ite w ?_
  split
  · refine memWf_ite ?_ w
    split
    · exact w
    · exact memWf_takePartial w fun _ w => memWf_setRouter w
  · refine memWf_ite w (memWf_ite (memWf_takePartial (s := { s with fresh := s.fresh + 1 }) w fun _ w => w) (memWf_ite ?_ w))
    split
    · exact w
    · exact memWf_sendDown (memWf_setRouter (s := { s with fresh := s.fresh + 1 }) w)

theorem memWf_freezeFlit (w : MemWf s) {t : Nat} {y : Push} : MemWf (freezeFlit s p t y) := memWf_ite (memWf_setRouter w) w

/-- A broadcast writes its words to the crew's window. -/
theorem wf_writeWords {m : Memory} (h : m.wf = true) (n : Nat) (l : List (Word × Nat)) :
    (l.foldl (fun (m : Memory) w => m.write (n + 4 * w.2) 4 w.1.toNat) m).wf = true := by
  induction l generalizing m with
  | nil => exact h
  | cons x l ih => exact ih (Memory.wf_write h _ _ _)

theorem memWf_nredEnd (w : MemWf s) {x : Ctx} {i : Instr} {t n : Nat} {y : Push} {writes : Bool} : MemWf (nredEnd s x i t n y writes) := by
  unfold nredEnd
  extract_lets s'
  have w' : MemWf s' := by
    unfold s'
    split
    · exact memWf_clearPoison (memWf_updCrew w _ fun _ h => wf_writeWords h _ _) _ _ _
    · exact w
  split
  · exact memWf_raise (memWf_updTeam w' _ _)
  · exact memWf_done (memWf_acquire (memWf_freezeFlit w'))

end Sys2Proof.Machine
end

section
/-! PROOFS. Canonical stores: the slot unit and the Spindles (R2, R116 to R155, R291 to R298). -/

set_option Elab.async false

namespace Sys2Proof.Machine
open Claims

variable {s : State} {tid p core seq : Nat}

/-! ### The Slot Unit (R144 to R156) -/

theorem memWf_bufWrite (w : MemWf s) {d off n v : Nat} : MemWf (bufWrite s p d off n v) := memWf_splice w

theorem memWf_writeList (w : MemWf s) {d off : Nat} {l : List Nat} : MemWf (writeList s p d off l) :=
  memWf_foldl (fun _ _ w => memWf_bufWrite w) _ w

theorem memWf_writeImage (w : MemWf s) {d base n : Nat} {v : SlotView} : MemWf (writeImage s p d base n v) :=
  memWf_foldl (fun _ _ w => memWf_bufWrite w) _ w

theorem memWf_slotFault (w : MemWf s) {code : Nat} {addr : Option Nat} : MemWf (slotFault s p seq code addr) := memWf_taskFault w

theorem memWf_issued (w : MemWf s) {f : WinEntry → WinEntry} : MemWf (s.issued p seq f) := memWf_updEntry w

theorem memWf_slotTask (w : MemWf s) {e : WinEntry} {mode : Option Bool} {k : SlotView → Nat → SlotBlock → State}
    (h : ∀ v base b, MemWf (k v base b)) : MemWf (slotTask s p e mode k) := by
  unfold slotTask
  dsimp only
  split
  · exact memWf_slotFault w
  · exact memWf_ite (memWf_slotFault w) (h _ _ _)

theorem memWf_withBufs (w : MemWf s) {e : WinEntry} {needs : List (Option Nat × Nat)} {reads : List (Option Nat × Nat × Nat)} {k : State}
    (h : MemWf k) : MemWf (withBufs s p e needs reads k) := by
  refine memWf_ite (memWf_slotFault w) ?_
  split
  · exact memWf_slotFault w
  · exact h

theorem memWf_issueSopen (w : MemWf s) {e : WinEntry} {kd : Nat} : MemWf (issueSopen s p e kd) :=
  memWf_ite (memWf_slotFault w) (memWf_ite (memWf_slotFault w) (memWf_issued w))

theorem memWf_issueSclose (w : MemWf s) {e : WinEntry} : MemWf (issueSclose s p e) := memWf_slotTask w fun _ _ _ => memWf_issued w

theorem memWf_issueScount (w : MemWf s) {e : WinEntry} : MemWf (issueScount s p e) := memWf_slotTask w fun _ _ _ => memWf_issued w

theorem memWf_issueSrule (w : MemWf s) {e : WinEntry} {img : Bool} {kd : Nat} : MemWf (issueSrule s p e img kd) := by
  refine memWf_slotTask w fun v base b => memWf_withBufs w (memWf_ite (memWf_slotFault w) (memWf_issued ?_))
  exact memWf_ite (memWf_writeImage (memWf_writeList w)) (memWf_writeList w)

theorem memWf_issueSaccept (w : MemWf s) {e : WinEntry} {img : Bool} {kd : Nat} : MemWf (issueSaccept s p e img kd) := by
  refine memWf_slotTask w fun v base b => memWf_withBufs w (memWf_ite (memWf_slotFault w) (memWf_issued ?_))
  exact memWf_ite (memWf_writeImage (memWf_writeList (memWf_writeList w))) (memWf_writeList (memWf_writeList w))

theorem memWf_taskCopy (w : MemWf s) {src dst : CAddr} {kind : CKind} : MemWf (taskCopy s p seq src dst kind) := memWf_ite w w

theorem memWf_issueSkv (w : MemWf s) {e : WinEntry} {kd : Nat} : MemWf (issueSkv s p e kd) :=
  memWf_slotTask w fun _ _ _ => memWf_ite (memWf_slotFault w) <| memWf_ite (memWf_slotFault w) <|
    memWf_foldl (fun _ _ w => memWf_taskCopy w) _ (memWf_issued w)

theorem memWf_issueKvcompact (w : MemWf s) {e : WinEntry} {kd : Nat} : MemWf (issueKvcompact s p e kd) :=
  memWf_slotTask w fun _ _ _ => memWf_withBufs w <| memWf_foldl (fun _ _ w => memWf_taskCopy w) _ (memWf_taskCopy (memWf_issued w))

theorem memWf_issueMaskgen (w : MemWf s) {e : WinEntry} {kd : Nat} : MemWf (issueMaskgen s p e kd) := by
  unfold issueMaskgen
  dsimp only
  split
  · exact memWf_slotFault w
  · exact memWf_ite (memWf_slotFault w) (memWf_issued (memWf_foldl (fun _ _ w => memWf_bufWrite w) _ w))

theorem memWf_issueSpublish (w : MemWf s) {e : WinEntry} : MemWf (issueSpublish s p e) :=
  memWf_slotTask w fun _ _ _ => memWf_ite (memWf_slotFault (memWf_updEntry w)) (memWf_issued w)

theorem memWf_slotAccess (w : MemWf s) {f : CFail} : MemWf (slotAccess s p seq f) := memWf_slotFault (memWf_walked w)

theorem memWf_recordWrite (w : MemWf s) : MemWf (recordWrite s p seq) := by
  unfold recordWrite
  split
  · exact w
  · split
    · refine memWf_ite w ?_
      split
      · exact w
      · split
        · exact w
        · refine memWf_ite (memWf_slotFault (memWf_updEntry w)) (memWf_ite w ?_)
          split
          next h => exact memWf_slotAccess ((resultWf_globalWrite (memWf_asking w)).error h)
          next h =>
            have w' := (resultWf_globalWrite (memWf_asking w)).ok h
            exact memWf_updEntry (memWf_updPart w' p (f := fun x => markPublished { x with rings := _ } seq _ _ _) fun _ h => h)
    · exact w

theorem memWf_consPoll (w : MemWf s) : MemWf (consPoll s p seq) := by
  unfold consPoll
  split
  · exact w
  · refine memWf_ite w ?_
    split
    next h => exact memWf_slotAccess ((resultWf_globalRead (memWf_asking w)).error h)
    next h => exact memWf_updPart ((resultWf_globalRead (memWf_asking w)).ok h) _ fun _ h => h

theorem memWf_ringExpiry (w : MemWf s) : MemWf (ringExpiry s p seq) := by
  unfold ringExpiry
  split
  · exact w
  · exact memWf_ite (memWf_slotFault w) w

/-! ### Spindles (R291 to R298) -/

theorem memWf_setTile (w : MemWf s) {k : Nat} {t : Tile} : MemWf (s.setTile k t) := w

theorem memWf_prepared (w : MemWf s) {c : Crew} {pair : Bool} {n : Nat} : MemWf (prepared s c core pair n) :=
  memWf_ite (memWf_ite w w) (memWf_ite w w)

theorem memWf_readAs (w : MemWf s) {c : Crew} {pair : Bool} {n : Nat} : MemWf (readAs s c core pair n).2 := by
  unfold readAs
  split
  · exact memWf_prepared w
  · dsimp only
    split <;> exact w

theorem memWf_popQueue (w : MemWf s) {key n : Nat} {r : List Nat × State} (h : popQueue s key n = some r) : MemWf r.2 := by
  unfold popQueue at h
  dsimp only at h
  split at h
  · cases h
  · cases h; exact w

theorem memWf_mmpBlock (w : MemWf s) {cid a g b planes cur r tile e : Nat} {c : Crew} {af : AFmt} {bf : BFmt} :
    MemWf (mmpBlock s cid core c a g b planes af bf cur r tile e) :=
  memWf_ite (memWf_setTile (memWf_prepared w)) (memWf_setTile (memWf_prepared w))

theorem memWf_mmsPair (w : MemWf s) {cid a ea b eb g sl d wk cur : Nat} {c : Crew} :
    MemWf (mmsPair s cid core c a ea b eb g sl d wk cur) := by
  unfold mmsPair
  have w' := memWf_prepared (memWf_prepared w (c := c) (core := core) (pair := true) (n := d)) (c := c) (core := core) (pair := true) (n := wk)
  dsimp only
  split
  · exact w'
  · exact memWf_ite (memWf_setTile w') (memWf_setTile (memWf_setTile w'))

theorem memWf_accLoad (w : MemWf s) {cid d a : Nat} {c : Crew} {pair : Bool} : MemWf (accLoad s cid core c pair d a) := by
  have w' := memWf_prepared w (c := c) (core := core) (pair := pair) (n := d)
  exact memWf_ite (memWf_setTile (memWf_setTile w')) (memWf_setTile w')

theorem memWf_accZero (w : MemWf s) {d : Nat} {c : Crew} {pair : Bool} : MemWf (accZero s core c pair d) := by
  have w' := memWf_prepared w (c := c) (core := core) (pair := pair) (n := d)
  exact memWf_ite (memWf_setTile (memWf_setTile w')) (memWf_setTile w')

theorem memWf_accMove (w : MemWf s) {d a : Nat} {c : Crew} {pair : Bool} : MemWf (accMove s core c pair d a) := by
  have w' := memWf_prepared (memWf_readAs w (c := c) (core := core) (pair := pair) (n := a)) (c := c) (core := core) (pair := pair) (n := d)
  exact memWf_ite w (memWf_ite (memWf_setTile (memWf_setTile w')) (memWf_setTile w'))

theorem memWf_accOut (w : MemWf s) {cid d a rs cs fmt : Nat} {c : Crew} {pair ovf : Bool} {rm : RM} {es : Option (List Nat)} :
    MemWf (accOut s cid core c pair d a rs cs fmt ovf rm es) := by
  have w' := memWf_readAs w (c := c) (core := core) (pair := pair) (n := d)
  exact memWf_clearPoison (memWf_setMem w' _ (Memory.wf_replace (memWf_memOf w' _) _ _ _)) _ _ _

theorem resultWf_accSpill (w : MemWf s) {d va : Nat} {c : Crew} {pair : Bool} : ResultWf Prod.snd id (accSpill s p core c pair d va) := by
  have w' : MemWf (spillData s core c pair d).2.2 := memWf_readAs w
  unfold accSpill
  split
  · exact w
  · split
    · exact w
    · dsimp only
      split
      next h => exact (resultWf_globalCheck w').error h
      next h => exact resultWf_globalWrite ((resultWf_globalCheck w').ok h)

theorem memWf_writeBlock (w : MemWf s) {a b d r j0 : Nat} {h : MatShape} {acc : Bool} {t : Tile} :
    MemWf (writeBlock s p core a b d h acc t r j0) :=
  memWf_foldl (fun _ _ w => memWf_ite (memWf_splice w) w) _ w

theorem memWf_releaseTile (w : MemWf s) {k : Nat} : MemWf (releaseTile s k) := by
  unfold releaseTile
  split <;> exact w

theorem memWf_releaseQueue (w : MemWf s) {k : Nat} : MemWf (releaseQueue s k) := w

theorem memWf_freeTile (w : MemWf s) {cls : Nat} {x : TileRun} : MemWf (freeTile s cls x) := by
  have w' := memWf_foldl (f := fun s n => releaseTile s (tileKey x.core cls n)) (fun _ _ w => memWf_releaseTile w) x.tiles w
  unfold freeTile
  dsimp only
  split
  · exact memWf_releaseQueue w'
  · exact w'

theorem memWf_updTile (w : MemWf s) {t : Nat} {f : TileRun → TileRun} : MemWf (s.updTile p seq t f) := memWf_updEntry w

theorem memWf_tileUnit (w : MemWf s) {t cur : Nat} : MemWf (tileUnit s p seq t cur) := by
  unfold tileUnit
  split
  · exact w
  · split
    · dsimp only
      split
      · exact memWf_taskFault w
      · refine memWf_ite (memWf_foldl (fun _ _ w => memWf_setTile w) _ w) (memWf_updTile (memWf_freeTile ?_))
        exact memWf_foldl (fun _ _ w => memWf_writeBlock w) _ (memWf_foldl (fun _ _ w => memWf_setTile w) _ w)
    · exact w

theorem memWf_updSpin (w : MemWf s) {age : Nat} {f : SpinOp → SpinOp} : MemWf (s.updSpin age f) := by
  unfold State.updSpin
  split <;> exact w

theorem memWf_spillFault (w : MemWf s) {age : Nat} {f : CFail} : MemWf (spillFault s age p core f) := memWf_updSpin (memWf_walked w)

theorem memWf_mmpGroup (w : MemWf s) {cid a g b m planes cur : Nat} {c : Crew} {af : AFmt} {bf : BFmt} {tiles : List Nat} {es : Nat → Nat} :
    MemWf (mmpGroup s cid core c a g b m planes af bf tiles cur es) :=
  memWf_foldl (fun _ _ w => memWf_mmpBlock w) _ w

/-- An operation that takes entries of a mask queue waits for them, or goes on without them. -/
theorem optionWf_popQueue (w : MemWf s) {key n : Nat} {k : List Nat × State → State} (h : ∀ r, MemWf r.2 → MemWf (k r)) :
    OptionWf ((popQueue s key n).map k) := by
  cases q : popQueue s key n with
  | none => trivial
  | some r => exact h r (memWf_popQueue w q)

theorem optionWf_spinUnit (w : MemWf s) {age : Nat} {x : SpinOp} : OptionWf (spinUnit s age x) := by
  unfold spinUnit
  dsimp only
  split
  · exact memWf_tileUnit w
  · split
    · exact w
    · refine optionWf_ite ?_ ?_
      · split
        · exact memWf_loseTeam w
        · exact w
      · split
        · split
          · exact memWf_mmpGroup w
          · exact optionWf_popQueue w fun _ w => memWf_mmpGroup w
        · exact memWf_mmsPair w
        · exact memWf_accZero w
        · exact memWf_accLoad w
        · exact memWf_accMove w
        · refine optionWf_ite trivial ?_
          split
          next h => exact memWf_spillFault ((resultWf_accSpill (memWf_asking w)).error h)
          next h => exact (resultWf_accSpill (memWf_asking w)).ok h
        · split
          · exact memWf_accOut w
          · exact optionWf_popQueue w fun _ w => memWf_accOut w
        · exact w

theorem memWf_spinAdvance (w : MemWf s) {age : Nat} : MemWf (spinAdvance s age) := by
  unfold spinAdvance
  split
  · exact w
  · exact memWf_ite (memWf_updSpin w) (memWf_ite (memWf_updSpin w) w)

theorem memWf_spinRun {age n : Nat} (w : MemWf s) : MemWf (spinRun age n s) := by
  induction n generalizing s with
  | zero => exact w
  | succ n ih =>
    unfold spinRun
    split
    · exact w
    · refine memWf_ite w ?_
      split
      next => exact w
      next h =>
        have w' := (optionWf_spinUnit w).some h
        exact memWf_ite w' (ih (memWf_spinAdvance w'))

theorem memWf_spinComplete (w : MemWf s) : MemWf (spinComplete s core) := by
  unfold spinComplete
  split
  · exact w
  · exact memWf_spinRun (s := { s with spinNow := s.spinNow.erase core }) w

theorem memWf_spinPreempt (w : MemWf s) {units : Nat} : MemWf (spinPreempt s core units) := by
  unfold spinPreempt
  split
  · exact w
  · next age _ _ =>
    split
    · exact memWf_spinRun (s := { s with spinNow := s.spinNow.erase core }) w
    · exact memWf_spinRun (s := { s with spinNow := s.spinNow.set core age }) w

theorem memWf_spinStart (w : MemWf s) : MemWf (spinStart s core) := by
  rw [spinStart_rest]; exact w

theorem memWf_submit (w : MemWf s) {x : Ctx} {kind : SKind} {joins : Bool} : MemWf (submit s x kind joins) := by
  refine memWf_after ?_
  exact memWf_ite (memWf_updTeam w x.tid fun t => { t with copyNo := t.copyNo + 1 }) w

theorem memWf_spindleOp (w : MemWf s) {x : Ctx} {i : Instr} {checks : List (Bool × Trap)} {kind : SKind} {joins : Bool} :
    MemWf (spindleOp s x i checks kind joins) := by
  refine memWf_onceFor w ?_
  split
  · exact memWf_raise w
  · exact memWf_submit w

end Sys2Proof.Machine
end

section
/-! PROOFS. Canonical stores: tasks and crews (R2, R41 to R66). -/

set_option Elab.async false

namespace Sys2Proof.Machine
open Claims

variable {s : State} {tid p core seq : Nat}

/-! ### Tasks of the window (R51 to R68, R158) -/

theorem memWf_windowFault (w : MemWf s) {code : Nat} {addr : Option Nat} : MemWf (windowFault s p seq code addr) := memWf_taskFault w

theorem memWf_windowAccess (w : MemWf s) {f : CFail} : MemWf (windowAccess s p seq f) := memWf_windowFault (memWf_walked w)

theorem memWf_windowRead8 (w : MemWf s) {va n : Nat} {k : State → Nat → State} (h : ∀ s v, MemWf s → MemWf (k s v)) :
    MemWf (windowRead8 s p seq va n k) := by
  refine memWf_ite (memWf_windowFault w) ?_
  split
  next q => exact memWf_windowAccess ((resultWf_globalRead w).error q)
  next q => exact h _ _ ((resultWf_globalRead w).ok q)

theorem memWf_swaitRead (w : MemWf s) {e : WinEntry} {cmp : WaitCmp} {wide : Bool} {a kd : Nat} : MemWf (swaitRead s p e cmp wide a kd) :=
  memWf_windowRead8 w fun _ _ w => memWf_updEntry w

theorem memWf_swaitPoll (w : MemWf s) : MemWf (swaitPoll s p seq) := by
  unfold swaitPoll
  split
  · exact w
  · refine memWf_ite ?_ w
    split
    · exact memWf_swaitRead (memWf_asking w)
    · exact w

theorem memWf_swaitExpiry (w : MemWf s) : MemWf (swaitExpiry s p seq) := by
  unfold swaitExpiry
  split
  · exact w
  · split
    · exact memWf_ite (memWf_windowFault w) w
    · exact w

theorem memWf_queueFault (w : MemWf s) {code : Nat} {addr : Option Nat} : MemWf (queueFault s p seq code addr) := memWf_taskFault w

theorem memWf_finish (w : MemWf s) : MemWf (s.finish p seq) := memWf_updEntry w

theorem memWf_queueSend (w : MemWf s) {e : WinEntry} {off q : Nat} : MemWf (queueSend s p e off q) := by
  refine memWf_ite (memWf_queueFault w) (memWf_ite w ?_)
  split
  · exact memWf_queueFault w
  · exact memWf_finish (s := { s with queues := _ }) w

theorem memWf_queueReceive (w : MemWf s) {e : WinEntry} {half : Bool} {q : Nat} : MemWf (queueReceive s p e half q) := by
  refine memWf_ite (memWf_queueFault w) (memWf_ite (memWf_queueFault ?_) ?_)
  · exact w
  split
  · exact w
  · exact memWf_ite (memWf_queueFault w) (memWf_finish (memWf_bufWrite (s := { s with queues := _ }) w))

theorem memWf_takeTile (w : MemWf s) {owner k : Nat} {t : Tile} : MemWf (takeTile s owner k t) := by
  unfold takeTile
  dsimp only
  split <;> exact w

theorem memWf_tileDispatch (w : MemWf s) : MemWf (tileDispatch s p seq) := by
  unfold tileDispatch
  split
  · exact w
  · split
    · exact w
    · refine memWf_ite w ?_
      split
      · exact w
      · dsimp only
        split
        · exact w
        · split
          · refine memWf_updEntry ?_
            split
            · exact memWf_foldl (fun _ _ w => memWf_takeTile w) _ w
            · exact memWf_foldl (fun _ _ w => memWf_takeTile w) _ w
          · exact w

theorem memWf_issueMat (w : MemWf s) {e : WinEntry} : MemWf (issueMat s p e) := by
  unfold issueMat
  split
  · exact w
  · exact memWf_issued w

theorem memWf_issueCopyt (w : MemWf s) {e : WinEntry} {dbuf abuf : Bool} {kd : Nat} : MemWf (issueCopyt s p e dbuf abuf kd) :=
  memWf_issued (p := p) (seq := e.seq) (f := id) w

theorem memWf_issueRedt (w : MemWf s) {e : WinEntry} {a t : Nat} : MemWf (issueRedt s p e a t) :=
  memWf_windowRead8 w fun _ _ w => memWf_ite (memWf_issued (memWf_updPart w _ fun _ h => by exact h)) (memWf_windowFault w)

theorem memWf_issueSsignal (w : MemWf s) {e : WinEntry} {a : Nat} {wide : Bool} : MemWf (issueSsignal s p e a wide) := by
  refine memWf_ite (memWf_windowFault w) ?_
  split
  next h => exact memWf_windowAccess ((resultWf_touch w).error h)
  next h => exact memWf_issued ((resultWf_touch w).ok h)

theorem memWf_issueTask (w : MemWf s) {e : WinEntry} : MemWf (issueTask s p e) := by
  unfold issueTask
  split
  · exact memWf_windowRead8 w fun _ _ w => memWf_issued w
  · exact memWf_issued w
  · exact memWf_issueMat w
  · exact memWf_issueMat w
  · exact memWf_issueCopyt w
  · exact memWf_issueRedt w
  · exact memWf_issueMaskgen w
  · exact memWf_issueKvcompact w
  · exact memWf_issueSopen w
  · exact memWf_issueSrule w
  · exact memWf_issueSaccept w
  · exact memWf_issueSkv w
  · exact memWf_issueSpublish w
  · exact memWf_issueSclose w
  · exact memWf_issueScount w
  · exact memWf_ite (memWf_issued w) (memWf_queueFault w)
  · exact memWf_ite (memWf_issued w) (memWf_queueFault w)
  · exact memWf_issueSsignal w
  · exact memWf_swaitRead (memWf_issued w)
  · exact w

theorem memWf_taskComplete (w : MemWf s) : MemWf (taskComplete s p seq) := by
  unfold taskComplete
  split
  · exact w
  · have f : ∀ b : Bool, MemWf (if b then s.finish p seq else s) := fun b => memWf_ite (memWf_finish w) w
    refine memWf_ite w ?_
    dsimp only
    split
    · exact f _
    · split
      · exact f _
      · exact w
    · split
      · exact f _
      · exact w
    · exact f _
    · exact f _
    · exact f _
    · exact f _
    · exact memWf_ite (memWf_queueSend w) w
    · exact memWf_ite (memWf_queueReceive w) w
    · exact f _
    · exact memWf_finish w

theorem memWf_signalled {s0 : State} (w : MemWf s) {va n v : Nat} : MemWf (signalled s0 s p va n v) := by
  unfold signalled
  split
  · exact memWf_ite w (memWf_updPart w _ fun _ h => h)
  · exact w

theorem memWf_retireEffect (w : MemWf s) {e : WinEntry} : MemWf (retireEffect s p e) := by
  unfold retireEffect
  split
  · exact memWf_updPart w _ fun _ h => h
  · exact memWf_updPart w _ fun _ h => h
  · dsimp only
    split
    next h => exact memWf_signalled ((resultWf_globalWrite (memWf_asking w)).ok h)
    next h => exact memWf_updPart ((resultWf_globalWrite (memWf_asking w)).error h) _ fun _ h => h
  · exact memWf_updPart w _ fun _ h => h
  · exact w

theorem memWf_taskRetire (w : MemWf s) : MemWf (taskRetire s p) := by
  unfold taskRetire
  dsimp only
  split
  · exact w
  · next e es _ =>
    have w' : MemWf (s.updPart p fun x => applySlots { x with window := es } e) := memWf_updPart w p fun _ h => h
    refine memWf_ite (memWf_retireEffect ?_) w
    split
    · exact memWf_updPart w' _ fun _ h => h
    · exact w'

/-! ### Crews (R39 to R43, R106 to R115) -/

theorem memWf_reserveOn (w : MemWf s) {cid cls tiles queues : Nat} : MemWf (reserveOn s cid cls tiles queues core) := by
  refine memWf_updCrew (memWf_foldl (fun _ _ w => by exact w) _ (memWf_foldl (fun s t w => ?_) _ w)) _ fun _ h => by exact h
  exact memWf_takeTile (owner := 2 * cid) (k := tileKey core cls t) (t := { free := some s.fresh }) w

theorem memWf_giveUpTile (w : MemWf s) {owner k : Nat} : MemWf (giveUpTile s owner k) := memWf_ite w (memWf_releaseTile w)

theorem memWf_releaseCrew (w : MemWf s) {cid : Nat} {c : Crew} : MemWf (releaseCrew s cid c) :=
  memWf_foldl (f := fun s (e : Nat × List Nat) => e.2.foldl (fun s q => releaseQueue s (8 * e.1 + q)) s)
    (fun _ _ w => memWf_foldl (fun _ _ w => memWf_releaseQueue w) _ w) _
    (memWf_foldl (f := fun s (e : Nat × List Nat) => e.2.foldl (fun s t => giveUpTile s (2 * cid) (tileKey e.1 c.cls t)) s)
      (fun _ _ w => memWf_foldl (fun _ _ w => memWf_giveUpTile w) _ w) _ w)

theorem memWf_endCrew (w : MemWf s) {cid : Nat} : MemWf (endCrew s cid) := by
  unfold endCrew
  split
  · exact w
  · exact memWf_eraseCrew (memWf_releaseCrew w) cid

theorem memWf_leaveBehind (w : MemWf s) : MemWf (leaveBehind s tid) := memWf_onTeam w fun _ _ => memWf_ite (memWf_updEntry w) w

theorem memWf_dropTeam (w : MemWf s) : MemWf (dropTeam s tid) := memWf_leaveBehind (tid := tid) w

theorem memWf_addTeam (w : MemWf s) {e : WinEntry} {h : LaunchShape} {kd cid crew : Nat} {x : Nat × Nat} :
    MemWf (addTeam s p e h kd cid crew x) := w

theorem memWf_startCores (w : MemWf s) {cores : List Nat} : MemWf (s.startCores cores) := w

theorem memWf_placeCrew (w : MemWf s) {e : WinEntry} {h : LaunchShape} {kd : Nat} {cores quarters shadow : List Nat} :
    MemWf (placeCrew s p e h kd cores quarters shadow) := by
  refine memWf_updEntry (memWf_updEntry (memWf_foldl (fun _ _ w => memWf_stale w _) _ ?_))
  refine memWf_foldl (fun _ _ w => memWf_addTeam w) _ (memWf_foldl (fun _ _ w => memWf_reserveOn w) _ ?_)
  exact memWf_setCrew w _ rfl

theorem memWf_unplaceCrew (w : MemWf s) {cid : Nat} : MemWf (unplaceCrew s cid) := by
  unfold unplaceCrew
  split
  · exact w
  · next c hc =>
    extract_lets tags tiles queues s1 s2
    have h : c.window.wf = true := memWf_crew w hc
    have w2 : MemWf s2 := memWf_setCrew (memWf_releaseCrew w) cid (by exact h)
    exact w2

theorem memWf_unplaceStopped (w : MemWf s) : MemWf (unplaceStopped s p) := by
  refine memWf_foldl (fun s cid w => ?_) _ w
  split
  · exact memWf_ite (memWf_unplaceCrew w) w
  · exact w

theorem memWf_classPreempt (w : MemWf s) : MemWf (classPreempt s p seq) := by
  unfold classPreempt
  split
  · exact w
  · split
    · exact w
    · exact memWf_ite w (memWf_foldl (fun _ _ w => memWf_updCrew w _ fun _ h => by exact h) _ w)

theorem memWf_reage (w : MemWf s) {own : COwner → Bool} {core : Option Nat} : MemWf (reage s own core) :=
  memWf_foldl (fun _ _ w => memWf_ite (by exact w) w) _ w

theorem memWf_resumeTeam (w : MemWf s) {q : Nat} : MemWf (resumeTeam s tid q) := by
  unfold resumeTeam
  split
  · exact w
  · next t _ =>
    exact memWf_reage (s := { s with nextAge := s.nextAge + 1, teams := _ }) (own := COwner.isTeam tid) (core := some (q / 4)) w

theorem memWf_restoreCrew (w : MemWf s) {cid : Nat} {c : Crew} (h : c.window.wf = true) {cores shadow : List Nat} :
    MemWf (restoreCrew s cid c cores shadow) := by
  unfold restoreCrew
  extract_lets s1 s2
  have w1 : MemWf s1 := memWf_setCrew w cid h
  have w2 : MemWf s2 := memWf_foldl (fun _ _ w => memWf_reserveOn w) _ w1
  split
  · exact w2
  · next d _ =>
    refine memWf_foldl (f := fun (s : State) (m : Nat × Nat) => _) (fun s m w => ?_) _ w2
    refine memWf_foldl (fun _ _ w => by exact w) _ (memWf_foldl (fun s t w => ?_) _ w)
    split <;> exact w

theorem memWf_crewResume (w : MemWf s) {cid : Nat} {cores quarters : List Nat} : MemWf (crewResume s cid cores quarters) := by
  unfold crewResume
  split
  · exact w
  · next c hc =>
    refine memWf_ite (memWf_updEntry (memWf_foldl (fun _ _ w => memWf_stale w _) _ ?_)) w
    exact memWf_foldl (fun _ _ w => memWf_resumeTeam w) _ (memWf_startCores (memWf_restoreCrew w (memWf_crew w hc)))

theorem memWf_admitTeam (w : MemWf s) : MemWf (admitTeam s tid) := memWf_updTeam w _ _

theorem memWf_retireTeam (w : MemWf s) : MemWf (retireTeam s tid) := memWf_updTeam w _ _

theorem memWf_teamExchange (w : MemWf s) {q : Nat} : MemWf (teamExchange s q tid) := by
  unfold teamExchange
  split
  · exact w
  · split
    · exact memWf_ite (memWf_admitTeam (memWf_retireTeam w)) w
    · exact memWf_ite (memWf_admitTeam w) w

theorem memWf_timeSlice (w : MemWf s) : MemWf (timeSlice s tid) := by
  refine memWf_onTeam w fun _ _ => memWf_ite w ?_
  dsimp only
  split
  · exact w
  · exact memWf_admitTeam (memWf_retireTeam w)

theorem memWf_parkTile (w : MemWf s) {age : Nat} {x : SpinOp} : MemWf (parkTile s age x) := by
  unfold parkTile
  split
  · split
    · exact w
    · split
      · exact w
      · refine memWf_updTile ?_
        split
        · exact memWf_releaseQueue (memWf_foldl (fun _ _ w => memWf_giveUpTile w) _ w)
        · exact memWf_foldl (fun _ _ w => memWf_giveUpTile w) _ w
  · exact w

theorem memWf_stopTask (w : MemWf s) : MemWf (stopTask s p seq) := by
  refine memWf_foldl (fun _ _ w => memWf_endCrew w) _ (memWf_foldl (fun _ _ w => memWf_dropTeam w) _ ?_)
  refine memWf_foldl (fun _ _ w => memWf_updEntry w) _ ?_
  exact memWf_foldl (f := fun s (e : Nat × SpinOp) => parkTile s e.1 e.2) (fun _ _ w => memWf_parkTile w) _ w

/-- A page that is put back is canonical whatever was kept of it (R382). -/
theorem memWf_undoTrap (w : MemWf s) : MemWf (undoTrap s tid) := by
  unfold undoTrap
  split
  · exact memWf_ite (memWf_foldl (fun _ _ w => memWf_setMem w _ (Memory.wf_replace (memWf_memOf w _) _ _ _)) _ w) w
  · exact w

theorem memWf_serviceRerun (w : MemWf s) {bad : List Nat} {struck : Option Nat} {f : TaskFault} :
    MemWf (serviceRerun s p seq bad struck f) := by
  unfold serviceRerun
  split
  · exact w
  · refine memWf_ite w ?_
    extract_lets s1 s2
    have w1 : MemWf s1 := by
      unfold s1
      split
      · exact memWf_undoTrap w
      · exact w
    have w2 : MemWf s2 := memWf_updEntry w1
    exact memWf_ite (memWf_updPart (memWf_updEntry (memWf_stopTask w2)) _ fun _ h => h) (memWf_taskFault w2)

theorem memWf_deliver (w : MemWf s) {idx lane v : Nat} {x : Producer} : MemWf (deliver s tid idx lane x v) := memWf_updTeam w _ _

theorem memWf_loseRead (w : MemWf s) {t : Team} {c : Crew} {x : Producer} {addr : Nat} : MemWf (loseRead s tid t c x addr) := by
  unfold loseRead
  split
  · exact memWf_lineLost w
  · exact memWf_loseTeam w
  · exact memWf_loseTeam w

theorem memWf_resultArrive (w : MemWf s) {idx lane : Nat} : MemWf (resultArrive s tid idx lane) := by
  refine memWf_onTeam w fun t c => ?_
  split
  · split
    · exact memWf_ite w (memWf_cutIfUnwanted (memWf_haltIfAsked (memWf_hostStep (memWf_asking w))))
    · exact w
  · refine memWf_ite w ?_
    split
    · exact memWf_ite (memWf_loseRead w) w
    · exact memWf_deliver w
    · exact w

theorem memWf_teamEnd (w : MemWf s) : MemWf (teamEnd s tid) := by
  refine memWf_onTeam w fun t c => memWf_ite w ?_
  extract_lets s1 s2
  have w1 : MemWf s1 := by
    unfold s1
    split
    · exact memWf_launchFault w
    · exact w
  have w2 : MemWf s2 := memWf_dropTeam w1
  exact memWf_ite (memWf_updEntry (memWf_endCrew w2)) w2

end Sys2Proof.Machine
end

section
/-! PROOFS. Canonical stores: stop, fault and the ports (R2, R334 to R341, R368 to R373). -/

set_option Elab.async false

namespace Sys2Proof.Machine
open Claims

variable {s : State} {tid p core seq : Nat}

/-! ### Stops and resolutions (R334 to R342) -/

theorem partWf_takeBack {x : Part} (h : PartWf x) {e : WinEntry} : PartWf (x.takeBack e) := by
  unfold Part.takeBack
  split <;> exact h

theorem memWf_squash (w : MemWf s) {es : List WinEntry} : MemWf (squash s p es) := by
  induction es with
  | nil => exact w
  | cons e es ih =>
    show MemWf ((stopTask (squash s p es) p e.seq).updPart p fun x => { x.takeBack e with window := _ })
    exact memWf_updPart (memWf_stopTask ih) p fun x h => partWf_takeBack (e := e) h

theorem memWf_stopAll (w : MemWf s) : MemWf (stopAll s p) := memWf_foldl (fun _ _ w => memWf_stopTask w) _ w

/-- A reset keeps the memory and the buffers of its partition and empties its mailbox (R163). -/
theorem partWf_flr {x : Part} (h : PartWf x) : PartWf x.flr := ⟨h.1, h.2.1, rfl⟩

theorem memWf_flr (w : MemWf s) : MemWf (flr s p) := by
  refine memWf_updPart (memWf_stopAll ?_) _ fun _ h => partWf_flr h
  exact memWf_ite w w

theorem memWf_resetIfAsked (w : MemWf s) : MemWf (resetIfAsked s p) := memWf_ite (memWf_flr w) w

theorem memWf_faultRecordWrite (w : MemWf s) : MemWf (faultRecordWrite s p) := by
  refine memWf_ite w ?_
  split
  · split
    · exact memWf_resetIfAsked (memWf_setPart w _ (memWf_part w p))
    · exact w
  · split
    · exact memWf_ite (memWf_resetIfAsked (memWf_updPart (memWf_stopTask (memWf_squash w)) _ fun _ h => by exact h)) w
    · exact w

theorem partWf_discard {x : Part} (h : PartWf x) {e : WinEntry} {es : List WinEntry} : PartWf (x.discard e es) := by
  have h' : PartWf { x.takeBack e with window := es, areas := [] } := partWf_takeBack (e := e) h
  unfold Part.discard
  dsimp only
  repeat' split
  all_goals exact h'

theorem memWf_reexecute (w : MemWf s) : MemWf (reexecute s p) := by
  refine memWf_ite w ?_
  split
  · exact memWf_setPart w _ (memWf_part w p)
  · split
    · exact memWf_ite w (memWf_setPart w _ (memWf_part w p))
    · exact w

theorem memWf_skip (w : MemWf s) : MemWf (skip s p) := by
  refine memWf_ite w ?_
  split
  · exact memWf_setPart w _ (partWf_discard (memWf_part w p))
  · split
    · refine memWf_setPart w _ ?_
      split <;> exact memWf_part w p
    · exact w

theorem memWf_abandon (w : MemWf s) : MemWf (abandon s p) := by
  refine memWf_ite w ?_
  split
  · next e es _ => exact memWf_setPart w _ (partWf_discard (e := e) (es := es) (memWf_part w p))
  · exact memWf_setPart w _ (memWf_part w p)

theorem memWf_twGo (w : MemWf s) : MemWf (twGo s p) := by
  unfold twGo
  dsimp only
  split
  · exact memWf_setPart w _ (memWf_part w p)
  · exact memWf_ite w (memWf_setPart (memWf_reage w) _ (memWf_part w p))
  · exact w

theorem memWf_twHalt (w : MemWf s) : MemWf (twHalt s p) := by
  unfold twHalt
  dsimp only
  split
  · exact memWf_setPart w _ (memWf_part w p)
  · exact w
  · exact memWf_setPart w _ (memWf_part w p)

theorem memWf_twpcWrite (w : MemWf s) {high : Bool} {v : Nat} : MemWf (twpcWrite s p high v) :=
  memWf_ite (memWf_setPart w _ (memWf_part w p)) w

theorem memWf_twctlWrite (w : MemWf s) {v : Nat} : MemWf (twctlWrite s p v) := by
  refine memWf_ite (memWf_ite w ?_) (memWf_ite (memWf_twGo (memWf_ite (memWf_twHalt w) w)) (memWf_ite (memWf_twHalt w) w))
  split
  · exact memWf_reexecute w
  · exact memWf_skip w
  · exact memWf_abandon w
  · exact w

theorem memWf_preemptAck (w : MemWf s) {e : Engine} : MemWf (preemptAck s p e) := by
  have ack : ∀ s : State, MemWf s → ∀ b : Bool, MemWf (if b then s.updPart p fun x => { x with acks := x.acks ++ [e] } else s) :=
    fun s w b => memWf_ite (memWf_updPart w _ fun _ h => h) w
  refine memWf_unplaceStopped ?_
  split
  · exact memWf_onTeam w fun _ _ => memWf_ite (ack _ (memWf_stale (memWf_setTeam w _ _) _) _) w
  · exact w
  · exact memWf_ite w (ack _ w _)
  all_goals exact ack _ w _

theorem memWf_preemptionComplete (w : MemWf s) : MemWf (preemptionComplete s p) := by
  refine memWf_ite ?_ w
  extract_lets s1 s2 reset s3
  have w1 : MemWf s1 := by
    refine memWf_foldl (fun s cid w => ?_) _ w
    split
    · exact memWf_ite (memWf_unplaceCrew w) w
    · exact w
  have w2 : MemWf s2 := memWf_foldl (fun _ _ w => memWf_ite (memWf_updEntry (memWf_stopTask w)) w) _ w1
  have w3 : MemWf s3 := memWf_updPart w2 _ fun _ h => h
  exact memWf_ite (memWf_flr w3) w3

/-! ### Ports (R368 to R373) -/

theorem memWf_logAer (w : MemWf s) {port : Option Nat} {code : Nat} : MemWf (logAer s port code) := by
  unfold logAer
  split
  · exact memWf_ite w w
  · exact w

/-- A failed write of pooled memory gives its old bytes back one by one (R370). -/
theorem wf_writeBack {m : Memory} (h : m.wf = true) (a old : Nat) (l : List Nat) :
    (l.foldl (fun (m : Memory) j => m.write (a + j) 1 (old / 256 ^ j)) m).wf = true := by
  induction l generalizing m with
  | nil => exact h
  | cons j l ih => exact ih (Memory.wf_write h _ _ _)

theorem memWf_revertWrite (w : MemWf s) {x : OutWrite} : MemWf (revertWrite s x) := by
  obtain ⟨host, cxl, parts, crews⟩ := w
  unfold revertWrite
  split
  · exact ⟨host, cxl, parts, crews⟩
  · exact ⟨host, wf_writeBack cxl _ _ _, parts, crews⟩

theorem memWf_failWrite (w : MemWf s) {idx code : Nat} : MemWf (failWrite s tid idx code) := by
  refine memWf_onTeam w fun t c => ?_
  split
  · exact w
  · exact memWf_ite w (memWf_logAer (memWf_setTeam (memWf_revertWrite w) _ _))

theorem memWf_poisonLine (w : MemWf s) {o : Option XOk} : MemWf (poisonLine s o) := by
  unfold poisonLine
  split
  · exact memWf_ite w w
  · exact w

theorem memWf_dropRead (w : MemWf s) {idx key code : Nat} : MemWf (dropRead s tid idx key code) := by
  refine memWf_onTeam w fun t c => ?_
  split
  · exact w
  · exact memWf_logAer (memWf_updTeam (memWf_ite (memWf_poisonLine w) w) _ _)

theorem memWf_failRead (w : MemWf s) {idx lane code : Nat} {timeout : Bool} : MemWf (failRead s tid idx lane code timeout) := by
  refine memWf_onTeam w fun t c => ?_
  split
  · exact w
  · exact memWf_ite w (memWf_ite w (memWf_dropRead w))

theorem memWf_failTask (w : MemWf s) {code : Nat} {timeout : Bool} : MemWf (failTask s p seq code timeout) := by
  unfold failTask
  split
  · exact w
  · split
    · exact w
    · split
      · exact w
      · refine memWf_ite w ?_
        dsimp only
        split
        · exact memWf_slotAccess (memWf_logAer w)
        · exact memWf_windowFault (memWf_logAer w)

theorem memWf_failFlight (w : MemWf s) {age code : Nat} {timeout : Bool} : MemWf (failFlight s age code timeout) := by
  unfold failFlight
  split
  · exact w
  · split
    · exact w
    · dsimp only
      split
      · exact w
      · exact memWf_logAer (memWf_chunkPortFail w)
      · exact memWf_logAer (memWf_chunkWriteFail w)
      · have w' : MemWf { s with fresh := s.fresh + 1 } := w
        exact memWf_ite (memWf_logAer (memWf_chunkWriteFail w')) (memWf_logAer (memWf_chunkPortFail w'))

theorem memWf_dropSpill (w : MemWf s) {port code : Nat} : MemWf (dropSpill s core port code) := by
  unfold dropSpill
  split
  · exact memWf_logAer (memWf_spinAdvance (memWf_spillFault (memWf_partWritten w)))
  · exact w

theorem memWf_failSpill (w : MemWf s) {code : Nat} {timeout : Bool} : MemWf (failSpill s core code timeout) := by
  unfold failSpill
  split
  · exact memWf_ite w (memWf_dropSpill w)
  · exact w

theorem memWf_dropAtomic (w : MemWf s) {code : Nat} {au : Bool} : MemWf (dropAtomic s tid code au) :=
  memWf_ite (memWf_logAer (memWf_cutIfUnwanted (memWf_haltIfAsked (memWf_hostFail w)))) w

theorem memWf_failAtomic (w : MemWf s) {lane code : Nat} {au timeout : Bool} : MemWf (failAtomic s tid lane code au timeout) := by
  refine memWf_onTeam w fun t c => ?_
  split
  · exact w
  · exact memWf_ite (memWf_dropAtomic (memWf_asking w)) w

theorem memWf_failTeamWrite (w : MemWf s) {idx code : Nat} {timeout : Bool} : MemWf (failTeamWrite s tid idx code timeout) := by
  refine memWf_onTeam w fun t c => ?_
  split
  · exact w
  · exact memWf_ite (memWf_failWrite w) w

theorem memWf_dropSignal (w : MemWf s) {x : OutWrite} {code : Nat} : MemWf (dropSignal s p x code) :=
  memWf_logAer (memWf_updPart (memWf_revertWrite w) _ fun _ h => by exact h)

theorem memWf_failSignal (w : MemWf s) {code : Nat} {timeout : Bool} : MemWf (failSignal s p code timeout) := by
  unfold failSignal
  split
  · exact w
  · exact memWf_dropSignal w

theorem memWf_signalDone (w : MemWf s) : MemWf (signalDone s p) := by
  unfold signalDone
  split
  · exact w
  · exact memWf_updPart w _ fun _ h => h

theorem memWf_failLine (w : MemWf s) {store n code : Nat} : MemWf (failLine s store n code) := by
  unfold failLine
  split
  · exact w
  · refine memWf_ite (memWf_ite (memWf_logAer ?_) w) (memWf_logAer ?_)
    · exact w
    · exact w

theorem memWf_failCas (w : MemWf s) {n code : Nat} : MemWf (failCas s n code) := by
  refine memWf_ite w (memWf_logAer ?_)
  exact w

theorem memWf_updPort (w : MemWf s) {n : Nat} {f : PortStat → PortStat} : MemWf (s.updPort n f) := memWf_ite w w

theorem memWf_each {α : Type} {f : State → α → State} (h : ∀ s x, MemWf s → MemWf (f s x)) {l : List α} (w : MemWf s) :
    MemWf (each l s f) := memWf_foldl h l w

theorem memWf_endTeam (w : MemWf s) {port : Nat} {code : Nat → Nat} : MemWf (endTeam s tid port code) := by
  refine memWf_onTeam w fun t c => ?_
  extract_lets s1 s2
  have w2 : MemWf s2 := memWf_each (fun _ _ w => memWf_failWrite w) (memWf_each (fun _ _ w => memWf_dropRead w) w)
  exact memWf_ite (memWf_dropAtomic w2) w2

theorem memWf_endRequests (w : MemWf s) {who : Nat → Bool} {port : Nat} {code : Nat → Nat} : MemWf (endRequests s who port code) := by
  refine memWf_each (fun _ _ w => memWf_each (fun _ _ w => memWf_dropSignal w) w) ?_
  refine memWf_each (fun _ _ w => memWf_dropSpill w) (memWf_each (fun s e w => ?_) (memWf_each (fun _ _ w => memWf_endTeam w) w))
  split
  · exact memWf_logAer (memWf_chunkPortFail w)
  · exact memWf_logAer (memWf_chunkWriteFail w)
  · exact w

end Sys2Proof.Machine
end

section
/-! PROOFS. Canonical stores: service, barriers and the Headframe (R2, R374 to R389). -/

set_option Elab.async false

namespace Sys2Proof.Machine
open Claims

variable {s : State} {tid p core seq : Nat}

/-! ### Errors, strikes and signatures (R377 to R389) -/

theorem partWf_countUncorr {x : Part} (h : PartWf x) : PartWf (countUncorr x) := h

theorem memWf_onOwner (w : MemWf s) {o : Option Nat} {f : Part → Part} (h : ∀ x, PartWf x → PartWf (f x)) : MemWf (onOwner s o f) := by
  unfold onOwner
  split
  · exact memWf_updPart w _ h
  · exact w

theorem memWf_poisonAdd (w : MemWf s) {k : Nat} : MemWf (poisonAdd s k) := memWf_ite w w

theorem memWf_rowHit (w : MemWf s) {place : SramPlace} {row : Nat} {found : EccFinding} : MemWf (rowHit s place row found) := by
  cases found <;> exact w

theorem memWf_correctedAt (w : MemWf s) {row : Option (SramPlace × Nat)} : MemWf (correctedAt s p row) := by
  have w' : MemWf (s.updPart p countCorr) := memWf_updPart w p fun _ h => h
  refine memWf_ite ?_ w
  split
  · exact memWf_ite (memWf_rowHit w') w
  · exact w'

theorem memWf_poisonWindow (w : MemWf s) {k : Nat} : MemWf (poisonWindow s k) := memWf_ite w w

theorem memWf_patrolRead (w : MemWf s) {place : SramPlace} {found : EccFinding} : MemWf (patrolRead s place found) := by
  unfold patrolRead
  extract_lets key n line owner s1 s2
  refine memWf_ite w ?_
  have w1 : MemWf s1 := by
    refine memWf_rowHit ?_
    exact w
  split
  · exact w1
  · exact memWf_onOwner w1 fun _ h => h
  · have w2 : MemWf s2 := memWf_onOwner w1 fun _ h => partWf_countUncorr h
    clear_value s2 owner
    split
    · split
      · exact memWf_poisonAdd w2
      · exact w2
    · exact memWf_poisonAdd w2
    · split
      · exact memWf_poisonWindow w2
      · exact w2

theorem memWf_useSpareRow (w : MemWf s) {place : SramPlace} {row : Nat} : MemWf (useSpareRow s place row) := by
  cases place <;> exact w

theorem memWf_retireCore (w : MemWf s) {code : Nat} : MemWf (retireCore s core code) := by
  unfold retireCore
  extract_lets s1
  have w1 : MemWf s1 := by
    unfold s1
    split
    · exact w
    · exact memWf_foldl (fun _ _ w => memWf_serviceRerun w) _ w
  exact w1

theorem memWf_strike (w : MemWf s) {code : Nat} : MemWf (strike s code core) := by
  refine memWf_ite (memWf_retireCore ?_) ?_
  · exact w
  · exact w

theorem memWf_useSpareTile (w : MemWf s) {bank : Nat} : MemWf (useSpareTile s core bank) := w

theorem memWf_loseTile (w : MemWf s) {key : Nat} : MemWf (loseTile s core key) := by
  unfold loseTile
  split
  · exact w
  · split
    · split
      · exact memWf_serviceRerun w
      · exact w
    · split
      · split
        · split
          · exact memWf_updEntry (memWf_taskFault w)
          · exact memWf_serviceRerun w
        · exact w
      · exact w

theorem memWf_storeStruck (w : MemWf s) {c : Crew} : MemWf (storeStruck s tid c core) := memWf_strike (memWf_serviceRerun w)

theorem memWf_storeLost (w : MemWf s) {c : Crew} {row : Option Nat} : MemWf (storeLost s tid c core row) := by
  have w' : MemWf (s.updPart c.part countUncorr) := memWf_updPart w c.part fun _ h => h
  refine memWf_storeStruck ?_
  split
  · exact memWf_ite (memWf_rowHit w') w'
  · exact w'

theorem memWf_settleLost (w : MemWf s) : MemWf (settleLost s tid) := by
  unfold settleLost
  split
  · exact w
  · next t _ =>
    have w' : MemWf (s.setTeam tid { t with lost := none }) := w
    dsimp only
    split
    · exact w
    · exact memWf_onTeam w' fun _ _ => memWf_storeStruck w'
    · exact memWf_onTeam w' fun _ _ => memWf_ite (memWf_serviceRerun w') (memWf_taskFault w')

theorem memWf_carveHit (w : MemWf s) {l : Nat} : MemWf (carveHit s p l) := memWf_rowHit w

theorem memWf_uncorrectable (w : MemWf s) {place : ErrPlace} : MemWf (uncorrectable s place) := by
  have counted : ∀ q, MemWf (s.updPart q countUncorr) := fun q => memWf_updPart w q fun _ h => partWf_countUncorr h
  unfold uncorrectable
  split
  · exact memWf_onTeam w fun _ _ => memWf_storeLost w
  · refine memWf_onTeam w fun _ _ => ?_
    split
    · exact memWf_storeLost w
    · exact w
  · refine memWf_ite ?_ w
    exact memWf_useSpareTile (memWf_loseTile (memWf_onOwner w fun _ h => partWf_countUncorr h))
  · extract_lets s1
    have w1 : MemWf s1 := memWf_poisonAdd (memWf_carveHit (counted _))
    split
    · split
      · refine memWf_serviceRerun ?_
        exact w1
      · exact w1
    · exact w1
  · exact memWf_poisonAdd (memWf_carveHit (counted _))
  · dsimp only
    split
    · exact memWf_updEntry (memWf_taskFault (counted _))
    · exact counted _
  · split
    · exact w
    · refine memWf_onOwner ?_ fun _ h => partWf_countUncorr h
      exact w

theorem memWf_mismatched (w : MemWf s) : MemWf (mismatched s tid) := by
  refine memWf_onTeam w fun t c => ?_
  extract_lets far both again ran s1 s2 s3
  have w1 : MemWf s1 := memWf_serviceRerun (memWf_updPart w c.part fun _ h => by exact h)
  have w2 : MemWf s2 := memWf_foldl (fun _ _ w => memWf_serviceRerun w) _ w1
  have w3 : MemWf s3 := memWf_updEntry w2
  exact memWf_foldl (fun _ _ w => memWf_strike w) _ w3

theorem memWf_signatureCompare (w : MemWf s) {what : SigOf} {sig : Nat} : MemWf (signatureCompare s what sig) := by
  unfold signatureCompare
  dsimp only
  split
  · exact memWf_onTeam w fun _ _ => memWf_ite w (memWf_ite w (memWf_mismatched w))
  · split
    · exact w
    · refine memWf_ite w (memWf_ite (memWf_updCopy w) ?_)
      split
      · exact memWf_mismatched w
      · exact w
  · split
    · exact w
    · split
      · refine memWf_ite w (memWf_ite (memWf_updSpin w) ?_)
        exact memWf_mismatched w
      · exact w

/-! ### The end of a clock, and the choice of an agent (R9, R28, R46) -/

/-- A change of every partition that keeps its memories. -/
theorem memWf_mapParts (w : MemWf s) {f : Nat × Part → Part} (h : ∀ e, PartWf e.2 → PartWf (f e)) :
    MemWf { s with parts := s.parts.map fun e => (e.1, f e) } := by
  obtain ⟨host, cxl, parts, crews⟩ := w
  refine ⟨host, cxl, fun e he => ?_, crews⟩
  obtain ⟨d, hd, rfl⟩ := List.mem_map.mp he
  exact h d (parts d hd)

theorem memWf_countReady (w : MemWf s) : MemWf (countReady s) := w

theorem memWf_startSpindles (w : MemWf s) : MemWf (startSpindles s) := memWf_foldl (fun _ _ w => memWf_spinStart w) _ w

theorem memWf_tick (w : MemWf s) : MemWf (tick s) := by
  have w' := memWf_startSpindles (memWf_countReady (memWf_sampleFlits
    (memWf_foldl (f := fun s tid => settleLost s tid) (fun _ _ w => memWf_settleLost w) s.teams.keys w)))
  exact memWf_mapParts w' (f := fun e => e.2.endClock _ e.1) fun _ h => h

theorem memWf_hostStore (w : MemWf s) {a n v : Nat} : MemWf (hostStore s a n v) := memWf_ite (memWf_store w _ _ _ _) w

theorem memWf_poolStore (w : MemWf s) {a n v : Nat} : MemWf (poolStore s a n v) :=
  memWf_ite (memWf_clearPoison (memWf_store w _ _ _ _) _ _ _) w

theorem memWf_mailStore (w : MemWf s) {a n v : Nat} : MemWf (mailStore s p a n v) := memWf_ite (memWf_store w _ _ _ _) w

theorem memWf_nextAgent (w : MemWf s) : MemWf (nextAgent s).2 := by
  unfold nextAgent
  split <;> exact w

theorem choiceWf_again {a : Agent} {c : Choice} (h : ChoiceWf c) : ChoiceWf (again a c) := by
  cases c <;> exact h

theorem choiceWf_choice (w : MemWf s) {a : Agent} : ChoiceWf (choice s a) := by
  cases a with
  | pipe c q p => exact choiceWf_again (choiceWf_pipeChoice w)
  | front p => exact choiceWf_again (choiceWf_frontChoice w)
  | event i =>
    unfold choice
    dsimp only
    split
    · exact w
    · trivial
  | tick => exact memWf_tick w
  | hostStore x n v => exact memWf_hostStore w
  | poolStore x n v => exact memWf_poolStore w
  | mailStore p x n v => exact memWf_mailStore w
  | corrected p row => exact memWf_correctedAt w
  | evictLine k => exact w
  | ssignalDone p => exact memWf_signalDone w
  | evictPte k => exact w

/-! ### Barriers (R287 to R290) -/

theorem memWf_barOp (w : MemWf s) {x : Ctx} {i : Instr} {r : SReg} {k : Nat → Bar → State} (h : ∀ a b, MemWf (k a b)) :
    MemWf (barOp s x i r k) := by
  refine memWf_onceFor w ?_
  split
  · exact memWf_raise w
  · exact h _ _

theorem memWf_barRead (w : MemWf s) {x : Ctx} {i : Instr} {r : SReg} {k : Nat → Bar → State} (h : ∀ a b, MemWf (k a b)) :
    MemWf (barRead s x i r k) := memWf_barOp w fun _ _ => memWf_ite (memWf_loseTeam w) (h _ _)

theorem memWf_arriveAt (w : MemWf s) {x : Ctx} {i : Instr} {d : SReg} {a n : Nat} {b : Bar} : MemWf (arriveAt s x i d a b n) :=
  memWf_ite (memWf_raise w) (memWf_reporting w (memWf_done (memWf_setBar w)))

theorem memWf_barWaited (w : MemWf s) {x : Ctx} {i : Instr} {a : Nat} {b : Bar} : MemWf (barWaited s x i a b) := by
  refine memWf_ite (memWf_raise w) ?_
  split
  · refine memWf_raise ?_
    exact w
  · exact memWf_done (memWf_acquire w)

/-! ### Registers, partitions and attestation (08, 24) -/

theorem partWf_ringWrite {x : Part} (h : PartWf x) {r off v : Nat} : PartWf (ringWrite x r off v) := by
  unfold ringWrite
  split <;> exact h

theorem memWf_xlinv (w : MemWf s) : MemWf (xlinv s p) := memWf_updPart w _ fun _ h => h

theorem memWf_dbgHalt (w : MemWf s) : MemWf (dbgHalt s p) :=
  memWf_ite (memWf_foldl (fun _ _ w => memWf_haltIfAsked (memWf_updTeam w _ _)) _ w) w

theorem memWf_dbgResume (w : MemWf s) : MemWf (dbgResume s p) := memWf_foldl (fun _ _ w => memWf_updTeam w _ _) _ w

theorem memWf_unaskHalts (w : MemWf s) : MemWf (unaskHalts s p) := memWf_foldl (fun _ _ w => memWf_updTeam w _ _) _ w

theorem memWf_dbgWrite (w : MemWf s) {v : Nat} : MemWf (dbgWrite s p v) := by
  unfold dbgWrite
  extract_lets s1 s2 s3
  have w1 : MemWf s1 := memWf_updPart w p fun _ h => h
  have w2 : MemWf s2 := memWf_ite w1 (memWf_unaskHalts w1)
  have w3 : MemWf s3 := memWf_ite (memWf_dbgHalt w2) w2
  exact memWf_ite (memWf_dbgResume w3) w3

theorem memWf_tsliceWrite (w : MemWf s) {v : Nat} : MemWf (tsliceWrite s p v) :=
  memWf_foldl (fun _ _ w => memWf_updTeam w _ _) _ (memWf_updPart w p fun _ h => by exact h)

theorem partWf_ite {c : Prop} [Decidable c] {x y : Part} (hx : PartWf x) (hy : PartWf y) : PartWf (if c then x else y) := by
  split
  · exact hx
  · exact hy

theorem partWf_pageWrite {x : Part} (h : PartWf x) {off v : Nat} : PartWf (pageWrite x off v) := by
  unfold pageWrite
  dsimp only
  split
  case h_1 | h_3 | h_4 => exact partWf_ite h h
  case h_10 => exact partWf_ite (partWf_ringWrite h) h
  all_goals exact h

theorem memWf_vfWrite (w : MemWf s) {off v : Nat} : MemWf (vfWrite s p off v) := by
  unfold vfWrite
  split
  · exact memWf_twctlWrite w
  · exact memWf_twpcWrite w
  · exact memWf_twpcWrite w
  · exact memWf_ite (memWf_xlinv w) w
  · exact memWf_dbgWrite w
  · exact memWf_tsliceWrite w
  · exact memWf_ite (memWf_ite (memWf_store w _ _ _ _) w) (memWf_updPart w _ fun _ h => partWf_pageWrite h)

/-- A partition that forms or was dissolved has empty memories (R163, R164). -/
theorem partWf_described {x : Part} : PartWf x.described := ⟨rfl, rfl, rfl⟩

theorem memWf_form (w : MemWf s) : MemWf (form s p) := by
  refine memWf_ite w ?_
  split
  · exact memWf_updPart w _ fun _ h => h
  · exact memWf_updPart w _ fun _ h => h

theorem memWf_adoptPoison (w : MemWf s) : MemWf (adoptPoison s p) := w

theorem memWf_signedOnce (w : MemWf s) {key : Nat} : MemWf (signedOnce s key) := w

theorem memWf_formComplete (w : MemWf s) : MemWf (formComplete s p) := by
  refine memWf_ite w (memWf_adoptPoison (memWf_signedOnce (memWf_updPart w p fun x _ => ?_)))
  exact partWf_described (x := x)

theorem memWf_withdraw (w : MemWf s) : MemWf (withdraw s p) := w

theorem memWf_dissolveNow (w : MemWf s) : MemWf (dissolveNow s p) :=
  memWf_updPart (memWf_withdraw (memWf_stopAll w)) _ fun _ h => by exact h

theorem memWf_dissolve (w : MemWf s) : MemWf (dissolve s p) := memWf_ite (memWf_dissolveNow w) w

theorem memWf_scrubCore (w : MemWf s) {x : Nat × Nat} : MemWf (scrubCore s x) := memWf_ite (memWf_useSpareRow w) w

theorem memWf_scrubRow (w : MemWf s) {x : Nat × Nat} : MemWf (scrubRow s x) := memWf_ite (memWf_useSpareRow w) w

theorem memWf_scrub (w : MemWf s) {badCores badLines : List Nat} : MemWf (scrub s p badCores badLines) := by
  refine memWf_foldl (fun _ _ w => memWf_scrubRow w) _ (memWf_foldl (fun _ _ w => memWf_scrubCore w) _ ?_)
  exact memWf_setPart w p (partWf_described (x := s.part p))

theorem memWf_pf0Clear (w : MemWf s) : MemWf (pf0Clear s) := by
  refine memWf_ite ?_ w
  exact memWf_mapParts w (f := fun e => { msix := e.2.msix }) fun _ _ => ⟨rfl, rfl, rfl⟩

theorem memWf_attest (w : MemWf s) {v : Nat} : MemWf (attest s v) := memWf_ite w (memWf_ite w w)

theorem memWf_attestationResponse (w : MemWf s) : MemWf (attestationResponse s) := by
  refine memWf_ite w (memWf_ite w (memWf_ite w ?_))
  obtain ⟨host, rest⟩ := w
  exact ⟨Memory.wf_write (Memory.wf_write host _ _ _) _ _ _, rest⟩

theorem memWf_fwStart (w : MemWf s) {v : Nat} : MemWf (fwStart s v) := w

theorem memWf_fwCheck (w : MemWf s) : MemWf (fwCheck s) := memWf_ite w (memWf_ite w w)

theorem partWf_descWrite {x : Part} (h : PartWf x) {off v : Nat} : PartWf (descWrite x off v) := by
  unfold descWrite
  split <;> exact h

theorem memWf_partWrite (w : MemWf s) {off v : Nat} : MemWf (partWrite s p off v) := by
  refine memWf_ite w (memWf_ite ?_ (memWf_ite w (memWf_updPart w _ fun _ h => partWf_descWrite h)))
  split
  · exact memWf_form w
  · exact memWf_dissolve w
  · exact w

theorem memWf_linkWrite (w : MemWf s) {n v : Nat} : MemWf (linkWrite s n v) := memWf_ite w w

theorem memWf_pfWrite (w : MemWf s) {off v : Nat} : MemWf (pfWrite s off v) := by
  unfold pfWrite
  refine memWf_ite (memWf_partWrite w) (memWf_ite ?_ (memWf_ite (memWf_linkWrite w) (memWf_ite ?_ (memWf_ite (memWf_fwStart w)
    (memWf_ite ?_ (memWf_ite ?_ (memWf_ite (memWf_updPort w) (memWf_ite (memWf_attest w) (memWf_ite (memWf_ite w ?_) w)))))))))
  all_goals exact w

end Sys2Proof.Machine
end

section
/-! PROOFS. Canonical stores: the instructions and events whose answer branches. -/

set_option Elab.async false

namespace Sys2Proof.Machine
open Claims

variable {s : State}

/-! ### Instructions whose effect branches -/

theorem outWf_execBrx (w : MemWf s) {c : Ctl} {base : SReg} {off : VReg} : OutWf (execBrx c base off s) := by
  refine outWf_core w fun x => ?_
  split
  · exact memWf_raise w
  · exact memWf_settle w

theorem outWf_execCallIndirect (w : MemWf s) {c : Ctl} {base : SReg} {off : VReg} : OutWf (execCallIndirect c base off s) := by
  refine outWf_core w fun x => memWf_onceFor w ?_
  split
  · exact memWf_raise w
  · exact memWf_call w

theorem outWf_execRet (w : MemWf s) {c : Ctl} : OutWf (execRet c s) := by
  refine outWf_core w fun x => memWf_onceFor w ?_
  split
  · split
    · exact memWf_raise w
    · exact memWf_raise w
  · split
    · exact memWf_raise w
    · exact memWf_pop (memWf_updTeam (memWf_settle w) _ _)

theorem outWf_execExit (w : MemWf s) {c : Ctl} : OutWf (execExit c s) :=
  outWf_core w fun _ => memWf_onceFor w (memWf_reporting w (memWf_pop (memWf_settle w)))

theorem outWf_execTret (w : MemWf s) {c : Ctl} : OutWf (execTret c s) :=
  outWf_core w fun _ => memWf_ite (memWf_pop (memWf_leaveHandler w)) (memWf_raise w)

theorem outWf_execSregRead (w : MemWf s) {c : Ctl} {d : VC} {a : Spec} : OutWf (execSregRead c d a s) := by
  refine outWf_core w fun x => ?_
  split <;> exact memWf_done w

theorem outWf_execSregWrite (w : MemWf s) {c : Ctl} {d : Spec} {a : VC} : OutWf (execSregWrite c d a s) := by
  refine outWf_core w fun x => memWf_onceFor w ?_
  split
  · exact memWf_done w
  · exact memWf_raise w

theorem outWf_execAddr (w : MemWf s) {c : Ctl} {d a : SReg} {b : SB} : OutWf (execAddr c d a b s) := by
  refine outWf_core w fun x => memWf_onceFor w ?_
  split
  · exact memWf_raise w
  · exact memWf_done w

theorem outWf_execSt (w : MemWf s) {c : Ctl} {wd : Width} {d : VReg} {m : MemOp} : OutWf (execSt c wd d m s) := by
  refine outWf_core w fun x => memWf_onceFor w ?_
  split
  next h => exact memWf_raise ((resultWf_accesses w).error h)
  next h => exact memWf_reporting w (memWf_after (memWf_storeAll ((resultWf_accesses w).ok h)))

theorem outWf_execLds (w : MemWf s) {c : Ctl} {wd : Width} {d b : SReg} {sp : Space} {o : Order} {sc : Scope} :
    OutWf (execLds c wd d sp o sc b s) := by
  refine outWf_core w fun x => memWf_onceFor w ?_
  split
  · exact memWf_raise w
  · exact memWf_produceOp w

theorem outWf_execTagset (w : MemWf s) {c : Ctl} {d a b : VReg} : OutWf (execTagTagset c d a b s) := by
  refine outWf_core w fun x => ?_
  split
  · exact memWf_raise w
  · exact memWf_tagLanes w fun _ _ w => memWf_onTags w fun _ _ w => memWf_tagSet w

theorem outWf_execTagclr (w : MemWf s) {c : Ctl} {d a : VReg} : OutWf (execTagTagclr c d a s) :=
  outWf_core w fun _ => memWf_tagLanes w fun _ _ w => memWf_onTags w fun _ _ w => memWf_tagClear w

theorem outWf_execBwait (w : MemWf s) {c : Ctl} {b : SB} : OutWf (execBwait c b s) := by
  refine outWf_core w fun x => memWf_onceFor w ?_
  split
  · exact memWf_raise (memWf_dropFaulty w)
  · exact memWf_done (memWf_stale w _)

theorem outWf_execMqStat (w : MemWf s) {c : Ctl} {d : SReg} {q : QReg} : OutWf (execMqStat c d q s) := by
  refine outWf_core w fun x => memWf_onceFor w ?_
  split
  · exact memWf_raise w
  · exact memWf_done w

theorem outWf_execMqFlush (w : MemWf s) {c : Ctl} {q : QReg} : OutWf (execMqFlush c q s) := by
  refine outWf_core w fun x => memWf_onceFor w ?_
  split
  · exact memWf_raise w
  · refine memWf_done ?_
    exact w

theorem outWf_execNredPush (w : MemWf s) {c : Ctl} {a : SReg} {t : BitVec 4} : OutWf (execNredPush c a t s) := by
  refine outWf_core w fun x => memWf_onceFor w ?_
  split
  · exact memWf_raise w
  · exact memWf_reporting w (memWf_ite (memWf_loseTeam w) (memWf_done (memWf_setRouter w)))

theorem outWf_execNredWait (w : MemWf s) {c : Ctl} {a : SReg} {t : BitVec 4} {bcast : Bool} : OutWf (execNredWait c a t bcast s) := by
  refine outWf_core w fun x => memWf_onceFor w ?_
  split
  · exact memWf_raise w
  · split
    · exact memWf_raise w
    · exact memWf_nredEnd w

theorem outWf_execSret (w : MemWf s) : OutWf (execSret s) := by
  refine outWf_front w fun p x h => ?_
  split
  · exact memWf_frontTrap w
  · exact memWf_setPart w p h

theorem outWf_execSbr (w : MemWf s) {cc : CC} {a b : KReg} {off : BitVec 32} : OutWf (execSbr cc a b off s) := by
  refine outWf_front w fun p x h => memWf_setPart w p ?_
  split <;> exact h

theorem outWf_execScall (w : MemWf s) {off : BitVec 32} : OutWf (execScall off s) :=
  outWf_front w fun p _ h => memWf_ite (memWf_frontTrap w) (memWf_setPart w p h)

theorem outWf_execSjoin (w : MemWf s) : OutWf (execSjoin s) := outWf_front w fun p _ h => memWf_ite (memWf_setPart w p h) w

theorem outWf_execShalt (w : MemWf s) : OutWf (execShalt s) := outWf_front w fun p _ h => memWf_ite w (memWf_setPart w p h)

theorem outWf_execKalu (w : MemWf s) {op : AluOp} {d a : KReg} {b : KB} : OutWf (execKalu op d a b s) :=
  outWf_front w fun p _ h => memWf_setPart w p h

theorem outWf_execSmode (w : MemWf s) {b : KReg} {det : Bool} : OutWf (execSmode b det s) := outWf_front w fun p _ h => memWf_setPart w p h

theorem outWf_execBdecl (w : MemWf s) {d : BufNo} {cls : BitVec 4} : OutWf (execBdecl d cls s) := by
  refine outWf_front w fun p x h => memWf_ite w ?_
  split
  · exact memWf_ite w (memWf_frontTrap w)
  · exact memWf_setPart w p h

theorem outWf_execBdrop (w : MemWf s) {d : BufNo} : OutWf (execBdrop d s) := by
  refine outWf_front w fun p x h => memWf_ite w ?_
  split
  · exact memWf_frontTrap w
  · exact memWf_setPart w p h

/-! ### Events -/

theorem outWf_execTaskIssue (w : MemWf s) {p seq : Nat} : OutWf (execTaskIssue p seq s) := by
  refine outWf_next ?_
  split
  · exact memWf_ite (memWf_issueTask (memWf_asking w)) w
  · exact w

theorem outWf_execCrewPlace (w : MemWf s) {p seq : Nat} {cores quarters shadow : List Nat} :
    OutWf (execCrewPlace p seq cores quarters shadow s) := by
  refine outWf_next ?_
  split
  · exact w
  · split
    · exact w
    · exact memWf_ite (memWf_placeCrew w) w

theorem outWf_execIoCompletionTimeout (w : MemWf s) {req : IoReq} : OutWf (execIoCompletionTimeout req s) := by
  refine outWf_next ?_
  cases req with
  | read => exact memWf_failRead w
  | write => exact memWf_failTeamWrite w
  | atomic => exact memWf_failAtomic w
  | chunk => exact memWf_failFlight w
  | spill => exact memWf_failSpill w
  | task => exact memWf_failTask w
  | ssignal => exact memWf_failSignal w
  | line => exact memWf_failLine w
  | cas => exact memWf_failCas w

theorem outWf_execPortCompletionError (w : MemWf s) {req : IoReq} {err : PortErr} : OutWf (execPortCompletionError req err s) := by
  refine outWf_next ?_
  cases req with
  | read => exact memWf_failRead w
  | write => exact memWf_failTeamWrite w
  | atomic => exact memWf_failAtomic w
  | chunk => exact memWf_failFlight w
  | spill => exact memWf_failSpill w
  | task => exact memWf_failTask w
  | ssignal => exact memWf_failSignal w
  | line => exact memWf_failLine w
  | cas => exact memWf_failCas w

theorem outWf_execWriteCompletionArrive (w : MemWf s) {tid idx : Nat} : OutWf (execWriteCompletionArrive tid idx s) := by
  refine outWf_next (memWf_onTeam w fun t c => ?_)
  split
  · exact w
  · exact memWf_ite w w

theorem outWf_execEthesInboundAccess (w : MemWf s) {link off len : Nat} {what : Inbound} :
    OutWf (execEthesInboundAccess link off len what s) := by
  refine outWf_next (memWf_ite ?_ w)
  split
  · exact w
  · exact memWf_clearPoison (memWf_store w _ _ _ _) _ _ _
  · refine memWf_ite w ?_
    split
    · exact memWf_store w _ _ _ _
    · exact w

theorem outWf_execSpareCoreSwap (w : MemWf s) {core die : Nat} : OutWf (execSpareCoreSwap core die s) := by
  refine outWf_next (memWf_ite ?_ w)
  have w' := memWf_mapParts w (f := fun e => { e.2 with window := e.2.window.map (WinEntry.newCore core) }) fun _ h => h
  exact memWf_ite w' w'

theorem outWf_execLinkDown (w : MemWf s) {port : Nat} : OutWf (execLinkDown port s) := by
  refine outWf_next (memWf_ite ?_ w)
  extract_lets s1
  have w1 : MemWf s1 := by
    refine memWf_endRequests ?_
    exact w
  exact memWf_updPort w1

theorem outWf_execIdeIntegrityFailure (w : MemWf s) {place : IdePlace} : OutWf (execIdeIntegrityFailure place s) := by
  refine outWf_next (memWf_ite ?_ w)
  extract_lets s1
  have w1 : MemWf s1 := memWf_endRequests w
  clear_value s1
  have w2 : MemWf (s1.updPart place.part fun x => { x with ideFail := x.ideFail ||| BitVec.twoPow 12 place.port }) :=
    memWf_updPart w1 _ fun _ h => h
  exact w2

theorem outWf_execPf0Flr (w : MemWf s) : OutWf (execPf0Flr s) := by
  have w' := memWf_foldl (f := fun s p => if lives s p then dissolveNow s p else s) (fun _ _ w => memWf_ite (memWf_dissolveNow w) w)
    (List.range Config.partitions) w
  unfold execPf0Flr
  generalize List.foldl (fun s p => if lives s p = true then dissolveNow s p else s) s (List.range Config.partitions) = s1 at w' ⊢
  refine outWf_next (memWf_pf0Clear ?_)
  exact w'

/-- A device reset keeps host and pooled memory and empties the partitions (R45). -/
theorem outWf_execDeviceReset (w : MemWf s) : OutWf (execDeviceReset s) := by
  obtain ⟨host, cxl, -, -⟩ := w
  refine outWf_next ⟨host, cxl, ?_, ?_⟩ <;> intro e he <;> cases he

theorem outWf_execRegisterWrite (w : MemWf s) {fn off : Nat} {value : DWord} : OutWf (execRegisterWrite fn off value s) := by
  refine outWf_next (memWf_ite w ?_)
  split
  · exact memWf_pfWrite w
  · exact memWf_ite (memWf_vfWrite w) w

end Sys2Proof.Machine
end

section
/-! PROOFS. Every step keeps every byte store in canonical form (O38), by one dispatch over the instructions. -/

set_option Elab.async false

namespace Sys2Proof.Machine
open Claims

variable {s : State}

/-! ### One step -/

/-- Every instruction and every event keeps the stores canonical. -/
theorem outWf_exec (w : MemWf s) {i : Instr} : OutWf (exec i s) := by
  cases i with
  | nop | jarr | jread | icmpEq | icmpNe | icmpLt | icmpLe | icmpGt | icmpGe | icmpLtn | icmpLen | icmpGtn | icmpGen | plopAnd
  | plopOr | plopXor | plopAndn | plopNot | plopMov | sel | movReg | movImm | movS2V | movV2S | iaddAdd | iaddSub | iaddAddsat
  | iaddSubsat | iaddNeg | imulLo | imulHis | imulHin | imulMad | logicAnd | logicOr | logicXor | logicAndn | logicNot | shiftShl
  | shiftShr | shiftSar | shiftRol | bitfBfe | bitfBfen | bitfBfi | bitcPopc | bitcClz | bitcCtz | bitcBrev | iminmaxMin | iminmaxMax
  | iminmaxMinn | iminmaxMaxn | idivDivn | idivRemn | idivDivs | idivRems | lea | saluAdd | saluSub | saluMul | saluAnd | saluOr
  | saluXor | saluShl | saluShr | saluSar | saluMin | saluMax | scmp | smoviLo | smoviHi | farithAdd | farithSub | farithMul | ffmaFma
  | ffmaFms | ffmaFnma | ffmaFnms | fcmpEq | fcmpNe | fcmpLt | fcmpLe | fcmpGt | fcmpGe | fcmpUnord | fcmpOrd | darithDadd
  | darithDsub | darithDmul | darithDfma | harith2Hadd2 | harith2Hmul2 | harith2Hfma2 | dotDot4i8 | dotDot4e4m3 | dotDot8i4 | zipZip2
  | zipZip3 | zipZip4 | zipUnzip2 | zipUnzip3 | zipUnzip4 | rngU32 | rngUnif =>
    exact outWf_core w fun _ => memWf_done w
  | yield => exact outWf_core w fun _ => memWf_onceFor w (memWf_done w)
  | bra => exact outWf_core w fun _ => memWf_settle w
  | brx => exact outWf_execBrx w
  | callDirect => exact outWf_core w fun _ => memWf_onceFor w (memWf_call w)
  | callIndirect => exact outWf_execCallIndirect w
  | ret => exact outWf_execRet w
  | jset => exact outWf_core w fun _ => memWf_ite (memWf_raise w) (memWf_done w)
  | jwait => exact outWf_core w fun _ => memWf_onceFor w (memWf_updTeam (memWf_settle w) _ _)
  | exit => exact outWf_execExit w
  | trap => exact outWf_core w fun _ => memWf_onceFor w (memWf_raise w)
  | brk => exact outWf_core w fun _ => memWf_ite (memWf_halt (memWf_done w)) (memWf_done w)
  | tret => exact outWf_execTret w
  | sregRead => exact outWf_execSregRead w
  | sregWrite => exact outWf_execSregWrite w
  | addr => exact outWf_execAddr w
  | fminmaxMin | fminmaxMax | fsignAbs | fsignNeg | fsignCopysign | frnd => exact outWf_core w fun _ => memWf_vecf w
  | cvt => exact outWf_core w fun _ => memWf_ite (memWf_done w) (memWf_done w)
  | fkey | fkeyInv => exact outWf_core w fun _ => memWf_keyVec w
  | sfuExp2 | sfuLog2 | sfuRcp | sfuRsq | sfuSqrt | sfuSin | sfuCos | sfuTanh | tagTagq => exact outWf_core w fun _ => memWf_produceOp w
  | shflIdx | shflUp | shflDown | shflXor | voteAny | voteAll | voteBallot | voteUni | sample | bandredIadd | bandredFadd | bandredMin
  | bandredMax =>
    exact outWf_core w fun _ => memWf_exchange w
  | laneExchangeRelease => exact outWf_next (memWf_exchangeRelease w)
  | ld => exact outWf_core w fun _ => memWf_based w fun _ => memWf_produceOp w
  | st => exact outWf_execSt w
  | lds => exact outWf_execLds w
  | atomAdd | atomMin | atomMax | atomAnd | atomOr | atomXor | atomSwap | atomCas | atomFadd | red =>
    exact outWf_core w fun _ => memWf_atomOp w
  | fence => exact outWf_core w fun _ => memWf_onceFor w (memWf_reporting w (memWf_done (memWf_ite (memWf_acquire w) w)))
  | tagTagset => exact outWf_execTagset w
  | tagTagclr => exact outWf_execTagclr w
  | hcopyCopy | hcopyPlane | hcopySplit | hcopyMask | hcopyGather => exact outWf_core w fun _ => memWf_hcopy w
  | bseal => exact outWf_core w fun _ => memWf_onceFor w (memWf_ite (memWf_raise w) (memWf_done w))
  | bwait => exact outWf_execBwait w
  | barInit => exact outWf_core w fun _ => memWf_barOp w fun _ _ => memWf_ite (memWf_raise w) (memWf_after (memWf_setBar w))
  | barArrive | barArrivex => exact outWf_core w fun _ => memWf_barRead w fun _ _ => memWf_arriveAt w
  | barExpect => exact outWf_core w fun _ => memWf_barRead w fun _ _ => memWf_ite (memWf_raise w) (memWf_after (memWf_setBar w))
  | barWait | barWaitout => exact outWf_core w fun _ => memWf_barRead w fun _ _ => memWf_barWaited w
  | barTest => exact outWf_core w fun _ => memWf_barRead w fun _ _ => memWf_done (memWf_ite (memWf_acquire w) w)
  | mmp | mms | accZero | accLoad | accOut | accMove | accSpill => exact outWf_core w fun _ => memWf_spindleOp w
  | mqStat => exact outWf_execMqStat w
  | mqFlush => exact outWf_execMqFlush w
  | nredPush => exact outWf_execNredPush w
  | nredWait => exact outWf_execNredWait w
  | snop => exact outWf_front w fun _ _ h => memWf_setPart w _ (by exact h)
  | shalt => exact outWf_execShalt w
  | sbr => exact outWf_execSbr w
  | scall => exact outWf_execScall w
  | sret => exact outWf_execSret w
  | sjoin => exact outWf_execSjoin w
  | kalu => exact outWf_execKalu w
  | kread | mmt | smmt | copyt | redt | maskgen | kvcompact | sopen | srule | saccept | skv | spublish | sclose | scount | qsend
  | qrecv | ssignal | swait =>
    exact outWf_front w fun _ _ h => memWf_passPlain w h
  | areaRead | areaWrite => exact outWf_front w fun _ _ h => memWf_area w h
  | bdecl => exact outWf_execBdecl w
  | bdrop => exact outWf_execBdrop w
  | launch => exact outWf_front w fun _ _ h => memWf_passTask w h fun _ h => by exact h
  | smode => exact outWf_execSmode w
  | streamFetch => exact outWf_next (memWf_streamFetch w)
  | coreFetch => exact outWf_next (memWf_coreFetch w)
  | taskIssue => exact outWf_execTaskIssue w
  | tileDispatch => exact outWf_next (memWf_tileDispatch w)
  | taskComplete => exact outWf_next (memWf_taskComplete w)
  | taskRetire => exact outWf_next (memWf_taskRetire w)
  | faultRecordWrite => exact outWf_next (memWf_faultRecordWrite w)
  | crewPlace => exact outWf_execCrewPlace w
  | classPreempt => exact outWf_next (memWf_classPreempt w)
  | crewResume => exact outWf_next (memWf_crewResume w)
  | teamExchange => exact outWf_next (memWf_teamExchange w)
  | timeSliceExpiry => exact outWf_next (memWf_timeSlice w)
  | resultArrive => exact outWf_next (memWf_resultArrive w)
  | stackSpill => exact outWf_next (memWf_stackSpill w)
  | stackRefill => exact outWf_next (memWf_stackRefill w)
  | teamEnd => exact outWf_next (memWf_teamEnd w)
  | jwaitRelease => exact outWf_next (memWf_joinRelease w)
  | spindleClassPreempt => exact outWf_next (memWf_spinPreempt w)
  | spindleOpComplete => exact outWf_next (memWf_spinComplete w)
  | hoistChunkStart => exact outWf_next (memWf_chunkStart w)
  | hoistChunkLand => exact outWf_next (memWf_chunkLand w)
  | enginePreemptAck => exact outWf_next (memWf_preemptAck w)
  | preemptionComplete => exact outWf_next (memWf_preemptionComplete w)
  | routerFold | nredRouterTimeout => exact outWf_next (memWf_ite (memWf_foldRouter w) w)
  | routerPartialArrive => exact outWf_next (memWf_partialArrive w)
  | swaitPoll => exact outWf_next (memWf_swaitPoll w)
  | swaitLimitExpiry => exact outWf_next (memWf_swaitExpiry w)
  | ringConsPoll => exact outWf_next (memWf_consPoll w)
  | ringLimitExpiry => exact outWf_next (memWf_ringExpiry w)
  | spublishRecordWrite => exact outWf_next (memWf_recordWrite w)
  | ioCompletionTimeout => exact outWf_execIoCompletionTimeout w
  | portCompletionError => exact outWf_execPortCompletionError w
  | patrolRead => exact outWf_next (memWf_patrolRead w)
  | rowSpareReplace => exact outWf_next (memWf_ite (memWf_useSpareRow w) w)
  | uncorrectableError => exact outWf_next (memWf_uncorrectable w)
  | signatureCompare => exact outWf_next (memWf_signatureCompare w)
  | spareCoreSwap => exact outWf_execSpareCoreSwap w
  | linkLaneFail | linkRetrain => exact outWf_next (memWf_updPort w)
  | linkDown => exact outWf_execLinkDown w
  | ethesInboundAccess => exact outWf_execEthesInboundAccess w
  | ideIntegrityFailure => exact outWf_execIdeIntegrityFailure w
  | deviceReset => exact outWf_execDeviceReset w
  | vfFlr => exact outWf_next (memWf_ite w (memWf_ite (memWf_updPart w _ fun _ h => by exact h) (memWf_flr w)))
  | pf0Flr => exact outWf_execPf0Flr w
  | unformedVfAccess => exact outWf_next w
  | twctlGo => exact outWf_next (memWf_ite (memWf_twGo w) w)
  | twctlHalt => exact outWf_next (memWf_ite (memWf_twHalt w) w)
  | resolveReexecute => exact outWf_next (memWf_ite (memWf_reexecute w) w)
  | resolveSkip => exact outWf_next (memWf_ite (memWf_skip w) w)
  | resolveAbandon => exact outWf_next (memWf_ite (memWf_abandon w) w)
  | twpcWrite => exact outWf_next (memWf_ite (memWf_twpcWrite w) w)
  | xlinvAll => exact outWf_next (memWf_ite (memWf_xlinv w) w)
  | dbgHaltreq => exact outWf_next (memWf_ite (memWf_dbgHalt w) w)
  | dbgResume => exact outWf_next (memWf_ite (memWf_dbgResume w) w)
  | ringcfgWrite | qconsentWrite => exact outWf_next (memWf_ite (memWf_updPart w _ fun _ h => by exact h) w)
  | partitionForm => exact outWf_next (memWf_form w)
  | partitionDissolve => exact outWf_next (memWf_dissolve w)
  | attestationStart => exact outWf_next (memWf_attest w)
  | attestationResponse => exact outWf_next (memWf_attestationResponse w)
  | fwLoadStart => exact outWf_next (memWf_fwStart w)
  | fwImageCheck => exact outWf_next (memWf_fwCheck w)
  | registerWrite => exact outWf_execRegisterWrite w
  | writeCompletionArrive => exact outWf_execWriteCompletionArrive w
  | invalidationComplete => exact outWf_next (memWf_ite (memWf_updPart (memWf_invalidate w) _ fun _ h => by exact h) w)
  | partitionFormComplete => exact outWf_next (memWf_formComplete w)
  | partitionDissolveComplete => exact outWf_next (memWf_ite (memWf_pf0Clear (memWf_scrub w)) w)

/-- Settles O38: whatever acts keeps the form, and so does what it issues. -/
theorem stepKeepsMemory : Obligations.StepKeepsMemory := by
  intro s s' w h
  have chosen : ChoiceWf (plan s).2 := choiceWf_choice (memWf_nextAgent w)
  unfold step at h
  split at h
  next => cases h; exact memWf_nextAgent w
  next s1 q => cases h; rw [q] at chosen; exact chosen
  next s1 i q => rw [q] at chosen; exact outWf_exec chosen s' h

end Sys2Proof.Machine
end

section
/-! PROOFS. What every form that completes leaves unchanged, several writes of registers one after another, and lane exchange once for
all its forms (R33, R34, R202, R257, R258). -/

set_option Elab.async false

namespace Sys2Proof.Machine
open Claims

/-! ### Tables and registers -/

/-- One value per key: a key listed has its value, and another keeps what it had. -/
theorem FMap.getD_foldl_set {α : Type} (ls : List Nat) (f : Nat → α) (m : FMap α) (k : Nat) (z : α) :
    (ls.foldl (fun (m : FMap α) l => m.set l (f l)) m).getD k z = if k ∈ ls then f k else m.getD k z := by
  induction ls generalizing m with
  | nil => simp
  | cons a ls ih =>
    rw [List.foldl_cons, ih, FMap.getD_set]
    by_cases hk : k ∈ ls
    · simp [hk]
    · by_cases ha : k = a <;> simp [hk, ha]

/-- Another vector write, of the participants (R202). -/
theorem sameRegs_setV_append {x : Ctx} {t : Team} {vr sr pr : List Nat} (h : SameRegs x t vr sr pr) (hl : x.ls = lanesOf x.t.nlanes x.m)
    (d : Nat) (f : Nat → Word) : SameRegs x (t.setV d (x.ls.map fun l => (l, f l))) (vr ++ [d]) sr pr where
  v r l h1 h2 := by
    have lt : ∀ e ∈ x.ls.map fun l => (l, f l), e.1 < 1024 := by
      simp only [List.forall_mem_map]
      exact fun l hm => lane_lt (hl ▸ hm)
    rw [Team.setV_v_ne _ _ _ _ _ h1 lt, h.v r l h1 (h2.imp_left fun hn hr => hn (by simp [hr]))]
    refine h2.imp (fun hn he => hn (by simp [he])) fun hn => ?_
    simp only [List.forall_mem_map]
    exact fun k hk he => hn (he ▸ hk)
  s := h.s
  p := h.p
  lanes := h.lanes
  emptyV r hr := by
    simp only [List.mem_append, List.mem_singleton, not_or] at hr
    exact ⟨(Team.setV_emptyV_ne _ _ _ _ hr.2).trans (h.emptyV r hr.1).1, (Team.setV_heldV_ne _ _ _ _ hr.2).trans (h.emptyV r hr.1).2⟩
  emptyS := h.emptyS

/-- Another predicate write, of the participants; a write to p0 is discarded (R219). -/
theorem sameRegs_setP_cons {x : Ctx} {t : Team} {vr sr pr : List Nat} (h : SameRegs x t vr sr pr) (n : Nat) (vals : LaneMask) :
    SameRegs x (t.setP n x.m vals) vr sr (n :: pr) where
  v r l h1 h2 := by rw [Team.setP_v, h.v r l h1 h2]
  s r hr := by rw [Team.setP_s, h.s r hr]
  p k hk := by
    simp only [List.mem_cons, not_or] at hk
    rw [Team.setP_p_ne _ _ _ _ _ hk.1, h.p k hk.2]
  lanes k l h1 hm := by
    rw [← h.lanes k l h1 hm]
    by_cases h0 : n = 0
    · rw [h0, Team.setP_zero]
    by_cases hk : k = n
    · rw [hk, Team.setP_p_self _ _ h0]
      simp only [BitVec.getLsbD_or, BitVec.getLsbD_and, BitVec.getLsbD_not, hm, h1, decide_true, Bool.not_false, Bool.and_true,
        Bool.and_false, Bool.or_false]
    · rw [Team.setP_p_ne _ _ _ _ _ hk]
  emptyV r hr := by
    unfold Team.setP
    split <;> exact h.emptyV r hr
  emptyS r hr := by
    unfold Team.setP
    split <;> exact h.emptyS r hr

/-! ### An instruction that is done -/

/-- The team that u becomes once the lanes of x go on. -/
def placed (s : State) (x : Ctx) (u : Team) : Team := doneTeam (s.entryBit x.part x.core) x u

theorem placed_rest (s : State) (x : Ctx) (u : Team) : placed s x u = { u with
    entries := (placed s x u).entries, nextIns := (placed s x u).nextIns, run := (placed s x u).run, sig := .idle
    once := (placed s x u).once } := doneTeam_rest _ _ _

@[simp] theorem placed_v (s : State) (x : Ctx) (u : Team) (r l : Nat) : (placed s x u).v r l = u.v r l := by rw [placed_rest]; rfl
@[simp] theorem placed_p (s : State) (x : Ctx) (u : Team) (n : Nat) : (placed s x u).p n = u.p n := by rw [placed_rest]; rfl
@[simp] theorem placed_draws (s : State) (x : Ctx) (u : Team) : (placed s x u).draws = u.draws := by rw [placed_rest]

theorem placed_sameRegs {x : Ctx} {u : Team} {vr sr pr : List Nat} (h : SameRegs x u vr sr pr) (s : State) :
    SameRegs x (placed s x u) vr sr pr := by
  rw [placed_rest]
  exact ⟨h.v, h.s, h.p, h.lanes, h.emptyV, h.emptyS⟩

theorem done_teams (s : State) (x : Ctx) (u : Team) : (done s x u).teams.get? x.tid = some (placed s x u) := by
  rw [done_eq, State.setTeam_get, placed]

theorem done_onlyTeam (s : State) (x : Ctx) (u : Team) : OnlyTeam s (done s x u) x.tid where
  rest := by rw [done_eq]; rfl
  teams n hn := by rw [done_eq]; exact State.setTeam_get_ne _ _ _ _ hn

theorem done_sameBytes (s : State) (x : Ctx) (u : Team) : SameBytes s (done s x u) := by
  intro st a
  rw [done_eq, State.setTeam_memOf]

/-- An instruction that is done with a team whose registers alone changed completes. -/
theorem completes_done {s : State} {i : Instr} {x : Ctx} {u : Team} {vr sr pr : List Nat} (runs : exec i s = .next (done s x u))
    (hr : u = x.t.regsFrom u) (regs : SameRegs x u vr sr pr) : Completes i s x vr sr pr (done s x u) (placed s x u) where
  runs := runs
  only := done_onlyTeam s x u
  bytes := done_sameBytes s x u
  team := done_teams s x u
  rest := by rw [placed_rest, hr]; rfl
  regs := placed_sameRegs regs s
  goes := doneTeam_goes _ _ _ (by rw [hr]; rfl) (by rw [hr]; rfl)

/-! ### Lane exchange -/

/-- The members of band b of an exchange, each with whether it takes part (R257, R258). -/
def membersAt (y : Ctx) (lx : LX) (b : Nat) : List Member := (membersOf y.t y.e.mask lx y.ls b).map fun l => (l, y.m.getLsbD l)

theorem membersAt_band (y : Ctx) (lx : LX) (l : Nat) :
    membersAt y lx (l / 32) = (bandOf y lx l).map fun z => (z, y.m.getLsbD z) := rfl

/-- The team that an exchange leaves: what its form writes, and the absent predicate (R258). -/
def exchanged (y : Ctx) (lx : LX) (k : Ctx → (Nat → List Member) → Team) (absent : Ctx → (Nat → List Member) → Nat → Bool) : Team :=
  (k y (membersAt y lx)).setP lx.absent.val y.m (predMask y.ls (absent y (membersAt y lx)))

section
variable {s : State} {x y : Ctx} {i : Instr} {g : BitVec 4} {lx : LX} {k : Ctx → (Nat → List Member) → Team}
  {absent : Ctx → (Nat → List Member) → Nat → Bool}

/-- Without a participant an exchange goes on (R258). -/
theorem exchange_of_none (hm : x.m = 0) : exchange s x i g lx k absent = done s x x.t := by simp [exchange, hm]

/-- With well-formed memberships whose members are all counted it is done for the merged entry (R257, R258). -/
theorem exchange_of_counted (hm : x.m ≠ 0) (own : badMember x.t x.e.mask lx x.ls = none)
    (counted : x.t.exchangeReady lx g x.e.pc (x.t.heldWith lx g x.e) = true)
    (all : badMember (joined x g lx).t (joined x g lx).e.mask lx (joined x g lx).ls = none) :
    exchange s x i g lx k absent = done s (joined x g lx) (exchanged (joined x g lx) lx k absent) := by
  simp only [exchange, if_neg hm, own, counted, if_true]
  split
  next l h => cases all.symm.trans h
  next => rfl

/-- What a form that shares the membership rules has to show: its own writes are registers of the participants. -/
theorem exchangeResult_of_regs {vr pr : List Nat} {out : Ctx → Team → Prop}
    (hi : ∀ s, exec i s = core s i fun x => exchange s x i g lx k absent) (hk : ∀ y mem, k y mem = y.t.regsFrom (k y mem))
    (regs : ∀ y mem, y.ls = lanesOf y.t.nlanes y.m → SameRegs y (k y mem) vr [] pr)
    (ho : ∀ s y, y.ls = lanesOf y.t.nlanes y.m → out y (placed s y (exchanged y lx k absent))) : ExchangeResult i g lx vr pr out := by
  intro s x h
  refine ⟨fun hm => ?_, fun hm own counted all => ?_⟩
  · have runs : exec i s = .next (done s x x.t) := by rw [hi, core_of_ready h, exchange_of_none hm]
    exact ⟨_, _, completes_done runs rfl (sameRegs_refl x _ _ _)⟩
  · have runs : exec i s = .next (done s (joined x g lx) (exchanged (joined x g lx) lx k absent)) := by
      rw [hi, core_of_ready h, exchange_of_counted hm own counted all]
    refine ⟨_, _, completes_done runs ?_ (sameRegs_setP_cons (regs _ _ rfl) _ _), ho s _ rfl⟩
    rw [exchanged, Team.setP_regs, hk]
    rfl

/-- The absent predicate of a participant where a form's own is whether its band holds an absent member (R258). -/
theorem absent_exchanged (hl : y.ls = lanesOf y.t.nlanes y.m) {l : Nat} (h : l ∈ y.ls) :
    Absent y (placed s y (exchanged y lx k bandAbsent)) lx l := by
  intro h0
  obtain ⟨-, hm⟩ := mem_lanesOf.mp (hl ▸ h)
  have hlt : l < 1024 := lane_lt (hl ▸ h)
  rw [placed_p, exchanged, Team.setP_p_self _ _ h0]
  simp only [BitVec.getLsbD_or, BitVec.getLsbD_and, BitVec.getLsbD_not, hm, hlt, getLsbD_predMask _ _ _ h hlt, bandAbsent, membersAt_band,
    List.any_map]
  simp [Function.comp_def]

end

/-- A form with one word per band. -/
theorem bandWord_of_members {i : Instr} {c : Ctl} {d : VReg} {lx : LX} {f : Ctx → List Member → Word} {F : Ctx → List Nat → Word}
    (hi : ∀ s, exec i s = core s i fun x => bandWord s x i c d lx f)
    (hf : ∀ y b, f y (b.map fun z => (z, y.m.getLsbD z)) = F y b) : BandWord i c.g lx d F := by
  refine exchangeResult_of_regs hi (fun _ _ => rfl) (fun y _ hl => sameRegs_setV y hl d _) fun s y hl l h => ⟨?_, absent_exchanged hl h⟩
  rw [placed_v, exchanged, Team.setP_v, Team.setV_v_mem _ _ _ _ _ h, membersAt_band, hf]

end Sys2Proof.Machine
end

section
/-! PROOFS. SAMPLE, ZIP and UNZIP, and the random numbers (R6, R262 to R264). -/

set_option Elab.async false

namespace Sys2Proof.Machine
open Claims

/-! ### SAMPLE -/

/-- Running sum k of a list of numbers. -/
def runningSum (f : Nat → Nat → Nat) (w : List Nat) (k : Nat) : Nat := (w.take (k + 1)).foldl f 0

/-- Member k of a band, its weight and the running sum up to it. -/
def weighedAt (f : Nat → Nat → Nat) (b w : List Nat) (k : Nat) : Nat × Nat × Nat := (b.getD k 0, w.getD k 0, runningSum f w k)

/-- A weight of zero is the number 0, for a zero of either sign counts as 0 (R262). -/
theorem sampleWeight_of_zero {n : Nat} (h : f32zero (sampleWeight n) = true) : sampleWeight n = 0 := by
  unfold sampleWeight at h ⊢
  split
  · rfl
  · rename_i hn
    rw [if_neg hn] at h
    simp [h] at hn

/-- The fold that pairs each entry with the running sum up to it. -/
theorem foldl_runningSum (f : Nat → Nat → Nat) (l : List (Nat × Nat)) :
    l.foldl (fun (r : Nat × List (Nat × Nat × Nat)) e => (f r.1 e.2, r.2 ++ [(e.1, e.2, f r.1 e.2)])) (0, []) =
      ((l.map Prod.snd).foldl f 0, (List.range l.length).map (weighedAt f (l.map Prod.fst) (l.map Prod.snd))) := by
  obtain ⟨r, rfl⟩ : ∃ r : List (Nat × Nat), l = r.reverse := ⟨l.reverse, l.reverse_reverse.symm⟩
  induction r with
  | nil => rfl
  | cons e r ih =>
    rw [List.reverse_cons]
    generalize r.reverse = l at *
    rw [List.foldl_append, ih]
    simp only [List.foldl_cons, List.foldl_nil, List.map_append, List.map_cons, List.map_nil, List.length_append, List.length_cons,
      List.length_nil, List.foldl_append, List.range_succ, Nat.zero_add, Prod.mk.injEq, true_and]
    congr 1
    · refine List.map_congr_left fun k hk => ?_
      have hk : k < l.length := List.mem_range.mp hk
      have ht : (l.map Prod.snd ++ [e.2]).take (k + 1) = (l.map Prod.snd).take (k + 1) :=
        List.take_append_of_le_length (by rw [List.length_map]; exact hk)
      simp [weighedAt, runningSum, ht, List.getElem?_append_left, hk]
    · simp [weighedAt, runningSum, List.take_of_length_le]

/-- Zeros sum to 0. -/
theorem foldl_add_of_zeros (w : List Nat) (h : ∀ n ∈ w, n = 0) : w.foldl (FFmt.f32.add .rne) 0 = 0 := by
  induction w with
  | nil => rfl
  | cons n w ih =>
    have add0 : FFmt.f32.add .rne 0 0 = 0 := by decide
    rw [List.foldl_cons, h n List.mem_cons_self, add0]
    exact ih fun k hk => h k (List.mem_cons_of_mem _ hk)

/-- The last running sum is the total. -/
theorem runningSum_last (f : Nat → Nat → Nat) (w : List Nat) (h : w ≠ []) : runningSum f w (w.length - 1) = w.foldl f 0 := by
  have := List.length_pos_iff.mpr h
  rw [runningSum, List.take_of_length_le (by omega)]

/-- A search of entries that succeeds, as a search of their positions. -/
theorem find?_map_of_found {α : Type} (ks : List Nat) (h : Nat → α) (p : α → Bool) (found : ∃ k ∈ ks, p (h k) = true) :
    (ks.map h).find? p = some (h ((ks.find? fun k => p (h k)).getD 0)) := by
  obtain ⟨z, hz⟩ := Option.isSome_iff_exists.mp (List.find?_isSome.mpr found)
  rw [List.find?_map, show p ∘ h = fun k => p (h k) from rfl, hz]
  rfl

/-- SAMPLE's result in terms of positions in the band: u clipped below 1, the members b in lane order and their weights w (R262). -/
def sampled (u : Nat) (b w : List Nat) : Word :=
  let sum := runningSum (FFmt.f32.add .rne) w
  let total := w.foldl (FFmt.f32.add .rne) 0
  let v := sampleWeight u
  let v := if f32lt v 0x3F800000 then v else 0x3F7FFFFF
  let lane := fun k => word (b.getD k 0 % 32)
  let ks := List.range b.length
  if f32zero total then 0xFFFFFFFF
  else if total = FFmt.f32.inf then lane ((ks.find? fun k => sum k == FFmt.f32.inf).getD 0)
  else match ks.find? fun k => f32lt (FFmt.f32.mul .rne v total) (sum k) with
    | some k => lane k
    | none => lane ((ks.reverse.find? fun k => !f32zero (w.getD k 0)).getD 0)

/-- A total that is not zero has a weight that is not zero. -/
theorem exists_weight {w : List Nat} (hw : ∀ n ∈ w, f32zero n = true → n = 0)
    (h : f32zero (w.foldl (FFmt.f32.add .rne) 0) ≠ true) :
    ∃ k ∈ (List.range w.length).reverse, (!f32zero (w.getD k 0)) = true := by
  refine Classical.byContradiction fun hn => ?_
  have zeros : ∀ n ∈ w, n = 0 := by
    intro n hm
    obtain ⟨k, hk, rfl⟩ := List.mem_iff_getElem.mp hm
    refine hw _ hm (Classical.byContradiction fun hz => hn ⟨k, by simpa using hk, ?_⟩)
    simpa [List.getD_eq_getElem?_getD, hk] using hz
  rw [foldl_add_of_zeros w zeros] at h
  exact h (by decide)

/-- The model's SAMPLE of a band (R262). -/
theorem sampleBand_eq (u : Nat) (b : List Nat) (f : Nat → Nat) (hf : ∀ z, f32zero (f z) = true → f z = 0) :
    sampleBand u (b.map fun z => (z, f z)) = sampled u b (b.map f) := by
  have hw : ∀ n ∈ b.map f, f32zero n = true → n = 0 := by simpa using fun z _ => hf z
  have fsts : (b.map fun z => (z, f z)).map Prod.fst = b := by simp [Function.comp_def]
  have snds : (b.map fun z => (z, f z)).map Prod.snd = b.map f := by simp [Function.comp_def]
  unfold sampleBand sampled
  simp only [foldl_runningSum (FFmt.f32.add .rne), fsts, snds, List.length_map]
  split
  · rfl
  rename_i hz
  split
  · rename_i hi
    have hne : b.map f ≠ [] := fun h => by rw [h] at hz; exact hz (by decide)
    rw [find?_map_of_found _ _ _ ⟨(b.map f).length - 1, ?_, ?_⟩]
    · rfl
    · have := List.length_pos_iff.mpr hne
      simp only [List.length_map, List.mem_range] at this ⊢
      omega
    · rw [weighedAt, runningSum_last _ _ hne, hi, beq_self_eq_true]
  · generalize FFmt.f32.mul .rne _ _ = tau
    rw [List.find?_map, ← List.map_reverse, find?_map_of_found _ _ (fun e : Nat × Nat × Nat => !f32zero e.2.1)
      (by simpa [weighedAt] using exists_weight hw hz)]
    show _ = match (List.range b.length).find? ((fun e => f32lt tau e.2.2) ∘ weighedAt (FFmt.f32.add .rne) b (b.map f)) with
      | some k => word (b.getD k 0 % 32)
      | none => _
    cases (List.range b.length).find? _ <;> rfl

/-! ### ZIP and UNZIP -/

/-- Writes of n registers from d on, of the participants, one after another. -/
def setVs (t : Team) (d n : Nat) (ls : List Nat) (f : Nat → Nat → Word) : Team :=
  (List.range n).foldl (fun t j => t.setV (d + j) (ls.map fun l => (l, f j l))) t

theorem setVs_succ (t : Team) (d n : Nat) (ls : List Nat) (f : Nat → Nat → Word) :
    setVs t d (n + 1) ls f = (setVs t d n ls f).setV (d + n) (ls.map fun l => (l, f n l)) := by
  simp [setVs, List.range_succ]

theorem setVs_regs (t : Team) (d n : Nat) (ls : List Nat) (f : Nat → Nat → Word) : setVs t d n ls f = t.regsFrom (setVs t d n ls f) := by
  induction n with
  | zero => rfl
  | succ n ih => rw [setVs_succ, Team.setV_regs, ih]; rfl

theorem sameRegs_setVs (x : Ctx) (hl : x.ls = lanesOf x.t.nlanes x.m) (d n : Nat) (f : Nat → Nat → Word) :
    SameRegs x (setVs x.t d n x.ls f) ((List.range n).map (d + ·)) [] [] := by
  induction n with
  | zero => exact sameRegs_refl _ _ _ _
  | succ n ih =>
    rw [setVs_succ, List.range_succ, List.map_append]
    exact sameRegs_setV_append ih hl (d + n) (f n)

/-- Each register written holds its own value: none of the later writes is to it. -/
theorem setVs_v (t : Team) (d : Nat) {n j : Nat} (hj : j < n) {ls : List Nat} (hls : ∀ l ∈ ls, l < 1024) (f : Nat → Nat → Word) {l : Nat}
    (h : l ∈ ls) : (setVs t d n ls f).v (d + j) l = f j l := by
  induction n with
  | zero => cases hj
  | succ n ih =>
    rw [setVs_succ]
    by_cases hn : j = n
    · rw [hn, Team.setV_v_mem _ _ _ _ _ h]
    · rw [Team.setV_v_ne _ _ _ _ _ (hls l h) (by simpa using hls) (.inl (by omega)), ih (by omega)]

/-- Every form of ZIP and UNZIP: register j of the destination takes for each participant the word that zipFrom names (R263). -/
theorem zip_result {i : Instr} {n : Nat} {un : Bool} {d a : VReg} (hi : ∀ s, exec i s = core s i fun x => zip s x n un d a) (s : State)
    (x : Ctx) (h : Ready s i x) :
    ∃ s' t', Completes i s x ((List.range n).map (d.val + ·)) [] [] s' t' ∧ ∀ j, j < n → ∀ l ∈ x.ls,
      t'.v (d + j) l = x.t.v (a + (zipFrom n un j (l % 32)).1) (32 * (l / 32) + (zipFrom n un j (l % 32)).2) := by
  have runs : exec i s = .next (done s x (setVs x.t d n x.ls fun j l =>
      x.t.v (a + (zipFrom n un j (l % 32)).1) (l / 32 * 32 + (zipFrom n un j (l % 32)).2))) := by rw [hi, core_of_ready h]; rfl
  refine ⟨_, _, completes_done runs (setVs_regs _ _ _ _ _) (sameRegs_setVs x h.lanes _ _ _), fun j hj l hl => ?_⟩
  rw [placed_v, setVs_v _ _ hj (fun l hl => lane_lt (h.lanes ▸ hl)) _ hl, Nat.mul_comm 32]

/-! ### Random numbers -/

/-- The counter and key of a lane's draw (R264). -/
theorem draw_eq (s : State) (x : Ctx) {l : Nat} (hl : l < 1024) :
    draw (seedOf s x) x l = (Philox.rounds 10
      ⟨x.t.draws.getD l 0, BitVec.ofNat 32 (l + 1024 * x.t.num), x.crew.launch.extractLsb' 32 32,
        match s.entryOf x.crew.part x.crew.seq with
        | some e => e.seed
        | none => 0⟩
      (x.crew.launch.extractLsb' 0 32) (BitVec.ofNat 32 x.crew.num)).c0 := by
  have hor : l ||| x.t.num * 1024 = l + 1024 * x.t.num := by
    rw [Nat.or_comm, Nat.mul_comm, ← Nat.two_pow_add_eq_or_of_lt (i := 10) hl, Nat.add_comm]
  rw [draw, hor]
  rfl

/-- The team of x once each participant has counted a draw (R264). -/
def counted (x : Ctx) : Team :=
  { x.t with draws := x.ls.foldl (fun (m : FMap Word) l => m.set l (x.t.draws.getD l 0 + 1)) x.t.draws }

theorem counted_draws (x : Ctx) (l : Nat) :
    (counted x).draws.getD l 0 = if l ∈ x.ls then x.t.draws.getD l 0 + 1 else x.t.draws.getD l 0 :=
  FMap.getD_foldl_set x.ls (fun l => x.t.draws.getD l 0 + 1) x.t.draws l 0

theorem sameRegs_counted (x : Ctx) : SameRegs x (counted x) [] [] [] := by constructor <;> intros <;> trivial

/-- Both forms of RNG: each participant draws its number, and its count rises by one (R264). -/
theorem rng_result {i : Instr} {d : VReg} {f : Word → Word} (hi : ∀ s, exec i s = core s i fun x => rng s x d f) {s : State} {x : Ctx}
    {drawn : Nat → Word} (hd : ∀ l, l < 1024 → draw (seedOf s x) x l = drawn l) (h : Ready s i x) :
    ∃ s' t', exec i s = .next s' ∧ OnlyTeam s s' x.tid ∧ SameBytes s s' ∧ s'.teams.get? x.tid = some t' ∧ GoesOn x t' ∧
      (∀ l ∈ x.ls, t'.v d l = f (drawn l) ∧ t'.draws.getD l 0 = x.t.draws.getD l 0 + 1) ∧
      (∀ l, l ∉ x.ls → t'.draws.getD l 0 = x.t.draws.getD l 0) ∧ SameRegs x t' [d.val] [] [] := by
  let u := (counted x).setV d (x.ls.map fun l => (l, f (draw (seedOf s x) x l)))
  have draws : ∀ l, u.draws.getD l 0 = if l ∈ x.ls then x.t.draws.getD l 0 + 1 else x.t.draws.getD l 0 := counted_draws x
  refine ⟨done s x u, placed s x u, ?_, done_onlyTeam s x u, done_sameBytes s x u, done_teams s x u, doneTeam_goes _ _ _ rfl rfl,
    fun l hl => ⟨?_, ?_⟩, fun l hl => ?_, placed_sameRegs (sameRegs_setV_append (sameRegs_counted x) h.lanes _ _) s⟩
  · rw [hi, core_of_ready h]; rfl
  · rw [placed_v, Team.setV_v_mem _ _ _ _ _ hl, hd l (lane_lt (h.lanes ▸ hl))]
  · rw [placed_draws, draws, if_pos hl]
  · rw [placed_draws, draws, if_neg hl]

/-! ### The statement -/

/-- Settles O17: SAMPLE's fold read by positions of the band, one lemma for the forms of RNG and one for those of ZIP and UNZIP. -/
theorem samplingAndRandomNumbers : Obligations.SamplingAndRandomNumbers := by
  refine ⟨fun c d a u lx => ?_, fun c d s x => ?_, fun c d a => ?_⟩
  · refine bandWord_of_members (fun _ => rfl) fun y b => ?_
    rw [List.map_map]
    exact sampleBand_eq _ b (fun z => sampleWeight (gives y a z).toNat) fun _ => sampleWeight_of_zero
  · exact ⟨fun h => rng_result (i := .rngU32 c d) (fun _ => rfl) (fun _ => draw_eq s x) h,
      fun h => rng_result (i := .rngUnif c d) (fun _ => rfl) (fun _ => draw_eq s x) h⟩
  · exact ⟨zip_result (un := false) fun _ => rfl, zip_result (un := false) fun _ => rfl, zip_result (un := false) fun _ => rfl,
      zip_result (un := true) fun _ => rfl, zip_result (un := true) fun _ => rfl, zip_result (un := true) fun _ => rfl⟩

end Sys2Proof.Machine
end

section
/-! PROOFS. Reads after writes and the read cache: what a store leaves of each byte store, the lines that a core holds while lines enter,
and what the lanes of a load find (R2, R11, R110, R269). -/

set_option Elab.async false

namespace Sys2Proof.Machine
open Claims

/-! ### One store among the others, written and read back -/

theorem State.memOf_setMem_ne (s : State) {st st' : Store} (h : st' ≠ st) (m : Memory) : (s.setMem st m).memOf st' = s.memOf st' := by
  have part := part_setMem s st m
  cases st' with
  | lode p => rw [State.memOf, (part p).1, if_neg h.symm]; rfl
  | buf p => rw [State.memOf, (part p).2.1, if_neg h.symm]; rfl
  | mail p => rw [State.memOf, (part p).2.2, if_neg h.symm]; rfl
  | ethes l => rfl
  | cxl =>
    cases st with
    | cxl => exact absurd rfl h
    | window c => simp only [State.setMem, State.updCrew]; split <;> rfl
    | lode _ | host | buf _ | mail _ | ethes _ => rfl
  | host =>
    cases st with
    | host => exact absurd rfl h
    | window c => simp only [State.setMem, State.updCrew]; split <;> rfl
    | lode _ | cxl | buf _ | mail _ | ethes _ => rfl
  | window c =>
    cases st with
    | window d =>
      have other : c ≠ d := fun e => h (e ▸ rfl)
      simp only [State.setMem, State.updCrew]
      split
      · simp only [State.memOf, State.setCrew_get_ne _ _ _ _ other]
      · rfl
    | lode _ | cxl | host | buf _ | mail _ | ethes _ => rfl

/-- A store whose bytes are the device's: no peer's, and a window only of a crew that is there. -/
def State.Holds (s : State) (st : Store) : Prop := (∀ l, st ≠ .ethes l) ∧ ∀ c, st = .window c → s.crews.has c = true

theorem State.memOf_setMem_same {s : State} {st : Store} (h : s.Holds st) (m : Memory) : (s.setMem st m).memOf st = m := by
  cases st with
  | window c =>
    obtain ⟨x, hx⟩ := Option.isSome_iff_exists.mp (h.2 c rfl)
    exact s.setMem_window c m x hx
  | ethes l => exact absurd rfl (h.1 l)
  | lode _ | cxl | host | buf _ | mail _ => simp

/-- A load of a store that is no peer's reads its bytes. -/
theorem State.load_of_own (s : State) {st : Store} (h : ∀ l, st ≠ .ethes l) (a n : Nat) : s.load st a n = (s.memOf st).read a n := by
  cases st with
  | ethes l => exact absurd rfl (h l)
  | lode _ | cxl | host | buf _ | mail _ | window _ => rfl

theorem State.load_store_same {s : State} {st : Store} (h : s.Holds st) (a n v : Nat) : (s.store st a n v).load st a n = v % 2 ^ (8 * n) := by
  rw [State.load_of_own _ h.1, State.store_memOf, State.memOf_setMem_same h, Memory.read_write_same, Nat.pow_mul]

theorem State.byte_store_apart {s : State} {st st' : Store} (h : s.Holds st) {a n b : Nat} (v : Nat) (apart : st' ≠ st ∨ b < a ∨ a + n ≤ b) :
    ((s.store st a n v).memOf st').byte b = (s.memOf st').byte b := by
  rw [State.store_memOf]
  by_cases same : st' = st
  · subst same
    rw [State.memOf_setMem_same h, Memory.byte_write, if_neg (by have := apart.resolve_left (· rfl); omega)]
  · rw [State.memOf_setMem_ne s same]

/-! ### Tables in rising order -/

namespace FMap
variable {α : Type}

/-- The form in which every table of the state is kept: keys strictly rising. -/
def Rising (m : FMap α) : Prop := m.keys.Pairwise (· < ·)

/-- A key below the first one listed enters at the front, whatever the rest of the table lists. -/
theorem set_of_lt_head {n k : Nat} (h : n < k) (v w : α) (m : FMap α) : set ((k, w) :: m) n v = (n, v) :: (k, w) :: m := if_pos h

theorem erase_eq_filter (m : FMap α) (n : Nat) : m.erase n = m.filter fun e => decide (e.1 ≠ n) := by
  induction m with
  | nil => rfl
  | cons e m ih =>
    obtain ⟨k, w⟩ := e
    by_cases h : n = k
    · rw [erase, if_pos h, ih, List.filter_cons_of_neg (by simp [h])]
    · rw [erase, if_neg h, ih, List.filter_cons_of_pos (by simpa using Ne.symm h)]

theorem keys_erase (m : FMap α) (n : Nat) : (m.erase n).keys = m.keys.filter fun k => decide (k ≠ n) := by
  rw [erase_eq_filter, keys, keys, List.filter_map]
  rfl

theorem mem_keys_set {m : FMap α} {n k : Nat} {v : α} (h : k ∈ (m.set n v).keys) : k = n ∨ k ∈ m.keys := by
  obtain ⟨e, he, rfl⟩ := List.mem_map.mp h
  rcases mem_set he with rfl | he
  · exact .inl rfl
  · exact .inr (List.mem_map_of_mem he)

theorem mem_keys_of_has {m : FMap α} {n : Nat} (h : m.has n = true) : n ∈ m.keys := by
  obtain ⟨v, hv⟩ := Option.isSome_iff_exists.mp h
  exact List.mem_map_of_mem (mem_of_get? hv)

theorem has_of_mem_keys {m : FMap α} {n : Nat} (h : n ∈ m.keys) : m.has n = true := by
  induction m with
  | nil => cases h
  | cons e m ih =>
    obtain ⟨k, w⟩ := e
    by_cases eq : k = n
    · simp [has, get?, eq]
    · have tail : has m n = true := ih ((List.mem_cons.mp h).resolve_left (Ne.symm eq))
      simpa [has, get?, eq] using tail

theorem rising_set {m : FMap α} (h : m.Rising) (n : Nat) (v : α) : (m.set n v).Rising := by
  induction m with
  | nil => exact List.pairwise_singleton _ _
  | cons e m ih =>
    obtain ⟨k, w⟩ := e
    obtain ⟨first, rest⟩ := List.pairwise_cons.mp h
    by_cases lt : n < k
    · rw [set_of_lt_head lt]
      refine List.pairwise_cons.mpr ⟨fun j hj => ?_, h⟩
      rcases List.mem_cons.mp hj with rfl | hj
      · exact lt
      · exact Nat.lt_trans lt (first j hj)
    · by_cases eq : n = k
      · rw [set, if_neg lt, if_pos eq]; subst eq; exact h
      · rw [set, if_neg lt, if_neg eq]
        refine List.pairwise_cons.mpr ⟨fun j hj => ?_, ih rest⟩
        rcases mem_keys_set hj with rfl | hj
        · show k < j; omega
        · exact first j hj

/-- In a table in order, a new value for a key listed leaves the keys. -/
theorem keys_set_of_has {m : FMap α} (r : m.Rising) {n : Nat} (v : α) (h : m.has n = true) : (m.set n v).keys = m.keys := by
  induction m with
  | nil => cases h
  | cons e m ih =>
    obtain ⟨k, w⟩ := e
    obtain ⟨first, rest⟩ := List.pairwise_cons.mp r
    by_cases eq : n = k
    · subst eq; simp [set, keys]
    · have tail : has m n = true := by rw [← h]; simp [has, get?, Ne.symm eq]
      have gt : k < n := first n (mem_keys_of_has tail)
      rw [set, if_neg (by omega), if_neg eq]
      exact congrArg (k :: ·) (ih rest tail)

/-- A write of a key adds at most one key of those that count. -/
theorem length_filter_keys_set_le (q : Nat → Bool) (m : FMap α) (n : Nat) (v : α) :
    ((m.set n v).keys.filter q).length ≤ (m.keys.filter q).length + 1 := by
  induction m with
  | nil => exact List.length_filter_le q [n]
  | cons e m ih =>
    obtain ⟨k, w⟩ := e
    by_cases lt : n < k
    · rw [set_of_lt_head lt]
      change (List.filter q (n :: keys ((k, w) :: m))).length ≤ _
      rw [List.filter_cons]
      split <;> simp
    · by_cases eq : n = k
      · rw [set, if_neg lt, if_pos eq, ← eq]; exact Nat.le_succ _
      · rw [set, if_neg lt, if_neg eq]
        change (List.filter q (k :: keys (set m n v))).length ≤ (List.filter q (k :: keys m)).length + 1
        rw [List.filter_cons, List.filter_cons]
        split
        · exact Nat.succ_le_succ ih
        · exact ih

end FMap

/-! ### The lines that a core holds -/

/-- The lines of a core counted in its entries of the cache and in their keys. -/
theorem State.length_entries_eq_coreLines (s : State) (core : Nat) :
    (s.rcache.filter fun e => e.1 / 2 ^ 84 == core).length = (s.coreLines core).length := by
  rw [State.coreLines, FMap.keys, List.filter_map, List.length_map]
  rfl

theorem State.makeRoom_of_room {s : State} {core : Nat} (room : (s.coreLines core).length < 2048) : s.makeRoom core = s := if_pos room

/-- Which of the lines of a full cache leaves (log 84). -/
def State.leaving (s : State) (core : Nat) : Nat := (s.coreLines core).getD (Config.victim s.fresh % (s.coreLines core).length) 0

theorem State.leaving_mem {s : State} {core : Nat} (h : s.coreLines core ≠ []) : s.leaving core ∈ s.coreLines core := by
  have lt : Config.victim s.fresh % (s.coreLines core).length < (s.coreLines core).length := Nat.mod_lt _ (List.length_pos_iff.mpr h)
  rw [State.leaving, List.getD, List.getElem?_eq_getElem lt]
  exact List.getElem_mem lt

theorem State.makeRoom_rcache_of_full {s : State} {core : Nat} (full : 2048 ≤ (s.coreLines core).length) :
    (s.makeRoom core).rcache = s.rcache.erase (s.leaving core) :=
  congrArg State.rcache (if_neg (Nat.not_lt.mpr full))

/-- Once room is made, one more line fits: a full cache has let a line go (R110; log 84). -/
theorem State.coreLines_makeRoom_lt {s : State} {core : Nat} (h : (s.coreLines core).length ≤ 2048) :
    ((s.makeRoom core).coreLines core).length < 2048 := by
  by_cases room : (s.coreLines core).length < 2048
  · rwa [State.makeRoom_of_room room]
  · have full : (s.coreLines core).length = 2048 := by omega
    have without : (s.makeRoom core).coreLines core = (s.coreLines core).filter fun k => decide (k ≠ s.leaving core) := by
      rw [State.coreLines, State.makeRoom_rcache_of_full (Nat.le_of_eq full.symm), FMap.keys_erase, List.filter_filter,
        State.coreLines, List.filter_filter]
      exact List.filter_congr fun _ _ => Bool.and_comm ..
    rw [without, ← full, List.length_filter_lt_length_iff_exists]
    exact ⟨s.leaving core, State.leaving_mem fun e => by simp [e] at full, by simp⟩

theorem State.rising_makeRoom {s : State} {core : Nat} (r : s.rcache.Rising) : (s.makeRoom core).rcache.Rising := by
  by_cases room : (s.coreLines core).length < 2048
  · rwa [State.makeRoom_of_room room]
  · rw [State.makeRoom_rcache_of_full (Nat.not_lt.mp room), FMap.Rising, FMap.keys_erase]
    exact r.filter _

/-! ### A line enters -/

section
variable (s : State) (core : Nat) (st : Store) (a : Nat)

theorem State.fill_of_uncached (h : st.cached = false) : (s.fill core st a).rcache = s.rcache := by
  unfold State.fill
  rw [h, if_neg (by decide)]
  split <;> rfl

/-- A line enters the cache as it is when the line is held already, and otherwise once there is room for it (R110). -/
theorem State.fill_rcache (h : st.cached = true) : (s.fill core st a).rcache =
    (if s.rcache.has (lineKey core st a) then s else s.makeRoom core).rcache.set (lineKey core st a) (s.lineOf core st a) := by
  unfold State.fill
  rw [h, if_pos rfl]

theorem State.fill_rcache_of_held (h : st.cached = true) (held : s.rcache.has (lineKey core st a) = true) :
    (s.fill core st a).rcache = s.rcache.set (lineKey core st a) (s.lineOf core st a) := by
  rw [State.fill_rcache s core st a h, if_pos held]

theorem State.fill_rcache_of_room (h : st.cached = true) (room : (s.coreLines core).length < 2048) :
    (s.fill core st a).rcache = s.rcache.set (lineKey core st a) (s.lineOf core st a) := by
  rw [State.fill_rcache s core st a h, State.makeRoom_of_room room, ite_self]

/-- Whether the data of an address fails where it lies does not depend on the read cache (R369). -/
@[simp] theorem dataFailure_fill (p : Nat) (st' : Store) (b : Nat) : dataFailure (s.fill core st a) p st' b = dataFailure s p st' b := by
  rw [State.fill_rest]
  cases st' <;> rfl

@[simp] theorem State.load_fill {st' : Store} (own : ∀ l, st' ≠ .ethes l) (b n : Nat) : (s.fill core st a).load st' b n = s.load st' b n := by
  rw [State.load_of_own _ own, State.load_of_own _ own, State.fill_memOf]

end

/-- A line that enters a cache in order leaves it in order and the core with 2,048 lines at most (R11, R110). -/
theorem State.fill_keeps_capacity {s : State} {core : Nat} (h : s.rcache.Rising ∧ (s.coreLines core).length ≤ 2048) (st : Store) (a : Nat) :
    (s.fill core st a).rcache.Rising ∧ ((s.fill core st a).coreLines core).length ≤ 2048 := by
  obtain ⟨rising, most⟩ := h
  unfold State.coreLines
  cases c : st.cached with
  | false => rw [State.fill_of_uncached s core st a c]; exact ⟨rising, most⟩
  | true =>
    cases held : s.rcache.has (lineKey core st a) with
    | true =>
      rw [State.fill_rcache_of_held s core st a c held]
      refine ⟨FMap.rising_set rising _ _, ?_⟩
      rw [FMap.keys_set_of_has rising _ held]
      exact most
    | false =>
      rw [State.fill_rcache s core st a c, if_neg (by simp [held])]
      exact ⟨FMap.rising_set (State.rising_makeRoom rising) _ _,
        Nat.le_trans (FMap.length_filter_keys_set_le _ _ _ _) (State.coreLines_makeRoom_lt most)⟩

section
variable {s : State} {core : Nat} (room : (s.coreLines core).length < 2048) (st : Store) (a : Nat)
include room

theorem State.coreLines_fill_le : ((s.fill core st a).coreLines core).length ≤ (s.coreLines core).length + 1 := by
  unfold State.coreLines
  cases c : st.cached with
  | false => rw [State.fill_of_uncached s core st a c]; exact Nat.le_succ _
  | true => rw [State.fill_rcache_of_room s core st a c room]; exact FMap.length_filter_keys_set_le _ _ _ _

/-- With room, a line that is held stays as it is: what enters in its place is the line itself (R110). -/
theorem State.fill_keeps_line {k v : Nat} (h : s.rcache.get? k = some v) : (s.fill core st a).rcache.get? k = some v := by
  cases c : st.cached with
  | false => rwa [State.fill_of_uncached s core st a c]
  | true =>
    rw [State.fill_rcache_of_room s core st a c room, FMap.get?_set]
    split
    · next same => subst same; simp [State.lineOf, h]
    · exact h

/-- With room, a line that is not held stays away, unless it is the line that enters. -/
theorem State.fill_get?_none {k : Nat} (h : s.rcache.get? k = none) (other : st.cached = true → k ≠ lineKey core st a) :
    (s.fill core st a).rcache.get? k = none := by
  cases c : st.cached with
  | false => rwa [State.fill_of_uncached s core st a c]
  | true => rw [State.fill_rcache_of_room s core st a c room, FMap.get?_set_ne _ _ (other c)]; exact h

theorem State.fill_line_enters (c : st.cached = true) : (s.fill core st a).rcache.get? (lineKey core st a) = some (s.lineOf core st a) := by
  rw [State.fill_rcache_of_room s core st a c room, FMap.get?_set_self]

end
end Sys2Proof.Machine
end

section
/-! PROOFS. What the lanes of a load find in the read cache and in memory (R110, R269), and two states that show what the statement about
it assumes without saying so. -/

set_option Elab.async false

namespace Sys2Proof.Machine
open Claims

/-! ### A line and the bytes in it -/

/-- The bytes of a range read as one number, in two parts. -/
theorem Memory.read_add (m : Memory) (a j n : Nat) : m.read a (j + n) = m.read a j + 256 ^ j * m.read (a + j) n := by
  induction j generalizing a with
  | zero => simp [Memory.read]
  | succ j ih =>
    rw [Nat.add_right_comm, Memory.read, Memory.read, ih, Nat.pow_succ, show a + 1 + j = a + (j + 1) by omega, Nat.mul_add, Nat.add_assoc,
      Nat.mul_comm (256 ^ j) 256, Nat.mul_assoc]

/-- Bytes inside a range, taken out of the number that the range reads as. -/
theorem Memory.read_slice (m : Memory) (a : Nat) {j n k : Nat} (h : j + n ≤ k) :
    m.read a k / 256 ^ j % 256 ^ n = m.read (a + j) n := by
  obtain ⟨rest, rfl⟩ := Nat.exists_eq_add_of_le h
  rw [Nat.add_assoc, Memory.read_add, Nat.add_mul_div_left _ _ (Nat.pow_pos (by decide)), Nat.div_eq_of_lt (Memory.read_lt ..), Nat.zero_add,
    Memory.read_add, Nat.add_mul_mod_self_left, Nat.mod_eq_of_lt (Memory.read_lt ..)]

section
variable {s : State} {p core n : Nat}

/-- Where the core has no copy of the line, a load within it finds memory (R110). -/
theorem State.cload_of_absent {st : Store} {a : Nat} (c : st.cached = true) (within : a % 128 + n ≤ 128)
    (absent : s.rcache.get? (lineKey core st a) = none) (own : ∀ l, st ≠ .ethes l) : s.cload core st a n = (s.memOf st).read a n := by
  rw [State.cload, if_pos c, State.lineOf, absent, Nat.pow_mul, Nat.pow_mul]
  change s.load st (a / 128 * 128) 128 / 256 ^ (a % 128) % 256 ^ n = _
  rw [State.load_of_own s own, Memory.read_slice _ _ within, Nat.div_add_mod']

/-- What a line holds is one number for all its addresses. -/
theorem State.lineOf_of_line (s : State) (core : Nat) (st : Store) {a b : Nat} (h : a / 128 = b / 128) :
    s.lineOf core st a = s.lineOf core st b := by
  rw [State.lineOf, State.lineOf, State.lineKey, State.lineKey, h]

/-- The data's failure where the core has no copy, and none where it has one (R110, R369). -/
theorem readFailure_eq_some {st : Store} {a code : Nat} : readFailure s p core st a = some code ↔
    s.rcache.get? (State.lineKey core st a) = none ∧ dataFailure s p st a = some code := by
  rw [readFailure, FMap.has]
  cases s.rcache.get? (State.lineKey core st a) <;> simp

theorem readFailure_eq_none {st : Store} {a : Nat} : readFailure s p core st a = none ↔
    s.rcache.has (State.lineKey core st a) = true ∨ dataFailure s p st a = none := by
  rw [readFailure]
  split <;> simp [*]

/-! ### Lane by lane -/

theorem sample_cons_of_failure {x : Spot} {xs : List Spot} {code : Nat} (h : readFailure s p core x.ok.store x.ok.addr = some code) :
    sample s p core n (x :: xs) =
      ((sample s p core n xs).1, (sample s p core n xs).2.1, (sample s p core n xs).2.2.set x.lane (code, x.va)) := by
  rw [sample, h]

/-- The state in which the lanes after x read, when x finds its line. -/
abbrev afterSpot (s : State) (core : Nat) (x : Spot) : State := s.fill core x.ok.store x.ok.addr

theorem room_afterSpot {x : Spot} {xs : List Spot} (room : (s.coreLines core).length + (x :: xs).length ≤ 2048) :
    (s.coreLines core).length < 2048 ∧ ((afterSpot s core x).coreLines core).length + xs.length ≤ 2048 := by
  rw [List.length_cons] at room
  have now : (s.coreLines core).length < 2048 := by omega
  have one : ((afterSpot s core x).coreLines core).length ≤ (s.coreLines core).length + 1 := State.coreLines_fill_le now _ _
  omega

theorem sample_cons_of_found {x : Spot} {xs : List Spot} (h : readFailure s p core x.ok.store x.ok.addr = none) :
    sample s p core n (x :: xs) = ((sample (afterSpot s core x) p core n xs).1,
      (sample (afterSpot s core x) p core n xs).2.1.set x.lane (s.cload core x.ok.store x.ok.addr n),
      (sample (afterSpot s core x) p core n xs).2.2) := by
  rw [sample, h]

/-- What holds at first and of every line that enters holds when all lanes have read. -/
theorem sample_induction {P : State → Prop} (step : ∀ s st a, P s → P (s.fill core st a)) (xs : List Spot) (h : P s) :
    P (sample s p core n xs).1 := by
  induction xs generalizing s with
  | nil => exact h
  | cons x xs ih =>
    cases f : readFailure s p core x.ok.store x.ok.addr with
    | some code => rw [sample_cons_of_failure f]; exact ih h
    | none => rw [sample_cons_of_found f]; exact ih (step _ _ _ h)

theorem sample_sameBytes (xs : List Spot) : SameBytes s (sample s p core n xs).1 :=
  sample_induction (P := SameBytes s) (fun t st a h st' b => by rw [State.fill_memOf]; exact h st' b) xs fun _ _ => rfl

/-- A cache in order holds 2,048 lines of a core at most, however many lanes read (R11, R110). -/
theorem sample_keeps_capacity (xs : List Spot) (h : s.rcache.Rising ∧ (s.coreLines core).length ≤ 2048) :
    (sample s p core n xs).1.rcache.Rising ∧ ((sample s p core n xs).1.coreLines core).length ≤ 2048 :=
  sample_induction (P := fun t => t.rcache.Rising ∧ (t.coreLines core).length ≤ 2048)
    (fun _ st a h => State.fill_keeps_capacity h st a) xs h

/-- A lane that takes no part has no value. -/
theorem sample_value_none {lane : Nat} (xs : List Spot) (h : lane ∉ xs.map Spot.lane) : (sample s p core n xs).2.1.get? lane = none := by
  induction xs generalizing s with
  | nil => rfl
  | cons x xs ih =>
    obtain ⟨other, rest⟩ : lane ≠ x.lane ∧ lane ∉ xs.map Spot.lane := by simpa using h
    cases f : readFailure s p core x.ok.store x.ok.addr with
    | some code => rw [sample_cons_of_failure f]; exact ih rest
    | none => rw [sample_cons_of_found f, FMap.get?_set_ne _ _ other]; exact ih rest

/-- With room for a line per lane, a line that is held stays as it is. -/
theorem sample_keeps_line {k v : Nat} (xs : List Spot) (room : (s.coreLines core).length + xs.length ≤ 2048)
    (h : s.rcache.get? k = some v) : (sample s p core n xs).1.rcache.get? k = some v := by
  induction xs generalizing s with
  | nil => exact h
  | cons x xs ih =>
    obtain ⟨now, later⟩ := room_afterSpot room
    cases f : readFailure s p core x.ok.store x.ok.addr with
    | some code => rw [sample_cons_of_failure f]; exact ih (Nat.le_trans (Nat.add_le_add_left (Nat.le_succ _) _) room) h
    | none => rw [sample_cons_of_found f]; exact ih later (State.fill_keeps_line now _ _ h)

/-! ### Lanes that share a line -/

/-- Two lanes with one key of the cache read one line of one store: no address is so high that its line runs into another store's keys. -/
def KeysApart (core : Nat) (xs : List Spot) : Prop :=
  ∀ x ∈ xs, ∀ y ∈ xs, State.lineKey core x.ok.store x.ok.addr = State.lineKey core y.ok.store y.ok.addr →
    x.ok.store = y.ok.store ∧ x.ok.addr / 128 = y.ok.addr / 128

theorem KeysApart.tail {x : Spot} {xs : List Spot} (h : KeysApart core (x :: xs)) : KeysApart core xs :=
  fun y hy z hz => h y (List.mem_cons_of_mem _ hy) z (List.mem_cons_of_mem _ hz)

section
variable {x y : Spot} (room : (s.coreLines core).length < 2048)
  (same : State.lineKey core y.ok.store y.ok.addr = State.lineKey core x.ok.store x.ok.addr →
    y.ok.store = x.ok.store ∧ y.ok.addr / 128 = x.ok.addr / 128)
include room

/-- A lane finds what it would have found before another lane's line entered. -/
theorem readFailure_afterSpot (f : readFailure s p core y.ok.store y.ok.addr = none) :
    readFailure (afterSpot s core x) p core y.ok.store y.ok.addr = none := by
  rw [readFailure_eq_none] at f ⊢
  rcases f with held | data
  · obtain ⟨v, hv⟩ := Option.isSome_iff_exists.mp held
    exact .inl (Option.isSome_iff_exists.mpr ⟨v, State.fill_keeps_line room _ _ hv⟩)
  · exact .inr (by rw [dataFailure_fill]; exact data)

include same

theorem lineOf_afterSpot (own : ∀ l, y.ok.store ≠ .ethes l) :
    (afterSpot s core x).lineOf core y.ok.store y.ok.addr = s.lineOf core y.ok.store y.ok.addr := by
  cases held : s.rcache.get? (State.lineKey core y.ok.store y.ok.addr) with
  | some v => rw [State.lineOf, State.lineOf, State.fill_keeps_line room _ _ held, held]
  | none =>
    by_cases eq : x.ok.store.cached = true ∧ State.lineKey core y.ok.store y.ok.addr = State.lineKey core x.ok.store x.ok.addr
    · obtain ⟨store, line⟩ := same eq.2
      have enters := State.fill_line_enters room x.ok.store x.ok.addr eq.1
      rw [State.lineOf, eq.2, enters, store]
      exact State.lineOf_of_line s core _ line.symm
    · have away := State.fill_get?_none room x.ok.store x.ok.addr held fun c e => eq ⟨c, e⟩
      rw [State.lineOf, State.lineOf, away, held]
      exact State.load_fill s core _ _ own _ _

theorem cload_afterSpot (own : ∀ l, y.ok.store ≠ .ethes l) :
    (afterSpot s core x).cload core y.ok.store y.ok.addr n = s.cload core y.ok.store y.ok.addr n := by
  rw [State.cload, State.cload, lineOf_afterSpot room same own, State.load_fill s core _ _ own]

end

/-- With room for a line per lane, a lane whose read does not fail has the bytes of the core's copy of the line or of memory, and the core
holds the line afterwards (R110, R269). -/
theorem sample_finds {xs : List Spot} (lanes : (xs.map Spot.lane).Nodup) (apart : KeysApart core xs)
    (room : (s.coreLines core).length + xs.length ≤ 2048) {x : Spot} (hx : x ∈ xs) (own : ∀ l, x.ok.store ≠ .ethes l)
    (found : readFailure s p core x.ok.store x.ok.addr = none) :
    (sample s p core n xs).2.1.get? x.lane = some (s.cload core x.ok.store x.ok.addr n) ∧
    (x.ok.store.cached = true → (sample s p core n xs).1.rcache.get? (State.lineKey core x.ok.store x.ok.addr) =
      some (s.lineOf core x.ok.store x.ok.addr)) := by
  induction xs generalizing s with
  | nil => cases hx
  | cons y ys ih =>
    obtain ⟨fresh, others⟩ := List.nodup_cons.mp lanes
    obtain ⟨now, later⟩ := room_afterSpot room
    rcases List.mem_cons.mp hx with rfl | hx'
    · rw [sample_cons_of_found found]
      exact ⟨FMap.get?_set_self .., fun c => sample_keeps_line ys later (State.fill_line_enters now _ _ c)⟩
    · have lane : x.lane ≠ y.lane := fun e => fresh (e ▸ List.mem_map_of_mem hx')
      cases f : readFailure s p core y.ok.store y.ok.addr with
      | some code =>
        rw [sample_cons_of_failure f]
        exact ih others apart.tail (Nat.le_trans (Nat.add_le_add_left (Nat.le_succ _) _) room) hx' found
      | none =>
        have same := apart x hx y (List.mem_cons_self ..)
        rw [sample_cons_of_found f, FMap.get?_set_ne _ _ lane, ← cload_afterSpot now same own, ← lineOf_afterSpot now same own]
        exact ih others apart.tail later hx' (readFailure_afterSpot now found)

/-! ### Failures and lines -/

/-- Every window of the partition begins and ends between two lines, as Table 08.2 has it. -/
def WindowsOfLines (x : Part) : Prop := ∀ w ∈ x.windows, w.base % 128 = 0 ∧ w.len % 128 = 0

theorem find?_of_agree {α : Type} {f g : α → Bool} {l : List α} (h : ∀ x ∈ l, f x = g x) : l.find? f = l.find? g := by
  induction l with
  | nil => rfl
  | cons x l ih => rw [List.find?_cons, List.find?_cons, h x (List.mem_cons_self ..), ih fun y hy => h y (List.mem_cons_of_mem _ hy)]

theorem windowOf_of_line {x : Part} (h : WindowsOfLines x) {a b : Nat} (line : a / 128 = b / 128) : x.windowOf a 1 = x.windowOf b 1 := by
  refine find?_of_agree fun w hw => ?_
  obtain ⟨base, len⟩ := h w hw
  rw [Bool.and_eq_decide, Bool.and_eq_decide]
  simp only [decide_eq_true_eq, decide_eq_decide]
  omega

theorem cxlPort_of_line {x : Part} (h : WindowsOfLines x) {a b : Nat} (line : a / 128 = b / 128) : x.cxlPort a = x.cxlPort b := by
  rw [Part.cxlPort, Part.cxlPort, windowOf_of_line h line]
  cases found : x.windowOf b 1 with
  | none => rfl
  | some w =>
    have base := (h w (List.mem_of_find?_eq_some found)).1
    have unit : (a - w.base) / 4096 = (b - w.base) / 4096 := by omega
    simp only [Option.bind_some, unit]

/-- Where no window cuts a line, the data of a line fails as a whole. -/
theorem dataFailure_of_line (h : WindowsOfLines (s.part p)) (st : Store) {a b : Nat} (line : a / 128 = b / 128) :
    dataFailure s p st a = dataFailure s p st b := by
  have poison : s.poisoned st a = s.poisoned st b := by
    cases st with
    | window c => simp only [State.poisoned, State.poisonedCopy, line]
    | lode _ | buf _ => simp only [State.poisoned, State.poisonKey, State.bufPoisonKey, line]
    | cxl => simp only [State.poisoned, line]
    | host | mail _ | ethes _ => rfl
  have port : stopped s p st a = stopped s p st b := by
    cases st with
    | cxl => simp only [stopped, portOf, cxlPort_of_line h line]
    | lode _ | buf _ | host | mail _ | ethes _ | window _ => rfl
  unfold dataFailure
  rw [poison, port, State.portKey, State.portKey, line]

/-- A lane whose read fails has no value, and its code and address are kept (R369). -/
theorem sample_fails (windows : WindowsOfLines (s.part p)) {xs : List Spot} (lanes : (xs.map Spot.lane).Nodup) (apart : KeysApart core xs)
    (room : (s.coreLines core).length + xs.length ≤ 2048) {x : Spot} (hx : x ∈ xs) {code : Nat}
    (fails : readFailure s p core x.ok.store x.ok.addr = some code) :
    (sample s p core n xs).2.1.get? x.lane = none ∧ (sample s p core n xs).2.2.get? x.lane = some (code, x.va) := by
  induction xs generalizing s with
  | nil => cases hx
  | cons y ys ih =>
    obtain ⟨fresh, others⟩ := List.nodup_cons.mp lanes
    obtain ⟨now, later⟩ := room_afterSpot room
    rcases List.mem_cons.mp hx with rfl | hx'
    · rw [sample_cons_of_failure fails]
      exact ⟨sample_value_none ys fresh, FMap.get?_set_self ..⟩
    · have lane : x.lane ≠ y.lane := fun e => fresh (e ▸ List.mem_map_of_mem hx')
      cases f : readFailure s p core y.ok.store y.ok.addr with
      | some code' =>
        rw [sample_cons_of_failure f, FMap.get?_set_ne _ _ lane]
        exact ih windows others apart.tail (Nat.le_trans (Nat.add_le_add_left (Nat.le_succ _) _) room) hx' fails
      | none =>
        obtain ⟨absent, data⟩ := readFailure_eq_some.mp fails
        have otherLine : State.lineKey core x.ok.store x.ok.addr ≠ State.lineKey core y.ok.store y.ok.addr := fun e => by
          obtain ⟨store, line⟩ := apart x hx y (List.mem_cons_self ..) e
          rcases readFailure_eq_none.mp f with held | sound
          · rw [← e, FMap.has, absent] at held; cases held
          · rw [← store, ← dataFailure_of_line windows _ line, data] at sound; cases sound
        have still : readFailure (afterSpot s core y) p core x.ok.store x.ok.addr = some code :=
          readFailure_eq_some.mpr ⟨State.fill_get?_none now _ _ absent fun _ => otherLine, by rw [dataFailure_fill]; exact data⟩
        rw [sample_cons_of_found f, FMap.get?_set_ne _ _ lane]
        exact ih (by rw [State.fill_part]; exact windows) others apart.tail later hx' still

end

/-! ### The statement -/

/-- The statement with the two conditions that it leaves out: a cache in order where lines are counted, and windows that cut no line where
lanes fail. Every state that the machine reaches from reset is meant to meet both (State.lean on tables; Table 08.2). -/
theorem loadsReadTheLine_of_canonical :
    (∀ (s : State) st a n v, s.Holds st → (s.store st a n v).load st a n = v % 2 ^ (8 * n) ∧
      ∀ st' b, st' ≠ st ∨ b < a ∨ a + n ≤ b → ((s.store st a n v).memOf st').byte b = (s.memOf st').byte b) ∧
    (∀ (s : State) p core n (xs : List Spot), (xs.map Spot.lane).Nodup → KeysApart core xs →
      SameBytes s (sample s p core n xs).1 ∧
      (s.rcache.Rising → (s.coreLines core).length ≤ 2048 → ((sample s p core n xs).1.coreLines core).length ≤ 2048) ∧
      ((s.coreLines core).length + xs.length ≤ 2048 →
        (∀ x ∈ xs, (∀ l, x.ok.store ≠ .ethes l) → readFailure s p core x.ok.store x.ok.addr = none →
          (sample s p core n xs).2.1.get? x.lane = some (s.cload core x.ok.store x.ok.addr n) ∧
          (x.ok.store.cached = true → (sample s p core n xs).1.rcache.get? (State.lineKey core x.ok.store x.ok.addr) =
            some (s.lineOf core x.ok.store x.ok.addr))) ∧
        (WindowsOfLines (s.part p) → ∀ x ∈ xs, ∀ code, readFailure s p core x.ok.store x.ok.addr = some code →
          (sample s p core n xs).2.1.get? x.lane = none ∧ (sample s p core n xs).2.2.get? x.lane = some (code, x.va)))) ∧
    (∀ (s : State) core st a n, st.cached = true → a % 128 + n ≤ 128 → s.rcache.get? (State.lineKey core st a) = none →
      (∀ l, st ≠ .ethes l) → s.cload core st a n = (s.memOf st).read a n) :=
  ⟨fun _ _ a n v h => ⟨State.load_store_same h a n v, fun _ _ => State.byte_store_apart h v⟩,
    fun _ _ _ _ xs lanes apart => ⟨sample_sameBytes xs, fun rising most => (sample_keeps_capacity xs ⟨rising, most⟩).2,
      fun room => ⟨fun _ hx own => sample_finds lanes apart room hx own,
        fun windows _ hx _ => sample_fails windows lanes apart room hx⟩⟩,
    fun _ _ _ _ _ => State.cload_of_absent⟩

/-- A reset machine whose partition 0 has one window from an address on, its only port down, so that every read of it fails. -/
def windowDown (base : Nat) : State :=
  { State.reset.updPart 0 fun x => { x with windows := [{ base, len := 2 ^ 28, ports := 1, link := 0, ethes := false, target := 0 }] } with
    ports := [(0, { state := 2 })] }

/-- Lanes 0 and 1 at bytes 0 and 64 of pooled memory, in one line. -/
def halves64 : List Spot := [⟨0, 0, { store := .cxl, addr := 0 }⟩, ⟨1, 64, { store := .cxl, addr := 64 }⟩]

/-- The condition on windows is met by a window of Table 08.2, and needed: where a window begins inside a line, the lane below it brings the
line and the lane in it, whose read fails, finds the copy. -/
theorem windowDown_cuts_line :
    (∀ w ∈ ((windowDown (2 ^ 28)).part 0).windows, w.base % 128 = 0 ∧ w.len % 128 = 0) ∧
    readFailure (windowDown 64) 0 0 .cxl 64 = some 0x0A02 ∧ (sample (windowDown 64) 0 0 1 halves64).2.2.get? 1 = none := by decide +kernel

/-- A full cache of core 0 whose keys stand out of order: lines 1 to 2,047 of Lode, and then line 0. -/
def outOfOrder : State := { State.reset with rcache := (1, 0) :: (List.range' 2 2046 ++ [0]).map fun l => (l, 0) }

/-- A lane at byte 0 of Lode. -/
def spotZero : Spot := ⟨0, 0, { store := .lode 0, addr := 0 }⟩

theorem length_entries_of_core_zero {m : FMap Nat} (h : ∀ e ∈ m, e.1 < 2 ^ 84) : (m.filter fun e => e.1 / 2 ^ 84 == 0).length = m.length := by
  rw [List.filter_eq_self.mpr fun e he => by simpa using h e he]

theorem outOfOrder_below {e : Nat × Nat} (h : e ∈ outOfOrder.rcache) : e.1 < 2048 := by
  rcases List.mem_cons.mp h with rfl | h
  · decide
  · obtain ⟨l, hl, rfl⟩ := List.mem_map.mp h
    rcases List.mem_append.mp hl with hl | hl
    · have := List.mem_range'_1.mp hl; omega
    · rw [List.mem_singleton.mp hl]; decide

theorem outOfOrder_length : outOfOrder.rcache.length = 2048 := by simp [outOfOrder]

theorem has_last (m : FMap Nat) (ls : List Nat) (n : Nat) : FMap.has (m ++ (ls ++ [n]).map fun l => (l, 0)) n = true :=
  FMap.has_of_mem_keys (by simp [FMap.keys])

/-- Line 0 is held, behind lines with higher keys. -/
theorem outOfOrder_has_zero : outOfOrder.rcache.has (State.lineKey 0 spotZero.ok.store spotZero.ok.addr) = true :=
  has_last [(1, 0)] (List.range' 2 2046) 0

/-- A read of the line that is held enters it a second time, in front, and the cache has 2,049 entries. -/
theorem outOfOrder_sample : (sample outOfOrder 0 0 1 [spotZero]).1.rcache =
    (0, outOfOrder.lineOf 0 (.lode 0) 0) :: outOfOrder.rcache := by
  have found : readFailure outOfOrder 0 0 spotZero.ok.store spotZero.ok.addr = none := readFailure_eq_none.mpr (.inl outOfOrder_has_zero)
  rw [sample_cons_of_found found]
  change (outOfOrder.fill 0 spotZero.ok.store spotZero.ok.addr).rcache = _
  rw [State.fill_rcache_of_held _ _ _ _ rfl outOfOrder_has_zero]
  exact FMap.set_of_lt_head (by decide) _ _ _

/-- Refutes O27: its bound of 2,048 lines is claimed of every list of entries, and fails where the keys of the full cache are not in rising
order (outOfOrder): a read of the line that is held then counts it twice. Such a table is no canonical one; the rest of the statement, and
the bound for a cache in order, is loadsReadTheLine_of_canonical. -/
theorem not_loadsReadTheLine : ¬ Obligations.LoadsReadTheLine := by
  rintro ⟨-, loads⟩
  obtain ⟨-, capacity, -⟩ := loads outOfOrder 0 0 1 [spotZero] (List.pairwise_singleton _ _) fun x hx y hy _ => by
    rw [List.mem_singleton.mp hx, List.mem_singleton.mp hy]; exact ⟨rfl, rfl⟩
  have below : ∀ e ∈ outOfOrder.rcache, e.1 < 2 ^ 84 := fun e he => Nat.lt_trans (outOfOrder_below he) (by decide)
  have before : (outOfOrder.rcache.filter fun e => e.1 / 2 ^ 84 == 0).length = 2048 := by
    rw [length_entries_of_core_zero below, outOfOrder_length]
  have after : ((sample outOfOrder 0 0 1 [spotZero]).1.rcache.filter fun e => e.1 / 2 ^ 84 == 0).length = 2049 := by
    rw [outOfOrder_sample, length_entries_of_core_zero (List.forall_mem_cons.mpr ⟨by decide, below⟩), List.length_cons, outOfOrder_length]
  have bound := capacity (Nat.le_of_eq before)
  rw [after] at bound
  exact absurd bound (by decide)

end Sys2Proof.Machine
end
